-- ==== Sys2Proof/Word.lean ====
section
/-! DEFINITION. The word types of the plain: bytes, 32-bit and 64-bit words. -/

namespace Sys2Proof

/-- One byte of a basin, a tier, the store or a pilot SRAM. -/
abbrev Byte := BitVec 8

/-- A 32-bit word: scalar registers, accumulator words, binary32 values (R191, R125). -/
abbrev Word := BitVec 32

/-- A 64-bit register of the CSR port, or an 8-byte word of a basin (R17, R38). -/
abbrev Reg64 := BitVec 64

end Sys2Proof
end

