-- ==== Sys2Proof/Syntax.lean ====
section
/-! DEFINITION. The commands of the plain: one constructor of `Instr` per row of spec/opcode_table.json, with the
operands the row's rule gives it. A `core` operand is a LOGICAL core number (R7); a `shoal`, `bay`, `port`, `win`
or `ctx` operand is that unit's number; an `id` operand is the AXI ID of the master that made the write (R19). -/

namespace Sys2Proof

/-- AXI burst types; the port takes single beats and INCR bursts only (R17). -/
inductive BurstKind where
  | fixed | incr | wrap
  deriving DecidableEq, Repr

/-- One write transaction on the CSR port (R17, R19, R410). -/
structure AxiWrite where
  id : BitVec 12
  addr : Nat
  beats : List Reg64
  size : Nat := 8
  burst : BurstKind := .incr
  strobes : BitVec 8 := 255
  exclusive : Bool := false
  deriving DecidableEq, Repr

/-- What travels with every operation a long word starts: its command tag (R187), its POST and SHORT_TAG (R165), its
EXPECT (R203), the explicit deadline in force (R206), its offset in cove 0, its context and its issue number. -/
structure WordCtx where
  tag : BitVec 24
  post : Bool
  stamp : BitVec 16
  expect : Option (Nat × BitVec 16)
  deadline : Option Nat
  off : Nat
  ctx : Nat
  count : Nat
  deriving DecidableEq, Repr

/-- A captured tile descriptor (Table 6-4): SPAN, ROWS and SPREAD are the stored "minus 1" values. -/
structure TileDesc where
  rstride : Nat
  cstride : Nat
  span : Nat
  rows : Nat
  coveV : Bool
  cove : Nat
  spread : Nat
  wrap : Bool
  axis : Bool
  soff : Int
  bstride : Nat
  deriving DecidableEq, Repr

/-- A basin operand of a slot: base chunk, captured descriptor, and the extent of its cove for WRAP (R175, R176). -/
structure Operand where
  base : Nat
  desc : TileDesc
  wrapBase : Nat
  wrapLen : Nat
  deriving DecidableEq, Repr

/-- A captured drain mode (Table 6-5). -/
structure DrainMode where
  user : Nat
  stoch : Bool
  outFmt : Nat
  resBf16 : Bool
  resMul : Bool
  recSet : Nat
  recMode : Nat
  recUse : Nat
  strand : Nat
  stages : Nat
  cross : Bool
  deriving DecidableEq, Repr

/-- A captured predicate pair (R221): the five pair registers. -/
structure PredPair where
  edge : Reg64
  rowLo : Reg64
  rowHi : Reg64
  colLo : Reg64
  colHi : Reg64
  deriving DecidableEq, Repr

/-- A vector slot (Table 6-6): `run` is the run-time count read from RS at issue, `scal` the scalar register that
BCAST reads at issue (R172, R211). -/
structure VecArgs where
  ty : Nat
  dty : Nat
  vd : Nat
  va : Nat
  vb : Nat
  vc : Nat
  count : Nat
  run : Option Nat
  scal : Word
  deriving DecidableEq, Repr

/-- A PASS (Table 6-8): TILES, NOUT, VECS and BATCH are the stored "minus 1" values, `run` the run-time tile count. `wdec` and
`adec` say that the operand names the decoder of its inlet; `wfmt` and `afmt` are then what that delivers (R161). -/
structure PassArgs where
  wfmt : Nat
  afmt : Nat
  sparse : Bool
  cross : Bool
  wkeep : Bool
  lkeep : Bool
  ovr : Bool
  vecs : Nat
  tiles : Nat
  nout : Nat
  entry : Nat
  batch : Nat
  run : Option Nat
  pred : Option PredPair
  wop : Operand
  aop : Operand
  wdec : Bool := false
  adec : Bool := false
  deriving DecidableEq, Repr

/-- A DRAIN (Table 6-9) with its captured mode and operands. -/
structure DrainArgs where
  first : Nat
  count : Nat
  run : Option Nat
  set : Nat
  mode : DrainMode
  oop : Operand
  sAddr : Nat
  rop : Operand
  deriving DecidableEq, Repr

/-- A PARAM (Table 6-11): PARTS bit 0 header, bit 1 vectors, bit 2 table. -/
structure ParamArgs where
  set : Nat
  parts : Nat
  base : Nat
  deriving DecidableEq, Repr

/-- VLOAD and VSTORE: the first vector register and the basin operand. -/
structure MoveArgs where
  v : Nat
  opnd : Operand
  run : Option Nat
  deriving DecidableEq, Repr

/-- TLOAD and TSTORE: the basin operand and the tier address in 64 B units. -/
structure TierArgs where
  opnd : Operand
  run : Option Nat
  taddr : Nat
  deriving DecidableEq, Repr

/-- DLOAD: first entry, entries minus 1, source chunk. -/
structure DloadArgs where
  first : Nat
  n : Nat
  base : Nat
  deriving DecidableEq, Repr

/-- SEND: the basin source, the captured route entry and its number, and the captured destination cores (R238, R282). -/
structure SendArgs where
  opnd : Operand
  run : Option Nat
  route : Nat
  lo : Reg64
  hi : Reg64
  dstDesc : TileDesc
  members : List Nat
  deriving DecidableEq, Repr

/-- An operation in a unit queue (Table 6-3). `vec` carries the code of Table 6-7. -/
inductive QOp where
  | vec (code : Nat) (a : VecArgs)
  | pass (a : PassArgs)
  | drain (a : DrainArgs)
  | param (a : ParamArgs)
  | vload (a : MoveArgs)
  | tload (a : TierArgs)
  | dload (a : DloadArgs)
  | vstore (a : MoveArgs)
  | tstore (a : TierArgs)
  | send (a : SendArgs)
  | eng (cmd : Nat)
  deriving DecidableEq, Repr

/-- The identity of a producer of writes (Table 16-5); `serial` tells two producers of one displayed identity apart. -/
structure Producer where
  kind : Nat
  ident : Nat
  serial : Nat
  deriving DecidableEq, Repr

/-- The ports of a core that reach its basin, in the order of R46 item 4 where they share it (Table 2-3). -/
inductive Port where
  | weight | act | estRead | estWrite | vecRead | vecWrite | sclRead | sclWrite | dmaRead | dmaWrite | engine | debug
  deriving DecidableEq, Repr

/-- One run of bytes inside one chunk that an access touches: for a write `bytes` is the data, for a read its length. -/
structure Piece where
  addr : Nat
  bytes : List Byte
  deriving DecidableEq, Repr

/-- One basin access as it reaches its banks (R40, R46 to R52, R78 to R84). `posts` is the stamp a posting write carries and
`named` the slots, as cove and slot, that its producer names for posting (R79); `last` says it is its producer's last write to
the slots it touches; `poisoned` marks arriving poison (R56). `first` (the cycle of its first arbitration), `set` (the lease
set it is arbitrated under, R43), `whole` (its pieces before any part won), `retry`, `passed`, `breached` and `heldUntil` are
the plain's: an arriving access takes them anew. -/
structure Access where
  serial : Nat
  port : Port
  write : Bool
  pieces : List Piece
  producer : Producer
  posts : Option (BitVec 16)
  named : List (Nat × Nat) := []
  last : Bool
  expect : Option (Nat × BitVec 16)
  poisoned : Bool
  first : Option Nat
  set : Nat := 0
  whole : List Piece := []
  retry : Bool
  passed : Bool
  breached : Bool
  heldUntil : Nat
  w : WordCtx
  deriving DecidableEq, Repr

/-- A word in which this cycle's ECC check finds an error: `ue` says it is uncorrectable (R53 to R55). -/
structure Upset where
  word : Nat
  ue : Bool
  deriving DecidableEq, Repr

/-- The capability record of a partner (R290). -/
structure CapRecord where
  part : Reg64
  dieLo : Reg64
  dieHi : Reg64
  depth : Nat
  root : Bool
  aligned : Bool
  deriving DecidableEq, Repr

/-- The open record of a window landing on a strait, with the fields of Table 10-2 that stay constant. -/
structure OpenRecord where
  lane : Nat
  stamp : BitVec 16
  epoch : Nat
  step : Nat
  cid : Nat
  srcCore : Nat
  dstCore : Nat
  dstPos : Nat
  srcPos : Nat
  win : Nat
  slot : Nat
  elastic : Bool
  deriving DecidableEq, Repr

/-- One flit position of a strait block (Table 10-5). -/
inductive StraitSlot where
  | empty
  | data (lane seq : Nat) (last : Bool) (chunks : List (List Byte))
  | opening (r : OpenRecord)
  | grant (dstPos win first count : Nat)
  | reply (dstPos srcPos core win code found : Nat) (dropped : Bool) (cid : Nat)
  deriving DecidableEq, Repr

/-- The control field of a block: breach, repeat, mend and resume beacons and armed-group announcements (R265, R268, R313, R319). -/
inductive Beacon where
  | breach (group step : Nat)
  | repeated (group step : Nat)
  | mend (group step : Nat)
  | resume (group step start : Nat)
  | armed (groups : List Nat)
  | measure (sentAt : Nat) (aligned root : Bool) (depth : Nat)
  deriving DecidableEq, Repr

/-- A strait block as it arrives: departure tick, positions with a bad-codeword mark, control field, lock (R248, R289). -/
structure StraitBlock where
  tick : Nat
  slots : List (StraitSlot × Bool)
  control : List Beacon
  badCodewords : Nat
  locked : Bool
  deriving DecidableEq, Repr

/-- What the rails, tier controllers and devices answer to the measurements of bring-up (R401, R402), in 0.1 mV and GiB. -/
structure Measure where
  logicIdle : Nat
  logicLoad : Nat
  ledgeIdle : Nat
  ledgeLoad : Nat
  strandIdle : Nat
  strandLoad : Nat
  hbmStacks : Nat
  cxlLinks : Nat
  cxl0 : Nat
  cxl1 : Nat
  deriving DecidableEq, Repr

/-- An event to be written by the lead pilot (Table 13-6): `ctx` none for a plain event. -/
structure Event where
  kind : Nat
  ctx : Option Nat
  time : Nat
  detail : Reg64
  deriving DecidableEq, Repr

/-- A trace record before it is written (Table 16-4). -/
structure TraceRec where
  time : Nat
  core : Nat
  kind : Nat
  code : Nat
  tag : BitVec 24
  count : Reg64
  detail : Reg64
  deriving DecidableEq, Repr

/-- The commands, in the order of spec/opcode_table.json; each docstring is the row's rule and summary. -/
inductive Instr where
  /-- R411. A CSR write to a register that has no row of its own is applied field by field at its apply tick. -/
  | registerWrite (ws : List AxiWrite)
  /-- R30. A RAIL_GOOD signal falls after reset: the plain fences every step, holds all shoals and raises an event. -/
  | railFault (logic ledge strand : Bool)
  /-- R31. THROTTLE_REQ rises, and within 200 ns the governor's limit becomes FLOOR. -/
  | throttleReqRise
  /-- R273. THROTTLE_REQ falls, and BUDGET becomes the governor's limit again. -/
  | throttleReqFall
  /-- R32. LOAD_STEP is asserted 1 µs before a frame whose budgeted power rises by more than 0.2 kW. -/
  | loadStepAssert
  /-- R32. LOAD_STEP is released 1 µs after the frame has started. -/
  | loadStepRelease
  /-- R29. The tide reference input stops, so the tide root enters holdover and sets HOLDOVER. -/
  | holdover
  /-- R246. An island leaves ±0.45 ns or loses lock, and its core records the hardware fault ISLAND_LOST. -/
  | islandLost (core : Nat)
  /-- R46. In one arbitration (tag-stage) cycle, the accesses that reach a bank are ordered, tags are checked and changed, and the governor admits or holds each access. -/
  | bankArbitration (core : Nat) (arrivals : List Access)
  /-- R42. An access reads or writes its banks in its bank cycle, including accumulate-on-write and parity deltas. -/
  | basinBankCycle (core : Nat) (upsets : List Upset)
  /-- R41. A basin read delivers its data at the port seven cycles after issue, later by any stalls. -/
  | basinReadData (core : Nat)
  /-- R324. A poisoned chunk in a shadowed cove is rebuilt in place from the parity through the shadow bus. -/
  | chunkRepair (core addr : Nat)
  /-- R55. A chunk repair completes within 2 µs: it clears poison and lets the stalled read complete, or counts REPAIR_FAILS. -/
  | chunkRepairDone (core addr : Nat)
  /-- R308. The shadow bus moves one queued delta to the reserve, which XORs it into the parity. -/
  | deltaApply (shoal ledge : Nat)
  /-- R59. A write of PUSH copies the CSR command into the ledge-engine queue when a place is free. -/
  | ldgEngPush (core : Nat) (id : BitVec 12)
  /-- R57. A ledge-engine NOP command starts and completes. -/
  | nop (core : Nat)
  /-- R57. A ledge-engine FILL writes a 32-bit pattern over whole chunks of the destination. -/
  | fill (core : Nat)
  /-- R57. A ledge-engine COPY copies the source range to the destination as if all were read before any write. -/
  | copy (core : Nat)
  /-- R86. ACC_OPEN opens an accumulate window, claiming its whole slots once they are free. -/
  | accOpen (core : Nat)
  /-- R65. ACC_CLOSE closes a window after every earlier write has been added, and posts or frees its slots. -/
  | accClose (core : Nat)
  /-- R61. A ledge-engine command completes, posts its stamp when enabled and counts in DONE_COUNT. -/
  | ledgeCmdComplete (core : Nat)
  /-- R62. A CSR-path command that has waited 100 µs is abandoned and may fault the cove's owner with TAG_TIMEOUT. -/
  | ledgeCmdTimeout (core : Nat)
  /-- R310. A queued FOLD sends a shadowed cove's contents as deltas and sets FOLDED when done. -/
  | fold (core : Nat)
  /-- R310. A queued UNFOLD removes a disabled shadowed cove's contents from the parity. -/
  | unfold (core : Nat)
  /-- R66. Every INTERVAL cycles the sweep reads a row, rewrites corrected words and handles uncorrectable ones. Core 1,280 + j is the
  reserve of shoal j. -/
  | sweepRow (core : Nat) (upsets : List Upset)
  /-- R66. After 64 cycles without an idle cycle, the sweep takes the next cycle ahead of every access and counts STEALS. -/
  | sweepSteal (core : Nat) (upsets : List Upset)
  /-- R68. A write of LDG_WASH.GO starts a wash that clears the core state at once and zeroes the basin. -/
  | washStart (core : Nat) (id : BitVec 12)
  /-- R69. 2,048 cycles after GO the wash completes, DONE sets, GO clears and the sweep restarts. -/
  | washDone (core : Nat)
  /-- R75. ENABLE going to 1 with a valid descriptor resets the cove's tags and pointers and may queue a FOLD. -/
  | coveEnable (core cove : Nat) (id : BitVec 12) (value : Reg64)
  /-- R90. ENABLE going to 0 ends pending releases of the cove and queues an UNFOLD for a shadowed cove. -/
  | coveDisable (core cove : Nat) (id : BitVec 12)
  /-- R94. A write of REL_GO releases REL_COUNT slots from REL_FIRST as the owner in the next cycle. -/
  | relGo (core cove : Nat) (id : BitVec 12) (first count : Nat)
  /-- R106. A write to COVE_TAG_DATA under HOLD sets the selected tag, and LEVEL is recomputed. -/
  | tagWrite (core : Nat) (id : BitVec 12) (value : Reg64)
  /-- R419. A write of PEAK_CLR gives PEAK the end-of-tick LEVEL. -/
  | peakClr (core cove : Nat) (id : BitVec 12)
  /-- R90. A release takes effect at its tag stage, turning FLOOD slots EBB or retained. -/
  | releaseApply (core : Nat)
  /-- R102. A window sends a grant message carrying newly grantable slots, no sooner than 64 ns after the last one. -/
  | harbourGrant (win : Nat)
  /-- R105. A grant message reaches the sender and adds the slots to its credit. -/
  | grantReceive (core plain win first count : Nat)
  /-- R169. A long word issues whole when its waits, queues and interlocks allow, and each slot enters its unit. -/
  | wordIssue (core : Nat)
  /-- R198. Fetch reads a chunk of cove 0 into its window under the tag check, following skip markers. -/
  | fetchChunk (core chunk : Nat)
  /-- R202. A write of COR_CTL.START begins fetch at ENTRY on a stopped, unfaulted core. -/
  | start (core : Nat) (id : BitVec 12) (entry ctx : Nat)
  /-- R202. STOPPED sets in the cycle after the last issued operation of a stopped or faulted core completes. -/
  | coreStopped (core : Nat)
  /-- R212. A unit operation completes and posts to the free slots it names, including operations of zero shape. -/
  | operationComplete (core : Nat)
  /-- R208. TID_NOW reaches an explicit deadline with a bound wait unresolved, and the operation is abandoned with TAG_TIMEOUT. -/
  | deadlineExpire (core : Nat)
  /-- R219. Within 2 µs of a context's first fault, every core running the context stops issuing. -/
  | contextLossStop (core : Nat)
  /-- R187. MARK sets the command tag of its word and later words, and resets the deadline to the step limit. -/
  | mark (core : Nat) (tag : BitVec 24)
  /-- R257. A frame mark issues when TID_NOW reaches its frame start, recording slip or slack in COR_SLIP. -/
  | frameMarkIssue (core : Nat)
  /-- R203. EXPECT makes the word's reads of a cove require a given stamp. -/
  | expect (core cove : Nat) (stamp : BitVec 16)
  /-- R204. WAIT holds issue until a chosen slot is FLOOD with the given stamp. -/
  | wait (core cove off : Nat) (stamp : BitVec 16)
  /-- R173. REL issues a release of cove slots that takes effect after earlier reads pass their tag stage. -/
  | rel (core cove first count : Nat)
  /-- R43. LEASE writes LDG_LEASE_ACT.SET for accesses issued from the next cycle. -/
  | lease (core set : Nat)
  /-- R206. DLINE sets the command's deadline relative to the step start. -/
  | dline (core deadline : Nat)
  /-- R202. STOP ends issue after its word, and the core stops once its operations complete. -/
  | stop (core : Nat)
  /-- R141. Vector element-wise addition. -/
  | vAdd (core : Nat) (w : WordCtx) (a : VecArgs)
  /-- R141. Vector element-wise subtraction. -/
  | vSub (core : Nat) (w : WordCtx) (a : VecArgs)
  /-- R141. Vector element-wise multiplication. -/
  | vMul (core : Nat) (w : WordCtx) (a : VecArgs)
  /-- R141. Vector fused multiply-add with one rounding. -/
  | vFma (core : Nat) (w : WordCtx) (a : VecArgs)
  /-- R141. Vector IEEE minimum. -/
  | vMin (core : Nat) (w : WordCtx) (a : VecArgs)
  /-- R141. Vector IEEE maximum. -/
  | vMax (core : Nat) (w : WordCtx) (a : VecArgs)
  /-- R141. Vector absolute value. -/
  | vAbs (core : Nat) (w : WordCtx) (a : VecArgs)
  /-- R141. Vector negation. -/
  | vNeg (core : Nat) (w : WordCtx) (a : VecArgs)
  /-- R141. Vector compare for equality. -/
  | vCmpEq (core : Nat) (w : WordCtx) (a : VecArgs)
  /-- R141. Vector compare for less than. -/
  | vCmpLt (core : Nat) (w : WordCtx) (a : VecArgs)
  /-- R141. Vector compare for less or equal. -/
  | vCmpLe (core : Nat) (w : WordCtx) (a : VecArgs)
  /-- R141. Vector select by a condition operand. -/
  | vSel (core : Nat) (w : WordCtx) (a : VecArgs)
  /-- R141. Vector fill with element indices. -/
  | vIota (core : Nat) (w : WordCtx) (a : VecArgs)
  /-- R141. Vector broadcast of a scalar register. -/
  | vBcast (core : Nat) (w : WordCtx) (a : VecArgs)
  /-- R142. Vector conversion between element types with rounding and saturation. -/
  | vCvt (core : Nat) (w : WordCtx) (a : VecArgs)
  /-- R144. Vector correctly rounded exp2. -/
  | vExp2 (core : Nat) (w : WordCtx) (a : VecArgs)
  /-- R144. Vector correctly rounded log2. -/
  | vLog2 (core : Nat) (w : WordCtx) (a : VecArgs)
  /-- R144. Vector correctly rounded reciprocal. -/
  | vRcp (core : Nat) (w : WordCtx) (a : VecArgs)
  /-- R144. Vector correctly rounded reciprocal square root. -/
  | vRsqrt (core : Nat) (w : WordCtx) (a : VecArgs)
  /-- R144. Vector correctly rounded square root. -/
  | vSqrt (core : Nat) (w : WordCtx) (a : VecArgs)
  /-- R143. Vector sum reduction into a scalar register. -/
  | vRsum (core : Nat) (w : WordCtx) (a : VecArgs)
  /-- R143. Vector maximum reduction into a scalar register. -/
  | vRmax (core : Nat) (w : WordCtx) (a : VecArgs)
  /-- R143. Vector index-of-maximum reduction into a scalar register. -/
  | vRargmax (core : Nat) (w : WordCtx) (a : VecArgs)
  /-- R181. A matrix PASS walks its tiles with outputs innermost, loading weights and activations into the array. -/
  | pass (core : Nat) (w : WordCtx) (a : PassArgs)
  /-- R116. A tile's parts and side blocks issue at the weight inlet. -/
  | tileIssue (core : Nat)
  /-- R118. A segment swaps a delivered tile from shadow to active on its wavefront, or holds until its part arrives. -/
  | segmentSwap (core r c : Nat)
  /-- R132. A column segment's residue check passes, or squashes and reissues the tile and those behind it. -/
  | residueCheck (core seg : Nat) (mismatch : Option Nat)
  /-- R127. A tile commits its partial sums into accumulator entries, or queues them behind a drain. -/
  | tileCommit (core : Nat)
  /-- R147. A DRAIN reads accumulator entries through the estuary stages and writes the results to the basin. -/
  | drain (core : Nat) (w : WordCtx) (a : DrainArgs)
  /-- R156. The softmax stage writes the MAX or SUM record into a parameter set after the drain's last entry. -/
  | softmaxRecord (core : Nat)
  /-- R150. PARAM loads the header, vectors or table of an estuary parameter set from the basin. -/
  | param (core : Nat) (w : WordCtx) (a : ParamArgs)
  /-- R184. VLOAD moves a basin stream into vector registers. -/
  | vload (core : Nat) (w : WordCtx) (a : MoveArgs)
  /-- R184. TLOAD moves a tier range into the basin. -/
  | tload (core : Nat) (w : WordCtx) (a : TierArgs)
  /-- R174. DLOAD writes descriptor entries from the basin. -/
  | dload (core : Nat) (w : WordCtx) (a : DloadArgs)
  /-- R184. VSTORE moves vector registers into a basin stream. -/
  | vstore (core : Nat) (w : WordCtx) (a : MoveArgs)
  /-- R184. TSTORE moves a basin stream to a tier range. -/
  | tstore (core : Nat) (w : WordCtx) (a : TierArgs)
  /-- R284. SEND makes a consignment of flits for each destination core through its route entry. -/
  | send (core : Nat) (w : WordCtx) (a : SendArgs)
  /-- R185. ENG reads a ledge-engine command through the scalar port and queues it. -/
  | eng (core : Nat) (w : WordCtx) (cmd : Nat)
  /-- R195. Scalar integer addition. -/
  | add (core : Nat) (rd ra rb : Fin 32)
  /-- R195. Scalar integer subtraction. -/
  | sub (core : Nat) (rd ra rb : Fin 32)
  /-- R195. Scalar bitwise AND. -/
  | and (core : Nat) (rd ra rb : Fin 32)
  /-- R195. Scalar bitwise OR. -/
  | or (core : Nat) (rd ra rb : Fin 32)
  /-- R195. Scalar bitwise XOR. -/
  | xor (core : Nat) (rd ra rb : Fin 32)
  /-- R195. Scalar shift left logical. -/
  | sll (core : Nat) (rd ra rb : Fin 32)
  /-- R195. Scalar shift right logical. -/
  | srl (core : Nat) (rd ra rb : Fin 32)
  /-- R195. Scalar shift right arithmetic. -/
  | sra (core : Nat) (rd ra rb : Fin 32)
  /-- R195. Scalar set if less than, signed. -/
  | slt (core : Nat) (rd ra rb : Fin 32)
  /-- R195. Scalar set if less than, unsigned. -/
  | sltu (core : Nat) (rd ra rb : Fin 32)
  /-- R195. Scalar multiply, low word. -/
  | mul (core : Nat) (rd ra rb : Fin 32)
  /-- R195. Scalar unsigned multiply, high word. -/
  | mulhu (core : Nat) (rd ra rb : Fin 32)
  /-- R193. Scalar unsigned divide; division by zero traps at issue. -/
  | divu (core : Nat) (rd ra rb : Fin 32)
  /-- R193. Scalar unsigned remainder; division by zero traps at issue. -/
  | remu (core : Nat) (rd ra rb : Fin 32)
  /-- R195. Scalar add immediate. -/
  | addi (core : Nat) (rd ra : Fin 32) (imm : BitVec 16)
  /-- R195. Scalar AND immediate. -/
  | andi (core : Nat) (rd ra : Fin 32) (imm : BitVec 16)
  /-- R195. Scalar OR immediate. -/
  | ori (core : Nat) (rd ra : Fin 32) (imm : BitVec 16)
  /-- R195. Scalar XOR immediate. -/
  | xori (core : Nat) (rd ra : Fin 32) (imm : BitVec 16)
  /-- R195. Scalar shift left by immediate. -/
  | slli (core : Nat) (rd ra : Fin 32) (imm : BitVec 16)
  /-- R195. Scalar logical shift right by immediate. -/
  | srli (core : Nat) (rd ra : Fin 32) (imm : BitVec 16)
  /-- R195. Scalar arithmetic shift right by immediate. -/
  | srai (core : Nat) (rd ra : Fin 32) (imm : BitVec 16)
  /-- R195. Scalar load of an upper immediate. -/
  | lui (core : Nat) (rd : Fin 32) (imm : BitVec 16)
  /-- R193. Scalar binary32 addition. -/
  | fadd (core : Nat) (rd ra rb : Fin 32)
  /-- R193. Scalar binary32 subtraction. -/
  | fsub (core : Nat) (rd ra rb : Fin 32)
  /-- R193. Scalar binary32 multiplication. -/
  | fmul (core : Nat) (rd ra rb : Fin 32)
  /-- R193. Scalar binary32 division. -/
  | fdiv (core : Nat) (rd ra rb : Fin 32)
  /-- R195. Scalar binary32 minimum. -/
  | fmin (core : Nat) (rd ra rb : Fin 32)
  /-- R195. Scalar binary32 maximum. -/
  | fmax (core : Nat) (rd ra rb : Fin 32)
  /-- R195. Scalar binary32 compare for equality. -/
  | feq (core : Nat) (rd ra rb : Fin 32)
  /-- R195. Scalar binary32 compare for less than. -/
  | flt (core : Nat) (rd ra rb : Fin 32)
  /-- R195. Scalar binary32 compare for less or equal. -/
  | fle (core : Nat) (rd ra rb : Fin 32)
  /-- R193. Scalar conversion of binary32 to INT32 with saturation. -/
  | fcvtWS (core : Nat) (rd ra : Fin 32)
  /-- R195. Scalar conversion of INT32 to binary32. -/
  | fcvtSW (core : Nat) (rd ra : Fin 32)
  /-- R192. Scalar load of a word from the scalar store. -/
  | lw (core : Nat) (rd ra : Fin 32) (imm : BitVec 16)
  /-- R192. Scalar store of a word to the scalar store. -/
  | sw (core : Nat) (rb ra : Fin 32) (imm : BitVec 16)
  /-- R196. Scalar tag-checked load of an 8-byte basin word into a register pair. -/
  | bld (core : Nat) (rd ra : Fin 32) (imm : BitVec 16)
  /-- R196. Scalar non-posting store of a register pair to an 8-byte basin word. -/
  | bst (core : Nat) (rb ra : Fin 32) (imm : BitVec 16)
  /-- R199. Branch if equal. -/
  | beq (core : Nat) (ra rb : Fin 32) (imm : BitVec 16)
  /-- R199. Branch if not equal. -/
  | bne (core : Nat) (ra rb : Fin 32) (imm : BitVec 16)
  /-- R199. Branch if less than, signed. -/
  | blt (core : Nat) (ra rb : Fin 32) (imm : BitVec 16)
  /-- R199. Branch if greater or equal, signed. -/
  | bge (core : Nat) (ra rb : Fin 32) (imm : BitVec 16)
  /-- R199. Branch if less than, unsigned. -/
  | bltu (core : Nat) (ra rb : Fin 32) (imm : BitVec 16)
  /-- R199. Branch if greater or equal, unsigned. -/
  | bgeu (core : Nat) (ra rb : Fin 32) (imm : BitVec 16)
  /-- R199. Jump to a target and link the next word's offset. -/
  | jal (core : Nat) (rd : Fin 32) (target : BitVec 18)
  /-- R197. Jump to a register-relative target and link. -/
  | jalr (core : Nat) (rd ra : Fin 32) (imm : BitVec 16)
  /-- R162. A custom strand opcode returns its result after its declared latency. -/
  | custom (core : Nat) (fn : BitVec 6) (rd ra rb : Fin 32)
  /-- R195. Reads TID_NOW into a register pair. -/
  | tide (core : Nat) (rd : Fin 32)
  /-- R217. Faults the core with SCALAR_TRAP and records IMM16. -/
  | trap (core : Nat) (imm : BitVec 16)
  /-- R237. A write to a tree record word takes effect only when the record is valid or being invalidated. -/
  | dtreeWrite (id : BitVec 12) (value : Reg64)
  /-- R247. A flit is released into the next pass on a fixed tick distance and forwarded by dimension order, with multicast branching. -/
  | flitRelease (cons seq : Nat)
  /-- R296. The destination pass checks the first flit of a consignment for epoch, window grant and ownership. -/
  | consignmentFirstFlit (cons dst : Nat)
  /-- R285. A consignment flit lands its chunks in the destination basin. -/
  | flitLand (cons dst seq : Nat)
  /-- R287. The LAST flit commits the consignment and posts its stamp to all its slots. -/
  | consignmentCommit (cons dst : Nat)
  /-- R296. A ROLE_STALE reply reaches the sender, and the lead pilot receives a notice. -/
  | roleStale (core cid srcPos win found : Nat) (dropped : Bool)
  /-- R103. A DENIED reply reaches the sender, whose core faults with HARBOUR_DENIED. -/
  | denied (core cid : Nat)
  /-- R295. A REVOKE reply makes the sender drop its credit and answer with REVOKE_ACK. -/
  | revoke (core plain win : Nat)
  /-- R295. REVOKE_ACK reaches the window, completing the close. -/
  | revokeAck (win : Nat)
  /-- R342. A DISCARD reply reaches the sender's lead pilot, which repeats the hand-off. -/
  | discard (core cid srcPos : Nat)
  /-- R294. A write of OPEN_GO opens a harbour window and grants its free slots. -/
  | openGo (win : Nat) (id : BitVec 12)
  /-- R295. A write of CLOSE_GO stops granting and sends REVOKE to the bound sender. -/
  | closeGo (win : Nat) (id : BitVec 12)
  /-- R297. A write of BAY_ROLE applies the new epoch to first flits checked from the next cycle. -/
  | bayRoleWrite (bay : Nat) (id : BitVec 12) (role epoch : Nat)
  /-- R289. A strait block arrives; its flits are decoded, released at HOP_NS, misrouted flits dropped and bad codewords poisoned. -/
  | straitBlockReceive (port : Nat) (b : StraitBlock)
  /-- R293. A write of ENABLE starts or stops a strait's training. -/
  | linkEnable (port : Nat) (id : BitVec 12) (value : Reg64)
  /-- R293. A write of RETRAIN takes a link DOWN and trains it again. -/
  | retrain (port : Nat) (id : BitVec 12)
  /-- R289. All four lanes pass link training, and the link enters LOCK. -/
  | linkTrainDone (port : Nat) (loss margin : BitVec 16)
  /-- R290. Deskew and codeword lock hold for 64 blocks, and the link enters EXCHANGE. -/
  | linkLockDone (port : Nat)
  /-- R289. TRAIN, LOCK or EXCHANGE exceeds its limit, and the link restarts training. -/
  | linkStateTimeout (port : Nat)
  /-- R290. A link in EXCHANGE sends its capability record every 16 µs until it is acknowledged. -/
  | capabilityRecordSend (port : Nat)
  /-- R291. The partner's capability record fills STR_PART and runs the identity check. -/
  | capabilityRecordReceive (port : Nat) (r : CapRecord)
  /-- R292. The measurement becomes VALID, and the link enters UP. -/
  | linkUp (port : Nat)
  /-- R293. A link goes DOWN on lock loss, errors or a write, and in-flight consignments are handled. -/
  | linkDown (port cause : Nat)
  /-- R288. A strait carrying scheduled traffic of an armed bay goes down or stops fitting, and the bay is fenced with LINK_LOST. -/
  | linkLost (port : Nat)
  /-- R249. A beacon exchange completes and updates RTT, OFFSET, fit and alignment state. -/
  | beaconExchange (port : Nat) (t1 t2 t3 t4 : Int) (parentOk : Bool) (parentDepth : Nat)
  /-- R300. A tier port issues a queued request by per-bay deficit round-robin. -/
  | tierRequestIssue (port : Nat) (far : Bool)
  /-- R23. A tier read reply lands, poisoning chunks reported uncorrectable. -/
  | tierReadReply (req : Nat) (ue : List Nat)
  /-- R301. A tier write is acknowledged and becomes visible. -/
  | tierWriteAck (req : Nat)
  /-- R255. A write of ARM 1 starts a bay's step grid. -/
  | schedArm (bay : Nat) (id : BitVec 12) (value : Reg64)
  /-- R255. A write of ARM 0 stops a bay's grid, and recovers a halted bay. -/
  | schedDisarm (bay : Nat) (id : BitVec 12)
  /-- R260. A step starts: retained slots clear, the fence copy is taken and fence marks issue. -/
  | stepStart (bay : Nat)
  /-- R275. At a frame end, a bay whose charge exceeded the frame's UNITS counts OVERPLAN. -/
  | frameEnd (bay : Nat)
  /-- R265. At the step limit a bay with a core short of its fence breaches and sends a breach beacon. -/
  | stepLimit (bay : Nat)
  /-- R266. A breach beacon for the group is forwarded and marks the receiving bay breached. -/
  | breachBeaconReceive (group step : Nat)
  /-- R268. A repeat beacon holds the receiving bay at its fence with HALTED set. -/
  | repeatBeaconReceive (group step : Nat)
  /-- R267. At the end of a breached step the bay abandons its work and restores the fence copy. -/
  | breachRestore (bay : Nat)
  /-- R267. At S' the replay starts and the restored fence marks issue. -/
  | replayStart (bay : Nat)
  /-- R272. Each 8 ns slice the governor renews its window and serves shoals with held accesses by deficit round-robin. -/
  | governorSlice
  /-- R313. In the tick after a core-takeover fault the bay fences and a mend beacon is sent. -/
  | mendFence (core : Nat)
  /-- R302. Uncorrectable parity in core state records ARITH_RESIDUE with SOURCE 2. -/
  | arithParityFault (core : Nat)
  /-- R313. A mend beacon fences the receiving bay of the group. -/
  | mendBeaconReceive (group step : Nat)
  /-- R314. The fence phase ends, the mend conditions are checked and the failed island is isolated. -/
  | mendCheck (shoal : Nat)
  /-- R315. The reserve's basin is rebuilt from parity while its self-test runs. -/
  | mendRebuild (shoal : Nat)
  /-- R316. The reserve's self-test ends, and a failure sets DEAD. -/
  | selfTestDone (shoal : Nat) (pass : Bool)
  /-- R317. The reserve takes the failed logical number and its configuration, and SPENT sets. -/
  | mendRenumber (shoal : Nat)
  /-- R318. The mend component runs the declared restore routine on the reserve. -/
  | mendRestore (shoal : Nat)
  /-- R318. A restore routine running longer than RESTORE_NS places the mend outside the promise. -/
  | restoreTimeout (shoal : Nat)
  /-- R322. After PILOT_US without a restore phase, the lead pilot takes over the mend. -/
  | mendPilotTimeout (shoal : Nat)
  /-- R319. Fence copies are restored, hardware faults cleared and a resume beacon sent announcing S'. -/
  | mendResume (shoal : Nat)
  /-- R319. A resume beacon sets the latest S' from which a fenced bay replays. -/
  | resumeBeaconReceive (group step start : Nat)
  /-- R326. The lead pilot moves a lost port's plans and routes to its twin and resumes the group. -/
  | linkMend (port : Nat)
  /-- R311. The reserve's island or datapath fails, and SPENT sets with RESERVE_SPENT raised. -/
  | reserveLost (shoal : Nat)
  /-- R311. The shoal island or its fence store fails, and DEAD sets. -/
  | shoalIslandLost (shoal : Nat)
  /-- R328. A write of SERVICE_GO self-tests the last failed core and makes it the spare. -/
  | serviceGo (shoal : Nat) (id : BitVec 12)
  /-- R329. GO with DIR 0 checks identity and copies mirror segments from far tier into basins. -/
  | mirrorLoad (id : BitVec 12) (base : Nat)
  /-- R329. GO with DIR 1 writes basin segments to the mirror. -/
  | mirrorSave (id : BitVec 12) (base : Nat)
  /-- R329. A mirror operation ends, setting DONE or ERR. -/
  | mirrorDone
  /-- R334. A write of POP removes the shown notice entry. -/
  | pop (pilot : Nat) (id : BitVec 12)
  /-- R336. A firmware component that traps, misses its watchdog or fails to return is restarted, or held down. -/
  | componentRestart (pilot comp : Nat)
  /-- R338. A machine-mode trap or SRAM error resets a pilot. -/
  | pilotReset (pilot : Nat)
  /-- R389. The loader zeroes a reset pilot's SRAM, copies its frames again and starts it. -/
  | pilotReload (pilot : Nat)
  /-- R370. The ring server copies a submission entry, refuses it or creates a ledger entry. -/
  | submissionRead (ctx queue : Nat)
  /-- R339. The scheduler places the next submission of a bay, with terrace choice and admission. -/
  | submissionPlace (bay : Nat)
  /-- R235. Once the shape-block FILLs complete, the tiler writes ENTRY and starts the core. -/
  | tilerStart (bay : Nat)
  /-- R340. Firmware writes a completion entry once the following step has started without breach. -/
  | completionWrite (entry : Nat)
  /-- R341. An entry whose deadline passes is completed with DEADLINE_MISSED at the next step boundary. -/
  | deadlineMissed (entry : Nat)
  /-- R343. A write to CAS_CMD performs a compare-and-set on a ledger entry's state. -/
  | casCmd (cmds : List (BitVec 12 × Nat × Reg64))
  /-- R349. A write to CHARGE subtracts an amount from a tenant's balance. -/
  | charge (cmds : List (BitVec 12 × Nat × Reg64))
  /-- R348. At its tick in each refill interval, an enabled tenant's balance is refilled. -/
  | tenantRefill (tenant : Nat)
  /-- R350. An entry not admitted within HOLD_MS is completed with BUDGET_HELD. -/
  | budgetHeld (entry : Nat)
  /-- R351. The scheduler forms a decode batch, leaving out tenants below zero and parking long-held entries. -/
  | decodeBatch (bay : Nat)
  /-- R345. A write of BAY_DRAIN.GO makes each core stop at its next fence mark, and DONE sets when all have stopped. -/
  | bayDrain (bay : Nat) (id : BitVec 12)
  /-- R346. The scheduler changes a bay's role in the order of Table 12-6 and advances its epoch. -/
  | roleChange (bay role : Nat)
  /-- R347. A write of GO resends a drift record as an elastic consignment through a window. -/
  | hbrRedrive (id : BitVec 12) (window record : Nat)
  /-- R353. A write of LED_WALK_CMD.GO starts a walk of the prefix index. -/
  | prefixWalk (id : BitVec 12) (value : Reg64)
  /-- R354. The walk ends on a miss, the block count or an uncorrectable read, and LED_WALK_RES is set. -/
  | prefixWalkEnd
  /-- R356. A valid write of a carve-out or shoal-set register locks it. -/
  | bayCarveWrite (bay word : Nat) (id : BitVec 12) (value : Reg64)
  /-- R357. A write of CREATE_GO makes an EMPTY bay with locked carve-outs READY. -/
  | createGo (bay : Nat) (id : BitVec 12)
  /-- R358. A write of RETIRE_GO moves a READY bay to RETIRING. -/
  | retireGo (bay : Nat) (id : BitVec 12)
  /-- R359. A write of BAY_CTL.WASH_GO washes every core and reserve of a stopped bay. -/
  | washGo (bay : Nat) (id : BitVec 12)
  /-- R359. The last core's wash completes, WASH_GO clears and WASHES advances. -/
  | bayWashDone (bay : Nat)
  /-- R362. A write of CTX_CFG.OPEN_GO opens a FREE context. -/
  | ctxOpen (ctx : Nat) (id : BitVec 12)
  /-- R364. A write of CTX_CFG.CLOSE_GO moves a context to CLOSING and drops one host reference. -/
  | ctxClose (ctx : Nat) (id : BitVec 12)
  /-- R365. A write of FREE_GO returns a CLOSING context with no references to FREE. -/
  | freeGo (ctx : Nat) (id : BitVec 12)
  /-- R365. The lead pilot writes due completions, washes or fills the context's coves and raises TEARDOWN_DONE. -/
  | teardown (ctx : Nat)
  /-- R363. A write of CTX_REF.INC adds a host reference. -/
  | inc (ctx : Nat) (ids : List (BitVec 12))
  /-- R363. A write of CTX_REF.DEC drops a host reference. -/
  | dec (ctx : Nat) (ids : List (BitVec 12))
  /-- R366. A write of PLN_CTX_LOSE marks a context LOST and copies the core's fault. -/
  | plnCtxLose (id : BitVec 12) (ctx core : Nat)
  /-- R373. The lead pilot completes every ledger entry of a lost context with CONTEXT_LOST. -/
  | contextLostComplete (ctx : Nat)
  /-- R375. The lead pilot writes an event entry, advances the producer and requests MSI-X. -/
  | eventRaise (e : Event)
  /-- R375. A write of PLN_MSIX issues an MSI-X request after earlier near-tier writes are visible. -/
  | plnMsix (id : BitVec 12) (vector : Nat)
  /-- R383. With release and rails high, the loader replays the journal and tries a slot: header check, frame copy and compare. -/
  | imageLoadAttempt
  /-- R384. Release or a rail falls before the load completes, and the attempt is abandoned uncounted. -/
  | loadAbandon (release logic ledge strand : Bool)
  /-- R383. After both slots fail, a 10 ms wait or IMG_CTL.GO starts a new round. -/
  | loadRetry
  /-- R387. The loader performs the next start-order action after the previous action's delay. -/
  | startAction
  /-- R387. LOCK not complete within 10 ms fails the attempt with cause 8. -/
  | lockTimeout
  /-- R388. After the start order the loader writes the geometry, washes every core, measures and sets READY. -/
  | loadFinish (m : Measure)
  /-- R391. A write of IMG_PR_CFG.GO starts a partial reconfiguration of one shoal's strand regions. -/
  | prGo (id : BitVec 12) (value : Reg64)
  /-- R393. A partial reconfiguration ends; the shoal is washed, its mirror reset and its cores released stopped. -/
  | prEnd
  /-- R398. A write of IMG_JRNL_CMD.PUSH queues a journal append. -/
  | push (id : BitVec 12)
  /-- R396. A queued append writes one record to the store's active area. -/
  | journalAppend
  /-- R399. The journal engine compacts the active area into the other area, on demand or at 75%. -/
  | compact (id : BitVec 12)
  /-- R426. Every 100 µs all shoal temperature sensors are sampled into PLN_THERM. -/
  | thermSample (temps : List (BitVec 8))
  /-- R429. Debug XFER NOP. -/
  | xferNop (core addr : Nat) (data : Reg64)
  /-- R429. Debug CSR read as master 0. -/
  | xferCsrRead (core addr : Nat) (data : Reg64)
  /-- R429. Debug CSR write as master 0. -/
  | xferCsrWrite (core addr : Nat) (data : Reg64)
  /-- R430. Debug read of one basin word, returning poison without repair. -/
  | xferBasinRead (core addr : Nat) (data : Reg64)
  /-- R430. Debug write of one basin word, sending parity deltas. -/
  | xferBasinWrite (core addr : Nat) (data : Reg64)
  /-- R430. Debug write of a chunk's poison bit. -/
  | xferPoisonWrite (core addr : Nat) (data : Reg64)
  /-- R431. Debug read of one tier word as bay 0. -/
  | xferTierRead (core addr : Nat) (data : Reg64)
  /-- R431. Debug write of one tier word as bay 0. -/
  | xferTierWrite (core addr : Nat) (data : Reg64)
  /-- R432. Debug read of one store word. -/
  | xferStoreRead (core addr : Nat) (data : Reg64)
  /-- R432. Debug write of one store word while the loader is HELD. -/
  | xferStoreWrite (core addr : Nat) (data : Reg64)
  /-- R432. Debug erase of a store erase block while the loader is HELD. -/
  | xferStoreErase (core addr : Nat) (data : Reg64)
  /-- R433. Debug read of a table entry without using a selector. -/
  | xferTableRead (core addr : Nat) (data : Reg64)
  /-- R433. Debug write of a table entry under the data register's conditions. -/
  | xferTableWrite (core addr : Nat) (data : Reg64)
  /-- R429. Capture-DR of DSTAT reports status and clears DROPPED. -/
  | dstatCapture
  /-- R434. A write setting COR_CTL.HALT stops issue from the next tick. -/
  | halt (core : Nat) (id : BitVec 12)
  /-- R436. A write of DBG_CORE_CTL.STEP lets a halted core issue exactly one word. -/
  | step (core : Nat) (id : BitVec 12)
  /-- R438. A selected event places a trace record in the core's buffer, which is written to the ring or dropped. -/
  | traceRecord (r : TraceRec)
  /-- R441. PRT_CTL.ENABLE going to 1 restarts every perturbation generator. -/
  | prtEnable (id : BitVec 12) (value : Reg64)
  /-- R427. Power is applied (or returns after loss): every register takes its reset or fused value, and the plain leaves reset once all three RAIL_GOOD signals are high. -/
  | powerUp (logic ledge strand : Bool)
  /-- R29. The tide reference input resumes, the tide root leaves holdover and HOLDOVER clears while HOLD_SEEN stays set. -/
  | holdoverEnd
  /-- R248. At every tick with t mod 32 = 0 a strait port sends a block of 25 flit positions, control field (beacons, breach and repeat beacons, group announcements) and parity, stamping each scheduled flit with its departure tick. -/
  | straitBlockSend (port : Nat)
  /-- R328. Service ends after the 40,000 ns self-test and, on a pass, the wash of the shoal: SPARE is set, SPENT clears or SVC_FAIL sets, and SERVICE_GO clears. -/
  | serviceDone (shoal : Nat) (pass : Bool)
  deriving DecidableEq, Repr

end Sys2Proof
end

