-- ==== Sys2Proof/Config.lean ====
section
/-! DEFINITION. What a chip fixes (fused values) and the free values: constants without a body, applied to a counter that
State holds (`State.fresh`), so that nothing can be proved of the value they give. -/

namespace Sys2Proof.Config

/-- Class code of the chip (Table 1-13, fused). DESIGN CHOICE, log entry 3: the manual gives no number. -/
def fusedClass : Nat := 1

/-- Stepping of the chip (Table 1-13, fused). DESIGN CHOICE, log entry 3. -/
def fusedStepping : Nat := 0

/-- Low half of the die identity (PLN_DIE_LO, fused). DESIGN CHOICE, log entry 3. -/
def fusedDieLo : Reg64 := 0

/-- High half of the die identity (PLN_DIE_HI, fused). DESIGN CHOICE, log entry 3. -/
def fusedDieHi : Reg64 := 0

/-- One strand cycle of an estuary stage (R160): entry number and lane base of its first group, the drain's command tag and USER, the
first-of-drain and last-of-drain flags, and two groups of 64 binary32 elements, each with its valid bit. -/
structure StrandCycle where
  entry : Nat
  laneBase : Nat
  tag : BitVec 24
  user : Nat
  first : Bool
  last : Bool
  groups : List (Bool × List Nat)
  deriving DecidableEq, Repr

/-- What an extension takes in (R160 to R162): an estuary stage the cycles of a drain; an inlet decoder (`act`: of the activation
inlet) encoded bytes, with the native format it delivers and the number of bytes asked of it; a custom opcode its operands. -/
inductive StrandInput where
  | stage (k : Nat) (cycles : List StrandCycle)
  | decoder (act : Bool) (fmt n : Nat) (bytes : List Byte)
  | custom (fn : Nat) (a b : Word)
  deriving DecidableEq, Repr

/-- All an extension's outputs depend on (R163): its inputs, the strand RAM, and the image (the strand configuration of the shoal). -/
structure StrandUse where
  image : List (Nat × Byte)
  ram : List (Nat × Reg64)
  input : StrandInput
  deriving DecidableEq, Repr

/-- What an extension delivers: binary32 elements of a stage in order, bytes of a decoder, or the result of a custom opcode. The
image decides it. -/
opaque strandOut (use : StrandUse) : List Nat

/-- The strand RAM words an extension writes (R163): word index and value. -/
opaque strandWrites (use : StrandUse) : List (Nat × Reg64)

/-- The extension breaks its contract: it misses or adds an output (R164). -/
opaque strandBreaks (use : StrandUse) : Bool

/-- The format code with which an operand names the decoder of its inlet, counted from 9 (R161). The manual gives none (log entry 133). -/
opaque decoderCode : Nat

/-- The block scale where the two row segments of a 32-row block hold different ones, in a pass that keeps a tile of another shape
(R110, R121). The manual states no value (log entry 134). -/
opaque mixedScale (upper lower : Nat) : Nat

/-- What a sender needs to know of a window on another plain, and no register of it holds (R285): slot size in bytes, first slot
and number of slots, by hall position and window. -/
opaque farWindow (plain win : Nat) : Nat × Nat × Nat

/-- The DST_CORE an open record names for a window on another plain: the route entry names no core. -/
opaque farCore (plain win : Nat) : Nat

/-- A free 64-bit value: data of a tier read under a write in flight (R301), and other data the rules leave open. -/
opaque freeReg : Nat → BitVec 64

/-- Erase block of the store (R432): the store's own; 3 to 20 are taken from it as the block's size in powers of two. -/
opaque storeBlock : Nat

/-- A free choice between two outcomes the rules both allow. -/
opaque freeBool : Nat → Bool

/-- A free number: a time or a place the rules bound but do not fix; users take it modulo the bound. -/
opaque freeNat : Nat → Nat

/-- Where a pilot's firmware keeps the scratch region of a component, from and to (R335, R336): the image's firmware decides it, and the
manual gives no place. -/
opaque scratch (pilot comp : Nat) : Nat × Nat

/-- The restart entry of a component (R336), which is the firmware's own. -/
opaque restartEntry (pilot comp : Nat) : BitVec 64

end Sys2Proof.Config
end

