-- ==== Sys2Proof/Machine/Bits.lean ====
section
/-! DEFINITION. Bit fields of registers and words, byte order, and maps held as lists in one canonical form. -/

namespace Sys2Proof.Machine

/-- The number in bits [hi:lo] of `v` (R2). -/
def bits (v hi lo : Nat) : Nat := v / 2 ^ lo % 2 ^ (hi + 1 - lo)

/-- Bit `i` of `v`. -/
def bit (v i : Nat) : Bool := v / 2 ^ i % 2 == 1

/-- `v` with `x` written to bits [hi:lo]; the bits of `x` above the field are dropped. -/
def setBits (v hi lo x : Nat) : Nat :=
  v - bits v hi lo * 2 ^ lo + x % 2 ^ (hi + 1 - lo) * 2 ^ lo

/-- A condition as a bit. -/
def b2n (b : Bool) : Nat := if b then 1 else 0

/-- Bits [hi:lo] of a register. -/
def field (r : Reg64) (hi lo : Nat) : Nat := bits r.toNat hi lo

/-- A register with a field written. -/
def setField (r : Reg64) (hi lo x : Nat) : Reg64 := BitVec.ofNat 64 (setBits r.toNat hi lo x)

/-- Two's complement reading of a `w`-bit number. -/
def signed (w v : Nat) : Int := if v % 2 ^ w < 2 ^ (w - 1) then ((v % 2 ^ w : Nat) : Int) else ((v % 2 ^ w : Nat) : Int) - (2 ^ w : Nat)

/-- Two's complement encoding of an integer in `w` bits (it wraps). -/
def unsigned (w : Nat) (v : Int) : Nat := (v % (2 ^ w : Nat)).toNat

/-- `n` bytes of a number, least significant first (R2). -/
def natBytes (n v : Nat) : List Byte :=
  match n with
  | 0 => []
  | k + 1 => BitVec.ofNat 8 v :: natBytes k (v / 256)

/-- The number a little-endian byte string holds. -/
def bytesNat (bs : List Byte) : Nat :=
  match bs with
  | [] => 0
  | b :: rest => b.toNat + 256 * bytesNat rest

/-- `0, 1, …, n - 1` shifted to start at `a`. -/
def span (a n : Nat) : List Nat := List.range' a n

/-- Round up to a multiple of `m`. -/
def roundUp (v m : Nat) : Nat := (v + m - 1) / m * m

/-- Quotient rounded up. -/
def ceilDiv (a b : Nat) : Nat := (a + b - 1) / b

/-- Addition that saturates at a limit. -/
def satAdd (limit a b : Nat) : Nat := min limit (a + b)

/-- Split a list into runs of `n`; the last may be shorter. The first argument bounds the number of runs. -/
def chunksOf {α : Type} (k n : Nat) (l : List α) : List (List α) :=
  match k with
  | 0 => []
  | k + 1 => if l.isEmpty then [] else l.take n :: chunksOf k n (l.drop n)

/-- Bring a list of bytes to length `n`, filling with zeros. -/
def padTo (n : Nat) (l : List Byte) : List Byte := (l ++ List.replicate (n - l.length) 0#8).take n

namespace Sparse

/-- The value at a key; `d` where the map lists none. -/
def get {α : Type} (d : α) (m : List (Nat × α)) (i : Nat) : α :=
  match m with
  | [] => d
  | (k, v) :: rest => if i = k then v else get d rest i

/-- Write a value, keeping keys rising and no entry equal to the value `d` that an unlisted key reads as. -/
def set {α : Type} [DecidableEq α] (d : α) (m : List (Nat × α)) (i : Nat) (x : α) : List (Nat × α) :=
  match m with
  | [] => if x = d then [] else [(i, x)]
  | (k, v) :: rest =>
    if i < k then (if x = d then (k, v) :: rest else (i, x) :: (k, v) :: rest)
    else if i = k then (if x = d then rest else (i, x) :: rest)
    else (k, v) :: set d rest i x

/-- Every key of `m` is above `lo` and they rise; no entry equals what an unlisted key reads as. -/
def wfFrom {α : Type} [DecidableEq α] (d : Nat → α) (lo : Nat) (m : List (Nat × α)) : Bool :=
  match m with
  | [] => true
  | (k, v) :: rest => decide (lo ≤ k) && decide (v ≠ d k) && wfFrom d (k + 1) rest

/-- The canonical form of a map: keys rise strictly and no entry equals what an unlisted key reads as. -/
def wf {α : Type} [DecidableEq α] (d : Nat → α) (m : List (Nat × α)) : Bool := wfFrom d 0 m

/-- The map that a list of entries makes. -/
def ofList {α : Type} [DecidableEq α] (d : α) (l : List (Nat × α)) : List (Nat × α) := l.foldl (fun m e => set d m e.1 e.2) []

/-- Forget the keys in `[lo, hi)`: they read as unlisted again. -/
def clear {α : Type} (m : List (Nat × α)) (lo hi : Nat) : List (Nat × α) :=
  m.filter (fun e => e.1 < lo || hi ≤ e.1)

end Sparse

namespace Bytes

/-- Write bytes at rising addresses over memory whose unlisted bytes read as `d`. -/
def write (d : Byte) (m : List (Nat × Byte)) (a : Nat) (bs : List Byte) : List (Nat × Byte) :=
  match bs with
  | [] => m
  | b :: rest => write d (Sparse.set d m a b) (a + 1) rest

/-- Read `n` bytes from `a` on. -/
def read (d : Byte) (m : List (Nat × Byte)) (a n : Nat) : List Byte :=
  match n with
  | 0 => []
  | k + 1 => Sparse.get d m a :: read d m (a + 1) k

end Bytes

/-- A set of numbers held as a rising list without repeats: add one. -/
def insertNat (l : List Nat) (i : Nat) : List Nat :=
  match l with
  | [] => [i]
  | k :: rest => if i < k then i :: k :: rest else if i = k then k :: rest else k :: insertNat rest i

/-- Take a number out of such a set. -/
def eraseNat (l : List Nat) (i : Nat) : List Nat := l.filter (fun k => k ≠ i)

end Sys2Proof.Machine
end

