-- ==== Sys2Proof/Machine/Fp.lean ====
section
/-! DEFINITION. Binary32 and bfloat16 arithmetic as R142 to R144, R193 and R443 give it: exact results in integers, then one
rounding to nearest even; subnormals kept; every NaN that arithmetic produces is the canonical one. Bit patterns are
Nat below 2^32 or 2^16. -/

namespace Sys2Proof.Machine.Fp

/-- A floating-point datum: NaN, an infinity, a zero, or the number ± m * 2 ^ e with m positive. -/
inductive Fl where
  | nan
  | inf (neg : Bool)
  | zero (neg : Bool)
  | fin (neg : Bool) (m : Nat) (e : Int)
  deriving DecidableEq, Repr

/-- A format: bits of the significand, exponent of its last place at the bottom of the range, bits of the fraction field,
and the code of infinity. -/
structure Fmt where
  p : Nat
  qmin : Int
  fb : Nat
  infCode : Nat
  nanCode : Nat
  signBit : Nat

/-- binary32. -/
def f32 : Fmt := ⟨24, -149, 23, 0x7F800000, 0x7FC00000, 31⟩

/-- bfloat16. -/
def bf16 : Fmt := ⟨8, -133, 7, 0x7F80, 0x7FC0, 15⟩

/-- Read a bit pattern. -/
def unpack (f : Fmt) (b : Nat) : Fl :=
  let neg := bit b f.signBit
  let mag := b % 2 ^ f.signBit
  let ex := mag / 2 ^ f.fb
  let fr := mag % 2 ^ f.fb
  if mag > f.infCode then .nan
  else if mag = f.infCode then .inf neg
  else if mag = 0 then .zero neg
  else if ex = 0 then .fin neg fr f.qmin
  else .fin neg (fr + 2 ^ f.fb) (f.qmin + (ex : Int) - 1)

/-- How a conversion rounds: to nearest even, or up when the first 16 discarded bits and `r` carry (R155). -/
inductive Rounding where
  | nearest
  | stochastic (r : Nat)
  deriving DecidableEq, Repr

/-- Does the magnitude round up? `keep` is what stays, `rem` the `sh` discarded bits, `sticky` says more lies below them. -/
def roundsUp (mode : Rounding) (keep rem sh : Nat) (sticky : Bool) : Bool :=
  match mode with
  | .nearest =>
    decide (rem * 2 > 2 ^ sh) || (decide (rem * 2 = 2 ^ sh) && decide (0 < sh) && (sticky || decide (keep % 2 = 1)))
  | .stochastic r =>
    decide (65536 ≤ (if 16 ≤ sh then rem / 2 ^ (sh - 16) else rem * 2 ^ (16 - sh)) + r)

/-- Round m * 2 ^ e (and a little more when `sticky`) to `p` bits with last place no lower than `qmin`: (k, q) for k * 2 ^ q. -/
def roundTo (p : Nat) (qmin : Int) (mode : Rounding) (m : Nat) (e : Int) (sticky : Bool) : Nat × Int :=
  let q := max ((Nat.log2 m : Int) + e + 1 - p) qmin
  if q ≤ e then (m * 2 ^ (e - q).toNat, q)
  else
    let sh := (q - e).toNat
    let keep := m / 2 ^ sh
    let rem := m % 2 ^ sh
    (if roundsUp mode keep rem sh sticky then keep + 1 else keep, q)

/-- The bit pattern of a rounded magnitude, with overflow to infinity. -/
def packMag (f : Fmt) (k : Nat) (q : Int) : Nat :=
  if k = 0 then 0 else min f.infCode ((q - f.qmin).toNat * 2 ^ f.fb + k)

/-- Round a datum into a format. -/
def pack (f : Fmt) (x : Fl) (sticky : Bool := false) (mode : Rounding := .nearest) : Nat :=
  match x with
  | .nan => f.nanCode
  | .inf neg => f.infCode + b2n neg * 2 ^ f.signBit
  | .zero neg => b2n neg * 2 ^ f.signBit
  | .fin neg m e =>
    packMag f (roundTo f.p f.qmin mode m e sticky).1 (roundTo f.p f.qmin mode m e sticky).2 + b2n neg * 2 ^ f.signBit

/-- The datum with the other sign. -/
def Fl.negate (x : Fl) : Fl :=
  match x with
  | .nan => .nan
  | .inf n => .inf (!n)
  | .zero n => .zero (!n)
  | .fin n m e => .fin (!n) m e

/-- Signed significand. -/
def sig (neg : Bool) (m : Nat) : Int := if neg then -(m : Int) else m

/-- The datum v * 2 ^ e; `z` is the sign of an exact zero. -/
def ofInt (v : Int) (e : Int) (z : Bool := false) : Fl :=
  if v = 0 then .zero z else .fin (decide (v < 0)) v.natAbs e

/-- Exact sum. -/
def add (x y : Fl) : Fl :=
  match x, y with
  | .nan, _ => .nan
  | _, .nan => .nan
  | .inf a, .inf b => if a = b then .inf a else .nan
  | .inf a, _ => .inf a
  | _, .inf b => .inf b
  | .zero a, .zero b => .zero (a && b)
  | .zero _, y => y
  | x, .zero _ => x
  | .fin n1 m1 e1, .fin n2 m2 e2 =>
    let e := min e1 e2
    ofInt (sig n1 m1 * 2 ^ (e1 - e).toNat + sig n2 m2 * 2 ^ (e2 - e).toNat) e

/-- Exact difference. -/
def sub (x y : Fl) : Fl := add x y.negate

/-- Exact product. -/
def mul (x y : Fl) : Fl :=
  match x, y with
  | .nan, _ => .nan
  | _, .nan => .nan
  | .inf a, .inf b => .inf (a != b)
  | .inf _, .zero _ => .nan
  | .zero _, .inf _ => .nan
  | .inf a, .fin b _ _ => .inf (a != b)
  | .fin a _ _, .inf b => .inf (a != b)
  | .zero a, .zero b => .zero (a != b)
  | .zero a, .fin b _ _ => .zero (a != b)
  | .fin a _ _, .zero b => .zero (a != b)
  | .fin a m1 e1, .fin b m2 e2 => .fin (a != b) (m1 * m2) (e1 + e2)

/-- Quotient to 64 bits and more, with what is left over. -/
def div (x y : Fl) : Fl × Bool :=
  match x, y with
  | .nan, _ => (.nan, false)
  | _, .nan => (.nan, false)
  | .inf _, .inf _ => (.nan, false)
  | .zero _, .zero _ => (.nan, false)
  | .inf a, .zero b => (.inf (a != b), false)
  | .inf a, .fin b _ _ => (.inf (a != b), false)
  | .zero a, .inf b => (.zero (a != b), false)
  | .zero a, .fin b _ _ => (.zero (a != b), false)
  | .fin a _ _, .inf b => (.zero (a != b), false)
  | .fin a _ _, .zero b => (.inf (a != b), false)
  | .fin a m1 e1, .fin b m2 e2 =>
    let k := 64 + Nat.log2 m2
    (.fin (a != b) (m1 * 2 ^ k / m2) (e1 - e2 - k), m1 * 2 ^ k % m2 != 0)

/-- Integer square root, one result bit at a time from bit `i - 1` down. -/
def isqrtFrom (i n r : Nat) : Nat :=
  match i with
  | 0 => r
  | k + 1 => if (r + 2 ^ k) * (r + 2 ^ k) ≤ n then isqrtFrom k n (r + 2 ^ k) else isqrtFrom k n r

/-- The largest r with r * r ≤ n. -/
def isqrt (n : Nat) : Nat := isqrtFrom (Nat.log2 n / 2 + 1) n 0

/-- Square root (R144): NaN of a negative number, the same zero of a zero. -/
def sqrt (x : Fl) : Fl × Bool :=
  match x with
  | .nan => (.nan, false)
  | .inf neg => (if neg then .nan else .inf false, false)
  | .zero neg => (.zero neg, false)
  | .fin neg m e =>
    if neg then (.nan, false)
    else
      let odd := e % 2
      let n := m * 2 ^ odd.toNat * 2 ^ 64
      (.fin false (isqrt n) ((e - odd) / 2 - 32), isqrt n * isqrt n != n)

/-- Reciprocal square root (R144). -/
def rsqrt (x : Fl) : Fl × Bool :=
  match x with
  | .nan => (.nan, false)
  | .inf neg => (if neg then .nan else .zero false, false)
  | .zero neg => (.inf neg, false)
  | .fin neg m e =>
    if neg then (.nan, false)
    else
      let odd := e % 2
      let m' := m * 2 ^ odd.toNat
      let k := 64 + Nat.log2 m'
      let r := isqrt (2 ^ (2 * k) / m')
      (.fin false r (-(k : Int) - (e - odd) / 2), r * r * m' != 2 ^ (2 * k))

/-- ln 2 to 200 binary places. -/
def ln2 : Nat := 1113844574712631719546256151097547306333272293549090750737802

/-- Sum of the terms of the exponential series from `t` = x ^ i / i! on, in 200 binary places. -/
def expFrom (k i x t : Nat) : Nat :=
  match k with
  | 0 => 0
  | k + 1 => t + expFrom k (i + 1) x (t * x / 2 ^ 200 / (i + 1))

/-- 2 ^ f for a fraction f of 200 binary places. -/
def exp2Frac (f : Nat) : Nat := expFrom 60 0 (f * ln2 / 2 ^ 200) (2 ^ 200)

/-- EXP2 (R144): exact at integers, else to 200 binary places with a remainder that never vanishes. -/
def exp2 (x : Fl) : Fl × Bool :=
  match x with
  | .nan => (.nan, false)
  | .inf neg => (if neg then .zero false else .inf false, false)
  | .zero _ => (.fin false 1 0, false)
  | .fin neg m e =>
    if (Nat.log2 m : Int) + e > 9 then (if neg then .zero false else .inf false, false)
    else
      let v := sig neg m * 2 ^ (e + 200).toNat
      let n := v / (2 ^ 200 : Nat)
      let f := (v % (2 ^ 200 : Nat)).toNat
      if f = 0 then (.fin false 1 n, false) else (.fin false (exp2Frac f) (n - 200), true)

/-- Sum of z ^ i / i over odd i, in 200 binary places; `t` is z ^ i. -/
def atanhFrom (k i z2 t : Nat) : Nat :=
  match k with
  | 0 => 0
  | k + 1 => t / i + atanhFrom k (i + 2) z2 (t * z2 / 2 ^ 200)

/-- log2 of y in [1, 2), y given in 200 binary places. -/
def log2Frac (y : Nat) : Nat :=
  let z := (y - 2 ^ 200) * 2 ^ 200 / (y + 2 ^ 200)
  2 * atanhFrom 70 1 (z * z / 2 ^ 200) z * 2 ^ 200 / ln2

/-- LOG2 (R144): exact at powers of two, else to 200 binary places with a remainder that never vanishes. -/
def log2 (x : Fl) : Fl × Bool :=
  match x with
  | .nan => (.nan, false)
  | .inf neg => (if neg then .nan else .inf false, false)
  | .zero _ => (.inf true, false)
  | .fin neg m e =>
    if neg then (.nan, false)
    else
      let n := (Nat.log2 m : Int) + e
      if m = 2 ^ Nat.log2 m then (ofInt n 0, false)
      else (ofInt (n * (2 ^ 200 : Nat) + log2Frac (m * 2 ^ 200 / 2 ^ Nat.log2 m)) (-200), true)

/-- Round an exact result with what is left over. -/
def packP (f : Fmt) (x : Fl × Bool) : Nat := pack f x.1 x.2

/-- The pattern is a NaN. -/
def isNan (f : Fmt) (b : Nat) : Bool := decide (f.infCode < b % 2 ^ f.signBit)

/-- Order key of a pattern that is no NaN: −0 just below +0. -/
def key (f : Fmt) (b : Nat) : Int :=
  if bit b f.signBit then -2 * ((b % 2 ^ f.signBit : Nat) : Int) - 1 else 2 * ((b % 2 ^ f.signBit : Nat) : Int)

/-- Order key with −0 equal to +0. -/
def keyEq (f : Fmt) (b : Nat) : Int :=
  if bit b f.signBit then -((b % 2 ^ f.signBit : Nat) : Int) else ((b % 2 ^ f.signBit : Nat) : Int)

/-- IEEE 754-2019 minimum: a NaN gives a NaN, −0 is below +0 (Table 5-2). -/
def minB (f : Fmt) (a b : Nat) : Nat :=
  if isNan f a || isNan f b then f.nanCode else if key f a ≤ key f b then a else b

/-- IEEE 754-2019 maximum. -/
def maxB (f : Fmt) (a b : Nat) : Nat :=
  if isNan f a || isNan f b then f.nanCode else if key f b ≤ key f a then a else b

/-- Equal; false for a NaN. -/
def eqB (f : Fmt) (a b : Nat) : Bool := !(isNan f a || isNan f b) && decide (keyEq f a = keyEq f b)

/-- Less than; false for a NaN. -/
def ltB (f : Fmt) (a b : Nat) : Bool := !(isNan f a || isNan f b) && decide (keyEq f a < keyEq f b)

/-- Less or equal; false for a NaN. -/
def leB (f : Fmt) (a b : Nat) : Bool := !(isNan f a || isNan f b) && decide (keyEq f a ≤ keyEq f b)

/-- Sum, rounded once. -/
def addB (f : Fmt) (a b : Nat) : Nat := pack f (add (unpack f a) (unpack f b))

/-- Difference, rounded once. -/
def subB (f : Fmt) (a b : Nat) : Nat := pack f (sub (unpack f a) (unpack f b))

/-- Product, rounded once. -/
def mulB (f : Fmt) (a b : Nat) : Nat := pack f (mul (unpack f a) (unpack f b))

/-- Quotient, rounded once. -/
def divB (f : Fmt) (a b : Nat) : Nat := packP f (div (unpack f a) (unpack f b))

/-- a * b + c, rounded once. -/
def fmaB (f : Fmt) (a b c : Nat) : Nat := pack f (add (mul (unpack f a) (unpack f b)) (unpack f c))

/-- A binary32 pattern rounded to bfloat16. -/
def toBf16 (b : Nat) : Nat := pack bf16 (unpack f32 b)

/-- A bfloat16 pattern widened; a NaN keeps its bits in the upper half, as a widening moves them. -/
def ofBf16 (b : Nat) : Nat := b * 2 ^ 16

/-- An integer as binary32. -/
def ofIntB (f : Fmt) (v : Int) : Nat := pack f (ofInt v 0)

/-- The nearest integer, ties to even. -/
def nearestInt (neg : Bool) (m : Nat) (e : Int) : Int :=
  if 0 ≤ e then sig neg (m * 2 ^ e.toNat)
  else
    let sh := (-e).toNat
    sig neg (m / 2 ^ sh + b2n (roundsUp .nearest (m / 2 ^ sh) (m % 2 ^ sh) sh false))

/-- Conversion to a signed integer of `w` bits: the value, and whether it saturated (R142, R193). A NaN gives 0 and counts. -/
def toIntB (f : Fmt) (w : Nat) (b : Nat) : Int × Bool :=
  let hi : Int := 2 ^ (w - 1) - 1
  let lo : Int := -(2 ^ (w - 1))
  match unpack f b with
  | .nan => (0, true)
  | .inf neg => (if neg then lo else hi, true)
  | .zero _ => (0, false)
  | .fin neg m e =>
    if (Nat.log2 m : Int) + e > 64 then (if neg then lo else hi, true)
    else
      let v := nearestInt neg m e
      if v > hi then (hi, true) else if v < lo then (lo, true) else (v, false)

/-- floor of a number, between `lo` and `hi`. -/
def floorClamp (lo hi : Int) (x : Fl) : Int :=
  match x with
  | .nan => lo
  | .inf neg => if neg then lo else hi
  | .zero _ => max lo (min hi 0)
  | .fin neg m e =>
    if (Nat.log2 m : Int) + e > 64 then (if neg then lo else hi)
    else if 0 ≤ e then max lo (min hi (sig neg (m * 2 ^ e.toNat)))
    else max lo (min hi (sig neg m / (2 ^ (-e).toNat : Nat)))

end Sys2Proof.Machine.Fp
end

