-- ==== Sys2Proof/Machine/Mx.lean ====
section
/-! DEFINITION. The element formats of the array (R108, OCP Microscaling v1.0), sums of products (R110 to R112, R124), MX
quantisation (R154) and the hash of stochastic rounding (R155). A format is named by its code, the bit of FMT_MASK. -/

namespace Sys2Proof.Machine.Mx

open Sys2Proof.Machine.Fp

/-- Bits of one element (Table 4-2; 15 is FP32 as an output format, Table 6-5). -/
def width (fmt : Nat) : Nat :=
  match fmt with
  | 0 => 4 | 1 => 6 | 2 => 6 | 3 => 8 | 4 => 8 | 5 => 8 | 6 => 4 | 7 => 8 | 8 => 16 | _ => 32

/-- The format carries block scales. -/
def isMx (fmt : Nat) : Bool := fmt ≤ 5

/-- The format is a plain integer. -/
def isInt (fmt : Nat) : Bool := fmt == 6 || fmt == 7

/-- Fraction bits of a floating-point MX format. -/
def fracBits (fmt : Nat) : Nat :=
  match fmt with
  | 0 => 1 | 1 => 3 | 2 => 2 | 3 => 3 | _ => 2

/-- Exponent of the last place at the bottom of the range: 1 − bias − fraction bits; −6 for MXINT8. -/
def qmin (fmt : Nat) : Int :=
  match fmt with
  | 0 => -1 | 1 => -3 | 2 => -4 | 3 => -9 | 4 => -16 | _ => -6

/-- The largest finite magnitude code. -/
def maxCode (fmt : Nat) : Nat :=
  match fmt with
  | 0 => 7 | 1 => 31 | 2 => 31 | 3 => 0x7e | 4 => 0x7b | _ => 127

/-- emax of R154. -/
def emax (fmt : Nat) : Int :=
  match fmt with
  | 0 => 2 | 1 => 2 | 2 => 4 | 3 => 8 | 4 => 15 | _ => 0

/-- The number a magnitude code of a floating-point MX format stands for. -/
def magnitude (fmt : Nat) (neg : Bool) (mag : Nat) : Fl :=
  let fb := fracBits fmt
  if mag = 0 then .zero neg
  else if mag < 2 ^ fb then .fin neg mag (qmin fmt)
  else .fin neg (mag % 2 ^ fb + 2 ^ fb) (qmin fmt + (mag / 2 ^ fb : Nat) - 1)

/-- One element of a format, without its block scale. -/
def decode (fmt code : Nat) : Fl :=
  match fmt with
  | 5 => ofInt (signed 8 code) (-6)
  | 6 => ofInt (signed 4 code) 0
  | 7 => ofInt (signed 8 code) 0
  | 8 => unpack bf16 code
  | _ =>
    let w := width fmt
    let neg := bit code (w - 1)
    let mag := code % 2 ^ (w - 1)
    if fmt = 3 ∧ mag = 0x7f then .nan
    else if fmt = 4 ∧ mag = 0x7c then .inf neg
    else if fmt = 4 ∧ 0x7c < mag then .nan
    else magnitude fmt neg mag

/-- Scale a datum by 2 ^ k. -/
def scale (x : Fl) (k : Int) : Fl :=
  match x with
  | .fin n m e => .fin n m (e + k)
  | x => x

/-- Exact sum of a list; +0 of none. The sign of a zero follows R110: −0 only when every term is −0. -/
def exactSum (l : List Fl) : Fl :=
  match l with
  | [] => .zero false
  | x :: rest => rest.foldl Fp.add x

/-- The block value of R110 steps 1 and 2, as binary32: products, scale bytes of the weight and of the activation. -/
def blockValue (products : List Fl) (sw sx : Nat) : Nat :=
  if sw = 255 ∨ sx = 255 then f32.nanCode
  else pack f32 (scale (exactSum products) ((sw : Int) + sx - 254))

/-- Binary32 numbers added in order, each sum rounded (R110 step 3, R112). -/
def chain (l : List Nat) : Nat :=
  match l with
  | [] => 0
  | x :: rest => rest.foldl (addB f32) x

/-- The part of an integer element. -/
def intOf (fmt code : Nat) : Int := if fmt = 6 then signed 4 code else signed 8 code

/-- Element `n` of a packed little-endian stream of `w`-bit elements (R114, R183). -/
def element (w n : Nat) (bs : List Byte) : Nat :=
  bytesNat ((bs.drop (n * w / 8)).take ((n * w % 8 + w + 7) / 8)) / 2 ^ (n * w % 8) % 2 ^ w

/-- Floor of log2 of the largest finite magnitude of a block; none when no finite element is non-zero. -/
def amaxLog (l : List Fl) : Option Int :=
  l.foldl (fun acc x =>
    match x, acc with
    | .fin _ m e, none => some ((Nat.log2 m : Int) + e)
    | .fin _ m e, some a => some (max a ((Nat.log2 m : Int) + e))
    | _, acc => acc) none

/-- The block exponent X of R154. -/
def blockExp (fmt : Nat) (l : List Fl) : Int :=
  match amaxLog l with
  | none => -127
  | some a => max (-127) (min 127 (a - emax fmt))

/-- A magnitude code with its sign. -/
def withSign (fmt : Nat) (neg : Bool) (mag : Nat) : Nat :=
  if fmt = 5 then (if neg then (256 - mag) % 256 else mag) else mag + b2n neg * 2 ^ (width fmt - 1)

/-- One element of a block under exponent `x`: code, and whether it saturated (R154). -/
def quantise (fmt : Nat) (x : Int) (mode : Rounding) (v : Fl) : Nat × Bool :=
  match v with
  | .nan => (if fmt = 3 then 0x7f else if fmt = 4 then 0x7e else 0, false)
  | .inf neg => (withSign fmt neg (if fmt = 4 then 0x7c else maxCode fmt), false)
  | .zero neg => (withSign fmt neg 0, false)
  | .fin neg m e =>
    let r := roundTo (if fmt = 5 then 300 else fracBits fmt + 1) (qmin fmt) mode m (e - x) false
    let mag := if r.1 = 0 then 0 else if fmt = 5 then r.1 else (r.2 - qmin fmt).toNat * 2 ^ fracBits fmt + r.1
    (withSign fmt neg (min mag (maxCode fmt)), decide (maxCode fmt < mag))

/-- The datum has a NaN or an infinity. -/
def special (v : Fl) : Bool :=
  match v with
  | .nan => true
  | .inf _ => true
  | _ => false

/-- The scale byte of a block: X + 127, or 0xFF where the block holds a NaN or an infinity (R154). -/
def scaleByte (fmt : Nat) (l : List Fl) : Nat :=
  if l.any special then 255 else (blockExp fmt l + 127).toNat

/-- One step of the hash of R155, in 32 bits. -/
def hashStep (h : BitVec 32) : BitVec 32 :=
  let a := h ^^^ (h <<< 13)
  let b := a ^^^ (a >>> 17)
  b ^^^ (b <<< 5)

/-- The 16 hash bits that decide the rounding of a lane (R155). -/
def hashBits (seed : BitVec 32) (tag entry lane : Nat) : Nat :=
  (hashStep (hashStep (seed ^^^ BitVec.ofNat 32 (tag % 65536 * 65536) ^^^ BitVec.ofNat 32 (entry * 128)
    ^^^ BitVec.ofNat 32 lane))).toNat / 65536

end Sys2Proof.Machine.Mx
end

