-- ==== Sys2Proof/Machine/RegMap.lean ====
section
/-! DEFINITION. The register map (15_register_map.md, Tables 15-5 to 15-7): every register of the plain, shoal and core
windows with its offset, its fields as the chapter named there lays them out, and its reset value. Offsets of a
shoal register are from the shoal's window, offsets of a core register from the core's window. -/

namespace Sys2Proof.Machine

/-- The access classes of Table 0-4 (R10). -/
inductive Cls where
  | rw | ro | w1c | cnt | sc | ptr | wo1 | rwl
  deriving DecidableEq, Repr

/-- The three kinds of window (Table 15-1). -/
inductive Win where
  | plain | shoal | core
  deriving DecidableEq, Repr

/-- The registers, by the name the manual gives them; registers of a number share one name. -/
inductive Kind where
  | plnId | plnGeom0 | plnGeom1 | plnGeom2 | plnGeom3 | plnGeom4 | plnGeom5 | plnGeom6 | plnGeom7
  | plnAccessErr | plnCollide | plnTherm | plnDtreeSel | plnDtreeData | plnMendStat | plnMendLog
  | plnMendLogPtr | plnMirrorCfg | plnMirrorStat | plnPilotRst | plnLeadMsip | plnNoticeLo | plnNoticeHi
  | plnCtxLose | plnEvtCfg | plnEvtPtr | plnEvtCookie | plnMsix | plnEvtStat | plnDbSum | imgCtl | imgBoot
  | imgStat | imgFail | imgPrCfg | imgPrAddr | imgPrStat | imgJrnlAddr | imgJrnlVal | imgJrnlCmd
  | imgJrnlStat | imgMeasRail | imgMeasTier | imgMeasSel | imgMeasData | imgTrimRail | imgTrimLedge
  | plnDieLo | plnDieHi | tidNow | tidStat | tidCfg | tidLink | tidSched | tidStart | tidStep | tidBreach
  | tidGovCfg | tidGovStat | tidFtabSel | tidFtabData | strCfg | strStat | strPart | strPartDieLo
  | strPartDieHi | strExpDieLo | strExpDieHi | strHall | strPlanSel | strPlanData | strTwin | tirShare
  | tirBayStat | hbrDriftCfg | hbrDriftPtr | hbrStat | hbrRedrive | bayRole | bayDrain | ledCfg | ledWalkCfg
  | ledWalkCmd | ledWalkRes | casCmd | casRes | charge | bayCarve0 | bayCarve1 | bayCarve2 | bayShoalsLo
  | bayShoalsHi | bayCtl | bayStat | hbrWinCfg | hbrWinCtl | hbrWinStat | ctxCfg | ctxFault | ctxRef
  | ctxCookie | ctxProg | ctxCq | ctxCqp | ctxSq | ctxSqp | tenWord0 | tenWord1 | tenWord2 | tenWord3
  | ledWord0 | ledWord1 | ledWord2 | ledWord3 | dbgTraceCfg | dbgTracePtr | dbgTraceStat | prtCtl | prtStat
  | prtTier | prtStrait | shlId | shlTileStat | shlGov | shlMendStat | shlMendCfg | shlMendRec | shlPhysLo
  | shlPhysHi | shlPilotRst | shlMsip | shlNotice | corId | corCtl | corFault | corCountNow | corTagNow
  | corArrStat | corResidue | corArrTiles | corVecStat | corEstStat | corEstSeed | corStrandCaps
  | corStrandStat | corStrandSel | corStrandData | corDescSel | corDescLo | corDescHi | corDeadline
  | corSclStat | ldgLease | ldgLeaseAct | ldgBreach | ldgHazard | ldgEcc | ldgEngCmdLo | ldgEngCmdHi
  | ldgEngPush | ldgEngStat | ldgEngLevel | ldgSweep | ldgWash | corPredEdge | corPredRowlo | corPredRowhi
  | corPredCollo | corPredColhi | corTileCtl | corSlip | corSlipSum | corRouteSel | corRouteLo | corRouteHi
  | corPlanSel | corPlanData | corShadow | corMendEntry | coveCfg | coveAux | covePtr | coveCtl | coveStat
  | coveTagSel | coveTagData | dbgCoreCtl | dbgBpCount | dbgBpTag | dbgTraceSel | dbgFaultAux | dbgFaultTime
  | prtInlet | prtPass
  deriving DecidableEq, Repr

/-- A field of a register: where the register with number 0 lies, the distance to the next one, and its bits. -/
structure RF where
  base : Nat
  stride : Nat
  hi : Nat
  lo : Nat
  deriving DecidableEq, Repr

/-- The same field of a register that lies `d` further on. -/
def RF.sh (f : RF) (d : Nat) : RF := { f with base := f.base + d }

/-- The address of register number `i` of the field's kind. -/
def RF.addr (f : RF) (i : Nat) : Nat := f.base + i * f.stride

/-- One row of Tables 15-5 to 15-7: a run of registers of one kind. -/
structure RegRow where
  kind : Kind
  base : Nat
  stride : Nat
  count : Nat
  sub : Nat
  fields : List (RF × Cls)
  deriving DecidableEq, Repr

namespace F

/-! PLN_ID. -/
def plnId_class : RF := ⟨0x0, 0x8, 63, 48⟩
def plnId_stepping : RF := ⟨0x0, 0x8, 47, 44⟩
def plnId_geomCode : RF := ⟨0x0, 0x8, 39, 32⟩
/-! PLN_GEOM0. -/
def plnGeom0_fmtMask : RF := ⟨0x8, 0x8, 57, 48⟩
def plnGeom0_vecLanes : RF := ⟨0x8, 0x8, 43, 36⟩
def plnGeom0_aspect : RF := ⟨0x8, 0x8, 35, 32⟩
def plnGeom0_arrCols : RF := ⟨0x8, 0x8, 31, 16⟩
def plnGeom0_arrRows : RF := ⟨0x8, 0x8, 15, 0⟩
/-! PLN_GEOM1. -/
def plnGeom1_estMask : RF := ⟨0x10, 0x8, 63, 56⟩
def plnGeom1_strandStages : RF := ⟨0x10, 0x8, 51, 48⟩
def plnGeom1_inletDec : RF := ⟨0x10, 0x8, 41, 40⟩
def plnGeom1_customOps : RF := ⟨0x10, 0x8, 39, 32⟩
def plnGeom1_strandLe : RF := ⟨0x10, 0x8, 31, 16⟩
def plnGeom1_strandMult : RF := ⟨0x10, 0x8, 15, 8⟩
def plnGeom1_strandRamKib : RF := ⟨0x10, 0x8, 7, 0⟩
/-! PLN_GEOM2. -/
def plnGeom2_shoalMaskLo : RF := ⟨0x18, 0x8, 63, 0⟩
/-! PLN_GEOM3. -/
def plnGeom3_shoalsUsable : RF := ⟨0x20, 0x8, 23, 16⟩
def plnGeom3_shoalMaskHi : RF := ⟨0x20, 0x8, 15, 0⟩
/-! PLN_GEOM4. -/
def plnGeom4_basinLat : RF := ⟨0x28, 0x8, 55, 48⟩
def plnGeom4_coves : RF := ⟨0x28, 0x8, 47, 40⟩
def plnGeom4_chunkBytes : RF := ⟨0x28, 0x8, 39, 32⟩
def plnGeom4_ledgeRows : RF := ⟨0x28, 0x8, 31, 16⟩
def plnGeom4_banks : RF := ⟨0x28, 0x8, 15, 8⟩
def plnGeom4_ledges : RF := ⟨0x28, 0x8, 7, 0⟩
/-! PLN_GEOM5. -/
def plnGeom5_engMhz : RF := ⟨0x30, 0x8, 63, 48⟩
def plnGeom5_strandMhz : RF := ⟨0x30, 0x8, 47, 32⟩
def plnGeom5_straits : RF := ⟨0x30, 0x8, 31, 24⟩
def plnGeom5_tierPorts : RF := ⟨0x30, 0x8, 23, 16⟩
def plnGeom5_passBytes : RF := ⟨0x30, 0x8, 15, 0⟩
/-! PLN_GEOM6. -/
def plnGeom6_ledgerEntries : RF := ⟨0x38, 0x8, 63, 48⟩
def plnGeom6_harbourWindows : RF := ⟨0x38, 0x8, 47, 32⟩
def plnGeom6_contexts : RF := ⟨0x38, 0x8, 31, 16⟩
def plnGeom6_tenants : RF := ⟨0x38, 0x8, 15, 0⟩
/-! PLN_GEOM7. -/
def plnGeom7_nearGib : RF := ⟨0x40, 0x8, 63, 32⟩
def plnGeom7_farGib : RF := ⟨0x40, 0x8, 31, 0⟩
/-! PLN_ACCESS_ERR. -/
def plnAccessErr_count : RF := ⟨0x100, 0x8, 63, 48⟩
def plnAccessErr_cause : RF := ⟨0x100, 0x8, 47, 44⟩
def plnAccessErr_master : RF := ⟨0x100, 0x8, 37, 26⟩
def plnAccessErr_addr : RF := ⟨0x100, 0x8, 25, 0⟩
/-! PLN_COLLIDE. -/
def plnCollide_count : RF := ⟨0x108, 0x8, 63, 56⟩
def plnCollide_fieldLsb : RF := ⟨0x108, 0x8, 55, 50⟩
def plnCollide_loser : RF := ⟨0x108, 0x8, 49, 38⟩
def plnCollide_winner : RF := ⟨0x108, 0x8, 37, 26⟩
def plnCollide_addr : RF := ⟨0x108, 0x8, 25, 0⟩
/-! PLN_THERM. -/
def plnTherm_temp0 : RF := ⟨0x200, 0x8, 7, 0⟩
def plnTherm_temp1 : RF := ⟨0x200, 0x8, 15, 8⟩
def plnTherm_temp2 : RF := ⟨0x200, 0x8, 23, 16⟩
def plnTherm_temp3 : RF := ⟨0x200, 0x8, 31, 24⟩
def plnTherm_temp4 : RF := ⟨0x200, 0x8, 39, 32⟩
def plnTherm_temp5 : RF := ⟨0x200, 0x8, 47, 40⟩
def plnTherm_temp6 : RF := ⟨0x200, 0x8, 55, 48⟩
def plnTherm_temp7 : RF := ⟨0x200, 0x8, 63, 56⟩
/-! PLN_DTREE_SEL. -/
def plnDtreeSel_word : RF := ⟨0x4000, 0x8, 13, 10⟩
def plnDtreeSel_tree : RF := ⟨0x4000, 0x8, 9, 0⟩
/-! PLN_DTREE_DATA. -/
def plnDtreeData_data : RF := ⟨0x4008, 0x8, 63, 0⟩
/-! PLN_MEND_STAT. -/
def plnMendStat_mends : RF := ⟨0x5000, 0x8, 63, 48⟩
def plnMendStat_linkMends : RF := ⟨0x5000, 0x8, 47, 40⟩
def plnMendStat_exhausted : RF := ⟨0x5000, 0x8, 39, 32⟩
def plnMendStat_logLost : RF := ⟨0x5000, 0x8, 31, 24⟩
def plnMendStat_spentShoals : RF := ⟨0x5000, 0x8, 15, 8⟩
def plnMendStat_deadShoals : RF := ⟨0x5000, 0x8, 7, 0⟩
/-! PLN_MEND_LOG. -/
def plnMendLog_enable : RF := ⟨0x5008, 0x8, 63, 63⟩
def plnMendLog_sizeLog2 : RF := ⟨0x5008, 0x8, 62, 58⟩
def plnMendLog_base : RF := ⟨0x5008, 0x8, 37, 12⟩
/-! PLN_MEND_LOG_PTR. -/
def plnMendLogPtr_write : RF := ⟨0x5010, 0x8, 63, 32⟩
def plnMendLogPtr_read : RF := ⟨0x5010, 0x8, 31, 0⟩
/-! PLN_MIRROR_CFG. -/
def plnMirrorCfg_dir : RF := ⟨0x5020, 0x8, 63, 63⟩
def plnMirrorCfg_base : RF := ⟨0x5020, 0x8, 40, 12⟩
def plnMirrorCfg_go : RF := ⟨0x5020, 0x8, 0, 0⟩
/-! PLN_MIRROR_STAT. -/
def plnMirrorStat_segsDone : RF := ⟨0x5028, 0x8, 63, 32⟩
def plnMirrorStat_errCode : RF := ⟨0x5028, 0x8, 3, 2⟩
def plnMirrorStat_err : RF := ⟨0x5028, 0x8, 1, 1⟩
def plnMirrorStat_done : RF := ⟨0x5028, 0x8, 0, 0⟩
/-! PLN_PILOT_RST. -/
def plnPilotRst_rstDown : RF := ⟨0x6000, 0x8, 63, 56⟩
def plnPilotRst_rstCount : RF := ⟨0x6000, 0x8, 55, 0⟩
/-! PLN_LEAD_MSIP. -/
def plnLeadMsip_msip : RF := ⟨0x6008, 0x8, 0, 0⟩
/-! PLN_NOTICE_LO. -/
def plnNoticeLo_valid : RF := ⟨0x6010, 0x8, 63, 63⟩
def plnNoticeLo_pop : RF := ⟨0x6010, 0x8, 62, 62⟩
def plnNoticeLo_ovf : RF := ⟨0x6010, 0x8, 61, 61⟩
def plnNoticeLo_kind : RF := ⟨0x6010, 0x8, 60, 57⟩
def plnNoticeLo_core : RF := ⟨0x6010, 0x8, 56, 46⟩
def plnNoticeLo_cove : RF := ⟨0x6010, 0x8, 45, 41⟩
def plnNoticeLo_time : RF := ⟨0x6010, 0x8, 31, 0⟩
/-! PLN_NOTICE_HI. -/
def plnNoticeHi_srcPos : RF := ⟨0x6018, 0x8, 38, 28⟩
def plnNoticeHi_cid : RF := ⟨0x6018, 0x8, 27, 12⟩
def plnNoticeHi_window : RF := ⟨0x6018, 0x8, 11, 0⟩
/-! PLN_CTX_LOSE. -/
def plnCtxLose_ctx : RF := ⟨0x6020, 0x8, 41, 32⟩
def plnCtxLose_core : RF := ⟨0x6020, 0x8, 10, 0⟩
/-! PLN_EVT_CFG. -/
def plnEvtCfg_enable : RF := ⟨0x6028, 0x8, 63, 63⟩
def plnEvtCfg_sizeLog2 : RF := ⟨0x6028, 0x8, 62, 58⟩
def plnEvtCfg_vector : RF := ⟨0x6028, 0x8, 48, 38⟩
def plnEvtCfg_base : RF := ⟨0x6028, 0x8, 37, 12⟩
/-! PLN_EVT_PTR. -/
def plnEvtPtr_producer : RF := ⟨0x6030, 0x8, 31, 16⟩
def plnEvtPtr_consumer : RF := ⟨0x6030, 0x8, 15, 0⟩
/-! PLN_EVT_COOKIE. -/
def plnEvtCookie_cookie : RF := ⟨0x6038, 0x8, 63, 0⟩
/-! PLN_MSIX. -/
def plnMsix_vector : RF := ⟨0x6040, 0x8, 10, 0⟩
/-! PLN_EVT_STAT. -/
def plnEvtStat_written : RF := ⟨0x6048, 0x8, 63, 32⟩
def plnEvtStat_lost : RF := ⟨0x6048, 0x8, 31, 16⟩
def plnEvtStat_pending : RF := ⟨0x6048, 0x8, 15, 0⟩
/-! PLN_DB_SUM. -/
def plnDbSum_db : RF := ⟨0x6080, 0x8, 63, 0⟩
/-! IMG_CTL. -/
def imgCtl_slotOvrEn : RF := ⟨0x7000, 0x8, 3, 3⟩
def imgCtl_slotOvr : RF := ⟨0x7000, 0x8, 2, 2⟩
def imgCtl_hold : RF := ⟨0x7000, 0x8, 1, 1⟩
def imgCtl_go : RF := ⟨0x7000, 0x8, 0, 0⟩
/-! IMG_BOOT. -/
def imgBoot_compare : RF := ⟨0x7008, 0x8, 1, 1⟩
def imgBoot_slot : RF := ⟨0x7008, 0x8, 0, 0⟩
/-! IMG_STAT. -/
def imgStat_attempts : RF := ⟨0x7010, 0x8, 63, 32⟩
def imgStat_state : RF := ⟨0x7010, 0x8, 23, 20⟩
def imgStat_slot : RF := ⟨0x7010, 0x8, 19, 19⟩
def imgStat_loadMs : RF := ⟨0x7010, 0x8, 15, 0⟩
/-! IMG_FAIL. -/
def imgFail_cause1 : RF := ⟨0x7018, 0x8, 63, 60⟩
def imgFail_word1 : RF := ⟨0x7018, 0x8, 57, 32⟩
def imgFail_cause0 : RF := ⟨0x7018, 0x8, 31, 28⟩
def imgFail_word0 : RF := ⟨0x7018, 0x8, 25, 0⟩
/-! IMG_PR_CFG. -/
def imgPrCfg_go : RF := ⟨0x7020, 0x8, 63, 63⟩
def imgPrCfg_src : RF := ⟨0x7020, 0x8, 62, 61⟩
def imgPrCfg_shoal : RF := ⟨0x7020, 0x8, 38, 32⟩
/-! IMG_PR_ADDR. -/
def imgPrAddr_addr : RF := ⟨0x7028, 0x8, 37, 6⟩
/-! IMG_PR_STAT. -/
def imgPrStat_doneCount : RF := ⟨0x7030, 0x8, 63, 32⟩
def imgPrStat_errCode : RF := ⟨0x7030, 0x8, 7, 4⟩
def imgPrStat_err : RF := ⟨0x7030, 0x8, 1, 1⟩
def imgPrStat_busy : RF := ⟨0x7030, 0x8, 0, 0⟩
/-! IMG_JRNL_ADDR. -/
def imgJrnlAddr_addr : RF := ⟨0x7040, 0x8, 25, 3⟩
/-! IMG_JRNL_VAL. -/
def imgJrnlVal_value : RF := ⟨0x7048, 0x8, 63, 0⟩
/-! IMG_JRNL_CMD. -/
def imgJrnlCmd_compact : RF := ⟨0x7050, 0x8, 1, 1⟩
def imgJrnlCmd_push : RF := ⟨0x7050, 0x8, 0, 0⟩
/-! IMG_JRNL_STAT. -/
def imgJrnlStat_torn : RF := ⟨0x7058, 0x8, 63, 48⟩
def imgJrnlStat_skipped : RF := ⟨0x7058, 0x8, 47, 32⟩
def imgJrnlStat_used : RF := ⟨0x7058, 0x8, 31, 16⟩
def imgJrnlStat_tight : RF := ⟨0x7058, 0x8, 3, 3⟩
def imgJrnlStat_full : RF := ⟨0x7058, 0x8, 2, 2⟩
def imgJrnlStat_err : RF := ⟨0x7058, 0x8, 1, 1⟩
def imgJrnlStat_area : RF := ⟨0x7058, 0x8, 0, 0⟩
/-! IMG_MEAS_RAIL. -/
def imgMeasRail_valid : RF := ⟨0x7080, 0x8, 63, 63⟩
def imgMeasRail_out : RF := ⟨0x7080, 0x8, 62, 60⟩
def imgMeasRail_strandLoad : RF := ⟨0x7080, 0x8, 59, 50⟩
def imgMeasRail_strandIdle : RF := ⟨0x7080, 0x8, 49, 40⟩
def imgMeasRail_ledgeLoad : RF := ⟨0x7080, 0x8, 39, 30⟩
def imgMeasRail_ledgeIdle : RF := ⟨0x7080, 0x8, 29, 20⟩
def imgMeasRail_logicLoad : RF := ⟨0x7080, 0x8, 19, 10⟩
def imgMeasRail_logicIdle : RF := ⟨0x7080, 0x8, 9, 0⟩
/-! IMG_MEAS_TIER. -/
def imgMeasTier_valid : RF := ⟨0x7088, 0x8, 63, 63⟩
def imgMeasTier_stacks : RF := ⟨0x7088, 0x8, 59, 56⟩
def imgMeasTier_links : RF := ⟨0x7088, 0x8, 55, 54⟩
def imgMeasTier_cxl1Gib : RF := ⟨0x7088, 0x8, 31, 16⟩
def imgMeasTier_cxl0Gib : RF := ⟨0x7088, 0x8, 15, 0⟩
/-! IMG_MEAS_SEL. -/
def imgMeasSel_port : RF := ⟨0x7090, 0x8, 5, 0⟩
/-! IMG_MEAS_DATA. -/
def imgMeasData_valid : RF := ⟨0x7098, 0x8, 63, 63⟩
def imgMeasData_lanes : RF := ⟨0x7098, 0x8, 43, 40⟩
def imgMeasData_margin : RF := ⟨0x7098, 0x8, 39, 24⟩
def imgMeasData_loss : RF := ⟨0x7098, 0x8, 15, 0⟩
/-! IMG_TRIM_RAIL. -/
def imgTrimRail_strand : RF := ⟨0x70a0, 0x8, 47, 32⟩
def imgTrimRail_ledge : RF := ⟨0x70a0, 0x8, 31, 16⟩
def imgTrimRail_logic : RF := ⟨0x70a0, 0x8, 15, 0⟩
/-! IMG_TRIM_LEDGE. -/
def imgTrimLedge_margin : RF := ⟨0x70a8, 0x8, 47, 0⟩
/-! PLN_DIE_LO. -/
def plnDieLo_die : RF := ⟨0x70c0, 0x8, 63, 0⟩
/-! PLN_DIE_HI. -/
def plnDieHi_die : RF := ⟨0x70c8, 0x8, 63, 0⟩
/-! TID_NOW. -/
def tidNow_now : RF := ⟨0x10000, 0x8, 63, 0⟩
/-! TID_STAT. -/
def tidStat_errPs : RF := ⟨0x10008, 0x8, 63, 48⟩
def tidStat_depth : RF := ⟨0x10008, 0x8, 47, 40⟩
def tidStat_ahead : RF := ⟨0x10008, 0x8, 7, 7⟩
def tidStat_holdover : RF := ⟨0x10008, 0x8, 6, 6⟩
def tidStat_holdSeen : RF := ⟨0x10008, 0x8, 5, 5⟩
def tidStat_slew : RF := ⟨0x10008, 0x8, 4, 4⟩
def tidStat_aligned : RF := ⟨0x10008, 0x8, 3, 3⟩
def tidStat_locked : RF := ⟨0x10008, 0x8, 2, 2⟩
def tidStat_root : RF := ⟨0x10008, 0x8, 1, 1⟩
/-! TID_CFG. -/
def tidCfg_lock : RF := ⟨0x10010, 0x8, 63, 63⟩
def tidCfg_root : RF := ⟨0x10010, 0x8, 9, 9⟩
def tidCfg_parent : RF := ⟨0x10010, 0x8, 5, 0⟩
/-! TID_LINK. -/
def tidLink_hopNs : RF := ⟨0x10100, 0x8, 51, 40⟩
def tidLink_fit : RF := ⟨0x10100, 0x8, 39, 39⟩
def tidLink_valid : RF := ⟨0x10100, 0x8, 38, 38⟩
def tidLink_rttPs : RF := ⟨0x10100, 0x8, 37, 16⟩
def tidLink_offsetPs : RF := ⟨0x10100, 0x8, 15, 0⟩
/-! TID_SCHED. -/
def tidSched_arm : RF := ⟨0x10400, 0x20, 63, 63⟩
def tidSched_ftabBase : RF := ⟨0x10400, 0x20, 60, 48⟩
def tidSched_group : RF := ⟨0x10400, 0x20, 47, 32⟩
def tidSched_frameLog2 : RF := ⟨0x10400, 0x20, 19, 16⟩
def tidSched_stepFrames : RF := ⟨0x10400, 0x20, 15, 0⟩
/-! TID_START. -/
def tidStart_start : RF := ⟨0x10408, 0x20, 63, 0⟩
/-! TID_STEP. -/
def tidStep_stepNo : RF := ⟨0x10410, 0x20, 63, 32⟩
def tidStep_breaches : RF := ⟨0x10410, 0x20, 31, 16⟩
def tidStep_overplan : RF := ⟨0x10410, 0x20, 15, 8⟩
def tidStep_repeat : RF := ⟨0x10410, 0x20, 7, 7⟩
def tidStep_halted : RF := ⟨0x10410, 0x20, 6, 6⟩
def tidStep_replay : RF := ⟨0x10410, 0x20, 5, 5⟩
def tidStep_guardBreach : RF := ⟨0x10410, 0x20, 4, 4⟩
/-! TID_BREACH. -/
def tidBreach_core : RF := ⟨0x10418, 0x20, 42, 32⟩
def tidBreach_step : RF := ⟨0x10418, 0x20, 31, 0⟩
/-! TID_GOV_CFG. -/
def tidGovCfg_budget : RF := ⟨0x11000, 0x8, 63, 32⟩
def tidGovCfg_floor : RF := ⟨0x11000, 0x8, 31, 0⟩
/-! TID_GOV_STAT. -/
def tidGovStat_throttledNs : RF := ⟨0x11008, 0x8, 63, 32⟩
def tidGovStat_floorAct : RF := ⟨0x11008, 0x8, 1, 1⟩
def tidGovStat_throttle : RF := ⟨0x11008, 0x8, 0, 0⟩
/-! TID_FTAB_SEL. -/
def tidFtabSel_index : RF := ⟨0x11020, 0x8, 12, 0⟩
/-! TID_FTAB_DATA. -/
def tidFtabData_powerW : RF := ⟨0x11028, 0x8, 47, 32⟩
def tidFtabData_units : RF := ⟨0x11028, 0x8, 31, 0⟩
/-! STR_CFG. -/
def strCfg_enable : RF := ⟨0x12000, 0x40, 63, 63⟩
def strCfg_retrain : RF := ⟨0x12000, 0x40, 62, 62⟩
def strCfg_expClass : RF := ⟨0x12000, 0x40, 47, 32⟩
def strCfg_expGeom : RF := ⟨0x12000, 0x40, 31, 24⟩
def strCfg_expValid : RF := ⟨0x12000, 0x40, 11, 11⟩
def strCfg_expPos : RF := ⟨0x12000, 0x40, 10, 0⟩
/-! STR_STAT. -/
def strStat_fecUe : RF := ⟨0x12008, 0x40, 63, 48⟩
def strStat_downs : RF := ⟨0x12008, 0x40, 47, 32⟩
def strStat_misroute : RF := ⟨0x12008, 0x40, 31, 16⟩
def strStat_lastEvent : RF := ⟨0x12008, 0x40, 11, 8⟩
def strStat_newDie : RF := ⟨0x12008, 0x40, 7, 7⟩
def strStat_schedOk : RF := ⟨0x12008, 0x40, 6, 6⟩
def strStat_elasticOk : RF := ⟨0x12008, 0x40, 5, 5⟩
def strStat_state : RF := ⟨0x12008, 0x40, 2, 0⟩
/-! STR_PART. -/
def strPart_class : RF := ⟨0x12010, 0x40, 63, 48⟩
def strPart_stepping : RF := ⟨0x12010, 0x40, 47, 44⟩
def strPart_geomCode : RF := ⟨0x12010, 0x40, 39, 32⟩
def strPart_port : RF := ⟨0x12010, 0x40, 31, 26⟩
def strPart_image : RF := ⟨0x12010, 0x40, 11, 11⟩
def strPart_pos : RF := ⟨0x12010, 0x40, 10, 0⟩
/-! STR_PART_DIE_LO. -/
def strPartDieLo_die : RF := ⟨0x12018, 0x40, 63, 0⟩
/-! STR_PART_DIE_HI. -/
def strPartDieHi_die : RF := ⟨0x12020, 0x40, 63, 0⟩
/-! STR_EXP_DIE_LO. -/
def strExpDieLo_die : RF := ⟨0x12028, 0x40, 63, 0⟩
/-! STR_EXP_DIE_HI. -/
def strExpDieHi_die : RF := ⟨0x12030, 0x40, 63, 0⟩
/-! STR_HALL. -/
def strHall_lock : RF := ⟨0x12c00, 0x8, 63, 63⟩
def strHall_pos : RF := ⟨0x12c00, 0x8, 10, 0⟩
/-! STR_PLAN_SEL. -/
def strPlanSel_port : RF := ⟨0x12c08, 0x8, 15, 10⟩
def strPlanSel_index : RF := ⟨0x12c08, 0x8, 9, 0⟩
/-! STR_PLAN_DATA. -/
def strPlanData_run : RF := ⟨0x12c10, 0x8, 63, 0⟩
/-! STR_TWIN. -/
def strTwin_valid : RF := ⟨0x12d00, 0x8, 63, 63⟩
def strTwin_twin : RF := ⟨0x12d00, 0x8, 5, 0⟩
/-! TIR_SHARE. -/
def tirShare_quantum : RF := ⟨0x13000, 0x10, 15, 0⟩
/-! TIR_BAY_STAT. -/
def tirBayStat_kib : RF := ⟨0x13008, 0x10, 63, 32⟩
def tirBayStat_waitNs : RF := ⟨0x13008, 0x10, 31, 0⟩
/-! HBR_DRIFT_CFG. -/
def hbrDriftCfg_enable : RF := ⟨0x14000, 0x8, 63, 63⟩
def hbrDriftCfg_sizeLog2 : RF := ⟨0x14000, 0x8, 62, 58⟩
def hbrDriftCfg_base : RF := ⟨0x14000, 0x8, 37, 12⟩
/-! HBR_DRIFT_PTR. -/
def hbrDriftPtr_write : RF := ⟨0x14008, 0x8, 63, 32⟩
def hbrDriftPtr_read : RF := ⟨0x14008, 0x8, 31, 0⟩
/-! HBR_STAT. -/
def hbrStat_stale : RF := ⟨0x14010, 0x8, 63, 32⟩
def hbrStat_dropped : RF := ⟨0x14010, 0x8, 31, 16⟩
def hbrStat_denied : RF := ⟨0x14010, 0x8, 15, 0⟩
/-! HBR_REDRIVE. -/
def hbrRedrive_go : RF := ⟨0x14018, 0x8, 63, 63⟩
def hbrRedrive_err : RF := ⟨0x14018, 0x8, 62, 62⟩
def hbrRedrive_window : RF := ⟨0x14018, 0x8, 43, 32⟩
def hbrRedrive_record : RF := ⟨0x14018, 0x8, 31, 0⟩
/-! BAY_ROLE. -/
def bayRole_role : RF := ⟨0x15000, 0x8, 17, 16⟩
def bayRole_epoch : RF := ⟨0x15000, 0x8, 15, 0⟩
/-! BAY_DRAIN. -/
def bayDrain_done : RF := ⟨0x15400, 0x8, 1, 1⟩
def bayDrain_go : RF := ⟨0x15400, 0x8, 0, 0⟩
/-! LED_CFG. -/
def ledCfg_pageBase : RF := ⟨0x16000, 0x8, 37, 12⟩
def ledCfg_pageLog2 : RF := ⟨0x16000, 0x8, 9, 5⟩
def ledCfg_refillLog2 : RF := ⟨0x16000, 0x8, 4, 0⟩
/-! LED_WALK_CFG. -/
def ledWalkCfg_verify : RF := ⟨0x16100, 0x8, 63, 63⟩
def ledWalkCfg_bucketLog2 : RF := ⟨0x16100, 0x8, 62, 58⟩
def ledWalkCfg_bucketBase : RF := ⟨0x16100, 0x8, 57, 32⟩
def ledWalkCfg_nodeBase : RF := ⟨0x16100, 0x8, 25, 0⟩
/-! LED_WALK_CMD. -/
def ledWalkCmd_go : RF := ⟨0x16108, 0x8, 63, 63⟩
def ledWalkCmd_blocks : RF := ⟨0x16108, 0x8, 57, 48⟩
def ledWalkCmd_scope : RF := ⟨0x16108, 0x8, 47, 38⟩
def ledWalkCmd_tokens : RF := ⟨0x16108, 0x8, 37, 6⟩
/-! LED_WALK_RES. -/
def ledWalkRes_done : RF := ⟨0x16110, 0x8, 63, 63⟩
def ledWalkRes_err : RF := ⟨0x16110, 0x8, 62, 62⟩
def ledWalkRes_matched : RF := ⟨0x16110, 0x8, 42, 32⟩
def ledWalkRes_node : RF := ⟨0x16110, 0x8, 31, 0⟩
/-! CAS_CMD. -/
def casCmd_new : RF := ⟨0x17000, 0x20, 23, 20⟩
def casCmd_expect : RF := ⟨0x17000, 0x20, 19, 16⟩
def casCmd_index : RF := ⟨0x17000, 0x20, 12, 0⟩
/-! CAS_RES. -/
def casRes_found : RF := ⟨0x17008, 0x20, 7, 4⟩
def casRes_result : RF := ⟨0x17008, 0x20, 1, 0⟩
/-! CHARGE. -/
def charge_tenant : RF := ⟨0x17010, 0x20, 41, 32⟩
def charge_amount : RF := ⟨0x17010, 0x20, 31, 0⟩
/-! BAY_CARVE0. -/
def bayCarve0_basinLimit : RF := ⟨0x18000, 0x40, 50, 32⟩
def bayCarve0_basinBase : RF := ⟨0x18000, 0x40, 18, 0⟩
/-! BAY_CARVE1. -/
def bayCarve1_nearLimit : RF := ⟨0x18008, 0x40, 50, 32⟩
def bayCarve1_nearBase : RF := ⟨0x18008, 0x40, 18, 0⟩
/-! BAY_CARVE2. -/
def bayCarve2_farLimit : RF := ⟨0x18010, 0x40, 52, 32⟩
def bayCarve2_farBase : RF := ⟨0x18010, 0x40, 20, 0⟩
/-! BAY_SHOALS_LO. -/
def bayShoalsLo_shoalsLo : RF := ⟨0x18018, 0x40, 63, 0⟩
/-! BAY_SHOALS_HI. -/
def bayShoalsHi_shoalsHi : RF := ⟨0x18020, 0x40, 15, 0⟩
/-! BAY_CTL. -/
def bayCtl_state : RF := ⟨0x18028, 0x40, 63, 62⟩
def bayCtl_createGo : RF := ⟨0x18028, 0x40, 61, 61⟩
def bayCtl_retireGo : RF := ⟨0x18028, 0x40, 60, 60⟩
def bayCtl_washGo : RF := ⟨0x18028, 0x40, 59, 59⟩
def bayCtl_bayEpoch : RF := ⟨0x18028, 0x40, 47, 32⟩
def bayCtl_tenant : RF := ⟨0x18028, 0x40, 25, 16⟩
/-! BAY_STAT. -/
def bayStat_washes : RF := ⟨0x18030, 0x40, 63, 32⟩
def bayStat_contexts : RF := ⟨0x18030, 0x40, 26, 16⟩
/-! HBR_WIN_CFG. -/
def hbrWinCfg_sendPos : RF := ⟨0x20000, 0x20, 63, 53⟩
def hbrWinCfg_sendCore : RF := ⟨0x20000, 0x20, 52, 42⟩
def hbrWinCfg_cove : RF := ⟨0x20000, 0x20, 41, 37⟩
def hbrWinCfg_count : RF := ⟨0x20000, 0x20, 36, 24⟩
def hbrWinCfg_first : RF := ⟨0x20000, 0x20, 23, 12⟩
def hbrWinCfg_core : RF := ⟨0x20000, 0x20, 10, 0⟩
/-! HBR_WIN_CTL. -/
def hbrWinCtl_perm : RF := ⟨0x20008, 0x20, 4, 3⟩
def hbrWinCtl_open : RF := ⟨0x20008, 0x20, 2, 2⟩
def hbrWinCtl_closeGo : RF := ⟨0x20008, 0x20, 1, 1⟩
def hbrWinCtl_openGo : RF := ⟨0x20008, 0x20, 0, 0⟩
/-! HBR_WIN_STAT. -/
def hbrWinStat_landed : RF := ⟨0x20010, 0x20, 63, 32⟩
def hbrWinStat_granted : RF := ⟨0x20010, 0x20, 28, 16⟩
def hbrWinStat_grantPtr : RF := ⟨0x20010, 0x20, 11, 0⟩
/-! CTX_CFG. -/
def ctxCfg_state : RF := ⟨0x40000, 0x80, 63, 62⟩
def ctxCfg_openGo : RF := ⟨0x40000, 0x80, 61, 61⟩
def ctxCfg_closeGo : RF := ⟨0x40000, 0x80, 60, 60⟩
def ctxCfg_freeGo : RF := ⟨0x40000, 0x80, 59, 59⟩
def ctxCfg_evtEn : RF := ⟨0x40000, 0x80, 50, 48⟩
def ctxCfg_vector : RF := ⟨0x40000, 0x80, 42, 32⟩
def ctxCfg_tenant : RF := ⟨0x40000, 0x80, 25, 16⟩
def ctxCfg_bay : RF := ⟨0x40000, 0x80, 6, 0⟩
/-! CTX_FAULT. -/
def ctxFault_tag : RF := ⟨0x40008, 0x80, 63, 40⟩
def ctxFault_core : RF := ⟨0x40008, 0x80, 39, 29⟩
def ctxFault_class : RF := ⟨0x40008, 0x80, 7, 0⟩
/-! CTX_REF. -/
def ctxRef_host : RF := ⟨0x40010, 0x80, 63, 48⟩
def ctxRef_dev : RF := ⟨0x40010, 0x80, 47, 32⟩
def ctxRef_dec : RF := ⟨0x40010, 0x80, 1, 1⟩
def ctxRef_inc : RF := ⟨0x40010, 0x80, 0, 0⟩
/-! CTX_COOKIE. -/
def ctxCookie_cookie : RF := ⟨0x40018, 0x80, 63, 0⟩
/-! CTX_PROG. -/
def ctxProg_base : RF := ⟨0x40020, 0x80, 37, 6⟩
/-! CTX_CQ. -/
def ctxCq_enable : RF := ⟨0x40028, 0x80, 63, 63⟩
def ctxCq_sizeLog2 : RF := ⟨0x40028, 0x80, 62, 58⟩
def ctxCq_base : RF := ⟨0x40028, 0x80, 37, 12⟩
/-! CTX_CQP. -/
def ctxCqp_producer : RF := ⟨0x40030, 0x80, 31, 16⟩
def ctxCqp_consumer : RF := ⟨0x40030, 0x80, 15, 0⟩
/-! CTX_SQ. -/
def ctxSq_enable : RF := ⟨0x40040, 0x80, 63, 63⟩
def ctxSq_sizeLog2 : RF := ⟨0x40040, 0x80, 62, 58⟩
def ctxSq_base : RF := ⟨0x40040, 0x80, 37, 12⟩
/-! CTX_SQP. -/
def ctxSqp_producer : RF := ⟨0x40048, 0x80, 31, 16⟩
def ctxSqp_consumer : RF := ⟨0x40048, 0x80, 15, 0⟩
/-! TEN_WORD0. -/
def tenWord0_balance : RF := ⟨0x60000, 0x20, 63, 32⟩
def tenWord0_burst : RF := ⟨0x60000, 0x20, 31, 0⟩
/-! TEN_WORD1. -/
def tenWord1_rate : RF := ⟨0x60008, 0x20, 63, 32⟩
def tenWord1_pfWeight : RF := ⟨0x60008, 0x20, 31, 16⟩
def tenWord1_holdMs : RF := ⟨0x60008, 0x20, 15, 4⟩
def tenWord1_enable : RF := ⟨0x60008, 0x20, 0, 0⟩
/-! TEN_WORD2. -/
def tenWord2_held : RF := ⟨0x60010, 0x20, 63, 32⟩
def tenWord2_admitted : RF := ⟨0x60010, 0x20, 31, 0⟩
/-! TEN_WORD3. -/
def tenWord3_charged : RF := ⟨0x60018, 0x20, 63, 0⟩
/-! LED_WORD0. -/
def ledWord0_ctxLen : RF := ⟨0x80000, 0x20, 63, 40⟩
def ledWord0_tenant : RF := ⟨0x80000, 0x20, 39, 30⟩
def ledWord0_context : RF := ⟨0x80000, 0x20, 29, 20⟩
def ledWord0_bay : RF := ⟨0x80000, 0x20, 19, 13⟩
def ledWord0_prio : RF := ⟨0x80000, 0x20, 12, 10⟩
def ledWord0_state : RF := ⟨0x80000, 0x20, 3, 0⟩
/-! LED_WORD1. -/
def ledWord1_deadline : RF := ⟨0x80008, 0x20, 63, 0⟩
/-! LED_WORD2. -/
def ledWord2_pages : RF := ⟨0x80010, 0x20, 63, 32⟩
def ledWord2_head : RF := ⟨0x80010, 0x20, 31, 0⟩
/-! LED_WORD3. -/
def ledWord3_prefixHit : RF := ⟨0x80018, 0x20, 63, 40⟩
def ledWord3_generated : RF := ⟨0x80018, 0x20, 39, 16⟩
def ledWord3_queue : RF := ⟨0x80018, 0x20, 15, 14⟩
/-! DBG_TRACE_CFG. -/
def dbgTraceCfg_enable : RF := ⟨0xc0000, 0x8, 63, 63⟩
def dbgTraceCfg_sizeLog2 : RF := ⟨0xc0000, 0x8, 62, 58⟩
def dbgTraceCfg_base : RF := ⟨0xc0000, 0x8, 37, 12⟩
/-! DBG_TRACE_PTR. -/
def dbgTracePtr_write : RF := ⟨0xc0008, 0x8, 63, 32⟩
def dbgTracePtr_read : RF := ⟨0xc0008, 0x8, 31, 0⟩
/-! DBG_TRACE_STAT. -/
def dbgTraceStat_written : RF := ⟨0xc0010, 0x8, 63, 32⟩
def dbgTraceStat_lost : RF := ⟨0xc0010, 0x8, 31, 0⟩
/-! PRT_CTL. -/
def prtCtl_enable : RF := ⟨0xc1000, 0x8, 63, 63⟩
def prtCtl_spareReplay : RF := ⟨0xc1000, 0x8, 62, 62⟩
def prtCtl_seed : RF := ⟨0xc1000, 0x8, 31, 0⟩
/-! PRT_STAT. -/
def prtStat_events : RF := ⟨0xc1008, 0x8, 63, 32⟩
def prtStat_heldNs : RF := ⟨0xc1008, 0x8, 31, 0⟩
/-! PRT_TIER. -/
def prtTier_delay : RF := ⟨0xc1100, 0x8, 63, 50⟩
def prtTier_jit : RF := ⟨0xc1100, 0x8, 49, 40⟩
def prtTier_duty : RF := ⟨0xc1100, 0x8, 39, 32⟩
/-! PRT_STRAIT. -/
def prtStrait_delay : RF := ⟨0xc1200, 0x8, 63, 50⟩
def prtStrait_jit : RF := ⟨0xc1200, 0x8, 49, 40⟩
def prtStrait_duty : RF := ⟨0xc1200, 0x8, 39, 32⟩
def prtStrait_sched : RF := ⟨0xc1200, 0x8, 1, 1⟩
def prtStrait_elastic : RF := ⟨0xc1200, 0x8, 0, 0⟩
/-! SHL_ID. -/
def shlId_bay : RF := ⟨0x1000000, 0x10000, 22, 16⟩
def shlId_usable : RF := ⟨0x1000000, 0x10000, 8, 8⟩
def shlId_shoal : RF := ⟨0x1000000, 0x10000, 6, 0⟩
/-! SHL_TILE_STAT. -/
def shlTileStat_placed : RF := ⟨0x1000200, 0x10000, 63, 32⟩
def shlTileStat_rejected : RF := ⟨0x1000200, 0x10000, 31, 16⟩
def shlTileStat_last : RF := ⟨0x1000200, 0x10000, 2, 0⟩
/-! SHL_GOV. -/
def shlGov_heldNs : RF := ⟨0x1000210, 0x10000, 63, 32⟩
def shlGov_turns : RF := ⟨0x1000210, 0x10000, 31, 0⟩
/-! SHL_MEND_STAT. -/
def shlMendStat_sweepRepairs : RF := ⟨0x1000220, 0x10000, 63, 48⟩
def shlMendStat_readRepairs : RF := ⟨0x1000220, 0x10000, 47, 32⟩
def shlMendStat_repairFails : RF := ⟨0x1000220, 0x10000, 31, 24⟩
def shlMendStat_lastPos : RF := ⟨0x1000220, 0x10000, 23, 20⟩
def shlMendStat_source : RF := ⟨0x1000220, 0x10000, 19, 16⟩
def shlMendStat_phase : RF := ⟨0x1000220, 0x10000, 15, 12⟩
def shlMendStat_svcFail : RF := ⟨0x1000220, 0x10000, 4, 4⟩
def shlMendStat_dead : RF := ⟨0x1000220, 0x10000, 3, 3⟩
def shlMendStat_spent : RF := ⟨0x1000220, 0x10000, 2, 2⟩
def shlMendStat_exhausted : RF := ⟨0x1000220, 0x10000, 1, 1⟩
def shlMendStat_active : RF := ⟨0x1000220, 0x10000, 0, 0⟩
/-! SHL_MEND_CFG. -/
def shlMendCfg_restoreNs : RF := ⟨0x1000228, 0x10000, 63, 32⟩
def shlMendCfg_pilotUs : RF := ⟨0x1000228, 0x10000, 31, 16⟩
def shlMendCfg_serviceGo : RF := ⟨0x1000228, 0x10000, 0, 0⟩
/-! SHL_MEND_REC. -/
def shlMendRec_step : RF := ⟨0x1000230, 0x10000, 63, 32⟩
def shlMendRec_class : RF := ⟨0x1000230, 0x10000, 31, 24⟩
def shlMendRec_tag : RF := ⟨0x1000230, 0x10000, 23, 0⟩
/-! SHL_PHYS_LO. -/
def shlPhysLo_pos011 : RF := ⟨0x1000238, 0x10000, 59, 0⟩
/-! SHL_PHYS_HI. -/
def shlPhysHi_spare : RF := ⟨0x1000240, 0x10000, 24, 20⟩
def shlPhysHi_pos1215 : RF := ⟨0x1000240, 0x10000, 19, 0⟩
/-! SHL_PILOT_RST. -/
def shlPilotRst_rstDown : RF := ⟨0x1000248, 0x10000, 63, 56⟩
def shlPilotRst_rstCount : RF := ⟨0x1000248, 0x10000, 55, 0⟩
/-! SHL_MSIP. -/
def shlMsip_msip : RF := ⟨0x1000250, 0x10000, 0, 0⟩
/-! SHL_NOTICE. -/
def shlNotice_valid : RF := ⟨0x1000258, 0x10000, 63, 63⟩
def shlNotice_pop : RF := ⟨0x1000258, 0x10000, 62, 62⟩
def shlNotice_ovf : RF := ⟨0x1000258, 0x10000, 61, 61⟩
def shlNotice_kind : RF := ⟨0x1000258, 0x10000, 60, 57⟩
def shlNotice_core : RF := ⟨0x1000258, 0x10000, 56, 46⟩
def shlNotice_cove : RF := ⟨0x1000258, 0x10000, 45, 41⟩
def shlNotice_time : RF := ⟨0x1000258, 0x10000, 31, 0⟩
/-! COR_ID. -/
def corId_logical : RF := ⟨0x0, 0x8, 42, 32⟩
def corId_shoal : RF := ⟨0x0, 0x8, 22, 16⟩
def corId_pos : RF := ⟨0x0, 0x8, 12, 8⟩
def corId_phys : RF := ⟨0x0, 0x8, 4, 0⟩
/-! COR_CTL. -/
def corCtl_entry : RF := ⟨0x8, 0x8, 43, 24⟩
def corCtl_ctx : RF := ⟨0x8, 0x8, 23, 14⟩
def corCtl_faulted : RF := ⟨0x8, 0x8, 3, 3⟩
def corCtl_stopped : RF := ⟨0x8, 0x8, 2, 2⟩
def corCtl_halt : RF := ⟨0x8, 0x8, 1, 1⟩
def corCtl_start : RF := ⟨0x8, 0x8, 0, 0⟩
/-! COR_FAULT. -/
def corFault_tag : RF := ⟨0x10, 0x8, 63, 40⟩
def corFault_wordOff : RF := ⟨0x10, 0x8, 39, 22⟩
def corFault_unit : RF := ⟨0x10, 0x8, 21, 18⟩
def corFault_ctx : RF := ⟨0x10, 0x8, 17, 8⟩
def corFault_class : RF := ⟨0x10, 0x8, 7, 0⟩
/-! COR_COUNT_NOW. -/
def corCountNow_count : RF := ⟨0x18, 0x8, 63, 0⟩
/-! COR_TAG_NOW. -/
def corTagNow_tag : RF := ⟨0x20, 0x8, 23, 0⟩
/-! COR_ARR_STAT. -/
def corArrStat_rowStalls : RF := ⟨0x80, 0x8, 63, 32⟩
def corArrStat_colStalls : RF := ⟨0x80, 0x8, 31, 8⟩
def corArrStat_intWrap : RF := ⟨0x80, 0x8, 2, 2⟩
def corArrStat_nanSeen : RF := ⟨0x80, 0x8, 1, 1⟩
def corArrStat_busy : RF := ⟨0x80, 0x8, 0, 0⟩
/-! COR_RESIDUE. -/
def corResidue_retries : RF := ⟨0x88, 0x8, 63, 48⟩
def corResidue_lastCol : RF := ⟨0x88, 0x8, 39, 32⟩
def corResidue_lastTag : RF := ⟨0x88, 0x8, 31, 8⟩
def corResidue_declared : RF := ⟨0x88, 0x8, 0, 0⟩
/-! COR_ARR_TILES. -/
def corArrTiles_tiles : RF := ⟨0x90, 0x8, 63, 0⟩
/-! COR_VEC_STAT. -/
def corVecStat_groups : RF := ⟨0xa0, 0x8, 63, 32⟩
def corVecStat_intWrap : RF := ⟨0xa0, 0x8, 2, 2⟩
def corVecStat_nanSeen : RF := ⟨0xa0, 0x8, 1, 1⟩
def corVecStat_busy : RF := ⟨0xa0, 0x8, 0, 0⟩
/-! COR_EST_STAT. -/
def corEstStat_drains : RF := ⟨0xa8, 0x8, 63, 32⟩
def corEstStat_waits : RF := ⟨0xa8, 0x8, 31, 16⟩
def corEstStat_sat : RF := ⟨0xa8, 0x8, 4, 4⟩
def corEstStat_nanSeen : RF := ⟨0xa8, 0x8, 3, 3⟩
def corEstStat_set1Busy : RF := ⟨0xa8, 0x8, 2, 2⟩
def corEstStat_set0Busy : RF := ⟨0xa8, 0x8, 1, 1⟩
def corEstStat_busy : RF := ⟨0xa8, 0x8, 0, 0⟩
/-! COR_EST_SEED. -/
def corEstSeed_seed : RF := ⟨0xb0, 0x8, 31, 0⟩
/-! COR_STRAND_CAPS. -/
def corStrandCaps_opLat : RF := ⟨0xb8, 0x8, 59, 55⟩
def corStrandCaps_stgLat : RF := ⟨0xb8, 0x8, 54, 35⟩
def corStrandCaps_adecLat : RF := ⟨0xb8, 0x8, 34, 30⟩
def corStrandCaps_wdecLat : RF := ⟨0xb8, 0x8, 29, 25⟩
def corStrandCaps_adecIn : RF := ⟨0xb8, 0x8, 24, 21⟩
def corStrandCaps_wdecIn : RF := ⟨0xb8, 0x8, 20, 16⟩
def corStrandCaps_wdecFmt : RF := ⟨0xb8, 0x8, 15, 12⟩
def corStrandCaps_adecFmt : RF := ⟨0xb8, 0x8, 11, 8⟩
/-! COR_STRAND_STAT. -/
def corStrandStat_protoCount : RF := ⟨0xc0, 0x8, 63, 32⟩
def corStrandStat_lastExt : RF := ⟨0xc0, 0x8, 27, 24⟩
def corStrandStat_proto : RF := ⟨0xc0, 0x8, 0, 0⟩
/-! COR_STRAND_SEL. -/
def corStrandSel_word : RF := ⟨0xc8, 0x8, 12, 0⟩
/-! COR_STRAND_DATA. -/
def corStrandData_data : RF := ⟨0xd0, 0x8, 63, 0⟩
/-! COR_DESC_SEL. -/
def corDescSel_entry : RF := ⟨0xd8, 0x8, 5, 0⟩
/-! COR_DESC_LO. -/
def corDescLo_data : RF := ⟨0xe0, 0x8, 63, 0⟩
/-! COR_DESC_HI. -/
def corDescHi_data : RF := ⟨0xe8, 0x8, 63, 0⟩
/-! COR_DEADLINE. -/
def corDeadline_deadline : RF := ⟨0xf0, 0x8, 63, 0⟩
/-! COR_SCL_STAT. -/
def corSclStat_taken : RF := ⟨0xf8, 0x8, 63, 32⟩
def corSclStat_fetch : RF := ⟨0xf8, 0x8, 29, 10⟩
def corSclStat_nanSeen : RF := ⟨0xf8, 0x8, 2, 2⟩
def corSclStat_dlRun : RF := ⟨0xf8, 0x8, 1, 1⟩
def corSclStat_waiting : RF := ⟨0xf8, 0x8, 0, 0⟩
/-! LDG_LEASE. -/
def ldgLease_guest : RF := ⟨0x100, 0x8, 63, 57⟩
def ldgLease_hold : RF := ⟨0x100, 0x8, 47, 0⟩
/-! LDG_LEASE_ACT. -/
def ldgLeaseAct_set : RF := ⟨0x140, 0x8, 2, 0⟩
/-! LDG_BREACH. -/
def ldgBreach_lastHolder : RF := ⟨0x148, 0x8, 43, 40⟩
def ldgBreach_lastClass : RF := ⟨0x148, 0x8, 39, 36⟩
def ldgBreach_lastLedge : RF := ⟨0x148, 0x8, 35, 32⟩
def ldgBreach_count : RF := ⟨0x148, 0x8, 31, 0⟩
/-! LDG_HAZARD. -/
def ldgHazard_lastAddr : RF := ⟨0x150, 0x8, 56, 32⟩
def ldgHazard_count : RF := ⟨0x150, 0x8, 31, 0⟩
/-! LDG_ECC. -/
def ldgEcc_lastUe : RF := ⟨0x158, 0x8, 57, 57⟩
def ldgEcc_lastAddr : RF := ⟨0x158, 0x8, 56, 32⟩
def ldgEcc_ueCount : RF := ⟨0x158, 0x8, 31, 16⟩
def ldgEcc_ceCount : RF := ⟨0x158, 0x8, 15, 0⟩
/-! LDG_ENG_CMD_LO. -/
def ldgEngCmdLo_word0 : RF := ⟨0x160, 0x8, 63, 0⟩
/-! LDG_ENG_CMD_HI. -/
def ldgEngCmdHi_word1 : RF := ⟨0x168, 0x8, 63, 0⟩
/-! LDG_ENG_PUSH. -/
def ldgEngPush_push : RF := ⟨0x170, 0x8, 0, 0⟩
/-! LDG_ENG_STAT. -/
def ldgEngStat_doneCount : RF := ⟨0x178, 0x8, 63, 32⟩
def ldgEngStat_errOp : RF := ⟨0x178, 0x8, 15, 12⟩
def ldgEngStat_timeout : RF := ⟨0x178, 0x8, 9, 9⟩
def ldgEngStat_err : RF := ⟨0x178, 0x8, 8, 8⟩
def ldgEngStat_winOpen : RF := ⟨0x178, 0x8, 7, 4⟩
def ldgEngStat_busy : RF := ⟨0x178, 0x8, 3, 3⟩
/-! LDG_ENG_LEVEL. -/
def ldgEngLevel_queueLevel : RF := ⟨0x180, 0x8, 3, 0⟩
/-! LDG_SWEEP. -/
def ldgSweep_steals : RF := ⟨0x188, 0x8, 63, 48⟩
def ldgSweep_passes : RF := ⟨0x188, 0x8, 47, 32⟩
def ldgSweep_enable : RF := ⟨0x188, 0x8, 16, 16⟩
def ldgSweep_interval : RF := ⟨0x188, 0x8, 15, 0⟩
/-! LDG_WASH. -/
def ldgWash_washCount : RF := ⟨0x190, 0x8, 63, 32⟩
def ldgWash_done : RF := ⟨0x190, 0x8, 1, 1⟩
def ldgWash_go : RF := ⟨0x190, 0x8, 0, 0⟩
/-! COR_PRED_EDGE. -/
def corPredEdge_padFill : RF := ⟨0x200, 0x30, 25, 25⟩
def corPredEdge_outEdge : RF := ⟨0x200, 0x30, 24, 16⟩
def corPredEdge_redEdge : RF := ⟨0x200, 0x30, 8, 0⟩
/-! COR_PRED_ROWLO. -/
def corPredRowlo_rowOff : RF := ⟨0x208, 0x30, 63, 0⟩
/-! COR_PRED_ROWHI. -/
def corPredRowhi_rowOff : RF := ⟨0x210, 0x30, 63, 0⟩
/-! COR_PRED_COLLO. -/
def corPredCollo_colOff : RF := ⟨0x218, 0x30, 63, 0⟩
/-! COR_PRED_COLHI. -/
def corPredColhi_colOff : RF := ⟨0x220, 0x30, 63, 0⟩
/-! COR_TILE_CTL. -/
def corTileCtl_predPasses : RF := ⟨0x350, 0x8, 63, 32⟩
def corTileCtl_strict : RF := ⟨0x350, 0x8, 0, 0⟩
/-! COR_SLIP. -/
def corSlip_maxSlip : RF := ⟨0x360, 0x8, 63, 48⟩
def corSlip_lastSlip : RF := ⟨0x360, 0x8, 47, 32⟩
def corSlip_lastSlack : RF := ⟨0x360, 0x8, 31, 16⟩
def corSlip_lastFrame : RF := ⟨0x360, 0x8, 15, 0⟩
/-! COR_SLIP_SUM. -/
def corSlipSum_slipNs : RF := ⟨0x368, 0x8, 63, 32⟩
def corSlipSum_govHeld : RF := ⟨0x368, 0x8, 31, 0⟩
/-! COR_ROUTE_SEL. -/
def corRouteSel_entry : RF := ⟨0x370, 0x8, 7, 0⟩
/-! COR_ROUTE_LO. -/
def corRouteLo_stream : RF := ⟨0x378, 0x8, 63, 52⟩
def corRouteLo_epoch : RF := ⟨0x378, 0x8, 51, 36⟩
def corRouteLo_plain : RF := ⟨0x378, 0x8, 32, 22⟩
def corRouteLo_port : RF := ⟨0x378, 0x8, 21, 16⟩
def corRouteLo_target : RF := ⟨0x378, 0x8, 15, 4⟩
def corRouteLo_elastic : RF := ⟨0x378, 0x8, 2, 2⟩
def corRouteLo_kind : RF := ⟨0x378, 0x8, 1, 0⟩
/-! COR_ROUTE_HI. -/
def corRouteHi_dest : RF := ⟨0x380, 0x8, 24, 0⟩
/-! COR_PLAN_SEL. -/
def corPlanSel_index : RF := ⟨0x388, 0x8, 9, 0⟩
/-! COR_PLAN_DATA. -/
def corPlanData_run : RF := ⟨0x390, 0x8, 63, 0⟩
/-! COR_SHADOW. -/
def corShadow_deltas : RF := ⟨0x3a0, 0x8, 63, 32⟩
def corShadow_folded : RF := ⟨0x3a0, 0x8, 31, 0⟩
/-! COR_MEND_ENTRY. -/
def corMendEntry_valid : RF := ⟨0x3a8, 0x8, 63, 63⟩
def corMendEntry_entry : RF := ⟨0x3a8, 0x8, 19, 0⟩
/-! COVE_CFG. -/
def coveCfg_enable : RF := ⟨0x400, 0x20, 63, 63⟩
def coveCfg_lock : RF := ⟨0x400, 0x20, 62, 62⟩
def coveCfg_noteEn : RF := ⟨0x400, 0x20, 61, 61⟩
def coveCfg_shadow : RF := ⟨0x400, 0x20, 60, 60⟩
def coveCfg_retain : RF := ⟨0x400, 0x20, 59, 59⟩
def coveCfg_check : RF := ⟨0x400, 0x20, 58, 58⟩
def coveCfg_owner : RF := ⟨0x400, 0x20, 57, 48⟩
def coveCfg_autoRel : RF := ⟨0x400, 0x20, 47, 47⟩
def coveCfg_slots : RF := ⟨0x400, 0x20, 44, 32⟩
def coveCfg_size : RF := ⟨0x400, 0x20, 28, 25⟩
def coveCfg_base : RF := ⟨0x400, 0x20, 24, 0⟩
/-! COVE_AUX. -/
def coveAux_wm : RF := ⟨0x408, 0x20, 44, 32⟩
def coveAux_tagBase : RF := ⟨0x408, 0x20, 12, 0⟩
/-! COVE_PTR. -/
def covePtr_level : RF := ⟨0x410, 0x20, 44, 32⟩
def covePtr_head : RF := ⟨0x410, 0x20, 27, 16⟩
def covePtr_tail : RF := ⟨0x410, 0x20, 11, 0⟩
/-! COVE_CTL. -/
def coveCtl_relGo : RF := ⟨0x418, 0x20, 63, 63⟩
def coveCtl_relCount : RF := ⟨0x418, 0x20, 44, 32⟩
def coveCtl_relFirst : RF := ⟨0x418, 0x20, 27, 16⟩
def coveCtl_hold : RF := ⟨0x418, 0x20, 0, 0⟩
/-! COVE_STAT. -/
def coveStat_relRepeat : RF := ⟨0x800, 0x8, 63, 56⟩
def coveStat_relEarly : RF := ⟨0x800, 0x8, 55, 48⟩
def coveStat_peakClr : RF := ⟨0x800, 0x8, 34, 34⟩
def coveStat_down : RF := ⟨0x800, 0x8, 33, 33⟩
def coveStat_up : RF := ⟨0x800, 0x8, 32, 32⟩
def coveStat_crossCount : RF := ⟨0x800, 0x8, 31, 16⟩
def coveStat_peak : RF := ⟨0x800, 0x8, 12, 0⟩
/-! COVE_TAG_SEL. -/
def coveTagSel_index : RF := ⟨0x900, 0x8, 12, 0⟩
/-! COVE_TAG_DATA. -/
def coveTagData_claimant : RF := ⟨0x908, 0x8, 35, 20⟩
def coveTagData_retained : RF := ⟨0x908, 0x8, 19, 19⟩
def coveTagData_state : RF := ⟨0x908, 0x8, 17, 16⟩
def coveTagData_stamp : RF := ⟨0x908, 0x8, 15, 0⟩
/-! DBG_CORE_CTL. -/
def dbgCoreCtl_cause : RF := ⟨0xc00, 0x8, 11, 8⟩
def dbgCoreCtl_bpHit : RF := ⟨0xc00, 0x8, 5, 5⟩
def dbgCoreCtl_step : RF := ⟨0xc00, 0x8, 4, 4⟩
def dbgCoreCtl_bpcEn : RF := ⟨0xc00, 0x8, 3, 3⟩
def dbgCoreCtl_bptEn : RF := ⟨0xc00, 0x8, 2, 2⟩
def dbgCoreCtl_issueOff : RF := ⟨0xc00, 0x8, 1, 1⟩
def dbgCoreCtl_halted : RF := ⟨0xc00, 0x8, 0, 0⟩
/-! DBG_BP_COUNT. -/
def dbgBpCount_count : RF := ⟨0xc08, 0x8, 63, 0⟩
/-! DBG_BP_TAG. -/
def dbgBpTag_tag : RF := ⟨0xc10, 0x8, 23, 0⟩
/-! DBG_TRACE_SEL. -/
def dbgTraceSel_events : RF := ⟨0xc18, 0x8, 5, 0⟩
/-! DBG_FAULT_AUX. -/
def dbgFaultAux_imm16 : RF := ⟨0xc20, 0x8, 63, 48⟩
def dbgFaultAux_claimant : RF := ⟨0xc20, 0x8, 47, 32⟩
def dbgFaultAux_addrValid : RF := ⟨0xc20, 0x8, 31, 31⟩
def dbgFaultAux_addr : RF := ⟨0xc20, 0x8, 24, 0⟩
/-! DBG_FAULT_TIME. -/
def dbgFaultTime_time : RF := ⟨0xc28, 0x8, 63, 0⟩
/-! PRT_INLET. -/
def prtInlet_wDelay : RF := ⟨0xc40, 0x8, 63, 56⟩
def prtInlet_wJit : RF := ⟨0xc40, 0x8, 55, 48⟩
def prtInlet_wDuty : RF := ⟨0xc40, 0x8, 47, 40⟩
def prtInlet_aDelay : RF := ⟨0xc40, 0x8, 39, 32⟩
def prtInlet_aJit : RF := ⟨0xc40, 0x8, 31, 24⟩
def prtInlet_aDuty : RF := ⟨0xc40, 0x8, 23, 16⟩
/-! PRT_PASS. -/
def prtPass_delay : RF := ⟨0xc48, 0x8, 63, 56⟩
def prtPass_jit : RF := ⟨0xc48, 0x8, 55, 48⟩
def prtPass_duty : RF := ⟨0xc48, 0x8, 47, 40⟩
def prtPass_out : RF := ⟨0xc48, 0x8, 39, 34⟩
def prtPass_sched : RF := ⟨0xc48, 0x8, 33, 33⟩
def prtPass_elastic : RF := ⟨0xc48, 0x8, 32, 32⟩

end F

/-- Plain window rows, part 1. -/
def plainRows1 : List RegRow := [
  ⟨.plnId, 0x0, 0x8, 1, 0, [(F.plnId_class, .ro), (F.plnId_stepping, .ro), (F.plnId_geomCode, .ro)]⟩,
  ⟨.plnGeom0, 0x8, 0x8, 1, 0, [(F.plnGeom0_fmtMask, .ro), (F.plnGeom0_vecLanes, .ro), (F.plnGeom0_aspect, .ro), (F.plnGeom0_arrCols, .ro), (F.plnGeom0_arrRows, .ro)]⟩,
  ⟨.plnGeom1, 0x10, 0x8, 1, 0, [(F.plnGeom1_estMask, .ro), (F.plnGeom1_strandStages, .ro), (F.plnGeom1_inletDec, .ro), (F.plnGeom1_customOps, .ro), (F.plnGeom1_strandLe, .ro), (F.plnGeom1_strandMult, .ro), (F.plnGeom1_strandRamKib, .ro)]⟩,
  ⟨.plnGeom2, 0x18, 0x8, 1, 0, [(F.plnGeom2_shoalMaskLo, .ro)]⟩,
  ⟨.plnGeom3, 0x20, 0x8, 1, 0, [(F.plnGeom3_shoalsUsable, .ro), (F.plnGeom3_shoalMaskHi, .ro)]⟩,
  ⟨.plnGeom4, 0x28, 0x8, 1, 0, [(F.plnGeom4_basinLat, .ro), (F.plnGeom4_coves, .ro), (F.plnGeom4_chunkBytes, .ro), (F.plnGeom4_ledgeRows, .ro), (F.plnGeom4_banks, .ro), (F.plnGeom4_ledges, .ro)]⟩,
  ⟨.plnGeom5, 0x30, 0x8, 1, 0, [(F.plnGeom5_engMhz, .ro), (F.plnGeom5_strandMhz, .ro), (F.plnGeom5_straits, .ro), (F.plnGeom5_tierPorts, .ro), (F.plnGeom5_passBytes, .ro)]⟩,
  ⟨.plnGeom6, 0x38, 0x8, 1, 0, [(F.plnGeom6_ledgerEntries, .ro), (F.plnGeom6_harbourWindows, .ro), (F.plnGeom6_contexts, .ro), (F.plnGeom6_tenants, .ro)]⟩,
  ⟨.plnGeom7, 0x40, 0x8, 1, 0, [(F.plnGeom7_nearGib, .ro), (F.plnGeom7_farGib, .ro)]⟩,
  ⟨.plnAccessErr, 0x100, 0x8, 1, 0, [(F.plnAccessErr_count, .cnt), (F.plnAccessErr_cause, .ro), (F.plnAccessErr_master, .ro), (F.plnAccessErr_addr, .ro)]⟩,
  ⟨.plnCollide, 0x108, 0x8, 1, 0, [(F.plnCollide_count, .cnt), (F.plnCollide_fieldLsb, .ro), (F.plnCollide_loser, .ro), (F.plnCollide_winner, .ro), (F.plnCollide_addr, .ro)]⟩,
  ⟨.plnTherm, 0x200, 0x8, 10, 0, [(F.plnTherm_temp0, .ro), (F.plnTherm_temp1, .ro), (F.plnTherm_temp2, .ro), (F.plnTherm_temp3, .ro), (F.plnTherm_temp4, .ro), (F.plnTherm_temp5, .ro), (F.plnTherm_temp6, .ro), (F.plnTherm_temp7, .ro)]⟩]

/-- Plain window rows, part 2. -/
def plainRows2 : List RegRow := [
  ⟨.plnDtreeSel, 0x4000, 0x8, 1, 0, [(F.plnDtreeSel_word, .rw), (F.plnDtreeSel_tree, .rw)]⟩,
  ⟨.plnDtreeData, 0x4008, 0x8, 1, 0, [(F.plnDtreeData_data, .rw)]⟩,
  ⟨.plnMendStat, 0x5000, 0x8, 1, 0, [(F.plnMendStat_mends, .cnt), (F.plnMendStat_linkMends, .cnt), (F.plnMendStat_exhausted, .cnt), (F.plnMendStat_logLost, .cnt), (F.plnMendStat_spentShoals, .ro), (F.plnMendStat_deadShoals, .ro)]⟩,
  ⟨.plnMendLog, 0x5008, 0x8, 1, 0, [(F.plnMendLog_enable, .rw), (F.plnMendLog_sizeLog2, .rw), (F.plnMendLog_base, .rw)]⟩,
  ⟨.plnMendLogPtr, 0x5010, 0x8, 1, 0, [(F.plnMendLogPtr_write, .ro), (F.plnMendLogPtr_read, .rw)]⟩,
  ⟨.plnMirrorCfg, 0x5020, 0x8, 1, 0, [(F.plnMirrorCfg_dir, .rw), (F.plnMirrorCfg_base, .rw), (F.plnMirrorCfg_go, .sc)]⟩,
  ⟨.plnMirrorStat, 0x5028, 0x8, 1, 0, [(F.plnMirrorStat_segsDone, .cnt), (F.plnMirrorStat_errCode, .ro), (F.plnMirrorStat_err, .w1c), (F.plnMirrorStat_done, .w1c)]⟩,
  ⟨.plnPilotRst, 0x6000, 0x8, 1, 0, [(F.plnPilotRst_rstDown, .w1c), (F.plnPilotRst_rstCount, .cnt)]⟩,
  ⟨.plnLeadMsip, 0x6008, 0x8, 1, 0, [(F.plnLeadMsip_msip, .rw)]⟩,
  ⟨.plnNoticeLo, 0x6010, 0x8, 1, 0, [(F.plnNoticeLo_valid, .ro), (F.plnNoticeLo_pop, .sc), (F.plnNoticeLo_ovf, .w1c), (F.plnNoticeLo_kind, .ro), (F.plnNoticeLo_core, .ro), (F.plnNoticeLo_cove, .ro), (F.plnNoticeLo_time, .ro)]⟩,
  ⟨.plnNoticeHi, 0x6018, 0x8, 1, 0, [(F.plnNoticeHi_srcPos, .ro), (F.plnNoticeHi_cid, .ro), (F.plnNoticeHi_window, .ro)]⟩,
  ⟨.plnCtxLose, 0x6020, 0x8, 1, 0, [(F.plnCtxLose_ctx, .rw), (F.plnCtxLose_core, .rw)]⟩]

/-- Plain window rows, part 3. -/
def plainRows3 : List RegRow := [
  ⟨.plnEvtCfg, 0x6028, 0x8, 1, 0, [(F.plnEvtCfg_enable, .rw), (F.plnEvtCfg_sizeLog2, .rw), (F.plnEvtCfg_vector, .rw), (F.plnEvtCfg_base, .rw)]⟩,
  ⟨.plnEvtPtr, 0x6030, 0x8, 1, 0, [(F.plnEvtPtr_producer, .rw), (F.plnEvtPtr_consumer, .rw)]⟩,
  ⟨.plnEvtCookie, 0x6038, 0x8, 1, 0, [(F.plnEvtCookie_cookie, .rw)]⟩,
  ⟨.plnMsix, 0x6040, 0x8, 1, 0, [(F.plnMsix_vector, .rw)]⟩,
  ⟨.plnEvtStat, 0x6048, 0x8, 1, 0, [(F.plnEvtStat_written, .cnt), (F.plnEvtStat_lost, .cnt), (F.plnEvtStat_pending, .rw)]⟩,
  ⟨.plnDbSum, 0x6080, 0x8, 16, 0, [(F.plnDbSum_db, .w1c)]⟩,
  ⟨.imgCtl, 0x7000, 0x8, 1, 0, [(F.imgCtl_slotOvrEn, .rw), (F.imgCtl_slotOvr, .rw), (F.imgCtl_hold, .rw), (F.imgCtl_go, .sc)]⟩,
  ⟨.imgBoot, 0x7008, 0x8, 1, 0, [(F.imgBoot_compare, .rw), (F.imgBoot_slot, .rw)]⟩,
  ⟨.imgStat, 0x7010, 0x8, 1, 0, [(F.imgStat_attempts, .cnt), (F.imgStat_state, .ro), (F.imgStat_slot, .ro), (F.imgStat_loadMs, .ro)]⟩,
  ⟨.imgFail, 0x7018, 0x8, 1, 0, [(F.imgFail_cause1, .ro), (F.imgFail_word1, .ro), (F.imgFail_cause0, .ro), (F.imgFail_word0, .ro)]⟩,
  ⟨.imgPrCfg, 0x7020, 0x8, 1, 0, [(F.imgPrCfg_go, .sc), (F.imgPrCfg_src, .rw), (F.imgPrCfg_shoal, .rw)]⟩,
  ⟨.imgPrAddr, 0x7028, 0x8, 1, 0, [(F.imgPrAddr_addr, .rw)]⟩]

/-- Plain window rows, part 4. -/
def plainRows4 : List RegRow := [
  ⟨.imgPrStat, 0x7030, 0x8, 1, 0, [(F.imgPrStat_doneCount, .cnt), (F.imgPrStat_errCode, .ro), (F.imgPrStat_err, .w1c), (F.imgPrStat_busy, .ro)]⟩,
  ⟨.imgJrnlAddr, 0x7040, 0x8, 1, 0, [(F.imgJrnlAddr_addr, .rw)]⟩,
  ⟨.imgJrnlVal, 0x7048, 0x8, 1, 0, [(F.imgJrnlVal_value, .rw)]⟩,
  ⟨.imgJrnlCmd, 0x7050, 0x8, 1, 0, [(F.imgJrnlCmd_compact, .sc), (F.imgJrnlCmd_push, .sc)]⟩,
  ⟨.imgJrnlStat, 0x7058, 0x8, 1, 0, [(F.imgJrnlStat_torn, .cnt), (F.imgJrnlStat_skipped, .cnt), (F.imgJrnlStat_used, .ro), (F.imgJrnlStat_tight, .ro), (F.imgJrnlStat_full, .w1c), (F.imgJrnlStat_err, .w1c), (F.imgJrnlStat_area, .ro)]⟩,
  ⟨.imgMeasRail, 0x7080, 0x8, 1, 0, [(F.imgMeasRail_valid, .ro), (F.imgMeasRail_out, .ro), (F.imgMeasRail_strandLoad, .ro), (F.imgMeasRail_strandIdle, .ro), (F.imgMeasRail_ledgeLoad, .ro), (F.imgMeasRail_ledgeIdle, .ro), (F.imgMeasRail_logicLoad, .ro), (F.imgMeasRail_logicIdle, .ro)]⟩,
  ⟨.imgMeasTier, 0x7088, 0x8, 1, 0, [(F.imgMeasTier_valid, .ro), (F.imgMeasTier_stacks, .ro), (F.imgMeasTier_links, .ro), (F.imgMeasTier_cxl1Gib, .ro), (F.imgMeasTier_cxl0Gib, .ro)]⟩,
  ⟨.imgMeasSel, 0x7090, 0x8, 1, 0, [(F.imgMeasSel_port, .rw)]⟩,
  ⟨.imgMeasData, 0x7098, 0x8, 1, 0, [(F.imgMeasData_valid, .ro), (F.imgMeasData_lanes, .ro), (F.imgMeasData_margin, .ro), (F.imgMeasData_loss, .ro)]⟩,
  ⟨.imgTrimRail, 0x70a0, 0x8, 1, 0, [(F.imgTrimRail_strand, .rw), (F.imgTrimRail_ledge, .rw), (F.imgTrimRail_logic, .rw)]⟩,
  ⟨.imgTrimLedge, 0x70a8, 0x8, 1, 0, [(F.imgTrimLedge_margin, .rw)]⟩,
  ⟨.plnDieLo, 0x70c0, 0x8, 1, 0, [(F.plnDieLo_die, .ro)]⟩]

/-- Plain window rows, part 5. -/
def plainRows5 : List RegRow := [
  ⟨.plnDieHi, 0x70c8, 0x8, 1, 0, [(F.plnDieHi_die, .ro)]⟩,
  ⟨.tidNow, 0x10000, 0x8, 1, 0, [(F.tidNow_now, .ro)]⟩,
  ⟨.tidStat, 0x10008, 0x8, 1, 0, [(F.tidStat_errPs, .ro), (F.tidStat_depth, .ro), (F.tidStat_ahead, .ro), (F.tidStat_holdover, .ro), (F.tidStat_holdSeen, .w1c), (F.tidStat_slew, .ro), (F.tidStat_aligned, .ro), (F.tidStat_locked, .ro), (F.tidStat_root, .ro)]⟩,
  ⟨.tidCfg, 0x10010, 0x8, 1, 0, [(F.tidCfg_lock, .rwl), (F.tidCfg_root, .rwl), (F.tidCfg_parent, .rwl)]⟩,
  ⟨.tidLink, 0x10100, 0x8, 48, 0, [(F.tidLink_hopNs, .rw), (F.tidLink_fit, .ro), (F.tidLink_valid, .ro), (F.tidLink_rttPs, .ro), (F.tidLink_offsetPs, .ro)]⟩,
  ⟨.tidSched, 0x10400, 0x20, 80, 0, [(F.tidSched_arm, .rw), (F.tidSched_ftabBase, .rw), (F.tidSched_group, .rw), (F.tidSched_frameLog2, .rw), (F.tidSched_stepFrames, .rw)]⟩,
  ⟨.tidStart, 0x10408, 0x20, 80, 0, [(F.tidStart_start, .rw)]⟩,
  ⟨.tidStep, 0x10410, 0x20, 80, 0, [(F.tidStep_stepNo, .ro), (F.tidStep_breaches, .cnt), (F.tidStep_overplan, .cnt), (F.tidStep_repeat, .w1c), (F.tidStep_halted, .ro), (F.tidStep_replay, .ro), (F.tidStep_guardBreach, .ro)]⟩,
  ⟨.tidBreach, 0x10418, 0x20, 80, 0, [(F.tidBreach_core, .ro), (F.tidBreach_step, .ro)]⟩,
  ⟨.tidGovCfg, 0x11000, 0x8, 1, 0, [(F.tidGovCfg_budget, .rw), (F.tidGovCfg_floor, .rw)]⟩,
  ⟨.tidGovStat, 0x11008, 0x8, 1, 0, [(F.tidGovStat_throttledNs, .cnt), (F.tidGovStat_floorAct, .ro), (F.tidGovStat_throttle, .ro)]⟩,
  ⟨.tidFtabSel, 0x11020, 0x8, 1, 0, [(F.tidFtabSel_index, .rw)]⟩]

/-- Plain window rows, part 6. -/
def plainRows6 : List RegRow := [
  ⟨.tidFtabData, 0x11028, 0x8, 1, 0, [(F.tidFtabData_powerW, .rw), (F.tidFtabData_units, .rw)]⟩,
  ⟨.strCfg, 0x12000, 0x40, 48, 0, [(F.strCfg_enable, .rw), (F.strCfg_retrain, .sc), (F.strCfg_expClass, .rw), (F.strCfg_expGeom, .rw), (F.strCfg_expValid, .rw), (F.strCfg_expPos, .rw)]⟩,
  ⟨.strStat, 0x12008, 0x40, 48, 0, [(F.strStat_fecUe, .cnt), (F.strStat_downs, .cnt), (F.strStat_misroute, .cnt), (F.strStat_lastEvent, .ro), (F.strStat_newDie, .w1c), (F.strStat_schedOk, .ro), (F.strStat_elasticOk, .ro), (F.strStat_state, .ro)]⟩,
  ⟨.strPart, 0x12010, 0x40, 48, 0, [(F.strPart_class, .ro), (F.strPart_stepping, .ro), (F.strPart_geomCode, .ro), (F.strPart_port, .ro), (F.strPart_image, .ro), (F.strPart_pos, .ro)]⟩,
  ⟨.strPartDieLo, 0x12018, 0x40, 48, 0, [(F.strPartDieLo_die, .ro)]⟩,
  ⟨.strPartDieHi, 0x12020, 0x40, 48, 0, [(F.strPartDieHi_die, .ro)]⟩,
  ⟨.strExpDieLo, 0x12028, 0x40, 48, 0, [(F.strExpDieLo_die, .rw)]⟩,
  ⟨.strExpDieHi, 0x12030, 0x40, 48, 0, [(F.strExpDieHi_die, .rw)]⟩,
  ⟨.strHall, 0x12c00, 0x8, 1, 0, [(F.strHall_lock, .rwl), (F.strHall_pos, .rwl)]⟩,
  ⟨.strPlanSel, 0x12c08, 0x8, 1, 0, [(F.strPlanSel_port, .rw), (F.strPlanSel_index, .rw)]⟩,
  ⟨.strPlanData, 0x12c10, 0x8, 1, 0, [(F.strPlanData_run, .rw)]⟩,
  ⟨.strTwin, 0x12d00, 0x8, 48, 0, [(F.strTwin_valid, .rw), (F.strTwin_twin, .rw)]⟩]

/-- Plain window rows, part 7. -/
def plainRows7 : List RegRow := [
  ⟨.tirShare, 0x13000, 0x10, 80, 0, [(F.tirShare_quantum, .rw)]⟩,
  ⟨.tirBayStat, 0x13008, 0x10, 80, 0, [(F.tirBayStat_kib, .cnt), (F.tirBayStat_waitNs, .cnt)]⟩,
  ⟨.hbrDriftCfg, 0x14000, 0x8, 1, 0, [(F.hbrDriftCfg_enable, .rw), (F.hbrDriftCfg_sizeLog2, .rw), (F.hbrDriftCfg_base, .rw)]⟩,
  ⟨.hbrDriftPtr, 0x14008, 0x8, 1, 0, [(F.hbrDriftPtr_write, .ro), (F.hbrDriftPtr_read, .rw)]⟩,
  ⟨.hbrStat, 0x14010, 0x8, 1, 0, [(F.hbrStat_stale, .cnt), (F.hbrStat_dropped, .cnt), (F.hbrStat_denied, .cnt)]⟩,
  ⟨.hbrRedrive, 0x14018, 0x8, 1, 0, [(F.hbrRedrive_go, .sc), (F.hbrRedrive_err, .w1c), (F.hbrRedrive_window, .rw), (F.hbrRedrive_record, .rw)]⟩,
  ⟨.bayRole, 0x15000, 0x8, 80, 0, [(F.bayRole_role, .rw), (F.bayRole_epoch, .rw)]⟩,
  ⟨.bayDrain, 0x15400, 0x8, 80, 0, [(F.bayDrain_done, .w1c), (F.bayDrain_go, .sc)]⟩,
  ⟨.ledCfg, 0x16000, 0x8, 1, 0, [(F.ledCfg_pageBase, .rw), (F.ledCfg_pageLog2, .rw), (F.ledCfg_refillLog2, .rw)]⟩,
  ⟨.ledWalkCfg, 0x16100, 0x8, 1, 0, [(F.ledWalkCfg_verify, .rw), (F.ledWalkCfg_bucketLog2, .rw), (F.ledWalkCfg_bucketBase, .rw), (F.ledWalkCfg_nodeBase, .rw)]⟩,
  ⟨.ledWalkCmd, 0x16108, 0x8, 1, 0, [(F.ledWalkCmd_go, .sc), (F.ledWalkCmd_blocks, .rw), (F.ledWalkCmd_scope, .rw), (F.ledWalkCmd_tokens, .rw)]⟩,
  ⟨.ledWalkRes, 0x16110, 0x8, 1, 0, [(F.ledWalkRes_done, .w1c), (F.ledWalkRes_err, .w1c), (F.ledWalkRes_matched, .ro), (F.ledWalkRes_node, .ro)]⟩]

/-- Plain window rows, part 8. -/
def plainRows8 : List RegRow := [
  ⟨.casCmd, 0x17000, 0x20, 83, 0, [(F.casCmd_new, .rw), (F.casCmd_expect, .rw), (F.casCmd_index, .rw)]⟩,
  ⟨.casRes, 0x17008, 0x20, 83, 0, [(F.casRes_found, .ro), (F.casRes_result, .ro)]⟩,
  ⟨.charge, 0x17010, 0x20, 83, 0, [(F.charge_tenant, .rw), (F.charge_amount, .rw)]⟩,
  ⟨.bayCarve0, 0x18000, 0x40, 80, 0, [(F.bayCarve0_basinLimit, .wo1), (F.bayCarve0_basinBase, .wo1)]⟩,
  ⟨.bayCarve1, 0x18008, 0x40, 80, 1, [(F.bayCarve1_nearLimit, .wo1), (F.bayCarve1_nearBase, .wo1)]⟩,
  ⟨.bayCarve2, 0x18010, 0x40, 80, 2, [(F.bayCarve2_farLimit, .wo1), (F.bayCarve2_farBase, .wo1)]⟩,
  ⟨.bayShoalsLo, 0x18018, 0x40, 80, 0, [(F.bayShoalsLo_shoalsLo, .wo1)]⟩,
  ⟨.bayShoalsHi, 0x18020, 0x40, 80, 0, [(F.bayShoalsHi_shoalsHi, .wo1)]⟩,
  ⟨.bayCtl, 0x18028, 0x40, 80, 0, [(F.bayCtl_state, .ro), (F.bayCtl_createGo, .sc), (F.bayCtl_retireGo, .sc), (F.bayCtl_washGo, .sc), (F.bayCtl_bayEpoch, .ro), (F.bayCtl_tenant, .rw)]⟩,
  ⟨.bayStat, 0x18030, 0x40, 80, 0, [(F.bayStat_washes, .cnt), (F.bayStat_contexts, .ro)]⟩,
  ⟨.hbrWinCfg, 0x20000, 0x20, 4096, 0, [(F.hbrWinCfg_sendPos, .rw), (F.hbrWinCfg_sendCore, .rw), (F.hbrWinCfg_cove, .rw), (F.hbrWinCfg_count, .rw), (F.hbrWinCfg_first, .rw), (F.hbrWinCfg_core, .rw)]⟩,
  ⟨.hbrWinCtl, 0x20008, 0x20, 4096, 0, [(F.hbrWinCtl_perm, .rw), (F.hbrWinCtl_open, .ro), (F.hbrWinCtl_closeGo, .sc), (F.hbrWinCtl_openGo, .sc)]⟩]

/-- Plain window rows, part 9. -/
def plainRows9 : List RegRow := [
  ⟨.hbrWinStat, 0x20010, 0x20, 4096, 0, [(F.hbrWinStat_landed, .cnt), (F.hbrWinStat_granted, .ro), (F.hbrWinStat_grantPtr, .ro)]⟩,
  ⟨.ctxCfg, 0x40000, 0x80, 1024, 0, [(F.ctxCfg_state, .ro), (F.ctxCfg_openGo, .sc), (F.ctxCfg_closeGo, .sc), (F.ctxCfg_freeGo, .sc), (F.ctxCfg_evtEn, .rw), (F.ctxCfg_vector, .rw), (F.ctxCfg_tenant, .ro), (F.ctxCfg_bay, .rw)]⟩,
  ⟨.ctxFault, 0x40008, 0x80, 1024, 0, [(F.ctxFault_tag, .ro), (F.ctxFault_core, .ro), (F.ctxFault_class, .ro)]⟩,
  ⟨.ctxRef, 0x40010, 0x80, 1024, 0, [(F.ctxRef_host, .ro), (F.ctxRef_dev, .ro), (F.ctxRef_dec, .sc), (F.ctxRef_inc, .sc)]⟩,
  ⟨.ctxCookie, 0x40018, 0x80, 1024, 0, [(F.ctxCookie_cookie, .rw)]⟩,
  ⟨.ctxProg, 0x40020, 0x80, 1024, 0, [(F.ctxProg_base, .rw)]⟩,
  ⟨.ctxCq, 0x40028, 0x80, 1024, 0, [(F.ctxCq_enable, .rw), (F.ctxCq_sizeLog2, .rw), (F.ctxCq_base, .rw)]⟩,
  ⟨.ctxCqp, 0x40030, 0x80, 1024, 0, [(F.ctxCqp_producer, .rw), (F.ctxCqp_consumer, .rw)]⟩,
  ⟨.ctxSq, 0x40040, 0x80, 1024, 0, [(F.ctxSq_enable, .rw), (F.ctxSq_sizeLog2, .rw), (F.ctxSq_base, .rw)]⟩,
  ⟨.ctxSqp, 0x40048, 0x80, 1024, 0, [(F.ctxSqp_producer, .rw), (F.ctxSqp_consumer, .rw)]⟩,
  ⟨.ctxSq, 0x40050, 0x80, 1024, 1, [(F.ctxSq_enable.sh 16, .rw), (F.ctxSq_sizeLog2.sh 16, .rw), (F.ctxSq_base.sh 16, .rw)]⟩,
  ⟨.ctxSqp, 0x40058, 0x80, 1024, 1, [(F.ctxSqp_producer.sh 16, .rw), (F.ctxSqp_consumer.sh 16, .rw)]⟩]

/-- Plain window rows, part 10. -/
def plainRows10 : List RegRow := [
  ⟨.ctxSq, 0x40060, 0x80, 1024, 2, [(F.ctxSq_enable.sh 32, .rw), (F.ctxSq_sizeLog2.sh 32, .rw), (F.ctxSq_base.sh 32, .rw)]⟩,
  ⟨.ctxSqp, 0x40068, 0x80, 1024, 2, [(F.ctxSqp_producer.sh 32, .rw), (F.ctxSqp_consumer.sh 32, .rw)]⟩,
  ⟨.ctxSq, 0x40070, 0x80, 1024, 3, [(F.ctxSq_enable.sh 48, .rw), (F.ctxSq_sizeLog2.sh 48, .rw), (F.ctxSq_base.sh 48, .rw)]⟩,
  ⟨.ctxSqp, 0x40078, 0x80, 1024, 3, [(F.ctxSqp_producer.sh 48, .rw), (F.ctxSqp_consumer.sh 48, .rw)]⟩,
  ⟨.tenWord0, 0x60000, 0x20, 1024, 0, [(F.tenWord0_balance, .cnt), (F.tenWord0_burst, .rw)]⟩,
  ⟨.tenWord1, 0x60008, 0x20, 1024, 0, [(F.tenWord1_rate, .rw), (F.tenWord1_pfWeight, .rw), (F.tenWord1_holdMs, .rw), (F.tenWord1_enable, .rw)]⟩,
  ⟨.tenWord2, 0x60010, 0x20, 1024, 0, [(F.tenWord2_held, .cnt), (F.tenWord2_admitted, .cnt)]⟩,
  ⟨.tenWord3, 0x60018, 0x20, 1024, 0, [(F.tenWord3_charged, .cnt)]⟩,
  ⟨.ledWord0, 0x80000, 0x20, 8192, 0, [(F.ledWord0_ctxLen, .rw), (F.ledWord0_tenant, .rw), (F.ledWord0_context, .rw), (F.ledWord0_bay, .rw), (F.ledWord0_prio, .rw), (F.ledWord0_state, .ro)]⟩,
  ⟨.ledWord1, 0x80008, 0x20, 8192, 0, [(F.ledWord1_deadline, .rw)]⟩,
  ⟨.ledWord2, 0x80010, 0x20, 8192, 0, [(F.ledWord2_pages, .rw), (F.ledWord2_head, .rw)]⟩,
  ⟨.ledWord3, 0x80018, 0x20, 8192, 0, [(F.ledWord3_prefixHit, .rw), (F.ledWord3_generated, .rw), (F.ledWord3_queue, .rw)]⟩]

/-- Plain window rows, part 11. -/
def plainRows11 : List RegRow := [
  ⟨.dbgTraceCfg, 0xc0000, 0x8, 1, 0, [(F.dbgTraceCfg_enable, .rw), (F.dbgTraceCfg_sizeLog2, .rw), (F.dbgTraceCfg_base, .rw)]⟩,
  ⟨.dbgTracePtr, 0xc0008, 0x8, 1, 0, [(F.dbgTracePtr_write, .ro), (F.dbgTracePtr_read, .rw)]⟩,
  ⟨.dbgTraceStat, 0xc0010, 0x8, 1, 0, [(F.dbgTraceStat_written, .cnt), (F.dbgTraceStat_lost, .cnt)]⟩,
  ⟨.prtCtl, 0xc1000, 0x8, 1, 0, [(F.prtCtl_enable, .rw), (F.prtCtl_spareReplay, .rw), (F.prtCtl_seed, .rw)]⟩,
  ⟨.prtStat, 0xc1008, 0x8, 1, 0, [(F.prtStat_events, .cnt), (F.prtStat_heldNs, .cnt)]⟩,
  ⟨.prtTier, 0xc1100, 0x8, 16, 0, [(F.prtTier_delay, .rw), (F.prtTier_jit, .rw), (F.prtTier_duty, .rw)]⟩,
  ⟨.prtStrait, 0xc1200, 0x8, 48, 0, [(F.prtStrait_delay, .rw), (F.prtStrait_jit, .rw), (F.prtStrait_duty, .rw), (F.prtStrait_sched, .rw), (F.prtStrait_elastic, .rw)]⟩]

/-- Every register of the plain window. -/
def plainRows : List RegRow := plainRows1 ++ plainRows2 ++ plainRows3 ++ plainRows4 ++ plainRows5 ++ plainRows6 ++ plainRows7 ++ plainRows8 ++ plainRows9 ++ plainRows10 ++ plainRows11

/-- Shoal window rows, part 1. -/
def shoalRows1 : List RegRow := [
  ⟨.shlId, 0x0, 0x8, 1, 0, [(F.shlId_bay, .ro), (F.shlId_usable, .ro), (F.shlId_shoal, .ro)]⟩,
  ⟨.shlTileStat, 0x200, 0x8, 1, 0, [(F.shlTileStat_placed, .rw), (F.shlTileStat_rejected, .rw), (F.shlTileStat_last, .rw)]⟩,
  ⟨.shlGov, 0x210, 0x8, 1, 0, [(F.shlGov_heldNs, .cnt), (F.shlGov_turns, .cnt)]⟩,
  ⟨.shlMendStat, 0x220, 0x8, 1, 0, [(F.shlMendStat_sweepRepairs, .cnt), (F.shlMendStat_readRepairs, .cnt), (F.shlMendStat_repairFails, .cnt), (F.shlMendStat_lastPos, .ro), (F.shlMendStat_source, .ro), (F.shlMendStat_phase, .ro), (F.shlMendStat_svcFail, .w1c), (F.shlMendStat_dead, .ro), (F.shlMendStat_spent, .ro), (F.shlMendStat_exhausted, .w1c), (F.shlMendStat_active, .ro)]⟩,
  ⟨.shlMendCfg, 0x228, 0x8, 1, 0, [(F.shlMendCfg_restoreNs, .rw), (F.shlMendCfg_pilotUs, .rw), (F.shlMendCfg_serviceGo, .sc)]⟩,
  ⟨.shlMendRec, 0x230, 0x8, 1, 0, [(F.shlMendRec_step, .ro), (F.shlMendRec_class, .ro), (F.shlMendRec_tag, .ro)]⟩,
  ⟨.shlPhysLo, 0x238, 0x8, 1, 0, [(F.shlPhysLo_pos011, .ro)]⟩,
  ⟨.shlPhysHi, 0x240, 0x8, 1, 0, [(F.shlPhysHi_spare, .ro), (F.shlPhysHi_pos1215, .ro)]⟩,
  ⟨.shlPilotRst, 0x248, 0x8, 1, 0, [(F.shlPilotRst_rstDown, .w1c), (F.shlPilotRst_rstCount, .cnt)]⟩,
  ⟨.shlMsip, 0x250, 0x8, 1, 0, [(F.shlMsip_msip, .rw)]⟩,
  ⟨.shlNotice, 0x258, 0x8, 1, 0, [(F.shlNotice_valid, .ro), (F.shlNotice_pop, .sc), (F.shlNotice_ovf, .w1c), (F.shlNotice_kind, .ro), (F.shlNotice_core, .ro), (F.shlNotice_cove, .ro), (F.shlNotice_time, .ro)]⟩]

/-- Every register of the shoal window. -/
def shoalRows : List RegRow := shoalRows1

/-- Core window rows, part 1. -/
def coreRows1 : List RegRow := [
  ⟨.corId, 0x0, 0x8, 1, 0, [(F.corId_logical, .ro), (F.corId_shoal, .ro), (F.corId_pos, .ro), (F.corId_phys, .ro)]⟩,
  ⟨.corCtl, 0x8, 0x8, 1, 0, [(F.corCtl_entry, .rw), (F.corCtl_ctx, .rw), (F.corCtl_faulted, .ro), (F.corCtl_stopped, .ro), (F.corCtl_halt, .rw), (F.corCtl_start, .sc)]⟩,
  ⟨.corFault, 0x10, 0x8, 1, 0, [(F.corFault_tag, .ro), (F.corFault_wordOff, .ro), (F.corFault_unit, .ro), (F.corFault_ctx, .ro), (F.corFault_class, .ro)]⟩,
  ⟨.corCountNow, 0x18, 0x8, 1, 0, [(F.corCountNow_count, .cnt)]⟩,
  ⟨.corTagNow, 0x20, 0x8, 1, 0, [(F.corTagNow_tag, .ro)]⟩,
  ⟨.corArrStat, 0x80, 0x8, 1, 0, [(F.corArrStat_rowStalls, .cnt), (F.corArrStat_colStalls, .cnt), (F.corArrStat_intWrap, .w1c), (F.corArrStat_nanSeen, .w1c), (F.corArrStat_busy, .ro)]⟩,
  ⟨.corResidue, 0x88, 0x8, 1, 0, [(F.corResidue_retries, .cnt), (F.corResidue_lastCol, .ro), (F.corResidue_lastTag, .ro), (F.corResidue_declared, .ro)]⟩,
  ⟨.corArrTiles, 0x90, 0x8, 1, 0, [(F.corArrTiles_tiles, .cnt)]⟩,
  ⟨.corVecStat, 0xa0, 0x8, 1, 0, [(F.corVecStat_groups, .cnt), (F.corVecStat_intWrap, .w1c), (F.corVecStat_nanSeen, .w1c), (F.corVecStat_busy, .ro)]⟩,
  ⟨.corEstStat, 0xa8, 0x8, 1, 0, [(F.corEstStat_drains, .cnt), (F.corEstStat_waits, .cnt), (F.corEstStat_sat, .w1c), (F.corEstStat_nanSeen, .w1c), (F.corEstStat_set1Busy, .ro), (F.corEstStat_set0Busy, .ro), (F.corEstStat_busy, .ro)]⟩,
  ⟨.corEstSeed, 0xb0, 0x8, 1, 0, [(F.corEstSeed_seed, .rw)]⟩,
  ⟨.corStrandCaps, 0xb8, 0x8, 1, 0, [(F.corStrandCaps_opLat, .ro), (F.corStrandCaps_stgLat, .ro), (F.corStrandCaps_adecLat, .ro), (F.corStrandCaps_wdecLat, .ro), (F.corStrandCaps_adecIn, .ro), (F.corStrandCaps_wdecIn, .ro), (F.corStrandCaps_wdecFmt, .ro), (F.corStrandCaps_adecFmt, .ro)]⟩]

/-- Core window rows, part 2. -/
def coreRows2 : List RegRow := [
  ⟨.corStrandStat, 0xc0, 0x8, 1, 0, [(F.corStrandStat_protoCount, .cnt), (F.corStrandStat_lastExt, .ro), (F.corStrandStat_proto, .w1c)]⟩,
  ⟨.corStrandSel, 0xc8, 0x8, 1, 0, [(F.corStrandSel_word, .rw)]⟩,
  ⟨.corStrandData, 0xd0, 0x8, 1, 0, [(F.corStrandData_data, .rw)]⟩,
  ⟨.corDescSel, 0xd8, 0x8, 1, 0, [(F.corDescSel_entry, .rw)]⟩,
  ⟨.corDescLo, 0xe0, 0x8, 1, 0, [(F.corDescLo_data, .rw)]⟩,
  ⟨.corDescHi, 0xe8, 0x8, 1, 0, [(F.corDescHi_data, .rw)]⟩,
  ⟨.corDeadline, 0xf0, 0x8, 1, 0, [(F.corDeadline_deadline, .ro)]⟩,
  ⟨.corSclStat, 0xf8, 0x8, 1, 0, [(F.corSclStat_taken, .cnt), (F.corSclStat_fetch, .ro), (F.corSclStat_nanSeen, .w1c), (F.corSclStat_dlRun, .ro), (F.corSclStat_waiting, .ro)]⟩,
  ⟨.ldgLease, 0x100, 0x8, 8, 0, [(F.ldgLease_guest, .rw), (F.ldgLease_hold, .rw)]⟩,
  ⟨.ldgLeaseAct, 0x140, 0x8, 1, 0, [(F.ldgLeaseAct_set, .rw)]⟩,
  ⟨.ldgBreach, 0x148, 0x8, 1, 0, [(F.ldgBreach_lastHolder, .ro), (F.ldgBreach_lastClass, .ro), (F.ldgBreach_lastLedge, .ro), (F.ldgBreach_count, .cnt)]⟩,
  ⟨.ldgHazard, 0x150, 0x8, 1, 0, [(F.ldgHazard_lastAddr, .ro), (F.ldgHazard_count, .cnt)]⟩]

/-- Core window rows, part 3. -/
def coreRows3 : List RegRow := [
  ⟨.ldgEcc, 0x158, 0x8, 1, 0, [(F.ldgEcc_lastUe, .ro), (F.ldgEcc_lastAddr, .ro), (F.ldgEcc_ueCount, .cnt), (F.ldgEcc_ceCount, .cnt)]⟩,
  ⟨.ldgEngCmdLo, 0x160, 0x8, 1, 0, [(F.ldgEngCmdLo_word0, .rw)]⟩,
  ⟨.ldgEngCmdHi, 0x168, 0x8, 1, 0, [(F.ldgEngCmdHi_word1, .rw)]⟩,
  ⟨.ldgEngPush, 0x170, 0x8, 1, 0, [(F.ldgEngPush_push, .sc)]⟩,
  ⟨.ldgEngStat, 0x178, 0x8, 1, 0, [(F.ldgEngStat_doneCount, .cnt), (F.ldgEngStat_errOp, .ro), (F.ldgEngStat_timeout, .w1c), (F.ldgEngStat_err, .w1c), (F.ldgEngStat_winOpen, .ro), (F.ldgEngStat_busy, .ro)]⟩,
  ⟨.ldgEngLevel, 0x180, 0x8, 1, 0, [(F.ldgEngLevel_queueLevel, .ro)]⟩,
  ⟨.ldgSweep, 0x188, 0x8, 1, 0, [(F.ldgSweep_steals, .cnt), (F.ldgSweep_passes, .cnt), (F.ldgSweep_enable, .rw), (F.ldgSweep_interval, .rw)]⟩,
  ⟨.ldgWash, 0x190, 0x8, 1, 0, [(F.ldgWash_washCount, .cnt), (F.ldgWash_done, .w1c), (F.ldgWash_go, .sc)]⟩,
  ⟨.corPredEdge, 0x200, 0x30, 7, 0, [(F.corPredEdge_padFill, .rw), (F.corPredEdge_outEdge, .rw), (F.corPredEdge_redEdge, .rw)]⟩,
  ⟨.corPredRowlo, 0x208, 0x30, 7, 0, [(F.corPredRowlo_rowOff, .rw)]⟩,
  ⟨.corPredRowhi, 0x210, 0x30, 7, 0, [(F.corPredRowhi_rowOff, .rw)]⟩,
  ⟨.corPredCollo, 0x218, 0x30, 7, 0, [(F.corPredCollo_colOff, .rw)]⟩]

/-- Core window rows, part 4. -/
def coreRows4 : List RegRow := [
  ⟨.corPredColhi, 0x220, 0x30, 7, 0, [(F.corPredColhi_colOff, .rw)]⟩,
  ⟨.corTileCtl, 0x350, 0x8, 1, 0, [(F.corTileCtl_predPasses, .cnt), (F.corTileCtl_strict, .rw)]⟩,
  ⟨.corSlip, 0x360, 0x8, 1, 0, [(F.corSlip_maxSlip, .ro), (F.corSlip_lastSlip, .ro), (F.corSlip_lastSlack, .ro), (F.corSlip_lastFrame, .ro)]⟩,
  ⟨.corSlipSum, 0x368, 0x8, 1, 0, [(F.corSlipSum_slipNs, .cnt), (F.corSlipSum_govHeld, .cnt)]⟩,
  ⟨.corRouteSel, 0x370, 0x8, 1, 0, [(F.corRouteSel_entry, .rw)]⟩,
  ⟨.corRouteLo, 0x378, 0x8, 1, 0, [(F.corRouteLo_stream, .rw), (F.corRouteLo_epoch, .rw), (F.corRouteLo_plain, .rw), (F.corRouteLo_port, .rw), (F.corRouteLo_target, .rw), (F.corRouteLo_elastic, .rw), (F.corRouteLo_kind, .rw)]⟩,
  ⟨.corRouteHi, 0x380, 0x8, 1, 0, [(F.corRouteHi_dest, .rw)]⟩,
  ⟨.corPlanSel, 0x388, 0x8, 1, 0, [(F.corPlanSel_index, .rw)]⟩,
  ⟨.corPlanData, 0x390, 0x8, 1, 0, [(F.corPlanData_run, .rw)]⟩,
  ⟨.corShadow, 0x3a0, 0x8, 1, 0, [(F.corShadow_deltas, .cnt), (F.corShadow_folded, .ro)]⟩,
  ⟨.corMendEntry, 0x3a8, 0x8, 1, 0, [(F.corMendEntry_valid, .rw), (F.corMendEntry_entry, .rw)]⟩,
  ⟨.coveCfg, 0x400, 0x20, 32, 0, [(F.coveCfg_enable, .rwl), (F.coveCfg_lock, .rwl), (F.coveCfg_noteEn, .rwl), (F.coveCfg_shadow, .rwl), (F.coveCfg_retain, .rwl), (F.coveCfg_check, .rwl), (F.coveCfg_owner, .rwl), (F.coveCfg_autoRel, .rwl), (F.coveCfg_slots, .rwl), (F.coveCfg_size, .rwl), (F.coveCfg_base, .rwl)]⟩]

/-- Core window rows, part 5. -/
def coreRows5 : List RegRow := [
  ⟨.coveAux, 0x408, 0x20, 32, 0, [(F.coveAux_wm, .rw), (F.coveAux_tagBase, .rwl)]⟩,
  ⟨.covePtr, 0x410, 0x20, 32, 0, [(F.covePtr_level, .ro), (F.covePtr_head, .ptr), (F.covePtr_tail, .ptr)]⟩,
  ⟨.coveCtl, 0x418, 0x20, 32, 0, [(F.coveCtl_relGo, .sc), (F.coveCtl_relCount, .rw), (F.coveCtl_relFirst, .rw), (F.coveCtl_hold, .rw)]⟩,
  ⟨.coveStat, 0x800, 0x8, 32, 0, [(F.coveStat_relRepeat, .cnt), (F.coveStat_relEarly, .cnt), (F.coveStat_peakClr, .sc), (F.coveStat_down, .w1c), (F.coveStat_up, .w1c), (F.coveStat_crossCount, .cnt), (F.coveStat_peak, .ro)]⟩,
  ⟨.coveTagSel, 0x900, 0x8, 1, 0, [(F.coveTagSel_index, .rw)]⟩,
  ⟨.coveTagData, 0x908, 0x8, 1, 0, [(F.coveTagData_claimant, .ro), (F.coveTagData_retained, .ptr), (F.coveTagData_state, .ptr), (F.coveTagData_stamp, .ptr)]⟩,
  ⟨.dbgCoreCtl, 0xc00, 0x8, 1, 0, [(F.dbgCoreCtl_cause, .ro), (F.dbgCoreCtl_bpHit, .w1c), (F.dbgCoreCtl_step, .sc), (F.dbgCoreCtl_bpcEn, .rw), (F.dbgCoreCtl_bptEn, .rw), (F.dbgCoreCtl_issueOff, .ro), (F.dbgCoreCtl_halted, .ro)]⟩,
  ⟨.dbgBpCount, 0xc08, 0x8, 1, 0, [(F.dbgBpCount_count, .rw)]⟩,
  ⟨.dbgBpTag, 0xc10, 0x8, 1, 0, [(F.dbgBpTag_tag, .rw)]⟩,
  ⟨.dbgTraceSel, 0xc18, 0x8, 1, 0, [(F.dbgTraceSel_events, .rw)]⟩,
  ⟨.dbgFaultAux, 0xc20, 0x8, 1, 0, [(F.dbgFaultAux_imm16, .ro), (F.dbgFaultAux_claimant, .ro), (F.dbgFaultAux_addrValid, .ro), (F.dbgFaultAux_addr, .ro)]⟩,
  ⟨.dbgFaultTime, 0xc28, 0x8, 1, 0, [(F.dbgFaultTime_time, .ro)]⟩]

/-- Core window rows, part 6. -/
def coreRows6 : List RegRow := [
  ⟨.prtInlet, 0xc40, 0x8, 1, 0, [(F.prtInlet_wDelay, .rw), (F.prtInlet_wJit, .rw), (F.prtInlet_wDuty, .rw), (F.prtInlet_aDelay, .rw), (F.prtInlet_aJit, .rw), (F.prtInlet_aDuty, .rw)]⟩,
  ⟨.prtPass, 0xc48, 0x8, 1, 0, [(F.prtPass_delay, .rw), (F.prtPass_jit, .rw), (F.prtPass_duty, .rw), (F.prtPass_out, .rw), (F.prtPass_sched, .rw), (F.prtPass_elastic, .rw)]⟩]

/-- Every register of the core window. -/
def coreRows : List RegRow := coreRows1 ++ coreRows2 ++ coreRows3 ++ coreRows4 ++ coreRows5 ++ coreRows6

/-- The register at an offset, with its number (R407): none for a hole. -/
def findRow (rows : List RegRow) (off : Nat) : Option (RegRow × Nat) :=
  match rows with
  | [] => none
  | r :: rest =>
    if r.base ≤ off ∧ (off - r.base) % r.stride = 0 ∧ (off - r.base) / r.stride < r.count then
      some (r, (off - r.base) / r.stride)
    else findRow rest off

/-- Reset values of the core window that are not 0 (Table 15-7). -/
def coreReset (off : Nat) : Reg64 :=
  if off = 0x8 then 0x4#64 else if off = 0xb0 then 0x1#64 else if off = 0x188 then 0x10400#64 else 0#64

/-- Reset values of the plain and shoal windows that are not 0 (Tables 15-5 and 15-6). TID_GOV_CFG is set at image load. -/
def plainReset (a : Nat) : Reg64 :=
  if a = 0x0 then BitVec.ofNat 64 (Config.fusedClass * 2 ^ 48 + Config.fusedStepping * 2 ^ 44)
  else if a = 0x70a8 then 0x888888888888#64
  else if a = 0x70c0 then Config.fusedDieLo
  else if a = 0x70c8 then Config.fusedDieHi
  else if 0x10100 ≤ a ∧ a < 0x10280 then 0x780000000000#64
  else if 0x13000 ≤ a ∧ a < 0x13500 ∧ a % 16 = 0 then 1#64
  else if a = 0x16000 then 0x14#64
  else if 0x40000 ≤ a ∧ a < 0x60000 ∧ a % 128 = 0 then 0x7f#64
  else if a = 0xc1000 then 1#64
  else if 0x1000000 ≤ a ∧ a < 0x1500000 then
    (if a % 0x10000 = 0x228 then 0x1f4000320000#64
     else if a % 0x10000 = 0x238 then 0x5a928398a418820#64
     else if a % 0x10000 = 0x240 then 0x107b9ac#64 else 0#64)
  else 0#64

end Sys2Proof.Machine
end

