-- ==== Sys2Proof/Machine/CoreState.lean ====
section
/-! DEFINITION. The state of one physical core: its registers, memories, tags, queues and engines. Memories and register
files are canonical maps (Machine/Bits.lean, `Sparse`), so that equal contents are equal data. -/

namespace Sys2Proof.Machine

/-- A slot tag (Table 3-1, R77): STATE 0 EBB, 1 SLACK, 2 FLOOD. `claimant` is the full identity of the producer that
turned the slot SLACK; Table 16-5 gives the 16 bits of it that registers show. -/
structure Tag where
  state : Nat
  stamp : BitVec 16
  retained : Bool
  claimant : Option Producer
  deriving DecidableEq, Repr

/-- The tag of a slot at reset and after a wash: EBB with stamp 0 (R68, R75). -/
def Tag.ebb : Tag := ⟨0, 0, false, none⟩

/-- A word of an accumulator entry: 32 bits read as binary32, or as an integer when `int` is set (R125). -/
structure AccWord where
  bits : BitVec 32
  int : Bool
  deriving DecidableEq, Repr

/-- The accumulator word of reset and wash: +0 in binary32 (R68). -/
def AccWord.zero : AccWord := ⟨0, false⟩

/-- One register set of the array: for the cell of row i and column j, under key i * columns + j, its weight bits and the
position index held with them (R118); for the cells of row segment r and column j the block scale they hold, under key
r * columns + j (R121). `scaled` and `indexed` say of a load that it carries scales and indices. -/
structure WSet where
  bits : List (Nat × Nat)
  scales : List (Nat × Nat)
  idx : List (Nat × Nat)
  scaled : Bool
  indexed : Bool
  deriving DecidableEq, Repr

/-- One bank of the activation latch (R122): the bytes of up to two vector slices one after the other, their scales, and
the chunks they were read from (R133). -/
structure Latch where
  bytes : List Byte
  scales : List Byte
  pins : List Nat
  deriving DecidableEq, Repr

/-- A side block in the side buffer (R117): the addresses of its 64 chunks in the order of the side stream, its bytes, and the
chunks it was read from. -/
structure SideBlock where
  chunks : List Nat
  bytes : List Byte
  pins : List Nat
  deriving DecidableEq, Repr

/-- A tile of a PASS between its issue and its commit (R114 to R118, R129, R132): its place in the walk of R181; what the inlets have
delivered for it, part by part (`loaded`, `parts` those of its weights that have still to arrive, and whether its side bytes and its slices have);
the segments that have swapped it in, what their active registers then hold (`weights`) and held before (`before`), the active latch
bank before it; the column segments whose residue check passed, and the checks it has failed. `pins` are the chunks read for it. -/
structure Tile where
  w : WordCtx
  a : PassArgs
  b : Nat
  t : Nat
  loaded : WSet
  parts : List Nat
  sided : Bool
  latched : Bool
  acts : List Latch
  weights : WSet
  before : WSet
  latchWas : Option Latch
  swapped : List Nat
  checks : List Nat
  fails : Nat
  pins : List Nat
  heldUntil : Nat
  deriving DecidableEq, Repr

/-- The inlets have delivered all that the tile takes. -/
def Tile.arrived (t : Tile) : Bool := t.parts.isEmpty && t.sided && t.latched

/-- A PASS while it executes: its arguments and the next tile of its walk (R181); `begun` once its first inlet read has issued
(R446). -/
structure PassRun where
  w : WordCtx
  a : PassArgs
  b : Nat
  t : Nat
  begun : Bool
  deriving DecidableEq, Repr

/-- Partial sums of one pair of vectors that a committed tile has formed in one group of 16 lanes and that wait behind a drain
(R127, R128): word of the store, partial sum, and whether it replaces the word. -/
structure Commit where
  w : WordCtx
  seg : Nat
  sums : List (Nat × AccWord × Bool)
  deriving DecidableEq, Repr

/-- A drain between its first and its last read (R128, R445): the residual bytes it has read, once they are there, and the groups of
16 words it has read, by their first word, with the words. -/
structure DrainRun where
  w : WordCtx
  a : DrainArgs
  residual : Option (List Byte)
  groups : List Nat
  words : List (Nat × AccWord)
  deriving DecidableEq, Repr

/-- An operation in a unit's queue, or executing (R446). -/
structure QItem where
  w : WordCtx
  op : QOp
  deriving DecidableEq, Repr

/-- The basin writes that a core's ports had issued and that had not reached their banks when a command entered the
ledge-engine queue (R60): accesses by serial, and words whose operations still had writes to make. -/
structure Ahead where
  accs : List Nat
  words : List WordCtx
  deriving DecidableEq, Repr

/-- Nothing was under way. -/
def Ahead.none : Ahead := ⟨[], []⟩

/-- What waits in the ledge-engine queue: a command of Table 2-6 with the word that queued it (none: the CSR path), the
number of words that had issued before it was queued and the writes it waits for, or the FOLD or UNFOLD of a cove's extent
(R57, R59, R60, R65, R310). -/
inductive LdgItem where
  | cmd (lo hi : Reg64) (w : Option WordCtx) (before : Nat) (ahead : Ahead)
  | fold (cove base len : Nat) (ahead : Ahead)
  | unfold (cove base len : Nat) (ahead : Ahead)
  deriving DecidableEq, Repr

/-- It is a command, which DONE_COUNT counts. -/
def LdgItem.isCommand (x : LdgItem) : Bool :=
  match x with
  | .cmd _ _ _ _ _ => true
  | _ => false

/-- What the executing ledge-engine command waits for (R62): the slots of its source, of its destination, to post, to open
its window, or a chunk under repair. -/
inductive LdgWhy where
  | source | write | post | opens | repair
  deriving DecidableEq, Repr

/-- A wait of the executing ledge-engine command: since when, on which address, and for what (R62). -/
structure LdgWaiting where
  since : Nat
  addr : Nat
  why : LdgWhy
  deriving DecidableEq, Repr

/-- An operation that executes: the writes it has still to make, in order, the chunks whose data arrived poisoned (R23), and
the slots it has still to post, as cove and slot (R79, R81, R212). -/
structure ExecItem where
  w : WordCtx
  op : QOp
  pend : List Piece
  bad : List Nat
  posts : List (Nat × Nat)
  deriving DecidableEq, Repr

/-- An open accumulate window (R63 to R65, R86): window number, range, format, and the command that opened it. -/
structure AccWindow where
  win : Nat
  base : Nat
  len : Nat
  bf16 : Bool
  stampEn : Bool
  serial : Nat
  deriving DecidableEq, Repr

/-- A release between its issue and its tag stage (R90, R173); `ctx` is the releasing context, none for REL_GO and for
fetch, which release as the owner (R94, R97). `count` is the issue number of its word, `since` the first tick it may take
effect in. -/
structure Release where
  cove : Nat
  first : Nat
  n : Nat
  ctx : Option Nat
  count : Nat
  tag : BitVec 24
  off : Nat
  deadline : Option Nat
  viaCsr : Bool
  since : Nat
  deriving DecidableEq, Repr

/-- An operation that waits at its tag stage (or a word at issue), with the deadline bound to the wait (R207) and what
it waits for. `claimant` is that of the slot waited on (R439). -/
structure Wait where
  unit : Nat
  w : WordCtx
  addr : Nat
  claimant : Nat
  deriving DecidableEq, Repr

/-- A parity delta on its way to the reserve (R307): chunk address, XOR of contents, XOR of poison. -/
structure Delta where
  addr : Nat
  data : List Byte
  poison : Bool
  deriving DecidableEq, Repr

/-- A chunk whose rebuild from parity is under way (R324); `bySweep` says which count it belongs to. -/
structure Repair where
  addr : Nat
  bySweep : Bool
  started : Nat
  deriving DecidableEq, Repr

/-- An access that has won its banks and waits for its bank cycle (R42): `part` are the pieces of this part. `adds` are the
chunks of an accumulate-on-write, with whether the window is bfloat16, as they were when the part won (R63 to R65), and
`sums` the sums it has formed and has still to write. `stalled` is the cycle in which a read began to wait for a repair. -/
structure Banking where
  acc : Access
  part : List Piece
  won : Nat
  final : Bool
  adds : List (Nat × Bool)
  sums : Option (List Piece)
  stalled : Option Nat
  deriving DecidableEq, Repr

/-- Read data on its way up to a port (R40, R41): the access, the pieces that have been read, whether any carries poison, and
the tick at which the parts read so far are at the port. The data is delivered when every part has been read. -/
structure PortData where
  acc : Access
  got : List Piece
  poison : Bool
  due : Nat
  deriving DecidableEq, Repr

/-- What has come about in a core in the current tick: the tags as they stood at its start, for those that have changed
(R78); the words in which errors were found (R55); the counts that hardware added, by register offset and lowest bit, with
whether the counter saturates (R10); the sticky bits it set, by register offset and bit (R10); the fields of R416 it changed,
by register offset and table entry; whether an access took or wanted banks (R66), whether the sweep took the cycle ahead of
every access, which counters of ticks have counted this one (R135, R270, R445), the issue number of the word whose program
fault the core recorded in it (R220), the selectors written, as they stood at its start (R422), and the tags and pointers that software
wrote, which remain whatever the plain does to them in the tick (R418). A tick ends it. -/
structure Cycle where
  tagsAt : List (Nat × Tag)
  errs : List (Nat × Bool)
  counted : List (Nat × Nat × Bool)
  raised : List (Nat × Nat)
  moved : List (Nat × Nat)
  busy : Bool
  stolen : Bool
  stalls : List Nat
  faulted : Option Nat
  sels : List (Nat × Reg64)
  keptTags : List (Nat × Reg64)
  keptPtrs : List (Nat × Reg64)
  deriving DecidableEq, Repr

/-- Nothing has come about yet. -/
def Cycle.none : Cycle := ⟨[], [], [], [], [], false, false, [], Option.none, [], [], []⟩

/-- The word last issued, next to issue, and what bounds its waits (R188, R197 to R206, R435, R436). `cut` says that the
operations of the core end at their next wait (R265, R313); `issuedAt` is the tick in which the last word issued (R194); `restoring` that it runs a restore routine, and `broke` that the
routine did what R318 forbids. -/
structure IssueState where
  off : Nat
  curOff : Nat
  curLen : Nat
  count : Nat
  tag : BitVec 24
  post : Bool
  stamp : BitVec 16
  expect : Option (Nat × BitVec 16)
  deadline : Option Nat
  scal : Option (BitVec 32)
  sync : Option (BitVec 32)
  running : Bool
  stopping : Bool
  lost : Bool
  atFence : Bool
  markWait : Option Nat
  skipBp : Bool
  passFence : Bool
  slot : Option Nat
  stepOne : Bool
  issuedAt : Nat
  cut : Bool
  restoring : Bool
  broke : Bool
  deriving DecidableEq, Repr

/-- The state of one physical core. `regs` holds the registers of the core window by offset, unlisted at reset value. -/
structure CoreState where
  /-- The registers of the core window by offset, those at their reset value unlisted (Table 15-7, R423). -/
  regs : List (Nat × Reg64)
  /-- Bytes of the basin (R36, R37). -/
  basin : List (Nat × Byte)
  /-- Poisoned chunks (R53). -/
  poison : List Nat
  /-- Poisoned chunks whose poison arrived from a tier or a strait: they are never rebuilt from parity (R56). -/
  alien : List Nat
  /-- Basin words with a single-bit (false) or uncorrectable (true) error (R53 to R55). -/
  ecc : List (Nat × Bool)
  /-- Slot tags: STATE, STAMP, RETAINED, CLAIMANT (Table 3-1, R77). -/
  tags : List (Nat × Tag)
  /-- Scalar registers (R191). -/
  xregs : List (Nat × Word)
  /-- The scalar store (R192). -/
  sstore : List (Nat × Byte)
  /-- Vector registers (R137). -/
  vregs : List (Nat × Byte)
  /-- Accumulator words (R125). -/
  acc : List (Nat × AccWord)
  /-- Weights the cells compute with (R118, R121). -/
  active : WSet
  /-- Weights loading behind the active ones (R118). -/
  shadow : WSet
  /-- The activation latch (R122). -/
  latch : List Latch
  /-- The side buffer (R117). -/
  side : List SideBlock
  /-- The PASS that executes (R181). -/
  pass : Option PassRun
  /-- Tiles between issue and commit (R114 to R118, R132). -/
  tiles : List Tile
  /-- Partial sums that wait behind a drain (R127, R128). -/
  commitQ : List Commit
  /-- The drain that reads its entries (R128, R147). -/
  draining : Option DrainRun
  /-- Estuary parameters (Table 5-4). -/
  params : List (Nat × Byte)
  /-- Softmax records pending (R156). -/
  records : List (Nat × Nat × List Byte)
  /-- Descriptor table (R174). -/
  desc : List (Nat × Reg64)
  /-- Route table (Table 10-4). -/
  route : List (Nat × Reg64)
  /-- Send plan (Table 10-3). -/
  plan : List (Nat × Reg64)
  /-- Strand RAM (Table 5-7). -/
  strand : List (Nat × Reg64)
  /-- The word next to issue and last issued, its scalar and sync slots, what bounds its waits, and how the core runs or stops (R188, R197 to R206, R435, R436). -/
  iss : IssueState
  /-- Chunks that fetch holds (R198). -/
  fetchWin : List (Nat × List Byte)
  /-- Vector queue (Table 6-3, R446). -/
  vecQ : List QItem
  /-- Array queue (Table 6-3, R446). -/
  arrQ : List QItem
  /-- Estuary queue (Table 6-3, R446). -/
  estQ : List QItem
  /-- Load queue (Table 6-3, R446). -/
  loadQ : List QItem
  /-- Store queue (Table 6-3, R446). -/
  storeQ : List QItem
  /-- Operations that have begun, have left their queue, and wait at the tag stage of a read (R446). -/
  started : List QItem
  /-- Operations that execute (R212). -/
  exec : List ExecItem
  /-- Ledge-engine queue (R57). -/
  ldgQ : List LdgItem
  /-- The ledge command that executes (R58 to R62). -/
  ldgExec : Option LdgItem
  /-- What the executing ledge command waits for (R62). -/
  ldgWait : Option LdgWaiting
  /-- A push of the CSR path that waits for a place (R59). -/
  pushHeld : Option (Reg64 × Reg64)
  /-- Open accumulate windows (R63 to R65, R86). -/
  accWin : List AccWindow
  /-- Releases between issue and tag stage (R90, R173). -/
  rels : List Release
  /-- Operations that wait at their tag stage (R207, R439). -/
  waits : List Wait
  /-- Accesses that have not won their banks (R40 to R47). -/
  accesses : List Access
  /-- Accesses between arbitration and bank cycle (R41, R42). -/
  banking : List Banking
  /-- Read data on its way to a port (R41). -/
  portData : List PortData
  /-- Read data that has reached its port (R41). -/
  atPort : List (Nat × List Byte)
  /-- Chunks under repair (R324). -/
  repairs : List Repair
  /-- Parity deltas on their way to the reserve (R307, R308). -/
  deltas : List (Nat × List Delta)
  /-- When the running wash ends (R69). -/
  washEnd : Option Nat
  /-- Row of the next sweep (R66). -/
  sweepRow : Nat
  /-- When it is due (R66). -/
  sweepDue : Nat
  /-- Cycles that the row's turn has waited without an idle cycle (R66). -/
  sweepWaited : Nat
  /-- Recent changes of the active lease set: the tick, and the set before it (R43). -/
  leaseOld : List (Nat × Nat)
  /-- The island is powered down by a mend (R314). -/
  isolated : Bool
  /-- Trace records that wait (R438). -/
  traceBuf : List TraceRec
  /-- LEVEL at the end of the cycle before (R95). -/
  lastLevel : List (Nat × Nat)
  /-- What has come about in the current tick (R10, R55, R66, R78). -/
  cyc : Cycle
  deriving DecidableEq, Repr

/-- The weights of reset and wash: zero bits, zero scales (R68, R121). -/
def WSet.empty : WSet := ⟨[], [], [], true, true⟩

/-- An empty latch bank. -/
def Latch.empty : Latch := ⟨[], [], []⟩

/-- Issue state of a stopped core that has run nothing (R202). -/
def IssueState.reset : IssueState where
  off := 0
  curOff := 0
  curLen := 0
  count := 0
  tag := 0
  post := false
  stamp := 0
  expect := none
  deadline := none
  scal := none
  sync := none
  running := false
  stopping := false
  lost := false
  atFence := false
  markWait := none
  skipBp := false
  passFence := false
  slot := none
  stepOne := false
  issuedAt := 0
  cut := false
  restoring := false
  broke := false

/-- A core right after reset: every register and memory at its reset value (log entries 5, 6). -/
def CoreState.reset : CoreState where
  regs := []
  basin := []
  poison := []
  alien := []
  ecc := []
  tags := []
  xregs := []
  sstore := []
  vregs := []
  acc := []
  active := WSet.empty
  shadow := WSet.empty
  latch := [Latch.empty, Latch.empty]
  side := []
  pass := none
  tiles := []
  commitQ := []
  draining := none
  params := []
  records := []
  desc := []
  route := []
  plan := []
  strand := []
  iss := IssueState.reset
  fetchWin := []
  vecQ := []
  arrQ := []
  estQ := []
  loadQ := []
  storeQ := []
  started := []
  exec := []
  ldgQ := []
  ldgExec := none
  ldgWait := none
  pushHeld := none
  accWin := []
  rels := []
  waits := []
  accesses := []
  banking := []
  portData := []
  atPort := []
  repairs := []
  deltas := []
  washEnd := none
  sweepRow := 0
  sweepDue := 0
  sweepWaited := 0
  leaseOld := []
  isolated := false
  traceBuf := []
  lastLevel := []
  cyc := Cycle.none

end Sys2Proof.Machine
end

