-- ==== Sys2Proof/Machine/Units.lean ====
section
/-! DEFINITION. The plain's units outside its cores: tier requests, consignments and flits, strait links, harbour windows,
bays and their fence copies, the governor, pilots' notices and the pins. All plain data. -/

namespace Sys2Proof.Machine

/-- The signals at the power and thermal port, the tide reference and the security root (Table 1-11, R26, R28). -/
structure Pins where
  railLogic : Bool
  railLedge : Bool
  railStrand : Bool
  throttleReq : Bool
  loadStep : Bool
  tideRef : Bool
  release : Bool
  deriving DecidableEq, Repr

/-- A notice in a pilot's queue (R334). -/
structure Notice where
  kind : Nat
  core : Nat
  cove : Nat
  time : Nat
  window : Nat
  cid : Nat
  srcPos : Nat
  deriving DecidableEq, Repr

/-- A CSR write that a wash holds at the port (R417). -/
structure HeldWrite where
  id : BitVec 12
  addr : Nat
  value : Reg64
  deriving DecidableEq, Repr

/-- What has come about in the registers of the plain and shoal windows in the current tick: the counts that hardware added,
by address and lowest bit, with whether the counter saturates, and the sticky bits it set, by address and bit (R10); the
fields of R416 that the plain changed, by address; the software writes that reached such a field (R416) or met an SC bit that
was still set (R10); the role epochs of bays as they were before the tick's writes (R297); the queue of each notice raised (R334); the selectors
written, as they stood at its start (R422). A tick ends it. -/
structure PlainCycle where
  counted : List (Nat × Nat × Bool)
  raised : List (Nat × Nat)
  moved : List Nat
  wrote : List HeldWrite
  again : List HeldWrite
  roles : List (Nat × Nat)
  noticed : List Nat
  sels : List (Nat × Reg64)
  deriving DecidableEq, Repr

/-- Nothing has come about yet. -/
def PlainCycle.none : PlainCycle := ⟨[], [], [], [], [], [], [], []⟩

/-- AXI responses of the CSR port (R17, R18, R411). -/
inductive Resp where
  | okay | slverr | decerr
  deriving DecidableEq, Repr

/-- The power governor (R270 to R273): charges in quarters of a chunk unit, newest slice first; `limit` is the window limit of the
current slice; `spent` is what each shoal was charged since its bay's last frame end (R275). -/
structure Gov where
  limit : Nat
  past : List Nat
  cur : Nat
  deficits : List (Nat × Nat)
  turn : Nat
  throttling : Bool
  held : List Nat
  admitted : List Nat
  heldAt : List (Nat × Nat)
  spent : List (Nat × Nat)
  deriving DecidableEq, Repr

/-- An open or closing harbour window (R101 to R105, R294, R295): slots granted and not yet claimed, in grant order. -/
structure Window where
  granted : List Nat
  lastGrant : Nat
  closing : Bool
  deriving DecidableEq, Repr

/-- A request of a DMA at a tier port (R299 to R301). A write carries `bytes`; a read lands its 64-byte chunks at the basin
chunks `land` and has sampled `bytes` when it issued. `marked` are the tier chunks that carry the poison marking
(R23); the port completes it no earlier than `due` (R441). -/
structure TierReq where
  id : Nat
  place : Nat
  core : Nat
  bay : Nat
  write : Bool
  addr : Nat
  bytes : List Byte
  marked : List Nat
  land : List Nat
  w : WordCtx
  issued : Option Nat
  due : Nat
  deriving DecidableEq, Repr

/-- A destination of a consignment: SEQs landed, slots claimed with the tag each had before (R87) as cove, slot and tag, the
window slots used, the tick in which a flit last landed, and what became of it. -/
structure Dest where
  core : Nat
  passed : Bool
  dropped : Bool
  committed : Bool
  landed : List Nat
  claimed : List (Nat × Nat × Tag)
  wslots : List Nat
  landedAt : Nat
  deriving DecidableEq, Repr

/-- A consignment (R284 to R287): KIND 1 core, 2 tree, 3 window; 4 and 5 stand for a request of a DMA on its way to the tier port
`tier`, under the request's number, and for what the port answers (R299). `lands` are the basin chunks of the declared extent of a
KIND 1 or 2 landing. `port` is the strait port it leaves by, `via` the one it arrives by; `flits` is the number of its
flits, known on arrival with the last. `divert` is the payload of one whose role epoch is stale (R298). -/
structure Consign where
  id : Nat
  kind : Nat
  srcCore : Nat
  srcPos : Nat
  dstPos : Nat
  ctx : Nat
  w : WordCtx
  stream : Nat
  elastic : Bool
  epoch : Nat
  stepNo : Nat
  cid : Nat
  win : Nat
  slot : Nat
  port : Option Nat
  via : Option Nat
  lane : Option Nat
  lands : List Nat
  flits : Option Nat
  dests : List Dest
  firstAt : Nat
  diverted : Bool
  divert : List (Nat × List Byte)
  tier : Option Nat
  deriving DecidableEq, Repr

/-- A flit in flight: up to two chunks with their poison, the pass it is at, the port it came in by (0 N, 1 S, 2 E, 3 W,
4 core, 5 edge), the destinations it still serves, and the tick of its release there (R247). `atCore` says that it has
left its pass for the core, `out` that it waits at the egress of its strait port, `drawn` that its perturbation point has
held it (R441). -/
structure Flit where
  cons : Nat
  seq : Nat
  last : Bool
  chunks : List (List Byte × Bool)
  x : Nat
  y : Nat
  inPort : Nat
  dests : List Nat
  ready : Nat
  atCore : Bool
  out : Bool
  drawn : Bool
  deriving DecidableEq, Repr

/-- A grant or a reply on its way on this plain (TYPE 2 and 3 of Table 10-2): the core it goes to, and the word whose
consignment a reply answers. -/
structure Msg where
  slot : StraitSlot
  core : Nat
  w : Option WordCtx
  deriving DecidableEq, Repr

/-- A strait port's link (R289 to R293, R248 to R253): when its state was entered, the record exchange, the last exchanges
of beacons in ps (RTT, OFFSET), its lanes, what waits to go out, the last block and
capability record sent. `lost` are the armed bays whose traffic
over it a loss has cut, each with the lowest core that used the port (R288); `steers` are the offsets of the exchanges since
alignment began, at most 1,024 (R253), `beaconAt` the tick of the last timestamped beacon sent (R249), `hops` the ticks in which HOP_NS
was written with the value before, and `late` that a flit came too late for its release (R248). -/
structure Link where
  since : Nat
  recordAt : Option Nat
  acked : Bool
  got : Bool
  matched : Bool
  rtts : List Int
  offsets : List Int
  exchanges : Nat
  steers : List Int
  lanesIn : List (Nat × Nat)
  lanesOut : List (Nat × Nat)
  control : List StraitSlot
  beacons : List Beacon
  groups : List Nat
  badRun : Nat
  badWords : List (Nat × Nat)
  sent : Option StraitBlock
  lost : List (Nat × Nat)
  record : Option CapRecord
  beaconAt : Option Nat
  hops : List (Nat × Nat)
  late : Bool
  deriving DecidableEq, Repr

/-- A link that has not trained. -/
def Link.down : Link := ⟨0, none, false, false, true, [], [], 0, [], [], [], [], [], [], 0, [], none, [], none, none, [], false⟩

/-- An enabled cove in the fence copy (R98): COVE_CFG, TAG_BASE, its tags and its pointers. -/
structure CoveCopy where
  n : Nat
  cfg : Reg64
  tagBase : Nat
  tags : List (Nat × Tag)
  ptr : Reg64
  deriving DecidableEq, Repr

/-- The fence copy of one core (R98, R174, R227, R260, R283); `waits` says that the core waited on its fence mark. -/
structure FenceCore where
  coves : List CoveCopy
  xregs : List (Nat × Word)
  off : Nat
  lease : Nat
  desc : List (Nat × Reg64)
  preds : List (Nat × Reg64)
  credit : List (Nat × Reg64)
  tagNow : Reg64
  countNow : Reg64
  waits : Bool
  deriving DecidableEq, Repr

/-- A harbour window in the fence copy: its grants and GRANT_PTR (R98). -/
structure WinCopy where
  win : Nat
  state : Window
  ptr : Nat
  deriving DecidableEq, Repr

/-- A bay's step grid and its fence copy (R254 to R269, R345). `frames` and `base` are STEP_FRAMES and FTAB_BASE as they
apply to the current step; `writes` are the writes that change them and have not applied, oldest first: tick, STEP_FRAMES, FTAB_BASE. `breached`: a breach of the step is being
resolved; `restored`: its fence copy is back and a replay at `resumeAt` follows; `fenced`: it stands fenced for mending;
`repeated`: this bay breached again in its replay; `frame` is the frame whose charge is being measured; `oldStep` is the step
number whose late flits are dropped (R267). -/
structure BayRun where
  frames : Nat
  base : Nat
  writes : List (Nat × Nat × Nat)
  started : Bool
  breached : Bool
  restored : Bool
  repeated : Bool
  mendReplay : Bool
  fenced : Bool
  resumeAt : Option Nat
  frame : Nat
  drainAt : Option Nat
  oldStep : Option Nat
  copy : List (Nat × FenceCore)
  wins : List WinCopy
  deriving DecidableEq, Repr

/-- A bay whose grid does not run. -/
def BayRun.idle : BayRun := ⟨0, 0, [], false, false, false, false, false, false, none, 0, none, none, [], []⟩

/-- A takeover in progress in a shoal (R313 to R322): position and place of the failed core, tick of detection, what it recorded,
its bay and step, the end of the rebuild, chunks rebuilt and failed, the self-test's answer, the end of the renumber phase,
the start of the restore phase, and whether the mend lies outside the promise or the lead pilot has taken it over. -/
structure Mend where
  pos : Nat
  place : Nat
  since : Nat
  cls : Nat
  tag : Nat
  source : Nat
  step : Nat
  bay : Option Nat
  rebuildEnd : Nat
  rebuilt : Nat
  test : Option Bool
  renumberEnd : Nat
  restoreAt : Nat
  outside : Bool
  lead : Bool
  deriving DecidableEq, Repr

/-- A link fault that waits for its mend (R326, R327): bay fenced, core that recorded it, tick of detection. -/
structure LinkFault where
  bay : Nat
  core : Nat
  since : Nat
  deriving DecidableEq, Repr

/-- The privilege modes of a pilot (R331): it has no supervisor mode. -/
inductive Priv where
  | user
  | machine
  deriving DecidableEq, Repr

/-- Address matching of a PMP entry (R331); a granularity of 4 KiB leaves out NA4. -/
inductive PmpMode where
  | off
  | tor
  | napot
  deriving DecidableEq, Repr

/-- A PMP entry (R331): its matching, permissions and lock, and its address register, which counts 4-byte units. -/
structure PmpEntry where
  mode : PmpMode
  r : Bool
  w : Bool
  x : Bool
  lock : Bool
  addr : BitVec 54
  deriving DecidableEq, Repr

/-- The architectural state of a pilot core (R331): RV64IMAFDC with Zicsr and Zifencei, machine and user mode, 16 PMP entries. Of
mstatus the bits MIE, MPIE, MPP and MPRV stand apart from the rest (`status`); `regs` and `fregs` are x0 to x31 and f0 to f31; `reserved`
is the address an LR holds. -/
structure Hart where
  pc : BitVec 64
  regs : Vector (BitVec 64) 32
  fregs : Vector (BitVec 64) 32
  fcsr : BitVec 8
  reserved : Option Nat
  priv : Priv
  mie : Bool
  mpie : Bool
  mpp : Priv
  mprv : Bool
  status : BitVec 64
  enables : BitVec 64
  mtvec : BitVec 64
  mscratch : BitVec 64
  mepc : BitVec 64
  mcause : BitVec 64
  mtval : BitVec 64
  mcounteren : BitVec 32
  mcountinhibit : BitVec 32
  menvcfg : BitVec 64
  mcycle : BitVec 64
  minstret : BitVec 64
  hpm : Vector (BitVec 64) 29
  pmp : Vector PmpEntry 16
  deriving DecidableEq, Repr

/-- A pilot core as it starts (R387): machine mode at address 0, interrupts off and no PMP entry in force. The standard states no other
reset value: the rest is 0 (DESIGN CHOICE, log entry 117). -/
def Hart.start : Hart where
  pc := 0
  regs := Vector.replicate 32 0
  fregs := Vector.replicate 32 0
  fcsr := 0
  reserved := none
  priv := .machine
  mie := false
  mpie := false
  mpp := .user
  mprv := false
  status := 0
  enables := 0
  mtvec := 0
  mscratch := 0
  mepc := 0
  mcause := 0
  mtval := 0
  mcounteren := 0
  mcountinhibit := 0
  menvcfg := 0
  mcycle := 0
  minstret := 0
  hpm := Vector.replicate 29 0
  pmp := Vector.replicate 16 ⟨.off, false, false, false, false, 0⟩

/-- A pilot (R331, R333, R336 to R338, R389): whether it is in reset, the recent restarts of its components (component, tick), its
mtimecmp, which only the pilot's own code could write, its core, and the 8-byte words of its SRAM in which SEC-DED finds an error (true:
an uncorrectable one). -/
structure PilotRun where
  inReset : Bool
  starts : List (Nat × Nat)
  mtimecmp : BitVec 64
  hart : Hart
  sramErrs : List (Nat × Bool)
  deriving DecidableEq, Repr

/-- A pilot at reset. -/
def PilotRun.reset : PilotRun := ⟨false, [], 0, Hart.start, []⟩

/-- What firmware keeps of an accepted submission beyond its ledger entry (Table 13-3): its fields, its arrival, the order of its
arrival, the tick it was first left out of a batch, and the completion it is to get (STATUS, DETAIL). -/
structure Sub where
  op : Nat
  flags : Nat
  role : Nat
  submitId : Nat
  prompt : Nat
  shape : List Nat
  inAddr : Nat
  outAddr : Nat
  outBytes : Nat
  maxTokens : Nat
  tokens : Nat
  arrival : Nat
  order : Nat
  placed : Option Nat
  leftOut : Option Nat
  lastStep : Nat
  done : Option (Nat × Nat)
  deriving DecidableEq, Repr

/-- A write of a register of the plain that waits for a pilot's or engine's operation to end: a mirror operation's error and
progress (R329). -/
structure MirrorOp where
  save : Bool
  err : Nat
  segs : Nat
  deriving DecidableEq, Repr

/-- A submission that the tiler has placed in a bay (R233 to R235): its ledger entry, the ENTRY of its terrace, the context, and for
each core the DONE_COUNT at which its twelve FILLs have completed. -/
structure Tiler where
  entry : Nat
  start : Nat
  ctx : Nat
  counts : List (Nat × Nat)
  deriving DecidableEq, Repr

/-- A teardown in progress (R365): whether it washes the bay, and else for each core the DONE_COUNT at which its FILLs have completed. -/
structure Teardown where
  washed : Bool
  counts : List (Nat × Nat)
  deriving DecidableEq, Repr

/-- The loader (R383 to R388): whether the journal has been replayed, the slot tried first in this round and the attempts made in it,
the tick its state was entered, the next start action and the tick of the last one, and the tick of the first release. -/
structure Loader where
  replayed : Bool
  first : Nat
  tries : Nat
  since : Nat
  pos : Nat
  acted : Nat
  released : Option Nat
  outputs : Bool
  deriving DecidableEq, Repr

/-- A loader that has not begun. -/
def Loader.idle : Loader := ⟨false, 0, 0, 0, 0, 0, none, false⟩

/-- A partial reconfiguration in progress (R391): shoal, SRC and the near-tier address of the source. -/
structure PrRun where
  shoal : Nat
  src : Nat
  addr : Nat
  deriving DecidableEq, Repr

/-- A command of XFER (Table 16-1): OP, CORE, ADDR and DATA. -/
structure XferCmd where
  op : Nat
  core : Nat
  addr : Nat
  data : Reg64
  deriving DecidableEq, Repr

/-- The debug port (R429): the result that the next Capture-DR of XFER loads (DATA, STATUS, POISON), the command that has not
finished, DROPPED, COMMANDS, and the value that the last Capture-DR of DSTAT loaded. -/
structure DebugPort where
  data : Reg64
  status : Nat
  poison : Bool
  busy : Option XferCmd
  dropped : Bool
  commands : Nat
  dstat : Nat
  deriving DecidableEq, Repr

end Sys2Proof.Machine
end

