-- ==== Sys2Proof/Machine/State.lean ====
section
/-! DEFINITION. The state of the plain: its cores, tables, queues, engines, pins and registers, and the queue of the
commands that wait. Everything is plain data; maps and memories are held in one canonical form. -/

namespace Sys2Proof.Machine

/-- State of the plain. -/
structure State where
  /-- The tide counter TID_NOW (R245). -/
  now : Nat
  /-- The rails, THROTTLE_REQ, LOAD_STEP, the tide reference and the security root's release (Table 1-11, R26, R28 to R32). -/
  pins : Pins
  /-- The stored registers of the plain and shoal windows by CSR address, those at their reset value unlisted (R423). -/
  regs : List (Nat × Reg64)
  /-- WO1 registers that have taken their write of this epoch (R356, Table 15-3). -/
  locked : List Nat
  /-- The configuration mirror of the core windows (R311, R317). -/
  mirror : List (Nat × Reg64)
  /-- The configuration mirror of the route entries (R311). -/
  routeMirror : List (Nat × Reg64)
  /-- Constant blocks of the strand RAM, from the image (R163, Table 14-2). -/
  constBlocks : Nat
  /-- Strand RAM blocks an extension may write, from the image (R163, Table 14-2). -/
  writeBlocks : Nat
  /-- The physical cores by shoal * 17 + place, those as after reset unlisted (R7, R8). -/
  cores : List (Nat × CoreState)
  /-- Grants of each harbour window not yet claimed, the tick of the last grant, and whether it closes (R101 to R105, R294, R295). -/
  wins : List (Nat × Window)
  /-- The governor: charges of the last slices and of this one, deficits, turn, who is held (R270 to R273, R275). -/
  gov : Gov
  /-- Generators of the perturbation points (R441). -/
  prtGen : List (Nat × Reg64)
  /-- The core whose delta a reserve applied last (R308). -/
  deltaTurn : List (Nat × Nat)
  /-- The step grid and the fence copy of each bay (R254 to R269, R345). -/
  bays : List (Nat × BayRun)
  /-- A bay of the plain has been armed since reset (R252). -/
  everArmed : Bool
  /-- The link of each strait port (R289 to R293, R248 to R253). -/
  links : List (Nat × Link)
  /-- Consignments under way (R284 to R287). -/
  conss : List Consign
  /-- Flits on the passes and at strait ports (R277 to R279, R247). -/
  flits : List Flit
  /-- Grants and replies on their way on this plain (R295, Table 10-2). -/
  msgs : List Msg
  /-- Window revocations that still wait for acknowledgement (R295). -/
  revokes : List (Nat × Nat × Nat)
  /-- The tick each link of the passes was last used (R278). -/
  linkUse : List (Nat × Nat)
  /-- The input port to which the turn of each link has come (R279). -/
  linkTurn : List (Nat × Nat)
  /-- For each stream on each link: the start of the step its plan runs in, and the scheduled flits it has sent there in it (R262). -/
  streamSent : List (Nat × Nat × Nat)
  /-- The next CID of each sending core (R284). -/
  cidNext : List (Nat × Nat)
  /-- Plan tables of the strait ports (Table 10-3). -/
  strPlan : List (Nat × Reg64)
  /-- Distribution trees (Table 8-4, R237). -/
  dtree : List (Nat × Reg64)
  /-- The frame table (R275). -/
  ftab : List (Nat × Reg64)
  /-- Bytes of near and far tier (R21). -/
  tier : List (Nat × Byte)
  /-- Tier chunks that carry the poison marking (R23, R330). -/
  tierPoison : List Nat
  /-- Tier requests that wait or are under way (R299 to R301). -/
  reqs : List TierReq
  /-- Deficits of the tier turns (R300). -/
  tierDef : List (Nat × Nat)
  /-- The bay a tier turn has reached (R300). -/
  tierTurn : List (Nat × Nat)
  /-- The tick from which a port accepts the next near-tier request (R300). -/
  nearAt : List (Nat × Nat)
  /-- The tick from which a CXL link accepts the next request (R300). -/
  cxlAt : List (Nat × Nat)
  /-- The port a CXL link served last (R300). -/
  cxlTurn : List (Nat × Nat)
  /-- Bytes moved at the tiers beyond whole KiB of TIR_BAY_STAT (Table 15-5). -/
  tierBytes : List (Nat × Nat)
  /-- Notice queues (R334). -/
  notices : List (Nat × List Notice)
  /-- CSR writes that a wash holds (R417). -/
  heldWrites : List HeldWrite
  /-- AXI responses of the last register command (R17, R18, R411). -/
  responses : List Resp
  /-- One more than the step of the last beacon sent (R265). -/
  told : List (Nat × Nat)
  /-- Islands that have lost their lock and are still powered, by place (R246). -/
  lostIslands : List Nat
  /-- Takeovers under way (R313 to R322, Table 11-3). -/
  mends : List (Nat × Mend)
  /-- Link faults that wait for their mend (R326, R327). -/
  linkFaults : List (Nat × LinkFault)
  /-- The place that holds no position (the failed one after a mend, else the reserve) (R317, Table 11-4). -/
  failed : List (Nat × Nat)
  /-- Mend records written so far: SEQ of the next (R330). -/
  mendSeq : Nat
  /-- Events raised that firmware has still to post (R375). -/
  evDue : List Event
  /-- Events held for want of room in the ring (R376). -/
  evHeld : List Event
  /-- Laps of the event ring, for PHASE (R368). -/
  evLap : Nat
  /-- Events lost since the last OVERFLOW (R376). -/
  evLost : Nat
  /-- MSI-X requests made, oldest first (R20). -/
  msix : List Nat
  /-- The external interrupt of the lead pilot (R369, R333). -/
  leadIrq : Bool
  /-- All shoals are held after a rail fell (R30). -/
  railHeld : Bool
  /-- The plain has not left reset: it was powered up with a rail low, and not all three have been high since (R30). -/
  inReset : Bool
  /-- The tick at which LOAD_STEP is released (R32). -/
  loadStepOff : Nat
  /-- Whether each pilot is in reset, the recent restarts of its components, and its mtimecmp (R333, R336 to R338). -/
  pilots : List (Nat × PilotRun)
  /-- What firmware keeps of each accepted submission, in the order of acceptance (R339 to R342, R370). -/
  subs : List (Nat × Sub)
  /-- Laps of each completion ring, for PHASE (R368). -/
  cqLap : List (Nat × Nat)
  /-- Submissions accepted so far: their order of arrival (R339). -/
  arrivals : Nat
  /-- The mirror operation under way (R329). -/
  mirrorOp : Option MirrorOp
  /-- The drift record that waits for credit (R347). -/
  redrive : Option Nat
  /-- The channels of the measurement table (R403). -/
  channels : List (Nat × Reg64)
  /-- Credit of the drift engine (R347, R285). -/
  leadCredit : List (Nat × Reg64)
  /-- Contexts whose bay has been washed since their cores stopped (R365). -/
  ctxWashed : List Nat
  /-- Submissions that the tiler has placed and not started (R233 to R235). -/
  tilers : List (Nat × Tiler)
  /-- Teardowns under way (R365). -/
  teardowns : List (Nat × Teardown)
  /-- Ledge commands that firmware still has to push (R59, R234). -/
  fwPush : List (Nat × Reg64 × Reg64)
  /-- Pilot SRAMs, pilot * 2^32 + address (Tables 12-1). -/
  sram : List (Nat × Byte)
  /-- The non-volatile store (R378). -/
  store : List (Nat × Byte)
  /-- Store words that read uncorrectable (R378). -/
  storeBad : List Nat
  /-- Where the loader stands (R383 to R388). -/
  loader : Loader
  /-- The header of the image that has loaded (R388, R389). -/
  header : List Byte
  /-- Fabric configuration, from the image (R386). -/
  fabric : List (Nat × Byte)
  /-- Core configuration, from the image (R386). -/
  coreCfg : List (Nat × Byte)
  /-- Strand configuration, from the image (R386). -/
  strandCfg : List (Nat × Byte)
  /-- The partial reconfiguration under way (R391 to R393). -/
  pr : Option PrRun
  /-- Journal appends that wait (R398). -/
  appends : List (Nat × Reg64)
  /-- GEN of the active journal area (R395). -/
  journalGen : Option Nat
  /-- The debug port: result, command under way, DROPPED, COMMANDS, DSTAT (R429). -/
  dbg : DebugPort
  /-- What has come about in the current tick (R10, R416). -/
  cyc : PlainCycle
  /-- The model's own counter: the next use of a free value, and the number of the next operation. -/
  fresh : Nat
  /-- The model's own queue of commands that wait, first in, first out. -/
  pending : List Instr
  deriving DecidableEq, Repr

/-- Why a step stops with a fault. Each names a unit that does not exist; all are safe: no command of the manual names one. -/
inductive Fault where
  /-- A command names a logical core above 1,279 (R7). Raised by every command with a core operand. Safe. -/
  | noSuchCore (core : Nat)
  /-- A command names a shoal above 79, or a ledge above 11 (R6, R9). Raised by the commands with a shoal operand. Safe. -/
  | noSuchShoal (shoal : Nat)
  /-- A command names a bay above 79 (R355). Raised by the commands with a bay operand. Safe. -/
  | noSuchBay (bay : Nat)
  /-- A command names a strait port above 47 or a tier port above 15. Raised by the commands with a port operand. Safe. -/
  | noSuchPort (port : Nat)
  /-- A command names a harbour window above 4,095. Raised by the commands with a window operand. Safe. -/
  | noSuchWindow (win : Nat)
  /-- A command names a context above 1,023. Raised by the commands with a context operand. Safe. -/
  | noSuchContext (ctx : Nat)
  /-- A command names a request ledger entry above 8,191. Raised by the commands with an entry operand. Safe. -/
  | noSuchEntry (entry : Nat)
  /-- A command names a tenant above 1,023. Raised by TENANT_REFILL. Safe. -/
  | noSuchTenant (tenant : Nat)
  /-- A command names a pilot above 80 (80 is the lead pilot), or a component above 6. Raised by POP and the pilot commands. Safe. -/
  | noSuchPilot (pilot : Nat)
  deriving DecidableEq, Repr

/-- Why a command is refused. -/
inductive Refusal where
  /-- No meaning yet. Raised only by arms of `exec` that are not modelled; safe. -/
  | notModelled (mnemonic : String)
  deriving DecidableEq, Repr

/-- The plain right after reset: every register at its reset value (the register map lists none), every memory and
queue empty, the tide counter at 0 (R245, R427); log entries 2 to 7 name the values the manual does not give. -/
def State.reset : State where
  now := 0
  pins := ⟨true, true, true, false, false, true, true⟩
  regs := []
  locked := []
  mirror := []
  routeMirror := []
  constBlocks := 0
  writeBlocks := 0
  cores := []
  wins := []
  gov := ⟨0, [], 0, [], 0, false, [], [], [], []⟩
  prtGen := []
  deltaTurn := []
  bays := []
  everArmed := false
  links := []
  conss := []
  flits := []
  msgs := []
  revokes := []
  linkUse := []
  linkTurn := []
  streamSent := []
  cidNext := []
  strPlan := []
  dtree := []
  ftab := []
  tier := []
  tierPoison := []
  reqs := []
  tierDef := []
  tierTurn := []
  nearAt := []
  cxlAt := []
  cxlTurn := []
  tierBytes := []
  notices := []
  heldWrites := []
  responses := []
  told := []
  lostIslands := []
  mends := []
  linkFaults := []
  failed := []
  mendSeq := 0
  evDue := []
  evHeld := []
  evLap := 0
  evLost := 0
  msix := []
  leadIrq := false
  railHeld := false
  inReset := false
  loadStepOff := 0
  pilots := []
  subs := []
  cqLap := []
  arrivals := 0
  mirrorOp := none
  redrive := none
  channels := []
  leadCredit := []
  ctxWashed := []
  tilers := []
  teardowns := []
  fwPush := []
  sram := []
  store := []
  storeBad := []
  loader := Loader.idle
  header := []
  fabric := []
  coreCfg := []
  strandCfg := []
  pr := none
  appends := []
  journalGen := none
  dbg := ⟨0, 0, false, none, false, 0, 0⟩
  cyc := PlainCycle.none
  fresh := 0
  pending := []

end Sys2Proof.Machine
end

