-- ==== Sys2Proof/Machine/Access.lean ====
section
/-! DEFINITION. Named reads and writes of registers and cores: every other file reaches the register map through these. -/

namespace Sys2Proof.Machine

/-! Registers of a core. -/

/-- The register at an offset of the core window. -/
def CoreState.reg (c : CoreState) (off : Nat) : Reg64 := Sparse.get (coreReset off) c.regs off

/-- Set the register at an offset of the core window. -/
def CoreState.setReg (c : CoreState) (off : Nat) (v : Reg64) : CoreState :=
  { c with regs := Sparse.set (coreReset off) c.regs off v }

/-- A field of register number `i` of its kind. -/
def CoreState.get (c : CoreState) (f : RF) (i : Nat := 0) : Nat := field (c.reg (f.addr i)) f.hi f.lo

/-- Set a field of register number `i` of its kind. -/
def CoreState.put (c : CoreState) (f : RF) (x : Nat) (i : Nat := 0) : CoreState :=
  c.setReg (f.addr i) (setField (c.reg (f.addr i)) f.hi f.lo x)

/-- A one-bit field. -/
def CoreState.flag (c : CoreState) (f : RF) (i : Nat := 0) : Bool := c.get f i == 1

/-- A field as it stood at the start of the current tick: of a selector, which a data access uses so (R422), of HALT (R434) and of a
perturbation point (R442). -/
def CoreState.sel (c : CoreState) (f : RF) : Nat :=
  match c.cyc.sels.find? (fun x => x.1 == f.base) with
  | some x => field x.2 f.hi f.lo
  | none => c.get f

/-- Software writes such a register: in the rest of the tick the value before the first such write still counts. -/
def CoreState.keepSel (c : CoreState) (off : Nat) : CoreState :=
  if c.cyc.sels.any (fun x => x.1 == off) then c else { c with cyc.sels := (off, c.reg off) :: c.cyc.sels }

/-- Largest value of a field. -/
def RF.max (f : RF) : Nat := 2 ^ (f.hi + 1 - f.lo) - 1

/-- The key of a field among the counts of a tick: its register and lowest bit. -/
def RF.key (f : RF) (i : Nat) : Nat := f.addr i * 64 + f.lo

/-- Add to the counts that hardware has made in the current tick (R10). -/
def addCount (l : List (Nat × Nat × Bool)) (key n : Nat) (saturates : Bool) : List (Nat × Nat × Bool) :=
  match l with
  | [] => [(key, n, saturates)]
  | x :: rest => if x.1 = key then (key, x.2.1 + n, saturates) :: rest else x :: addCount rest key n saturates

/-- What hardware has counted in a field in the current tick, and whether the field saturates (R10). -/
def countedIn (l : List (Nat × Nat × Bool)) (key : Nat) : Nat × Bool :=
  match l.find? (fun x => x.1 == key) with
  | some x => x.2
  | none => (0, false)

/-- Count on in a field that saturates (R10, the counters that say so). -/
def CoreState.bump (c : CoreState) (f : RF) (n : Nat := 1) (i : Nat := 0) : CoreState :=
  let c1 := c.put f (min f.max (c.get f i + n)) i
  { c1 with cyc.counted := addCount c1.cyc.counted (f.key i) n true }

/-- Count on in a field that wraps. -/
def CoreState.wrap (c : CoreState) (f : RF) (n : Nat := 1) (i : Nat := 0) : CoreState :=
  let c1 := c.put f (c.get f i + n) i
  { c1 with cyc.counted := addCount c1.cyc.counted (f.key i) n false }

/-- Hardware sets a sticky bit; software that clears it in the same tick does not (R10, class W1C). -/
def CoreState.raise (c : CoreState) (f : RF) (i : Nat := 0) : CoreState :=
  let c1 := c.put f 1 i
  { c1 with cyc.raised := (f.addr i, f.lo) :: c1.cyc.raised }

/-- Do something at most once in a tick, under its number among the core's counters of ticks (R135, R270, R445). -/
def CoreState.once (c : CoreState) (k : Nat) (f : CoreState → CoreState) : CoreState :=
  if k ∈ c.cyc.stalls then c
  else { f c with cyc.stalls := k :: c.cyc.stalls }

/-- The plain changes a field of R416 in the current tick: of the register at `off`, table entry `idx`. -/
def CoreState.moved (c : CoreState) (off : Nat) (idx : Nat := 0) : CoreState :=
  { c with cyc.moved := (off, idx) :: c.cyc.moved }

/-! Registers of the plain and shoal windows, by CSR address. -/

/-- The register at a CSR address of the plain or a shoal window. -/
def State.reg (s : State) (a : Nat) : Reg64 := Sparse.get (plainReset a) s.regs a

/-- Set the register at a CSR address of the plain or a shoal window. -/
def State.setReg (s : State) (a : Nat) (v : Reg64) : State :=
  { s with regs := Sparse.set (plainReset a) s.regs a v }

/-- A field of register number `i` of its kind (for a shoal register, `i` is the shoal). -/
def State.get (s : State) (f : RF) (i : Nat := 0) : Nat := field (s.reg (f.addr i)) f.hi f.lo

/-- Set a field of register number `i` of its kind. -/
def State.put (s : State) (f : RF) (x : Nat) (i : Nat := 0) : State :=
  s.setReg (f.addr i) (setField (s.reg (f.addr i)) f.hi f.lo x)

/-- A one-bit field. -/
def State.flag (s : State) (f : RF) (i : Nat := 0) : Bool := s.get f i == 1

/-- A field as it stood at the start of the current tick: of a selector, which a data access uses so (R422), and of PRT_CTL and a
perturbation point (R442). -/
def State.sel (s : State) (f : RF) (i : Nat := 0) : Nat :=
  match s.cyc.sels.find? (fun x => x.1 == f.addr i) with
  | some x => field x.2 f.hi f.lo
  | none => s.get f i

/-- Software writes such a register: in the rest of the tick the value before the first such write still counts. -/
def State.keepSel (s : State) (a : Nat) : State :=
  if s.cyc.sels.any (fun x => x.1 == a) then s else { s with cyc.sels := (a, s.reg a) :: s.cyc.sels }

/-- Count on in a field that saturates. -/
def State.bump (s : State) (f : RF) (n : Nat := 1) (i : Nat := 0) : State :=
  let s1 := s.put f (min f.max (s.get f i + n)) i
  { s1 with cyc.counted := addCount s1.cyc.counted (f.key i) n true }

/-- Count on in a field that wraps. -/
def State.wrap (s : State) (f : RF) (n : Nat := 1) (i : Nat := 0) : State :=
  let s1 := s.put f (s.get f i + n) i
  { s1 with cyc.counted := addCount s1.cyc.counted (f.key i) n false }

/-- Hardware gives a counter the value `x`, having counted `n` (R10). -/
def State.counted (s : State) (f : RF) (x n : Nat) (i : Nat := 0) : State :=
  let s1 := s.put f x i
  { s1 with cyc.counted := addCount s1.cyc.counted (f.key i) n (countedIn s1.cyc.counted (f.key i)).2 }

/-- Hardware sets a sticky bit; software that clears it in the same tick does not (R10, class W1C). -/
def State.raiseFlag (s : State) (f : RF) (i : Nat := 0) : State :=
  let s1 := s.put f 1 i
  { s1 with cyc.raised := (f.addr i, f.lo) :: s1.cyc.raised }

/-- Hardware sets bit `b` of a field of sticky bits (R10, class W1C). -/
def State.raiseBit (s : State) (f : RF) (b : Nat) (i : Nat := 0) : State :=
  let s1 := s.put f (setBits (s.get f i) b b 1) i
  { s1 with cyc.raised := (f.addr i, f.lo + b) :: s1.cyc.raised }

/-- The plain changes a field of R416 in the current tick, of the register at address `a`. -/
def State.moved (s : State) (a : Nat) : State := { s with cyc.moved := a :: s.cyc.moved }

/-- The role epoch of a bay is about to change: landings of the tick still see the one before it (R297). -/
def State.keepRole (s : State) (b epoch : Nat) : State :=
  if s.cyc.roles.any (fun x => x.1 == b) then s else { s with cyc.roles := (b, epoch) :: s.cyc.roles }

/-! Cores by number. -/

/-- Physical core of a shoal that serves position `pos` (SHL_PHYS, R8, R317). -/
def State.physAt (s : State) (shoal pos : Nat) : Nat :=
  if pos < 12 then bits (s.get F.shlPhysLo_pos011 shoal) (5 * pos + 4) (5 * pos)
  else bits (s.get F.shlPhysHi_pos1215 shoal) (5 * (pos - 12) + 4) (5 * (pos - 12))

/-- The place in `cores` of a logical core: shoal * 17 + physical number (R7, R8). -/
def State.phys (s : State) (core : Nat) : Nat := core / 16 * 17 + s.physAt (core / 16) (core % 16)

/-- The core kept at a physical place. -/
def State.core (s : State) (p : Nat) : CoreState := Sparse.get CoreState.reset s.cores p

/-- Replace the core at a physical place. -/
def State.setCore (s : State) (p : Nat) (c : CoreState) : State :=
  { s with cores := Sparse.set CoreState.reset s.cores p c }

/-- Change the core at a physical place. -/
def State.modCore (s : State) (p : Nat) (f : CoreState → CoreState) : State := s.setCore p (f (s.core p))

/-- The logical core a physical place serves: none for a spare or a failed core. -/
def State.logical (s : State) (p : Nat) : Option Nat :=
  ((List.range 16).find? (fun pos => s.physAt (p / 17) pos == p % 17)).map (fun pos => p / 17 * 16 + pos)

/-- The logical cores of a shoal. -/
def shoalCores (shoal : Nat) : List Nat := List.range' (shoal * 16) 16

/-- A shoal the loaded image makes usable (Table 1-4, R14). -/
def State.usable (s : State) (shoal : Nat) : Bool :=
  if shoal < 64 then bit (s.get F.plnGeom2_shoalMaskLo) shoal else bit (s.get F.plnGeom3_shoalMaskHi) (shoal - 64)

/-! Bays. -/

/-- BAY_CTL.STATE 1 READY or 2 RETIRING: the states in which a bay holds its shoals (R357). -/
def State.bayHolds (s : State) (b : Nat) : Bool := s.get F.bayCtl_state b == 1 || s.get F.bayCtl_state b == 2

/-- The shoal is in the bay's shoal set. -/
def State.bayNames (s : State) (b shoal : Nat) : Bool :=
  if shoal < 64 then bit (s.get F.bayShoalsLo_shoalsLo b) shoal else bit (s.get F.bayShoalsHi_shoalsHi b) (shoal - 64)

/-- The bay a shoal belongs to (R357); the lowest number where two would name it. -/
def State.bayOf (s : State) (shoal : Nat) : Option Nat :=
  (List.range 80).find? (fun b => s.bayHolds b && s.bayNames b shoal)

/-- The shoals of a bay. -/
def State.bayShoals (s : State) (b : Nat) : List Nat :=
  if s.bayHolds b then (List.range 80).filter (fun k => s.bayNames b k) else []

/-- The logical cores of a bay. -/
def State.bayCores (s : State) (b : Nat) : List Nat := (s.bayShoals b).flatMap shoalCores

/-- First and limit chunk of the basin carve-out a core is checked against (R357): the whole basin without a bay. -/
def State.carve (s : State) (shoal : Nat) : Nat × Nat :=
  match s.bayOf shoal with
  | some b => (s.get F.bayCarve0_basinBase b, s.get F.bayCarve0_basinLimit b)
  | none => (0, 393216)

/-- One free value used up. -/
def State.used (s : State) : State := { s with fresh := s.fresh + 1 }

/-! Outcomes. -/

/-- The outcomes of a command. -/
abbrev Out := Host.Outcome State Fault Refusal

/-- A command for a logical core: its effect on the core at its physical place (R7, R8), and a fault where there is no such core. -/
def onCore (core : Nat) (s : State) (f : Nat → CoreState → State) : Out :=
  if core < 1280 then .next (f (s.phys core) (s.core (s.phys core))) else .fault (.noSuchCore core)

/-- The shoal is held in reset by a partial reconfiguration (R393). -/
def State.reconfiguring (s : State) (shoal : Nat) : Bool := s.pr.any (fun r => r.shoal == shoal)

/-- The core is powered and executes: its shoal is usable and not being reconfigured, its island is not isolated, no wash runs
(R14, R70, R314, R393). -/
def State.live (s : State) (core : Nat) : Bool :=
  s.usable (core / 16) && !s.reconfiguring (core / 16) && !(s.core (s.phys core)).isolated && (s.core (s.phys core)).washEnd.isNone

/-- A command for a logical core that executes: without effect in a core that does not. -/
def onLive (core : Nat) (s : State) (f : Nat → CoreState → State) : Out :=
  onCore core s (fun p c => if s.live core then f p c else s)

end Sys2Proof.Machine
end

