-- ==== Sys2Proof/Machine/Ops.lean ====
section
/-! DEFINITION. The shared operations of a core: coves and tags, levels and watermarks, notices, faults, and the reads and
writes of a basin with tag checks, ECC, poison, accumulate windows and parity deltas. -/

namespace Sys2Proof.Machine

/-! ## Coves (R72 to R77) -/

/-- A cove as its registers describe it. -/
structure Cove where
  n : Nat
  base : Nat
  size : Nat
  slots : Nat
  tagBase : Nat
  deriving DecidableEq, Repr

/-- Cove `n` of a core. -/
def CoreState.cove (c : CoreState) (n : Nat) : Cove where
  n := n
  base := c.get F.coveCfg_base n
  size := 64 * 2 ^ c.get F.coveCfg_size n
  slots := c.get F.coveCfg_slots n
  tagBase := c.get F.coveAux_tagBase n

/-- Bytes of a cove. -/
def Cove.extent (v : Cove) : Nat := v.slots * v.size

/-- The address lies in the cove. -/
def Cove.has (v : Cove) (a : Nat) : Bool := decide (v.base ≤ a) && decide (a < v.base + v.extent)

/-- The enabled coves of a core. -/
def CoreState.coves (c : CoreState) : List Cove :=
  ((List.range 32).filter (fun n => c.flag F.coveCfg_enable n)).map c.cove

/-- The enabled cove an address lies in; none for untagged memory (R72). -/
def CoreState.coveAt (c : CoreState) (a : Nat) : Option Cove := c.coves.find? (fun v => v.has a)

/-- The slot of a cove an address lies in. -/
def Cove.slotOf (v : Cove) (a : Nat) : Nat := (a - v.base) / v.size

/-- The tag of slot `i` (R77). -/
def CoreState.tag (c : CoreState) (v : Cove) (i : Nat) : Tag := Sparse.get Tag.ebb c.tags (v.tagBase + i)

/-- A slot is free when it is EBB and not retained. -/
def Tag.free (t : Tag) : Bool := t.state == 0 && !t.retained

/-- Slots of a cove that are not free (R88). -/
def CoreState.level (c : CoreState) (v : Cove) : Nat :=
  ((List.range v.slots).filter (fun i => !(c.tag v i).free)).length

/-- Walk round a ring of `n` slots from `p` while `go` holds and `stop` is not met; the first argument bounds the walk. -/
def ringWalk (k n stop : Nat) (go : Nat → Bool) (p : Nat) : Nat :=
  match k with
  | 0 => p
  | k + 1 => if p ≠ stop ∧ go p then ringWalk k n stop go ((p + 1) % n) else p

/-- HEAD and TAIL after slot `i` changed between free and not free (R88). -/
def CoreState.movePtrs (c : CoreState) (v : Cove) (i : Nat) (was : Bool) : CoreState :=
  let head := c.get F.covePtr_head v.n
  let tail := c.get F.covePtr_tail v.n
  let isFree := (c.tag v i).free
  if was ∧ !isFree ∧ i = head then
    c.put F.covePtr_head (ringWalk v.slots v.slots tail (fun p => !(c.tag v p).free) ((head + 1) % v.slots)) v.n
  else if !was ∧ isFree ∧ i = tail then
    c.put F.covePtr_tail (ringWalk v.slots v.slots head (fun p => (c.tag v p).free) ((tail + 1) % v.slots)) v.n
  else c

/-- The tags at the start of the tick of those that have changed in it, with one more recorded (R78). -/
def noteTag (l : List (Nat × Tag)) (i : Nat) (t : Tag) : List (Nat × Tag) := if l.any (fun x => x.1 == i) then l else l ++ [(i, t)]

/-- The tag of slot `i` as a tag stage of the current tick sees it: every change made before the tick and none made in it (R78). -/
def CoreState.tagSeen (c : CoreState) (v : Cove) (i : Nat) : Tag :=
  match c.cyc.tagsAt.find? (fun x => x.1 == v.tagBase + i) with
  | some x => x.2
  | none => c.tag v i

/-- Give slot `i` a tag; the pointers follow (R88). DEDUCED, log entry 119: they follow each change of a tick in turn. -/
def CoreState.setTag (c : CoreState) (v : Cove) (i : Nat) (t : Tag) : CoreState :=
  ({ c with
      tags := Sparse.set Tag.ebb c.tags (v.tagBase + i) t
      cyc.tagsAt := noteTag c.cyc.tagsAt (v.tagBase + i) (c.tag v i) } : CoreState).movePtrs v i (c.tag v i).free

/-- The cove is held (R84). -/
def CoreState.held (c : CoreState) (v : Cove) : Bool := c.flag F.coveCtl_hold v.n

/-- The 16 bits of a producer's identity that registers show (Table 16-5). -/
def producerShown (p : Producer) : Nat := p.kind * 4096 + p.ident % 4096

/-- The shown claimant of a tag. -/
def Tag.shown (t : Tag) : Nat := match t.claimant with
  | none => 0
  | some p => producerShown p

/-! ## Notices (R334) -/

/-- Places of a notice queue: 64 of a shoal, 256 of the lead pilot (queue 80). -/
def noticePlaces (q : Nat) : Nat := if q < 80 then 64 else 256

/-- Notices of a queue raised in the current tick: its last ones, which it does not show yet. -/
def State.freshNotices (s : State) (q : Nat) : Nat := s.cyc.noticed.count q

/-- The order of notices raised in one tick: by core, then cove, then KIND, for the lead pilot then window and CID. -/
def Notice.before (a b : Notice) : Bool :=
  decide (a.core < b.core) || (a.core == b.core && (decide (a.cove < b.cove) || (a.cove == b.cove && (decide (a.kind < b.kind) ||
    (a.kind == b.kind && (decide (a.window < b.window) || (a.window == b.window && decide (a.cid < b.cid))))))))

/-- Put a notice into its place among those of the tick. -/
def insertNotice (l : List Notice) (n : Notice) : List Notice :=
  match l with
  | [] => [n]
  | x :: rest => if n.before x then n :: x :: rest else x :: insertNotice rest n

/-- Queue a notice for the pilot of a shoal, or for the lead pilot (80). The end of the tick takes out those that find the queue full
(`settleNotices`), since a POP of the tick frees its place first (R419). -/
def State.notify (s : State) (q : Nat) (n : Notice) : State :=
  let l := Sparse.get [] s.notices q
  let old := l.length - s.freshNotices q
  { s with
    notices := Sparse.set [] s.notices q (l.take old ++ insertNotice (l.drop old) n)
    cyc.noticed := q :: s.cyc.noticed }

/-- At the end of a tick the notices beyond the places of a queue are dropped, and OVF sets (R334). -/
def State.settleNotices (s : State) (q : Nat) : State :=
  let l := Sparse.get [] s.notices q
  if l.length ≤ noticePlaces q then s
  else
    let s1 : State := { s with notices := Sparse.set [] s.notices q (l.take (noticePlaces q)) }
    if q < 80 then s1.raiseFlag F.shlNotice_ovf q else s1.raiseFlag F.plnNoticeLo_ovf

/-- A notice about a cove of a core goes to its shoal pilot. -/
def State.notifyCove (s : State) (core cove kind : Nat) : State :=
  if core < 1280 then s.notify (core / 16) ⟨kind, core, cove, s.now, 0, 0, 0⟩ else s

/-! ## Faults (R216 to R220, R439) -/

/-- What a fault record holds beside the time and the context. `count` is the issue number of the word whose operation faults:
none for one not yet issued. -/
structure FaultInfo where
  cls : Nat
  unit : Nat
  tag : BitVec 24
  off : Nat
  imm : Nat := 0
  claimant : Nat := 0
  addr : Option Nat := none
  count : Option Nat := none
  deriving DecidableEq, Repr

/-- Class codes of Table 7-6 and Table 11-1. -/
def clsBounds : Nat := 1
def clsDecode : Nat := 2
def clsTimeout : Nat := 3
def clsPoison : Nat := 4
def clsForeign : Nat := 5
def clsShape : Nat := 6
def clsBreach : Nat := 7
def clsResidue : Nat := 8
def clsDenied : Nat := 9
def clsTrap : Nat := 10
def clsLink : Nat := 12
def clsIsland : Nat := 13

/-- A hardware class (R220). -/
def isHardware (cls : Nat) : Bool := cls == 8 || cls == 12 || cls == 13

/-- Write the fault record and stop issue (R218, R439). -/
def CoreState.writeFault (c : CoreState) (now : Nat) (ctx : Nat) (f : FaultInfo) : CoreState :=
  let c1 := c.setReg 0x10 (BitVec.ofNat 64
    (f.tag.toNat * 2 ^ 40 + f.off % 2 ^ 18 * 2 ^ 22 + f.unit % 16 * 2 ^ 18 + ctx % 1024 * 256 + f.cls))
  let c2 := c1.setReg 0xc20 (BitVec.ofNat 64
    (f.imm % 65536 * 2 ^ 48 + f.claimant % 65536 * 2 ^ 32 + (match f.addr with | some a => 2 ^ 31 + a % 2 ^ 25 | none => 0)))
  let c3 := (c2.setReg 0xc28 (BitVec.ofNat 64 now)).put F.corCtl_faulted 1
  { c3 with iss.running := false, iss.stopping := true }

/-- The core stops issuing. -/
def CoreState.haltIssue (c : CoreState) : CoreState := { c.put F.corSclStat_waiting 0 with iss.running := false, iss.stopping := true }

/-- Record a program fault unless the core holds a fault already, or ends because its context is lost (R219); of the faults of
one cycle that of the operation issued earliest stays. Issue stops in every case (R218, R220). -/
def CoreState.faultCtx (c : CoreState) (now ctx : Nat) (f : FaultInfo) : CoreState :=
  let k := f.count.getD (c.iss.count + 1)
  let first : Bool := match c.cyc.faulted with
    | some j => decide (k < j)
    | none => !c.flag F.corCtl_faulted
  if first && !(c.iss.lost && ctx == c.get F.corCtl_ctx) then { (c.haltIssue.writeFault now ctx f) with cyc.faulted := some k }
  else c.haltIssue

/-- Record a program fault of the context the core runs. -/
def CoreState.fault (c : CoreState) (now : Nat) (f : FaultInfo) : CoreState :=
  c.faultCtx now (c.get F.corCtl_ctx) f

/-- Record a hardware fault of the core of logical number `core` (R220): it replaces a program fault of the same tick or of
the same step before its fence, and not an earlier hardware fault. `stepAt` is the start of the core's step. -/
def CoreState.hwFault (c : CoreState) (now : Nat) (stepAt : Option Nat) (f : FaultInfo) : CoreState :=
  let at_ := (c.reg 0xc28).toNat
  let fresh := match stepAt with
    | some t => decide (t ≤ at_)
    | none => decide (at_ = now)
  if c.flag F.corCtl_faulted && (isHardware (c.get F.corFault_class) || !fresh) then
    c.haltIssue
  else { (c.haltIssue.writeFault now (c.get F.corCtl_ctx) f) with cyc.faulted := none }

/-- A fault of an operation of a word, found in a unit. -/
def CoreState.faultWord (c : CoreState) (now cls unit : Nat) (w : WordCtx) (addr : Option Nat := none)
    (claimant : Nat := 0) : CoreState :=
  c.fault now { cls, unit, tag := w.tag, off := w.off / 4, addr, claimant, count := some w.count }

/-- A faulted core, one of a lost context, or one cut at its fence ends an operation that would begin a wait (R218, R219, R265,
R313). -/
def CoreState.ending (c : CoreState) : Bool := c.flag F.corCtl_faulted || c.iss.lost || c.iss.cut

/-- A restore routine that writes the basin or a tier, releases, sends or posts breaks R318. -/
def CoreState.breaks (c : CoreState) (b : Bool) : CoreState := if c.iss.restoring && b then { c with iss.broke := true } else c

/-- An operation begins to wait, or is abandoned in a core whose operations end. -/
def CoreState.wait (c : CoreState) (w : Wait) : CoreState :=
  if c.ending then c else { c with waits := if w ∈ c.waits then c.waits else c.waits ++ [w] }

/-- The waits of an operation are over. -/
def CoreState.unwait (c : CoreState) (unit : Nat) (w : WordCtx) : CoreState :=
  { c with waits := c.waits.filter (fun x => !(x.unit == unit && x.w == w)) }

/-! ## Watermarks (R95, R96) -/

/-- The number of a cove's PEAK_CLR among what a core does in a tick (R419). -/
def peakKey (cove : Nat) : Nat := 64 + cove

/-- End of a cycle for one cove: PEAK, which after a PEAK_CLR of the cycle is the LEVEL (R419), and a crossing of WM with its notice. -/
def State.watermark (s : State) (p core : Nat) (v : Cove) : State :=
  let c := s.core p
  let l := c.level v
  let prev := Sparse.get 0 c.lastLevel v.n
  let wm := c.get F.coveAux_wm v.n
  let c1 := c.put F.coveStat_peak (if peakKey v.n ∈ c.cyc.stalls then l else max l (c.get F.coveStat_peak v.n)) v.n
  let c2 : CoreState := { c1 with lastLevel := Sparse.set 0 c1.lastLevel v.n l }
  let up := decide (0 < wm ∧ prev < wm ∧ wm ≤ l)
  let down := decide (0 < wm ∧ wm ≤ prev ∧ l < wm)
  let c3 := if up then (c2.raise F.coveStat_up v.n).bump F.coveStat_crossCount 1 v.n
    else if down then (c2.raise F.coveStat_down v.n).bump F.coveStat_crossCount 1 v.n else c2
  let s1 := s.setCore p c3
  if (up || down) && c.flag F.coveCfg_noteEn v.n then s1.notifyCove core v.n (if up then 0 else 1) else s1

/-- End of a cycle for a core: every enabled cove in ascending order (R95, R334). -/
def State.endCycle (s : State) (p core : Nat) : State :=
  (s.core p).coves.foldl (fun s v => s.watermark p core v) s

/-! ## The configuration mirror (R311) -/

/-- A field of a logical core's register as last written. -/
def State.mirrorPut (s : State) (core : Nat) (f : RF) (x : Nat) (i : Nat := 0) : State :=
  let off := f.addr i
  let old := Sparse.get (coreReset off) s.mirror (core * 4096 + off)
  { s with mirror := Sparse.set (coreReset off) s.mirror (core * 4096 + off) (setField old f.hi f.lo x) }

/-! ## Chunks, words and ECC (R36 to R39, R53 to R56) -/

/-- Bytes of a basin. -/
def basinBytes : Nat := 0x1800000

/-- The chunk an address lies in, as the address of its first byte. -/
def chunkOf (a : Nat) : Nat := a / 64 * 64

/-- The bank of a chunk: chunk k of row r of a ledge lies in bank (k + r) mod 16 (R39); banks of all ledges get distinct numbers. -/
def bankOf (a : Nat) : Nat := a / 2 ^ 21 * 16 + (a / 64 % 16 + a / 1024 % 2048) % 16

/-- Ledge of an address. -/
def ledgeOf (a : Nat) : Nat := a / 2 ^ 21

/-- Read basin bytes as they stand. -/
def CoreState.peek (c : CoreState) (a n : Nat) : List Byte := Bytes.read 0 c.basin a n

/-- The chunk is poisoned. -/
def CoreState.poisoned (c : CoreState) (a : Nat) : Bool := decide (a / 64 ∈ c.poison)

/-- Set or clear a chunk's poison bit; a chunk whose poison is cleared carries none from a tier or a strait any more (R56). -/
def CoreState.setPoison (c : CoreState) (a : Nat) (b : Bool) : CoreState :=
  { c with
    poison := if b then insertNat c.poison (a / 64) else eraseNat c.poison (a / 64)
    alien := if b then c.alien else eraseNat c.alien (a / 64) }

/-- Data that carries poison from a tier or a strait has touched the chunk: it is never rebuilt from parity (R56). -/
def CoreState.alienate (c : CoreState) (a : Nat) : CoreState := { c with alien := insertNat c.alien (a / 64) }

/-- The chunk carries poison that is never rebuilt from parity (R56). -/
def CoreState.foreign (c : CoreState) (a : Nat) : Bool := decide (a / 64 ∈ c.alien)

/-- Words with an error in a chunk: (word address, uncorrectable). -/
def CoreState.errorsIn (c : CoreState) (a : Nat) : List (Nat × Bool) := c.ecc.filter (fun e => e.1 / 64 == a / 64)

/-- The lowest address of a list of erroneous words. -/
def lowestWord (l : List (Nat × Bool)) : Option Nat :=
  l.foldl (fun acc e => some (match acc with | none => e.1 | some a => min a e.1)) none

/-- Count errors (R54, R55), and record one of those found in the core in this cycle: an uncorrectable word before a
corrected one, then the lowest address. -/
def CoreState.countErrors (c : CoreState) (es : List (Nat × Bool)) : CoreState :=
  let ues := es.filter (fun e => e.2)
  let ces := es.filter (fun e => !e.2)
  let seen := c.cyc.errs ++ es
  let c0 : CoreState := { c with cyc.errs := seen }
  let c1 := (c0.bump F.ldgEcc_ceCount ces.length).bump F.ldgEcc_ueCount ues.length
  match lowestWord (seen.filter (fun e => e.2)), lowestWord (seen.filter (fun e => !e.2)) with
  | some a, _ => (c1.put F.ldgEcc_lastUe 1).put F.ldgEcc_lastAddr a
  | none, some a => (c1.put F.ldgEcc_lastUe 0).put F.ldgEcc_lastAddr a
  | none, none => c1

/-- The address lies in an enabled cove with SHADOW 1. -/
def CoreState.shadowed (c : CoreState) (a : Nat) : Bool :=
  match c.coveAt a with
  | some v => c.flag F.coveCfg_shadow v.n
  | none => false

/-- The address lies in a folded shadowed cove (R306). -/
def CoreState.folded (c : CoreState) (a : Nat) : Bool :=
  match c.coveAt a with
  | some v => c.flag F.coveCfg_shadow v.n && bit (c.get F.corShadow_folded) v.n
  | none => false

/-- A FOLD or UNFOLD of the range is queued or under way: writes to it wait (R310). -/
def CoreState.foldPending (c : CoreState) (a : Nat) : Bool :=
  (c.ldgQ ++ c.ldgExec.toList).any (fun i => match i with
    | .fold _ b l _ => decide (b ≤ a ∧ a < b + l)
    | .unfold _ b l _ => decide (b ≤ a ∧ a < b + l)
    | .cmd _ _ _ _ _ => false)

/-! ## Governor charges (R71, R270, R309) -/

/-- Charge quarters of a chunk unit in the current slice, to the shoal of the physical place `p`. -/
def State.charge (s : State) (p quarters : Nat) : State :=
  { s with
    gov.cur := s.gov.cur + quarters
    gov.spent := Sparse.set 0 s.gov.spent (p / 17) (Sparse.get 0 s.gov.spent (p / 17) + quarters) }

/-! ## The parity reserve (R306 to R310) -/

/-- The place of the spare of a shoal; none when SPARE reads 31. -/
def State.spare (s : State) (shoal : Nat) : Option Nat :=
  if s.get F.shlPhysHi_spare shoal = 31 then none else some (shoal * 17 + s.get F.shlPhysHi_spare shoal)

/-- Change the spare of a shoal, where it has one. -/
def State.modReserve (s : State) (shoal : Nat) (f : CoreState → CoreState) : State :=
  match s.spare shoal with
  | none => s
  | some p => s.modCore p f

/-- XOR of two byte strings. -/
def xorBytes (a b : List Byte) : List Byte := List.zipWith (· ^^^ ·) a b

/-- The reserve XORs a delta into its parity (R306, R308). -/
def State.applyDelta (s : State) (shoal : Nat) (d : Delta) : State :=
  match s.spare shoal with
  | none => s
  | some p => s.modCore p (fun r =>
      ({ r with basin := Bytes.write 0 r.basin d.addr (xorBytes (r.peek d.addr 64) d.data) } : CoreState).setPoison d.addr
        (r.poisoned d.addr != d.poison))

/-- Places of a delta queue of one ledge (R307). -/
def deltaPlaces : Nat := 8

/-- Put a delta into the queue of its ledge; in a queue that is full the oldest moves to the reserve first (R307, R308). -/
def State.pushDelta (s : State) (p : Nat) (d : Delta) : State :=
  let c := (s.core p).wrap F.corShadow_deltas
  let q := Sparse.get [] c.deltas (ledgeOf d.addr)
  match q with
  | [] => s.setCore p { c with deltas := Sparse.set [] c.deltas (ledgeOf d.addr) [d] }
  | o :: rest =>
    if q.length < deltaPlaces then s.setCore p { c with deltas := Sparse.set [] c.deltas (ledgeOf d.addr) (q ++ [d]) }
    else (s.setCore p { c with deltas := Sparse.set [] c.deltas (ledgeOf d.addr) (rest ++ [d]) }).applyDelta (p / 17) o

/-! ## Writing a basin -/

/-- Write bytes inside one chunk as they come, with check bits, poison (R53, R56) and the parity delta (R307). `bad` marks
data that arrives poisoned. -/
def State.poke (s : State) (p a : Nat) (bs : List Byte) (bad : Bool) : State :=
  let c := s.core p
  let ch := chunkOf a
  let old := c.peek ch 64
  let wasBad := c.poisoned ch
  let c1 : CoreState := { c with
    basin := Bytes.write 0 c.basin a bs
    ecc := c.ecc.filter (fun e => !(decide (a / 8 * 8 ≤ e.1) && decide (e.1 < a + bs.length))) }
  let c2 := c1.setPoison ch (bad || (wasBad && decide (bs.length < 64)))
  let s1 := s.setCore p c2
  if c.folded ch then
    s1.pushDelta p ⟨ch, xorBytes old (c2.peek ch 64), wasBad != c2.poisoned ch⟩
  else s1

/-- Ports whose writes an open window adds (R63): estuary, vector, scalar and DMA. -/
def portAccumulates (p : Port) : Bool :=
  match p with
  | .estWrite => true | .vecWrite => true | .sclWrite => true | .dmaWrite => true
  | _ => false

/-- The window an address lies in. -/
def CoreState.windowAt (c : CoreState) (a : Nat) : Option AccWindow :=
  c.accWin.find? (fun w => decide (w.base ≤ a) && decide (a < w.base + w.len * 64))

/-- Add incoming elements to stored ones (R64): binary32, or bfloat16 through binary32. -/
def accumulate (isBf16 : Bool) (old new : List Byte) (n : Nat) : List Byte :=
  match n with
  | 0 => []
  | k + 1 =>
    if isBf16 then
      natBytes 2 (Fp.pack Fp.bf16 (Fp.add (Fp.unpack Fp.bf16 (bytesNat (old.take 2))) (Fp.unpack Fp.bf16 (bytesNat (new.take 2)))))
        ++ accumulate isBf16 (old.drop 2) (new.drop 2) k
    else
      natBytes 4 (Fp.addB Fp.f32 (bytesNat (old.take 4)) (bytesNat (new.take 4)))
        ++ accumulate isBf16 (old.drop 4) (new.drop 4) k

/-! Fields of a ledge-engine command (Table 2-6). -/

def ldgOp (lo : Reg64) : Nat := field lo 3 0
def ldgWin (lo : Reg64) : Nat := field lo 5 4
def ldgBf16 (lo : Reg64) : Bool := field lo 7 7 == 1
def ldgStampEn (lo : Reg64) : Bool := field lo 8 8 == 1
def ldgStamp (lo : Reg64) : BitVec 16 := BitVec.ofNat 16 (field lo 31 16)
def ldgDst (lo : Reg64) : Nat := field lo 56 32
def ldgSrc (hi : Reg64) : Nat := field hi 24 0
def ldgPattern (hi : Reg64) : Nat := field hi 31 0
def ldgLen (hi : Reg64) : Nat := field hi 50 32

/-- The number of words that had issued before the ACC_CLOSE of a window was queued, once one executes or waits: writes of
later words store plainly (R65). -/
def CoreState.closeBefore (c : CoreState) (w : AccWindow) : Option Nat :=
  (c.ldgExec.toList ++ c.ldgQ).findSome? (fun i => match i with
    | .cmd lo _ _ before _ => if ldgOp lo = 4 ∧ ldgWin lo = w.win then some before else none
    | _ => none)

/-- The open window that adds a port's write to the address (R63, R65). `count` is the issue number of the word; none for
writes from outside the core. -/
def CoreState.adding (c : CoreState) (port : Port) (count : Option Nat) (a : Nat) : Option AccWindow :=
  if portAccumulates port then
    (c.windowAt a).filter (fun w => match c.closeBefore w, count with
      | some n, some k => decide (k < n)
      | _, _ => true)
  else none

/-- The writes the core's ports have under way (R60). -/
def CoreState.aheadNow (c : CoreState) : Ahead where
  accs := (c.accesses.filter (fun a => a.write)).map (fun a => a.serial) ++ (c.banking.filter (fun b => b.acc.write)).map (fun b => b.acc.serial)
  words := (c.exec.filter (fun x => !x.pend.isEmpty)).map (fun x => x.w)

/-- Charge of a write of pieces, each inside one chunk, in quarters of a unit (R71, R309). -/
def CoreState.writeCharge (c : CoreState) (port : Port) (count : Option Nat) (l : List Piece) : Nat :=
  (l.map (fun x => (if (c.adding port count x.addr).isSome then 8 else 4) + (if c.folded x.addr then 8 else 0))).foldl (· + ·) 0

/-- Bytes `y` written over the run of bytes `x`, where they meet. -/
def overlay (x y : Piece) : Piece :=
  { x with bytes := x.bytes.zipIdx.map (fun b =>
      if y.addr ≤ x.addr + b.2 then (y.bytes[x.addr + b.2 - y.addr]?).getD b.1 else b.1) }

/-- Basin bytes with the sums that accumulate-on-writes have formed and have still to write (R64: the engine forwards each
sum to the next add). -/
def CoreState.peekSums (c : CoreState) (a n : Nat) : List Byte :=
  (c.banking.foldl (fun (x : Piece) (b : Banking) => (b.sums.getD []).foldl overlay x) ⟨a, c.peek a n⟩).bytes

/-- The sum an accumulate-on-write makes at an address (R64). -/
def CoreState.sumAt (c : CoreState) (bf16 : Bool) (a : Nat) (bs : List Byte) : List Byte :=
  accumulate bf16 (c.peekSums a bs.length) bs (if bf16 then bs.length / 2 else bs.length / 4)

/-- A sum written over what accumulate-on-writes have still to write, so that none is lost (R64). -/
def CoreState.forward (c : CoreState) (x : Piece) : CoreState :=
  { c with banking := c.banking.map (fun b => { b with sums := b.sums.map (fun l => l.map (fun y => overlay y x)) }) }

/-- Poison that arrives with a DMA write never leaves its chunk by a rebuild (R56). DEDUCED, log entry 121: whether the data
comes from a tier, a strait or another core of the plain. -/
def State.arrived (s : State) (p : Nat) (port : Port) (a : Nat) (bad : Bool) : State :=
  if bad && port == .dmaWrite then s.modCore p (fun c => c.alienate a) else s

/-- A port's write inside one chunk reaches the banks: added where an open window takes it (R63 to R65), stored elsewhere. -/
def State.land (s : State) (p : Nat) (port : Port) (count : Option Nat) (a : Nat) (bs : List Byte) (bad : Bool) : State :=
  let c := s.core p
  (match c.adding port count a with
    | some w =>
      let sum := c.sumAt w.bf16 a bs
      (s.setCore p (c.forward ⟨a, sum⟩)).poke p a sum (bad || c.poisoned a)
    | none => s.poke p a bs bad).arrived p port a bad

/-- Write a list of pieces, each inside one chunk; `bad` are the chunks whose data arrives poisoned. -/
def State.landAll (s : State) (p : Nat) (port : Port) (count : Option Nat) (bad : List Nat) (l : List Piece) : State :=
  l.foldl (fun s x => s.land p port count x.addr x.bytes (decide (chunkOf x.addr ∈ bad))) s

/-- Cut a run of bytes at an address into pieces that lie inside chunks. The first argument bounds their number. -/
def cutPieces (k a : Nat) (bs : List Byte) : List Piece :=
  match k with
  | 0 => []
  | k + 1 =>
    if bs.isEmpty then []
    else
      let n := 64 - a % 64
      ⟨a, bs.take n⟩ :: cutPieces k (a + n) (bs.drop n)

/-- The pieces of a run of bytes. -/
def pieces (a : Nat) (bs : List Byte) : List Piece := cutPieces (bs.length / 64 + 2) a bs

/-! ## Reading a basin (Table 2-5) -/

/-- Who reads: it decides what poison and uncorrectable words do. A `word` is an engine read of one aligned 8-byte word. -/
inductive Reader where
  | engine | word | dma | copy | acc | debug
  deriving DecidableEq, Repr

/-- The reader faults on poison (Table 2-5). -/
def Reader.faults (r : Reader) : Bool := r == .engine || r == .word

/-- The address under which a read of a chunk, or of a word, is met. -/
def Reader.unit (r : Reader) (a : Nat) : Nat := if r = .word then a / 8 * 8 else chunkOf a

/-- What a reader meets in a chunk. -/
inductive Met where
  | clean | marked | stall | poison
  deriving DecidableEq, Repr

/-- A read of a chunk: errors are counted; an uncorrectable word poisons its chunk, and in a shadowed cove starts its repair,
which the read waits for; a poisoned chunk faults an engine read and marks the data of the others (Table 2-5, R54, R55). -/
def CoreState.meet (c : CoreState) (now : Nat) (r : Reader) (a : Nat) : Met × CoreState :=
  let ch := chunkOf a
  let es := (c.errorsIn ch).filter (fun e => r != .word || e.1 / 8 == a / 8)
  let c1 := c.countErrors es
  let ue := es.any (fun e => e.2)
  if c.poisoned ch then
    if c.repairs.any (fun x => x.addr == ch) then (if r = .debug then .marked else .stall, c)
    else if r.faults then (.poison, c1) else (.marked, c1)
  else if ue then
    if r = .debug then (.marked, c1)
    else if c.shadowed ch then
      (.stall, { (c1.setPoison ch true) with repairs := c1.repairs ++ [⟨ch, false, now⟩] })
    else if r.faults then (.poison, c1.setPoison ch true) else (.marked, c1.setPoison ch true)
  else (.clean, c1)

/-- The outcome of reading several chunks. -/
inductive Got where
  | data (marked : List Nat)
  | stall (a : Nat)
  | poison (a : Nat)
  deriving DecidableEq, Repr

/-- Read chunks together (R55): every one is met. One that must wait for a repair keeps the whole read waiting, and the errors
of the others count when it goes on; else the first poisoned one ends an engine's read. -/
def CoreState.meetAll (c : CoreState) (now : Nat) (r : Reader) (l : List Nat) : Got × CoreState :=
  let x := (l.map r.unit).eraseDups.foldl (fun (x : List (Nat × Met) × CoreState) a =>
    ((a, (x.2.meet now r a).1) :: x.1, (x.2.meet now r a).2)) ([], c)
  let met := x.1.reverse
  match met.find? (fun y => y.2 == .stall), met.find? (fun y => y.2 == .poison) with
  | some y, _ =>
    (.stall y.1, (met.filter (fun y => y.2 == .stall)).foldl (fun c y => (c.meet now r y.1).2) c)
  | none, some y => (.poison y.1, x.2)
  | none, none => (.data ((met.filter (fun y => y.2 == .marked)).map (fun y => y.1)), x.2)

/-- A read of chunks by a core of the plain: poison bits it sets in folded coves reach the parity as deltas (R307). -/
def State.meets (s : State) (p : Nat) (r : Reader) (l : List Nat) : Got × State :=
  let c := s.core p
  let x := c.meetAll s.now r l
  let fresh := (x.2.poison.filter (fun k => !decide (k ∈ c.poison) && c.folded (k * 64))).map (fun k => k * 64)
  (x.1, fresh.foldl (fun s a => s.pushDelta p ⟨a, List.replicate 64 0, true⟩) (s.setCore p x.2))

/-! ## Scalar registers (R191) and the addresses they form (R196) -/

/-- Read a scalar register; x0 reads 0 (R191). -/
def CoreState.x (c : CoreState) (r : Nat) : Word := if r = 0 then 0 else Sparse.get 0 c.xregs r

/-- A 16-bit immediate sign-extended. -/
def imm32 (i : BitVec 16) : Word := i.signExtend 32

/-- The basin address RA + IMM16 × 8, in 25 bits. -/
def CoreState.sclBasin (c : CoreState) (ra : Nat) (imm : BitVec 16) : Nat :=
  ((c.x ra).toNat + (imm32 imm).toNat * 8) % 2 ^ 25 / 8 * 8

/-! ## Tag checks (R78 to R84) -/

/-- Slots a list of chunk addresses touches: (cove, slot), each once. -/
def CoreState.slotsOf (c : CoreState) (l : List Nat) : List (Cove × Nat) :=
  (l.filterMap (fun a => (c.coveAt a).map (fun v => (v, v.slotOf a)))).eraseDups

/-- A tag-checked read may pass at a slot: cove not checked, or slot FLOOD with the expected stamp, and not held (R82, R84); every
read of a restore routine passes (R318). -/
def CoreState.readPasses (c : CoreState) (expect : Option (Nat × BitVec 16)) (x : Cove × Nat) : Bool :=
  let t := c.tagSeen x.1 x.2
  if c.iss.restoring then true
  else if c.flag F.coveCfg_check x.1.n then
    !c.held x.1 && t.state == 2 &&
      (match expect with
       | some (n, st) => if n = x.1.n then decide (t.stamp = st) else true
       | none => true)
  else true

/-- The slot lies wholly inside the window's range (R86). -/
def AccWindow.wholly (w : AccWindow) (v : Cove) (i : Nat) : Bool :=
  decide (w.base ≤ v.base + i * v.size) && decide (v.base + (i + 1) * v.size ≤ w.base + w.len * 64)

/-- The slot is claimed by an open accumulate window: writes from any producer are accepted there (R86). -/
def CoreState.windowSlot (c : CoreState) (x : Cove × Nat) : Bool :=
  c.accWin.any (fun w => w.stampEn && w.wholly x.1 x.2)

/-- The tag lets a producer's write pass: free, or claimed by that producer (R79). -/
def Tag.open (t : Tag) (pr : Producer) : Bool := t.free || (t.state == 1 && t.claimant == some pr)

/-- A write may pass at a slot (R79): free, or claimed by its own producer, or inside a window; never while the cove is held.
It sees the tag of the tick's start (R78), and of two producers that meet at a free slot in one tick the second waits (R80). -/
def CoreState.writePasses (c : CoreState) (pr : Producer) (x : Cove × Nat) : Bool :=
  !c.held x.1 && (c.windowSlot x || ((c.tagSeen x.1 x.2).open pr && (c.tag x.1 x.2).open pr))

/-- Slots that lie wholly inside a set of chunks (R179). -/
def CoreState.whollyIn (c : CoreState) (chunks : List Nat) : List (Cove × Nat) :=
  (c.slotsOf chunks).filter (fun x =>
    (List.range (x.1.size / 64)).all (fun k => decide (x.1.base + x.2 * x.1.size + k * 64 ∈ chunks)))

/-- The first slot of a list at which a check fails. -/
def firstFailing (l : List (Cove × Nat)) (ok : Cove × Nat → Bool) : Option (Cove × Nat) := l.find? (fun x => !ok x)

/-- Post a stamp to a slot: FLOOD with the stamp (R81). -/
def CoreState.post (c : CoreState) (stamp : BitVec 16) (x : Cove × Nat) : CoreState :=
  c.setTag x.1 x.2 { c.tag x.1 x.2 with state := 2, stamp := stamp }

/-- Claim a slot for a producer (R79). -/
def CoreState.claim (c : CoreState) (pr : Producer) (x : Cove × Nat) : CoreState :=
  if (c.tag x.1 x.2).free && !c.windowSlot x then
    c.setTag x.1 x.2 { c.tag x.1 x.2 with state := 1, claimant := some pr }
  else c

/-- Address of a slot. -/
def slotAddr (x : Cove × Nat) : Nat := x.1.base + x.2 * x.1.size

/-! ## Harbour windows on local slots (R101) -/

/-- The slots a window covers: FIRST to FIRST + COUNT − 1 modulo SLOTS. -/
def windowCovers (first count slots i : Nat) : Bool :=
  decide ((i + slots - first % slots) % slots < count)

/-- An open harbour window of this core covers the slot. -/
def State.inWindow (s : State) (core : Nat) (x : Cove × Nat) : Bool :=
  s.wins.any (fun w => s.flag F.hbrWinCtl_open w.1 && s.get F.hbrWinCfg_core w.1 == core &&
    s.get F.hbrWinCfg_cove w.1 == x.1.n &&
    windowCovers (s.get F.hbrWinCfg_first w.1) (s.get F.hbrWinCfg_count w.1) x.1.slots x.2)

/-! ## Step grids (R254) -/

/-- Runtime of a bay's grid. -/
def State.bay (s : State) (b : Nat) : BayRun := Sparse.get BayRun.idle s.bays b

/-- Change the runtime of a bay's grid. -/
def State.modBay (s : State) (b : Nat) (f : BayRun → BayRun) : State :=
  { s with bays := Sparse.set BayRun.idle s.bays b (f (s.bay b)) }

/-- The bay's step grid runs. -/
def State.armed (s : State) (b : Nat) : Bool := s.flag F.tidSched_arm b

/-- Frame length F in ns. -/
def State.frameLen (s : State) (b : Nat) : Nat := 2 ^ s.get F.tidSched_frameLog2 b

/-- Start S of the current step. -/
def State.stepStartAt (s : State) (b : Nat) : Nat := s.get F.tidStart_start b

/-- The step limit: the start of the guard frame. -/
def State.stepLimitAt (s : State) (b : Nat) : Nat := s.stepStartAt b + ((s.bay b).frames - 1) * s.frameLen b

/-- The end of the step, S + STEP_NS. -/
def State.stepEndAt (s : State) (b : Nat) : Nat := s.stepStartAt b + (s.bay b).frames * s.frameLen b

/-- The armed bay of a logical core. -/
def State.armedBay (s : State) (core : Nat) : Option Nat :=
  match s.bayOf (core / 16) with
  | some b => if s.armed b then some b else none
  | none => none

/-- While a step is fenced for mending or for a replay no deadline of its cores expires (R210). -/
def State.deadlinesHeld (s : State) (core : Nat) : Bool :=
  match s.armedBay core with
  | some b => (s.bay b).fenced || decide (s.now < s.stepStartAt b) || (s.bay b).restored
  | none => false

/-! ## Landings of DMA reads -/

/-- A TLOAD of core `p` issued before word `before` still has a chunk to land in the range (R65). -/
def State.landingInto (s : State) (p before base len : Nat) : Bool :=
  s.reqs.any (fun q => q.place == p && !q.write && decide (q.w.count < before) &&
    q.land.any (fun a => decide (base ≤ a) && decide (a < base + len)))

end Sys2Proof.Machine
end

