-- ==== Sys2Proof/Machine/Governor.lean ====
section
/-! DEFINITION. The power governor (R270 to R273) and the perturbation points (R440, R441): what admits, holds or delays an
access, and the slice command. -/

namespace Sys2Proof.Machine

/-- The window limit that the registers and THROTTLE_REQ ask for, in quarters of a chunk unit: FLOOR while THROTTLE_REQ is high,
else BUDGET. It applies from the next slice (R270, R273). -/
def State.govLimit (s : State) : Nat :=
  4 * (if s.pins.throttleReq then s.get F.tidGovCfg_floor else s.get F.tidGovCfg_budget)

/-- Charge of the previous 124 slices. -/
def State.govPast (s : State) : Nat := s.gov.past.foldl (· + ·) 0

/-- The window takes this charge (R270). -/
def State.govRoom (s : State) (charge : Nat) : Bool := decide (s.govPast + s.gov.cur + charge ≤ s.gov.limit)

/-- Deficit of a shoal. -/
def State.deficit (s : State) (shoal : Nat) : Nat := Sparse.get 0 s.gov.deficits shoal

/-- Deficits of the shoals served before this one in the current slice, which starts at `turn`. DEDUCED, log entry 120: what a
shoal may still admit in its turn is kept for it. -/
def State.servedFirst (s : State) (shoal : Nat) : Nat :=
  ((s.gov.deficits.filter (fun d => decide ((d.1 + 80 - s.gov.turn) % 80 < (shoal + 80 - s.gov.turn) % 80))).map (fun d => d.2)).foldl (· + ·) 0

/-- May an access of this shoal with this charge pass? The window must have room for it (R270, R273), and while accesses are
held its shoal's deficit must cover it, after the shoals whose turn comes before (R272). -/
def State.govAdmits (s : State) (shoal charge : Nat) : Bool :=
  if s.gov.throttling then decide (charge ≤ s.deficit shoal) && s.govRoom (charge + s.servedFirst shoal) else s.govRoom charge

/-- Admit a charge, from the shoal's deficit while the governor throttles. -/
def State.govAdmit (s : State) (shoal charge : Nat) : State :=
  let s1 := s.charge (shoal * 17) charge
  if s.gov.throttling then
    { s1 with gov.deficits := Sparse.set 0 s1.gov.deficits shoal (s.deficit shoal - charge),
              gov.admitted := insertNat s1.gov.admitted shoal }
  else s1

/-- Count a tick in which a place held something, once in a tick: place 0 to 79 a shoal, 80 the plain. -/
def State.heldOnce (s : State) (place : Nat) (count : State → State) : State :=
  if Sparse.get 0 s.gov.heldAt place = s.now + 1 then s
  else { count s with gov.heldAt := Sparse.set 0 s.gov.heldAt place (s.now + 1) }

/-- An access of a core is held: the counters of the core, its shoal and the plain (R270, R272). -/
def State.govHold (s : State) (p shoal : Nat) : State :=
  let s1 := s.modCore p (fun c => c.once 0 (fun c => c.bump F.corSlipSum_govHeld))
  let s2 := s1.heldOnce shoal (fun x => x.bump F.shlGov_heldNs 1 shoal)
  let s3 := s2.heldOnce 80 (fun x => (x.bump F.tidGovStat_throttledNs).put F.tidGovStat_throttle 1)
  { s3 with gov.held := insertNat s3.gov.held shoal, gov.throttling := true }

/-- An access of the core at physical place `p` asks for its charge (R270): whether it is admitted, and the state after. -/
def State.govAsk (s : State) (p charge : Nat) : Bool × State :=
  if s.govAdmits (p / 17) charge then (true, s.govAdmit (p / 17) charge) else (false, s.govHold p (p / 17))

/-- GOVERNOR_SLICE (R272): every 8 ns the window moves on by one slice, under the limit now asked for (R273); held shoals share
what the limit leaves, and their turn starts one shoal further on; a slice without a hold ends the throttling. -/
def execGovernorSlice (s : State) : Out :=
  if s.now % 8 = 0 then
    let past := (s.gov.cur :: s.gov.past).take 124
    let s1 : State := { s with gov.past := past, gov.cur := 0, gov.limit := s.govLimit }
    let n := s.gov.held.length
    let avail := s1.gov.limit - s1.govPast
    let s2 := s.gov.admitted.foldl (fun x k => x.wrap F.shlGov_turns 1 k) s1
    let deficits := s.gov.held.map (fun k => (k, s.deficit k + avail / n))
    let s3 : State := { s2 with
      gov.deficits := deficits.filter (fun d => d.2 != 0)
      gov.held := []
      gov.admitted := []
      gov.throttling := !s.gov.held.isEmpty
      gov.turn := (s.gov.turn + 1) % 80 }
    let s4 := s3.put F.tidGovStat_throttle (b2n (!s.gov.held.isEmpty))
    .next (s4.put F.tidGovStat_floorAct (b2n s4.pins.throttleReq))
  else .next s

/-! ## Perturbation -/

/-- The next value of a point's generator (R441, R155). -/
def State.prtNext (s : State) (point : Nat) : BitVec 32 :=
  let seed := BitVec.ofNat 32 (s.sel F.prtCtl_seed) ^^^ BitVec.ofNat 32 point
  let cur := match s.prtGen.find? (fun e => e.1 == point) with
    | some e => BitVec.ofNat 32 e.2.toNat
    | none => seed
  Mx.hashStep cur

/-- The hold of one event at a point: DELAY, the jitter of the generator's next value, and what DUTY refuses of every 256
(R441); with the generator advanced and PRT_STAT counted. DESIGN CHOICE, log entry 12: which of the 256 are refused. -/
def State.perturb (s : State) (point delay jit duty : Nat) (replay : Bool) : State × Nat :=
  if s.sel F.prtCtl_enable == 1 && !(s.sel F.prtCtl_spareReplay == 1 && replay) then
    let h := s.prtNext point
    let base := delay + (h.toNat / 65536) % (jit + 1)
    let slot := (s.now + base) % 256
    let hold := base + (if slot < duty then duty - slot else 0)
    let s1 : State := { s with prtGen := Sparse.set 0 s.prtGen point (BitVec.ofNat 64 (2 ^ 32 + h.toNat)) }
    (if hold = 0 then s1 else (s1.wrap F.prtStat_events).bump F.prtStat_heldNs hold, hold)
  else (s, 0)

/-- The bay of a shoal replays its step (TID_STEP.REPLAY). -/
def State.replaying (s : State) (shoal : Nat) : Bool :=
  match s.bayOf shoal with
  | some b => s.flag F.tidStep_replay b
  | none => false

end Sys2Proof.Machine
end

