-- ==== Sys2Proof/Machine/Basin.lean ====
section
/-! DEFINITION. Accesses at the banks of a basin (02_basin.md, 03_coves_and_tags.md): arbitration with its tag stage, the bank
cycle, read data at the ports, chunk repair and the shadow buses. -/

namespace Sys2Proof.Machine

/-! ## Port classes and leases -/

/-- Class code of a port (Table 2-3); a debug access arbitrates as DMA (R46 item 5). -/
def portClass (p : Port) : Nat :=
  match p with
  | .weight => 1 | .act => 2 | .estRead => 3 | .estWrite => 3 | .vecRead => 4 | .vecWrite => 4
  | .dmaRead => 5 | .dmaWrite => 5 | .debug => 5 | .sclRead => 6 | .sclWrite => 6 | .engine => 7

/-- Place in the order of R46 item 4. -/
def portRank (p : Port) : Nat :=
  match p with
  | .weight => 0 | .act => 1 | .estRead => 2 | .estWrite => 3 | .vecRead => 4 | .vecWrite => 5 | .sclRead => 6
  | .sclWrite => 7 | .dmaRead => 8 | .dmaWrite => 8 | .debug => 8 | .engine => 9

/-- Scheduled engine reads (Table 2-3). -/
def accScheduled (a : Access) : Bool :=
  !a.write && (match a.port with
    | .weight => true | .act => true | .estRead => true | .vecRead => true | .sclRead => true
    | _ => false)

/-- A write of the DMA class. -/
def accDmaWrites (a : Access) : Bool := a.write && portClass a.port == 5

/-- The active lease set is about to change. -/
def CoreState.noteLease (c : CoreState) (now : Nat) : CoreState := { c with leaseOld := c.leaseOld ++ [(now, c.get F.ldgLeaseAct_set)] }

/-- Make a lease set the active one (R43); the set before it still governs the accesses issued up to now. -/
def CoreState.setLease (c : CoreState) (now set : Nat) : CoreState :=
  ((c.noteLease now).put F.ldgLeaseAct_set set).moved F.ldgLeaseAct_set.base

/-- The set that governs an access issued in the given tick (R43): a change executed in a tick does not reach the accesses
issued in it. -/
def CoreState.setFor (c : CoreState) (issued : Nat) : Nat :=
  match c.leaseOld.find? (fun x => decide (issued ≤ x.1)) with
  | some x => x.2
  | none => c.get F.ldgLeaseAct_set

/-- HOLD nibble of a ledge in a set. -/
def CoreState.holdNibble (c : CoreState) (set ledge : Nat) : Nat := bits (c.get F.ldgLease_hold set) (4 * ledge + 3) (4 * ledge)

/-- The class that holds a ledge in a set; 0 unleased. The weight inlet holds at most the four lowest ledges given to it (R45). -/
def CoreState.holder (c : CoreState) (set ledge : Nat) : Nat :=
  let h := c.holdNibble set ledge
  if h = 1 ∧ 4 ≤ ((List.range ledge).filter (fun k => c.holdNibble set k == 1)).length then 0 else h

/-- The class is a guest in a set (LDG_LEASE.GUEST). -/
def CoreState.guest (c : CoreState) (set cls : Nat) : Bool := bit (c.get F.ldgLease_guest set) (cls - 1)

/-! ## Parts (R40) -/

/-- Chunk addresses an access still has to touch. -/
def accChunks (a : Access) : List Nat := (a.pieces.map (fun x => chunkOf x.addr)).eraseDups

/-- Part 1 of the chunks left: on each bank the lowest-addressed chunk (R40). -/
def partOf (chunks : List Nat) : List Nat :=
  chunks.filter (fun a => chunks.all (fun b => decide (bankOf b ≠ bankOf a ∨ a ≤ b)))

/-- The chunks of this cycle's part of an access. -/
def accPart (a : Access) : List Nat := partOf (accChunks a)

/-- The banks this cycle's part of an access wants. -/
def accBanks (a : Access) : List Nat := (accPart a).map bankOf

/-- The bytes of this cycle's part of an access. -/
def partPieces (a : Access) : List Piece := a.pieces.filter (fun x => decide (chunkOf x.addr ∈ accPart a))

/-! ## Who wins a bank (R46) -/

/-- Ledge of a bank number. -/
def bankLedge (b : Nat) : Nat := b / 16

/-- `a` comes before `b` in the order of R46 items 4 and 5. -/
def accBefore (a b : Access) : Bool :=
  if portRank a.port ≠ portRank b.port then decide (portRank a.port < portRank b.port)
  else if a.first ≠ b.first then decide (a.first.getD 0 < b.first.getD 0)
  else if (a.port == .debug) ≠ (b.port == .debug) then b.port == .debug
  else decide (a.serial < b.serial)

/-- First in the order of R46 among candidates. -/
def firstOf (l : List Access) : Option Access :=
  l.foldl (fun acc a => match acc with
    | none => some a
    | some b => if accBefore a b then some a else some b) none

/-- The winner of a bank (R46): a DMA write retried under R50; else a scheduled engine read beats DMA writes; then the
holder; then the fixed order. DEDUCED, log entry 122: where the holder is a DMA write, items 2 to 4 can beat each other round in
a ring of three accesses; item 2 then drops the DMA write first, and items 3 and 4 judge what is left. -/
def CoreState.winner (c : CoreState) (cands : List Access) (bank : Nat) : Option Access :=
  let here := cands.filter (fun a => decide (bank ∈ (accBanks a)))
  match here.find? (fun a => a.retry) with
  | some a => some a
  | none =>
    let l1 := if here.any accScheduled then here.filter (fun a => !(accDmaWrites a)) else here
    let l2 := l1.filter (fun a => portClass a.port == c.holder a.set (bankLedge bank))
    firstOf (if l2.isEmpty then l1 else l2)

/-- The access wins all its banks (R47). DEDUCED, log entry 13: a bank won by an access that waits is used by no other. -/
def CoreState.winsAll (c : CoreState) (cands : List Access) (a : Access) : Bool :=
  (accBanks a).all (fun b => match c.winner cands b with
    | some w => w.serial == a.serial
    | none => false)

/-! ## Breaches and hazards (R48, R51, R52) -/

/-- The lowest number of a list. -/
def lowest (l : List Nat) : Option Nat := l.foldl (fun acc x => some (match acc with | none => x | some a => min a x)) none

/-- The lowest ledge on which an access of a class to these chunks breaches, under a lease set (R48). -/
def CoreState.breachOn (c : CoreState) (set cls : Nat) (chunks : List Nat) : Option Nat :=
  lowest (((chunks.map ledgeOf).eraseDups).filter (fun l =>
    c.holder set l != 0 && c.holder set l != cls && !c.guest set cls))

/-- The lowest ledge on which the access breaches. -/
def CoreState.breaches (c : CoreState) (a : Access) : Option Nat :=
  c.breachOn a.set (portClass a.port) (a.whole.map (fun x => chunkOf x.addr))

/-- Record a breach in the LAST_ fields (R48). -/
def CoreState.lastBreach (c : CoreState) (set cls ledge : Nat) : CoreState :=
  ((c.put F.ldgBreach_lastLedge ledge).put F.ldgBreach_lastClass cls).put F.ldgBreach_lastHolder (c.holder set ledge)

/-- Count lease breaches of accesses that arbitrate for the first time; record the one with the lowest ledge (R48). -/
def CoreState.countBreaches (c : CoreState) (l : List Access) : CoreState :=
  let bad := (l.filter (fun a => !a.breached)).filterMap (fun a => (c.breaches a).map (fun g => (g, a)))
  let c1 := c.bump F.ldgBreach_count bad.length
  let best := bad.foldl (fun (acc : Option (Nat × Access)) x => match acc with
    | none => some x
    | some y => if x.1 < y.1 ∨ (x.1 = y.1 ∧ accBefore x.2 y.2) then some x else some y) none
  match best with
  | none => c1
  | some (g, a) => c1.lastBreach a.set (portClass a.port) g

/-- Where the bytes of this cycle's parts of two accesses overlap: the first byte of each overlapping run. -/
def overlaps (a b : Access) : List Nat :=
  (partPieces a).flatMap (fun x => (partPieces b).filterMap (fun y =>
    let lo := max x.addr y.addr
    if lo < min (x.addr + x.bytes.length) (y.addr + y.bytes.length) then some lo else none))

/-- The byte lies in a cove slot that is SLACK and that one of the producers fills (R51, R52). -/
def CoreState.protectedBy (c : CoreState) (a : Nat) (prs : List Producer) : Bool :=
  match c.coveAt a with
  | some v => (c.tag v (v.slotOf a)).state == 1 && prs.any (fun p => (c.tag v (v.slotOf a)).claimant == some p)
  | none => false

/-- Count an overlap unless every byte of it is protected (R51, R52). -/
def CoreState.hazard (c : CoreState) (a b : Access) (prs : List Producer) : CoreState :=
  let l := overlaps a b
  match lowest l with
  | some x => if l.all (fun y => c.protectedBy y prs) then c else (c.bump F.ldgHazard_count).put F.ldgHazard_lastAddr x
  | none => c

/-- This cycle's parts of both accesses touch one row and one bank. -/
def sameRow (a b : Access) : Bool :=
  (accPart a).any (fun x => (accPart b).any (fun y => x / 1024 == y / 1024)) && (accBanks a).any (fun x => decide (x ∈ (accBanks b)))

/-- A scheduled read and a DMA write conflict under R50. -/
def conflicts (r d : Access) : Bool := (accScheduled r) && (accDmaWrites d) && sameRow r d

/-- Two writes of different classes contend for one chunk (R52). -/
def writesMeet (a b : Access) : Bool :=
  a.write && b.write && portClass a.port != portClass b.port && (accPart a).any (fun x => decide (x ∈ (accPart b)))

/-- Ordered pairs of a list. -/
def pairs {α : Type} (l : List α) : List (α × α) :=
  match l with
  | [] => []
  | x :: rest => rest.map (fun y => (x, y)) ++ pairs rest

/-- Hazards of one arbitration cycle. -/
def CoreState.countHazards (c : CoreState) (l : List Access) : CoreState :=
  (pairs l).foldl (fun c x =>
    if conflicts x.1 x.2 then c.hazard x.1 x.2 [x.2.producer]
    else if conflicts x.2 x.1 then c.hazard x.2 x.1 [x.1.producer]
    else if writesMeet x.1 x.2 then c.hazard x.1 x.2 [x.1.producer, x.2.producer]
    else c) c

/-! ## The tag stage of an access (R78 to R84, R101) -/

/-- Slots an access touches. -/
def CoreState.accessSlots (c : CoreState) (a : Access) : List (Cove × Nat) := c.slotsOf (accChunks a)

/-- Whether the access is tag-checked: not the debug port's (R82, R430). -/
def accChecked (a : Access) : Bool := a.port != .debug

/-- The tag stage lets the access on to its banks. -/
def CoreState.tagPasses (c : CoreState) (a : Access) : Bool :=
  a.passed || !(accChecked a) ||
    (c.accessSlots a).all (fun x => if a.write then c.writePasses a.producer x else c.readPasses a.expect x)

/-- A write waits for a FOLD, an UNFOLD or a full delta queue (R307, R310). -/
def CoreState.shadowWaits (c : CoreState) (a : Access) : Bool :=
  a.write && (accChunks a).any (fun x => c.foldPending x ||
    (c.folded x && decide (deltaPlaces ≤ (Sparse.get [] c.deltas (ledgeOf x)).length)))

/-- A local write that reaches a slot of an open window faults (R101, R215). -/
def State.meetsWindow (s : State) (core : Nat) (c : CoreState) (a : Access) : Option Nat :=
  if a.write && a.producer.kind != 5 && a.producer.kind != 6 then
    ((c.accessSlots a).find? (fun x => s.inWindow core x)).map slotAddr
  else none

/-- The issue number of the word an access belongs to; none for a landing or a debug access, which no word of the core issued. -/
def accCount (a : Access) : Option Nat :=
  if a.producer.kind == 5 || a.producer.kind == 6 || a.port == .debug then none else some a.w.count

/-- The access belongs to an operation the core issued: not to a landing, the debug port or a ledge command of the CSR path. -/
def accOwn (a : Access) : Bool := (accCount a).isSome && !(a.producer.kind == 4 && a.producer.ident == 4095)

/-- Charge of the part in quarters of a unit (R71, R309). -/
def CoreState.partCharge (c : CoreState) (a : Access) (part : List Nat) : Nat :=
  (part.map (fun x =>
    (if a.write && (c.adding a.port (accCount a) x).isSome then 8 else 4) +
    (if a.write && c.folded x then 8 else 0))).foldl (· + ·) 0

/-- Claims and posts of a write that passes its tag stage (R79, R81): of the slots its producer names, and of no other. -/
def CoreState.tagWrite (c : CoreState) (a : Access) : CoreState :=
  match a.posts with
  | none => c
  | some st =>
    let slots := (c.accessSlots a).filter (fun x => decide ((x.1.n, x.2) ∈ a.named) && !c.windowSlot x)
    let c1 := slots.foldl (fun c x => c.claim a.producer x) c
    if a.last then slots.foldl (fun c x =>
      if (c.tag x.1 x.2).claimant == some a.producer then c.post st x else c) c1 else c1

/-- Move an admitted part of an access on to its bank cycle; what is left of it arbitrates on. Which chunks an accumulate window
adds is settled as the part wins its banks (R63 to R65). -/
def CoreState.grantBanks (c : CoreState) (now : Nat) (a : Access) : CoreState :=
  let part := accPart a
  let left := a.pieces.filter (fun x => !decide (chunkOf x.addr ∈ part))
  let adds := if a.write then part.filterMap (fun x => (c.adding a.port (accCount a) x).map (fun w => (x, w.bf16))) else []
  let b : Banking := { acc := a, part := partPieces a, won := now, final := left.isEmpty, adds, sums := none, stalled := none }
  let c1 : CoreState := { c with banking := c.banking ++ [b] }
  if left.isEmpty then c1
  else { c1 with accesses := c1.accesses ++ [{ a with pieces := left, passed := true, retry := false }] }

/-- Let one access of a cycle take its place: it wins all banks and is admitted, or it waits. `cands` are the accesses that
contend in this cycle. -/
def State.arbitrateOne (s : State) (p : Nat) (cands : List Access) (a : Access) : State :=
  let c := s.core p
  let back (x : Access) : State := s.setCore p { c with accesses := c.accesses ++ [x] }
  if !c.winsAll cands a then
    back { a with
      passed := a.passed || !a.write
      retry := !a.retry && cands.any (fun r => conflicts r a) }
  else if a.write && !a.passed && !c.tagPasses a then back { a with retry := false }
  else
    let asked := s.govAsk p (c.partCharge a (accPart a))
    if asked.1 then asked.2.modCore p (fun c => (if a.write && !a.passed then c.tagWrite a else c).grantBanks s.now a)
    else
      asked.2.modCore p (fun c => { c with accesses := c.accesses ++ [{ a with passed := a.passed || !a.write, retry := false }] })

/-- Order the accesses of a cycle as R46 items 4 and 5 list them. -/
def insertAccess (l : List Access) (a : Access) : List Access :=
  match l with
  | [] => [a]
  | b :: rest => if accBefore b a then b :: insertAccess rest a else a :: b :: rest

/-- Sort accesses. -/
def sortAccesses (l : List Access) : List Access := l.foldl insertAccess []

/-- An access as it first reaches arbitration, two ticks after its issue (Table 2-2): its lease set and its pieces. -/
def CoreState.arrive (c : CoreState) (now : Nat) (a : Access) : Access :=
  { a with first := some now, set := c.setFor (now - 2), whole := a.pieces, heldUntil := now }

/-- A new access at an inlet may be held by its perturbation point (R441). -/
def State.perturbArrivals (s : State) (p core : Nat) (l : List Access) : State × List Access :=
  l.foldl (fun x a =>
    let c := s.core p
    let r := match a.port with
      | .weight => x.1.perturb (4 * core) (c.sel F.prtInlet_wDelay) (c.sel F.prtInlet_wJit) (c.sel F.prtInlet_wDuty) (s.replaying (p / 17))
      | .act => x.1.perturb (4 * core + 1) (c.sel F.prtInlet_aDelay) (c.sel F.prtInlet_aJit) (c.sel F.prtInlet_aDuty) (s.replaying (p / 17))
      | _ => (x.1, 0)
    (r.1, x.2 ++ [{ c.arrive s.now a with heldUntil := s.now + r.2 }])) (s, [])

/-- The access wants its banks in this cycle: nothing holds it before arbitration. -/
def CoreState.wantsBanks (c : CoreState) (now : Nat) (a : Access) : Bool :=
  decide (a.heldUntil ≤ now) && c.tagPasses a && !c.shadowWaits a

/-- One arbitration cycle of a core over the accesses that wait and those that arrive. In a cycle that the sweep takes, all of
them wait (R66). In a core whose operations end, one of its own that waits at its tag stage ends (R218). -/
def State.arbitrate (s : State) (p core : Nat) (arrivals : List Access) : State :=
  let (s0, fresh) := s.perturbArrivals p core arrivals
  let c0 := s0.core p
  let all := c0.accesses ++ fresh
  if c0.cyc.stolen then s0.setCore p { c0 with accesses := all }
  else
    let late := all.filter (fun a => decide (s0.now < a.heldUntil))
    let ready := all.filter (fun a => decide (a.heldUntil ≤ s0.now))
    let faulty := ready.filter (fun a => (s0.meetsWindow core c0 a).isSome)
    let c1 := faulty.foldl (fun c a => c.faultWord s0.now clsBounds 9 a.w (s0.meetsWindow core c0 a)) c0
    let sound := ready.filter (fun a => (s0.meetsWindow core c0 a).isNone)
    let cands := sortAccesses (sound.filter (fun a => c1.tagPasses a && !c1.shadowWaits a))
    let waiting := sound.filter (fun a => !(c1.tagPasses a && !c1.shadowWaits a))
    let kept := if c1.ending then waiting.filter (fun a => c1.tagPasses a || !accOwn a) else waiting
    let c2 := (c1.countBreaches cands).countHazards cands
    let marked := cands.map (fun a => { a with breached := true })
    let c3 : CoreState := { c2 with accesses := late ++ kept, cyc.busy := c2.cyc.busy || !cands.isEmpty }
    marked.foldl (fun s a => s.arbitrateOne p marked a) (s0.setCore p c3)

/-- BANK_ARBITRATION (R46): one arbitration cycle; in a core that is washed every access waits (R70). -/
def execBankArbitration (core : Nat) (arrivals : List Access) (s : State) : Out :=
  onCore core s (fun p c =>
    if (s.usable (core / 16) && !c.isolated) = false then s
    else if c.washEnd.isSome then
      s.setCore p { c with accesses := c.accesses ++ arrivals.map (c.arrive s.now) }
    else s.arbitrate p core arrivals)

/-! ## The bank cycle (R42, R53 to R56, R63, R64) -/

/-- The tick of a part's next bank cycle (R42): a + 1, and a + 4 for the sums of an accumulate-on-write. -/
def bankTick (b : Banking) : Nat := if b.sums.isSome then b.won + 4 else b.won + 1

/-- Reader of a port (Table 2-5). -/
def readerOf (p : Port) : Reader :=
  match p with
  | .dmaRead => .dma | .dmaWrite => .dma | .engine => .copy | .debug => .debug
  | _ => .engine

/-- Unit number of a port in fault records. -/
def portUnit (p : Port) : Nat :=
  match p with
  | .weight => 3 | .act => 3 | .estRead => 4 | .estWrite => 4 | .vecRead => 5 | .vecWrite => 6 | .sclRead => 1
  | .sclWrite => 1 | .dmaRead => 6 | .dmaWrite => 5 | .engine => 7 | .debug => 9

/-- Put the data of a read part on its way up: at the port five cycles after its banks were won, and one later for every cycle
a repair has kept it waiting; the parts of one access are delivered together (R40, R41). -/
def CoreState.ascend (c : CoreState) (now : Nat) (b : Banking) (bad : Bool) : CoreState :=
  let due := b.won + 5 + (match b.stalled with | some t => now - t | none => 0)
  let part := b.part.map (fun x => { x with bytes := c.peek x.addr x.bytes.length })
  if c.portData.any (fun x => x.acc.serial == b.acc.serial) then
    { c with portData := c.portData.map (fun x =>
        if x.acc.serial = b.acc.serial then { x with got := x.got ++ part, poison := x.poison || bad, due := max x.due due } else x) }
  else { c with portData := c.portData ++ [⟨b.acc, part, bad, due⟩] }

/-- Every part of the access has been read. -/
def PortData.complete (d : PortData) : Bool := decide (d.acc.whole.length ≤ d.got.length)

/-- The bytes a read delivers, in the order of the access. -/
def PortData.bytes (d : PortData) : List Byte :=
  d.acc.whole.flatMap (fun x => match d.got.find? (fun y => y.addr == x.addr) with
    | some y => y.bytes
    | none => [])

/-- An access is given up: nothing of it is read or delivered any more. -/
def CoreState.dropAccess (c : CoreState) (serial : Nat) : CoreState :=
  { c with
    accesses := c.accesses.filter (fun a => a.serial != serial)
    banking := c.banking.filter (fun b => b.acc.serial != serial)
    portData := c.portData.filter (fun d => d.acc.serial != serial) }

/-- The part waits at its banks for a repair (Table 2-5). -/
def CoreState.stallAt (c : CoreState) (now : Nat) (b : Banking) : CoreState :=
  { c with banking := c.banking ++ [{ b with stalled := some (b.stalled.getD now) }] }

/-- Bank cycle of a read part. A read that meets a chunk under repair stays at its banks (Table 2-5). -/
def State.bankRead (s : State) (p : Nat) (b : Banking) : State :=
  match s.meets p (readerOf b.acc.port) (b.part.map (fun x => x.addr)) with
  | (.data marked, s1) => s1.modCore p (fun c => c.ascend s.now b (!marked.isEmpty))
  | (.stall _, s1) => s1.modCore p (fun c => c.stallAt s.now b)
  | (.poison a, s1) => s1.modCore p (fun c =>
      (c.dropAccess b.acc.serial).faultWord s.now clsPoison (portUnit b.acc.port) b.acc.w (some (chunkOf a)))

/-- The chunk is one that the part adds, with the format of its window. -/
def Banking.addsAt (b : Banking) (a : Nat) : Option Bool := (b.adds.find? (fun x => x.1 == chunkOf a)).map (fun x => x.2)

/-- First bank cycle of a write part: what no window takes is stored; what a window takes is read and added (R63, R64), and waits
for a repair as Table 2-5 says. A repair keeps the writing of the sums as many cycles as it kept the read. -/
def State.bankFirst (s : State) (p : Nat) (b : Banking) : State :=
  match s.meets p .acc (b.adds.map (fun x => x.1)) with
  | (.stall _, s1) => s1.modCore p (fun c => c.stallAt s.now b)
  | (_, s1) =>
    let c := s1.core p
    let sums := b.part.filterMap (fun x => (b.addsAt x.addr).map (fun f => ⟨x.addr, c.sumAt f x.addr x.bytes⟩))
    let plain := b.part.filter (fun x => (b.addsAt x.addr).isNone)
    let s2 := plain.foldl (fun s x => (s.poke p x.addr x.bytes b.acc.poisoned).arrived p b.acc.port x.addr b.acc.poisoned) s1
    if sums.isEmpty then s2
    else s2.modCore p (fun c =>
      let won := b.won + (match b.stalled with | some t => s.now - t | none => 0)
      { c with banking := c.banking ++ [{ b with won, sums := some sums, stalled := none }] })

/-- Second bank cycle of an accumulate-on-write: its sums are stored (R42, R64). -/
def State.bankSums (s : State) (p : Nat) (b : Banking) : State :=
  (b.sums.getD []).foldl (fun s x =>
    (s.poke p x.addr x.bytes (b.acc.poisoned || (s.core p).poisoned x.addr)).arrived p b.acc.port x.addr b.acc.poisoned) s

/-- Insert a bank cycle by its tick; in one tick reads come before writes, and an earlier write before a later one (R42: a read
sees a write whose bank cycle came before its own). -/
def insertBanking (l : List (Nat × Banking)) (b : Nat × Banking) : List (Nat × Banking) :=
  match l with
  | [] => [b]
  | x :: rest =>
    if x.1 < b.1 ∨ (x.1 = b.1 ∧ (!x.2.acc.write ∨ (b.2.acc.write ∧ x.2.won ≤ b.2.won))) then x :: insertBanking rest b
    else b :: x :: rest

/-- The bank cycles that have come by tick `now`, in order. -/
def CoreState.bankCycles (c : CoreState) (now : Nat) : List (Nat × Banking) :=
  (c.banking.flatMap (fun b =>
    (if bankTick b ≤ now then [(bankTick b, b)] else []) ++
    (if b.sums.isNone ∧ !b.adds.isEmpty ∧ b.won + 4 ≤ now then [(b.won + 4, b)] else []))).foldl insertBanking []

/-- The next bank cycle of a part, as it stands. -/
def State.bankStep (s : State) (p : Nat) (b : Banking) : State :=
  let c := s.core p
  match c.banking.find? (fun x => x.acc.serial == b.acc.serial && x.part.map (fun y => y.addr) == b.part.map (fun y => y.addr)) with
  | none => s
  | some x =>
    if s.now < bankTick x then s
    else
      let s1 := s.setCore p { c with banking := c.banking.filter (fun y => y != x) }
      if !x.acc.write then s1.bankRead p x
      else if x.sums.isSome then s1.bankSums p x
      else s1.bankFirst p x

/-- Words with an error, rising by address: put one in, in place of what the word had. -/
def CoreState.upset (c : CoreState) (u : Upset) : CoreState :=
  let a := u.word / 8 * 8
  { c with ecc := c.ecc.filter (fun e => decide (e.1 < a)) ++ [(a, u.ue)] ++ c.ecc.filter (fun e => decide (a < e.1)) }

/-- BASIN_BANK_CYCLE (R42): every part whose bank cycle has come reads or writes, in the order of the bank cycles. -/
def execBasinBankCycle (core : Nat) (upsets : List Upset) (s : State) : Out :=
  onLive core s (fun p c =>
    let c0 := upsets.foldl CoreState.upset c
    (c0.bankCycles s.now).foldl (fun s b => s.bankStep p b.2) (s.setCore p c0))

/-- BASIN_READ_DATA (R41): data whose time has come is at its port, and the port has taken it. -/
def execBasinReadData (core : Nat) (s : State) : Out :=
  onLive core s (fun p c =>
    let here (d : PortData) : Bool := d.complete && decide (d.due ≤ s.now)
    s.setCore p { c with
      portData := c.portData.filter (fun d => !here d)
      atPort := (c.portData.filter here).foldl (fun m d => Sparse.set [] m (portRank d.acc.port) d.bytes) c.atPort })

/-! ## Chunk repair (R324, R55) and the shadow bus (R308) -/

/-- The parity of a shoal at a chunk XORed with the chunks of every other contributor (R324). -/
def State.rebuilt (s : State) (p a : Nat) : Option (List Byte) :=
  match s.spare (p / 17) with
  | none => none
  | some r =>
    let others := ((List.range 17).map (fun k => p / 17 * 17 + k)).filter (fun q => q ≠ p ∧ q ≠ r ∧ (s.core q).folded a)
    let bad := (others.map s.core ++ [s.core r]).any (fun c => (c.errorsIn a).any (fun e => e.2))
    if bad then none
    else some (others.foldl (fun acc q => xorBytes acc ((s.core q).peek a 64)) ((s.core r).peek a 64))

/-- CHUNK_REPAIR (R324): a poisoned chunk of a shadowed cove begins to be rebuilt through its shadow bus. -/
def execChunkRepair (core addr : Nat) (s : State) : Out :=
  onLive core s (fun p c =>
    if c.poisoned addr && c.shadowed addr && !c.foreign addr && !c.repairs.any (fun x => x.addr == chunkOf addr) then
      s.setCore p { c with repairs := c.repairs ++ [⟨chunkOf addr, false, s.now⟩] }
    else s)

/-- Deltas of a chunk that are still queued in any core of the shoal reach the reserve before a rebuild reads the parity. -/
def State.drainDeltas (s : State) (shoal : Nat) : State :=
  (List.range 17).foldl (fun s k =>
    let c := s.core (shoal * 17 + k)
    let s1 := c.deltas.foldl (fun s q => q.2.foldl (fun s d => s.applyDelta shoal d) s) s
    s1.modCore (shoal * 17 + k) (fun c => { c with deltas := [] })) s

/-- CHUNK_REPAIR_DONE (R324, R55): the rebuilt chunk is written back with poison clear and counted; a repair that cannot be
made (shoal SPENT, FOLD pending, another uncorrectable word) leaves the poison, counts REPAIR_FAILS, raises a notice and
faults a reader stalled on it. -/
def execChunkRepairDone (core addr : Nat) (s : State) : Out :=
  onLive core s (fun p c =>
    match c.repairs.find? (fun x => x.addr == chunkOf addr) with
    | none => s
    | some r =>
      let shoal := p / 17
      let gone : CoreState := { c with repairs := c.repairs.filter (fun x => x.addr != chunkOf addr) }
      let s0 := (s.setCore p gone).drainDeltas shoal
      let can := !s.flag F.shlMendStat_spent shoal && !c.foldPending addr && c.folded addr && !c.foreign addr
      match if can then s0.rebuilt p (chunkOf addr) else none with
      | some data =>
        let s1 := s0.modCore p (fun c =>
          ({ c with basin := Bytes.write 0 c.basin (chunkOf addr) data
                    ecc := c.ecc.filter (fun e => e.1 / 64 != addr / 64) } : CoreState).setPoison addr false)
        let s2 := s1.pushDelta p ⟨chunkOf addr, List.replicate 64 0, true⟩
        if r.bySweep then s2.bump F.shlMendStat_sweepRepairs 1 shoal else s2.bump F.shlMendStat_readRepairs 1 shoal
      | none =>
        let s1 := s0.bump F.shlMendStat_repairFails 1 shoal
        let s2 := match c.coveAt addr with
          | some v => s1.notifyCove core v.n 5
          | none => s1
        let stuck := c.banking.filter (fun b => !b.acc.write && decide (readerOf b.acc.port = .engine) &&
          b.part.any (fun x => chunkOf x.addr == chunkOf addr))
        s2.modCore p (fun c => stuck.foldl (fun c b =>
          (c.dropAccess b.acc.serial).faultWord s.now clsPoison (portUnit b.acc.port) b.acc.w (some (chunkOf addr))) c))

/-- DELTA_APPLY (R308): the shadow bus of a ledge serves the 16 cores round-robin; the next core with a delta sends it. -/
def execDeltaApply (shoal ledge : Nat) (s : State) : Out :=
  if shoal < 80 ∧ ledge < 12 then
    let turn := Sparse.get 0 s.deltaTurn (shoal * 12 + ledge)
    let order := (List.range 16).map (fun k => (turn + k) % 16)
    let has (pos : Nat) : Bool := !(Sparse.get [] (s.core (shoal * 17 + s.physAt shoal pos)).deltas ledge).isEmpty
    match order.find? has with
    | none => .next s
    | some pos =>
      let p := shoal * 17 + s.physAt shoal pos
      let c := s.core p
      match Sparse.get [] c.deltas ledge with
      | [] => .next s
      | d :: rest =>
        let s1 := s.setCore p { c with deltas := Sparse.set [] c.deltas ledge rest }
        .next { s1.applyDelta shoal d with deltaTurn := Sparse.set 0 s.deltaTurn (shoal * 12 + ledge) ((pos + 1) % 16) }
  else .fault (.noSuchShoal shoal)

end Sys2Proof.Machine
end

