-- ==== Sys2Proof/Machine/Operands.lean ====
section
/-! DEFINITION. Operand addresses (R176, R178), run-time shapes (R211 to R213), the checks an operand meets at issue (R177,
R214), and the slots an operation names for posting (R179). -/

namespace Sys2Proof.Machine

/-- Wrap an address into the extent of the operand's cove (R176). -/
def wrapAddr (o : Operand) (a : Nat) : Nat :=
  if o.desc.wrap && 0 < o.wrapLen then o.wrapBase + (((a : Int) - o.wrapBase) % (o.wrapLen : Int)).toNat else a

/-- The address `off` bytes into a stream that starts at `start`, spread over ledges (R176). -/
def spreadAddr (o : Operand) (start off : Nat) : Nat :=
  let m := o.desc.spread + 1
  let row := off / 1024
  wrapAddr o (if m = 1 then start + off else start + row % m * 2 ^ 21 + row / m * 1024 + off % 1024)

/-- The address of stream chunk `q` of batch iteration `b` (R176). -/
def chunkAddr (o : Operand) (b q : Nat) : Nat :=
  let span := o.desc.span + 1
  let rows := o.desc.rows + 1
  let i := if o.desc.axis then q % rows else q / span
  let k := if o.desc.axis then q / rows else q % span
  spreadAddr o (o.base * 64) ((b * o.desc.bstride + i * o.desc.rstride + k * o.desc.cstride) * 64)

/-- Start of the side or scale stream in iteration `b`, before any wrap (R178). -/
def sideStart (o : Operand) (b : Nat) : Int := ((o.base : Int) + b * o.desc.bstride + o.desc.soff) * 64

/-- The address of side stream byte `n` of a weight operand in iteration `b`: that of R176 with this start (R178). -/
def sideAddr (o : Operand) (b n : Nat) : Nat :=
  if o.desc.wrap && 0 < o.wrapLen then o.wrapBase + ((sideStart o b + n - o.wrapBase) % (o.wrapLen : Int)).toNat
  else spreadAddr o (sideStart o b).toNat n

/-- The address of byte `n` of the scale stream of an activation operand in iteration `b`, which is linear (R178). -/
def scaleAddr (o : Operand) (b n : Nat) : Nat := (sideStart o b).toNat + n

/-- Chunks of an operand: ROWS × SPAN. -/
def extentChunks (o : Operand) : Nat := (o.desc.rows + 1) * (o.desc.span + 1)

/-- The operand with a run-time row count: as if ROWS + 1 were the count, clamped to the declared extent (R211, R213). -/
def withRows (o : Operand) (run : Option Nat) : Operand :=
  match run with
  | some n => { o with desc.rows := min n (o.desc.rows + 1) - 1 }
  | none => o

/-- Chunks an operation with a run-time row count moves; none at count 0 (R212). -/
def runChunks (o : Operand) (run : Option Nat) : Nat :=
  match run with
  | some n => min n (o.desc.rows + 1) * (o.desc.span + 1)
  | none => extentChunks o

/-- The addresses of the first `n` stream chunks of iteration `b`. -/
def streamOf (o : Operand) (b n : Nat) : List Nat := (List.range n).map (chunkAddr o b)

/-- The stream chunks an operation with a run-time row count moves: the count takes the place of ROWS + 1 in the walk (R211). -/
def runStream (o : Operand) (run : Option Nat) : List Nat := streamOf (withRows o run) 0 (runChunks o run)

/-- The declared extent of an operand in iteration `b`. -/
def extentOf (o : Operand) (b : Nat) : List Nat := streamOf o b (extentChunks o)

/-- A run of stream bytes from byte `n` on, as pieces of data over the stream's chunks. -/
def streamPieces (o : Operand) (b : Nat) (bs : List Byte) : List Piece :=
  ((chunksOf (bs.length / 64 + 1) 64 bs).zipIdx).map (fun x => ⟨chunkAddr o b x.2, x.1⟩)

/-- Read `n` bytes of a stream from byte `from_` on, as they stand. -/
def readStream (c : CoreState) (addr : Nat → Nat) (from_ n : Nat) : List Byte :=
  (List.range' from_ n).map (fun k => Sparse.get 0 c.basin (addr (k / 64 * 64) + k % 64))

/-- Bytes `from_` to `from_ + n − 1` of an operand's stream in iteration `b`. -/
def operandBytes (c : CoreState) (o : Operand) (b from_ n : Nat) : List Byte :=
  readStream c (fun k => chunkAddr o b (k / 64)) from_ n

/-- Chunk addresses that bytes `from_` to `from_ + n − 1` of a stream lie in. -/
def streamChunks (addr : Nat → Nat) (from_ n : Nat) : List Nat :=
  if n = 0 then []
  else ((List.range' (from_ / 64) ((from_ + n - 1) / 64 + 1 - from_ / 64)).map (fun q => chunkOf (addr (q * 64)))).eraseDups

/-! ## Checks at issue -/

/-- A chunk breaks R177: past the basin, or for a spread operand past row 2,047 or ledge 11. -/
def chunkBeyond (o : Operand) (start off a : Nat) : Bool :=
  let m := o.desc.spread + 1
  decide (basinBytes ≤ a) ||
    (decide (1 < m) && (decide (2047 < start % 2 ^ 21 / 1024 + off / 1024 / m) || decide (11 < start / 2 ^ 21 + m - 1)))

/-- A chunk breaks R214: outside the carve-out, outside cove COVE, or in a cove of another context. -/
def chunkForeign (c : CoreState) (carve : Nat × Nat) (ctx : Nat) (o : Operand) (a : Nat) : Bool :=
  decide (a / 64 < carve.1) || decide (carve.2 ≤ a / 64) ||
  (o.desc.coveV && !(c.flag F.coveCfg_enable o.desc.cove && (o.desc.wrap || (c.cove o.desc.cove).has a))) ||
  (match c.coveAt a with
   | some v => c.get F.coveCfg_owner v.n != ctx
   | none => false)

/-- The first chunk of an operand's declared extent, over its batch iterations, that breaks R177 or R214. -/
def badChunk (c : CoreState) (carve : Nat × Nat) (ctx : Nat) (o : Operand) (batch : Nat) : Option Nat :=
  let span := o.desc.span + 1
  let rows := o.desc.rows + 1
  ((List.range batch).flatMap (fun b => (List.range (extentChunks o)).map (fun q => (b, q)))).findSome? (fun x =>
    let i := if o.desc.axis then x.2 % rows else x.2 / span
    let k := if o.desc.axis then x.2 / rows else x.2 % span
    let off := (x.1 * o.desc.bstride + i * o.desc.rstride + k * o.desc.cstride) * 64
    let a := chunkAddr o x.1 x.2
    if chunkBeyond o (o.base * 64) off a || chunkForeign c carve ctx o a then some a else none)

/-- WRAP with COVE_V 0, or WRAP with SPREAD above 0, is a DECODE fault (R177). -/
def wrapDecode (d : TileDesc) : Bool := d.wrap && (!d.coveV || decide (0 < d.spread))

/-! ## Destinations (R179, R186) -/

/-- Rows and columns of the array (PLN_GEOM0). -/
def State.geo (s : State) : Nat × Nat := (s.get F.plnGeom0_arrRows, s.get F.plnGeom0_arrCols)

/-- Lanes of an entry: outputs of one tile pass in the flow (Table 4-1). -/
def lanesOf (geo : Nat × Nat) (cross : Bool) : Nat := if cross then geo.1 else geo.2

/-- Bytes of the 8-byte words that hold the block scales of `n` output elements (R157, R183). -/
def scaleBytes (n : Nat) : Nat := roundUp (ceilDiv n 32) 8

/-- Whole chunks inside a byte range. -/
def wholeChunks (a n : Nat) : List Nat :=
  ((List.range (n / 64 + 1)).map (fun k => roundUp a 64 + k * 64)).filter (fun x => decide (x + 64 ≤ a + n))

/-- The chunks of an operation's declared basin destination; none for operations that write no basin. A drain writes
its output operand and, in an MX format, its block scales. -/
def destChunks (geo : Nat × Nat) (op : QOp) : List Nat :=
  match op with
  | .drain a =>
    if a.mode.outFmt = 14 then []
    else extentOf a.oop 0 ++
      (if a.mode.outFmt ≤ 5 then wholeChunks (a.sAddr * 8) (scaleBytes (a.count * lanesOf geo a.mode.cross)) else [])
  | .vstore a => extentOf a.opnd 0
  | .tload a => extentOf a.opnd 0
  | _ => []

/-- Slots an operation posts when its word has POST 1: those wholly inside its destination (R179). -/
def CoreState.namedSlots (c : CoreState) (geo : Nat × Nat) (w : WordCtx) (op : QOp) : List (Cove × Nat) :=
  if w.post then c.whollyIn (destChunks geo op) else []

end Sys2Proof.Machine
end

