-- ==== Sys2Proof/Machine/Ports.lean ====
section
/-! DEFINITION. The accesses a unit, a DMA or a ledge engine makes for an operation: how its chunks fall into accesses of its port
(Table 2-3), what each does at its tag stage, its banks, its lease and the governor, and what becomes of it (R38, R47, R48, R55,
R63, R71, R78 to R84, R101, R270, R271). An access of more than one cycle is made at once: log entry 123. -/

namespace Sys2Proof.Machine

/-! ## Accesses of a port -/

/-- Ledges and chunks of each that one access of a port takes (Table 2-3). -/
def portWidth (p : Port) : Nat × Nat :=
  match p with
  | .weight => (4, 16)
  | .engine => (12, 16)
  | .sclRead => (1, 1)
  | .sclWrite => (1, 1)
  | .debug => (1, 1)
  | _ => (1, 4)

/-- One more chunk fits an access. -/
def fitsAccess (width : Nat × Nat) (l : List Nat) (a : Nat) : Bool :=
  let ledges := (l.map ledgeOf).eraseDups
  if ledgeOf a ∈ ledges then decide ((l.filter (fun x => ledgeOf x == ledgeOf a)).length < width.2)
  else decide (ledges.length < width.1)

/-- Cut chunks, in their order, into accesses of a port; `cur` is the access being filled. -/
def cutAccesses (width : Nat × Nat) (cur : List Nat) (l : List Nat) : List (List Nat) :=
  match l with
  | [] => if cur.isEmpty then [] else [cur]
  | a :: rest =>
    if cur.isEmpty ∨ fitsAccess width cur a then cutAccesses width (cur ++ [a]) rest
    else cur :: cutAccesses width [a] rest

/-- Count the breaches of the accesses that a port makes one after the other, issued in the given tick (R43, R48). -/
def CoreState.portBreaches (c : CoreState) (now : Nat) (port : Port) (width : Nat × Nat) (chunks : List Nat) : CoreState :=
  let set := c.setFor now
  (cutAccesses width [] chunks).foldl (fun c l =>
    match c.breachOn set (portClass port) l with
    | some g => (c.bump F.ldgBreach_count).lastBreach set (portClass port) g
    | none => c) c

/-- The governor admits the accesses of one operation, of this charge together (R270). DEDUCED, log entry 123: one that no window
could ever hold is asked for as a full window, but for no less than one of its chunks. -/
def State.portAdmits (s : State) (p charge : Nat) : Bool := s.govAdmits (p / 17) (max (min charge 4) (min charge s.gov.limit))

/-- The accesses of an operation take their banks: they are charged, and their breaches count. -/
def State.portTake (s : State) (p : Nat) (port : Port) (width : Nat × Nat) (charge : Nat) (chunks : List Nat) : State :=
  ((s.govAdmit (p / 17) (min charge s.gov.limit)).charge p (charge - min charge s.gov.limit)).modCore p (fun c =>
    let c1 := c.portBreaches s.now port width chunks
    { c1 with cyc.busy := true })

/-! ## Reads -/

/-- What became of a unit's reads of some chunks: done (with the chunks that carry poison), held until a slot passes, a repair ends
or the governor admits them, or ended by poison. -/
inductive ReadRes where
  | done (marked : List Nat)
  | held (on : Option (Cove × Nat))
  | poison (a : Nat)
  deriving DecidableEq, Repr

/-- Read chunks (or, for the scalar slot and ENG, 8-byte words) through a port: every tag check first (R82), then the governor (R270), then the banks (Table 2-5). A read that a
repair keeps waiting is charged once, when it goes on (R71). -/
def State.portRead (s : State) (p : Nat) (port : Port) (expect : Option (Nat × BitVec 16)) (chunks : List Nat)
    (r : Reader := readerOf port) : ReadRes × State :=
  let c := s.core p
  let charge := 4 * chunks.length
  match firstFailing (c.slotsOf chunks) (c.readPasses expect) with
  | some x => (.held (some x), s)
  | none =>
    if c.cyc.stolen then (.held none, s)
    else if s.portAdmits p charge then
      match s.meets p r chunks with
      | (.data marked, s1) => (.done marked, s1.portTake p port (portWidth port) charge chunks)
      | (.stall _, s1) => (.held none, s1)
      | (.poison a, s1) => (.poison (chunkOf a), s1.portTake p port (portWidth port) charge chunks)
    else (.held none, s.govHold p (p / 17))

/-! ## Writes -/

/-- What became of an access that writes. -/
inductive WriteRes where
  | done
  | held (on : Option (Cove × Nat))
  | window (a : Nat)
  deriving DecidableEq, Repr

/-- A piece to write: its bytes, whether its data carries poison, and whether it is its producer's last write to its slot. -/
structure WritePart where
  piece : Piece
  bad : Bool
  last : Bool
  deriving DecidableEq, Repr

/-- What a producer's writes carry: its port, its identity, the issue number of its word (none from outside the core), the slots
it names for posting as cove and slot, the stamp it posts (R79, R81), and whether its slots are granted to it (R103). -/
structure Writer where
  port : Port
  pr : Producer
  count : Option Nat
  named : List (Nat × Nat)
  stamp : BitVec 16
  granted : Bool := false
  deriving DecidableEq, Repr

/-- A slot is among those an operation names for posting. -/
def isNamed (named : List (Nat × Nat)) (x : Cove × Nat) : Bool := decide ((x.1.n, x.2) ∈ named)

/-- A write waits behind a FOLD or UNFOLD of its range (R310), or for room in a delta queue (R307). -/
def CoreState.shadowHolds (c : CoreState) (chunks : List Nat) : Bool :=
  chunks.any (fun a => c.foldPending a || (c.folded a &&
    decide (deltaPlaces < (Sparse.get [] c.deltas (ledgeOf a)).length + (chunks.filter (fun b => c.folded b && ledgeOf b == ledgeOf a)).length)))

/-- One piece reaches the banks: it claims its slots that its producer names, lands, and posts after the last (R79, R81). -/
def State.landPart (s : State) (p : Nat) (k : Writer) (x : WritePart) : State :=
  let c := s.core p
  let mine := (c.slotsOf [x.piece.addr]).filter (isNamed k.named)
  let s1 := (s.setCore p (mine.foldl (fun c y => c.claim k.pr y) c)).land p k.port k.count x.piece.addr x.piece.bytes x.bad
  if x.last then s1.modCore p (fun c => mine.foldl (fun c y =>
    if (c.tag y.1 y.2).claimant == some k.pr && (c.tag y.1 y.2).state == 1 then c.post k.stamp y else c) c)
  else s1

/-- A slot lets a writer's access pass: a granted slot at once unless its cove is held (R103), any other under R79. -/
def CoreState.letsWrite (c : CoreState) (k : Writer) (x : Cove × Nat) : Bool :=
  if k.granted then !c.held x.1 else c.writePasses k.pr x

/-- One access that writes: it faults in an open harbour window (R101), waits at its tag stage as a whole (R47, R80), behind the
shadow bus, for a repair of a chunk it adds to (Table 2-5), or for the governor (R270); or it lands. -/
def State.portWrite (s : State) (p core : Nat) (k : Writer) (l : List WritePart) : WriteRes × State :=
  let c := s.core p
  let chunks := (l.map (fun x => chunkOf x.piece.addr)).eraseDups
  let slots := c.slotsOf chunks
  let charge := c.writeCharge k.port k.count (l.map (fun x => x.piece))
  match slots.find? (fun y => k.count.isSome && s.inWindow core y), slots.find? (fun y => !c.letsWrite k y) with
  | some y, _ => (.window (slotAddr y), s)
  | none, some y => (.held (some y), s)
  | none, none =>
    if c.shadowHolds chunks || c.cyc.stolen then (.held none, s)
    else if s.portAdmits p charge then
      match s.meets p .acc (chunks.filter (fun a => (c.adding k.port k.count a).isSome)) with
      | (.stall _, s1) => (.held none, s1)
      | (_, s1) => (.done, l.foldl (fun s x => s.landPart p k x) (s1.portTake p k.port (portWidth k.port) charge chunks))
    else (.held none, s.govHold p (p / 17))

/-- Cut pieces, in their order, into the accesses a port writes them with. -/
def cutWrites (width : Nat × Nat) (cur : List WritePart) (l : List WritePart) : List (List WritePart) :=
  match l with
  | [] => if cur.isEmpty then [] else [cur]
  | x :: rest =>
    if cur.isEmpty ∨ fitsAccess width (cur.map (fun y => chunkOf y.piece.addr)) (chunkOf x.piece.addr) then
      cutWrites width (cur ++ [x]) rest
    else cur :: cutWrites width [x] rest

/-- A producer's accesses write in order until one is held or faults: what is left of them, and what stopped them. -/
def State.portWrites (s : State) (p core : Nat) (k : Writer) (l : List (List WritePart)) : WriteRes × List (List WritePart) × State :=
  match l with
  | [] => (.done, [], s)
  | x :: rest =>
    match s.portWrite p core k x with
    | (.done, s1) => s1.portWrites p core k rest
    | (r, s1) => (r, x :: rest, s1)

end Sys2Proof.Machine
end

