-- ==== Sys2Proof/Machine/Ledge.lean ====
section
/-! DEFINITION. The ledge engines (R57 to R65, R85, R86), FOLD and UNFOLD (R310), the sweep (R66) and the wash (R68 to R70). -/

namespace Sys2Proof.Machine

/-! ## Commands (Table 2-6) -/

/-- A reserved OP or a reserved bit of Table 2-6 is set: the DECODE cases of R58. -/
def ldgMalformed (lo hi : Reg64) : Bool :=
  decide (4 < ldgOp lo) || field lo 63 57 != 0 || field lo 15 9 != 0 || field lo 6 6 != 0 || field hi 63 51 != 0 ||
  (if ldgOp lo = 2 then field hi 31 25 != 0 else if ldgOp lo = 1 then false else field hi 31 0 != 0)

/-- The command moves or covers LEN chunks (FILL, COPY, ACC_OPEN). -/
def ldgHasLen (lo : Reg64) : Bool := ldgOp lo == 1 || ldgOp lo == 2 || ldgOp lo == 3

/-- A range of chunks runs past the basin or the carve-out. -/
def rangeOut (carve : Nat × Nat) (a len : Nat) : Bool :=
  decide (basinBytes < a + len * 64) || decide (a / 64 < carve.1) || decide (carve.2 < a / 64 + len)

/-- The OPERAND_BOUNDS cases of R58 that need no window. -/
def ldgOutOfBounds (carve : Nat × Nat) (lo hi : Reg64) : Bool :=
  decide (ldgDst lo % 64 ≠ 0) || (ldgOp lo == 2 && decide (ldgSrc hi % 64 ≠ 0)) ||
  (ldgHasLen lo && (ldgLen hi == 0 || decide (393216 < ldgLen hi) || rangeOut carve (ldgDst lo) (ldgLen hi))) ||
  (ldgOp lo == 2 && rangeOut carve (ldgSrc hi) (ldgLen hi))

/-- The window cases of R58: an ACC_OPEN of an open window or over an open window's range. -/
def CoreState.windowClash (c : CoreState) (lo hi : Reg64) : Bool :=
  ldgOp lo == 3 && c.accWin.any (fun w => w.win == ldgWin lo ||
    (decide (w.base < ldgDst lo + ldgLen hi * 64) && decide (ldgDst lo < w.base + w.len * 64)))

/-- Chunks of a range. -/
def rangeChunks (a len : Nat) : List Nat := (List.range len).map (fun k => a + k * 64)

/-- A command of a long word touches an enabled cove of another context than the core's (R214). DEDUCED, log entry 124: a command
of the CSR path has no context of its own (R62). -/
def CoreState.ldgForeign (c : CoreState) (lo hi : Reg64) : Bool :=
  let other (a : Nat) : Bool := match c.coveAt a with
    | some v => c.get F.coveCfg_owner v.n != c.get F.corCtl_ctx
    | none => false
  (ldgHasLen lo && (rangeChunks (ldgDst lo) (ldgLen hi)).any other) ||
  (ldgOp lo == 2 && (rangeChunks (ldgSrc hi) (ldgLen hi)).any other)

/-- The class with which a command is rejected for what it says itself, if it is: every case of R58 but its last. -/
def ldgRejects (carve : Nat × Nat) (lo hi : Reg64) : Option Nat :=
  if ldgMalformed lo hi then some clsDecode
  else if ldgOutOfBounds carve lo hi then some clsBounds
  else none

/-- The class a command of a long word is rejected with when the ENG has read it (R58, R214). -/
def CoreState.rejectsRead (c : CoreState) (carve : Nat × Nat) (lo hi : Reg64) : Option Nat :=
  match ldgRejects carve lo hi with
  | some cls => some cls
  | none => if c.ldgForeign lo hi then some clsBounds else none

/-- The class a command is rejected with as it starts (R58): only a clash of windows is left to judge for one of a long word. -/
def CoreState.rejectsStart (c : CoreState) (carve : Nat × Nat) (w : Option WordCtx) (lo hi : Reg64) : Option Nat :=
  match if w.isNone then ldgRejects carve lo hi else none with
  | some cls => some cls
  | none => if c.windowClash lo hi then some clsBounds else none

/-- The producer a command is (Table 16-5). -/
def ldgProducer (w : Option WordCtx) (serial : Nat) : Producer :=
  match w with
  | some x => ⟨4, x.tag.toNat % 4096, x.count⟩
  | none => ⟨4, 4095, serial⟩

/-- A held PUSH enters the queue when a place is free (R59). -/
def CoreState.takePush (c : CoreState) : CoreState :=
  match c.pushHeld with
  | some (lo, hi) =>
    if c.ldgQ.length < 8 then
      { (c.put F.ldgEngPush_push 0) with ldgQ := c.ldgQ ++ [.cmd lo hi none (c.iss.count + 1) c.aheadNow], pushHeld := none }
    else c
  | none => c

/-- A write of 1 to PUSH copies the command words as they stand, and the queue takes them when it has a place (R59). -/
def CoreState.push (c : CoreState) : CoreState :=
  ({ c.put F.ldgEngPush_push 1 with pushHeld := some (c.reg F.ldgEngCmdLo_word0.base, c.reg F.ldgEngCmdHi_word1.base) } : CoreState).takePush

/-- What the executing command waits for. -/
def CoreState.ldgWhy (c : CoreState) : Option LdgWhy := c.ldgWait.map (fun x => x.why)

/-- The command that may start or go on: one that waits (but not for the posts of its completion), else the front of an idle
engine's queue. -/
def CoreState.nextLdg (c : CoreState) : Option LdgItem :=
  match c.ldgExec with
  | some i =>
    match c.ldgWhy, i with
    | none, _ => none
    | some .post, .cmd lo _ _ _ _ => if ldgOp lo = 4 then some i else none
    | some _, _ => some i
  | none => c.ldgQ.head?

/-- The command leaves the queue and executes (R59). -/
def CoreState.beginLdg (c : CoreState) (i : LdgItem) : CoreState :=
  if c.ldgExec.isSome then { c with ldgWait := none }
  else ({ c with ldgQ := c.ldgQ.tail, ldgExec := some i, ldgWait := none } : CoreState).takePush

/-- The engine is idle again. -/
def CoreState.endLdg (c : CoreState) : CoreState := { c with ldgExec := none, ldgWait := none }

/-- The basin writes that were under way when the command entered the queue have reached their banks (R60). -/
def CoreState.earlierWritesDone (c : CoreState) (ahead : Ahead) : Bool :=
  c.accesses.all (fun a => !(a.write && decide (a.serial ∈ ahead.accs))) &&
  c.banking.all (fun b => !(b.acc.write && decide (b.acc.serial ∈ ahead.accs))) &&
  c.exec.all (fun x => x.pend.isEmpty || !decide (x.w ∈ ahead.words))

/-- Record a rejected command (R58): a fault of its word, or ERR and ERR_OP on the CSR path. -/
def CoreState.rejectLdg (c : CoreState) (now cls : Nat) (lo : Reg64) (w : Option WordCtx) : CoreState :=
  match w with
  | some x => c.faultWord now cls 7 x
  | none => (c.raise F.ldgEngStat_err).put F.ldgEngStat_errOp (ldgOp lo)

/-- A wait of the executing command: one that goes on keeps its start, another is timed anew (R62). -/
def CoreState.ldgTimed (c : CoreState) (now addr : Nat) (why : LdgWhy) : LdgWaiting :=
  match c.ldgWait with
  | some x => if x.addr = addr ∧ x.why = why then x else ⟨now, addr, why⟩
  | none => ⟨now, addr, why⟩

/-- A command begins, and waits for a slot or a repair at an address (R62). -/
def CoreState.ldgBegins (c : CoreState) (now : Nat) (i : LdgItem) (addr : Nat) (why : LdgWhy) : CoreState :=
  let c1 := if c.ldgExec.isSome then c else ({ c with ldgQ := c.ldgQ.tail, ldgExec := some i } : CoreState).takePush
  { c1 with ldgWait := some (c.ldgTimed now addr why) }

/-- A command waits on a slot, with its deadline if a word queued it (R62, R85, R207); a core that ends its operations
abandons it (R218). -/
def CoreState.ldgWaits (c : CoreState) (now : Nat) (i : LdgItem) (w : Option WordCtx) (x : Cove × Nat) (why : LdgWhy) : CoreState :=
  let c1 := c.ldgBegins now i (slotAddr x) why
  match w with
  | some wc => if c.ending then c1.endLdg else (c1.unwait 7 wc).wait ⟨7, wc, slotAddr x, (c.tag x.1 x.2).shown⟩
  | none => c1

/-- Slots a stamped command claims and posts: those wholly inside its destination (R57). -/
def CoreState.ldgSlots (c : CoreState) (lo hi : Reg64) : List (Cove × Nat) := c.whollyIn (rangeChunks (ldgDst lo) (ldgLen hi))

/-- Whether a command's writes pass their tag stage: the first slot at which one waits. -/
def CoreState.ldgBlocked (c : CoreState) (lo hi : Reg64) (pr : Producer) : Option (Cove × Nat) :=
  firstFailing (c.slotsOf (rangeChunks (ldgDst lo) (ldgLen hi))) (c.writePasses pr)

/-- Claim the slots of a stamped command. -/
def CoreState.ldgClaim (c : CoreState) (lo hi : Reg64) (pr : Producer) : CoreState :=
  if ldgStampEn lo then (c.ldgSlots lo hi).foldl (fun c x => c.claim pr x) c else c

/-- A local write of the command reaches a slot of an open harbour window (R101). -/
def State.ldgMeetsWindow (s : State) (core : Nat) (c : CoreState) (lo hi : Reg64) : Option Nat :=
  ((c.slotsOf (rangeChunks (ldgDst lo) (ldgLen hi))).find? (fun x => s.inWindow core x)).map slotAddr

/-- Run the command at the front if it has this OP: the common frame of the engine's commands. `run` gets the state with
the command executing. A command that is rejected as it starts ends here, one with a reserved OP at the row of any OP (R58). In a
cycle that the sweep takes the engine waits (R66). -/
def State.ldgRun (s : State) (p core op : Nat) (run : State → Reg64 → Reg64 → Option WordCtx → Nat → LdgItem → State) : State :=
  let c := s.core p
  match c.nextLdg with
  | some (.cmd lo hi w before ahead) =>
    if (ldgOp lo ≠ op ∧ ldgOp lo ≤ 4) ∨ !c.earlierWritesDone ahead ∨ c.cyc.stolen then s
    else
      let i : LdgItem := .cmd lo hi w before ahead
      match if c.ldgExec.isNone then c.rejectsStart (s.carve (core / 16)) w lo hi else none with
      | some cls => s.setCore p ((c.beginLdg i).endLdg.rejectLdg s.now cls lo w)
      | none => if ldgOp lo = op then run s lo hi w before i else s
  | _ => s

/-- NOP (R57): it starts and executes without effect. -/
def execNop (core : Nat) (s : State) : Out :=
  onLive core s (fun p _ => s.ldgRun p core 0 (fun s _ _ _ _ i => s.modCore p (fun c => c.beginLdg i)))

/-- The 64 bytes of a FILL pattern. -/
def patternChunk (v : Nat) : List Byte := (List.replicate 16 (natBytes 4 v)).flatten

/-- Write whole chunks as a ledge engine does: it replaces memory even inside a window (R63), clears poison (R56). -/
def State.engineWrite (s : State) (p : Nat) (l : List (Nat × List Byte × Bool)) : State :=
  l.foldl (fun s x => s.poke p x.1 x.2.1 x.2.2) s

/-- Ledges and chunks of each that one access of the command takes (Table 2-7). -/
def ldgWidth (lo hi : Reg64) : Nat × Nat :=
  if ldgOp lo = 2 then (1, if ledgeOf (ldgDst lo) = ledgeOf (ldgSrc hi) then 8 else 4) else portWidth .engine

/-- Charge of a command that writes its destination, in quarters of a unit (R71, R309, Table 2-7). -/
def CoreState.ldgCharge (c : CoreState) (lo hi : Reg64) : Nat :=
  ((rangeChunks (ldgDst lo) (ldgLen hi)).map (fun a => (if ldgOp lo = 2 then 8 else 1) + (if c.folded a then 8 else 0))).foldl (· + ·) 0

/-- The frame of a command that writes its destination: window check, tag stage, governor, claims, data. `data` gives the state
after the source is read and what to write, or none while a chunk of the source is under repair, at its address. -/
def State.ldgWrite (s : State) (p core : Nat) (lo hi : Reg64) (w : Option WordCtx) (before : Nat) (i : LdgItem)
    (data : State → State × (Nat ⊕ List (Nat × List Byte × Bool))) : State :=
  let c := s.core p
  let pr := ldgProducer w before
  match s.ldgMeetsWindow core c lo hi with
  | some a =>
    let c1 := (c.beginLdg i).endLdg
    s.setCore p (match w with
      | some x => c1.faultWord s.now clsBounds 7 x (some a)
      | none => c1.rejectLdg s.now clsBounds lo none)
  | none =>
    match c.ldgBlocked lo hi pr with
    | some x => s.setCore p (c.ldgWaits s.now i w x .write)
    | none =>
      if s.portAdmits p (c.ldgCharge lo hi) then
        match data s with
        | (s1, .inl a) => s1.modCore p (fun c => c.ldgBegins s.now i a .repair)
        | (s1, .inr l) =>
          let c1 := ((s1.core p).beginLdg i).ldgClaim lo hi pr
          let c2 := match w with
            | some x => c1.unwait 7 x
            | none => c1
          let src := if ldgOp lo = 2 then rangeChunks (ldgSrc hi) (ldgLen hi) else []
          ((s1.setCore p c2).portTake p .engine (ldgWidth lo hi) (c.ldgCharge lo hi)
            (src ++ rangeChunks (ldgDst lo) (ldgLen hi))).engineWrite p l
      else s.govHold p (p / 17)

/-- FILL (R57): the pattern over whole chunks of the destination, at a quarter unit a chunk (R71). -/
def execFill (core : Nat) (s : State) : Out :=
  onLive core s (fun p _ => s.ldgRun p core 1 (fun s lo hi w before i =>
    s.ldgWrite p core lo hi w before i (fun s =>
      (s, .inr ((rangeChunks (ldgDst lo) (ldgLen hi)).map (fun a => (a, patternChunk (ldgPattern hi), false)))))))

/-- COPY (R57, Table 2-7): as if the whole source were read before any write; poison goes with its chunk (Table 2-5). -/
def execCopy (core : Nat) (s : State) : Out :=
  onLive core s (fun p _ => s.ldgRun p core 2 (fun s lo hi w before i =>
    let c := s.core p
    let src := rangeChunks (ldgSrc hi) (ldgLen hi)
    match firstFailing (c.slotsOf src) (c.readPasses none) with
    | some x => s.setCore p (c.ldgWaits s.now i w x .source)
    | none => s.ldgWrite p core lo hi w before i (fun s =>
        match s.meets p .copy src with
        | (.data marked, s1) => (s1, .inr ((List.range (ldgLen hi)).map (fun k =>
            (ldgDst lo + k * 64, (s1.core p).peek (ldgSrc hi + k * 64) 64, decide (ldgSrc hi + k * 64 ∈ marked)))))
        | (.stall a, s1) => (s1, .inl a)
        | (.poison a, s1) => (s1, .inl a))))

/-- ACC_OPEN (R86): the window opens once the slots it stamps are free; it claims them. -/
def execAccOpen (core : Nat) (s : State) : Out :=
  onLive core s (fun p _ => s.ldgRun p core 3 (fun s lo hi w before i =>
    let c := s.core p
    let slots := if ldgStampEn lo then c.ldgSlots lo hi else []
    match slots.find? (fun x => !((c.tagSeen x.1 x.2).free && (c.tag x.1 x.2).free && !c.held x.1)) with
    | some x => s.setCore p (c.ldgWaits s.now i w x .opens)
    | none =>
      let pr : Producer := ⟨7, ldgWin lo, before⟩
      let c1 := slots.foldl (fun c x => c.claim pr x) (c.beginLdg i)
      let c2 : CoreState := { c1 with accWin := c1.accWin ++
        [⟨ldgWin lo, ldgDst lo, ldgLen hi, ldgBf16 lo, ldgStampEn lo, before⟩] }
      let c3 := c2.put F.ldgEngStat_winOpen (setBits (c2.get F.ldgEngStat_winOpen) (ldgWin lo) (ldgWin lo) 1)
      s.setCore p (match w with
        | some x => c3.unwait 7 x
        | none => c3)))

/-- Basin destinations of operations of words issued before number `before` that have not all been written: those in the queues,
those whose first access waits, those that execute with writes to make, and accesses between their port and their bank (R65). -/
def CoreState.earlierDests (c : CoreState) (geo : Nat × Nat) (before : Nat) : List Nat :=
  ((c.estQ ++ c.storeQ ++ c.loadQ ++ c.started).filter (fun q => decide (q.w.count < before))).flatMap (fun q => destChunks geo q.op) ++
  ((c.exec.filter (fun x => decide (x.w.count < before))).flatMap (fun x => x.pend.map (fun y => chunkOf y.addr))) ++
  ((c.accesses ++ c.banking.map (fun b => b.acc)).filter (fun a => a.write && (match accCount a with
    | some k => decide (k < before)
    | none => false))).flatMap (fun a => a.whole.map (fun y => chunkOf y.addr))

/-- The BST of a word issued before number `before` has still to write into the range (R65). -/
def CoreState.bstInto (c : CoreState) (before base len : Nat) : Bool :=
  match c.iss.scal with
  | some f =>
    let a := c.sclBasin (bits f.toNat 15 11) (BitVec.ofNat 16 (bits f.toNat 31 16))
    bits f.toNat 5 0 == 0x27 && decide (c.iss.count < before) && decide (base ≤ a ∧ a < base + len)
  | none => false

/-- The slots that ACC_CLOSE posts or frees: those its window claimed (R86). -/
def CoreState.closeSlots (c : CoreState) (win : AccWindow) : List (Cove × Nat) :=
  if win.stampEn then (c.whollyIn (rangeChunks win.base win.len)).filter (fun x =>
    (c.tag x.1 x.2).claimant == some ⟨7, win.win, win.serial⟩ && (c.tag x.1 x.2).state == 1)
  else []

/-- ACC_CLOSE (R65, R86): the window closes once no write of an earlier operation into it is outstanding, and posts or frees the
slots it claimed; a post in a held cove waits (R84). Writes of later words have stored plainly since the command was queued
(CoreState.closeBefore). Of a window that is not open it does nothing. -/
def execAccClose (core : Nat) (s : State) : Out :=
  onLive core s (fun p _ => s.ldgRun p core 4 (fun s lo _ w before i =>
    let c := s.core p
    match c.accWin.find? (fun x => x.win == ldgWin lo) with
    | none => s.setCore p (c.beginLdg i)
    | some win =>
      let outstanding := (c.earlierDests s.geo before).any (fun a => decide (win.base ≤ a ∧ a < win.base + win.len * 64)) ||
        s.landingInto p before win.base (win.len * 64) || c.bstInto before win.base (win.len * 64)
      if outstanding then s
      else
        match if ldgStampEn lo then (c.closeSlots win).find? (fun x => c.held x.1) else none with
        | some x => s.setCore p (c.ldgWaits s.now i w x .post)
        | none =>
          let c1 := c.beginLdg i
          let c2 := (c.closeSlots win).foldl (fun c x =>
            if ldgStampEn lo then c.post (ldgStamp lo) x else c.setTag x.1 x.2 { c.tag x.1 x.2 with state := 0 }) c1
          let c3 : CoreState := { c2 with accWin := c2.accWin.filter (fun x => x.win != win.win) }
          let c4 := c3.put F.ldgEngStat_winOpen (setBits (c3.get F.ldgEngStat_winOpen) win.win win.win 0)
          s.setCore p (match w with
            | some x => c4.unwait 7 x
            | none => c4)))

/-- Slots that a FILL or COPY posts as it completes: those it claimed (R57, R81). -/
def CoreState.ldgPosts (c : CoreState) (lo hi : Reg64) (w : Option WordCtx) (before : Nat) : List (Cove × Nat) :=
  if ldgStampEn lo && (ldgOp lo == 1 || ldgOp lo == 2) then
    (c.ldgSlots lo hi).filter (fun x => (c.tag x.1 x.2).claimant == some (ldgProducer w before) && (c.tag x.1 x.2).state == 1)
  else []

/-- LEDGE_CMD_COMPLETE (R61): the executing command has written; it posts its stamp, which waits in a held cove (R62, R84), and
counts in DONE_COUNT. -/
def execLedgeCmdComplete (core : Nat) (s : State) : Out :=
  onLive core s (fun p c =>
    match c.ldgExec with
    | some (.cmd lo hi w before ahead) =>
      if c.ldgWhy = none ∨ (c.ldgWhy = some .post ∧ ldgOp lo ≠ 4) then
        let slots := c.ldgPosts lo hi w before
        match slots.find? (fun x => c.held x.1) with
        | some x => s.setCore p (c.ldgWaits s.now (.cmd lo hi w before ahead) w x .post)
        | none =>
          let c1 := slots.foldl (fun c x => c.post (ldgStamp lo) x) c
          let c2 := c1.endLdg.wrap F.ldgEngStat_doneCount
          s.setCore p (match w with
            | some x => c2.unwait 7 x
            | none => c2)
      else s
    | _ => s)

/-- LEDGE_CMD_TIMEOUT (R62): a CSR-path command that has waited 100 µs is abandoned, counts as done, sets TIMEOUT, and where
the slot lies in an enabled cove faults the core with TAG_TIMEOUT for the cove's owner. -/
def execLedgeCmdTimeout (core : Nat) (s : State) : Out :=
  onLive core s (fun p c =>
    match c.ldgExec, c.ldgWait with
    | some (.cmd _ _ none _ _), some x =>
      if x.since + 100000 ≤ s.now then
        let c1 := (c.endLdg.wrap F.ldgEngStat_doneCount).raise F.ldgEngStat_timeout
        s.setCore p (match c.coveAt x.addr with
          | some v => c1.faultCtx s.now (c.get F.coveCfg_owner v.n)
              { cls := clsTimeout, unit := 7, tag := 0, off := 0, addr := some x.addr, claimant := (c.tag v (v.slotOf x.addr)).shown }
          | none => c1)
      else s
    | _, _ => s)

/-! ## FOLD and UNFOLD (R310) -/

/-- XOR a range of a core, contents and poison, into the parity of its shoal. -/
def State.foldRange (s : State) (p base len : Nat) : State :=
  let c := s.core p
  let s1 := s.modCore p (fun c => c.wrap F.corShadow_deltas (len / 64))
  (rangeChunks base (len / 64)).foldl (fun s a => s.applyDelta (p / 17) ⟨a, c.peek a 64, c.poisoned a⟩) s1

/-- Set or clear the FOLDED bit of a cove. -/
def CoreState.setFolded (c : CoreState) (n : Nat) (b : Bool) : CoreState :=
  c.put F.corShadow_folded (setBits (c.get F.corShadow_folded) n n (b2n b))

/-- FOLD: the queued FOLD at the front sends the extent's contents; FOLDED sets. -/
def execFold (core : Nat) (s : State) : Out :=
  onLive core s (fun p c =>
    match c.ldgExec, c.ldgQ with
    | none, .fold n base len ahead :: rest =>
      if c.earlierWritesDone ahead then
        ((s.foldRange p base len).modCore p (fun c => (({ c with ldgQ := rest } : CoreState).setFolded n true).takePush))
      else s
    | _, _ => s)

/-- UNFOLD: the queued UNFOLD at the front sends the contents again, which removes them from the parity. -/
def execUnfold (core : Nat) (s : State) : Out :=
  onLive core s (fun p c =>
    match c.ldgExec, c.ldgQ with
    | none, .unfold _ base len ahead :: rest =>
      if c.earlierWritesDone ahead then
        ((s.foldRange p base len).modCore p (fun c => ({ c with ldgQ := rest } : CoreState).takePush))
      else s
    | _, _ => s)

/-! ## The sweep (R66, Table 11-6) -/

/-- Addresses of the words of one row in all ledges lie in `[ledge, row]`. -/
def inRow (row a : Nat) : Bool := a % 2 ^ 21 / 1024 == row

/-- What the sweep does with an uncorrectable word of a core (Table 11-6). -/
def State.sweepUe (s : State) (p core a : Nat) : State :=
  let c := s.core p
  let ch := chunkOf a
  if c.poisoned ch then s
  else
    let s1 := s.setCore p (c.setPoison ch true)
    if c.folded ch then
      (s1.pushDelta p ⟨ch, List.replicate 64 0, true⟩).modCore p (fun c => { c with repairs := c.repairs ++ [⟨ch, true, s.now⟩] })
    else match c.coveAt ch with
      | some v => s1.notifyCove core v.n 4
      | none => s1

/-- The places of a shoal whose folded coves hold the chunk at an address: the contributors to its parity (R306). -/
def State.contributors (s : State) (shoal a : Nat) : List Nat :=
  ((List.range 17).map (fun k => shoal * 17 + k)).filter (fun q => s.spare shoal != some q && (s.core q).folded a)

/-- A contributor's chunk in a parity recompute (R325): one with an uncorrectable word is poisoned and counted, and its owner hears of
it. -/
def State.recomputeFrom (s : State) (shoal a q : Nat) : State :=
  let c := s.core q
  let es := c.errorsIn a
  if es.any (fun e => e.2) then
    let s1 := (s.setCore q ((c.countErrors es).setPoison a true)).bump F.shlMendStat_repairFails 1 shoal
    match s.logical q, c.coveAt a with
    | some core, some v => s1.notifyCove core v.n 5
    | _, _ => s1
  else s.setCore q (c.countErrors es)

/-- The parity chunk at an address is recomputed from its contributors, with their poison bits (Table 11-6, R306, R325), once every
delta under way has reached the reserve. DEDUCED, log entry 141: it is read and written at once, and charged as that many reads and
a write. -/
def State.recompute (s : State) (r shoal a : Nat) : State :=
  let l := s.contributors shoal a
  let s1 := l.foldl (fun s q => s.recomputeFrom shoal a q) (s.drainDeltas shoal)
  let data := l.foldl (fun m q => xorBytes m ((s1.core q).peek a 64)) (List.replicate 64 0)
  let bad := l.foldl (fun m q => m != (s1.core q).poisoned a) false
  ((s1.modCore r (fun c => ({ c with
      basin := Bytes.write 0 c.basin a data
      ecc := c.ecc.filter (fun e => e.1 / 64 != a / 64) } : CoreState).setPoison a bad)).charge r (4 * (l.length + 1))).bump
    F.shlMendStat_sweepRepairs 1 shoal

/-- One row of every ledge is read: corrected words are rewritten, chunks with an uncorrectable word handled, the row and the charge
move on. -/
def State.sweepRead (s : State) (p : Nat) (upsets : List Upset) (ue : State → Nat → State) : State :=
  let c := upsets.foldl CoreState.upset (s.core p)
  let found := c.ecc.filter (fun e => inRow c.sweepRow e.1)
  let fixed := found.filter (fun e => !e.2)
  let c1 := (c.countErrors found)
  let c2 : CoreState := { c1 with
    ecc := c1.ecc.filter (fun e => !decide (e ∈ fixed))
    sweepRow := (c.sweepRow + 1) % 2048
    sweepDue := s.now + max 16 (c.get F.ldgSweep_interval)
    sweepWaited := 0 }
  let c3 := if c.sweepRow = 2047 then c2.wrap F.ldgSweep_passes else c2
  let s1 := (s.setCore p c3).charge p (4 * 192 + 4 * ((fixed.map (fun e => e.1 / 64)).eraseDups).length)
  (((found.filter (fun e => e.2)).map (fun e => chunkOf e.1)).eraseDups).foldl ue s1

/-- A sweep command: of a logical core, or of the reserve of shoal `j`, core 1,280 + j, whose basin holds parity (Table 11-6). DESIGN
CHOICE, log entry 141: that number. -/
def onSwept (core : Nat) (s : State) (f : Nat → CoreState → (State → Nat → State) → State) : Out :=
  if 1280 ≤ core ∧ core < 1360 then
    match s.spare (core - 1280) with
    | none => .next s
    | some r =>
      if s.usable (core - 1280) && !s.reconfiguring (core - 1280) && (s.core r).washEnd.isNone then
        .next (f r (s.core r) (fun s a => s.recompute r (core - 1280) a))
      else .next s
  else onLive core s (fun p c => f p c (fun s a => s.sweepUe p core a))

/-- No access of the core takes or wants a bank in this cycle (R66). -/
def CoreState.banksIdle (c : CoreState) (now : Nat) : Bool := !c.cyc.busy && c.accesses.all (fun a => !c.wantsBanks now a)

/-- SWEEP_ROW: a row's turn has come and an idle cycle serves it. The sweep is last in the order of R46: it reads no row in a cycle
in which an access takes or wants a bank. -/
def execSweepRow (core : Nat) (upsets : List Upset) (s : State) : Out :=
  onSwept core s (fun p c ue =>
    if c.flag F.ldgSweep_enable && decide (c.sweepDue ≤ s.now) && c.banksIdle s.now then s.sweepRead p upsets ue else s)

/-- SWEEP_STEAL: after 64 cycles without an idle cycle the sweep takes the next cycle ahead of every other access, and counts it;
every access of that cycle waits. -/
def execSweepSteal (core : Nat) (upsets : List Upset) (s : State) : Out :=
  onSwept core s (fun p c ue =>
    if c.flag F.ldgSweep_enable && decide (64 ≤ c.sweepWaited) && !c.cyc.busy then
      (s.modCore p (fun c => { c.bump F.ldgSweep_steals with cyc.stolen := true })).sweepRead p upsets ue
    else s)

/-! ## The wash (R68 to R70, Table 15-8) -/

/-- Offsets of the core-window registers a wash returns to their reset value whole. -/
def washedOffsets : List Nat :=
  [0x10, 0x20, 0xf0, 0x140, 0x3a8, 0xc20, 0xc28] ++ (List.range 8).map (fun n => 0x100 + n * 8) ++
  (List.range 32).flatMap (fun n => [0x408 + n * 0x20, 0x410 + n * 0x20, 0x418 + n * 0x20, 0x800 + n * 8]) ++
  (List.range 7).flatMap (fun n => (List.range 5).map (fun k => 0x200 + n * 0x30 + k * 8))

/-- Strand RAM words outside the constant blocks are forgotten (R68, R163). -/
def keepConst (blocks : Nat) (m : List (Nat × Reg64)) : List (Nat × Reg64) := m.filter (fun e => bit blocks (e.1 / 512))

/-- The accesses that a wash finds: those that wait, and those that had won banks and not reached their bank cycle, which wait for
them again (R70). -/
def CoreState.keptAccesses (c : CoreState) : List Access :=
  c.banking.foldl (fun l b =>
    if b.stalled.isSome && !b.acc.write then l
    else if l.any (fun a => a.serial == b.acc.serial) then
      l.map (fun a => if a.serial = b.acc.serial then { a with pieces := b.part ++ a.pieces } else a)
    else l ++ [{ b.acc with pieces := b.part, passed := true, breached := true, retry := false }]) c.accesses

/-- The core state after the clears of a wash that ends at tick `done`. -/
def CoreState.washed (c : CoreState) (blocks done : Nat) : CoreState :=
  let regs := washedOffsets.foldl (fun m o => Sparse.set (coreReset o) m o (coreReset o)) c.regs
  let c1 : CoreState := { CoreState.reset with
    regs := regs
    strand := keepConst blocks c.strand
    plan := c.plan
    accesses := c.keptAccesses
    portData := c.portData
    traceBuf := c.traceBuf
    isolated := c.isolated
    iss := { IssueState.reset with count := c.iss.count }
    washEnd := some done
    sweepRow := 0
    sweepDue := done }
  let c2 := (List.range 32).foldl (fun c n => (c.put F.coveCfg_enable 0 n).put F.coveCfg_lock 0 n) c1
  ((((((c2.put F.corCtl_entry 0).put F.corCtl_stopped 1).put F.corCtl_faulted 0).put F.corCtl_start 0).put F.corResidue_declared 0).put
    F.corShadow_folded 0).put F.ldgEngPush_push 0 |>.put F.ldgEngStat_winOpen 0 |>.put F.corSclStat_waiting 0 |>.put F.ldgWash_go 1

/-- Write the washed values into the configuration mirror of a logical core (R68, R311). -/
def State.washMirror (s : State) (core : Nat) (c : CoreState) : State :=
  let offs := washedOffsets ++ [0x8] ++ (List.range 32).map (fun n => 0x400 + n * 0x20)
  { s with
    mirror := offs.foldl (fun m o => Sparse.set (coreReset o) m (core * 4096 + o) (c.reg o)) s.mirror
    routeMirror := Sparse.clear s.routeMirror (core * 512) (core * 512 + 512) }

/-- Remove a core's folded coves from the parity of its shoal (R68, R306). DEDUCED, log entry 14. -/
def State.unparity (s : State) (p : Nat) : State :=
  ((s.core p).coves.filter (fun v => (s.core p).folded v.base)).foldl (fun s v => s.foldRange p v.base v.extent) (s.drainDeltas (p / 17))

/-- Start the wash of a physical core; `core` is its logical number, none for a spare. -/
def State.washCore (s : State) (p : Nat) (core : Option Nat) : State :=
  let s1 := s.unparity p
  let c := (s.core p).washed s.constBlocks (s.now + 2049)
  let s2 := s1.setCore p c
  match core with
  | some k => s2.washMirror k c
  | none => s2

/-- WASH_DONE for a physical core: DONE sets, GO clears, the sweep runs from row 0. -/
def CoreState.washOver (c : CoreState) : CoreState :=
  { (((c.raise F.ldgWash_done).put F.ldgWash_go 0).wrap F.ldgWash_washCount) with washEnd := none }

end Sys2Proof.Machine
end

