-- ==== Sys2Proof/Machine/Coves.lean ====
section
/-! DEFINITION. Coves (R73 to R77, R89, R106, R310): what a write of a cove descriptor or of a tag does. -/

namespace Sys2Proof.Machine

/-! ## Descriptors (R73, R74) -/

/-- The cove a descriptor describes. -/
def coveOf (n : Nat) (cfg : Reg64) (tagBase : Nat) : Cove :=
  ⟨n, field cfg 24 0, 64 * 2 ^ field cfg 28 25, field cfg 44 32, tagBase⟩

/-- Two ranges of numbers have nothing in common. -/
def apart (a n b m : Nat) : Bool := decide (a + n ≤ b) || decide (b + m ≤ a)

/-- The descriptor is valid on this core (R73). -/
def CoreState.coveValid (c : CoreState) (carve : Nat × Nat) (n : Nat) (cfg : Reg64) (tagBase : Nat) : Bool :=
  let v := coveOf n cfg tagBase
  decide (field cfg 28 25 ≤ 10) && decide (1 ≤ v.slots) && decide (v.slots ≤ 4096) && decide (v.base % 64 = 0) &&
  decide (v.base + v.extent ≤ basinBytes) && decide (carve.1 * 64 ≤ v.base) && decide (v.base + v.extent ≤ carve.2 * 64) &&
  decide (tagBase + v.slots ≤ 8192) && (n != 0 || decide (v.extent ≤ 2 ^ 20)) &&
  (c.coves.filter (fun u => u.n != n)).all (fun u =>
    apart v.base v.extent u.base u.extent && apart tagBase v.slots u.tagBase u.slots)

/-- A write of COVE_CFG and TAG_BASE may take effect: in an enabled cove that is not held only ENABLE may change (R74), and a
cove left enabled needs a valid descriptor (R73). -/
def CoreState.coveWriteOk (c : CoreState) (carve : Nat × Nat) (n : Nat) (cfg : Reg64) (tagBase : Nat) : Bool :=
  let old := c.reg (F.coveCfg_enable.addr n)
  let live := c.flag F.coveCfg_enable n && !c.flag F.coveCtl_hold n
  let same := field old 62 0 == field cfg 62 0 && tagBase == c.get F.coveAux_tagBase n
  (!live || same) && (field cfg 63 63 == 0 || c.coveValid carve n cfg tagBase)

/-- Enabling a cove: its tags are EBB with stamp 0, its pointers and COVE_STAT 0 (R75); a shadowed cove queues a FOLD (R310). -/
def CoreState.coveEnabled (c : CoreState) (n : Nat) : CoreState :=
  let v := c.cove n
  let c1 : CoreState := { c with
    tags := Sparse.clear c.tags v.tagBase (v.tagBase + v.slots)
    cyc.tagsAt := c.cyc.tagsAt.filter (fun x => !(decide (v.tagBase ≤ x.1) && decide (x.1 < v.tagBase + v.slots)))
    lastLevel := Sparse.set 0 c.lastLevel n 0 }
  let c2 := (c1.setReg (F.covePtr_head.addr n) 0).setReg (F.coveStat_peak.addr n) 0
  if c.flag F.coveCfg_shadow n then { c2 with ldgQ := c2.ldgQ ++ [.fold n v.base v.extent c2.aheadNow] } else c2

/-- Disabling a cove ends its releases (R90); a shadowed cove queues an UNFOLD and clears its FOLDED bit (R310). `v` and
`shadow` are those of the descriptor before the write. -/
def CoreState.coveDisabled (c : CoreState) (v : Cove) (shadow : Bool) : CoreState :=
  let c1 : CoreState := { c with rels := c.rels.filter (fun r => r.cove != v.n) }
  if shadow then { (c1.setFolded v.n false) with ldgQ := c1.ldgQ ++ [.unfold v.n v.base v.extent c1.aheadNow] } else c1

/-- A write of COVE_CFG takes effect. -/
def CoreState.writeCoveCfg (c : CoreState) (n : Nat) (cfg : Reg64) : CoreState :=
  let was := c.flag F.coveCfg_enable n
  let now := field cfg 63 63 == 1
  let c1 := c.setReg (F.coveCfg_enable.addr n) cfg
  if !was && now then c1.coveEnabled n
  else if was && !now then c1.coveDisabled (c.cove n) (c.flag F.coveCfg_shadow n)
  else c1

/-! ## Tags by software (R89, R106) -/

/-- The enabled cove that owns a tag of the tag store. -/
def CoreState.coveOfTag (c : CoreState) (i : Nat) : Option Cove :=
  c.coves.find? (fun v => decide (v.tagBase ≤ i) && decide (i < v.tagBase + v.slots))

/-- COVE_TAG_DATA may be written: the cove that owns the tag is held (R106). -/
def CoreState.tagWritable (c : CoreState) (i : Nat) : Bool :=
  match c.coveOfTag i with
  | some v => c.held v
  | none => false

/-- Set the selected tag; the claimant stays. -/
def CoreState.writeTag (c : CoreState) (i : Nat) (value : Reg64) : CoreState :=
  match c.coveOfTag i with
  | some v =>
    let t := c.tag v (i - v.tagBase)
    c.setTag v (i - v.tagBase) { t with
      state := field value 17 16
      stamp := BitVec.ofNat 16 (field value 15 0)
      retained := field value 19 19 == 1 }
  | none => c

/-- What COVE_TAG_DATA shows of a tag. -/
def Tag.shownWord (t : Tag) : Reg64 :=
  BitVec.ofNat 64 (t.shown * 2 ^ 20 + b2n t.retained * 2 ^ 19 + t.state * 2 ^ 16 + t.stamp.toNat)

/-- PEAK_CLR (R419): PEAK takes the LEVEL. -/
def CoreState.clearPeak (c : CoreState) (n : Nat) : CoreState :=
  (c.put F.coveStat_peak (c.level (c.cove n)) n).once (peakKey n) (fun c => c)

/-! ## Parameter blocks -/

/-- Chunks of a parameter block that the parts of a PARAM lie in (Table 5-4). -/
def paramChunks (a : ParamArgs) : List Nat :=
  ((if bit a.parts 0 then [0] else []) ++ (if bit a.parts 1 then List.range' 1 16 else []) ++
    (if bit a.parts 2 then List.range' 17 48 else [])).map (fun k => (a.base + k) * 64)

end Sys2Proof.Machine
end

