-- ==== Sys2Proof/Machine/Flags.lean ====
section
/-! DEFINITION. The sticky flags of the engines: NaN seen, integer wrap, saturation (R111, R113, R142, R154, R193). -/

namespace Sys2Proof.Machine

/-- Set a one-bit field where a condition holds; it stays set (class W1C). -/
def CoreState.stick (c : CoreState) (f : RF) (b : Bool) : CoreState := if b then c.raise f else c

/-- COR_SCL_STAT.NAN_SEEN: a scalar binary32 result is a NaN (R193). -/
def CoreState.sclNan (c : CoreState) (v : Word) : CoreState := c.stick F.corSclStat_nanSeen (Fp.isNan Fp.f32 v.toNat)

/-- COR_VEC_STAT: some FP result is a NaN, some integer result wrapped or a CVT saturated (R142). -/
def CoreState.vecFlags (c : CoreState) (nan wrap : Bool) : CoreState :=
  (c.stick F.corVecStat_nanSeen nan).stick F.corVecStat_intWrap wrap

/-- COR_ARR_STAT: a committed value is a NaN (R113), an INT32 addition wrapped (R111). -/
def CoreState.arrFlags (c : CoreState) (nan wrap : Bool) : CoreState :=
  (c.stick F.corArrStat_nanSeen nan).stick F.corArrStat_intWrap wrap

/-- COR_EST_STAT: an output value is a NaN, a quantised element saturated (R154). -/
def CoreState.estFlags (c : CoreState) (nan sat : Bool) : CoreState :=
  (c.stick F.corEstStat_nanSeen nan).stick F.corEstStat_sat sat

/-- The exact result does not fit `w` bits in two's complement. -/
def wraps (w : Nat) (v : Int) : Bool := decide (v < -(2 ^ (w - 1) : Int)) || decide ((2 ^ (w - 1) : Int) ≤ v)

end Sys2Proof.Machine
end

