-- ==== Sys2Proof/Machine/Scalar.lean ====
section
/-! DEFINITION. The scalar processor (R191 to R199): its registers, its arithmetic, its stores, and the meaning of every scalar
instruction but the branches' fetch. -/

namespace Sys2Proof.Machine

/-! ## Registers -/

/-- Write a scalar register; a write to x0 is discarded (R191). -/
def CoreState.setX (c : CoreState) (r : Nat) (v : Word) : CoreState :=
  if r = 0 then c else { c with xregs := Sparse.set 0 c.xregs r v }

/-- The scalar slot of the word last issued has executed. -/
def CoreState.scalDone (c : CoreState) : CoreState := { c with iss.scal := none }

/-- What travels with the accesses of the word last issued. -/
def CoreState.issCtx (c : CoreState) : WordCtx where
  tag := c.iss.tag
  post := c.iss.post
  stamp := c.iss.stamp
  expect := c.iss.expect
  deadline := c.iss.deadline
  off := c.iss.curOff
  ctx := c.get F.corCtl_ctx
  count := c.iss.count

/-- A fault of the scalar unit in the word last issued. -/
def CoreState.sclFault (c : CoreState) (now cls : Nat) (addr : Option Nat := none) (imm : Nat := 0) : CoreState :=
  (c.fault now { cls, unit := 1, tag := c.iss.tag, off := c.iss.curOff / 4, addr, imm, count := some c.iss.count }).scalDone

/-! ## Arithmetic (Table 7-2, R193) -/

/-- A binary32 operation on registers. -/
def fpWord (f : Nat → Nat → Nat) (a b : Word) : Word := BitVec.ofNat 32 (f a.toNat b.toNat)

def sclAdd (a b : Word) : Word := a + b
def sclSub (a b : Word) : Word := a - b
def sclAnd (a b : Word) : Word := a &&& b
def sclOr (a b : Word) : Word := a ||| b
def sclXor (a b : Word) : Word := a ^^^ b
def sclSll (a b : Word) : Word := a <<< (b.toNat % 32)
def sclSrl (a b : Word) : Word := a >>> (b.toNat % 32)
def sclSra (a b : Word) : Word := a.sshiftRight (b.toNat % 32)
def sclSlt (a b : Word) : Word := if a.toInt < b.toInt then 1 else 0
def sclSltu (a b : Word) : Word := if a.toNat < b.toNat then 1 else 0
def sclMul (a b : Word) : Word := a * b
def sclMulhu (a b : Word) : Word := BitVec.ofNat 32 (a.toNat * b.toNat / 2 ^ 32)
def sclDivu (a b : Word) : Word := BitVec.ofNat 32 (a.toNat / b.toNat)
def sclRemu (a b : Word) : Word := BitVec.ofNat 32 (a.toNat % b.toNat)
def sclLui (i : BitVec 16) : Word := imm32 i <<< 16
def sclFadd (a b : Word) : Word := fpWord (Fp.addB Fp.f32) a b
def sclFsub (a b : Word) : Word := fpWord (Fp.subB Fp.f32) a b
def sclFmul (a b : Word) : Word := fpWord (Fp.mulB Fp.f32) a b
def sclFdiv (a b : Word) : Word := fpWord (Fp.divB Fp.f32) a b
def sclFmin (a b : Word) : Word := fpWord (Fp.minB Fp.f32) a b
def sclFmax (a b : Word) : Word := fpWord (Fp.maxB Fp.f32) a b
def sclFeq (a b : Word) : Word := if Fp.eqB Fp.f32 a.toNat b.toNat then 1 else 0
def sclFlt (a b : Word) : Word := if Fp.ltB Fp.f32 a.toNat b.toNat then 1 else 0
def sclFle (a b : Word) : Word := if Fp.leB Fp.f32 a.toNat b.toNat then 1 else 0
def sclFcvtWS (a : Word) : Word := BitVec.ofInt 32 (Fp.toIntB Fp.f32 32 a.toNat).1
def sclFcvtSW (a : Word) : Word := BitVec.ofNat 32 (Fp.ofIntB Fp.f32 a.toInt)

/-- A result is written and the slot is done. -/
def CoreState.sclWrite (c : CoreState) (rd : Nat) (v : Word) : CoreState := (c.setX rd v).scalDone

/-- An FP result: as `sclWrite`, with NAN_SEEN. -/
def CoreState.sclWriteFp (c : CoreState) (rd : Nat) (v : Word) : CoreState := (c.setX rd v).scalDone.sclNan v

/-- A register instruction with two sources. -/
def sclR (f : Word → Word → Word) (core rd ra rb : Nat) (s : State) : Out :=
  onLive core s (fun p c => s.setCore p (c.sclWrite rd (f (c.x ra) (c.x rb))))

/-- A binary32 instruction with two sources and a binary32 result. -/
def sclF (f : Word → Word → Word) (core rd ra rb : Nat) (s : State) : Out :=
  onLive core s (fun p c => s.setCore p (c.sclWriteFp rd (f (c.x ra) (c.x rb))))

/-- A register instruction with an immediate. -/
def sclI (f : Word → Word → Word) (core rd ra : Nat) (imm : BitVec 16) (s : State) : Out :=
  onLive core s (fun p c => s.setCore p (c.sclWrite rd (f (c.x ra) (imm32 imm))))

/-- A division; by zero it faults with SCALAR_TRAP and writes nothing (R193). -/
def sclD (f : Word → Word → Word) (core rd ra rb : Nat) (s : State) : Out :=
  onLive core s (fun p c => s.setCore p
    (if c.x rb = 0 then c.sclFault s.now clsTrap else c.sclWrite rd (f (c.x ra) (c.x rb))))

def execAdd (core : Nat) (rd ra rb : Fin 32) (s : State) : Out := sclR sclAdd core rd ra rb s
def execSub (core : Nat) (rd ra rb : Fin 32) (s : State) : Out := sclR sclSub core rd ra rb s
def execAnd (core : Nat) (rd ra rb : Fin 32) (s : State) : Out := sclR sclAnd core rd ra rb s
def execOr (core : Nat) (rd ra rb : Fin 32) (s : State) : Out := sclR sclOr core rd ra rb s
def execXor (core : Nat) (rd ra rb : Fin 32) (s : State) : Out := sclR sclXor core rd ra rb s
def execSll (core : Nat) (rd ra rb : Fin 32) (s : State) : Out := sclR sclSll core rd ra rb s
def execSrl (core : Nat) (rd ra rb : Fin 32) (s : State) : Out := sclR sclSrl core rd ra rb s
def execSra (core : Nat) (rd ra rb : Fin 32) (s : State) : Out := sclR sclSra core rd ra rb s
def execSlt (core : Nat) (rd ra rb : Fin 32) (s : State) : Out := sclR sclSlt core rd ra rb s
def execSltu (core : Nat) (rd ra rb : Fin 32) (s : State) : Out := sclR sclSltu core rd ra rb s
def execMul (core : Nat) (rd ra rb : Fin 32) (s : State) : Out := sclR sclMul core rd ra rb s
def execMulhu (core : Nat) (rd ra rb : Fin 32) (s : State) : Out := sclR sclMulhu core rd ra rb s
def execDivu (core : Nat) (rd ra rb : Fin 32) (s : State) : Out := sclD sclDivu core rd ra rb s
def execRemu (core : Nat) (rd ra rb : Fin 32) (s : State) : Out := sclD sclRemu core rd ra rb s
def execAddi (core : Nat) (rd ra : Fin 32) (imm : BitVec 16) (s : State) : Out := sclI sclAdd core rd ra imm s
def execAndi (core : Nat) (rd ra : Fin 32) (imm : BitVec 16) (s : State) : Out := sclI sclAnd core rd ra imm s
def execOri (core : Nat) (rd ra : Fin 32) (imm : BitVec 16) (s : State) : Out := sclI sclOr core rd ra imm s
def execXori (core : Nat) (rd ra : Fin 32) (imm : BitVec 16) (s : State) : Out := sclI sclXor core rd ra imm s
def execSlli (core : Nat) (rd ra : Fin 32) (imm : BitVec 16) (s : State) : Out := sclI sclSll core rd ra imm s
def execSrli (core : Nat) (rd ra : Fin 32) (imm : BitVec 16) (s : State) : Out := sclI sclSrl core rd ra imm s
def execSrai (core : Nat) (rd ra : Fin 32) (imm : BitVec 16) (s : State) : Out := sclI sclSra core rd ra imm s
def execFadd (core : Nat) (rd ra rb : Fin 32) (s : State) : Out := sclF sclFadd core rd ra rb s
def execFsub (core : Nat) (rd ra rb : Fin 32) (s : State) : Out := sclF sclFsub core rd ra rb s
def execFmul (core : Nat) (rd ra rb : Fin 32) (s : State) : Out := sclF sclFmul core rd ra rb s
def execFdiv (core : Nat) (rd ra rb : Fin 32) (s : State) : Out := sclF sclFdiv core rd ra rb s
def execFmin (core : Nat) (rd ra rb : Fin 32) (s : State) : Out := sclF sclFmin core rd ra rb s
def execFmax (core : Nat) (rd ra rb : Fin 32) (s : State) : Out := sclF sclFmax core rd ra rb s
def execFeq (core : Nat) (rd ra rb : Fin 32) (s : State) : Out := sclR sclFeq core rd ra rb s
def execFlt (core : Nat) (rd ra rb : Fin 32) (s : State) : Out := sclR sclFlt core rd ra rb s
def execFle (core : Nat) (rd ra rb : Fin 32) (s : State) : Out := sclR sclFle core rd ra rb s

/-- LUI: the immediate shifted to the upper half. -/
def execLui (core : Nat) (rd : Fin 32) (imm : BitVec 16) (s : State) : Out :=
  onLive core s (fun p c => s.setCore p (c.sclWrite rd (sclLui imm)))

/-- FCVT.W.S: to nearest even, saturating, a NaN to 0 (R193). -/
def execFcvtWS (core : Nat) (rd ra : Fin 32) (s : State) : Out :=
  onLive core s (fun p c => s.setCore p (c.sclWrite rd (sclFcvtWS (c.x ra))))

/-- FCVT.S.W: INT32 to binary32, rounded to nearest even. -/
def execFcvtSW (core : Nat) (rd ra : Fin 32) (s : State) : Out :=
  onLive core s (fun p c => s.setCore p (c.sclWrite rd (sclFcvtSW (c.x ra))))

/-- The tick in which the scalar slot issued: that of its word (R170, R194). -/
def State.sclTick (s : State) (c : CoreState) : Nat := if c.iss.scal.isSome then c.iss.issuedAt else s.now

/-- TIDE: the tide count of the issue cycle in a register pair; an odd RD is a DECODE fault (R195, R196). -/
def execTide (core : Nat) (rd : Fin 32) (s : State) : Out :=
  onLive core s (fun p c => s.setCore p
    (if rd.val % 2 = 1 then c.sclFault s.now clsDecode
     else ((c.setX rd (BitVec.ofNat 32 (s.sclTick c))).setX (rd.val + 1) (BitVec.ofNat 32 (s.sclTick c / 2 ^ 32))).scalDone))

/-- TRAP: the core faults with SCALAR_TRAP and IMM16 is recorded (R217, R439). -/
def execTrap (core : Nat) (imm : BitVec 16) (s : State) : Out :=
  onLive core s (fun p c => s.setCore p (c.sclFault s.now clsTrap none imm.toNat))

/-! ## The scalar store (R192) -/

/-- The address RA + IMM16. -/
def CoreState.sclAddr (c : CoreState) (ra : Nat) (imm : BitVec 16) : Nat := (c.x ra + imm32 imm).toNat

/-- An address the scalar store takes: aligned and at most 0xFFFC. -/
def sclAddrOk (a : Nat) : Bool := decide (a ≤ 0xFFFC) && decide (a % 4 = 0)

/-- LW. -/
def execLw (core : Nat) (rd ra : Fin 32) (imm : BitVec 16) (s : State) : Out :=
  onLive core s (fun p c => s.setCore p
    (if sclAddrOk (c.sclAddr ra imm) then
      c.sclWrite rd (BitVec.ofNat 32 (bytesNat (Bytes.read 0 c.sstore (c.sclAddr ra imm) 4)))
    else c.sclFault s.now clsBounds))

/-- SW. -/
def execSw (core : Nat) (rb ra : Fin 32) (imm : BitVec 16) (s : State) : Out :=
  onLive core s (fun p c => s.setCore p
    (if sclAddrOk (c.sclAddr ra imm) then
      ({ c with sstore := Bytes.write 0 c.sstore (c.sclAddr ra imm) (natBytes 4 (c.x rb).toNat) } : CoreState).scalDone
    else c.sclFault s.now clsBounds))

/-! ## Basin words (R196) -/

/-- The checks of R37 and R214 at the address. -/
def CoreState.sclForeign (c : CoreState) (carve : Nat × Nat) (a : Nat) : Bool :=
  decide (basinBytes ≤ a) || decide (a / 64 < carve.1) || decide (carve.2 ≤ a / 64) ||
  (match c.coveAt a with
   | some v => c.get F.coveCfg_owner v.n != c.get F.corCtl_ctx
   | none => false)

/-- The scalar slot begins to wait at its tag stage, in unit 1 (DESIGN CHOICE, log entry 125); in a core that ends its operations it
is abandoned (R218). -/
def CoreState.sclWait (c : CoreState) (a : Nat) : CoreState :=
  if c.ending then c.scalDone
  else c.wait ⟨1, c.issCtx, a, match c.coveAt a with | some v => (c.tag v (v.slotOf a)).shown | none => 0⟩

/-- BLD: a tag-checked read of 8 bytes into RD and RD + 1; an odd RD is a DECODE fault. -/
def execBld (core : Nat) (rd ra : Fin 32) (imm : BitVec 16) (s : State) : Out :=
  onLive core s (fun p c =>
    let a := c.sclBasin ra imm
    if rd.val % 2 = 1 then s.setCore p (c.sclFault s.now clsDecode)
    else if c.sclForeign (s.carve (core / 16)) a then s.setCore p (c.sclFault s.now clsBounds (some a))
    else
      match s.portRead p .sclRead c.iss.expect [a] .word with
      | (.done _, s1) => s1.modCore p (fun c =>
          ((((c.unwait 1 c.issCtx).setX rd (BitVec.ofNat 32 (bytesNat (c.peek a 4)))).setX (rd.val + 1)
            (BitVec.ofNat 32 (bytesNat (c.peek (a + 4) 4)))).scalDone))
      | (.held (some _), s1) => s1.modCore p (fun c => c.sclWait a)
      | (.held none, s1) => s1
      | (.poison b, s1) => s1.modCore p (fun c => c.sclFault s.now clsPoison (some b)))

/-- A producer that claims and posts nothing. -/
def noProducer (serial : Nat) : Producer := ⟨0, 0, serial⟩

/-- BST: a non-posting write of RB and RB + 1 to 8 bytes; an odd RB is a DECODE fault. -/
def execBst (core : Nat) (rb ra : Fin 32) (imm : BitVec 16) (s : State) : Out :=
  onLive core s (fun p c =>
    let a := c.sclBasin ra imm
    if rb.val % 2 = 1 then s.setCore p (c.sclFault s.now clsDecode)
    else if c.sclForeign (s.carve (core / 16)) a then s.setCore p (c.sclFault s.now clsBounds (some a))
    else
      let k : Writer := { port := .sclWrite, pr := noProducer c.iss.count, count := some c.iss.count, named := [], stamp := 0 }
      let bs := natBytes 4 (c.x rb).toNat ++ natBytes 4 (c.x (rb.val + 1)).toNat
      match s.portWrite p core k [⟨⟨a, bs⟩, false, false⟩] with
      | (.done, s1) => s1.modCore p (fun c => ((c.unwait 1 c.issCtx).scalDone).breaks true)
      | (.held (some _), s1) => s1.modCore p (fun c => c.sclWait a)
      | (.held none, s1) => s1
      | (.window b, s1) => s1.modCore p (fun c => (c.faultWord s.now clsBounds 9 c.issCtx (some b)).scalDone))

/-! ## Custom opcodes (R162 to R164) -/

/-- The strand image of a shoal that the extensions of a core at physical place `p` run (R159, R386). -/
def State.strandImage (s : State) (p : Nat) : List (Nat × Byte) :=
  (s.strandCfg.filter (fun e => e.1 / 0x40000 == p / 17)).map (fun e => (e.1 % 0x40000, e.2))

/-- All that an extension of the core sees (R163). -/
def CoreState.strandUse (c : CoreState) (img : List (Nat × Byte)) (i : Config.StrandInput) : Config.StrandUse := ⟨img, c.strand, i⟩

/-- The result of a custom opcode (R162). -/
def CoreState.strandResult (c : CoreState) (img : List (Nat × Byte)) (fn : Nat) (a b : Word) : Word :=
  BitVec.ofNat 32 ((Config.strandOut (c.strandUse img (.custom fn a b))).headD 0)

/-- Strand RAM after an extension ran: its writes reach only the blocks the image marks writable (R163). -/
def State.strandRan (s : State) (p : Nat) (use : Config.StrandUse) : State :=
  let ws := (Config.strandWrites use).filter (fun w => decide (w.1 < 8192) && bit s.writeBlocks (w.1 / 512))
  s.modCore p (fun c => { c with strand := ws.foldl (fun m w => Sparse.set 0 m w.1 w.2) c.strand })

/-- An extension broke its contract (R164): COR_STRAND_STAT records it and the word's context faults. -/
def CoreState.strandBreach (c : CoreState) (ext : Nat) : CoreState :=
  ((c.bump F.corStrandStat_protoCount).put F.corStrandStat_lastExt ext).raise F.corStrandStat_proto

/-- CUSTOM: the extension's result, which the image decides (R163), or its breach of contract (R164); an opcode the image lacks is
a DECODE fault (R162). -/
def execCustom (core : Nat) (fn : BitVec 6) (rd ra rb : Fin 32) (s : State) : Out :=
  onLive core s (fun p c =>
    if s.get F.plnGeom1_customOps ≤ fn.toNat then s.setCore p (c.sclFault s.now clsDecode)
    else
      let use := c.strandUse (s.strandImage p) (.custom fn.toNat (c.x ra) (c.x rb))
      (s.strandRan p use).modCore p (fun k =>
        if Config.strandBreaks use then (k.strandBreach 6).sclFault s.now clsTrap
        else k.sclWrite rd (c.strandResult (s.strandImage p) fn.toNat (c.x ra) (c.x rb))))

/-! ## Branches (R197, R199) -/

/-- Bytes of cove 0. -/
def CoreState.codeBytes (c : CoreState) : Nat := if c.flag F.coveCfg_enable 0 then (c.cove 0).extent else 0

/-- A target a taken branch may have: aligned and inside cove 0 (R197). DEDUCED, log entry 127: a target below byte 0 lies outside
it, as one at or beyond the extent does. -/
def CoreState.targetOk (c : CoreState) (t : Int) : Bool :=
  decide (0 ≤ t) && decide (t < c.codeBytes) && decide (t % 4 = 0)

/-- Go to a target: the fetch position moves, TAKEN counts; a target that does not lie in cove 0 faults. -/
def CoreState.goto (c : CoreState) (now : Nat) (t : Int) : CoreState :=
  if c.targetOk t then ({ c with iss.off := t.toNat } : CoreState).scalDone.wrap F.corSclStat_taken
  else c.sclFault now clsBounds

/-- Target of a conditional branch: IMM16 × 4 bytes from the branching word's header. -/
def CoreState.branchTarget (c : CoreState) (imm : BitVec 16) : Int := (c.iss.curOff : Int) + imm.toInt * 4

/-- A conditional branch. -/
def sclB (taken : Word → Word → Bool) (core ra rb : Nat) (imm : BitVec 16) (s : State) : Out :=
  onLive core s (fun p c => s.setCore p
    (if taken (c.x ra) (c.x rb) then c.goto s.now (c.branchTarget imm) else c.scalDone))

def execBeq (core : Nat) (ra rb : Fin 32) (imm : BitVec 16) (s : State) : Out := sclB (fun a b => a == b) core ra rb imm s
def execBne (core : Nat) (ra rb : Fin 32) (imm : BitVec 16) (s : State) : Out := sclB (fun a b => a != b) core ra rb imm s
def execBlt (core : Nat) (ra rb : Fin 32) (imm : BitVec 16) (s : State) : Out :=
  sclB (fun a b => decide (a.toInt < b.toInt)) core ra rb imm s
def execBge (core : Nat) (ra rb : Fin 32) (imm : BitVec 16) (s : State) : Out :=
  sclB (fun a b => decide (b.toInt ≤ a.toInt)) core ra rb imm s
def execBltu (core : Nat) (ra rb : Fin 32) (imm : BitVec 16) (s : State) : Out :=
  sclB (fun a b => decide (a.toNat < b.toNat)) core ra rb imm s
def execBgeu (core : Nat) (ra rb : Fin 32) (imm : BitVec 16) (s : State) : Out :=
  sclB (fun a b => decide (b.toNat ≤ a.toNat)) core ra rb imm s

/-- The 32-bit unit at an offset of cove 0: from the fetch window, or from the basin where the window lacks it. -/
def CoreState.codeUnit (c : CoreState) (off : Nat) : Nat :=
  match c.fetchWin.find? (fun e => e.1 == off / 64) with
  | some e => bytesNat ((e.2.drop (off % 64)).take 4)
  | none => bytesNat (c.peek ((c.cove 0).base + off) 4)

/-- Where the slot of cove 0 after the one holding `off` begins; it wraps at the extent (R168, R197). -/
def CoreState.nextSlot (c : CoreState) (off : Nat) : Nat :=
  if c.codeBytes = 0 then 0 else (off / (c.cove 0).size + 1) * (c.cove 0).size % c.codeBytes

/-- Offset of the word after the one last issued: past it, or the next slot where a skip marker follows (R196). -/
def CoreState.linkOffset (c : CoreState) : Nat :=
  let n := if c.codeBytes = 0 then 0 else (c.iss.curOff + c.iss.curLen * 4) % c.codeBytes
  if c.codeUnit n = 0 then c.nextSlot n else n

/-- JAL: link, then go to TARGET18 × 4. -/
def execJal (core : Nat) (rd : Fin 32) (target : BitVec 18) (s : State) : Out :=
  onLive core s (fun p c => s.setCore p
    (if c.targetOk (target.toNat * 4) then
      (c.setX rd (BitVec.ofNat 32 c.linkOffset)).goto s.now (target.toNat * 4)
    else c.sclFault s.now clsBounds))

/-- Target of JALR: (RA + IMM16 × 4) mod 2²⁰. -/
def CoreState.jalrTarget (c : CoreState) (ra : Nat) (imm : BitVec 16) : Int :=
  (((c.x ra).toNat : Int) + imm.toInt * 4) % (2 ^ 20 : Int)

/-- JALR: the target is formed from RA before RD is written. -/
def execJalr (core : Nat) (rd ra : Fin 32) (imm : BitVec 16) (s : State) : Out :=
  onLive core s (fun p c => s.setCore p
    (if c.targetOk (c.jalrTarget ra imm) then
      (c.setX rd (BitVec.ofNat 32 c.linkOffset)).goto s.now (c.jalrTarget ra imm)
    else c.sclFault s.now clsBounds))

end Sys2Proof.Machine
end

