-- ==== Sys2Proof/Machine/Words.lean ====
section
/-! DEFINITION. Long words (R165 to R190): their slots, the fields of each slot, the decode rules, the capture of descriptors, and the
checks of R139, R152, R177, R184, R192, R197, R204, R214, R238, R282 and R284 a word meets at issue. -/

namespace Sys2Proof.Machine

/-! ## Slots (Tables 6-1, 6-2) -/

/-- A long word by its slots, each as one number. -/
structure LongWord where
  len : Nat
  post : Bool
  stamp : BitVec 16
  scal : Option Nat
  vec : Option Nat
  mat : Option Nat
  load : Option Nat
  store : Option Nat
  sync : Option Nat
  deriving DecidableEq, Repr

/-- The number 32-bit units hold, lowest first. -/
def unitsNat (l : List Nat) : Nat :=
  match l with
  | [] => 0
  | u :: rest => u + 2 ^ 32 * unitsNat rest

/-- Take a slot of `n` units off the units left, where its MASK bit is set. -/
def takeSlot (present : Bool) (n : Nat) (units : List Nat) : Option Nat × List Nat :=
  if present then (some (unitsNat (units.take n)), units.drop n) else (none, units)

/-- Units of a mask, header included (R166). -/
def maskUnits (m : Nat) : Nat :=
  1 + b2n (bit m 0) + 2 * b2n (bit m 1) + 4 * b2n (bit m 2) + 3 * b2n (bit m 3) + 3 * b2n (bit m 4) + b2n (bit m 5)

/-- The header keeps R166 and its reserved bits are 0. -/
def headerOk (h : Nat) : Bool := bits h 9 6 == maskUnits (bits h 5 0) && bits h 15 11 == 0

/-- The word a header and the units after it spell. -/
def splitWord (h : Nat) (units : List Nat) : LongWord :=
  let a := takeSlot (bit h 0) 1 units
  let b := takeSlot (bit h 1) 2 a.2
  let c := takeSlot (bit h 2) 4 b.2
  let d := takeSlot (bit h 3) 3 c.2
  let e := takeSlot (bit h 4) 3 d.2
  let f := takeSlot (bit h 5) 1 e.2
  ⟨bits h 9 6, bit h 10, BitVec.ofNat 16 (bits h 31 16), a.1, b.1, c.1, d.1, e.1, f.1⟩

/-! ## Descriptors (Tables 6-4, 6-5) -/

/-- A tile descriptor; none for an entry of another KIND, with a reserved bit set or a value out of range (R189). -/
def tileDesc (lo hi : Reg64) : Option TileDesc :=
  if field lo 1 0 = 1 ∧ field lo 63 59 = 0 ∧ field hi 63 40 = 0 ∧ field hi 19 19 = 0 ∧ field lo 58 40 ≤ 393215 then
    some {
      rstride := field lo 58 40
      cstride := field lo 39 32
      span := field lo 31 24
      rows := field lo 23 12
      coveV := field lo 11 11 == 1
      cove := field lo 10 6
      spread := field lo 5 4
      wrap := field lo 3 3 == 1
      axis := field lo 2 2 == 1
      soff := signed 20 (field hi 39 20)
      bstride := field hi 18 0 }
  else none

/-- A drain mode; none as for tile descriptors, and with REC_MODE 3 or an OUT_FMT outside R149. -/
def drainMode (lo hi : Reg64) : Option DrainMode :=
  let fmt := field lo 25 22
  if field lo 1 0 = 2 ∧ field lo 63 31 = 0 ∧ hi = 0 ∧ field lo 18 17 ≠ 3 ∧ (fmt ≤ 5 ∨ fmt = 8 ∨ 14 ≤ fmt) then
    some {
      user := field lo 30 27
      stoch := field lo 26 26 == 1
      outFmt := fmt
      resBf16 := field lo 21 21 == 1
      resMul := field lo 20 20 == 1
      recSet := field lo 19 19
      recMode := field lo 18 17
      recUse := field lo 16 15
      strand := field lo 14 11
      stages := field lo 10 3
      cross := field lo 2 2 == 1 }
  else none

/-- Words 0 and 1 of a descriptor entry. -/
def CoreState.descWords (c : CoreState) (e : Nat) : Reg64 × Reg64 :=
  (Sparse.get 0 c.desc (2 * e), Sparse.get 0 c.desc (2 * e + 1))

/-- A tile operand captured from the descriptor table (R175). -/
def CoreState.operand (c : CoreState) (base desc : Nat) : Option Operand :=
  match tileDesc (c.descWords desc).1 (c.descWords desc).2 with
  | some d =>
    if wrapDecode d then none
    else some ⟨base, d, (c.cove d.cove).base, if c.flag F.coveCfg_enable d.cove then (c.cove d.cove).extent else 0⟩
  | none => none

/-- An operand that is not used. -/
def Operand.unused : Operand := ⟨0, ⟨0, 0, 0, 0, false, 0, 0, false, false, 0, 0⟩, 0, 0⟩

/-- A run-time count: the register RS names, none for 0 (R211). -/
def CoreState.runCount (c : CoreState) (rs : Nat) : Option Nat := if rs = 0 then none else some (c.x rs).toNat

/-! ## Scalar slot (R195, R196) -/

/-- The scalar slot keeps the decode rules. -/
def sclWellFormed (customOps w : Nat) : Bool :=
  let op := bits w 5 0
  let rd := bits w 10 6
  let ra := bits w 15 11
  let rb := bits w 20 16
  let fn := bits w 31 21
  let hi := bits w 31 16
  if (1 ≤ op ∧ op ≤ 0x0E) ∨ (0x18 ≤ op ∧ op ≤ 0x20) then fn == 0
  else if 0x10 ≤ op ∧ op ≤ 0x16 then true
  else if op = 0x17 then ra == 0
  else if op = 0x21 ∨ op = 0x22 then fn == 0 && rb == 0
  else if op = 0x24 ∨ op = 0x25 then true
  else if op = 0x26 ∨ op = 0x27 then rd % 2 == 0
  else if 0x28 ≤ op ∧ op ≤ 0x2D then true
  else if op = 0x2E then bits w 13 11 == 0
  else if op = 0x2F then true
  else if op = 0x30 then bits w 31 27 == 0 && decide (fn % 64 < customOps)
  else if op = 0x31 then ra == 0 && hi == 0 && rd % 2 == 0
  else if op = 0x32 then rd == 0 && ra == 0
  else false

/-- The condition of a conditional branch (Table 7-2). -/
def branchTaken (op : Nat) (a b : Word) : Bool :=
  if op = 0x28 then a == b
  else if op = 0x29 then a != b
  else if op = 0x2A then decide (a.toInt < b.toInt)
  else if op = 0x2B then decide (b.toInt ≤ a.toInt)
  else if op = 0x2C then decide (a.toNat < b.toNat)
  else decide (b.toNat ≤ a.toNat)

/-- The class a scalar slot faults with at issue, from the registers it reads (R192, R193, R197, R214, R217). -/
def CoreState.sclIssueFault (c : CoreState) (carve : Nat × Nat) (w : Nat) : Option (Nat × Option Nat) :=
  let op := bits w 5 0
  let rd := bits w 10 6
  let ra := bits w 15 11
  let rb := bits w 20 16
  let imm := BitVec.ofNat 16 (bits w 31 16)
  if op = 0x24 ∨ op = 0x25 then (if sclAddrOk (c.sclAddr ra imm) then none else some (clsBounds, none))
  else if op = 0x26 ∨ op = 0x27 then
    (if c.sclForeign carve (c.sclBasin ra imm) then some (clsBounds, some (c.sclBasin ra imm)) else none)
  else if 0x28 ≤ op ∧ op ≤ 0x2D then
    (if branchTaken op (c.x ra) (c.x rd) && !c.targetOk (c.branchTarget imm) then some (clsBounds, none) else none)
  else if op = 0x2E then (if c.targetOk (bits w 31 14 * 4) then none else some (clsBounds, none))
  else if op = 0x2F then (if c.targetOk (c.jalrTarget ra imm) then none else some (clsBounds, none))
  else if op = 0x0D ∨ op = 0x0E then (if c.x rb = 0 then some (clsTrap, none) else none)
  else if op = 0x32 then some (clsTrap, none)
  else none

/-- Registers a scalar slot reads. -/
def sclReads (w : Nat) : List Nat :=
  let op := bits w 5 0
  let rd := bits w 10 6
  let ra := bits w 15 11
  let rb := bits w 20 16
  if (1 ≤ op ∧ op ≤ 0x0E) ∨ (0x18 ≤ op ∧ op ≤ 0x20) ∨ op = 0x30 then [ra, rb]
  else if (0x10 ≤ op ∧ op ≤ 0x16) ∨ op = 0x21 ∨ op = 0x22 ∨ op = 0x24 ∨ op = 0x26 ∨ op = 0x2F then [ra]
  else if op = 0x25 ∨ (0x28 ≤ op ∧ op ≤ 0x2D) then [ra, rd]
  else if op = 0x27 then [ra, rd, rd + 1]
  else []

/-- Registers a scalar slot writes. -/
def sclWrites (w : Nat) : List Nat :=
  let op := bits w 5 0
  let rd := bits w 10 6
  if op = 0x26 ∨ op = 0x31 then [rd, rd + 1]
  else if op = 0x25 ∨ op = 0x27 ∨ (0x28 ≤ op ∧ op ≤ 0x2D) ∨ op = 0x32 then []
  else [rd]

/-- The result of a register instruction of the table (opcodes 0x01 to 0x22 but the stores). -/
def sclResult (op : Nat) (a b : Word) (imm : BitVec 16) : Word :=
  if op = 0x01 then sclAdd a b
  else if op = 0x02 then sclSub a b
  else if op = 0x03 then sclAnd a b
  else if op = 0x04 then sclOr a b
  else if op = 0x05 then sclXor a b
  else if op = 0x06 then sclSll a b
  else if op = 0x07 then sclSrl a b
  else if op = 0x08 then sclSra a b
  else if op = 0x09 then sclSlt a b
  else if op = 0x0A then sclSltu a b
  else if op = 0x0B then sclMul a b
  else if op = 0x0C then sclMulhu a b
  else if op = 0x0D then sclDivu a b
  else if op = 0x0E then sclRemu a b
  else if op = 0x10 then sclAdd a (imm32 imm)
  else if op = 0x11 then sclAnd a (imm32 imm)
  else if op = 0x12 then sclOr a (imm32 imm)
  else if op = 0x13 then sclXor a (imm32 imm)
  else if op = 0x14 then sclSll a (imm32 imm)
  else if op = 0x15 then sclSrl a (imm32 imm)
  else if op = 0x16 then sclSra a (imm32 imm)
  else if op = 0x17 then sclLui imm
  else if op = 0x18 then sclFadd a b
  else if op = 0x19 then sclFsub a b
  else if op = 0x1A then sclFmul a b
  else if op = 0x1B then sclFdiv a b
  else if op = 0x1C then sclFmin a b
  else if op = 0x1D then sclFmax a b
  else if op = 0x1E then sclFeq a b
  else if op = 0x1F then sclFlt a b
  else if op = 0x20 then sclFle a b
  else if op = 0x21 then sclFcvtWS a
  else sclFcvtSW a

/-- The registers as the word's later slots read them: after its scalar slot (R170, R172). `off` and `len` are the word's
own place, `img` the image of its strand region. -/
def CoreState.afterScalar (c : CoreState) (now : Nat) (img : List (Nat × Byte)) (off len w : Nat) : CoreState :=
  let op := bits w 5 0
  let rd := bits w 10 6
  let ra := bits w 15 11
  let rb := bits w 20 16
  let imm := BitVec.ofNat 16 (bits w 31 16)
  let at_ : CoreState := { c with iss.curOff := off, iss.curLen := len }
  if 1 ≤ op ∧ op ≤ 0x22 then c.setX rd (sclResult op (c.x ra) (c.x rb) imm)
  else if op = 0x24 then c.setX rd (BitVec.ofNat 32 (bytesNat (Bytes.read 0 c.sstore (c.sclAddr ra imm) 4)))
  else if op = 0x26 then
    (c.setX rd (BitVec.ofNat 32 (bytesNat (c.peek (c.sclBasin ra imm) 4)))).setX (rd + 1)
      (BitVec.ofNat 32 (bytesNat (c.peek (c.sclBasin ra imm + 4) 4)))
  else if op = 0x2E ∨ op = 0x2F then c.setX rd (BitVec.ofNat 32 at_.linkOffset)
  else if op = 0x30 then c.setX rd (c.strandResult img (bits w 26 21) (c.x ra) (c.x rb))
  else if op = 0x31 then (c.setX rd (BitVec.ofNat 32 now)).setX (rd + 1) (BitVec.ofNat 32 (now / 2 ^ 32))
  else c

/-! ## Vector slot (Tables 6-6, 6-7, R139, R141, R180) -/

/-- Element bytes of a vector type (Table 5-1). -/
def vecBytes (ty : Nat) : Nat := if ty ≤ 1 then 4 else if ty = 2 then 2 else 1

/-- The operation is a reduction. -/
def vecReduces (code : Nat) : Bool := decide (0x15 ≤ code) && decide (code ≤ 0x17)

/-- Which of VB and VC an operation uses. -/
def vecUsesB (code : Nat) : Bool := decide (code ≤ 6) || (decide (9 ≤ code) && decide (code ≤ 0x0C))
def vecUsesC (code : Nat) : Bool := code == 4 || code == 0x0C

/-- The operation takes only the FP types (Table 5-2). -/
def vecFpOnly (code : Nat) : Bool := code == 4 || (decide (0x10 ≤ code) && decide (code ≤ 0x14))

/-- The vector slot: its code and its arguments, as registers read them; none where a decode rule is broken. -/
def CoreState.vecSlot (c : CoreState) (w : Nat) : Option (Nat × VecArgs) :=
  let code := bits w 4 0
  let ty := bits w 6 5
  let ok := decide (1 ≤ code) && decide (code ≤ 0x17) && bits w 63 48 == 0 && decide (bits w 47 34 ≤ 8192) &&
    (bits w 8 7 == 0 || code == 0x0F) && (vecUsesB code || bits w 23 19 == 0) && (vecUsesC code || bits w 28 24 == 0) &&
    (code != 0x0D || bits w 18 14 == 0) && (!vecFpOnly code || ty == 0 || ty == 2)
  if ok then some (code, {
    ty := ty
    dty := if code = 0x0F then bits w 8 7 else ty
    vd := bits w 13 9
    va := bits w 18 14
    vb := bits w 23 19
    vc := bits w 28 24
    count := bits w 47 34
    run := c.runCount (bits w 33 29)
    scal := c.x (bits w 18 14) })
  else none

/-- A register run of `n` elements passes v31. -/
def runsOver (v n bytes : Nat) : Bool := decide (65536 < v * 2048 + n * bytes)

/-- A vector operand would run past v31 at the declared count (R139). -/
def vecOver (code : Nat) (a : VecArgs) : Bool :=
  (!vecReduces code && runsOver a.vd a.count (vecBytes a.dty)) ||
  (code != 0x0D && code != 0x0E && runsOver a.va a.count (vecBytes a.ty)) ||
  (vecUsesB code && runsOver a.vb a.count (vecBytes a.ty)) ||
  (vecUsesC code && runsOver a.vc a.count (vecBytes a.ty))

/-! ## Matrix slot (Tables 6-8, 6-9; R109, R125, R149, R152, R182, R226, R229) -/

/-- Bytes of one tile's elements (Table 4-2). -/
def tileBytes (fmt : Nat) : Nat := 8192 * Mx.width fmt / 8

/-- Side bytes of one tile: block scales, and metadata in sparse mode (Table 4-2, R115). -/
def tileSide (fmt : Nat) (sparse : Bool) : Nat :=
  (if Mx.isMx fmt then (if sparse then 512 else 256) else 0) + (if sparse then 2048 else 0)

/-- Reduction length and outputs of one tile pass in its flow (Table 4-1); twice the rows in sparse mode. -/
def passShape (geo : Nat × Nat) (cross sparse : Bool) : Nat × Nat :=
  if cross then (geo.2, geo.1) else (if sparse then 2 * geo.1 else geo.1, geo.2)

/-- Bytes of one activation slice: K elements (R181). -/
def sliceBytes (geo : Nat × Nat) (a : PassArgs) : Nat := (passShape geo a.cross a.sparse).1 * Mx.width a.afmt / 8

/-- Reduction slices of a PASS of `t` tiles per iteration. -/
def passSlices (a : PassArgs) (t : Nat) : Nat := ceilDiv t (a.nout + 1)

/-- Entries of the accumulator store in a flow (R125). -/
def entriesOf (geo : Nat × Nat) (cross : Bool) : Nat := if lanesOf geo cross = 0 then 0 else 32768 / lanesOf geo cross

/-- R109: formats present, paired as Table 4-2 gives, and the sparse mode where it may be. -/
def pairingOk (mask wf af : Nat) (sparse cross : Bool) : Bool :=
  decide (wf ≤ 8) && decide (af ≤ 8) && bit mask wf && bit mask af &&
  (if wf ≤ 5 then decide (af ≤ 5) else if wf ≤ 7 then af == 6 || af == 7 else af == 8) &&
  (!sparse || (bit mask 9 && wf != 8 && !cross))

/-- A predicate pair (R221), pair numbers from 1. -/
def CoreState.predPair (c : CoreState) (n : Nat) : PredPair where
  edge := c.reg (0x200 + (n - 1) * 0x30)
  rowLo := c.reg (0x208 + (n - 1) * 0x30)
  rowHi := c.reg (0x210 + (n - 1) * 0x30)
  colLo := c.reg (0x218 + (n - 1) * 0x30)
  colHi := c.reg (0x220 + (n - 1) * 0x30)

/-- RED_EDGE, OUT_EDGE and PAD_FILL of a pair. -/
def predRed (p : PredPair) : Nat := field p.edge 8 0
def predOut (p : PredPair) : Nat := field p.edge 24 16
def predFill (p : PredPair) : Bool := field p.edge 25 25 == 1

/-- ROW_OFF of a tile row, COL_OFF of a tile column. -/
def predRowOff (p : PredPair) (i : Nat) : Bool := if i < 64 then bit p.rowLo.toNat i else bit p.rowHi.toNat (i - 64)
def predColOff (p : PredPair) (j : Nat) : Bool := if j < 64 then bit p.colLo.toNat j else bit p.colHi.toNat (j - 64)

/-- R226: a captured pair fits the PASS. -/
def predOk (geo : Nat × Nat) (a : PassArgs) (p : PredPair) : Bool :=
  decide ((predRed p) ≤ (passShape geo a.cross a.sparse).1) && decide ((predOut p) ≤ (passShape geo a.cross a.sparse).2) &&
  (!a.sparse || ((List.range geo.1).all (fun i => !predRowOff p i) && (predRed p) % 4 == 0))

/-- The format an operand's code stands for and whether it names the decoder of its inlet, which the image must have (R108, R161). -/
def operandFmt (present : Bool) (native code : Nat) : Nat × Bool :=
  if 8 < code ∧ present ∧ code = 9 + Config.decoderCode % 7 then (native, true) else (code, false)

/-- A PASS names a decoder only where the image has one, and with its native format (R159, R161). -/
def CoreState.decodersOk (c : CoreState) (dec : Nat) (a : PassArgs) : Bool :=
  (!a.wdec || (bit dec 0 && a.wfmt == c.get F.corStrandCaps_wdecFmt)) && (!a.adec || (bit dec 1 && a.afmt == c.get F.corStrandCaps_adecFmt))

/-- A PASS keeps R109, R182 and the rules of predicates (R226, R229). `dec` is INLET_DEC of the image. -/
def CoreState.passOk (c : CoreState) (mask dec : Nat) (geo : Nat × Nat) (a : PassArgs) : Bool :=
  c.decodersOk dec a &&
  pairingOk mask a.wfmt a.afmt a.sparse a.cross && !(a.lkeep && decide (1 < a.vecs)) &&
  (match a.pred with
   | some p => !c.flag F.corTileCtl_strict && predOk geo a p
   | none => true)

/-- A PASS slot; none where a decode rule is broken. -/
def CoreState.passSlot (c : CoreState) (mask dec : Nat) (geo : Nat × Nat) (w : Nat) : Option PassArgs :=
  let wkeep := bit w 14
  let sparse := bit w 12
  let cross := bit w 13
  let predN := bits w 69 67
  let wop := if wkeep then (if bits w 94 70 = 0 then some Operand.unused else none) else c.operand (bits w 88 70) (bits w 94 89)
  match wop, c.operand (bits w 113 95) (bits w 119 114) with
  | some wo, some ao =>
    let wf := operandFmt (bit dec 0) (c.get F.corStrandCaps_wdecFmt) (bits w 7 4)
    let af := operandFmt (bit dec 1) (c.get F.corStrandCaps_adecFmt) (bits w 11 8)
    let a : PassArgs := {
      wfmt := wf.1
      afmt := af.1
      wdec := wf.2
      adec := af.2
      sparse := sparse
      cross := cross
      wkeep := wkeep
      lkeep := bit w 15
      ovr := bit w 16
      vecs := bits w 19 17
      tiles := bits w 31 20
      nout := bits w 40 32
      entry := bits w 49 41
      batch := bits w 66 55
      run := c.runCount (bits w 54 50)
      pred := if predN = 0 then none else some (c.predPair predN)
      wop := wo
      aop := ao }
    if bits w 127 120 == 0 && c.passOk mask dec geo a then some a else none
  | _, _ => none

/-- A drain mode keeps R149 on an image with these hard stages and this many strand stages. -/
def drainOk (est strand : Nat) (m : DrainMode) : Bool :=
  (decide (m.outFmt ≤ 5) || m.outFmt == 8 || m.outFmt == 14 || m.outFmt == 15) &&
  ([0, 1, 2, 3, 4, 7].all (fun k => !bit m.stages k || bit est k)) &&
  ((List.range 4).all (fun k => !bit m.strand k || decide (k < strand))) &&
  (m.recMode == 0) == !bit m.stages 7 && (m.recMode == 0 || bit est 7) &&
  (decide (5 < m.outFmt) || bit est 5) && (!m.stoch || bit est 6)

/-- A DRAIN slot; none where a decode rule is broken. `est` and `strand` are EST_MASK and
STRAND_STAGES of the image, the number of its strand stages. -/
def CoreState.drainSlot (c : CoreState) (est strand w : Nat) : Option DrainArgs :=
  match drainMode (c.descWords (bits w 29 24)).1 (c.descWords (bits w 29 24)).2 with
  | none => none
  | some m =>
    let usesO := m.outFmt != 14
    let usesR := bit m.stages 3
    let usesS := decide (m.outFmt ≤ 5)
    let oop := if usesO then c.operand (bits w 53 35) (bits w 59 54) else (if bits w 59 35 = 0 then some Operand.unused else none)
    let rop := if usesR then c.operand (bits w 100 82) (bits w 106 101) else (if bits w 106 82 = 0 then some Operand.unused else none)
    match oop, rop with
    | some oo, some ro =>
      if bits w 127 107 == 0 && decide (bits w 22 13 ≤ 512) && (usesS || bits w 81 60 == 0) && drainOk est strand m then some {
        first := bits w 12 4
        count := bits w 22 13
        run := c.runCount (bits w 34 30)
        set := bits w 23 23
        mode := m
        oop := oo
        sAddr := bits w 81 60
        rop := ro }
      else none
    | _, _ => none

/-! ## Load, store and sync slots (Tables 6-10 to 6-12) -/

/-- A load slot; none where a decode rule is broken. -/
def CoreState.loadSlot (c : CoreState) (w : Nat) : Option QOp :=
  let op := bits w 3 0
  if op = 1 then
    match c.operand (bits w 32 14) (bits w 38 33) with
    | some o => if bits w 95 39 = 0 then some (.vload ⟨bits w 8 4, o, c.runCount (bits w 13 9)⟩) else none
    | none => none
  else if op = 2 then
    match c.operand (bits w 32 14) (bits w 38 33) with
    | some o => if bits w 95 74 = 0 ∧ bits w 8 4 = 0 then some (.tload ⟨o, c.runCount (bits w 13 9), bits w 73 39⟩) else none
    | none => none
  else if op = 3 then
    if bits w 95 35 = 0 ∧ bits w 9 4 + bits w 15 10 + 1 ≤ 64 then some (.dload ⟨bits w 9 4, bits w 15 10, bits w 34 16⟩) else none
  else none

/-- Words 0 and 1 of a route entry. -/
def CoreState.routeWords (c : CoreState) (e : Nat) : Reg64 × Reg64 :=
  (Sparse.get 0 c.route (2 * e), Sparse.get 0 c.route (2 * e + 1))

/-- Members of a tree record (Table 8-4). -/
def treeMembers (d : List (Nat × Reg64)) (tree : Nat) : List Nat :=
  let all := (List.range 11).foldr (fun k acc => (Sparse.get 0 d (tree * 16 + 1 + k)).toNat + 2 ^ 64 * acc) 0
  (List.range (field (Sparse.get 0 d (tree * 16)) 18 12)).map (fun i => bits all (11 * i + 10) (11 * i))

/-- Destination cores of a route entry (R238, R282): the core, the members of the tree; none for a window. -/
def routeMembers (d : List (Nat × Reg64)) (lo : Reg64) : List Nat :=
  if field lo 1 0 = 1 then [field lo 15 4]
  else if field lo 1 0 = 2 then treeMembers d (field lo 15 4 % 1024)
  else []

/-- A store slot; none where a decode rule is broken. `d` are the tree records. -/
def CoreState.storeSlot (c : CoreState) (d : List (Nat × Reg64)) (w : Nat) : Option QOp :=
  let op := bits w 3 0
  if op = 1 then
    match c.operand (bits w 32 14) (bits w 38 33) with
    | some o => if bits w 95 39 = 0 then some (.vstore ⟨bits w 8 4, o, c.runCount (bits w 13 9)⟩) else none
    | none => none
  else if op = 2 then
    match c.operand (bits w 32 14) (bits w 38 33) with
    | some o => if bits w 95 74 = 0 ∧ bits w 8 4 = 0 then some (.tstore ⟨o, c.runCount (bits w 13 9), bits w 73 39⟩) else none
    | none => none
  else if op = 3 then
    let r := bits w 46 39
    let lo := (c.routeWords r).1
    let hi := (c.routeWords r).2
    let dst := if field lo 1 0 = 1 ∨ field lo 1 0 = 2 then c.operand (field hi 18 0) (field hi 24 19) else some Operand.unused
    match c.operand (bits w 32 14) (bits w 38 33), dst with
    | some o, some dd =>
      if bits w 95 47 = 0 ∧ bits w 8 4 = 0 then
        some (.send ⟨o, c.runCount (bits w 13 9), r, lo, hi, dd.desc, routeMembers d lo⟩)
      else none
    | _, _ => none
  else if op = 4 then if bits w 95 25 = 0 then some (.eng (bits w 24 4)) else none
  else if op = 5 then
    if bits w 95 27 = 0 ∧ bits w 7 5 ≠ 0 then some (.param ⟨bits w 4 4, bits w 7 5, bits w 26 8⟩) else none
  else none

/-- The sync slot keeps the decode rules. -/
def syncWellFormed (w : Nat) : Bool :=
  let op := bits w 3 0
  if op = 1 ∨ op = 6 then bits w 31 28 == 0
  else if op = 2 then bits w 31 25 == 0
  else if op = 3 ∨ op = 4 then true
  else if op = 5 then bits w 31 7 == 0
  else if op = 7 then bits w 31 4 == 0
  else false

/-- A WAIT or REL that faults with OPERAND_BOUNDS (R90, R204). -/
def CoreState.syncBounds (c : CoreState) (w : Nat) : Bool :=
  let op := bits w 3 0
  let n := bits w 8 4
  let slots := (c.cove n).slots
  if op = 3 then !c.flag F.coveCfg_enable n || decide (slots ≤ bits w 15 9)
  else if op = 4 then
    !c.flag F.coveCfg_enable n || decide (slots ≤ bits w 20 9) || bits w 31 21 == 0 || decide (slots < bits w 31 21)
  else false

/-! ## Bounds of the operations -/

/-- The operation's declared extent holds fewer chunks than it needs (R177), or a chunk of it breaks R177 or R214. -/
def CoreState.operandBad (c : CoreState) (carve : Nat × Nat) (ctx : Nat) (o : Operand) (batch bytes : Nat) : Option Nat :=
  if extentChunks o < ceilDiv bytes 64 then some (chunkAddr o 0 0) else badChunk c carve ctx o batch

/-- A linear run of chunks breaks R37 or R214. -/
def CoreState.rangeBad (c : CoreState) (carve : Nat × Nat) (ctx a n : Nat) : Option Nat :=
  (streamChunks (fun k => a + k) 0 n).find? (fun x => decide (basinBytes ≤ x) || chunkForeign c carve ctx Operand.unused x)

/-- The first byte of a side stream of `bytes` bytes breaks the checks of R177 (R178): past the basin, or spread past row 2,047 or
ledge 11. DEDUCED, log entry 128: a stream that starts before address 0 lies outside the basin too. -/
def sideBad (o : Operand) (b bytes : Nat) : Option Nat :=
  let m := o.desc.spread + 1
  let start := (sideStart o b).toNat
  if bytes = 0 ∨ o.desc.wrap then none
  else if sideStart o b < 0 then some 0
  else if m = 1 then (if basinBytes < start + bytes then some start else none)
  else if 11 < start / 2 ^ 21 + m - 1 ∨ 2047 < start % 2 ^ 21 / 1024 + (bytes - 1) / 1024 / m then some (sideAddr o b 0) else none

/-- The scale stream of an activation operand runs out of the basin (R177, R178). -/
def scaleBad (o : Operand) (b bytes : Nat) : Option Nat :=
  if bytes = 0 then none
  else if sideStart o b < 0 then some 0
  else if basinBytes < (sideStart o b).toNat + bytes then some (sideStart o b).toNat
  else none

/-- Side bytes of a tile that the inlet reads: a decoder delivers its own (R115, R161). -/
def passSide (a : PassArgs) : Nat := if a.wdec then 0 else tileSide a.wfmt a.sparse

/-- Bytes of scales of one slice of an MX activation operand: K / 32 (R178). -/
def sliceScales (geo : Nat × Nat) (a : PassArgs) : Nat :=
  if Mx.isMx a.afmt then (passShape geo a.cross a.sparse).1 / 32 else 0

/-- A range lies in one tier, within the capacity PLN_GEOM7 gives (R21). -/
def State.tierExists (s : State) (a n : Nat) : Bool :=
  let far := decide (2 ^ 40 ≤ a)
  let base := if far then 2 ^ 40 else 0
  let cap := 2 ^ 30 * s.get (if far then F.plnGeom7_farGib else F.plnGeom7_nearGib)
  decide (a + n ≤ base + cap) && (far || decide (a + n ≤ 2 ^ 38)) && decide (a + n ≤ 2 ^ 41)

/-- The tier range of a DMA lies in a tier and its capacity (R21) and in the bay's carve-out (R22), which is empty for a core in no
bay (R357). -/
def State.tierOk (s : State) (shoal a n : Nat) : Bool :=
  let far := decide (2 ^ 40 ≤ a)
  let base := if far then 2 ^ 40 else 0
  let inCarve := match s.bayOf shoal with
    | some b =>
      if far then decide (base + s.get F.bayCarve2_farBase b * 2 ^ 20 ≤ a) && decide (a + n ≤ base + s.get F.bayCarve2_farLimit b * 2 ^ 20)
      else decide (s.get F.bayCarve1_nearBase b * 2 ^ 20 ≤ a) && decide (a + n ≤ s.get F.bayCarve1_nearLimit b * 2 ^ 20)
    | none => false
  s.tierExists a n && inCarve

/-- The bay of a core holds another core. -/
def State.sameBay (s : State) (core other : Nat) : Bool :=
  match s.bayOf (core / 16) with
  | some b => decide (other < 1280) && s.bayNames b (other / 16)
  | none => false

/-- Destination operand of a SEND of KIND 1 or 2. -/
def sendDest (a : SendArgs) : Operand := ⟨field a.hi 18 0, a.dstDesc, 0, 0⟩

/-- Cases of R238, R282 and R284 for a SEND of core `core`. -/
def State.sendBad (s : State) (c : CoreState) (core : Nat) (a : SendArgs) : Bool :=
  let kind := field a.lo 1 0
  let carve := s.carve (core / 16)
  let need := extentChunks a.opnd
  let dst := sendDest a
  let destBad := decide (extentChunks dst < need) ||
    (List.range need).any (fun q =>
      let x := chunkAddr { dst with wrapBase := (c.cove dst.desc.cove).base, wrapLen := (c.cove dst.desc.cove).extent } 0 q
      decide (basinBytes ≤ x) || decide (x / 64 < carve.1) || decide (carve.2 ≤ x / 64))
  decide (8192 < need) ||
  (if kind = 1 then !s.sameBay core (field a.lo 15 4) || destBad
   else if kind = 2 then
     let w0 := Sparse.get 0 s.dtree (field a.lo 15 4 % 1024 * 16)
     field w0 19 19 == 0 || field w0 10 0 != core || a.members.any (fun m => !s.sameBay core m) || destBad
   else if kind = 3 then decide (48 ≤ field a.lo 21 16 ∧ field a.lo 21 16 ≤ 62)
   else true)

/-- The address of the first bound an operation breaks at issue; an address of none is given as 0. -/
def State.opBounds (s : State) (c : CoreState) (core : Nat) (op : QOp) : Option Nat :=
  let carve := s.carve (core / 16)
  let ctx := c.get F.corCtl_ctx
  let geo := s.geo
  match op with
  | .vec code a => if vecOver code a then some 0 else none
  | .pass a =>
    let t := a.tiles + 1
    let last := a.entry + (a.batch * (a.nout + 1) + min a.nout a.tiles) * (a.vecs + 1) + a.vecs
    if entriesOf geo a.cross ≤ last then some 0
    else
      let wb := if a.wkeep then none else
        match c.operandBad carve ctx a.wop (a.batch + 1) (if a.wdec then 0 else t * tileBytes a.wfmt) with
        | some x => some x
        | none => (List.range (a.batch + 1)).findSome? (fun b => sideBad a.wop b (t * passSide a))
      match wb with
      | some x => some x
      | none =>
        let slices := passSlices a t * (a.vecs + 1)
        (c.operandBad carve ctx a.aop (a.batch + 1) (if a.adec then 0 else slices * sliceBytes geo a)).or
          ((List.range (a.batch + 1)).findSome? (fun b => scaleBad a.aop b (if a.adec then 0 else slices * sliceScales geo a)))
  | .drain a =>
    let lanes := lanesOf geo a.mode.cross
    let n := a.count * lanes
    if a.count ≠ 0 ∧ entriesOf geo a.mode.cross < a.first + a.count then some 0
    else
      let ob := if a.mode.outFmt = 14 then none else c.operandBad carve ctx a.oop 1 (ceilDiv (n * Mx.width a.mode.outFmt) 8)
      let sb := if a.mode.outFmt ≤ 5 then c.rangeBad carve ctx (a.sAddr * 8) (scaleBytes n) else none
      let rb := if bit a.mode.stages 3 then c.operandBad carve ctx a.rop 1 (n * (if a.mode.resBf16 then 2 else 4)) else none
      (ob.or sb).or rb
  | .param a => (paramChunks a).find? (fun x => decide (basinBytes ≤ x) || chunkForeign c carve ctx Operand.unused x)
  | .vload a => if runsOver a.v (extentChunks a.opnd) 64 then some 0 else badChunk c carve ctx a.opnd 1
  | .vstore a => if runsOver a.v (extentChunks a.opnd) 64 then some 0 else badChunk c carve ctx a.opnd 1
  | .tload a => if s.tierOk (core / 16) (a.taddr * 64) (extentChunks a.opnd * 64) then badChunk c carve ctx a.opnd 1 else some 0
  | .tstore a => if s.tierOk (core / 16) (a.taddr * 64) (extentChunks a.opnd * 64) then badChunk c carve ctx a.opnd 1 else some 0
  | .dload a => c.rangeBad carve ctx (a.base * 64) (16 * (a.n + 1))
  | .send a => if s.sendBad c core a then some 0 else badChunk c carve ctx a.opnd 1
  | .eng cmd => c.rangeBad carve ctx (cmd * 16) 16

/-- The run-time count of an operation exceeds its declared extent (R213). -/
def opShapeOver (op : QOp) : Bool :=
  let isOver (run : Option Nat) (n : Nat) : Bool := match run with
    | some k => decide (n < k)
    | none => false
  match op with
  | .vec _ a => isOver a.run a.count
  | .pass a => isOver a.run (a.tiles + 1)
  | .drain a => isOver a.run a.count
  | .vload a => isOver a.run (a.opnd.desc.rows + 1)
  | .vstore a => isOver a.run (a.opnd.desc.rows + 1)
  | .tload a => isOver a.run (a.opnd.desc.rows + 1)
  | .tstore a => isOver a.run (a.opnd.desc.rows + 1)
  | .send a => isOver a.run (a.opnd.desc.rows + 1)
  | .param _ => false
  | .dload _ => false
  | .eng _ => false

end Sys2Proof.Machine
end

