-- ==== Sys2Proof/Machine/Releases.lean ====
section
/-! DEFINITION. Releases (R83, R90 to R94, R173): what pins a slot, what a release waits for, and what it does. -/

namespace Sys2Proof.Machine

/-- The slots a release covers. -/
def relSlots (v : Cove) (r : Release) : List Nat := (List.range r.n).map (fun k => (r.first + k) % v.slots)

/-- Chunks the array pins (R133): what was read for a tile that has not committed, for a side block held and for a latch
bank; none once the array has declared the core faulty. -/
def CoreState.arrayPins (c : CoreState) : List Nat :=
  if c.flag F.corResidue_declared then []
  else c.tiles.flatMap (fun t => t.pins) ++ c.side.flatMap (fun x => x.pins) ++ c.latch.flatMap (fun x => x.pins)

/-- A read that has passed its tag stage and has not won its banks pins the slots it touches (R83). -/
def CoreState.pinned (c : CoreState) (v : Cove) (i : Nat) : Bool :=
  c.accesses.any (fun a => !a.write && a.passed && decide ((v, i) ∈ c.slotsOf (a.whole.map (fun x => chunkOf x.addr)))) ||
  c.arrayPins.any (fun a => v.has a && v.slotOf a == i)

/-- Bytes of side blocks that `n` side bytes lie in (R117). -/
def sideSpan (n : Nat) : Nat := roundUp n 4096

/-- Chunks a PASS reads, over its batch iterations: its weights with their side blocks, its activations with their scales. -/
def passChunks (geo : Nat × Nat) (a : PassArgs) : List Nat :=
  (List.range (a.batch + 1)).flatMap (fun b =>
    (if a.wkeep then [] else extentOf a.wop b ++ streamChunks (sideAddr a.wop b) 0 (sideSpan ((a.tiles + 1) * passSide a))) ++
    extentOf a.aop b ++
    (if a.adec then [] else streamChunks (scaleAddr a.aop b) 0 (passSlices a (a.tiles + 1) * (a.vecs + 1) * sliceScales geo a)))

/-- Chunks an operation reads. -/
def sourceChunks (geo : Nat × Nat) (op : QOp) : List Nat :=
  match op with
  | .vec _ _ => []
  | .pass a => passChunks geo a
  | .drain a => if bit a.mode.stages 3 then extentOf a.rop 0 else []
  | .param a => paramChunks a
  | .vload a => runStream a.opnd a.run
  | .tload _ => []
  | .dload a => (List.range ((a.n + 1 + 3) / 4)).map (fun k => (a.base + k) * 64)
  | .vstore _ => []
  | .tstore a => runStream a.opnd a.run
  | .send a => runStream a.opnd a.run
  | .eng cmd => [cmd * 16 / 64 * 64]

/-- A COPY that a word up to number `count` queued has still to read its source (R82, R173). -/
def CoreState.copyAhead (c : CoreState) (v : Cove) (count : Nat) : Bool :=
  let reads (i : LdgItem) : Bool := match i with
    | .cmd lo hi (some w) _ _ => ldgOp lo == 2 && decide (w.count ≤ count) && (rangeChunks (ldgSrc hi) (ldgLen hi)).any v.has
    | _ => false
  c.ldgQ.any reads || (c.ldgExec.any reads && c.ldgWait.isSome && c.ldgWhy != some .post)

/-- Operations that wait: in a unit's queue, or at the tag stage of their first read. -/
def CoreState.queued (c : CoreState) : List QItem := c.vecQ ++ c.arrQ ++ c.estQ ++ c.loadQ ++ c.storeQ ++ c.started

/-- A read of the cove by a word up to number `count` has not passed its tag stage: an access, an operation that has not read, the
running PASS or a tile of one that has still to be delivered, a COPY, or a BLD that has not read (R173). -/
def CoreState.readsAhead (c : CoreState) (geo : Nat × Nat) (v : Cove) (count : Nat) : Bool :=
  c.accesses.any (fun a => !a.write && !a.passed && decide (a.w.count ≤ count) && (accChunks a).any v.has) ||
  c.queued.any (fun q => decide (q.w.count ≤ count) && (sourceChunks geo q.op).any v.has) ||
  (match c.pass with
   | some r => decide (r.w.count ≤ count) && (passChunks geo r.a).any v.has
   | none => false) ||
  c.tiles.any (fun t => !t.arrived && decide (t.w.count ≤ count) && (passChunks geo t.a).any v.has) ||
  c.copyAhead v count ||
  (match c.iss.scal with
   | some w => w.toNat % 64 == 0x26 && decide (c.iss.count ≤ count)
   | none => false)

/-- Can the release take effect in this cycle? One through the CSR port comes in the cycle after its write, and waits for pinned
slots only (R83, R94). -/
def CoreState.relReady (c : CoreState) (geo : Nat × Nat) (now : Nat) (v : Cove) (r : Release) : Bool :=
  decide (r.since ≤ now) && !(relSlots v r).any (fun i => c.pinned v i) &&
  (r.viaCsr || r.ctx.isNone || (!c.held v && !c.readsAhead geo v r.count))

/-- The release changes its slots, as they stood when the tick began (R78, R90, R92, R93). -/
def State.release (s : State) (p core : Nat) (v : Cove) (r : Release) : State :=
  let c := s.core p
  let slots := relSlots v r
  let repeated := slots.any (fun i => (c.tagSeen v i).state == 0)
  let early := slots.any (fun i => (c.tagSeen v i).state == 1)
  let retain := c.flag F.coveCfg_retain v.n
  let c1 := slots.foldl (fun c i =>
    if (c.tagSeen v i).state = 2 then c.setTag v i { c.tag v i with state := 0, retained := retain } else c) c
  let c2 := if repeated then c1.bump F.coveStat_relRepeat 1 v.n else c1
  let c3 := if early then c2.bump F.coveStat_relEarly 1 v.n else c2
  let s1 := s.setCore p (if v.n = 0 then
      { c3 with fetchWin := c3.fetchWin.filter (fun e => !decide (e.1 * 64 / v.size ∈ slots)) } else c3)
  let s2 := if repeated then s1.notifyCove core v.n 2 else s1
  if early then s2.notifyCove core v.n 3 else s2

/-- One release at its tag stage: a foreign one is rejected and loses its context (R91); of a disabled cove it does nothing. -/
def State.applyRelease (s : State) (p core : Nat) (r : Release) : State :=
  let c := s.core p
  if !c.flag F.coveCfg_enable r.cove then s
  else
    let v := c.cove r.cove
    match r.ctx with
    | some k =>
      if k ≠ c.get F.coveCfg_owner v.n then
        s.setCore p (c.faultCtx s.now k { cls := clsForeign, unit := 9, tag := r.tag, off := r.off / 4, claimant := (c.tag v r.first).shown })
      else s.release p core v r
    | none => s.release p core v r

/-- Releases of a core in order: those that can take effect do, and the first of the words' releases that cannot keeps those
behind it waiting (R173). In a core that ends its operations, one that waits is abandoned (R218). -/
def State.runReleases (s : State) (p core : Nat) (rels : List Release) (blocked : Bool) : State :=
  match rels with
  | [] => s
  | r :: rest =>
    let c := s.core p
    let ready := c.relReady s.geo s.now (c.cove r.cove) r || !c.flag F.coveCfg_enable r.cove
    if ready && !(blocked && !r.viaCsr) then (s.applyRelease p core r).runReleases p core rest blocked
    else if c.ending && !r.viaCsr then s.runReleases p core rest blocked
    else (s.setCore p { c with rels := c.rels ++ [r] }).runReleases p core rest (blocked || !r.viaCsr)

/-- RELEASE_APPLY (R90): the tag stage of the core's releases. -/
def execReleaseApply (core : Nat) (s : State) : Out :=
  onLive core s (fun p c =>
    (s.setCore p { c with rels := [] }).runReleases p core c.rels false)

end Sys2Proof.Machine
end

