-- ==== Sys2Proof/Machine/Issue.lean ====
section
/-! DEFINITION. Fetch and issue (R97, R168 to R175, R187 to R190, R197 to R204, R211 to R218, R256 to R258, R434 to R436): the
fetch window, what holds a word, what it faults with, and how it issues; START, STOP and the sync slot. -/

namespace Sys2Proof.Machine

/-! ## Fetch -/

/-- The unit at an offset of cove 0, where the fetch window holds it. -/
def CoreState.fetched (c : CoreState) (off : Nat) : Option Nat :=
  match c.fetchWin.find? (fun e => e.1 == off / 64) with
  | some e => some (bytesNat ((e.2.drop (off % 64)).take 4))
  | none => none

/-- Move past skip markers whose chunks are in the window (R168). The first argument bounds the walk. -/
def CoreState.skipMarkers (k : Nat) (c : CoreState) : CoreState :=
  match k with
  | 0 => c
  | k + 1 => if c.fetched c.iss.off = some 0 then skipMarkers k { c with iss.off := c.nextSlot c.iss.off } else c

/-- Slot of cove 0 that an offset lies in. -/
def CoreState.codeSlot (c : CoreState) (off : Nat) : Nat := off / (c.cove 0).size

/-- With AUTO_REL, fetch releases the slot it leaves as the owner once the first word fetched from another slot has passed its tag
stage: as a chunk of that slot comes for the word to issue, or as a word that was fetched ahead is next (R97). DEDUCED, log entry
129. -/
def CoreState.autoRelease (c : CoreState) (now : Nat) : CoreState :=
  let here := c.codeSlot c.iss.off
  match c.iss.slot with
  | some k =>
    if k = here then c
    else
      let c1 : CoreState := { c with iss.slot := some here }
      if c.flag F.coveCfg_autoRel 0 then
        { c1 with rels := c1.rels ++ [⟨0, k, 1, none, c.iss.count, c.iss.tag, c.iss.curOff, none, false, now⟩] }
      else c1
  | none => { c with iss.slot := some here }

/-- Put a chunk at the end of a list that has not got it. -/
def addChunk (l : List Nat) (k : Nat) : List Nat := if k ∈ l then l else l ++ [k]

/-- The chunks that sequential fetch reaches from offset `x` on, following the words it holds and their skip markers into the next
slot, and going straight on past what it has not fetched (R198). The first argument bounds the walk. -/
def CoreState.aheadFrom (fuel : Nat) (c : CoreState) (x : Nat) (l : List Nat) : List Nat :=
  match fuel with
  | 0 => l
  | fuel + 1 =>
    let n := c.codeBytes / 64
    let here := addChunk l (x / 64)
    if 17 ≤ here.length ∨ n = 0 then here
    else match c.fetched x with
      | none => (List.range 17).foldl (fun l k => addChunk l ((x / 64 + k) % n)) here
      | some 0 => c.aheadFrom fuel (c.nextSlot x) here
      | some h =>
        let len := max 1 (bits h 9 6) * 4
        c.aheadFrom fuel ((x + len) % c.codeBytes) (addChunk here ((x + len - 1) / 64 % n))

/-- The chunk of the word next to issue and the 16 that sequential prefetch may be ahead of it (R198). -/
def CoreState.aheadChunks (c : CoreState) : List Nat := (c.aheadFrom 320 c.iss.off []).take 17

/-- A chunk that fetch may read: in its prefetch, and not in its window already (R198). -/
def CoreState.mayFetch (c : CoreState) (chunk : Nat) : Bool :=
  decide (chunk < c.codeBytes / 64) && decide (chunk ∈ c.aheadChunks) && !c.fetchWin.any (fun e => e.1 == chunk)

/-- Keep the chunks of the window: 47 behind the word to come and 16 ahead (R198). -/
def CoreState.trimWindow (c : CoreState) : CoreState :=
  let n := c.codeBytes / 64
  let here := c.iss.off / 64
  let ahead := c.aheadChunks
  { c with fetchWin := c.fetchWin.filter (fun e => decide ((here + n - e.1) % n ≤ 47) || decide (e.1 ∈ ahead)) }

/-- A fetch position outside cove 0 or not aligned faults with OPERAND_BOUNDS (R197). -/
def CoreState.fetchFault (c : CoreState) (now : Nat) : CoreState :=
  c.fault now { cls := clsBounds, unit := 8, tag := c.iss.tag, off := c.iss.off / 4 }

/-- A BLD or BST wants the scalar port in this cycle: it has not begun to wait (R197). -/
def CoreState.sclWantsPort (c : CoreState) : Bool :=
  (match c.iss.scal with
   | some f => bits f.toNat 5 0 == 0x26 || bits f.toNat 5 0 == 0x27
   | none => false) && !c.waits.any (fun x => x.unit == 1)

/-- The fetch of the word next to issue waits at its tag stage, under the deadline in force. DEDUCED, log entry 33. -/
def CoreState.fetchWaits (c : CoreState) (chunk : Nat) (x : Cove × Nat) : CoreState :=
  if chunk = c.iss.off / 64 then (c.unwait 8 c.issCtx).wait ⟨8, c.issCtx, slotAddr x, (c.tag x.1 x.2).shown⟩ else c

/-- FETCH_CHUNK (R197, R198): a tag-checked read of one chunk of cove 0 into the window, through the scalar port. -/
def execFetchChunk (core chunk : Nat) (s : State) : Out :=
  onLive core s (fun p c =>
    if !c.iss.running || c.ending then s
    else if !c.targetOk c.iss.off then s.setCore p (c.fetchFault s.now)
    else if !c.mayFetch chunk || c.sclWantsPort then s
    else
      match s.portRead p .sclRead none [(c.cove 0).base + chunk * 64] with
      | (.done _, s1) => s1.modCore p (fun c =>
          let c1 : CoreState := { c with
            fetchWin := Sparse.set [] c.fetchWin chunk (c.peek ((c.cove 0).base + chunk * 64) 64)
            waits := c.waits.filter (fun x => x.unit != 8) }
          let c2 := if chunk = c.iss.off / 64 then (c1.put F.corCtl_start 0).autoRelease s.now else c1
          c2.trimWindow)
      | (.held (some x), s1) => s1.modCore p (fun c => c.fetchWaits chunk x)
      | (.held none, s1) => s1
      | (.poison b, s1) => s1.modCore p (fun c => c.fault s.now
          { cls := clsPoison, unit := 8, tag := c.iss.tag, off := c.iss.off / 4, addr := some b }))

/-! ## What is in flight -/

/-- Every operation the core issued has ended (R202, R218, R258). -/
def State.opsEnded (s : State) (p : Nat) : Bool :=
  let c := s.core p
  c.queued.isEmpty && c.exec.isEmpty && c.iss.scal.isNone && c.iss.sync.isNone && c.pass.isNone && c.tiles.isEmpty &&
  c.commitQ.isEmpty && c.rels.all (fun r => r.viaCsr) && c.accesses.all (fun a => a.w.count = 0) &&
  c.banking.all (fun b => b.acc.w.count = 0) && s.reqs.all (fun q => q.place != p) &&
  (c.ldgQ ++ c.ldgExec.toList).all (fun i => match i with
    | .cmd _ _ (some _) _ _ => false
    | _ => true)

/-- A core has reached the fence of its step (R258). -/
def State.reachedFence (s : State) (p : Nat) : Bool :=
  (s.core p).flag F.corCtl_stopped || ((s.core p).iss.atFence && s.opsEnded p)

/-! ## What holds a word at issue -/

/-- The core may issue: it runs, is neither stopping nor ending, and no debug hold is on it (R434, R436); HALT holds it from the tick after
its write. -/
def CoreState.mayIssue (c : CoreState) : Bool :=
  c.iss.running && !c.iss.stopping && !c.ending && c.iss.scal.isNone && c.iss.sync.isNone &&
  (c.iss.stepOne || (!(c.flag F.corCtl_halt && c.sel F.corCtl_halt == 1) && !c.flag F.dbgCoreCtl_bpHit))

/-- The word next to issue: none while its units are not all fetched; an error where it breaks R166 or R168. -/
def CoreState.nextWord (c : CoreState) : Option (Except Unit LongWord) :=
  match c.fetched c.iss.off with
  | none => none
  | some h =>
    let len := bits h 9 6
    if !headerOk h || decide ((c.cove 0).size < c.iss.off % (c.cove 0).size + len * 4) then some (.error ())
    else
      let units := (List.range (len - 1)).filterMap (fun k => c.fetched (c.iss.off + 4 + k * 4))
      if units.length = len - 1 then some (.ok (splitWord h units)) else none

/-- The MARK of a word. -/
def wordMark (w : LongWord) : Option (BitVec 24) :=
  match w.sync with
  | some y => if bits y 3 0 = 1 then some (BitVec.ofNat 24 (bits y 27 4)) else none
  | none => none

/-- A tide mark; a fence mark; the frame of a frame mark (R256). -/
def isTideMark (t : BitVec 24) : Bool := bits t.toNat 23 20 == 15
def isFenceMark (t : BitVec 24) : Bool := isTideMark t && bit t.toNat 19
def markFrame (t : BitVec 24) : Nat := bits t.toNat 15 0

/-- Registers a word's slots read by number (R172). -/
def wordReads (w : LongWord) : List Nat :=
  (match w.vec with
   | some v => [bits v 33 29] ++ (if bits v 4 0 = 0x0E then [bits v 18 14] else [])
   | none => []) ++
  (match w.mat with
   | some m => [if bits m 3 0 = 1 then bits m 54 50 else bits m 34 30]
   | none => []) ++
  (match w.load with
   | some l => if bits l 3 0 ≤ 2 then [bits l 13 9] else []
   | none => []) ++
  (match w.store with
   | some l => if bits l 3 0 ≤ 3 then [bits l 13 9] else []
   | none => [])

/-- Descriptor entries a word names (R175). DEDUCED, log entry 130: a field that an operation does not use names no entry. -/
def CoreState.wordEntries (c : CoreState) (w : LongWord) : List Nat :=
  (match w.mat with
   | some m =>
     if bits m 3 0 = 1 then (if bit m 14 then [] else [bits m 94 89]) ++ [bits m 119 114]
     else
       let mode := (c.descWords (bits m 29 24)).1
       [bits m 29 24] ++ (if field mode 25 22 = 14 then [] else [bits m 59 54]) ++ (if field mode 6 6 = 1 then [bits m 106 101] else [])
   | none => []) ++
  (match w.load with
   | some l => if bits l 3 0 ≤ 2 then [bits l 38 33] else []
   | none => []) ++
  (match w.store with
   | some l =>
     if bits l 3 0 = 3 then [bits l 38 33] ++
       (if field (c.routeWords (bits l 46 39)).1 1 0 = 3 then [] else [field (c.routeWords (bits l 46 39)).2 24 19])
     else if bits l 3 0 ≤ 2 then [bits l 38 33] else []
   | none => [])

/-- A reduction that has not run will write the register. -/
def CoreState.reductionInto (c : CoreState) (r : Nat) : Bool :=
  r != 0 && (c.vecQ ++ c.started).any (fun q => match q.op with
    | .vec code a => vecReduces code && a.vd == r && (a.run.getD a.count) != 0
    | _ => false)

/-- A DLOAD that has not run will write the entry. -/
def CoreState.dloadInto (c : CoreState) (e : Nat) : Bool :=
  (c.loadQ ++ c.started).any (fun q => match q.op with
    | .dload a => decide (a.first ≤ e) && decide (e ≤ a.first + a.n)
    | _ => false)

/-- Places of the ledge-engine queue that are taken or promised: commands that wait, and ENGs that have still to read theirs (R59). -/
def CoreState.engPlaces (c : CoreState) : Nat :=
  c.ldgQ.length + ((c.storeQ ++ c.started).filter (fun q => match q.op with | .eng _ => true | _ => false)).length

/-- Operations in the array queue: a PASS keeps its place until its first inlet read issues (R446). -/
def CoreState.arrPlaces (c : CoreState) : Nat :=
  c.arrQ.length + (match c.pass with
    | some r => b2n (!r.begun)
    | none => 0)

/-- Places of the estuary queue that a word enters (Table 6-3). -/
def estNeeds (w : LongWord) : Nat :=
  (match w.mat with
   | some m => b2n (bits m 3 0 != 1)
   | none => 0) +
  (match w.store with
   | some l => b2n (bits l 3 0 == 5)
   | none => 0)

/-- Operations in the store queue (Table 6-3). -/
def CoreState.storePlaces (c : CoreState) : Nat :=
  (c.storeQ.filter (fun q => match q.op with | .eng _ => false | _ => true)).length

/-- Every queue a slot enters has a place for each of the word's operations that enter it (R169). -/
def CoreState.queuesFree (c : CoreState) (w : LongWord) : Bool :=
  (w.vec.isNone || decide (c.vecQ.length < 4)) &&
  (match w.mat with
   | some m => bits m 3 0 != 1 || decide (c.arrPlaces < 4)
   | none => true) &&
  (estNeeds w == 0 || decide (c.estQ.length + estNeeds w ≤ 4)) &&
  (w.load.isNone || decide (c.loadQ.length < 8)) &&
  (match w.store with
   | some l => if bits l 3 0 = 4 then decide (c.engPlaces < 8) else bits l 3 0 == 5 || decide (c.storePlaces < 8)
   | none => true)

/-- The slot a WAIT checks is FLOOD with its stamp in a cove that is not held (R84, R204); in a restore routine a WAIT has no
effect (R318). -/
def CoreState.waitPasses (c : CoreState) (n off : Nat) (st : BitVec 16) : Bool :=
  let v := c.cove n
  let t := c.tagSeen v ((c.get F.covePtr_tail n + off) % v.slots)
  c.iss.restoring || (!c.held v && t.state == 2 && decide (t.stamp = st))

/-- What travels with the operations of a word: its own MARK, DLINE and EXPECT come first (R170). `start` and `limit` are
those of the step of an armed bay. DESIGN CHOICE, log entry 126: a DLINE whose time lies past the step limit is an explicit deadline
that equals the limit. -/
def CoreState.wordCtx (c : CoreState) (w : LongWord) (grid : Option (Nat × Nat)) : WordCtx where
  tag := (wordMark w).getD c.iss.tag
  post := w.post
  stamp := w.stamp
  expect := match w.sync with
    | some y => if bits y 3 0 = 2 then some (bits y 8 4, BitVec.ofNat 16 (bits y 24 9)) else none
    | none => none
  deadline := match w.sync with
    | some y =>
      if bits y 3 0 = 1 then none
      else if bits y 3 0 = 6 then
        (match grid with
         | some (start, limit) => if bits y 27 4 = 0 then none else some (min (start + bits y 27 4) limit)
         | none => none)
      else c.iss.deadline
    | none => c.iss.deadline
  off := c.iss.off
  ctx := c.get F.corCtl_ctx
  count := c.iss.count + 1

/-- Operations of a word in issue order: load, vector, matrix, store (R170); none where a slot breaks a decode rule. -/
def State.wordOps (s : State) (c : CoreState) (w : LongWord) : Option (List QOp) :=
  let load := match w.load with
    | some l => (c.loadSlot l).map (fun o => [o])
    | none => some []
  let vec := match w.vec with
    | some v => (c.vecSlot v).map (fun o => [.vec o.1 o.2])
    | none => some []
  let mat := match w.mat with
    | some m =>
      if bits m 3 0 = 1 then (c.passSlot (s.get F.plnGeom0_fmtMask) (s.get F.plnGeom1_inletDec) s.geo m).map (fun a => [.pass a])
      else if bits m 3 0 = 2 then
        (c.drainSlot (s.get F.plnGeom1_estMask) (s.get F.plnGeom1_strandStages) m).map (fun a => [.drain a])
      else none
    | none => some []
  let store := match w.store with
    | some l => (c.storeSlot s.dtree l).map (fun o => [o])
    | none => some []
  match load, vec, mat, store with
  | some a, some b, some d, some e => some (a ++ b ++ d ++ e)
  | _, _, _, _ => none

/-- What becomes of the word next to issue. -/
inductive Verdict where
  | wait (on : Option Wait)
  | fault (f : FaultInfo)
  | issue (w : WordCtx) (ops : List QOp) (isOver : Bool)
  deriving DecidableEq, Repr

/-- The scalar slot is a BLD that a register of the same word reads and that has not its data yet (R172). -/
def CoreState.awaitsLoad (c : CoreState) (w : LongWord) (x : WordCtx) : Bool :=
  match w.scal with
  | some i =>
    bits i 5 0 == 0x26 && (sclWrites i).any (fun r => r != 0 && decide (r ∈ wordReads w)) &&
      !(c.slotsOf [c.sclBasin (bits i 15 11) (BitVec.ofNat 16 (bits i 31 16))]).all (c.readPasses x.expect)
  | none => false

/-- Step start and limit of the armed bay of a core. -/
def State.gridOf (s : State) (core : Nat) : Option (Nat × Nat) :=
  (s.armedBay core).map (fun b => (s.stepStartAt b, s.stepLimitAt b))

/-- Judge a word: what it waits for, then what it faults with in the order of R216, else its operations. DEDUCED, log entry 130: it
waits for no DLOAD of its own load slot, and captures the entry as it stands. DESIGN CHOICE, log entry 125: a fault of the scalar
slot found here is one of unit 1. -/
def State.judge (s : State) (p core : Nat) (c : CoreState) (w : LongWord) : Verdict :=
  let x := c.wordCtx w (s.gridOf core)
  let fault (cls unit : Nat) (addr : Option Nat) (imm : Nat) : Verdict :=
    .fault { cls, unit, tag := x.tag, off := c.iss.off / 4, imm, addr }
  let held := match w.sync with
    | some y =>
      if bits y 3 0 = 3 ∧ !c.syncBounds y ∧ !c.waitPasses (bits y 8 4) (bits y 15 9) (BitVec.ofNat 16 (bits y 31 16)) then
        let v := c.cove (bits y 8 4)
        let i := (c.get F.covePtr_tail v.n + bits y 15 9) % v.slots
        some (Wait.mk 0 { x with deadline := c.iss.deadline } (slotAddr (v, i)) (c.tag v i).shown)
      else none
    | none => none
  match held with
  | some on => .wait (some on)
  | none =>
    let regs := wordReads w ++ (match w.scal with
      | some i => sclReads i ++ sclWrites i
      | none => [])
    if !c.queuesFree w || regs.any c.reductionInto || (c.wordEntries w).any c.dloadInto || c.awaitsLoad w x then .wait none
    else
      let ca := match w.scal with
        | some i => c.afterScalar s.now (s.strandImage p) c.iss.off w.len i
        | none => c
      let sclOk := match w.scal with
        | some i => sclWellFormed (s.get F.plnGeom1_customOps) i
        | none => true
      let syncOk := match w.sync with
        | some y => syncWellFormed y
        | none => true
      match if sclOk && syncOk then s.wordOps ca w else none with
      | none => fault clsDecode 0 none 0
      | some ops =>
        let syncBad := match w.sync with
          | some y => c.syncBounds y
          | none => false
        match ops.findSome? (fun o => s.opBounds ca core o) with
        | some a => fault clsBounds 0 (some a) 0
        | none =>
          if syncBad then fault clsBounds 0 none 0
          else
            match w.scal.bind (fun i => { c with iss.curOff := c.iss.off }.sclIssueFault (s.carve (core / 16)) i) with
            | some (cls, a) => fault cls 1 a (match w.scal with
                | some i => if bits i 5 0 = 0x32 then bits i 31 16 else 0
                | none => 0)
            | none => .issue x ops (ops.any opShapeOver)

/-! ## Issue -/

/-- The operation writes the basin or a tier, sends or posts. -/
def opWrites (x : WordCtx) (op : QOp) : Bool :=
  match op with
  | .vec _ _ => false
  | .pass _ => false
  | .drain _ => true
  | .param _ => false
  | .vload _ => x.post
  | .tload _ => true
  | .dload _ => x.post
  | .vstore _ => true
  | .tstore _ => true
  | .send _ => true
  | .eng _ => true

/-- Put an operation into its unit's queue (Table 6-3). -/
def CoreState.enqueue (c0 : CoreState) (x : WordCtx) (op : QOp) : CoreState :=
  let c := c0.breaks (opWrites x op)
  match op with
  | .vec _ _ => { c with vecQ := c.vecQ ++ [⟨x, op⟩] }
  | .pass a =>
    let c1 := if a.pred.isSome then c.wrap F.corTileCtl_predPasses else c
    { c1 with arrQ := c1.arrQ ++ [⟨x, op⟩] }
  | .drain _ => { c with estQ := c.estQ ++ [⟨x, op⟩] }
  | .param _ => { c with estQ := c.estQ ++ [⟨x, op⟩] }
  | .vload _ => { c with loadQ := c.loadQ ++ [⟨x, op⟩] }
  | .tload _ => { c with loadQ := c.loadQ ++ [⟨x, op⟩] }
  | .dload _ => { c with loadQ := c.loadQ ++ [⟨x, op⟩] }
  | .vstore _ => { c with storeQ := c.storeQ ++ [⟨x, op⟩] }
  | .tstore _ => { c with storeQ := c.storeQ ++ [⟨x, op⟩] }
  | .send _ => { c with storeQ := c.storeQ ++ [⟨x, op⟩] }
  | .eng _ => { c with storeQ := c.storeQ ++ [⟨x, op⟩] }

/-- COR_DEADLINE for a deadline in force (R206): an explicit one, else the step limit of an armed bay, else 0. -/
def deadlineShown (d : Option Nat) (grid : Option (Nat × Nat)) : Nat :=
  match d, grid with
  | some t, _ => t
  | none, some (_, limit) => limit
  | none, none => 0

/-- The word issues: its operations enter their units, the scalar and sync slots are next to execute, and the count, the tag
and the deadline move on (R169, R187, R188). With SHAPE_OVER it does not count and nothing issues after it (R213). -/
def CoreState.issueWord (c : CoreState) (now : Nat) (w : LongWord) (x : WordCtx) (ops : List QOp) (isOver : Bool)
    (grid : Option (Nat × Nat)) : CoreState :=
  let c1 := ops.foldl (fun c o => c.enqueue x o) ((c.autoRelease now).trimWindow)
  let next := (c.iss.off + w.len * 4) % c.codeBytes
  let c2 : CoreState := { c1 with
    iss.curOff := c.iss.off
    iss.curLen := w.len
    iss.off := next
    iss.count := x.count
    iss.tag := x.tag
    iss.post := x.post
    iss.stamp := x.stamp
    iss.expect := x.expect
    iss.deadline := x.deadline
    iss.scal := w.scal.map (BitVec.ofNat 32)
    iss.sync := w.sync.map (BitVec.ofNat 32)
    iss.atFence := false
    iss.passFence := false
    iss.markWait := none
    iss.skipBp := false
    iss.stepOne := false
    iss.issuedAt := now
    waits := c1.waits.filter (fun y => y.unit != 0) }
  let c3 := ((c2.put F.corTagNow_tag x.tag.toNat).put F.corDeadline_deadline (deadlineShown x.deadline grid)).put F.corSclStat_waiting 0
  let c4 := if c.iss.stepOne then c3.put F.dbgCoreCtl_cause 2 else c3
  if isOver then c4.fault now { cls := clsShape, unit := 0, tag := x.tag, off := c.iss.off / 4 }
  else c4.wrap F.corCountNow_count

/-- The word waits at issue. -/
def CoreState.issueWaits (c : CoreState) (on : Option Wait) : CoreState :=
  let c1 := c.put F.corSclStat_waiting 1
  match on with
  | some w => c1.wait w
  | none => c1

/-- Judge the word and act on it. -/
def State.tryIssue (s : State) (p core : Nat) (c : CoreState) (w : LongWord) (note : CoreState → CoreState) : State :=
  match s.judge p core c w with
  | .wait on => s.setCore p (c.issueWaits on)
  | .fault f => s.setCore p (c.fault s.now f)
  | .issue x ops isOver => s.setCore p ((note c).issueWord s.now w x ops isOver (s.gridOf core))

/-- The breakpoint the word next to issue meets: its CAUSE (R435). -/
def CoreState.breakpoint (c : CoreState) (w : LongWord) : Option Nat :=
  if c.iss.stepOne || c.iss.skipBp then none
  else if c.flag F.dbgCoreCtl_bpcEn && c.get F.corCountNow_count + 1 == c.get F.dbgBpCount_count then some 3
  else if c.flag F.dbgCoreCtl_bptEn && (wordMark w).any (fun t => t.toNat == c.get F.dbgBpTag_tag) then some 4
  else none

/-- Record a fence mark that issues: its slack, frame 0, and a new largest slip of 0 (R257, R258, R264). -/
def CoreState.noteFence (c : CoreState) (now : Nat) : CoreState :=
  let slack := now - c.iss.markWait.getD now
  ((c.put F.corSlip_maxSlip 0).put F.corSlip_lastSlack (min 0xFFFF slack)).put F.corSlip_lastFrame 0

/-- Record a frame mark that issues (R257): `start` is the start of its frame. -/
def CoreState.noteFrame (c : CoreState) (now start frame : Nat) : CoreState :=
  let reached := c.iss.markWait.getD now
  let slack := start - reached
  let slip := if reached < start then 0 else now - start
  ((((c.put F.corSlip_lastSlip (min 0xFFFF slip)).put F.corSlip_lastSlack (min 0xFFFF slack)).put F.corSlip_lastFrame frame).put
    F.corSlip_maxSlip (max (c.get F.corSlip_maxSlip) (min 0xFFFF slip))).bump F.corSlipSum_slipNs slip

/-- A word that waits for the tide keeps the tick it began to. -/
def CoreState.reachMark (c : CoreState) (now : Nat) (fence : Bool) : CoreState :=
  { (c.put F.corSclStat_waiting 1) with iss.markWait := some (c.iss.markWait.getD now), iss.atFence := fence }

/-- The core stops as after a STOP. -/
def CoreState.stopIssue (c : CoreState) : CoreState := { c with iss.stopping := true, iss.running := false }

/-- The word next to issue, past skip markers, of a core that may issue. A skip marker is never a word: where more follow one another
than the walk takes, the rest is for the next command (R168). -/
def State.withWord (s : State) (p : Nat) (c : CoreState) (f : CoreState → LongWord → State) : State :=
  if !c.mayIssue then s
  else if !c.targetOk c.iss.off then s.setCore p (c.fetchFault s.now)
  else
    let c1 := c.skipMarkers 64
    match if c1.fetched c1.iss.off = some 0 then none else c1.nextWord with
    | none => s.setCore p c1
    | some (.error _) => s.setCore p (c1.fault s.now { cls := clsDecode, unit := 0, tag := c1.iss.tag, off := c1.iss.off / 4 })
    | some (.ok w) =>
      match c1.breakpoint w with
      | some cause => s.setCore p { ((c1.raise F.dbgCoreCtl_bpHit).put F.dbgCoreCtl_cause cause) with iss.skipBp := true }
      | none => f c1 w

/-- WORD_ISSUE (R169). A fence mark of an armed bay waits for its step start; a frame mark of one waits for its frame, and
issues by FRAME_MARK_ISSUE. A draining bay that is not armed stops at a fence mark (R345). -/
def execWordIssue (core : Nat) (s : State) : Out :=
  onLive core s (fun p c => s.withWord p c (fun c w =>
    match wordMark w with
    | some t =>
      if !isTideMark t then s.tryIssue p core c w id
      else
        match s.armedBay core with
        | some _ =>
          if isFenceMark t then
            if c.iss.passFence then s.tryIssue p core c w (fun c => c.noteFence s.now) else s.setCore p (c.reachMark s.now true)
          else s.setCore p (c.reachMark s.now false)
        | none =>
          if isFenceMark t && (s.bayOf (core / 16)).any (fun b => s.flag F.bayDrain_go b) then s.setCore p c.stopIssue
          else s.tryIssue p core c w (fun c => if isFenceMark t then c.noteFence s.now else c)
    | none => s.tryIssue p core c w id))

/-- FRAME_MARK_ISSUE (R257): the frame mark next to issue issues once TID_NOW has reached its frame's start. -/
def execFrameMarkIssue (core : Nat) (s : State) : Out :=
  onLive core s (fun p c => s.withWord p c (fun c w =>
    match wordMark w, s.armedBay core with
    | some t, some b =>
      if !isTideMark t || isFenceMark t then s
      else
        let start := s.stepStartAt b + markFrame t * s.frameLen b
        if s.now < start then s.setCore p (c.reachMark s.now false)
        else s.tryIssue p core c w (fun c => c.noteFrame s.now start (markFrame t))
    | _, _ => s))

/-! ## Start and stop (R201, R202) -/

/-- A START that is accepted: fetch begins at ENTRY with an empty window. -/
def CoreState.startIssue (c : CoreState) : CoreState :=
  let c1 := ((c.put F.corCtl_start 1).put F.corCtl_stopped 0).put F.corSclStat_waiting 0
  let c2 := if c.flag F.corCtl_halt then c1.put F.dbgCoreCtl_cause 1 else c1
  { c2 with
    fetchWin := []
    iss := { c2.iss with
      off := c.get F.corCtl_entry
      running := true
      stopping := false
      lost := false
      cut := false
      atFence := false
      passFence := false
      markWait := none
      slot := none
      skipBp := false
      stepOne := false
      deadline := none } }

/-- Every core of the bay is stopped. -/
def State.bayStopped (s : State) (b : Nat) : Bool :=
  (s.bayCores b).all (fun k => (s.core (s.phys k)).flag F.corCtl_stopped)

/-- DONE sets and GO clears in the tick after the last core of a draining bay has stopped (R345); a tick asks. -/
def State.settleDrain (s : State) (b : Nat) : State :=
  if s.flag F.bayDrain_go b && s.bayStopped b then
    ((s.put F.bayDrain_go 0 b).raiseFlag F.bayDrain_done b).modBay b (fun y => { y with drainAt := none })
  else s

/-- CORE_STOPPED (R202, R218): a core that issues no more sets STOPPED once all its operations have ended. -/
def execCoreStopped (core : Nat) (s : State) : Out :=
  onLive core s (fun p c =>
    if c.iss.stopping && !c.flag F.corCtl_stopped && s.opsEnded p then
      s.setCore p { (((c.put F.corCtl_stopped 1).put F.corDeadline_deadline 0).put F.corSclStat_waiting 0) with
        waits := []
        iss := { c.iss with running := false, stopping := false, cut := false, deadline := none } }
    else s)

/-! ## The sync slot (Table 6-12) -/

/-- The sync slot of the word last issued has executed. -/
def CoreState.syncDone (c : CoreState) : CoreState := { c with iss.sync := none }

/-- MARK: the command tag of its word and later ones; the deadline is the step limit again (R187, R206). -/
def execMark (core : Nat) (tag : BitVec 24) (s : State) : Out :=
  onLive core s (fun p c => s.setCore p
    ((({ c with iss.tag := tag, iss.deadline := none } : CoreState).put F.corTagNow_tag tag.toNat).put
      F.corDeadline_deadline (deadlineShown none (s.gridOf core))).syncDone)

/-- EXPECT: the word's reads of the cove expect the stamp (R203). -/
def execExpect (core cove : Nat) (stamp : BitVec 16) (s : State) : Out :=
  onLive core s (fun p c => s.setCore p ({ c with iss.expect := some (cove, stamp) } : CoreState).syncDone)

/-- WAIT: that of a word that has issued has passed, as the word could not issue before (R169). Else the slot is checked; while it is not FLOOD with the stamp, the word waits under the deadline in force before it
(R204, R207). A cove that is not enabled, or an OFF past its slots, faults with OPERAND_BOUNDS. -/
def execWait (core cove off : Nat) (stamp : BitVec 16) (s : State) : Out :=
  onLive core s (fun p c =>
    if c.iss.sync.isSome then s.setCore p { c.syncDone with waits := c.waits.filter (fun y => y.unit != 0) }
    else if !c.flag F.coveCfg_enable cove || decide ((c.cove cove).slots ≤ off) then
      s.setCore p (c.fault s.now { cls := clsBounds, unit := 0, tag := c.iss.tag, off := c.iss.off / 4 })
    else if c.waitPasses cove off stamp then
      s.setCore p { c.syncDone with waits := c.waits.filter (fun y => y.unit != 0) }
    else
      let v := c.cove cove
      let i := (c.get F.covePtr_tail cove + off) % v.slots
      s.setCore p (c.wait ⟨0, c.issCtx, slotAddr (v, i), (c.tag v i).shown⟩))

/-- REL: the release is issued and takes effect at its tag stage (R173); one that R90 calls invalid faults at issue. -/
def execRel (core cove first count : Nat) (s : State) : Out :=
  onLive core s (fun p c =>
    let slots := (c.cove cove).slots
    if !c.flag F.coveCfg_enable cove || decide (slots ≤ first) || count == 0 || decide (slots < count) then
      s.setCore p (c.fault s.now { cls := clsBounds, unit := 0, tag := c.iss.tag, off := c.iss.curOff / 4, count := some c.iss.count }).syncDone
    else s.setCore p ({ (c.breaks true) with rels := c.rels ++
      [⟨cove, first, count, some (c.get F.corCtl_ctx), c.iss.count, c.iss.tag, c.iss.curOff, c.iss.deadline, false, s.now⟩] } : CoreState).syncDone)

/-- LEASE: LDG_LEASE_ACT.SET takes the set (R43). -/
def execLease (core set : Nat) (s : State) : Out :=
  onLive core s (fun p c => s.setCore p ((c.setLease s.now set).syncDone))

/-- DLINE: the deadline is the step's start and DEADLINE ns, at most the step limit; 0 sets the step limit (R206). DESIGN CHOICE,
log entry 126: one cut to the limit stays explicit. -/
def execDline (core deadline : Nat) (s : State) : Out :=
  onLive core s (fun p c =>
    let d := match s.gridOf core with
      | some (start, limit) => if deadline = 0 then none else some (min (start + deadline) limit)
      | none => none
    s.setCore p ((({ c with iss.deadline := d } : CoreState).put F.corDeadline_deadline (deadlineShown d (s.gridOf core))).syncDone))

/-- STOP: the core issues no word after this one (R202). -/
def execStop (core : Nat) (s : State) : Out :=
  onLive core s (fun p c => s.setCore p c.stopIssue.syncDone)

end Sys2Proof.Machine
end

