-- ==== Sys2Proof/Machine/Vector.lean ====
section
/-! DEFINITION. The vector engine (R137 to R146, R443): elements, groups, the operations of Table 5-2 and the reductions; and the
common frame of a unit that executes its operations in issue order (R171, R446). -/

namespace Sys2Proof.Machine

/-! ## A unit executes its next operation (R171, R446) -/

/-- Which queue an operation enters. -/
inductive UnitQ where
  | vec | arr | est | load | store
  deriving DecidableEq, Repr

/-- The queue of a unit. -/
def CoreState.queue (c : CoreState) (u : UnitQ) : List QItem :=
  match u with
  | .vec => c.vecQ
  | .arr => c.arrQ
  | .est => c.estQ
  | .load => c.loadQ
  | .store => c.storeQ

/-- Replace the queue of a unit. -/
def CoreState.setQueue (c : CoreState) (u : UnitQ) (l : List QItem) : CoreState :=
  match u with
  | .vec => { c with vecQ := l }
  | .arr => { c with arrQ := l }
  | .est => { c with estQ := l }
  | .load => { c with loadQ := l }
  | .store => { c with storeQ := l }

/-- ENG commands and the other operations of the store queue execute apart (Table 6-3). -/
def sameUnit (op other : QOp) : Bool :=
  match op, other with
  | .eng _, .eng _ => true
  | .eng _, _ => false
  | _, .eng _ => false
  | _, _ => true

/-- The unit an operation enters (Table 6-3). -/
def unitOf (op : QOp) : UnitQ :=
  match op with
  | .vec _ _ => .vec
  | .pass _ => .arr
  | .drain _ => .est
  | .param _ => .est
  | .vload _ => .load
  | .tload _ => .load
  | .dload _ => .load
  | .vstore _ => .store
  | .tstore _ => .store
  | .send _ => .store
  | .eng _ => .store

/-- A VSTORE or DRAIN of the unit has writes to make: the unit's next operation comes after them (R171). -/
def CoreState.unitWrites (c : CoreState) (u : UnitQ) (op : QOp) : Bool :=
  c.exec.any (fun x => unitOf x.op == u && sameUnit op x.op && !x.pend.isEmpty && (match x.op with
    | .vstore _ => true
    | .drain _ => true
    | _ => false))

/-- The operation is a reduction that writes a scalar register. -/
def opReduces (op : QOp) : Bool :=
  match op with
  | .vec code _ => vecReduces code
  | _ => false

/-- A slot of the word that comes before the operation in issue order has still to act: the sync slot but for a REL, and the scalar
slot, which a BLD or BST that waits for the basin holds back for a reduction only (R170 to R172). -/
def CoreState.slotsAhead (c : CoreState) (w : WordCtx) (op : QOp) : Bool :=
  w.count == c.iss.count &&
  ((match c.iss.sync with
    | some y => bits y.toNat 3 0 != 4
    | none => false) ||
   (match c.iss.scal with
    | some i => opReduces op || !(bits i.toNat 5 0 == 0x26 || bits i.toNat 5 0 == 0x27)
    | none => false))

/-- The operation may execute now as far as its unit and its word go: it is the unit's next one, or nothing waits in the unit. -/
def CoreState.nextOp (c : CoreState) (u : UnitQ) (w : WordCtx) (op : QOp) : Bool :=
  (match (c.started.filter (fun q => unitOf q.op == u) ++ c.queue u).find? (fun q => sameUnit op q.op) with
   | some q => q.w == w && q.op == op
   | none => true) && !c.unitWrites u op && !c.slotsAhead w op

/-- Take an operation out of its queue, or from the operations that have begun to read. -/
def CoreState.dequeue (c : CoreState) (u : UnitQ) (w : WordCtx) (op : QOp) : CoreState :=
  { c.setQueue u ((c.queue u).erase ⟨w, op⟩) with started := c.started.erase ⟨w, op⟩ }

/-- The first access of the operation has issued and waits: it frees its place in the queue (R446). -/
def CoreState.start (c : CoreState) (u : UnitQ) (w : WordCtx) (op : QOp) : CoreState :=
  let c1 := c.dequeue u w op
  { c1 with started := c1.started ++ [⟨w, op⟩] }

/-- The operation begins: it leaves its queue, and it is in flight until OPERATION_COMPLETE. -/
def CoreState.begin (c : CoreState) (u : UnitQ) (w : WordCtx) (op : QOp) (posts : List (Nat × Nat)) : CoreState :=
  let c1 := c.dequeue u w op
  { c1 with exec := c1.exec ++ [⟨w, op, [], [], posts⟩] }

/-- The operation is abandoned without further writes or posts (R218). -/
def CoreState.abandon (c : CoreState) (u : UnitQ) (w : WordCtx) (op : QOp) : CoreState :=
  let c1 := c.dequeue u w op
  { c1 with draining := c1.draining.filter (fun d => !(d.w == w && op == .drain d.a)) }

/-- The operation breaks a decode rule that its own fields show (R109, R141, R149, R180, R182, R184). -/
def State.opMalformed (s : State) (c : CoreState) (op : QOp) : Bool :=
  match op with
  | .vec code a => (vecFpOnly code && a.ty != 0 && a.ty != 2) || decide (8192 < a.count)
  | .pass a => !c.passOk (s.get F.plnGeom0_fmtMask) (s.get F.plnGeom1_inletDec) s.geo a
  | .drain a => !drainOk (s.get F.plnGeom1_estMask) (s.get F.plnGeom1_strandStages) a.mode || decide (512 < a.count)
  | .dload a => decide (64 < a.first + a.n + 1)
  | _ => false

/-- The class and address with which an operation is refused that no word has issued: issue judges the others (R190, R216). -/
def State.opRefused (s : State) (c : CoreState) (core : Nat) (w : WordCtx) (op : QOp) : Option (Nat × Option Nat) :=
  if ⟨w, op⟩ ∈ c.queue (unitOf op) ∨ ⟨w, op⟩ ∈ c.started then none
  else if s.opMalformed c op then some (clsDecode, none)
  else (s.opBounds c core op).map (fun a => (clsBounds, some a))

/-- The common frame of a unit: the operation is the next of its unit and nothing else holds it, and it is not refused. -/
def State.startOp (s : State) (p core : Nat) (w : WordCtx) (op : QOp) (ready : Bool) (run : State) : State :=
  let c := s.core p
  if !c.nextOp (unitOf op) w op || !ready then s
  else match s.opRefused c core w op with
    | some (cls, a) => s.setCore p (c.faultWord s.now cls 0 w a)
    | none => run

/-- Place of a slot in the issue order of one word (R170). -/
def slotRank (op : QOp) : Nat :=
  match op with
  | .vload _ => 0
  | .tload _ => 0
  | .dload _ => 0
  | .vec _ _ => 1
  | .pass _ => 2
  | .drain _ => 2
  | .param _ => 3
  | .vstore _ => 3
  | .tstore _ => 3
  | .send _ => 3
  | .eng _ => 3

/-- The first operation was issued before the second. -/
def issuedBefore (w1 : WordCtx) (o1 : QOp) (w2 : WordCtx) (o2 : QOp) : Bool :=
  decide (w1.count < w2.count) || (w1.count == w2.count && decide (slotRank o1 < slotRank o2))

/-! ## The vector register run (R138, R146) -/

/-- Byte address of a vector register in the run v0 to v31. -/
def vregAt (v : Nat) : Nat := v * 2048

/-- Elements an operation works on: the run-time count, clamped to the declared one (R211, R213). -/
def vecCount (a : VecArgs) : Nat := min (a.run.getD a.count) a.count

/-- Ranges (first byte, bytes) of the register run an operation reads. -/
def vregReads (op : QOp) : List (Nat × Nat) :=
  match op with
  | .vec code a =>
    let n := vecCount a * vecBytes a.ty
    (if code = 0x0D ∨ code = 0x0E then [] else [(vregAt a.va, n)]) ++
    (if vecUsesB code then [(vregAt a.vb, n)] else []) ++ (if vecUsesC code then [(vregAt a.vc, n)] else [])
  | .vstore a => [(vregAt a.v, runChunks a.opnd a.run * 64)]
  | _ => []

/-- Ranges of the register run an operation writes. -/
def vregWrites (op : QOp) : List (Nat × Nat) :=
  match op with
  | .vec code a => if vecReduces code then [] else [(vregAt a.vd, vecCount a * vecBytes a.dty)]
  | .vload a => [(vregAt a.v, runChunks a.opnd a.run * 64)]
  | _ => []

/-- Two lists of ranges share a byte. -/
def rangesMeet (l m : List (Nat × Nat)) : Bool := l.any (fun x => m.any (fun y => !apart x.1 x.2 y.1 y.2))

/-- An operation issued earlier still waits to read or write registers this one writes, or to write registers it reads: the
results are as if in issue order (R146). -/
def CoreState.vregBusy (c : CoreState) (w : WordCtx) (op : QOp) : Bool :=
  c.queued.any (fun q => issuedBefore q.w q.op w op &&
    (rangesMeet (vregWrites q.op) (vregReads op) || rangesMeet (vregWrites q.op) (vregWrites op) ||
      rangesMeet (vregReads q.op) (vregWrites op)))

/-! ## Elements -/

/-- An element type is an FP type. -/
def vecFp (ty : Nat) : Bool := ty == 0 || ty == 2

/-- Its format. -/
def vecFmt (ty : Nat) : Fp.Fmt := if ty = 2 then Fp.bf16 else Fp.f32

/-- Bits of an integer type. -/
def vecWidth (ty : Nat) : Nat := vecBytes ty * 8

/-- Element `n` of the operand at `v`, as its bits. -/
def CoreState.velem (c : CoreState) (ty v n : Nat) : Nat :=
  bytesNat (Bytes.read 0 c.vregs (vregAt v + n * vecBytes ty) (vecBytes ty))

/-- Write element `n` of the operand at `v`. -/
def CoreState.setVelem (c : CoreState) (ty v n x : Nat) : CoreState :=
  { c with vregs := Bytes.write 0 c.vregs (vregAt v + n * vecBytes ty) (natBytes (vecBytes ty) x) }

/-- A result with the flags it raises: bits, NaN, wrap or saturation. -/
structure VRes where
  val : Nat
  nan : Bool := false
  wrap : Bool := false
  deriving DecidableEq, Repr

/-- An FP result. -/
def vFp (ty b : Nat) : VRes := ⟨b, Fp.isNan (vecFmt ty) b, false⟩

/-- An integer result that wraps (R142). -/
def vInt (ty : Nat) (v : Int) : VRes := ⟨unsigned (vecWidth ty) v, false, wraps (vecWidth ty) v⟩

/-- An integer element. -/
def vSigned (ty b : Nat) : Int := signed (vecWidth ty) b

/-- Two-operand arithmetic: `f` on FP types, `g` on integers. -/
def vArith (ty : Nat) (f : Fp.Fmt → Nat → Nat → Nat) (g : Int → Int → Int) (a b : Nat) : VRes :=
  if vecFp ty then vFp ty (f (vecFmt ty) a b) else vInt ty (g (vSigned ty a) (vSigned ty b))

/-- A comparison: 1 or 0, 1.0 or 0.0 for FP types. -/
def vTruth (ty : Nat) (b : Bool) : VRes :=
  if b then ⟨if ty = 0 then 0x3F800000 else if ty = 2 then 0x3F80 else 1, false, false⟩ else ⟨0, false, false⟩

/-- A comparison of two elements. -/
def vCompare (ty : Nat) (f : Fp.Fmt → Nat → Nat → Bool) (g : Int → Int → Bool) (a b : Nat) : VRes :=
  vTruth ty (if vecFp ty then f (vecFmt ty) a b else g (vSigned ty a) (vSigned ty b))

/-- A unary function of R144: correctly rounded in binary32, and from there to bfloat16. -/
def vUnary (ty : Nat) (f : Fp.Fl → Fp.Fl × Bool) (a : Nat) : VRes :=
  let r := Fp.packP Fp.f32 (f (Fp.unpack (vecFmt ty) a))
  vFp ty (if ty = 2 then Fp.toBf16 r else r)

/-- A conversion (R142). -/
def vConvert (ty dty a : Nat) : VRes :=
  if vecFp ty then
    if vecFp dty then vFp dty (Fp.pack (vecFmt dty) (Fp.unpack (vecFmt ty) a))
    else
      let r := Fp.toIntB (vecFmt ty) (vecWidth dty) a
      ⟨unsigned (vecWidth dty) r.1, false, r.2⟩
  else if vecFp dty then vFp dty (Fp.ofIntB (vecFmt dty) (vSigned ty a))
  else
    let v := vSigned ty a
    let hi : Int := 2 ^ (vecWidth dty - 1) - 1
    let lo : Int := -(2 ^ (vecWidth dty - 1))
    ⟨unsigned (vecWidth dty) (max lo (min hi v)), false, wraps (vecWidth dty) v⟩

/-! ## Groups (R138, R140, R145) -/

/-- Elements per cycle: Table 5-1, for a CVT the wider of its types. -/
def vecGroup (lanes code : Nat) (a : VecArgs) : Nat :=
  let b := if code = 0x0F then max (vecBytes a.ty) (vecBytes a.dty) else vecBytes a.ty
  max 1 (lanes * 4 / b)

/-- Groups of an operation. -/
def vecGroups (lanes code : Nat) (a : VecArgs) : Nat := ceilDiv (vecCount a) (vecGroup lanes code a)

/-- One group: all its sources are read, then its results are written (R140). -/
def CoreState.vecStep (c : CoreState) (a : VecArgs) (f : CoreState → Nat → VRes) (first n : Nat) : CoreState :=
  let rs := (List.range n).map (fun k => f c (first + k))
  let c1 := rs.zipIdx.foldl (fun c r => c.setVelem a.dty a.vd (first + r.2) r.1.val) c
  c1.vecFlags (rs.any (fun r => r.nan)) (rs.any (fun r => r.wrap))

/-- All groups in order. -/
def CoreState.vecLoop (k : Nat) (c : CoreState) (a : VecArgs) (f : CoreState → Nat → VRes) (group first : Nat) : CoreState :=
  match k with
  | 0 => c
  | k + 1 => vecLoop k (c.vecStep a f first (min group (vecCount a - first))) a f group (first + group)

/-- The common frame of a vector operation: issue order, the effect `run`, GROUPS, and the operation in flight. -/
def State.vecRun (s : State) (core code : Nat) (w : WordCtx) (a : VecArgs) (run : CoreState → CoreState) : Out :=
  onLive core s (fun p c =>
    let op := QOp.vec code a
    let c1 := if vecCount a = 0 then c else (run c).wrap F.corVecStat_groups (vecGroups (s.get F.plnGeom0_vecLanes) code a)
    s.startOp p core w op (!c.vregBusy w op) (s.setCore p (c1.begin .vec w op [])))

/-- An element-wise operation: `f` gives the result of an element from the operands' elements. -/
def State.vecMap (s : State) (core code : Nat) (w : WordCtx) (a : VecArgs) (f : CoreState → Nat → VRes) : Out :=
  s.vecRun core code w a (fun c =>
    let lanes := s.get F.plnGeom0_vecLanes
    c.vecLoop (vecGroups lanes code a) a f (vecGroup lanes code a) 0)

/-- Elements of operands a, b and c. -/
def CoreState.va (c : CoreState) (a : VecArgs) (n : Nat) : Nat := c.velem a.ty a.va n
def CoreState.vb (c : CoreState) (a : VecArgs) (n : Nat) : Nat := c.velem a.ty a.vb n
def CoreState.vc (c : CoreState) (a : VecArgs) (n : Nat) : Nat := c.velem a.ty a.vc n

/-! ## The operations of Table 5-2 -/

def execVAdd (core : Nat) (w : WordCtx) (a : VecArgs) (s : State) : Out :=
  s.vecMap core 0x01 w a (fun c n => vArith a.ty Fp.addB (· + ·) (c.va a n) (c.vb a n))

def execVSub (core : Nat) (w : WordCtx) (a : VecArgs) (s : State) : Out :=
  s.vecMap core 0x02 w a (fun c n => vArith a.ty Fp.subB (· - ·) (c.va a n) (c.vb a n))

def execVMul (core : Nat) (w : WordCtx) (a : VecArgs) (s : State) : Out :=
  s.vecMap core 0x03 w a (fun c n => vArith a.ty Fp.mulB (· * ·) (c.va a n) (c.vb a n))

/-- FMA, with one rounding. -/
def execVFma (core : Nat) (w : WordCtx) (a : VecArgs) (s : State) : Out :=
  s.vecMap core 0x04 w a (fun c n => vFp a.ty (Fp.fmaB (vecFmt a.ty) (c.va a n) (c.vb a n) (c.vc a n)))

def execVMin (core : Nat) (w : WordCtx) (a : VecArgs) (s : State) : Out :=
  s.vecMap core 0x05 w a (fun c n => vArith a.ty Fp.minB min (c.va a n) (c.vb a n))

def execVMax (core : Nat) (w : WordCtx) (a : VecArgs) (s : State) : Out :=
  s.vecMap core 0x06 w a (fun c n => vArith a.ty Fp.maxB max (c.va a n) (c.vb a n))

/-- ABS: the sign bit of an FP element is cleared (R443); an integer wraps at its least value. -/
def execVAbs (core : Nat) (w : WordCtx) (a : VecArgs) (s : State) : Out :=
  s.vecMap core 0x07 w a (fun c n =>
    if vecFp a.ty then vFp a.ty (c.va a n % 2 ^ (vecWidth a.ty - 1)) else vInt a.ty (vSigned a.ty (c.va a n)).natAbs)

/-- NEG: the sign bit of an FP element is inverted; an integer wraps at its least value. -/
def execVNeg (core : Nat) (w : WordCtx) (a : VecArgs) (s : State) : Out :=
  s.vecMap core 0x08 w a (fun c n =>
    if vecFp a.ty then vFp a.ty ((c.va a n + 2 ^ (vecWidth a.ty - 1)) % 2 ^ vecWidth a.ty) else vInt a.ty (-(vSigned a.ty (c.va a n))))

def execVCmpEq (core : Nat) (w : WordCtx) (a : VecArgs) (s : State) : Out :=
  s.vecMap core 0x09 w a (fun c n => vCompare a.ty Fp.eqB (fun x y => decide (x = y)) (c.va a n) (c.vb a n))

def execVCmpLt (core : Nat) (w : WordCtx) (a : VecArgs) (s : State) : Out :=
  s.vecMap core 0x0A w a (fun c n => vCompare a.ty Fp.ltB (fun x y => decide (x < y)) (c.va a n) (c.vb a n))

def execVCmpLe (core : Nat) (w : WordCtx) (a : VecArgs) (s : State) : Out :=
  s.vecMap core 0x0B w a (fun c n => vCompare a.ty Fp.leB (fun x y => decide (x ≤ y)) (c.va a n) (c.vb a n))

/-- SEL: a where c is not 0, else b; an FP zero of either sign is 0. -/
def execVSel (core : Nat) (w : WordCtx) (a : VecArgs) (s : State) : Out :=
  s.vecMap core 0x0C w a (fun c n =>
    let k := c.vc a n
    let on := if vecFp a.ty then k % 2 ^ (vecWidth a.ty - 1) != 0 else k != 0
    let x := if on then c.va a n else c.vb a n
    if vecFp a.ty then vFp a.ty x else ⟨x, false, false⟩)

/-- IOTA: the element's index in the destination type. -/
def execVIota (core : Nat) (w : WordCtx) (a : VecArgs) (s : State) : Out :=
  s.vecMap core 0x0D w a (fun _ n => if vecFp a.ty then vFp a.ty (Fp.ofIntB (vecFmt a.ty) n) else vInt a.ty n)

/-- BCAST: one scalar register, rounded or wrapped to the type. -/
def execVBcast (core : Nat) (w : WordCtx) (a : VecArgs) (s : State) : Out :=
  s.vecMap core 0x0E w a (fun _ _ =>
    if a.ty = 0 then vFp 0 a.scal.toNat
    else if a.ty = 2 then vFp 2 (Fp.toBf16 a.scal.toNat)
    else vInt a.ty a.scal.toInt)

/-- CVT, to the destination type. -/
def execVCvt (core : Nat) (w : WordCtx) (a : VecArgs) (s : State) : Out :=
  s.vecMap core 0x0F w a (fun c n => vConvert a.ty a.dty (c.va a n))

def execVExp2 (core : Nat) (w : WordCtx) (a : VecArgs) (s : State) : Out :=
  s.vecMap core 0x10 w a (fun c n => vUnary a.ty Fp.exp2 (c.va a n))

def execVLog2 (core : Nat) (w : WordCtx) (a : VecArgs) (s : State) : Out :=
  s.vecMap core 0x11 w a (fun c n => vUnary a.ty Fp.log2 (c.va a n))

/-- 1 / x. -/
def recip (x : Fp.Fl) : Fp.Fl × Bool := Fp.div (.fin false 1 0) x

def execVRcp (core : Nat) (w : WordCtx) (a : VecArgs) (s : State) : Out :=
  s.vecMap core 0x12 w a (fun c n => vUnary a.ty recip (c.va a n))

def execVRsqrt (core : Nat) (w : WordCtx) (a : VecArgs) (s : State) : Out :=
  s.vecMap core 0x13 w a (fun c n => vUnary a.ty Fp.rsqrt (c.va a n))

def execVSqrt (core : Nat) (w : WordCtx) (a : VecArgs) (s : State) : Out :=
  s.vecMap core 0x14 w a (fun c n => vUnary a.ty Fp.sqrt (c.va a n))

/-! ## Reductions (R143) -/

/-- An element as the reduction takes it: binary32 bits of an FP element, 32-bit two's complement of an integer. -/
def redElem (ty b : Nat) : Nat :=
  if ty = 0 then b else if ty = 2 then Fp.ofBf16 b else unsigned 32 (vSigned ty b)

/-- Fold the elements n < count with n mod 64 = l, in increasing n. -/
def partialOf (elems : List Nat) (f : Nat → Nat → Nat) (z l : Nat) : Nat :=
  (elems.zipIdx.filter (fun e => e.2 % 64 == l)).foldl (fun acc e => f acc e.1) z

/-- The lane tree: for w = 32, 16, 8, 4, 2, 1 partial l combines with partial l + w. The first argument is w. -/
def laneTree (ws : List Nat) (f : Nat → Nat → Nat) (ps : List Nat) : Nat :=
  match ws with
  | [] => ps.headD 0
  | w :: rest => laneTree rest f (List.zipWith f (ps.take w) (ps.drop w))

/-- A reduction by partials and tree. -/
def reduce (f : Nat → Nat → Nat) (z : Nat) (elems : List Nat) : Nat :=
  laneTree [32, 16, 8, 4, 2, 1] f ((List.range 64).map (partialOf elems f z))

/-- 32-bit addition, with a wrap remembered in bit 32. DEDUCED, log entry 131: each addition of a sum is an integer result, so INT_WRAP
sets when one of them wraps though the final sum does not (R142). -/
def addWrap (a b : Nat) : Nat :=
  let v := signed 32 a + signed 32 b
  unsigned 32 v + 2 ^ 32 * (if 2 ^ 32 ≤ a ∨ 2 ^ 32 ≤ b ∨ wraps 32 v then 1 else 0)

/-- 32-bit signed maximum. -/
def maxInt (a b : Nat) : Nat := if signed 32 a < signed 32 b then b else a

/-- The elements of a reduction. -/
def CoreState.redElems (c : CoreState) (a : VecArgs) : List Nat :=
  (List.range (vecCount a)).map (fun n => redElem a.ty (c.va a n))

/-- A reduction's result reaches its scalar register. -/
def CoreState.redWrite (c : CoreState) (a : VecArgs) (v : Nat) (nan wrap : Bool) : CoreState :=
  (c.setX a.vd (BitVec.ofNat 32 v)).vecFlags nan wrap

/-- RSUM. -/
def execVRsum (core : Nat) (w : WordCtx) (a : VecArgs) (s : State) : Out :=
  s.vecRun core 0x15 w a (fun c =>
    let l := c.redElems a
    if vecFp a.ty then
      let r := reduce (Fp.addB Fp.f32) 0 l
      c.redWrite a r (Fp.isNan Fp.f32 r) false
    else
      let r := reduce addWrap 0 l
      c.redWrite a r false (decide (2 ^ 32 ≤ r)))

/-- RMAX. -/
def execVRmax (core : Nat) (w : WordCtx) (a : VecArgs) (s : State) : Out :=
  s.vecRun core 0x16 w a (fun c =>
    let l := c.redElems a
    if vecFp a.ty then
      let r := reduce (Fp.maxB Fp.f32) 0xFF800000 l
      c.redWrite a r (Fp.isNan Fp.f32 r) false
    else c.redWrite a (reduce maxInt 0x80000000 l) false false)

/-- One element ranks above another for RARGMAX: a NaN above every number, zeros of either sign equal. -/
def ranksAbove (ty x y : Nat) : Bool :=
  if vecFp ty then
    if Fp.isNan Fp.f32 y then false
    else if Fp.isNan Fp.f32 x then true
    else Fp.ltB Fp.f32 y x
  else decide (signed 32 y < signed 32 x)

/-- The lowest index of a greatest element. -/
def argMax (ty : Nat) (l : List Nat) : Nat :=
  (l.zipIdx.foldl (fun (acc : Option (Nat × Nat)) e => match acc with
    | none => some e
    | some b => if ranksAbove ty e.1 b.1 then some e else some b) none).elim 0 (fun e => e.2)

/-- RARGMAX. -/
def execVRargmax (core : Nat) (w : WordCtx) (a : VecArgs) (s : State) : Out :=
  s.vecRun core 0x17 w a (fun c => c.redWrite a (argMax a.ty (c.redElems a)) false false)

end Sys2Proof.Machine
end

