-- ==== Sys2Proof/Machine/Reads.lean ====
section
/-! DEFINITION. The reads and writes a unit makes for an operation: tag checks, claims and posts, poison and stalls, and what happens
to the operation when a check does not pass (R79 to R83, R101, R207, R218, Table 2-5). -/

namespace Sys2Proof.Machine

/-- The port an operation reads the basin through (Table 2-3). DESIGN CHOICE, log entry 132: DLOAD reads through the vector port. -/
def opReads (op : QOp) : Port :=
  match op with
  | .pass _ => .weight
  | .drain _ => .estRead
  | .param _ => .estRead
  | .tstore _ => .dmaRead
  | .send _ => .dmaRead
  | .eng _ => .sclRead
  | _ => .vecRead

/-- What an operation's reads are: chunks, or the two words of an ENG command (R185). -/
def opReader (op : QOp) : Reader := match op with
  | .eng _ => .word
  | _ => readerOf (opReads op)

/-- The number under which an operation of a word waits at its tag stage: unit 9 in its low four bits (R207, R439), above them what
tells the operations of one word apart. -/
def waitUnit (op : QOp) : Nat :=
  9 + 16 * (match op with
    | .vec _ _ => 0 | .pass _ => 1 | .drain _ => 2 | .param _ => 3 | .vload _ => 4 | .tload _ => 5 | .dload _ => 6
    | .vstore _ => 7 | .tstore _ => 8 | .send _ => 9 | .eng _ => 10)

/-- An operation waits at its tag stage for a slot (R207). -/
def CoreState.waitSlot (c : CoreState) (w : WordCtx) (op : QOp) (x : Cove × Nat) : CoreState :=
  (c.unwait (waitUnit op) w).wait ⟨waitUnit op, w, slotAddr x, (c.tag x.1 x.2).shown⟩

/-- A cycle in which a drain waits on a residual read counts (R445). -/
def CoreState.residualWait (c : CoreState) (op : QOp) : CoreState :=
  match op with
  | .drain _ => c.once 5 (fun c => c.bump F.corEstStat_waits)
  | _ => c

/-- The operation has issued its first access and cannot go on (R218, R446): it waits, or is abandoned in a core whose operations
end. -/
def CoreState.hold (c : CoreState) (u : UnitQ) (w : WordCtx) (op : QOp) (on : Option (Cove × Nat)) : CoreState :=
  match on with
  | none => ((c.start u w op).residualWait op).unwait (waitUnit op) w
  | some x => if c.ending then c.abandon u w op else ((c.start u w op).residualWait op).waitSlot w op x

/-- An operation meets poison (R55, Table 2-5): it ends, and its word faults with POISON_READ. -/
def CoreState.readPoison (c : CoreState) (now unit a : Nat) (u : UnitQ) (w : WordCtx) (op : QOp) : CoreState :=
  (c.abandon u w op).faultWord now clsPoison unit w (some a)

/-- The frame of an operation that reads before it does anything else: what its reads hold, end or let through. -/
def State.readingOp (s : State) (p unit : Nat) (w : WordCtx) (op : QOp) (chunks : List Nat) (run : State → List Nat → State) : State :=
  match s.portRead p (opReads op) w.expect chunks (opReader op) with
  | (.held on, s1) => s1.modCore p (fun c => c.hold (unitOf op) w op on)
  | (.poison a, s1) => s1.modCore p (fun c => c.readPoison s.now unit a (unitOf op) w op)
  | (.done marked, s1) => run (s1.modCore p (fun c => c.unwait (waitUnit op) w)) marked

/-! ## Writes (R79, R81, R101) -/

/-- The producer an operation is (Table 16-5). -/
def opProducer (w : WordCtx) (op : QOp) : Producer :=
  let kind := match op with
    | .drain _ => 1
    | .vstore _ => 2
    | .tload _ => 3
    | .eng _ => 4
    | .send _ => 5
    | _ => 0
  ⟨kind, w.tag.toNat % 4096, w.count⟩

/-- The port an operation writes the basin through (Table 2-3). -/
def opPort (op : QOp) : Port :=
  match op with
  | .drain _ => .estWrite
  | .tload _ => .dmaWrite
  | _ => .vecWrite

/-- Whether each of a producer's pieces is its last write to a slot it touches: no later piece goes there (R81). -/
def CoreState.lastWrites (c : CoreState) (bad : List Nat) (l : List Piece) : List WritePart :=
  match l with
  | [] => []
  | x :: rest =>
    let more := (c.slotsOf [x.addr]).any (fun y => rest.any (fun z => y.1.has z.addr && y.1.slotOf z.addr == y.2))
    ⟨x, decide (chunkOf x.addr ∈ bad), !more⟩ :: c.lastWrites bad rest

/-- The writer an operation is: a DMA posts only when all its requests have completed (R301). -/
def CoreState.opWriter (c : CoreState) (geo : Nat × Nat) (w : WordCtx) (op : QOp) : Writer where
  port := opPort op
  pr := opProducer w op
  count := some w.count
  named := (c.namedSlots geo w op).map (fun y => (y.1.n, y.2))
  stamp := w.stamp

/-- The accesses an operation writes its pieces with. -/
def CoreState.opAccesses (c : CoreState) (op : QOp) (bad : List Nat) (l : List Piece) : List (List WritePart) :=
  let port := opPort op
  cutWrites (portWidth port) [] ((c.lastWrites bad l).map (fun x => { x with last := x.last && port != .dmaWrite }))

/-- The slots of a list that still wait for the operation's post: all but those FLOOD with its stamp under its claim, and
those of an accumulate window, where writes neither claim nor post (R86). -/
def CoreState.unposted (c : CoreState) (pr : Producer) (st : BitVec 16) (l : List (Nat × Nat)) : List (Nat × Nat) :=
  l.filter (fun y =>
    let t := c.tag (c.cove y.1) y.2
    !(t.state == 2 && t.stamp == st && t.claimant == some pr) && !c.windowSlot (c.cove y.1, y.2))

/-- Run the writes of the executing operation number `n`: it waits, is abandoned (R218), faults in a window (R101), or has
made them all. -/
def State.runExec (s : State) (p core n : Nat) : State :=
  match (s.core p).exec[n]? with
  | none => s
  | some x =>
    if x.pend.isEmpty then s
    else
      let k := (s.core p).opWriter s.geo x.w x.op
      match s.portWrites p core k ((s.core p).opAccesses x.op x.bad x.pend) with
      | (.window a, _, s1) => s1.modCore p (fun c =>
          ({ c with exec := c.exec.eraseIdx n } : CoreState).faultWord s.now clsBounds 9 x.w (some a))
      | (.held on, left, s1) => s1.modCore p (fun c =>
          let pend := left.flatten.map (fun y => y.piece)
          let c1 : CoreState := { c with exec := c.exec.set n { x with pend, posts := c.unposted k.pr x.w.stamp x.posts } }
          match on with
          | some y => if c.ending then { c with exec := c.exec.eraseIdx n } else c1.waitSlot x.w x.op y
          | none => c1.unwait (waitUnit x.op) x.w)
      | (.done, _, s1) => s1.modCore p (fun c =>
          { (c.unwait (waitUnit x.op) x.w) with exec := c.exec.set n { x with pend := [], posts := c.unposted k.pr x.w.stamp x.posts } })

/-- An operation begins with the writes it has to make and the slots it names, and makes them as far as they pass. -/
def State.beginWrites (s : State) (p core : Nat) (w : WordCtx) (op : QOp) (l : List Piece) : State :=
  let c := (s.core p).dequeue (unitOf op) w op
  let posts := (c.namedSlots s.geo w op).map (fun y => (y.1.n, y.2))
  (s.setCore p { c with exec := c.exec ++ [⟨w, op, l, [], posts⟩] }).runExec p core c.exec.length

end Sys2Proof.Machine
end

