-- ==== Sys2Proof/Machine/Array.lean ====
section
/-! DEFINITION. The matrix array (04_matrix_array.md; R181, R221 to R225): the walk of a PASS, tile delivery through the inlets,
swaps, residue checks, sums and commits. -/

namespace Sys2Proof.Machine

/-! ## The walk of a PASS (R181, R222) -/

/-- Tiles per iteration: the run-time count clamped to the declared one (R211, R213). -/
def passTiles (a : PassArgs) : Nat :=
  match a.run with
  | some n => min n (a.tiles + 1)
  | none => a.tiles + 1

/-- Reduction slice and output tile of tile `t`. -/
def tileSlice (a : PassArgs) (t : Nat) : Nat := t / (a.nout + 1)
def tileOut (a : PassArgs) (t : Nat) : Nat := t % (a.nout + 1)

/-- First entry a tile commits. -/
def tileEntry (a : PassArgs) (b t : Nat) : Nat := a.entry + (b * (a.nout + 1) + tileOut a t) * (a.vecs + 1)

/-- The tile overwrites its entries. -/
def tileOverwrites (a : PassArgs) (t : Nat) : Bool := a.ovr && tileSlice a t == 0

/-- The tile loads its activation slices: not from a kept latch, and with one or two vectors once for a slice (R122, R181). -/
def tileLoads (a : PassArgs) (b t : Nat) : Bool :=
  !(a.lkeep && b == 0 && tileSlice a t == 0) && (decide (1 < a.vecs) || tileOut a t == 0)

/-- RED_EDGE, where it applies to the tile; 0 where it does not. -/
def redEdge (a : PassArgs) (t : Nat) : Nat :=
  match a.pred with
  | some p => if tileSlice a t + 1 = passSlices a (passTiles a) then predRed p else 0
  | none => 0

/-- OUT_EDGE, where it applies to the tile. -/
def outEdge (a : PassArgs) (t : Nat) : Nat :=
  match a.pred with
  | some p => if tileOut a t = min a.nout (passTiles a - 1) then predOut p else 0
  | none => 0

/-- The position is at or above a non-zero edge. -/
def pastEdge (edge k : Nat) : Bool := edge != 0 && decide (edge ≤ k)

/-- ROW_OFF and COL_OFF of a PASS. -/
def rowOff (a : PassArgs) (i : Nat) : Bool := match a.pred with | some p => predRowOff p i | none => false
def colOff (a : PassArgs) (j : Nat) : Bool := match a.pred with | some p => predColOff p j | none => false

/-- A reduction position is padded for every output (R222): by RED_EDGE, or by the line of cells it enters along. -/
def redPadded (a : PassArgs) (t k : Nat) : Bool :=
  pastEdge (redEdge a t) k || (if a.cross then colOff a k else !a.sparse && rowOff a k)

/-- An output position is padded (R222). -/
def outPadded (a : PassArgs) (t n : Nat) : Bool :=
  pastEdge (outEdge a t) n || (if a.cross then rowOff a n else colOff a n)

/-- A tile row is padded as a whole (R222, R225). -/
def rowPadded (a : PassArgs) (t i : Nat) : Bool :=
  rowOff a i || (if a.cross then pastEdge (outEdge a t) i else pastEdge (redEdge a t) (if a.sparse then 4 * (i / 2) else i))

/-! ## What the inlets read (R114 to R117, R122, R178, R225) -/

/-- Parts of a tile's weights: 1 KiB each (R114). What a decoder takes in is one part (R161). -/
def partCount (a : PassArgs) : Nat := if a.wdec then 1 else tileBytes a.wfmt / 1024

/-- Tile rows that a part holds elements of. -/
def partRows (geo : Nat × Nat) (a : PassArgs) (p : Nat) : List Nat :=
  if a.wdec then List.range geo.1
  else
    let w := Mx.width a.wfmt
    let lo := p * 8192 / w / max geo.2 1
    List.range' lo (((p + 1) * 8192 / w - 1) / max geo.2 1 + 1 - lo)

/-- The parts of a tile that are read: not those whose elements all lie in padded rows (R225). -/
def neededParts (geo : Nat × Nat) (a : PassArgs) (t : Nat) : List Nat :=
  (List.range (partCount a)).filter (fun p => !(partRows geo a p).all (rowPadded a t))

/-- The stream chunks that share `k` of `n` of an encoded operand lies in. DESIGN CHOICE, log entry 133: a decoder takes in equal
shares of the operand's declared extent. -/
def encodedChunks (o : Operand) (b k n : Nat) : List Nat :=
  let x := extentChunks o
  (List.range' (x * k / n) (x * (k + 1) / n - x * k / n)).map (chunkAddr o b)

/-- Chunks of a part of a tile. -/
def partChunks (a : PassArgs) (b t p : Nat) : List Nat :=
  if a.wdec then encodedChunks a.wop b t (a.tiles + 1)
  else (List.range 16).map (fun k => chunkAddr a.wop b (t * (tileBytes a.wfmt / 64) + p * 16 + k))

/-- Bytes of block scales of a tile (R115). -/
def tileScales (a : PassArgs) : Nat := if Mx.isMx a.wfmt then (if a.sparse then 512 else 256) else 0

/-- Addresses of a tile's side bytes. -/
def tileSideAddrs (a : PassArgs) (b t : Nat) : List Nat :=
  (List.range' (t * passSide a) (passSide a)).map (sideAddr a.wop b)

/-- The tile's side byte `k` belongs to a row that is not padded (R115, R225). -/
def sideNeeded (geo : Nat × Nat) (a : PassArgs) (t k : Nat) : Bool :=
  let cols := max geo.2 1
  let rows := if a.sparse then 16 else 32
  if k < tileScales a then !(List.range' (k / cols * rows) rows).all (rowPadded a t)
  else !rowPadded a t ((k - tileScales a) * 4 / cols)

/-- A tile of the PASS from tile `t` on still needs the side block (R225). -/
def blockNeeded (geo : Nat × Nat) (a : PassArgs) (t blk : Nat) : Bool :=
  let n := passSide a
  (List.range' t (min (passTiles a) ((blk + 1) * 4096 / max n 1 + 1) - t)).any (fun u =>
    (List.range n).any (fun k => (u * n + k) / 4096 == blk && sideNeeded geo a u k))

/-- Side blocks of the stream that a tile's side bytes lie in and that are read (R117, R225). -/
def tileBlocks (geo : Nat × Nat) (a : PassArgs) (t : Nat) : List Nat :=
  let n := passSide a
  if a.wkeep then []
  else (((List.range n).map (fun k => (t * n + k) / 4096)).eraseDups).filter (blockNeeded geo a t)

/-- The held block has the side byte at an address: of whatever operation it was read for (R117). -/
def SideBlock.has (x : SideBlock) (addr : Nat) : Bool := decide (chunkOf addr ∈ x.chunks)

/-- The tile has side bytes in the held block. -/
def usesBlock (a : PassArgs) (b t : Nat) (x : SideBlock) : Bool := !a.wkeep && (tileSideAddrs a b t).any x.has

/-- Read a side block: the part of its run that lies in the basin. -/
def CoreState.sideBlock (c : CoreState) (a : PassArgs) (b blk : Nat) : SideBlock :=
  let chunks := (List.range 64).map (fun k => chunkOf (sideAddr a.wop b (blk * 4096 + k * 64)))
  ⟨chunks, chunks.flatMap (fun x => if x < basinBytes then c.peek x 64 else List.replicate 64 0),
    chunks.filter (fun x => decide (x < basinBytes))⟩

/-- Side blocks a tile misses in the side buffer: those with a side byte of it that no held block has. -/
def CoreState.missingBlocks (c : CoreState) (geo : Nat × Nat) (a : PassArgs) (b t : Nat) : List SideBlock :=
  let n := passSide a
  ((tileBlocks geo a t).filter (fun blk => (List.range n).any (fun k =>
    (t * n + k) / 4096 == blk && !c.side.any (fun x => x.has (sideAddr a.wop b (t * n + k)))))).map (c.sideBlock a b)

/-- Reduction length of a tile of the PASS. -/
def passK (geo : Nat × Nat) (a : PassArgs) : Nat := (passShape geo a.cross a.sparse).1

/-- Slices of the vectors of all the tiles of an iteration. -/
def passVectors (a : PassArgs) : Nat := passSlices a (a.tiles + 1) * (a.vecs + 1)

/-- Chunks a tile's activation slices are read from: the 256-byte reads and scale runs that are not padded away (R225), or what a
decoder takes in for them (R161). -/
def actChunks (geo : Nat × Nat) (a : PassArgs) (b t : Nat) : List Nat :=
  if a.adec then encodedChunks a.aop b (tileSlice a t) (passSlices a (a.tiles + 1))
  else
    let size := sliceBytes geo a
    let k := max 1 (passK geo a)
    let w := Mx.width a.afmt
    let n := (a.vecs + 1) * size
    let from_ := tileSlice a t * n
    let reads := (List.range (ceilDiv n 256)).filter (fun r =>
      let lo := r * 2048 / w
      !(List.range' lo (min ((r + 1) * 2048) (n * 8) / w - lo)).all (fun e => redPadded a t (e % k)))
    let elems := reads.flatMap (fun r => streamChunks (fun x => chunkAddr a.aop b (x / 64)) (from_ + r * 256) (min 256 (n - r * 256)))
    let m := sliceScales geo a
    let scaleFrom := tileSlice a t * (a.vecs + 1) * m
    let scales := (List.range ((a.vecs + 1) * m)).filter (fun q =>
      !(List.range' (q % max m 1 * 32) 32).all (redPadded a t))
    (elems ++ scales.map (fun q => chunkOf (scaleAddr a.aop b (scaleFrom + q)))).eraseDups

/-- What a decoder makes of encoded chunks: `n` bytes of its native format (R161). -/
def CoreState.decoderUse (c : CoreState) (img : List (Nat × Byte)) (act : Bool) (fmt n : Nat) (chunks : List Nat) : Config.StrandUse :=
  c.strandUse img (.decoder act fmt n (chunks.flatMap (fun x => c.peek x 64)))
def decoded (use : Config.StrandUse) (n : Nat) : List Byte := padTo n (((Config.strandOut use).take n).map (BitVec.ofNat 8))

/-- What the activation decoder takes in for a tile. -/
def CoreState.actUse (c : CoreState) (img : List (Nat × Byte)) (geo : Nat × Nat) (a : PassArgs) (b t : Nat) : Config.StrandUse :=
  c.decoderUse img true a.afmt ((a.vecs + 1) * (sliceBytes geo a + sliceScales geo a)) (actChunks geo a b t)

/-- The latch contents a tile's slices make, one for each pair of vectors. A decoder delivers the elements of all slices, then
their scales. -/
def CoreState.readActs (c : CoreState) (img : List (Nat × Byte)) (geo : Nat × Nat) (a : PassArgs) (b t : Nat) : List Latch :=
  let size := sliceBytes geo a
  let m := sliceScales geo a
  let pins := actChunks geo a b t
  let enc := decoded (c.actUse img geo a b t) ((a.vecs + 1) * (size + m))
  (List.range (a.vecs / 2 + 1)).map (fun g =>
    let n := tileSlice a t * (a.vecs + 1) + 2 * g
    let vs := min 2 (a.vecs + 1 - 2 * g)
    if a.adec then ⟨(enc.drop (2 * g * size)).take (vs * size), (enc.drop ((a.vecs + 1) * size + 2 * g * m)).take (vs * m), pins⟩
    else ⟨operandBytes c a.aop b (n * size) (vs * size), c.peek (scaleAddr a.aop b (n * m)) (vs * m), pins⟩)

/-- Elements of a little-endian bit stream, those that are not zero, by number (R114). -/
def codes (w n : Nat) (bs : List Byte) : List (Nat × Nat) :=
  let v := bytesNat bs
  ((List.range n).map (fun k => (k, v / 2 ^ (k * w) % 2 ^ w))).filter (fun x => x.2 != 0)

/-- The bytes that are not zero, by number. -/
def byteCodes (bs : List Byte) : List (Nat × Nat) := codes 8 bs.length bs

/-- Side bytes of a tile out of the side buffer. -/
def CoreState.sideBytes (c : CoreState) (a : PassArgs) (b t : Nat) : List Byte :=
  (tileSideAddrs a b t).map (fun addr =>
    match c.side.find? (fun x => x.has addr) with
    | some x => x.bytes.getD (x.chunks.idxOf (chunkOf addr) * 64 + addr % 64) 0
    | none => 0)

/-- Elements that part `p` of a tile of `w`-bit elements brings; an element two parts share takes a part of its bits from each. -/
def partCodes (w p : Nat) (bs : List Byte) : List (Nat × Nat) :=
  let v := bytesNat bs * 2 ^ (p * 8192)
  let lo := p * 8192 / w
  ((List.range' lo ((p + 1) * 8192 / w + 1 - lo)).map (fun k => (k, v / 2 ^ (k * w) % 2 ^ w))).filter (fun x => x.2 != 0 && decide (x.1 < 8192))

/-- Block scales of a tile, as each row segment holds them (R110, R115, R121): segment r of a dense tile lies in block ⌊r / 2⌋, of a
sparse tile in block r. -/
def sideScales (geo : Nat × Nat) (a : PassArgs) (side : List Byte) : List (Nat × Nat) :=
  ((List.range (geo.1 / 16 * geo.2)).map (fun k =>
    (k, (side.getD ((if a.sparse then k / geo.2 else k / geo.2 / 2) * geo.2 + k % geo.2) 0#8).toNat))).filter (fun x => x.2 != 0)

/-- A load with no data yet. -/
def WSet.load (a : PassArgs) : WSet := ⟨[], [], [], Mx.isMx a.wfmt, a.sparse⟩

/-- A load takes its side bytes: block scales, then position indices (R115). -/
def WSet.withSide (m : WSet) (geo : Nat × Nat) (a : PassArgs) (side : List Byte) : WSet :=
  { m with
    scales := if m.scaled then sideScales geo a side else []
    idx := if m.indexed then codes 2 8192 (side.drop (tileScales a)) else [] }

/-- A load takes the elements of a part. -/
def WSet.withPart (m : WSet) (w p : Nat) (bs : List Byte) : WSet :=
  { m with bits := (partCodes w p bs).foldl (fun l x => Sparse.set 0 l x.1 (Sparse.get 0 l x.1 + x.2)) m.bits }

/-! ## Segments (R107, R118 to R120, R129) -/

/-- Row and column segments. -/
def segments (geo : Nat × Nat) : Nat × Nat := (geo.1 / 16, geo.2 / 16)

/-- The entries of a map with keys that satisfy `on` come from the first map, the others from the second. -/
def takeWhere (on : Nat → Bool) (new old : List (Nat × Nat)) : List (Nat × Nat) :=
  (new.filter (fun x => on x.1)).foldl (fun l x => Sparse.set 0 l x.1 x.2) (old.filter (fun x => !on x.1))

/-- The cells of segment (r, c) take the bits, scales and indices of another set. -/
def WSet.copySeg (geo : Nat × Nat) (r c : Nat) (new old : WSet) : WSet :=
  let cols := max geo.2 1
  let mine (k : Nat) : Bool := k / cols / 16 == r && k % cols / 16 == c
  let mineScale (k : Nat) : Bool := k / cols == r && k % cols / 16 == c
  { old with
    bits := takeWhere mine new.bits old.bits
    scales := takeWhere mineScale new.scales old.scales
    idx := takeWhere mine new.idx old.idx }

/-- The cells of segment (r, c) swap in what the tile's load carried (R118): its rows that were read, its scales and its indices.
DEDUCED, log entry 134: what a load does not carry stays as the active registers hold it (R121). -/
def WSet.swapIn (geo : Nat × Nat) (r c : Nat) (scaled indexed : Bool) (rows : Nat → Bool) (new old : WSet) : WSet :=
  let cols := max geo.2 1
  let mine (k : Nat) : Bool := k / cols / 16 == r && k % cols / 16 == c && rows (k / cols)
  let mineScale (k : Nat) : Bool := k / cols == r && k % cols / 16 == c && (List.range' (16 * r) 16).any rows
  { old with
    bits := takeWhere mine new.bits old.bits
    scales := if scaled then takeWhere mineScale new.scales old.scales else old.scales
    idx := if indexed then takeWhere mine new.idx old.idx else old.idx }

/-- A row of the tile was read. -/
def rowRead (geo : Nat × Nat) (a : PassArgs) (t i : Nat) : Bool := (neededParts geo a t).any (fun p => decide (i ∈ partRows geo a p))

/-- The inlets have delivered what row segment `r` of the tile takes (R120, R129). -/
def Tile.segReady (geo : Nat × Nat) (t : Tile) (r : Nat) : Bool :=
  t.sided && t.latched && t.parts.all (fun p => (partRows geo t.a p).all (fun i => i / 16 != r))

/-- The segment's number. -/
def segNo (geo : Nat × Nat) (r c : Nat) : Nat := r * (segments geo).2 + c

/-- The shadow registers of a segment take the first tile it has not swapped in, once its part has arrived (R118, R119). -/
def CoreState.fillSegment (geo : Nat × Nat) (c : CoreState) (r k : Nat) : CoreState :=
  match c.tiles.find? (fun t => !decide (segNo geo r k ∈ t.swapped)) with
  | some t => if t.segReady geo r && !t.a.wkeep then { c with shadow := WSet.copySeg geo r k t.loaded c.shadow } else c
  | none => c

/-- The shadow registers of all segments, and the shadow bank of the latch, after a delivery. -/
def CoreState.fillShadow (geo : Nat × Nat) (c : CoreState) : CoreState :=
  let c1 := (List.range ((segments geo).1 * (segments geo).2)).foldl (fun c x =>
    c.fillSegment geo (x / (segments geo).2) (x % (segments geo).2)) c
  match c1.tiles.find? (fun t => !decide (0 ∈ t.swapped)) with
  | some t => if t.latched && tileLoads t.a t.b t.t then { c1 with latch := c1.latch.take 1 ++ t.acts.drop (t.acts.length - 1) } else c1
  | none => c1

/-! ## Tile issue (R116, R117, R129) -/

/-- Put blocks into the side buffer: each missing block replaces a held block the tile does not use (R117). DESIGN CHOICE, log entry
135: of two such blocks the one that was read longer ago goes. -/
def CoreState.holdBlocks (c : CoreState) (a : PassArgs) (b t : Nat) (new : List SideBlock) : CoreState :=
  let used := c.side.filter (usesBlock a b t)
  let other := c.side.filter (fun x => !usesBlock a b t x)
  if new.isEmpty then c else { c with side := ((new ++ used) ++ other).take 2 }

/-- A tile as it issues: what it keeps needs no read (R121, R122). -/
def Tile.issued (geo : Nat × Nat) (w : WordCtx) (a : PassArgs) (b t heldUntil : Nat) : Tile where
  w := w
  a := a
  b := b
  t := t
  loaded := WSet.load a
  parts := if a.wkeep then [] else neededParts geo a t
  sided := a.wkeep
  latched := !tileLoads a b t
  acts := []
  weights := WSet.empty
  before := WSet.empty
  latchWas := none
  swapped := []
  checks := []
  fails := 0
  pins := []
  heldUntil := heldUntil

/-- A tile squashed: its data is read again from the addresses it used; its slots stay pinned (R132, R133). -/
def Tile.squash (geo : Nat × Nat) (t : Tile) : Tile :=
  { Tile.issued geo t.w t.a t.b t.t t.heldUntil with fails := t.fails, pins := t.pins }

/-- The tiles of an operation from number `n` on leave the array: the operation is abandoned (R218). -/
def CoreState.dropPass (c : CoreState) (n : Nat) (w : WordCtx) : CoreState :=
  { c with
    tiles := c.tiles.take n ++ (c.tiles.drop n).filter (fun t => t.w != w)
    pass := match c.pass with
      | some r => if r.w = w then none else c.pass
      | none => none }

/-- Everything from tile `n` on leaves the array, queued passes too (R135). -/
def CoreState.dropBehind (c : CoreState) (n : Nat) : CoreState := { c with tiles := c.tiles.take n, pass := none, arrQ := [] }

/-- A cycle in which a row segment waits for an inlet counts once (R135). -/
def CoreState.rowStall (c : CoreState) : CoreState := c.once 1 (fun c => c.bump F.corArrStat_rowStalls)

/-- A cycle in which a column segment waits on its commit queue or on a drain counts once (R135). -/
def CoreState.colStall (c : CoreState) : CoreState := c.once 2 (fun c => c.bump F.corArrStat_colStalls)

/-- Replace tile number `n`. -/
def CoreState.setTile (c : CoreState) (n : Nat) (t : Tile) : CoreState := { c with tiles := c.tiles.set n t }

/-- One read of an inlet for tile number `n`, where the tile still wants it: it delivers, is held, or meets poison. A read of no
chunks delivers at once. -/
def State.inletRead (s : State) (p n : Nat) (port : Port) (want : Tile → Bool) (chunks : CoreState → Tile → List Nat)
    (take : Tile → CoreState → CoreState) : State :=
  let c := s.core p
  match c.tiles[n]? with
  | none => s
  | some t =>
    let l := chunks c t
    if !want t || decide (s.now < t.heldUntil) then s
    else if l.isEmpty then s.setCore p (CoreState.fillShadow s.geo (take t c))
    else
      match s.portRead p port t.w.expect l with
      | (.done _, s1) => s1.modCore p (fun c => CoreState.fillShadow s.geo (take t c))
      | (.held on, s1) => s1.modCore p (fun c =>
          match on with
          | some x => if c.ending then c.rowStall.dropPass n t.w else c.rowStall.waitSlot t.w (.pass t.a) x
          | none => c.rowStall)
      | (.poison a, s1) => s1.modCore p (fun c => (c.dropPass n t.w).faultWord s.now clsPoison 3 t.w (some a))

/-- The side blocks a tile misses are read before its first part (R117); then its scales and indices are at hand. -/
def State.readSide (s : State) (p n : Nat) : State :=
  s.inletRead p n .weight (fun t => !t.sided) (fun c t => (c.missingBlocks s.geo t.a t.b t.t).flatMap (fun x => x.pins)) (fun t c =>
    let c1 := c.holdBlocks t.a t.b t.t (c.missingBlocks s.geo t.a t.b t.t)
    let pins := (c1.side.filter (usesBlock t.a t.b t.t)).flatMap (fun x => x.pins)
    c1.setTile n { t with
      sided := true
      loaded := if t.a.wdec then t.loaded else t.loaded.withSide s.geo t.a (c1.sideBytes t.a t.b t.t)
      pins := (t.pins ++ pins).eraseDups })

/-- What the weight decoder takes in for a tile (R161). -/
def CoreState.weightUse (c : CoreState) (img : List (Nat × Byte)) (t : Tile) : Config.StrandUse :=
  c.decoderUse img false t.a.wfmt (tileBytes t.a.wfmt + tileSide t.a.wfmt t.a.sparse) (partChunks t.a t.b t.t 0)

/-- An inlet decoder misses or adds an output: its word faults (R164). It runs, and may write the strand RAM (R163). -/
def State.decoderRan (s : State) (p n ext : Nat) (t : Tile) (use : Config.StrandUse) : State :=
  let s1 := s.strandRan p use
  if Config.strandBreaks use then s1.modCore p (fun c => ((c.dropPass n t.w).strandBreach ext).faultWord s.now clsDecode 3 t.w) else s1

/-- Part `k` of a tile's weights (R114, R116), as it lies in the basin or as the decoder delivers it. -/
def State.readPart (s : State) (p n k : Nat) : State :=
  let img := s.strandImage p
  let before := s.core p
  let s1 := s.inletRead p n .weight (fun t => t.sided && decide (k ∈ t.parts)) (fun _ t => partChunks t.a t.b t.t k) (fun t c =>
    let chunks := partChunks t.a t.b t.t k
    let w := Mx.width t.a.wfmt
    let e := tileBytes t.a.wfmt
    let enc := decoded (c.weightUse img t) (e + tileSide t.a.wfmt t.a.sparse)
    let loaded := if t.a.wdec then
        ({ t.loaded with bits := codes w 8192 (enc.take e) }).withSide s.geo t.a (enc.drop e)
      else t.loaded.withPart w k (chunks.flatMap (fun x => c.peek x 64))
    c.setTile n { t with loaded, parts := t.parts.erase k, pins := (t.pins ++ chunks).eraseDups })
  match before.tiles[n]?, (s1.core p).tiles[n]? with
  | some t, some t1 => if t.a.wdec && decide (k ∈ t.parts) && !decide (k ∈ t1.parts) && t1.w == t.w
      then s1.decoderRan p n 4 t (before.weightUse img t) else s1
  | _, _ => s1

/-- The tile's activation slices fill the latch (R122). DEDUCED, log entry 136: a load replaces its bank whole, so beyond the bytes of a
shorter load, and where a load has no scales, a later pass that keeps the latch reads 0. -/
def State.readSlices (s : State) (p n : Nat) : State :=
  let img := s.strandImage p
  let before := s.core p
  let s1 := s.inletRead p n .act (fun t => !t.latched) (fun _ t => actChunks s.geo t.a t.b t.t) (fun t c =>
    c.setTile n { t with
      latched := true
      acts := c.readActs img s.geo t.a t.b t.t
      pins := (t.pins ++ actChunks s.geo t.a t.b t.t).eraseDups })
  match before.tiles[n]?, (s1.core p).tiles[n]? with
  | some t, some t1 => if t.a.adec && !t.latched && t1.latched && t1.w == t.w
      then s1.decoderRan p n 5 t (before.actUse img s.geo t.a t.b t.t) else s1
  | _, _ => s1

/-- Ask for all that tile number `n` in flight still misses. -/
def State.tryDeliver (s : State) (p n : Nat) : State :=
  ((List.range 16).foldl (fun s k => s.readPart p n k) (s.readSide p n)).readSlices p n

/-- The next tile of the walk. -/
def nextTile (r : PassRun) : Option PassRun :=
  if r.t + 1 < passTiles r.a then some { r with t := r.t + 1 }
  else if r.b + 1 < r.a.batch + 1 then some { r with b := r.b + 1, t := 0 }
  else none

/-- A tile's side bytes reach past the basin or out of the carve-out (R117). -/
def sideBeyond (carve : Nat × Nat) (a : PassArgs) (b t : Nat) : Option Nat :=
  if a.wkeep then none
  else (tileSideAddrs a b t).find? (fun x => decide (basinBytes ≤ x) || decide (x / 64 < carve.1) || decide (carve.2 ≤ x / 64))

/-- The inlets are no further ahead than R129 allows: at most four tiles behind one whose data is missing. -/
def CoreState.inletFree (c : CoreState) : Bool :=
  decide ((c.tiles.dropWhile (fun t => t.arrived)).length ≤ 4)

/-- The perturbation points of the two inlets hold a tile's reads (R441). -/
def State.inletHold (s : State) (p core : Nat) (a : PassArgs) (b t : Nat) : State × Nat :=
  let c := s.core p
  let re := s.replaying (core / 16)
  let x := if a.wkeep then (s, 0)
    else s.perturb (4 * core) (c.sel F.prtInlet_wDelay) (c.sel F.prtInlet_wJit) (c.sel F.prtInlet_wDuty) re
  let y := if tileLoads a b t then
      x.1.perturb (4 * core + 1) (c.sel F.prtInlet_aDelay) (c.sel F.prtInlet_aJit) (c.sel F.prtInlet_aDuty) re
    else (x.1, 0)
  (y.1, max x.2 y.2)

/-- TILE_ISSUE: data that was missing is asked for again, and the running PASS issues its next tile. -/
def execTileIssue (core : Nat) (s : State) : Out :=
  onLive core s (fun p c =>
    let s0 := s.setCore p (c.tiles.foldl (fun c t => c.unwait (waitUnit (.pass t.a)) t.w) c)
    let s1 := (List.range c.tiles.length).foldl (fun s n => s.tryDeliver p n) s0
    let c1 := s1.core p
    match c1.pass with
    | none => s1
    | some r =>
      if !c1.inletFree then s1.setCore p c1.rowStall
      else
        match sideBeyond (s.carve (core / 16)) r.a r.b r.t with
        | some x => s1.setCore p ({ c1 with pass := none }.faultWord s.now clsBounds 3 r.w (some x))
        | none =>
          let x := s1.inletHold p core r.a r.b r.t
          let t := Tile.issued s.geo r.w r.a r.b r.t (s.now + x.2)
          (x.1.modCore p (fun c => { c with tiles := c.tiles ++ [t], pass := (nextTile r).map (fun r => { r with begun := true }) })).tryDeliver
            p c1.tiles.length)

/-- PASS: its walk begins; one of no tiles only occupies the array (R181, R212). -/
def execPass (core : Nat) (w : WordCtx) (a : PassArgs) (s : State) : Out :=
  onLive core s (fun p c =>
    let op := QOp.pass a
    let c1 := c.begin .arr w op []
    s.startOp p core w op c.pass.isNone (s.setCore p (if passTiles a = 0 then c1 else { c1 with pass := some ⟨w, a, 0, 0, false⟩ })))

/-! ## Swaps (R118 to R123) -/

/-- Tiles that one segment has swapped in and another has not: what their link holds (R129). -/
def CoreState.linkHolds (c : CoreState) (seg next : Nat) : Nat :=
  (c.tiles.filter (fun t => decide (seg ∈ t.swapped) && !decide (next ∈ t.swapped))).length

/-- Entries of a link buffer and of a commit queue (R129). -/
def linkPlaces : Nat := 4
def commitPlaces : Nat := 4

/-- Partial sums that wait in the commit queue of a group of lanes (R127). -/
def CoreState.queuedAt (c : CoreState) (seg : Nat) : Nat := (c.commitQ.filter (fun x => x.seg == seg)).length

/-- The tile has reached segment (r, c) from its neighbours above and to the left (R118, R123, R129). -/
def Tile.reached (geo : Nat × Nat) (t : Tile) (r c : Nat) : Bool :=
  (r == 0 || decide (segNo geo (r - 1) c ∈ t.swapped)) && (c == 0 || decide (segNo geo r (c - 1) ∈ t.swapped))

/-- The links from segment (r, c) to the next segments have room (R129). -/
def CoreState.linksFree (geo : Nat × Nat) (k : CoreState) (r c : Nat) : Bool :=
  (decide ((segments geo).1 ≤ r + 1) || decide (k.linkHolds (segNo geo r c) (segNo geo (r + 1) c) < linkPlaces)) &&
  (decide ((segments geo).2 ≤ c + 1) || decide (k.linkHolds (segNo geo r c) (segNo geo r (c + 1)) < linkPlaces))

/-- The tile's sums leave the array at segment (r, c), and the commit queue of its lanes is full (R129): of a column segment in
normal flow, of a row segment in cross-flow. -/
def CoreState.commitFull (geo : Nat × Nat) (k : CoreState) (t : Tile) (r c : Nat) : Bool :=
  if t.a.cross then c + 1 == (segments geo).2 && decide (commitPlaces ≤ k.queuedAt r)
  else r + 1 == (segments geo).1 && decide (commitPlaces ≤ k.queuedAt c)

/-- Segment (r, c) swaps tile number `n` in: its shadow registers become active, and the next tile's part lands in them (R118,
R119); with a kept tile they stay. Segment (0, 0) takes the latch bank along (R122). -/
def CoreState.swapSegment (geo : Nat × Nat) (k : CoreState) (r c n : Nat) (t : Tile) : CoreState :=
  let active := if t.a.wkeep then k.active
    else WSet.swapIn geo r c t.loaded.scaled t.loaded.indexed (rowRead geo t.a t.t) k.shadow k.active
  let bank := k.latch.headD Latch.empty
  let loads := tileLoads t.a t.b t.t
  let first := segNo geo r c == 0
  let acts := if loads || !first then t.acts else [bank]
  let t1 : Tile := { t with
    swapped := insertNat t.swapped (segNo geo r c)
    weights := WSet.copySeg geo r c active t.weights
    before := WSet.copySeg geo r c k.active t.before
    acts := acts
    latchWas := if first then some bank else t.latchWas
    pins := if loads || !first then t.pins else (t.pins ++ bank.pins).eraseDups }
  CoreState.fillSegment geo { k with
    tiles := k.tiles.set n t1
    active := active
    latch := if first && loads then t.acts.drop (t.acts.length - 1) ++ k.latch.drop 1 else k.latch } r c

/-- SEGMENT_SWAP: the segment swaps in the first tile it has not swapped, once the tile has reached it and its own part is there
(R118 to R120); else, or while a link or a commit queue behind it is full, it waits (R129). -/
def execSegmentSwap (core r c : Nat) (s : State) : Out :=
  onLive core s (fun p k =>
    let geo := s.geo
    if r < (segments geo).1 ∧ c < (segments geo).2 then
      match k.tiles.zipIdx.find? (fun x => !decide (segNo geo r c ∈ x.1.swapped)) with
      | none => s
      | some (t, n) =>
        if !t.reached geo r c then s
        else if !t.segReady geo r then s.setCore p k.rowStall
        else if CoreState.commitFull geo k t r c then s.setCore p k.colStall
        else if !CoreState.linksFree geo k r c then s
        else s.setCore p (CoreState.swapSegment geo k r c n t)
    else s)

/-! ## Residue checks (R132 to R135) -/

/-- Every segment of column segment `seg` has swapped the tile in. -/
def columnSwapped (geo : Nat × Nat) (t : Tile) (seg : Nat) : Bool :=
  (List.range (segments geo).1).all (fun r => decide (r * (segments geo).2 + seg ∈ t.swapped))

/-- Every segment has swapped the tile in. -/
def swappedIn (geo : Nat × Nat) (t : Tile) : Bool := (List.range (segments geo).2).all (columnSwapped geo t)

/-- The active registers and the latch as they stood before tile number `n` was swapped in. -/
def CoreState.unswap (geo : Nat × Nat) (c : CoreState) (t : Tile) : CoreState :=
  { c with
    active := t.swapped.foldl (fun m x => WSet.copySeg geo (x / max (segments geo).2 1) (x % max (segments geo).2 1) t.before m) c.active
    latch := match t.latchWas with
      | some b => b :: c.latch.drop 1
      | none => c.latch }

/-- A first mismatch squashes tile `n` and every tile behind it, and the side blocks it used are read again with it (R132); a second
one of the same tile declares the core faulty (R135). -/
def CoreState.mismatch (geo : Nat × Nat) (c : CoreState) (now : Nat) (stepAt : Option Nat) (n : Nat) (t : Tile) (col : Nat) : CoreState :=
  let c1 := (c.put F.corResidue_lastCol col).put F.corResidue_lastTag t.w.tag.toNat
  if t.fails = 0 then
    let c2 := CoreState.unswap geo (c1.bump F.corResidue_retries) t
    { c2 with
      tiles := c2.tiles.take n ++ (({ t with fails := 1 } : Tile).squash geo :: (c2.tiles.drop (n + 1)).map (Tile.squash geo))
      side := c2.side.filter (fun x => !usesBlock t.a t.b t.t x) }
  else
    (((c1.dropBehind n).put F.corResidue_declared 1).hwFault now stepAt
      { cls := clsResidue, unit := 3, tag := t.w.tag, off := t.w.off / 4 })

/-- Start of the step of an armed bay that a core belongs to. -/
def State.coreStep (s : State) (core : Nat) : Option Nat := (s.armedBay core).map s.stepStartAt

/-- RESIDUE_CHECK of a column segment: of the first tile it has not checked and that has passed through it. -/
def execResidueCheck (core seg : Nat) (mismatch : Option Nat) (s : State) : Out :=
  onLive core s (fun p c =>
    match c.tiles.zipIdx.find? (fun x => !decide (seg ∈ x.1.checks)) with
    | none => s
    | some (t, n) =>
      if decide (seg < (segments s.geo).2) && columnSwapped s.geo t seg then
        match mismatch with
        | none => s.setCore p { c with tiles := c.tiles.set n { t with checks := insertNat t.checks seg } }
        | some col => s.setCore p (CoreState.mismatch s.geo c s.now (s.coreStep core) n t (col % 128))
      else s)

/-! ## Sums (R110 to R113, R124, R131, R223) -/

/-- What a sum reads: geometry, tile and vector. -/
structure SumCtx where
  geo : Nat × Nat
  t : Tile
  v : Nat
  deriving DecidableEq, Repr

/-- Weight code of stored row `i` and column `j`, in the pass's own format (R121). DESIGN CHOICE, log entry 134: an element of a kept
tile is read from the low bits of its register, and a load fills the bits above its own elements with 0. -/
def weightCode (x : SumCtx) (i j : Nat) : Nat :=
  Sparse.get 0 x.t.weights.bits (i * x.geo.2 + j) % 2 ^ Mx.width x.t.a.wfmt

/-- The block scale that row segment `r` holds for column `j` (R121). -/
def segScale (x : SumCtx) (r j : Nat) : Nat := Sparse.get 0 x.t.weights.scales (r * x.geo.2 + j)

/-- Block scale of block `b` and column `j` in normal flow (R110). The two row segments of a dense block hold the same scale, unless
a tile of another shape is kept: then the block's scale is a free value. -/
def weightScale (x : SumCtx) (b j : Nat) : Nat :=
  if x.t.a.sparse then segScale x b j
  else
    let upper := segScale x (2 * b) j
    let lower := segScale x (2 * b + 1) j
    if upper = lower then upper else Config.mixedScale upper lower % 256

/-- Dense row of a stored element (R115). -/
def denseRow (x : SumCtx) (i j : Nat) : Nat :=
  if x.t.a.sparse then 4 * (i / 2) + Sparse.get 0 x.t.weights.idx (i * x.geo.2 + j) else i

/-- The latch pair a vector lies in. -/
def latchOf (x : SumCtx) : Latch := x.t.acts.getD (x.v / 2) Latch.empty

/-- Activation code at reduction position `k`. -/
def actCode (x : SumCtx) (k : Nat) : Nat :=
  Mx.element (Mx.width x.t.a.afmt) k ((latchOf x).bytes.drop (x.v % 2 * sliceBytes x.geo x.t.a))

/-- Activation block scale of block `q`. -/
def actScale (x : SumCtx) (q : Nat) : Nat :=
  ((latchOf x).scales.getD (x.v % 2 * sliceScales x.geo x.t.a + q) 0#8).toNat

/-- Stored rows that count for output column `j` in normal flow; columns that count for row `i` in cross-flow (R223). -/
def sumRows (x : SumCtx) (j : Nat) : List Nat :=
  (List.range x.geo.1).filter (fun i => !rowOff x.t.a i && !pastEdge (redEdge x.t.a x.t.t) (denseRow x i j))
def sumCols (x : SumCtx) : List Nat := (List.range x.geo.2).filter (fun j => !redPadded x.t.a x.t.t j)

/-- One product, exact. -/
def product (x : SumCtx) (i j k : Nat) : Fp.Fl :=
  Fp.mul (Mx.decode x.t.a.wfmt (weightCode x i j)) (Mx.decode x.t.a.afmt (actCode x k))

/-- Block value of normal flow (R110); a block with no position left is +0 (R223). -/
def normalBlock (x : SumCtx) (j b : Nat) : Nat :=
  let rows := (sumRows x j).filter (fun i => (if x.t.a.sparse then i / 16 else i / 32) == b)
  if rows.isEmpty then 0
  else Mx.blockValue (rows.map (fun i => product x i j (denseRow x i j))) (weightScale x b j) (actScale x b)

/-- Block value of cross-flow (R124): each product is scaled, the block is summed exactly and rounded once. -/
def crossBlock (x : SumCtx) (i q : Nat) : Nat :=
  let cols := (sumCols x).filter (fun j => j / 32 == q)
  if cols.isEmpty then 0
  else if actScale x q = 255 ∨ cols.any (fun j => segScale x (i / 16) j == 255) then Fp.f32.nanCode
  else Fp.pack Fp.f32 (Mx.exactSum (cols.map (fun j =>
    Mx.scale (product x i j j) ((segScale x (i / 16) j : Int) + actScale x q - 254))))

/-- Element pairs of an output in the order of reduction: stored row, column, reduction position. -/
def sumPairs (x : SumCtx) (n : Nat) : List (Nat × Nat × Nat) :=
  if x.t.a.cross then (sumCols x).map (fun j => (n, j, j)) else (sumRows x n).map (fun i => (i, n, denseRow x i n))

/-- Partial sum of output position `n` (R110 to R112, R124). -/
def partialSum (x : SumCtx) (n : Nat) : AccWord :=
  let f := x.t.a.wfmt
  if Mx.isInt f then
    ⟨BitVec.ofInt 32 ((sumPairs x n).foldl (fun acc e =>
      acc + Mx.intOf f (weightCode x e.1 e.2.1) * Mx.intOf x.t.a.afmt (actCode x e.2.2)) 0), true⟩
  else if f = 8 then
    ⟨BitVec.ofNat 32 (Mx.chain ((sumPairs x n).map (fun e => Fp.pack Fp.f32 (product x e.1 e.2.1 e.2.2)))), false⟩
  else
    ⟨BitVec.ofNat 32 (Mx.chain ((List.range (passK x.geo x.t.a / 32)).map
      (if x.t.a.cross then crossBlock x n else normalBlock x n))), false⟩

/-- The value PAD_FILL selects (R224). -/
def padFill (a : PassArgs) : AccWord :=
  let on := match a.pred with | some p => predFill p | none => false
  if Mx.isInt a.wfmt then ⟨if on then 0x80000000 else 0, true⟩ else ⟨if on then 0xFF800000 else 0, false⟩

/-! ## Commit (R125 to R128, R224) -/

/-- The words that vector `v` of a tile writes in its group `g` of 16 lanes: word, partial sum, and whether it replaces the word. -/
def groupSums (geo : Nat × Nat) (t : Tile) (v g : Nat) : List (Nat × AccWord × Bool) :=
  let lanes := lanesOf geo t.a.cross
  let isOver := tileOverwrites t.a t.t
  (List.range' (16 * g) 16).filterMap (fun n =>
    let word := (tileEntry t.a t.b t.t + v) * lanes + n
    if outPadded t.a t.t n then (if isOver then some (word, padFill t.a, true) else none)
    else some (word, partialSum ⟨geo, t, v⟩ n, isOver))

/-- What a tile writes into the store, pair by pair and group by group (R127). -/
def tileCommits (geo : Nat × Nat) (t : Tile) : List Commit :=
  (List.range (t.a.vecs / 2 + 1)).flatMap (fun k =>
    (List.range (lanesOf geo t.a.cross / 16)).map (fun g =>
      ⟨t.w, g, (List.range' (2 * k) (min 2 (t.a.vecs + 1 - 2 * k))).flatMap (fun v => groupSums geo t v g)⟩))

/-- Add or write one partial sum; an INT sum that leaves the range wraps (R111). -/
def CoreState.commitWord (c : CoreState) (x : Nat × AccWord × Bool) : CoreState :=
  let old := Sparse.get AccWord.zero c.acc x.1
  let p := x.2.1
  let exact := old.bits.toInt + p.bits.toInt
  let new : AccWord :=
    if x.2.2 then p
    else if p.int then ⟨BitVec.ofInt 32 exact, true⟩
    else ⟨BitVec.ofNat 32 (Fp.addB Fp.f32 old.bits.toNat p.bits.toNat), false⟩
  ({ c with acc := Sparse.set AccWord.zero c.acc x.1 new } : CoreState).arrFlags
    (!new.int && Fp.isNan Fp.f32 new.bits.toNat) (!x.2.2 && p.int && wraps 32 exact)

/-- All sums of a commit. -/
def CoreState.commitWords (c : CoreState) (l : List (Nat × AccWord × Bool)) : CoreState := l.foldl (fun c x => c.commitWord x) c

/-- Words of the store a drain reads. -/
def drainWords (geo : Nat × Nat) (a : DrainArgs) : Nat × Nat :=
  let lanes := lanesOf geo a.mode.cross
  (a.first * lanes, min (a.run.getD a.count) a.count * lanes)

/-- A drain issued before word `count` has still to read a group of 16 words that one of these sums writes (R128). -/
def CoreState.drainAhead (c : CoreState) (geo : Nat × Nat) (count : Nat) (sums : List (Nat × AccWord × Bool)) : Bool :=
  (c.started ++ c.estQ).any (fun q => match q.op with
    | .drain a => decide (q.w.count < count) && sums.any (fun x =>
        decide ((drainWords geo a).1 ≤ x.1) && decide (x.1 < (drainWords geo a).1 + (drainWords geo a).2) &&
        (match c.draining with
         | some d => !(d.w == q.w && decide (x.1 / 16 * 16 ∈ d.groups))
         | none => true))
    | _ => false)

/-- A commit waits: behind a drain that has still to read its lanes, or behind one that waits in the same queue or for the same
words (R127, R128). -/
def CoreState.commitHeld (c : CoreState) (geo : Nat × Nat) (ahead : List Commit) (x : Commit) : Bool :=
  ahead.any (fun y => y.seg == x.seg || y.sums.any (fun a => x.sums.any (fun b => a.1 == b.1))) || c.drainAhead geo x.w.count x.sums

/-- Commits go on, in order, as far as nothing holds them; those that are held wait in `commitQ`. -/
def CoreState.runCommits (geo : Nat × Nat) (l : List Commit) (c : CoreState) : CoreState :=
  match l with
  | [] => c
  | x :: rest =>
    if c.commitHeld geo c.commitQ x then CoreState.runCommits geo rest { c with commitQ := c.commitQ ++ [x] }
    else CoreState.runCommits geo rest (c.commitWords x.sums)

/-- Commits that wait are tried again. -/
def CoreState.retryCommits (geo : Nat × Nat) (c : CoreState) : CoreState := CoreState.runCommits geo c.commitQ { c with commitQ := [] }

/-- A commit queue that must take one of the tile's writes has no room for all of them (R129). -/
def CoreState.queueFull (geo : Nat × Nat) (c : CoreState) (l : List Commit) : Bool :=
  l.any (fun x => c.commitHeld geo c.commitQ x && decide (commitPlaces < c.queuedAt x.seg + (l.filter (fun y => y.seg == x.seg)).length))

/-- TILE_COMMIT: the oldest tile commits once every column segment has passed its check; each group of its lanes that a drain holds
queues (R127), and with a full queue it waits. -/
def execTileCommit (core : Nat) (s : State) : Out :=
  onLive core s (fun p k =>
    let c := CoreState.retryCommits s.geo k
    match c.tiles with
    | [] => s.setCore p c
    | t :: rest =>
      let sums := tileCommits s.geo t
      if !(swappedIn s.geo t && (List.range (segments s.geo).2).all (fun k => decide (k ∈ t.checks))) then s.setCore p c
      else if CoreState.queueFull s.geo c sums then s.setCore p c.colStall
      else s.setCore p (CoreState.runCommits s.geo sums (({ c with tiles := rest } : CoreState).wrap F.corArrTiles_tiles)))

end Sys2Proof.Machine
end

