-- ==== Sys2Proof/Machine/Estuary.lean ====
section
/-! DEFINITION. The estuary (R147 to R158, R160, R445): parameter sets, the stages of a drain, its outputs and its softmax record. -/

namespace Sys2Proof.Machine

/-! ## Parameter sets (Table 5-4, R150, R151) -/

/-- Bytes of a parameter block. -/
def paramBytes : Nat := 4160

/-- A binary32 parameter of a set, by its byte in the block. -/
def CoreState.paramAt (c : CoreState) (set byte : Nat) : Nat := bytesNat (Bytes.read 0 c.params (set * paramBytes + byte) 4)

/-- Write bytes of a set. -/
def CoreState.setParam (c : CoreState) (set byte : Nat) (bs : List Byte) : CoreState :=
  { c with params := Bytes.write 0 c.params (set * paramBytes + byte) bs }

/-- A drain in flight uses the set, or records into it (R151). -/
def CoreState.drainHolds (c : CoreState) (set : Nat) : Bool :=
  c.exec.any (fun x => match x.op with
    | .drain a => a.set == set || (a.mode.recMode != 0 && a.mode.recSet == set)
    | _ => false) || c.records.any (fun r => r.1 == set)

/-- A load of the set is in flight, or a record into it is still to be written (R151). -/
def CoreState.setHeld (c : CoreState) (set : Nat) : Bool :=
  c.exec.any (fun x => match x.op with
    | .param a => a.set == set
    | _ => false) || c.records.any (fun r => r.1 == set)

/-- A cycle in which a drain or a load waits for its set counts (R151). -/
def CoreState.setWait (c : CoreState) : CoreState := c.once 5 (fun c => c.bump F.corEstStat_waits)

/-- PARAM: once the earlier drains of the set are done, the parts named are read and fill the set. -/
def execParam (core : Nat) (w : WordCtx) (a : ParamArgs) (s : State) : Out :=
  onLive core s (fun p c =>
    let op := QOp.param a
    s.startOp p core w op true
      (if c.drainHolds a.set then s.setCore p c.setWait
       else s.readingOp p 4 w op (paramChunks a) (fun s _ => s.modCore p (fun c =>
         let c1 := (paramChunks a).foldl (fun c x => c.setParam a.set (x - a.base * 64) (c.peek x 64)) c
         c1.begin .est w op []))))

/-! ## Stages (Table 5-3) -/

/-- What an element goes through: the drain, its number of entry and lane, and the residual element. -/
structure Elem where
  e : Nat
  j : Nat
  r : Nat
  deriving DecidableEq, Repr

/-- The scale stage. -/
def CoreState.stScale (c : CoreState) (a : DrainArgs) (j x : Nat) : Nat :=
  let y := Fp.mulB Fp.f32 (Fp.mulB Fp.f32 x (c.paramAt a.set (64 + 4 * j))) (c.paramAt a.set 0)
  if bit a.mode.recUse 0 then Fp.mulB Fp.f32 y (c.paramAt a.set 32) else y

/-- The bias stage. -/
def CoreState.stBias (c : CoreState) (a : DrainArgs) (j x : Nat) : Nat :=
  let y := Fp.addB Fp.f32 (Fp.addB Fp.f32 x (c.paramAt a.set (576 + 4 * j))) (c.paramAt a.set 4)
  if bit a.mode.recUse 1 then Fp.addB Fp.f32 y (c.paramAt a.set 28) else y

/-- The table index of the activation stage (R153). -/
def CoreState.actIndex (c : CoreState) (set x : Nat) : Nat :=
  let lo := c.paramAt set 16
  let q := Fp.mulB Fp.f32 (Fp.subB Fp.f32 x lo) (c.paramAt set 24)
  if Fp.isNan Fp.f32 q then (if Fp.ltB Fp.f32 lo x then 255 else 0)
  else (Fp.floorClamp 0 255 (Fp.unpack Fp.f32 q)).toNat

/-- The activation stage (R153). -/
def CoreState.stAct (c : CoreState) (a : DrainArgs) (x : Nat) : Nat :=
  if Fp.isNan Fp.f32 x then Fp.f32.nanCode
  else
    let i := c.actIndex a.set x
    let lo := c.paramAt a.set 16
    let step := c.paramAt a.set 20
    let b := Fp.addB Fp.f32 lo (Fp.mulB Fp.f32 (Fp.ofIntB Fp.f32 i) step)
    let t := Fp.minB Fp.f32 (Fp.maxB Fp.f32 (Fp.subB Fp.f32 x b) 0) step
    let at_ := 1088 + 12 * i
    Fp.addB Fp.f32 (c.paramAt a.set at_)
      (Fp.mulB Fp.f32 t (Fp.addB Fp.f32 (c.paramAt a.set (at_ + 4)) (Fp.mulB Fp.f32 t (c.paramAt a.set (at_ + 8)))))

/-- The residual stage. -/
def stResidual (a : DrainArgs) (r x : Nat) : Nat :=
  let y := if a.mode.resBf16 then Fp.ofBf16 r else r
  if a.mode.resMul then Fp.mulB Fp.f32 x y else Fp.addB Fp.f32 x y

/-- The clamp stage. -/
def CoreState.stClamp (c : CoreState) (a : DrainArgs) (x : Nat) : Nat :=
  if Fp.isNan Fp.f32 x then x else Fp.minB Fp.f32 (Fp.maxB Fp.f32 x (c.paramAt a.set 8)) (c.paramAt a.set 12)

/-- An accumulator word as the chain takes it (R148). -/
def accIn (x : AccWord) : Nat := if x.int then Fp.ofIntB Fp.f32 x.bits.toInt else x.bits.toNat

/-- An element through the hard stages the drain enables. -/
def CoreState.chain (c : CoreState) (a : DrainArgs) (e : Elem) (x : Nat) : Nat :=
  let on (k : Nat) (f : Nat → Nat) (x : Nat) : Nat := if bit a.mode.stages k then f x else x
  on 4 (c.stClamp a) (on 3 (stResidual a e.r) (on 2 (c.stAct a) (on 1 (c.stBias a e.j) (on 0 (c.stScale a e.j) x))))

/-! ## Strand stages (R160, R163, R164) -/

/-- The cycles in which a strand stage takes in a drain's elements: two groups of 64 each; the second group of the last cycle is not
valid where the elements end with the first. -/
def strandCycles (a : DrainArgs) (tag : BitVec 24) (lanes : Nat) (xs : List Nat) : List Config.StrandCycle :=
  let groups := chunksOf (xs.length / 64 + 1) 64 xs
  let cycles := chunksOf (groups.length / 2 + 1) 2 groups
  cycles.zipIdx.map (fun y =>
    { entry := a.first + y.2 * 128 / max lanes 1
      laneBase := y.2 * 128 % max lanes 1
      tag := tag
      user := a.mode.user
      first := y.2 == 0
      last := y.2 + 1 == cycles.length
      groups := (y.1.map (fun g => (true, g)) ++ [(false, [])]).take 2 })

/-- A stage's use of a drain's elements. -/
def CoreState.stageUse (c : CoreState) (img : List (Nat × Byte)) (a : DrainArgs) (tag : BitVec 24) (lanes k : Nat) (xs : List Nat) :
    Config.StrandUse := c.strandUse img (.stage k (strandCycles a tag lanes xs))

/-- The elements through the strand stages of a list, in order: the stage that breaks its contract, if one does, the elements, and
the uses made. -/
def CoreState.strandChain (c : CoreState) (img : List (Nat × Byte)) (a : DrainArgs) (tag : BitVec 24) (lanes : Nat) (stages : List Nat)
    (xs : List Nat) : Option Nat × List Nat × List Config.StrandUse :=
  match stages with
  | [] => (none, xs, [])
  | k :: rest =>
    let use := c.stageUse img a tag lanes k xs
    if Config.strandBreaks use then (some k, xs, [use])
    else
      let out := Config.strandOut use
      let r := c.strandChain img a tag lanes rest (xs.zipIdx.map (fun x => out.getD x.2 0 % 2 ^ 32))
      (r.1, r.2.1, use :: r.2.2)

/-- The strand stages a drain enables. -/
def strandStages (a : DrainArgs) : List Nat := (List.range 4).filter (fun k => bit a.mode.strand k)

/-! ## Outputs (R154, R155, R183) -/

/-- Entries a drain reads: the run-time count clamped to the declared one. -/
def drainCount (a : DrainArgs) : Nat := min (a.run.getD a.count) a.count

/-- Rounding of an element. -/
def CoreState.rounding (c : CoreState) (a : DrainArgs) (tag : BitVec 24) (lanes n : Nat) : Fp.Rounding :=
  if a.mode.stoch then
    .stochastic (Mx.hashBits (BitVec.ofNat 32 (c.get F.corEstSeed_seed)) tag.toNat (a.first + n / lanes) (n % lanes))
  else .nearest

/-- An output element: its code, its value in binary32 as the softmax stage takes it, and saturation. -/
structure Output where
  code : Nat
  val : Nat
  sat : Bool
  deriving DecidableEq, Repr

/-- One MX block: its elements from number `n` on, and its scale byte. -/
def CoreState.mxBlock (c : CoreState) (a : DrainArgs) (tag : BitVec 24) (lanes n : Nat) (xs : List Nat) : List Output × Nat :=
  let fmt := a.mode.outFmt
  let vs := xs.map (Fp.unpack Fp.f32)
  let e := Mx.blockExp fmt vs
  let sc := Mx.scaleByte fmt vs
  (vs.zipIdx.map (fun v =>
    let q := Mx.quantise fmt e (c.rounding a tag lanes (n + v.2)) v.1
    ⟨q.1, if sc = 255 then Fp.f32.nanCode else Fp.pack Fp.f32 (Mx.scale (Mx.decode fmt q.1) e), q.2⟩), sc)

/-- All output elements with the scale bytes of their blocks (none outside the MX formats). -/
def CoreState.outputs (c : CoreState) (a : DrainArgs) (tag : BitVec 24) (lanes : Nat) (xs : List Nat) : List Output × List Nat :=
  let fmt := a.mode.outFmt
  if fmt ≤ 5 then
    let bs := ((chunksOf (xs.length / 32 + 1) 32 xs).zipIdx).map (fun b => c.mxBlock a tag lanes (b.2 * 32) b.1)
    (bs.flatMap (fun b => b.1), bs.map (fun b => b.2))
  else if fmt = 8 then
    (xs.zipIdx.map (fun x =>
      let y := Fp.pack Fp.bf16 (Fp.unpack Fp.f32 x.1) false (c.rounding a tag lanes x.2)
      ⟨y, Fp.ofBf16 y, false⟩), [])
  else (xs.map (fun x => ⟨x, x, false⟩), [])

/-- Pack codes as a little-endian bit stream (R114). -/
def packCodes (w : Nat) (l : List Nat) : List Byte :=
  natBytes (ceilDiv (l.length * w) 8) (l.zipIdx.foldl (fun acc x => acc + x.1 % 2 ^ w * 2 ^ (x.2 * w)) 0)

/-- The writes of a drain in order: output chunks, and each word of eight scales after the outputs it belongs to (R157). -/
def drainPieces (a : DrainArgs) (outs : List Output) (scales : List Nat) : List Piece :=
  let w := Mx.width a.mode.outFmt
  let chunks := streamPieces a.oop 0 (packCodes w (outs.map (fun o => o.code)))
  let words := (chunksOf (scales.length / 8 + 1) 8 scales).zipIdx.map (fun x =>
    (Piece.mk (a.sAddr * 8 + x.2 * 8) (padTo 8 (x.1.map (fun b => BitVec.ofNat 8 b)))))
  if words.isEmpty then chunks
  else
    let per := w / 2
    (words.zipIdx.flatMap (fun x => (chunks.drop (x.2 * per)).take per ++ [x.1])) ++ chunks.drop (words.length * per)

/-! ## The softmax record (R156) -/

/-- The lane tree for the lanes of an entry. -/
def entrySum (lanes : Nat) (xs : List Nat) : Nat :=
  laneTree (if lanes = 128 then [64, 32, 16, 8, 4, 2, 1] else [32, 16, 8, 4, 2, 1]) (Fp.addB Fp.f32) xs

/-- The record a drain writes: byte of the parameter block and value. -/
def softmaxValue (mode lanes n : Nat) (vals : List Nat) : Nat × Nat :=
  if mode = 1 then
    let m := vals.foldl (Fp.maxB Fp.f32) 0xFF800000
    (28, Fp.pack Fp.f32 (Fp.unpack Fp.f32 m).negate)
  else
    let sums := (chunksOf n lanes vals).map (entrySum lanes)
    (32, Fp.divB Fp.f32 0x3F800000 (sums.foldl (Fp.addB Fp.f32) 0))

/-! ## The drain -/

/-- A PASS has a tile from tile `t0` of iteration `b0` on that writes one of the 16 words from `g` on. -/
def passMeets (geo : Nat × Nat) (a : PassArgs) (b0 t0 g : Nat) : Bool :=
  let lanes := lanesOf geo a.cross
  let n := passTiles a
  let m := a.nout + 1
  (List.range' b0 (a.batch + 1 - b0)).any (fun b => (List.range (min m n)).any (fun o =>
    (b != b0 || decide (t0 ≤ o + (n - 1 - o) / m * m)) &&
    decide (tileEntry a b o * lanes < g + 16) && decide (g < (tileEntry a b o + a.vecs + 1) * lanes)))

/-- Every tile issued before word `count` has written its part of the 16 words from `g` on (R128). -/
def CoreState.groupWritten (c : CoreState) (geo : Nat × Nat) (count g : Nat) : Bool :=
  c.tiles.all (fun t => !decide (t.w.count < count) ||
    decide (g + 16 ≤ tileEntry t.a t.b t.t * lanesOf geo t.a.cross) ||
    decide ((tileEntry t.a t.b t.t + t.a.vecs + 1) * lanesOf geo t.a.cross ≤ g)) &&
  (match c.pass with
   | some r => !(decide (r.w.count < count) && passMeets geo r.a r.b r.t g)
   | none => true) &&
  c.arrQ.all (fun q => match q.op with
    | .pass b => !(decide (q.w.count < count) && passMeets geo b 0 0 g)
    | _ => true) &&
  c.commitQ.all (fun x => !(decide (x.w.count < count) && x.sums.any (fun y => decide (g ≤ y.1) && decide (y.1 < g + 16))))

/-- The groups of 16 words a drain reads, four to a cycle, in order (R128, R147). -/
def drainCycles (geo : Nat × Nat) (a : DrainArgs) : List (List Nat) :=
  let lo := (drainWords geo a).1
  let n := (drainWords geo a).2
  (List.range (n / 64)).map (fun k => (List.range 4).map (fun g => lo + k * 64 + g * 16))

/-- A drain reads one group. -/
def DrainRun.readGroup (d : DrainRun) (c : CoreState) (g : Nat) : DrainRun :=
  { d with
    groups := d.groups ++ [g]
    words := d.words ++ (List.range' g 16).map (fun k => (k, Sparse.get AccWord.zero c.acc k)) }

/-- A drain reads on: each group as soon as the earlier tiles have written it, and the groups of a cycle after those of the cycle
before. -/
def DrainRun.readOn (d : DrainRun) (c : CoreState) (geo : Nat × Nat) (cycles : List (List Nat)) : DrainRun :=
  match cycles with
  | [] => d
  | l :: rest =>
    let d1 := l.foldl (fun d g => if decide (g ∈ d.groups) || !c.groupWritten geo d.w.count g then d else d.readGroup c g) d
    if l.all (fun g => decide (g ∈ d1.groups)) then d1.readOn c geo rest else d1

/-- The drain has read all its groups. -/
def DrainRun.finished (d : DrainRun) (geo : Nat × Nat) : Bool := (drainCycles geo d.a).all (fun l => l.all (fun g => decide (g ∈ d.groups)))

/-- Chunks of the residual operand a drain reads. -/
def residualChunks (a : DrainArgs) (n : Nat) : List Nat :=
  if bit a.mode.stages 3 then streamChunks (fun x => chunkAddr a.rop 0 (x / 64)) 0 (n * (if a.mode.resBf16 then 2 else 4)) else []

/-- Bytes of the residual operand a drain reads. -/
def CoreState.residualBytes (c : CoreState) (a : DrainArgs) (n : Nat) : List Byte :=
  if bit a.mode.stages 3 then operandBytes c a.rop 0 0 (n * (if a.mode.resBf16 then 2 else 4)) else []

/-- A residual element (R183). -/
def residualAt (a : DrainArgs) (bs : List Byte) (n : Nat) : Nat :=
  let w := if a.mode.resBf16 then 2 else 4
  bytesNat ((bs.drop (n * w)).take w)

/-- The elements of a drain after the hard stages. -/
def CoreState.drainElems (c : CoreState) (d : DrainRun) (lanes : Nat) : List Nat :=
  (List.range (drainCount d.a * lanes)).map (fun n =>
    let e : Elem := ⟨d.a.first + n / lanes, n % lanes, residualAt d.a (d.residual.getD []) n⟩
    c.chain d.a e (accIn (Sparse.get AccWord.zero d.words ((d.a.first + n / lanes) * lanes + n % lanes))))

/-- The drain has read its entries: it makes its outputs and its record of the elements that leave the strand stages. -/
def State.drainRun (s : State) (p core : Nat) (w : WordCtx) (a : DrainArgs) (xs : List Nat) : State :=
  let lanes := lanesOf s.geo a.mode.cross
  let c := s.core p
  let o := if a.mode.outFmt = 14 then ([], []) else c.outputs a w.tag lanes xs
  let vals := if a.mode.outFmt = 14 then xs else o.1.map (fun y => y.val)
  let nan := if a.mode.outFmt ≤ 5 then o.2.any (fun b => b == 255) else o.1.any (fun y => Fp.isNan Fp.f32 y.val)
  let rec_ := softmaxValue a.mode.recMode lanes (drainCount a) vals
  let c1 := c.estFlags nan (o.1.any (fun y => y.sat))
  let c2 : CoreState := if a.mode.recMode = 0 then c1
    else { c1 with records := c1.records ++ [(a.mode.recSet, rec_.1, natBytes 4 rec_.2)] }
  let pieces := if a.mode.outFmt = 14 then [] else drainPieces a o.1 o.2
  (s.setCore p { c2 with draining := none }).beginWrites p core w (.drain a) pieces

/-- A drain that has read all its groups: its elements pass the stages; a strand stage that breaks its contract faults the word
(R164). -/
def State.drainEnds (s : State) (p core : Nat) (d : DrainRun) : State :=
  let lanes := lanesOf s.geo d.a.mode.cross
  let c := s.core p
  let r := c.strandChain (s.strandImage p) d.a d.w.tag lanes (strandStages d.a) (c.drainElems d lanes)
  let s1 := r.2.2.foldl (fun s use => s.strandRan p use) s
  match r.1 with
  | some k => s1.modCore p (fun c => ((c.abandon .est d.w (.drain d.a)).strandBreach k).faultWord s.now clsDecode 4 d.w)
  | none => s1.drainRun p core d.w d.a r.2.1

/-- A drain that has its residual reads its groups as far as it can; the commits that waited for it go on (R127, R128). -/
def State.drainReads (s : State) (p core : Nat) (d : DrainRun) : State :=
  let c := s.core p
  let d1 := d.readOn c s.geo (drainCycles s.geo d.a)
  let c1 := if d1.groups.isEmpty then c else c.start .est d.w (.drain d.a)
  let c2 := CoreState.retryCommits s.geo { c1 with draining := some d1 }
  let s1 := s.setCore p c2
  if d1.finished s.geo then s1.drainEnds p core d1 else s1

/-- DRAIN: it waits for its set (R151), reads its residual operand (R445) and then its entries, group by group; then its elements go
through the chain. -/
def execDrain (core : Nat) (w : WordCtx) (a : DrainArgs) (s : State) : Out :=
  onLive core s (fun p c =>
    let op := QOp.drain a
    let n := drainCount a * lanesOf s.geo a.mode.cross
    s.startOp p core w op true
      (if drainCount a = 0 then s.beginWrites p core w op []
       else
         match c.draining.filter (fun d => d.w == w && d.a == a) with
         | some d => s.drainReads p core d
         | none =>
           if c.setHeld a.set then s.setCore p c.setWait
           else s.readingOp p 4 w op (residualChunks a n) (fun s _ =>
             s.drainReads p core ⟨w, a, some ((s.core p).residualBytes a n), [], []⟩)))

/-- SOFTMAX_RECORD: the oldest record still to be written reaches its set. -/
def execSoftmaxRecord (core : Nat) (s : State) : Out :=
  onLive core s (fun p c =>
    match c.records with
    | [] => s
    | (set, byte, bs) :: rest => s.setCore p ({ c with records := rest }.setParam set byte bs))

end Sys2Proof.Machine
end

