-- ==== Sys2Proof/Machine/LoadStore.lean ====
section
/-! DEFINITION. The load and store queues (R184 to R186, R212, R299): VLOAD, VSTORE, DLOAD, TLOAD, TSTORE and ENG, the requests a
DMA makes, and the completion of operations. -/

namespace Sys2Proof.Machine

/-! ## Vector registers and descriptors -/

/-- VLOAD: the stream fills the run of vector registers from VD on, in issue order with the vector engine (R146, R184). -/
def execVload (core : Nat) (w : WordCtx) (a : MoveArgs) (s : State) : Out :=
  onLive core s (fun p c =>
    let op := QOp.vload a
    s.startOp p core w op (!c.vregBusy w op) (s.readingOp p 5 w op (runStream a.opnd a.run) (fun s _ => s.modCore p (fun c =>
      let bs := operandBytes c (withRows a.opnd a.run) 0 0 (runChunks a.opnd a.run * 64)
      ({ c with vregs := Bytes.write 0 c.vregs (vregAt a.v) bs } : CoreState).begin .load w op []))))

/-- VSTORE: the run of vector registers from VA on goes to the stream (R146, R184). -/
def execVstore (core : Nat) (w : WordCtx) (a : MoveArgs) (s : State) : Out :=
  onLive core s (fun p c =>
    let op := QOp.vstore a
    s.startOp p core w op (!c.vregBusy w op)
      (s.beginWrites p core w op
        (streamPieces (withRows a.opnd a.run) 0 (Bytes.read 0 c.vregs (vregAt a.v) (runChunks a.opnd a.run * 64)))))

/-- DLOAD: entry FIRST + j takes the 16 bytes at BASE × 64 + 16j. -/
def execDload (core : Nat) (w : WordCtx) (a : DloadArgs) (s : State) : Out :=
  onLive core s (fun p _ =>
    let op := QOp.dload a
    s.startOp p core w op true (s.readingOp p 5 w op (sourceChunks s.geo op) (fun s _ =>
      s.modCore p (fun c =>
        let desc := (List.range (2 * (a.n + 1))).foldl (fun m k =>
          Sparse.set 0 m (2 * a.first + k) (BitVec.ofNat 64 (bytesNat (c.peek (a.base * 64 + 8 * k) 8)))) c.desc
        ({ c with desc := desc } : CoreState).begin .load w op []))))

/-! ## The grid (R236, R247, Table 10-1) -/

/-- Grid position of a logical core's pass. -/
def coreX (core : Nat) : Nat := 4 * (core / 16 % 10) + core % 16 % 4
def coreY (core : Nat) : Nat := 4 * (core / 16 / 10) + core % 16 / 4

/-- The logical core whose pass stands at a grid position. -/
def passAt (x y : Nat) : Nat := (y / 4 * 10 + x / 4) * 16 + (y % 4 * 4 + x % 4)

/-- Ticks the core link takes: 1, and 2 more to a reserve that has taken the position over (R243, R247). -/
def State.coreLink (s : State) (core : Nat) : Nat := if s.physAt (core / 16) (core % 16) = core % 16 then 1 else 3

/-- The pass a tier port attaches to. -/
def tierX (n : Nat) : Nat := if n < 8 then 0 else 39
def tierY (n : Nat) : Nat := 4 * (n % 8) + 2

/-- The tier port of an address (R299). -/
def tierPort (a : Nat) : Nat := a / 512 % 16

/-! ## DMA (R299) -/

/-- Group the chunks of a stream into requests: successive chunks of one 512-byte granule of tier address. -/
def requestRuns (taddr : Nat) (l : List Nat) : List (Nat × List Nat) :=
  (List.range ((taddr % 512 + l.length * 64 + 511) / 512)).filterMap (fun k =>
    let lo := max taddr (taddr / 512 * 512 + k * 512)
    let hi := min (taddr + l.length * 64) (taddr / 512 * 512 + (k + 1) * 512)
    if lo < hi then some (lo, (l.drop ((lo - taddr) / 64)).take ((hi - lo) / 64)) else none)

/-- The bay a core's DMA counts for; 80 stands for a core in no bay. -/
def State.dmaBay (s : State) (core : Nat) : Nat := (s.bayOf (core / 16)).getD 80

/-- The flits a request travels in, two chunks of a write in each, and those of what its port answers (R277, R299). -/
def reqFlits (q : TierReq) : Nat := if q.write then max 1 (ceilDiv q.bytes.length 128) else 1
def answerFlits (q : TierReq) : Nat := if q.write then 1 else max 1 (ceilDiv q.land.length 2)

/-- The consignment of a request on its way to its port (kind 4), or of the answer (kind 5): elastic (R263). -/
def tierCons (q : TierReq) (hall kind flits : Nat) : Consign where
  id := q.id
  kind := kind
  srcCore := q.core
  srcPos := hall
  dstPos := hall
  ctx := q.w.ctx
  w := q.w
  stream := 0
  elastic := true
  epoch := 0
  stepNo := 0
  cid := 0
  win := 0
  slot := 0
  port := none
  via := none
  lane := none
  lands := []
  flits := some flits
  dests := []
  firstAt := 0
  diverted := false
  divert := []
  tier := some (tierPort q.addr)

/-- The flits of a request or an answer, one a cycle from `start` on; the data stays with the request. -/
def tierFlits (id n x y inPort start : Nat) (dests : List Nat) : List Flit :=
  (List.range n).map (fun k => ⟨id, k, k + 1 == n, [], x, y, inPort, dests, start + k, false, false, false⟩)

/-- A request leaves its core for its port from `start` on. -/
def State.sendReq (s : State) (q : TierReq) (start : Nat) : State :=
  { s with
    reqs := s.reqs ++ [q]
    conss := s.conss ++ [tierCons q (s.get F.strHall_pos) 4 (reqFlits q)]
    flits := s.flits ++ tierFlits q.id (reqFlits q) (coreX q.core) (coreY q.core) 4 (start + s.coreLink q.core) [] }

/-- Requests leave one after the other, one flit a cycle, each with a number of its own. -/
def State.queueReqs (s : State) (start : Nat) (l : List (Nat → TierReq)) : State :=
  match l with
  | [] => s
  | f :: rest => (({ s with fresh := s.fresh + 1 } : State).sendReq (f s.fresh) start).queueReqs (start + reqFlits (f s.fresh)) rest

/-- Take requests away, with what travels of them and of their answers. -/
def State.dropReqs (s : State) (f : TierReq → Bool) : State :=
  let ids := (s.reqs.filter f).map (fun q => q.id)
  { s with
    reqs := s.reqs.filter (fun q => !f q)
    conss := s.conss.filter (fun q => !(q.tier.isSome && decide (q.id ∈ ids)))
    flits := s.flits.filter (fun g => !(decide (g.cons ∈ ids) && s.conss.any (fun q => q.id == g.cons && q.tier.isSome))) }

/-- The flits of a request's answer have all come back to its core. -/
def State.answered (s : State) (id : Nat) : Bool :=
  s.flits.all (fun f => f.cons != id || (f.atCore && decide (f.ready ≤ s.now)))

/-- The requests of a TLOAD: they land at the chunks of its operand. -/
def tloadReqs (p core bay : Nat) (w : WordCtx) (a : TierArgs) : List (Nat → TierReq) :=
  (requestRuns (a.taddr * 64) (runStream a.opnd a.run)).map (fun x id =>
    ⟨id, p, core, bay, false, x.1, [], [], x.2, w, none, 0⟩)

/-- TLOAD: its requests leave; their replies land under its tag waits (R184, R207). -/
def execTload (core : Nat) (w : WordCtx) (a : TierArgs) (s : State) : Out :=
  onLive core s (fun p _ =>
    let op := QOp.tload a
    s.startOp p core w op true
      ((s.beginWrites p core w op []).queueReqs s.now (tloadReqs p core (s.dmaBay core) w a)))

/-- TSTORE: the source is read, and its requests leave with the data and the poison marks of its chunks (R23, Table 2-5). -/
def execTstore (core : Nat) (w : WordCtx) (a : TierArgs) (s : State) : Out :=
  onLive core s (fun p _ =>
    let op := QOp.tstore a
    let src := runStream a.opnd a.run
    s.startOp p core w op true (s.readingOp p 6 w op src (fun s marked =>
      let c := s.core p
      let reqs := (requestRuns (a.taddr * 64) src).map (fun x id => TierReq.mk id p core (s.dmaBay core) true x.1
        (x.2.flatMap (fun y => c.peek y 64))
        ((x.2.zipIdx.filter (fun y => decide (chunkOf y.1 ∈ marked))).map (fun y => x.1 / 64 + y.2)) [] w none 0)
      (s.setCore p (c.begin .store w op [])).queueReqs (s.now + 8) reqs)))

/-! ## ENG (R59, R185) -/

/-- ENG: two checked reads of the command's words; what R58 and R214 refuse faults when it has been read, and any other enters the
ledge-engine queue. Its own stamp governs its posting. -/
def execEng (core : Nat) (w : WordCtx) (cmd : Nat) (s : State) : Out :=
  onLive core s (fun p c =>
    let op := QOp.eng cmd
    s.startOp p core w op (decide (c.ldgQ.length < 8)) (s.readingOp p 7 w op [cmd * 16, cmd * 16 + 8] (fun s _ => s.modCore p (fun c =>
      let lo := BitVec.ofNat 64 (bytesNat (c.peek (cmd * 16) 8))
      let hi := BitVec.ofNat 64 (bytesNat (c.peek (cmd * 16 + 8) 8))
      let c1 := c.dequeue .store w op
      match c.rejectsRead (s.carve (core / 16)) lo hi with
      | some cls => c1.rejectLdg s.now cls lo (some w)
      | none => { c1 with ldgQ := c1.ldgQ ++ [.cmd lo hi (some w) w.count c1.aheadNow] }))))

/-! ## Completion (R81, R212) -/

/-- The operation still has something under way outside its writes: tiles, requests, or flits that have not left its pass. -/
def State.stillBusy (s : State) (p core : Nat) (x : ExecItem) : Bool :=
  let c := s.core p
  match x.op with
  | .pass _ => c.tiles.any (fun t => t.w == x.w) || c.commitQ.any (fun t => t.w == x.w) ||
      (match c.pass with
       | some r => r.w == x.w
       | none => false)
  | .tload _ => s.reqs.any (fun q => q.place == p && q.w == x.w && !q.write)
  | .tstore _ => s.reqs.any (fun q => q.place == p && q.w == x.w && q.write) ||
      s.conss.any (fun q => q.tier.isSome && q.srcCore == core && q.w == x.w && !s.answered q.id)
  | .send _ => s.conss.any (fun q => q.srcCore == core && q.w == x.w && q.flits.isSome && q.via.isNone &&
      s.flits.any (fun f => f.cons == q.id && f.inPort == 4 && !f.atCore))
  | _ => false

/-- Post the slots an operation names that its writes did not: each free slot and each of its own, in order, until one that
is neither or is held, for which it waits (R81, R84); in an accumulate window it neither claims nor posts (R86). Tags are seen as the tick began (R78). -/
def CoreState.postRest (c : CoreState) (pr : Producer) (w : WordCtx) (l : List (Nat × Nat)) : CoreState × List (Nat × Nat) :=
  match l with
  | [] => (c, [])
  | y :: rest =>
    let v := c.cove y.1
    if c.windowSlot (v, y.2) then c.postRest pr w rest
    else if c.writePasses pr (v, y.2) then ((c.claim pr (v, y.2)).post w.stamp (v, y.2)).postRest pr w rest
    else (c, y :: rest)

/-- What the completion of an operation counts. -/
def CoreState.countDone (c : CoreState) (op : QOp) : CoreState :=
  match op with
  | .drain _ => c.wrap F.corEstStat_drains
  | _ => c

/-- What became of an attempt to complete an operation. -/
inductive Completion where
  | finished (s : State)
  | waiting (s : State)
  deriving DecidableEq, Repr

/-- Try to complete the executing operation number `n`: its writes are made, nothing of it is under way, and it posts the
slots left; in a core whose operations end, one that would wait for a slot is abandoned. -/
def State.completeOne (s : State) (p core n : Nat) : Completion :=
  match (s.core p).exec[n]? with
  | none => .waiting s
  | some x =>
    if !x.pend.isEmpty || s.stillBusy p core x then .waiting s
    else
      let c := s.core p
      let r := c.postRest (opProducer x.w x.op) x.w x.posts
      let gone : CoreState := { r.1 with exec := r.1.exec.eraseIdx n }
      match r.2 with
      | [] => .finished (s.setCore p ((gone.unwait (waitUnit x.op) x.w).countDone x.op))
      | y :: _ =>
        if c.ending then .finished (s.setCore p gone)
        else .waiting (s.setCore p
          (({ r.1 with exec := r.1.exec.set n { x with posts := r.2 } } : CoreState).waitSlot x.w x.op (r.1.cove y.1, y.2)))

/-- Try operations from number `n` on until one completes. -/
def State.completeFrom (s : State) (k p core n : Nat) : State :=
  match k with
  | 0 => s
  | k + 1 => match s.completeOne p core n with
    | .finished s1 => s1
    | .waiting s1 => s1.completeFrom k p core (n + 1)

/-- OPERATION_COMPLETE: executing operations go on with writes that waited, and the first one that has finished completes. -/
def execOperationComplete (core : Nat) (s : State) : Out :=
  onLive core s (fun p c =>
    let s1 := (List.range c.exec.length).foldl (fun s n => s.runExec p core n) s
    s1.completeFrom (s1.core p).exec.length p core 0)

end Sys2Proof.Machine
end

