-- ==== Sys2Proof/Machine/Tier.lean ====
section
/-! DEFINITION. Tier ports (R21 to R23, R299 to R301, R441): their queues, deficit round-robin, CXL acceptances, and the replies
and acknowledgements of requests. -/

namespace Sys2Proof.Machine

/-! ## Tier memory (R21, R23, R301) -/

/-- Bytes of the tiers as they stand. -/
def State.tierRead (s : State) (a n : Nat) : List Byte := Bytes.read 0 s.tier a n

/-- A write reaches a tier; the chunks it touches lose or take the poison marking. -/
def State.tierWrite (s : State) (a : Nat) (bs : List Byte) (marked : List Nat) : State :=
  let chunks := (List.range' (a / 64) ((a + bs.length + 63) / 64 - a / 64))
  { s with
    tier := Bytes.write 0 s.tier a bs
    tierPoison := chunks.foldl (fun l k => if k ∈ marked then insertNat l k
      else if a ≤ k * 64 ∧ k * 64 + 64 ≤ a + bs.length then eraseNat l k else l) s.tierPoison }

/-! ## Queues (R299, R300) -/

/-- The tier of an address. -/
def isFar (a : Nat) : Bool := decide (2 ^ 40 ≤ a)

/-- Bytes of a request. -/
def reqSize (q : TierReq) : Nat := if q.write then q.bytes.length else q.land.length * 64

/-- Places of a port's queue for one bay. -/
def tierPlaces : Nat := 32

/-- Every flit of a request has reached its port (R247). -/
def State.atTierPort (s : State) (id : Nat) : Bool := s.flits.all (fun f => f.cons != id || (f.out && decide (f.ready ≤ s.now)))

/-- Requests queued at a port for a tier, oldest first: those that have reached it. -/
def State.queuedAt (s : State) (port : Nat) (far : Bool) : List TierReq :=
  s.reqs.filter (fun q => q.issued.isNone && tierPort q.addr == port && isFar q.addr == far && s.atTierPort q.id)

/-- An older request of the same core to the same granule is under way or queued before this one (R301). -/
def granuleHeld (l : List TierReq) (q : TierReq) : Bool :=
  l.any (fun r => decide (r.id < q.id) && r.core == q.core && r.addr / 512 == q.addr / 512 && r.issued.isNone)

/-- The request each bay would issue next at a port: the oldest of its 32 places that R301 lets go, of the kind allowed. -/
def State.bayHeads (s : State) (port : Nat) (far : Bool) (allow : TierReq → Bool) : List (Nat × TierReq) :=
  let l := s.queuedAt port far
  (List.range 81).filterMap (fun b =>
    (((l.filter (fun q => q.bay == b)).take tierPlaces).find? (fun q => allow q && !granuleHeld l q)).map (fun q => (b, q)))

/-- Key of a port's deficits and turn for a tier. -/
def tierKey (port : Nat) (far : Bool) : Nat := b2n far * 16 + port

/-- A bay's quantum in bytes; 0 counts as 1 unit, and a core in no bay has 1 unit. -/
def State.quantum (s : State) (b : Nat) : Nat := 64 * max 1 (if b < 80 then s.get F.tirShare_quantum b else 1)

/-- Deficit of a bay at a port. -/
def State.tierDeficit (s : State) (key b : Nat) : Nat := Sparse.get 0 s.tierDef (key * 128 + b)
def State.setDeficit (s : State) (key b x : Nat) : State := { s with tierDef := Sparse.set 0 s.tierDef (key * 128 + b) x }

/-- Deficit round-robin over the bays with a request: from the bay in turn on, the first whose deficit covers its request;
where none is left, a new round adds each bay's quantum (R300). -/
def State.drr (s : State) (k key turn : Nat) (heads : List (Nat × TierReq)) : Option (State × TierReq) :=
  match k with
  | 0 => none
  | k + 1 =>
    match heads.find? (fun h => decide (turn ≤ h.1) && decide (reqSize h.2 ≤ s.tierDeficit key h.1)) with
    | some (b, q) =>
      some ({ s.setDeficit key b (s.tierDeficit key b - reqSize q) with tierTurn := Sparse.set 0 s.tierTurn key b }, q)
    | none =>
      (heads.foldl (fun s h => s.setDeficit key h.1 (s.tierDeficit key h.1 + s.quantum h.1)) s).drr k key 0 heads

/-! ## Issue -/

/-- What a read samples when it issues: the tier, the writes of its own core to the granule that were issued before it, and
for another core's write in flight either the old or the new bytes, a free choice (R301). -/
def State.sample (s : State) (q : TierReq) : List Byte × List Nat × State :=
  let n := q.land.length * 64
  let writes := s.reqs.filter (fun r => r.write && r.issued.isSome && decide (r.addr < q.addr + n) && decide (q.addr < r.addr + r.bytes.length))
  let seen := writes.zipIdx.filter (fun r => r.1.core == q.core || Config.freeBool (s.fresh + r.2))
  let s1 := seen.foldl (fun s r => s.tierWrite r.1.addr r.1.bytes r.1.marked) s
  (s1.tierRead q.addr n, s1.tierPoison.filter (fun k => decide (q.addr / 64 ≤ k) && decide (k < (q.addr + n) / 64)),
    { s with fresh := s.fresh + writes.length })

/-- Ticks in which a bay waited while another issued at its port (TIR_BAY_STAT.WAIT_NS), each counted once. -/
def State.countWaits (s : State) (heads : List (Nat × TierReq)) (b : Nat) : State :=
  heads.foldl (fun s h => if h.1 = b ∨ 80 ≤ h.1 then s
    else s.heldOnce (100 + h.1) (fun x => x.bump F.tirBayStat_waitNs 1 h.1)) s

/-- What a port answers leaves for the core of the request from a tick on, over the edge link (R247). -/
def State.answer (s : State) (q : TierReq) (start : Nat) : State :=
  { s with
    conss := s.conss ++ [tierCons q (s.get F.strHall_pos) 5 (answerFlits q)]
    flits := s.flits ++ tierFlits q.id (answerFlits q) (tierX (tierPort q.addr)) (tierY (tierPort q.addr)) 5 (start + 2) [q.core] }

/-- The flits and the consignment that stand for a request or its answer are gone. -/
def State.endTravel (s : State) (id : Nat) : State :=
  { s with conss := s.conss.filter (fun q => q.id != id), flits := s.flits.filter (fun f => f.cons != id) }

/-- The chosen request issues: a read samples its data, and its reply sets out; the port's perturbation point sets when it may
complete (R441). -/
def State.issueReq (s : State) (port : Nat) (q : TierReq) : State :=
  let d := if q.write then (q.bytes, q.marked, s) else s.sample q
  let s1 := d.2.2
  let x := s1.perturb (8192 + port) (s1.sel F.prtTier_delay port) (s1.sel F.prtTier_jit port) (s1.sel F.prtTier_duty port)
    (s1.replaying (q.core / 16))
  let s2 : State := { x.1 with reqs := x.1.reqs.map (fun r => if r.id = q.id then
      { r with issued := some s.now, bytes := d.1, marked := d.2.1, due := s.now + x.2 } else r) }
  if q.write then s2.endTravel q.id else (s2.endTravel q.id).answer q (s.now + x.2)

/-- A CXL link accepts a request of this kind now: one of each kind every 4 ns (R300). -/
def State.linkAccepts (s : State) (link : Nat) (write : Bool) : Bool :=
  let at_ := Sparse.get 0 s.cxlAt (link * 2 + b2n write)
  at_ == 0 || decide (at_ - 1 + 4 ≤ s.now)

/-- The port whose turn it is at its link for a kind of request: round-robin over the eight ports that hold one. -/
def State.linkTurnOf (s : State) (link : Nat) (write : Bool) : Option Nat :=
  let last := Sparse.get 0 s.cxlTurn (link * 2 + b2n write) -- the port next in turn
  (List.range 8).map (fun k => link * 8 + (last + k) % 8) |>.find? (fun p => (s.queuedAt p true).any (fun q => q.write == write))

/-- Issue a request at a port out of those allowed. -/
def State.issueAt (s : State) (port : Nat) (far : Bool) (allow : TierReq → Bool) : Option (State × TierReq) :=
  let heads := s.bayHeads port far allow
  if heads.isEmpty then none
  else
    match s.drr 700 (tierKey port far) (Sparse.get 0 s.tierTurn (tierKey port far)) heads with
    | none => none
    | some (s1, q) =>
      let s2 := (s1.countWaits heads q.bay).issueReq port q
      let s3 := if (s2.queuedAt port far).any (fun r => r.bay == q.bay) then s2 else s2.setDeficit (tierKey port far) q.bay 0
      some (s3, q)

/-- TIER_REQUEST_ISSUE: at most one near-tier request a cycle; a far-tier one when the link accepts it and it is the port's
turn there. -/
def execTierRequestIssue (port : Nat) (far : Bool) (s : State) : Out :=
  if 16 ≤ port then .fault (.noSuchPort port)
  else if far then
    let link := port / 8
    let may (w : Bool) : Bool := s.linkAccepts link w && s.linkTurnOf link w == some port
    match s.issueAt port true (fun q => may q.write) with
    | none => .next s
    | some (s1, q) =>
      let key := link * 2 + b2n q.write
      .next { s1 with cxlAt := Sparse.set 0 s1.cxlAt key (s.now + 1), cxlTurn := Sparse.set 0 s1.cxlTurn key ((port + 1) % 8) }
  else if Sparse.get 0 s.nearAt port = s.now + 1 then .next s
  else
    match s.issueAt port false (fun _ => true) with
    | none => .next s
    | some (s1, _) => .next { s1 with nearAt := Sparse.set 0 s1.nearAt port (s.now + 1) }

/-! ## Replies (R23, R301) -/

/-- Bytes moved for a bay (TIR_BAY_STAT.KIB). -/
def State.countBytes (s : State) (b n : Nat) : State :=
  if 80 ≤ b then s
  else
    let t := Sparse.get 0 s.tierBytes b + n
    { s.wrap F.tirBayStat_kib (t / 1024) b with tierBytes := Sparse.set 0 s.tierBytes b (t % 1024) }

/-- Take a request out. -/
def State.endReq (s : State) (q : TierReq) : State := { s with reqs := s.reqs.filter (fun r => r.id != q.id) }

/-- The executing operation into whose pieces the data of a request goes. -/
def landsIn (q : TierReq) (x : ExecItem) : Bool :=
  x.w == q.w && (match x.op with
    | .tload _ => true
    | _ => false)

/-- The issued request of a number that its port may complete. -/
def State.reqDone (s : State) (id : Nat) (write : Bool) : Option TierReq :=
  s.reqs.find? (fun q => q.id == id && q.write == write && q.issued.isSome && decide (q.due ≤ s.now))

/-- TIER_READ_REPLY: the reply has come back to the core, and its data lands under the TLOAD's tag waits; a chunk reported
uncorrectable poisons the basin chunk. -/
def execTierReadReply (req : Nat) (ue : List Nat) (s : State) : Out :=
  match s.reqDone req false with
  | none => .next s
  | some q =>
    if !s.answered q.id then .next s
    else
      let s1 := ((s.endReq q).endTravel q.id).countBytes q.bay (reqSize q)
      let bad := (q.land.zipIdx.filter (fun x => decide (q.addr / 64 + x.2 ∈ q.marked) || decide (q.addr / 64 + x.2 ∈ ue))).map (fun x => x.1)
      let pieces := q.land.zipIdx.map (fun x => Piece.mk x.1 ((q.bytes.drop (x.2 * 64)).take 64))
      match (s1.core q.place).exec.zipIdx.find? (fun x => landsIn q x.1) with
      | none => .next s1
      | some (x, n) =>
        .next ((s1.modCore q.place (fun c =>
          { c with exec := c.exec.set n { x with pend := x.pend ++ pieces, bad := x.bad ++ bad } })).runExec q.place q.core n)

/-- TIER_WRITE_ACK: the write becomes visible, and the acknowledgement sets out for the core (R301). -/
def execTierWriteAck (req : Nat) (s : State) : Out :=
  match s.reqDone req true with
  | none => .next s
  | some q => .next ((((s.endReq q).countBytes q.bay (reqSize q)).tierWrite q.addr q.bytes q.marked).answer q s.now)

end Sys2Proof.Machine
end

