-- ==== Sys2Proof/Machine/Harbour.lean ====
section
/-! DEFINITION. Harbour windows (R101 to R105, R294, R295): opening, granting, closing, the credit at the sender, and the replies
that reach a sender (Table 10-7). -/

namespace Sys2Proof.Machine

/-! ## Messages -/

/-- This plain's hall position. -/
def State.hall (s : State) : Nat := s.get F.strHall_pos

/-- The strait port towards a hall position: the lowest link that carries traffic to it. -/
def State.portTo (s : State) (pos : Nat) : Option Nat :=
  (List.range 48).find? (fun n => s.flag F.strStat_elasticOk n && s.get F.strPart_pos n == pos)

/-- Runtime of a strait link. -/
def State.link (s : State) (n : Nat) : Link := Sparse.get Link.down s.links n

/-- Change the runtime of a strait link. -/
def State.modLink (s : State) (n : Nat) (f : Link → Link) : State :=
  { s with links := Sparse.set Link.down s.links n (f (s.link n)) }

/-- Send a grant or a reply towards a hall position: to a core of this plain, or over the strait that leads there. -/
def State.message (s : State) (pos core : Nat) (slot : StraitSlot) (w : Option WordCtx) : State :=
  if pos = s.hall then { s with msgs := s.msgs ++ [⟨slot, core, w⟩] }
  else
    match s.portTo pos with
    | some n => s.modLink n (fun l => { l with control := l.control ++ [slot] })
    | none => s

/-- Take the first message a test holds for off the list. -/
def State.takeMsg (s : State) (f : Msg → Bool) : Option Msg × State :=
  match s.msgs.find? f with
  | some m => (some m, { s with msgs := s.msgs.erase m })
  | none => (none, s)

/-! ## The window's slots (R101, R102) -/

/-- A window as its registers describe it. -/
structure WinView where
  core : Nat
  cove : Nat
  first : Nat
  count : Nat
  deriving DecidableEq, Repr

/-- Window `n`. -/
def State.win (s : State) (n : Nat) : WinView :=
  ⟨s.get F.hbrWinCfg_core n, s.get F.hbrWinCfg_cove n, s.get F.hbrWinCfg_first n, s.get F.hbrWinCfg_count n⟩

/-- The core state behind a window, and its cove. -/
def State.winCore (s : State) (n : Nat) : CoreState := s.core (s.phys (s.win n).core)
def State.winCove (s : State) (n : Nat) : Cove := (s.winCore n).cove (s.win n).cove

/-- The slot `k` places after slot `i` in the window's ring. -/
def ringNext (first count slots i k : Nat) : Nat :=
  if count = 0 ∨ slots = 0 then i else (first + ((i + slots - first % slots) % slots + k) % count) % slots

/-- Runtime of a window. -/
def State.window (s : State) (n : Nat) : Window := Sparse.get ⟨[], 0, false⟩ s.wins n

/-- Change the runtime of a window; GRANTED shows its granted slots. -/
def State.modWindow (s : State) (n : Nat) (f : Window → Window) : State :=
  let w := f (s.window n)
  ({ s with wins := Sparse.set ⟨[], 0, false⟩ s.wins n w } : State).put F.hbrWinStat_granted w.granted.length n

/-- Slots a window can grant now, from GRANT_PTR on in ring order: free, and not granted; the first argument bounds them. -/
def State.grantable (s : State) (n k ptr : Nat) : List Nat :=
  match k with
  | 0 => []
  | k + 1 =>
    let v := s.winCove n
    if ((s.winCore n).tag v ptr).free && !decide (ptr ∈ (s.window n).granted) then
      ptr :: s.grantable n k (ringNext (s.win n).first (s.win n).count v.slots ptr 1)
    else []

/-- Grant what can be granted, in one message to the bound sender (R102). -/
def State.grantNow (s : State) (n : Nat) : State :=
  let v := s.winCove n
  let ptr := s.get F.hbrWinStat_grantPtr n
  let slots := s.grantable n (s.win n).count ptr
  match slots with
  | [] => s
  | first :: _ =>
    let s1 := (s.modWindow n (fun w => { w with granted := w.granted ++ slots, lastGrant := s.now + 1 })).put F.hbrWinStat_grantPtr
      (ringNext (s.win n).first (s.win n).count v.slots ptr slots.length) n
    let pos := s.get F.hbrWinCfg_sendPos n
    s1.message pos (s.get F.hbrWinCfg_sendCore n) (.grant pos n first slots.length) none

/-- Two runs of slots of one ring meet. -/
def State.winsMeet (s : State) (n m : Nat) : Bool :=
  (s.win n).core == (s.win m).core && (s.win n).cove == (s.win m).cove &&
  (List.range (s.winCove n).slots).any (fun i =>
    windowCovers (s.win n).first (s.win n).count (s.winCove n).slots i && windowCovers (s.win m).first (s.win m).count (s.winCove n).slots i)

/-- OPEN_GO may open the window (R294). -/
def State.mayOpen (s : State) (n : Nat) : Bool :=
  let w := s.win n
  decide (w.core < 1280) && s.usable (w.core / 16) && (s.winCore n).flag F.coveCfg_enable w.cove &&
  decide (0 < w.count) && decide (w.first < (s.winCove n).slots) && decide (w.count ≤ (s.winCove n).slots) &&
  !s.wins.any (fun m => m.1 != n && s.flag F.hbrWinCtl_open m.1 && s.winsMeet n m.1) && !s.flag F.hbrWinCtl_open n

/-- The window opens and grants its free slots at once (R102, R294). -/
def State.openWindow (s : State) (n : Nat) : State :=
  (((s.put F.hbrWinCtl_open 1 n).put F.hbrWinStat_grantPtr (s.win n).first n).modWindow n
    (fun _ => ⟨[], 0, false⟩)).grantNow n

/-- CLOSE_GO: granting stops, and REVOKE goes to the bound sender (R295). -/
def State.closeWindow (s : State) (n : Nat) : State :=
  if s.flag F.hbrWinCtl_open n && !(s.window n).closing then
    let pos := s.get F.hbrWinCfg_sendPos n
    let core := s.get F.hbrWinCfg_sendCore n
    ((s.put F.hbrWinCtl_closeGo 1 n).modWindow n (fun w => { w with closing := true })).message pos core
      (.reply pos s.hall core n 2 0 false 0) none
  else s

/-- 64 ns have passed since the window's last grant message, if it has sent one (R102); `lastGrant` is one more than its tick. -/
def Window.mayGrant (w : Window) (now : Nat) : Bool := w.lastGrant == 0 || decide (w.lastGrant + 63 ≤ now)

/-- HARBOUR_GRANT: the next grant message of a window, no sooner than 64 ns after its last. -/
def execHarbourGrant (win : Nat) (s : State) : Out :=
  if 4096 ≤ win then .fault (.noSuchWindow win)
  else
    let w := s.window win
    if s.flag F.hbrWinCtl_open win && !w.closing && w.mayGrant s.now then .next (s.grantNow win) else .next s

/-! ## The sender's credit (R105, R283, R285) -/

/-- The lowest route entry of a core that names a window on a plain. -/
def CoreState.routeTo (c : CoreState) (plain win : Nat) : Option Nat :=
  (List.range 256).find? (fun e =>
    let lo := Sparse.get 0 c.route (2 * e)
    field lo 1 0 == 3 && field lo 15 4 == win && field lo 32 22 == plain)

/-- NEXT and AVAIL of a route entry. -/
def CoreState.credit (c : CoreState) (e : Nat) : Nat × Nat :=
  let hi := Sparse.get 0 c.route (2 * e + 1)
  (field hi 11 0, field hi 24 12)

/-- Write NEXT and AVAIL: fields of R416. -/
def CoreState.setCredit (c : CoreState) (e next avail : Nat) : CoreState :=
  let hi := Sparse.get 0 c.route (2 * e + 1)
  ({ c with route := Sparse.set 0 c.route (2 * e + 1) (setField (setField hi 11 0 next) 24 12 (min 8191 avail)) } : CoreState).moved
    F.corRouteHi_dest.base e

/-- SEND_CORE 2,047 names the lead pilot, for which the drift engine sends (R347). -/
def leadSender : Nat := 2047

/-- The drift engine's credit for a window of this plain: NEXT and AVAIL. -/
def State.driftCredit (s : State) (win : Nat) : Nat × Nat :=
  let v := Sparse.get 0 s.leadCredit win
  (field v 11 0, field v 24 12)

/-- Change it. -/
def State.setDriftCredit (s : State) (win next avail : Nat) : State :=
  { s with leadCredit := Sparse.set 0 s.leadCredit win (setField (setField 0 11 0 next) 24 12 (min 8191 avail)) }

/-! ## Replies -/

/-- The word a consignment of this plain belongs to, by sending core and CID. -/
def State.consWord (s : State) (core cid : Nat) : Option WordCtx :=
  (s.conss.find? (fun q => q.srcCore == core && q.cid == cid && q.via.isNone)).map (fun q => q.w)

/-- A reply of a kind for a core. -/
def isReply (m : Msg) (core code cid : Nat) : Bool :=
  match m.slot with
  | .reply _ _ k _ cd _ _ c => k == core && cd == code && c == cid
  | _ => false

/-- ROLE_STALE reaches the sending core's plain: a notice for the lead pilot; no fault. -/
def execRoleStale (core cid srcPos win _found : Nat) (_dropped : Bool) (s : State) : Out :=
  .next ((((s.takeMsg (fun m => isReply m core 0 cid)).2).bump F.hbrStat_stale).notify 80
    ⟨6, core, 0, s.now, win, cid, srcPos⟩)

/-- DENIED reaches the sender, whose core faults with HARBOUR_DENIED, unit 10 (R103); the drift engine has no core to fault. -/
def execDenied (core cid : Nat) (s : State) : Out :=
  let r := s.takeMsg (fun m => isReply m core 1 cid)
  if core = leadSender then .next r.2
  else onCore core s (fun p c =>
    let w := ((r.1.bind (fun m => m.w)).or (s.consWord core cid)).getD c.issCtx
    r.2.setCore p (c.faultWord s.now clsDenied 10 w))

/-- A landing on the credit of a route has still to leave the sending pass. -/
def State.landingLeaves (s : State) (core plain win : Nat) : Bool :=
  s.conss.any (fun q => q.srcCore == core && q.via.isNone && q.kind == 3 && q.dstPos == plain && q.win == win &&
    s.flits.any (fun f => f.cons == q.id && f.inPort == 4 && !f.atCore))

/-- Revocations whose last landing has left: AVAIL becomes 0, and REVOKE_ACK answers (R295). -/
def State.settleRevokes (s : State) : State :=
  (s.revokes.filter (fun r => !s.landingLeaves r.1 r.2.1 r.2.2)).foldl (fun s r =>
    let p := s.phys r.1
    let c := s.core p
    let s1 := match c.routeTo r.2.1 r.2.2 with
      | some e => s.setCore p (c.setCredit e (c.credit e).1 0)
      | none => s
    ({ s1 with revokes := s1.revokes.erase r } : State).message r.2.1 r.1 (.reply r.2.1 s.hall r.1 r.2.2 3 0 false 0) none) s

/-- REVOKE reaches the sender (R295). -/
def execRevoke (core plain win : Nat) (s : State) : Out :=
  let s1 := (s.takeMsg (fun m => match m.slot with
      | .reply _ _ k w cd _ _ _ => k == core && w == win && cd == 2
      | _ => false)).2
  if core = leadSender then
    .next ((s1.setDriftCredit win (s1.driftCredit win).1 0).message plain core (.reply plain s.hall core win 3 0 false 0) none)
  else onCore core s (fun _ _ =>
    ({ s1 with revokes := if (core, plain, win) ∈ s1.revokes then s1.revokes else s1.revokes ++ [(core, plain, win)] } : State).settleRevokes)

/-- REVOKE_ACK: OPEN and CLOSE_GO clear (R295). -/
def execRevokeAck (win : Nat) (s : State) : Out :=
  if 4096 ≤ win then .fault (.noSuchWindow win)
  else
    let s1 := (s.takeMsg (fun m => match m.slot with
      | .reply _ _ _ w cd _ _ _ => w == win && cd == 3
      | _ => false)).2
    if (s1.window win).closing then
      .next (((s1.modWindow win (fun _ => ⟨[], 0, false⟩)).put F.hbrWinCtl_open 0 win).put F.hbrWinCtl_closeGo 0 win)
    else .next s1

/-- DISCARD reaches the sender's plain: a notice for the lead pilot, whose firmware repeats the hand-off (R342). -/
def execDiscard (core cid srcPos : Nat) (s : State) : Out :=
  .next (((s.takeMsg (fun m => isReply m core 4 cid)).2).notify 80 ⟨7, core, 0, s.now, 0, cid, srcPos⟩)

end Sys2Proof.Machine
end

