-- ==== Sys2Proof/Machine/Network.lean ====
section
/-! DEFINITION. Passes, flits and consignments (R236 to R243, R247, R262, R263, R277 to R287, R296 to R298): SEND, dimension-order
routing with multicast, slot plans, landing, commit, discard and the drift queue. -/

namespace Sys2Proof.Machine

/-! ## The grid (R236, Table 10-1) -/

/-- The pass a strait port attaches to. -/
def straitX (n : Nat) : Nat := if n < 24 then n + 8 else n - 16
def straitY (n : Nat) : Nat := if n < 24 then 0 else 31

/-- The link a flit at a pass takes towards a pass: first along X, then along Y (R278); 4 is the core link. DESIGN CHOICE, log
entry 30: N leads to the smaller Y. -/
def linkTowards (x y dx dy : Nat) : Nat :=
  if x < dx then 2 else if dx < x then 3 else if dy < y then 0 else if y < dy then 1 else 4

/-- The pass a grid link leads to, and the input there. -/
def acrossX (x link : Nat) : Nat := if link = 2 then x + 1 else if link = 3 then x - 1 else x
def acrossY (y link : Nat) : Nat := if link = 0 then y - 1 else if link = 1 then y + 1 else y
def opposite (link : Nat) : Nat := if link = 0 then 1 else if link = 1 then 0 else if link = 2 then 3 else 2

/-! ## SEND (R284, R285) -/

/-- Bytes of one slot of a window, first slot and slots of its ring, as the sender uses them (R285). -/
def State.sendRing (s : State) (plain win : Nat) : Nat × Nat × Nat :=
  if plain = s.hall then ((s.winCove win).size, (s.win win).first, (s.win win).count) else Config.farWindow plain win

/-- The slot `k` places on in the credit of a window. -/
def State.creditSlot (s : State) (plain win i k : Nat) : Nat :=
  let r := s.sendRing plain win
  if plain = s.hall then ringNext r.2.1 r.2.2 (s.winCove win).slots i k
  else if r.2.2 = 0 then (i + k) % 4096 else (r.2.1 + ((i - r.2.1) + k) % r.2.2) % 4096

/-- Slots a landing of `n` bytes needs. -/
def State.slotsNeeded (s : State) (plain win n : Nat) : Nat := max 1 (ceilDiv n (max 1 (s.sendRing plain win).1))

/-- The number of the next consignment of a core. -/
def State.nextCid (s : State) (core : Nat) : Nat := Sparse.get 0 s.cidNext core

/-- Step number a flit carries: ⌊S / F⌋ mod 256, 0 in an unarmed bay. -/
def State.stepNo (s : State) (core : Nat) : Nat :=
  match s.armedBay core with
  | some b => s.stepStartAt b / s.frameLen b % 256
  | none => 0

/-- Role epoch of the bay of a core. -/
def State.epochOf (s : State) (core : Nat) : Nat :=
  match s.bayOf (core / 16) with
  | some b => s.get F.bayRole_epoch b
  | none => 0

/-- The destination operand of a SEND, wrapped in the cove of the sending core as the entry was captured. -/
def CoreState.sendOperand (c : CoreState) (a : SendArgs) : Operand :=
  { sendDest a with
    wrapBase := (c.cove a.dstDesc.cove).base
    wrapLen := if c.flag F.coveCfg_enable a.dstDesc.cove then (c.cove a.dstDesc.cove).extent else 0 }

/-- A fresh destination. -/
def Dest.to (core : Nat) : Dest := ⟨core, false, false, false, [], [], [], 0⟩

/-- The consignment a SEND makes. `win` names the window of KIND 3 and the tree record of KIND 2. -/
def State.sendCons (s : State) (core : Nat) (c : CoreState) (w : WordCtx) (a : SendArgs) (flits : Nat) : Consign :=
  let kind := field a.lo 1 0
  let plain := if kind = 3 then field a.lo 32 22 else s.hall
  let far := kind == 3 && field a.lo 21 16 != 63
  let win := field a.lo 15 4
  { id := s.fresh
    kind := kind
    srcCore := core
    srcPos := s.hall
    dstPos := plain
    ctx := w.ctx
    w := w
    stream := field a.lo 63 52
    elastic := bit a.lo.toNat 2
    epoch := if kind = 3 then field a.lo 51 36 else s.epochOf core
    stepNo := s.stepNo core
    cid := s.nextCid core
    win := if kind = 1 then 0 else win
    slot := if kind = 3 then (c.credit a.route).1 else 0
    port := if far then some (field a.lo 21 16) else none
    via := none
    lane := none
    lands := if kind = 3 then [] else streamOf (c.sendOperand a) 0 (extentChunks a.opnd)
    flits := some flits
    dests := if far then [] else if kind = 3 then [Dest.to (s.win win).core] else a.members.map Dest.to
    firstAt := 0
    diverted := false
    divert := []
    tier := none }

/-- The flits of a consignment at its source pass: the data leaves the core one flit a cycle (Table 10-10). -/
def sendFlits (id x y start : Nat) (dests : List Nat) (chunks : List (List Byte × Bool)) : List Flit :=
  let groups := if chunks.isEmpty then [[]] else chunksOf (chunks.length / 2 + 1) 2 chunks
  groups.zipIdx.map (fun g => ⟨id, g.2, g.2 + 1 == groups.length, g.1, x, y, 4, dests, start + g.2, false, false, false⟩)

/-- A SEND into a window has the credit it needs; not while the window revokes it (R285, R295). -/
def State.hasCredit (s : State) (core : Nat) (c : CoreState) (a : SendArgs) (bytes : Nat) : Bool :=
  let plain := field a.lo 32 22
  let win := field a.lo 15 4
  field a.lo 1 0 != 3 || (decide (s.slotsNeeded plain win bytes ≤ (c.credit a.route).2) && !decide ((core, plain, win) ∈ s.revokes))

/-- The source of a SEND has been read: its flits go to the core's pass, and the credit is used up. -/
def State.sendOut (s : State) (p core : Nat) (w : WordCtx) (a : SendArgs) (src marked : List Nat) : State :=
  let c := s.core p
  let chunks := src.map (fun x => (c.peek x 64, decide (chunkOf x ∈ marked)))
  let q := s.sendCons core c w a (max 1 (ceilDiv src.length 2))
  let need := s.slotsNeeded q.dstPos q.win (src.length * 64)
  let c1 := c.begin .store w (.send a) []
  let c2 := if q.kind = 3 then
      c1.setCredit a.route (s.creditSlot q.dstPos q.win q.slot need) ((c1.credit a.route).2 - need)
    else c1
  { s.setCore p c2 with
    conss := s.conss ++ [q]
    flits := s.flits ++ sendFlits q.id (coreX core) (coreY core) (s.now + 8 + s.coreLink core) (q.dests.map (fun d => d.core)) chunks
    cidNext := Sparse.set 0 s.cidNext core ((q.cid + 1) % 65536)
    fresh := s.fresh + 1 }

/-- SEND: it waits for credit at its tag stage and for its source; then its flits leave (R284, R285). -/
def execSend (core : Nat) (w : WordCtx) (a : SendArgs) (s : State) : Out :=
  onLive core s (fun p c =>
    let op := QOp.send a
    let src := runStream a.opnd a.run
    s.startOp p core w op true
      (if s.hasCredit core c a (src.length * 64) then s.readingOp p 6 w op src (fun s marked => s.sendOut p core w a src marked)
      else s.setCore p (if c.ending then c.abandon .store w op
        else (c.unwait (waitUnit op) w).wait ⟨waitUnit op, w, basinBytes, 0⟩)))

/-! ## Slot plans (R280, R262, R263) -/

/-- A plan run reserves a tick of its link: (stream). `strait` counts flit positions instead of ticks. -/
def State.runCovers (s : State) (run : Reg64) (link now : Nat) (strait : Bool) : Bool :=
  let b := field run 47 41
  let from_ := s.stepStartAt b + field run 28 0
  let len := field run 40 29 + 1
  let positions (t : Nat) : Nat := t / 32 * 25 + min 25 (t % 32)
  field run 63 63 == 1 && (strait || field run 62 60 == link) && decide (b < 80) && s.armed b && decide (from_ ≤ now) &&
  (if strait then decide (now % 32 < 25) && decide (positions now < positions from_ + len) else decide (now < from_ + len))

/-- The stream that holds a tick of a link: the lowest-numbered run that reserves it. -/
def State.planHolder (s : State) (plan : List (Nat × Reg64)) (link now : Nat) (strait : Bool) : Option Nat :=
  (plan.find? (fun r => s.runCovers r.2 link now strait)).map (fun r => field r.2 59 48)

/-- The runs of a stream on a link that are in force. -/
def State.streamRuns (s : State) (plan : List (Nat × Reg64)) (stream link : Nat) (strait : Bool) : List (Nat × Reg64) :=
  plan.filter (fun r => field r.2 63 63 == 1 && (strait || field r.2 62 60 == link) && field r.2 59 48 == stream &&
    decide (field r.2 47 41 < 80) && s.armed (field r.2 47 41))

/-- Cycle number `k` that a run reserves from tick `start` on; on a strait, the tick of a flit position. -/
def runTick (start k : Nat) (strait : Bool) : Nat :=
  let n := start / 32 * 25 + min 25 (start % 32) + k
  if strait then n / 25 * 32 + n % 25 else start + k

/-- The ticks of a link that the runs of a stream hold in their current steps: those that no lower-numbered run reserves (R280). -/
def State.streamTicks (s : State) (plan : List (Nat × Reg64)) (stream link : Nat) (strait : Bool) : List Nat :=
  (s.streamRuns plan stream link strait).flatMap (fun r =>
    ((List.range (field r.2 40 29 + 1)).map (fun k => runTick (s.stepStartAt (field r.2 47 41) + field r.2 28 0) k strait)).filter (fun t =>
      (plan.find? (fun q => s.runCovers q.2 link t strait)).map (fun q => q.1) == some r.1))

/-- Key of a stream on a link, a link being numbered by `linkKey` or, for a strait port, after those. -/
def streamKey (link stream : Nat) : Nat := link * 4096 + stream

/-- Start of the step that the plan of a stream follows. -/
def State.streamStep (s : State) (plan : List (Nat × Reg64)) (stream link : Nat) (strait : Bool) : Nat :=
  match s.streamRuns plan stream link strait with
  | r :: _ => s.stepStartAt (field r.2 47 41)
  | [] => 0

/-- Scheduled flits that a stream has sent on a link in the current step of its plan. -/
def State.streamCount (s : State) (key step : Nat) : Nat :=
  let x := Sparse.get (0, 0) s.streamSent key
  if x.1 = step then x.2 else 0

/-- Count a scheduled flit on a link. -/
def State.countSent (s : State) (plan : List (Nat × Reg64)) (key stream link : Nat) (strait : Bool) : State :=
  let step := s.streamStep plan stream link strait
  { s with streamSent := Sparse.set (0, 0) s.streamSent key (step, s.streamCount key step + 1) }

/-- The next scheduled flit of a stream on a link is late, or its plan has no cycle for it: as many cycles of the stream have
passed as it has sent flits, and more (R262). -/
def State.streamLate (s : State) (plan : List (Nat × Reg64)) (key stream link now : Nat) (strait : Bool) : Bool :=
  let ticks := s.streamTicks plan stream link strait
  let sent := s.streamCount key (s.streamStep plan stream link strait)
  decide (sent < (ticks.filter (fun t => decide (t < now))).length) || decide (ticks.length ≤ sent)

/-- A scheduled flit of a stream may take this tick: it is reserved for the stream; or the flit is late and no flit of the
stream that holds the tick wants it (`rivals` are the streams of the other scheduled flits that want it) (R262, R280). -/
def State.planAllows (s : State) (plan : List (Nat × Reg64)) (rivals : List Nat) (key stream link now : Nat) (strait : Bool) : Bool :=
  match s.planHolder plan link now strait with
  | some h => h == stream || (s.streamLate plan key stream link now strait && !decide (h ∈ rivals))
  | none => s.streamLate plan key stream link now strait

/-! ## Flits at a pass (R239, R242, R247, R263, R278, R279) -/

/-- The consignment of a flit. -/
def State.cons (s : State) (id : Nat) : Option Consign := s.conss.find? (fun q => q.id == id)

/-- Change a consignment. -/
def State.modCons (s : State) (id : Nat) (f : Consign → Consign) : State :=
  { s with conss := s.conss.map (fun q => if q.id = id then f q else q) }

/-- Change one destination of a consignment. -/
def State.modDest (s : State) (id dst : Nat) (f : Dest → Dest) : State :=
  s.modCons id (fun q => { q with dests := q.dests.map (fun d => if d.core = dst then f d else d) })

/-- The edge pass a consignment leaves the passes at: that of its strait port, or of a request's tier port. -/
def edgeOf (q : Consign) : Option (Nat × Nat) :=
  match q.port with
  | some n => some (straitX n, straitY n)
  | none => if q.kind = 4 then q.tier.map (fun n => (tierX n, tierY n)) else none

/-- The links a flit takes at its pass, each with the destinations it serves over it. -/
def flitLinks (q : Consign) (f : Flit) : List (Nat × List Nat) :=
  match edgeOf q with
  | some e =>
    let l := linkTowards f.x f.y e.1 e.2
    [(if l = 4 then 5 else l, [])]
  | none =>
    let ls := (f.dests.map (fun d => linkTowards f.x f.y (coreX d) (coreY d))).eraseDups
    ls.map (fun l => (l, f.dests.filter (fun d => linkTowards f.x f.y (coreX d) (coreY d) == l)))

/-- Key of a link of a pass. -/
def linkKey (x y link : Nat) : Nat := passAt x y * 8 + link

/-- A flit waits at a pass and may be looked at there. -/
def atPass (s : State) (f : Flit) (x y : Nat) : Bool :=
  f.x == x && f.y == y && !f.atCore && !f.out && decide (f.ready ≤ s.now)

/-- The flit is the first of its consignment at its place. -/
def State.leads (s : State) (f : Flit) : Bool :=
  !s.flits.any (fun g => g.cons == f.cons && g.x == f.x && g.y == f.y && g.inPort == f.inPort && g.atCore == f.atCore &&
    g.out == f.out && decide (g.seq < f.seq))

/-- Flits ready at a pass that want a link, with their consignments. -/
def State.wanting (s : State) (x y link : Nat) : List (Flit × Consign) :=
  s.flits.filterMap (fun f => if atPass s f x y && s.leads f then
    (match s.cons f.cons with
     | some q => if (flitLinks q f).any (fun l => l.1 == link) then some (f, q) else none
     | none => none) else none)

/-- Elastic flits an input holds (R279), and flits a branch link of a tree buffers (R242). -/
def elasticPlaces : Nat := 8
def branchPlaces : Nat := 4

/-- A tier port's queue for the bay and the tier of a request has a place for it, or has begun to take it (R300). -/
def State.tierRoom (s : State) (id : Nat) : Bool :=
  match s.reqs.find? (fun r => r.id == id) with
  | none => true
  | some r =>
    let begun (k : Nat) : Bool := s.flits.any (fun f => f.cons == k && f.out) || !s.flits.any (fun f => f.cons == k)
    begun id || decide ((s.reqs.filter (fun x => x.issued.isNone && x.bay == r.bay && tierPort x.addr == tierPort r.addr &&
      (decide (2 ^ 40 ≤ x.addr) == decide (2 ^ 40 ≤ r.addr)) && begun x.id)).length < 32)

/-- Two consignments of one tree (R242): of one root and one tree record. -/
def sameTree (q r : Consign) : Bool := q.kind == 2 && r.kind == 2 && r.srcCore == q.srcCore && r.win == q.win

/-- The place a link leads to has room for the flit: for an elastic one among 8, for one of a tree among 4 of its tree (R242, R279);
a core takes what a tier port answers as it comes. -/
def State.roomBeyond (s : State) (q : Consign) (f : Flit) (link : Nat) (dests : List Nat) : Bool :=
  let there (g : Flit) : Bool := if link = 5 then g.out && (s.cons g.cons).any (fun r => r.port == q.port && r.tier.isNone)
    else if link = 4 then g.atCore && dests.any (fun d => decide (d ∈ g.dests)) && (s.cons g.cons).any (fun r => r.tier.isNone)
    else g.x == acrossX f.x link && g.y == acrossY f.y link && g.inPort == opposite link && !g.atCore && !g.out
  let held := s.flits.filter there
  if q.tier.isSome && (link == 4 || link == 5) then link == 4 || s.tierRoom q.id
  else
    (!q.elastic || decide ((held.filter (fun g => (s.cons g.cons).any (fun r => r.elastic))).length < elasticPlaces)) &&
    (q.kind != 2 || decide ((held.filter (fun g => (s.cons g.cons).any (fun r => sameTree q r))).length < branchPlaces))

/-- The slot plan of the pass at a grid position. -/
def State.passPlan (s : State) (x y : Nat) : List (Nat × Reg64) := (s.core (s.phys (passAt x y))).plan

/-- The input port that round-robin serves next at an output, among those that want it (R279). -/
def rrWinner (turn : Nat) (ports : List Nat) : Option Nat :=
  (List.range 6).map (fun k => (turn + k) % 6) |>.find? (fun p => decide (p ∈ ports))

/-- The class of the flit lets it take the link now (R262, R263, R279). -/
def State.classAllows (s : State) (q : Consign) (f : Flit) (link : Nat) : Bool :=
  let all := s.wanting f.x f.y link
  let sched := all.filter (fun x => !x.2.elastic && x.2.id != q.id)
  let plan := s.passPlan f.x f.y
  let key (stream : Nat) : Nat := streamKey (linkKey f.x f.y link) stream
  if q.elastic then
    !sched.any (fun x => s.planAllows plan ((sched.filter (fun y => y.2.id != x.2.id)).map (fun y => y.2.stream)) (key x.2.stream)
      x.2.stream link s.now false) &&
    rrWinner (Sparse.get 0 s.linkTurn (linkKey f.x f.y link)) ((all.filter (fun x => x.2.elastic)).map (fun x => x.1.inPort)) == some f.inPort
  else s.planAllows plan (sched.map (fun x => x.2.stream)) (key q.stream) q.stream link s.now false

/-- A destination pass lets a flit on to its core once the first flit has been checked there (R286). -/
def coreOpen (q : Consign) (dests : List Nat) : Bool :=
  q.dests.all (fun d => !decide (d.core ∈ dests) || d.passed || d.dropped)

/-- Every link the flit takes is free for it in this tick: the pass forwards to all of them or to none (R239, R242). -/
def State.mayForward (s : State) (q : Consign) (f : Flit) : Bool :=
  (flitLinks q f).all (fun l =>
    Sparse.get 0 s.linkUse (linkKey f.x f.y l.1) != s.now + 1 && s.roomBeyond q f l.1 l.2 && s.classAllows q f l.1 &&
    (l.1 != 4 || coreOpen q l.2))

/-- The copies of a flit beyond a link. Flits for a destination that dropped the consignment end there. -/
def State.beyond (s : State) (q : Consign) (f : Flit) (link : Nat) (dests : List Nat) : List Flit :=
  if link = 5 then [{ f with inPort := 5, out := true, ready := if q.tier.isSome then s.now + 2 else s.now, drawn := false }]
  else if link = 4 then
    ((dests.filter (fun d => !q.dests.any (fun e => e.core == d && e.dropped))).map (fun d =>
      { f with dests := [d], atCore := true, ready := s.now + s.coreLink d, drawn := false }))
  else [{ f with x := acrossX f.x link, y := acrossY f.y link, inPort := opposite link, dests := dests, ready := s.now + 2, drawn := false }]

/-- What a tier port answered to a write has come back to its core. -/
def State.backHome (s : State) (f : Flit) : Bool :=
  f.atCore && decide (f.ready ≤ s.now) && (s.cons f.cons).any (fun q => q.kind == 5) && !s.reqs.any (fun r => r.id == f.cons)

/-- Consignments that are over: every destination done and no flit left. One sent to another plain stays until its step ends,
for the replies that name it. -/
def State.pruneCons (s : State) : State :=
  let flits := s.flits.filter (fun f => !s.backHome f)
  { s with
    flits := flits
    conss := s.conss.filter (fun q => q.port.isSome || q.dests.any (fun d => !(d.committed || d.dropped)) || flits.any (fun f => f.cons == q.id)) }

/-- A scheduled flit counts on each link it takes (R262). -/
def State.noteSent (s : State) (q : Consign) (f : Flit) (links : List Nat) : State :=
  if q.elastic then s
  else links.foldl (fun s l => s.countSent (s.passPlan f.x f.y) (streamKey (linkKey f.x f.y l) q.stream) q.stream l false) s

/-- Forward a flit over all its links. -/
def State.forward (s : State) (q : Consign) (f : Flit) : State :=
  let ls := flitLinks q f
  let copies := ls.flatMap (fun l => s.beyond q f l.1 l.2)
  ({ s.noteSent q f (ls.map (fun l => l.1)) with
    flits := s.flits.erase f ++ copies
    linkUse := ls.foldl (fun m l => Sparse.set 0 m (linkKey f.x f.y l.1) (s.now + 1)) s.linkUse
    linkTurn := if q.elastic then ls.foldl (fun m l => Sparse.set 0 m (linkKey f.x f.y l.1) ((f.inPort + 1) % 6)) s.linkTurn
      else s.linkTurn } : State).settleRevokes.pruneCons

/-- The perturbation point of a pass holds a flit before it is forwarded (R441). -/
def State.passHold (s : State) (q : Consign) (f : Flit) : State × Nat :=
  let core := passAt f.x f.y
  let c := s.core (s.phys core)
  let outs := (flitLinks q f).any (fun l => bit (c.sel F.prtPass_out) l.1)
  let cls := if q.elastic then c.sel F.prtPass_elastic == 1 else c.sel F.prtPass_sched == 1
  if outs && cls && !f.drawn then
    s.perturb (4 * core + 2) (c.sel F.prtPass_delay) (c.sel F.prtPass_jit) (c.sel F.prtPass_duty) (s.replaying (core / 16))
  else (s, 0)

/-- FLIT_RELEASE: each copy of the flit that stands ready at a pass goes on, where its links let it. -/
def execFlitRelease (cons seq : Nat) (s : State) : Out :=
  match s.cons cons with
  | none => .next s
  | some _ =>
    .next ((s.flits.filter (fun f => f.cons == cons && f.seq == seq && atPass s f f.x f.y)).foldl (fun s f =>
      match s.cons cons with
      | none => s
      | some q =>
        if !s.leads f then s
        else
          let h := s.passHold q f
          if 0 < h.2 then { h.1 with flits := h.1.flits.map (fun g => if g = f then { f with ready := s.now + h.2, drawn := true } else g) }
          else if h.1.mayForward q f then h.1.forward q f else h.1) s)

/-! ## Discard (R87, R267, R287) -/

/-- The number under which a landing of a consignment waits at one of its destinations, apart from every other wait of the word. -/
def landUnit (q : Consign) (dst : Nat) : Nat := 9 + 16 * (16 + q.id * 2048 + dst)

/-- A landing of this plain no longer waits. -/
def State.landGoes (s : State) (q : Consign) (dst : Nat) : State :=
  if q.via.isSome then s else s.modCore (s.phys q.srcCore) (fun k => k.unwait (landUnit q dst) q.w)

/-- Discard a consignment at a destination: each slot it claimed returns to exactly the tag it had; slots of a window stay
granted (R104). -/
def State.discardAt (s : State) (q : Consign) (d : Dest) : State :=
  let p := s.phys d.core
  let s1 := (s.landGoes q d.core).modCore p (fun c => d.claimed.foldl (fun c x => c.setTag (c.cove x.1) x.2.1 x.2.2) c)
  let s2 := if q.kind = 3 ∧ !d.wslots.isEmpty then
      s1.modWindow q.win (fun w => { w with granted := d.wslots ++ w.granted }) else s1
  { s2.modDest q.id d.core (fun e => { e with dropped := true, claimed := [], wslots := [] }) with
    flits := (s2.flits.map (fun f => if f.cons = q.id then { f with dests := f.dests.filter (fun k => k != d.core) } else f)).filter
      (fun f => !(f.cons == q.id && f.dests.isEmpty && q.port.isNone)) }

/-- Discard a consignment wherever it has not committed. -/
def State.discardCons (s : State) (id : Nat) : State :=
  match s.cons id with
  | none => s
  | some q => ((q.dests.filter (fun d => !(d.committed || d.dropped))).foldl (fun s d => s.discardAt q d) s).pruneCons

/-- A drop at a destination, with the fault of the sending core of this plain (R286, R101). -/
def State.dropAt (s : State) (q : Consign) (d : Dest) (cls unit : Nat) (addr : Option Nat) : State :=
  let s1 := s.discardAt q d
  let s2 := if q.via.isNone then s1.modCore (s1.phys q.srcCore) (fun c => c.faultCtx s.now q.ctx
    { cls, unit, tag := q.w.tag, off := q.w.off / 4, addr }) else s1
  s2.pruneCons

/-- A reply to the sender of a consignment. -/
def State.replyTo (s : State) (q : Consign) (code found : Nat) (dropped : Bool) : State :=
  s.message q.srcPos q.srcCore (.reply q.srcPos s.hall q.srcCore q.win code found dropped q.cid) (if q.via.isNone then some q.w else none)

/-- DENIED: the landing is dropped at the window (R103, R296). -/
def State.deny (s : State) (q : Consign) (d : Dest) : State :=
  (((s.discardAt q d).bump F.hbrStat_denied).replyTo q 1 0 false).pruneCons

/-! ## The first flit (R286, R296, R297) -/

/-- The first flit of a consignment stands at a destination's pass. -/
def State.firstThere (s : State) (cons dst : Nat) : Bool :=
  s.flits.any (fun f => f.cons == cons && f.seq == 0 && decide (dst ∈ f.dests) && atPass s f (coreX dst) (coreY dst))

/-- The landing touches an enabled cove of another owner. -/
def CoreState.foreignLanding (c : CoreState) (ctx : Nat) (chunks : List Nat) : Option Nat :=
  chunks.find? (fun a => match c.coveAt a with
    | some v => c.get F.coveCfg_owner v.n != ctx
    | none => false)

/-- The window takes the landing: open, its sender, its slot granted, its class allowed. -/
def State.windowTakes (s : State) (q : Consign) : Bool :=
  s.flag F.hbrWinCtl_open q.win && s.get F.hbrWinCfg_sendPos q.win == q.srcPos && s.get F.hbrWinCfg_sendCore q.win == q.srcCore &&
  decide (q.slot ∈ (s.window q.win).granted) && bit (s.get F.hbrWinCtl_perm q.win) (if q.elastic then 1 else 0)

/-- The consignment was sent in a step that its destination's bay has abandoned: its flits are dropped (R267 item 3). -/
def State.fromOldStep (s : State) (q : Consign) (dst : Nat) : Bool :=
  match s.armedBay dst with
  | some b => (s.bay b).oldStep == some q.stepNo
  | none => false

/-- Role epoch of the bay of a core as a first flit is checked against it: a write counts from the next cycle on (R297). -/
def State.epochSeen (s : State) (core : Nat) : Nat :=
  match s.bayOf (core / 16) with
  | some b => ((s.cyc.roles.find? (fun x => x.1 == b)).map (fun x => x.2)).getD (s.get F.bayRole_epoch b)
  | none => 0

/-- CONSIGNMENT_FIRST_FLIT: the checks at a destination's pass, in the order of R296. -/
def execConsignmentFirstFlit (cons dst : Nat) (s : State) : Out :=
  onCore dst s (fun _ c =>
    match s.cons cons with
    | none => s
    | some q =>
      match q.dests.find? (fun d => d.core == dst && !d.passed && !d.dropped) with
      | none => s
      | some d =>
        if !s.firstThere cons dst then s
        else if s.fromOldStep q dst then (s.discardAt q d).pruneCons
        else if q.kind = 3 then
          if s.epochSeen dst ≠ q.epoch then
            (s.modCons cons (fun q => { q with diverted := true, firstAt := s.now })).modDest cons dst (fun d => { d with passed := true })
          else if !s.windowTakes q then s.deny q d
          else
            let v := s.winCove q.win
            if q.via.isNone && c.get F.coveCfg_owner v.n != q.ctx then
              s.dropAt q d clsBounds 10 (some (v.base + q.slot * v.size))
            else s.modDest cons dst (fun d => { d with passed := true })
        else
          match c.foreignLanding q.ctx q.lands with
          | some a => s.dropAt q d clsBounds 10 (some a)
          | none => s.modDest cons dst (fun d => { d with passed := true }))

/-! ## Landing (R79, R84, R87, R103, R285) -/

/-- The producer a consignment is at its destinations (Table 16-5). -/
def consProducer (q : Consign) : Producer := ⟨if q.kind = 3 then 6 else 5, if q.kind = 3 then q.win else q.cid, q.id⟩

/-- The window slot byte `n` of a landing falls into. -/
def State.landSlot (s : State) (q : Consign) (n : Nat) : Nat :=
  let v := s.winCove q.win
  ringNext (s.win q.win).first (s.win q.win).count v.slots q.slot (n / max 1 v.size)

/-- The basin chunk that stream chunk `k` of a consignment lands at. -/
def State.landChunk (s : State) (q : Consign) (k : Nat) : Nat :=
  if q.kind = 3 then (s.winCove q.win).base + s.landSlot q (k * 64) * (s.winCove q.win).size + k * 64 % max 1 (s.winCove q.win).size
  else q.lands.getD k basinBytes

/-- Slots a core or tree consignment names at a destination: those wholly inside its declared extent (R179). -/
def CoreState.consNamed (c : CoreState) (q : Consign) : List (Cove × Nat) := if q.kind = 3 then [] else c.whollyIn q.lands

/-- A landing waits at its tag stage: bound to the deadline of the SEND on this plain (R207, R240). -/
def State.landWaits (s : State) (q : Consign) (d : Dest) (c : CoreState) (x : Cove × Nat) : State :=
  if q.via.isSome then s
  else
    let p := s.phys q.srcCore
    if (s.core p).ending then (s.discardAt q d).pruneCons
    else s.modCore p (fun k => (k.unwait (landUnit q d.core) q.w).wait ⟨landUnit q d.core, q.w, slotAddr x, (c.tag x.1 x.2).shown⟩)

/-- Claim a slot for a consignment, remembering the tag it had; a slot inside an accumulate window is not claimed (R86). -/
def State.consClaim (s : State) (q : Consign) (dst : Nat) (x : Cove × Nat) : State :=
  let p := s.phys dst
  let c := s.core p
  let t := c.tag x.1 x.2
  if c.windowSlot x || (t.state == 1 && t.claimant == some (consProducer q)) then s
  else
    let s1 := s.setCore p (c.setTag x.1 x.2 { t with state := 1, claimant := some (consProducer q) })
    let s2 := s1.modDest q.id dst (fun d => { d with claimed := d.claimed ++ [(x.1.n, x.2, t)] })
    if q.kind = 3 then (s2.modWindow q.win (fun w => { w with granted := w.granted.erase x.2 })).modDest q.id dst
      (fun d => { d with wslots := d.wslots ++ [x.2] }) else s2

/-- The flit of a consignment at the core of a destination. -/
def State.flitAtCore (s : State) (cons dst seq : Nat) : Option Flit :=
  s.flits.find? (fun f => f.cons == cons && f.seq == seq && f.atCore && decide (dst ∈ f.dests) && decide (f.ready ≤ s.now))

/-- The pieces a flit writes. -/
def State.flitParts (s : State) (q : Consign) (f : Flit) : List WritePart :=
  f.chunks.zipIdx.map (fun x => ⟨⟨s.landChunk q (2 * f.seq + x.2), x.1.1⟩, x.1.2, false⟩)

/-- The writer a landing is: its consignment claims and posts for it (R87). -/
def consWriter (q : Consign) : Writer := ⟨.dmaWrite, consProducer q, none, [], q.w.stamp, q.kind == 3⟩

/-- Slots the chunks of a flit touch at a destination. -/
def State.flitSlots (s : State) (c : CoreState) (q : Consign) (f : Flit) : List (Cove × Nat) :=
  c.slotsOf ((s.flitParts q f).map (fun x => chunkOf x.piece.addr))

/-- The flit has landed at a destination: it is gone, its SEQ is noted, and with LAST the number of flits is known. -/
def State.flitDone (s : State) (q : Consign) (dst : Nat) (f : Flit) : State :=
  (({ s with flits := s.flits.erase f } : State).modDest q.id dst (fun d => { d with landed := insertNat d.landed f.seq, landedAt := s.now })).modCons q.id
    (fun q => if f.last then { q with flits := some (f.seq + 1) } else q)

/-- A flit lands as one access of the DMA port: it waits, or its chunks are written, and the slots given are claimed (R47, R87). -/
def State.landFlit (s : State) (q : Consign) (d : Dest) (f : Flit) (claims : List (Cove × Nat)) : State :=
  let p := s.phys d.core
  match s.portWrite p d.core (consWriter q) (s.flitParts q f) with
  | (.held (some x), s1) => s1.landWaits q d (s1.core p) x
  | (.done, s1) => (claims.foldl (fun s x => s.consClaim q d.core x) (s1.landGoes q d.core)).flitDone q d.core f
  | (_, s1) => s1.landGoes q d.core

/-- FLIT_LAND: the flits of a consignment land in order (R242, R278), each under the tag stage of the destination (R79, R84, R103). -/
def execFlitLand (cons dst seq : Nat) (s : State) : Out :=
  onCore dst s (fun _ c =>
    match s.cons cons, s.flitAtCore cons dst seq with
    | some q, some f =>
      match q.dests.find? (fun d => d.core == dst) with
      | none => s
      | some d =>
        if d.dropped then ({ s with flits := s.flits.erase f } : State).pruneCons
        else if !(List.range seq).all (fun k => decide (k ∈ d.landed)) then s
        else if q.diverted then
          (s.modCons cons (fun q => { q with divert := q.divert ++ [(f.seq, padTo 128 (f.chunks.flatMap (fun x => x.1)))] })).flitDone q dst f
        else if c.washEnd.isSome || c.isolated then s
        else
          let slots := s.flitSlots c q f
          if q.kind = 3 then
            let new := slots.filter (fun x => !decide (x.2 ∈ d.wslots))
            if new.any (fun x => !decide (x.2 ∈ (s.window q.win).granted)) then s.deny q d else s.landFlit q d f new
          else
            match slots.find? (fun x => s.inWindow dst x) with
            | some x => s.dropAt q d clsBounds 9 (some (slotAddr x))
            | none => s.landFlit q d f (slots.filter (fun x => decide (x ∈ c.consNamed q)))
    | _, _ => s)

/-! ## Commit (R87, R212, R287) -/

/-- Every SEQ of the consignment has landed at the destination. -/
def allLanded (q : Consign) (d : Dest) : Bool :=
  match q.flits with
  | some n => (List.range n).all (fun k => decide (k ∈ d.landed))
  | none => false

/-- Post the stamp to every slot the consignment claimed. -/
def CoreState.commitSlots (c : CoreState) (q : Consign) (d : Dest) : CoreState :=
  d.claimed.foldl (fun c x =>
    let v := c.cove x.1
    if (c.tag v x.2.1).claimant == some (consProducer q) && (c.tag v x.2.1).state == 1 then c.post q.w.stamp (v, x.2.1) else c) c

/-- Slots a commit names that nothing of it has landed in. -/
def State.untouched (s : State) (c : CoreState) (q : Consign) (d : Dest) : List (Cove × Nat) :=
  if q.kind = 3 then (if d.wslots.isEmpty then [(s.winCove q.win, q.slot)] else [])
  else (c.consNamed q).filter (fun x => !d.claimed.any (fun y => y.1 == x.1.n && y.2.1 == x.2) && !c.windowSlot x)

/-! ### The drift queue (R298, Table 10-8) -/

/-- Bytes of the drift ring, and room in it. -/
def State.driftSize (s : State) : Nat := 2 ^ s.get F.hbrDriftCfg_sizeLog2
def State.driftRoom (s : State) : Nat :=
  (s.get F.hbrDriftPtr_read + 2 * s.driftSize - s.get F.hbrDriftPtr_write - 1) % s.driftSize

/-- The header of a drift record. -/
def State.driftHeader (s : State) (q : Consign) (dst flits : Nat) : List Byte :=
  natBytes 2 q.srcPos ++ natBytes 2 q.srcCore ++ natBytes 2 dst ++ natBytes 2 q.win ++ natBytes 2 q.epoch ++ natBytes 2 (s.epochOf dst) ++
  natBytes 2 q.w.stamp.toNat ++ natBytes 2 flits ++ natBytes 2 q.cid ++ natBytes 1 q.stepNo ++ natBytes 1 (b2n q.elastic) ++
  natBytes 8 q.firstAt ++ List.replicate 36 0

/-- Write bytes into a near-tier ring at an offset, modulo its size. -/
def State.ringWrite (s : State) (base size off : Nat) (bs : List Byte) : State :=
  let n := min bs.length (size - off % size)
  (s.tierWrite (base + off % size) (bs.take n) []).tierWrite base (bs.drop n) []

/-- Divert a consignment: its record goes to the ring when there is room, and ROLE_STALE to the sender (R298). -/
def State.divertCons (s : State) (q : Consign) (dst : Nat) : State :=
  let flits := q.flits.getD 0
  let payload := (List.range flits).flatMap (fun k => ((q.divert.find? (fun x => x.1 == k)).map (fun x => x.2)).getD [])
  let bytes := s.driftHeader q dst flits ++ payload
  let fits := s.flag F.hbrDriftCfg_enable && decide (bytes.length ≤ s.driftRoom)
  let found := s.epochOf dst
  let off := s.get F.hbrDriftPtr_write
  let s1 := if fits then
      (s.ringWrite (s.get F.hbrDriftCfg_base * 4096) s.driftSize off bytes).put F.hbrDriftPtr_write ((off + bytes.length) % s.driftSize)
    else s.bump F.hbrStat_dropped
  ((s1.bump F.hbrStat_stale).replyTo q 0 found (!fits)).notify 80 ⟨6, dst, 0, s.now, q.win, q.cid, q.srcPos⟩

/-- The slots a consignment has claimed at a destination. -/
def CoreState.claimedSlots (c : CoreState) (d : Dest) : List (Cove × Nat) := d.claimed.map (fun x => (c.cove x.1, x.2.1))

/-- CONSIGNMENT_COMMIT: with LAST and every SEQ below it landed, two cycles after the last landing (R241), the stamp goes to all slots
in one tag stage, which waits while a cove of them is held (R84). -/
def execConsignmentCommit (cons dst : Nat) (s : State) : Out :=
  onCore dst s (fun p c =>
    match s.cons cons with
    | none => s
    | some q =>
      match q.dests.find? (fun d => d.core == dst && d.passed && !d.dropped && !d.committed) with
      | none => s
      | some d =>
        if !allLanded q d || decide (s.now < d.landedAt + 2) then s
        else if q.diverted then
          ((s.divertCons q dst).modDest cons dst (fun d => { d with committed := true })).pruneCons
        else
          let rest := s.untouched c q d
          if q.kind = 3 && rest.any (fun x => !decide (x.2 ∈ (s.window q.win).granted)) then s.deny q d
          else
            match (c.claimedSlots d).find? (fun x => c.held x.1), rest.find? (fun x => !c.letsWrite (consWriter q) x) with
            | some x, _ => s.landWaits q d c x
            | none, some x => s.landWaits q d c x
            | none, none =>
              let s1 := rest.foldl (fun s x => s.consClaim q dst x) (s.landGoes q dst)
              let d1 := ((s1.cons cons).bind (fun q => q.dests.find? (fun e => e.core == dst))).getD d
              let s2 := s1.modCore p (fun c => c.commitSlots q d1)
              let s3 := if q.kind = 3 then s2.wrap F.hbrWinStat_landed 1 q.win else s2
              (s3.modDest cons dst (fun d => { d with committed := true })).pruneCons)

end Sys2Proof.Machine
end

