-- ==== Sys2Proof/Machine/Fence.lean ====
section
/-! DEFINITION. What the schedule, breach and mending share: events due (R375), beacons between plains (R265, R268, R313), ending
and dropping the operations of a bay, and the fence copy (R98, R99, R174, R227, R260, R267). -/

namespace Sys2Proof.Machine

/-! ## Events due (Table 13-7) -/

/-- An event that the lead pilot has to raise. -/
def State.raise (s : State) (kind : Nat) (ctx : Option Nat) (detail : Nat) : State :=
  { s with evDue := s.evDue ++ [⟨kind, ctx, s.now, BitVec.ofNat 64 detail⟩] }

/-- A link event of a port: LINK with LAST_EVENT and NEW_DIE. -/
def State.linkEvent (s : State) (port : Nat) : State :=
  s.raise 17 none (port + s.get F.strStat_lastEvent port * 2 ^ 8 + s.get F.strStat_newDie port * 2 ^ 12)

/-- The contexts that BAY names. -/
def State.bayContexts (s : State) (b : Nat) : List Nat :=
  (List.range 1024).filter (fun c => s.get F.ctxCfg_bay c == b && s.get F.ctxCfg_state c != 0)

/-! ## Groups and beacons -/

/-- Step group of a bay, and number of its step as beacons carry it. -/
def State.groupOf (s : State) (b : Nat) : Nat := s.get F.tidSched_group b
def State.stepOf (s : State) (b : Nat) : Nat := s.get F.tidStep_stepNo b

/-- The armed bays of a group on this plain. -/
def State.groupBays (s : State) (g : Nat) : List Nat := (List.range 80).filter (fun b => s.armed b && s.groupOf b == g)

/-- Those of them in the step a beacon names. -/
def State.beaconBays (s : State) (g step : Nat) : List Nat := (s.groupBays g).filter (fun b => s.stepOf b == step)

/-- Send a beacon on every strait whose partner has announced the group (R265). -/
def State.beacon (s : State) (g : Nat) (x : Beacon) : State :=
  ((List.range 48).filter (fun n => s.flag F.strStat_elasticOk n && decide (g ∈ (s.link n).groups))).foldl
    (fun s n => s.modLink n (fun l => { l with beacons := l.beacons ++ [x] })) s

/-- Send or forward a beacon of a kind once per group and step (R265). -/
def State.beaconOnce (s : State) (kind g step : Nat) (x : Beacon) : State :=
  if Sparse.get 0 s.told (kind * 65536 + g) = step + 1 then s
  else ({ s with told := Sparse.set 0 s.told (kind * 65536 + g) (step + 1) } : State).beacon g x

/-- The beacons of a group count as not yet sent: its steps are numbered anew, or a step is replayed after mending (R265, R269). -/
def State.forgetTold (s : State) (g : Nat) : State := { s with told := s.told.filter (fun e => e.1 % 65536 != g) }

/-! ## Ending operations (R265, R267, R313) -/

/-- The core issues nothing more, and its operations end when they complete or would begin a wait (R265). -/
def CoreState.cutShort (c : CoreState) : CoreState := { c with iss.cut := true, iss.running := false }

/-- The same, with STOPPED to follow (R313). -/
def CoreState.stopShort (c : CoreState) : CoreState := { c.cutShort with iss.stopping := true }

/-- Every operation the core has in flight is abandoned; its accumulate windows close without posting and its ledge-engine
queue is empty (R267). -/
def CoreState.dropOps (c : CoreState) : CoreState :=
  { (c.put F.ldgEngStat_winOpen 0) with
    vecQ := []
    arrQ := []
    estQ := []
    loadQ := []
    storeQ := []
    started := []
    exec := []
    draining := none
    pass := none
    tiles := []
    side := []
    commitQ := []
    rels := []
    waits := []
    accWin := []
    ldgQ := []
    ldgExec := none
    ldgWait := none
    accesses := c.accesses.filter (fun a => a.w.count == 0)
    banking := c.banking.filter (fun b => b.acc.w.count == 0)
    portData := c.portData.filter (fun d => d.acc.w.count == 0)
    iss.scal := none
    iss.sync := none }

/-- Flits of a consignment that have not left its source pass. -/
def State.unsent (s : State) (q : Consign) : Bool := s.flits.any (fun f => f.cons == q.id && f.inPort == 4 && !f.atCore && !f.out)

/-- A SEND of a core is abandoned: a consignment whose commit marker has not left goes nowhere further. -/
def State.dropSends (s : State) (core : Nat) : State :=
  (s.conss.filter (fun q => q.srcCore == core && q.via.isNone && q.tier.isNone && s.unsent q)).foldl (fun s q =>
    let s1 : State := { s with flits := s.flits.filter (fun f => !(f.cons == q.id && !f.out)) }
    if q.port.isSome then s1 else s1.discardCons q.id) s

/-- Abandon everything of a core. -/
def State.abandonCore (s : State) (core : Nat) : State :=
  let p := s.phys core
  ((s.modCore p CoreState.dropOps).dropReqs (fun q => q.place == p)).dropSends core

/-- Consignments that have not committed at a core of the bay. -/
def State.landingsIn (s : State) (b : Nat) : List (Nat × Nat) :=
  s.conss.flatMap (fun q => (q.dests.filter (fun d => !(d.committed || d.dropped) && s.bayOf (d.core / 16) == some b)).map
    (fun d => (q.id, d.core)))

/-- Discard every uncommitted consignment addressed to the bay (R87); `reply` answers its sender. -/
def State.discardInto (s : State) (b : Nat) (reply : State → Consign → State) : State :=
  (s.landingsIn b).foldl (fun s x =>
    match s.cons x.1 with
    | none => s
    | some q =>
      match q.dests.find? (fun d => d.core == x.2) with
      | some d => (reply (s.discardAt q d) q).pruneCons
      | none => s) s

/-- A sender outside the group receives DISCARD (R313, Table 10-7): one of this plain whose bay is not armed in the group, or one of a
partner that has not announced it. -/
def State.discardReply (s : State) (g : Nat) (q : Consign) : State :=
  let inside := match q.via with
    | some n => decide (g ∈ (s.link n).groups)
    | none => (s.armedBay q.srcCore).any (fun b => s.groupOf b == g)
  if inside then s else s.replyTo q 4 0 false

/-! ## The fence copy (R98, R260) -/

/-- Clear RETAINED on every slot of a cove (R98). -/
def CoreState.unretain (c : CoreState) (v : Cove) : CoreState :=
  (List.range v.slots).foldl (fun c i =>
    if (c.tag v i).retained then c.setTag v i { c.tag v i with retained := false } else c) c

/-- The part of the tag store a cove uses. -/
def CoreState.coveTags (c : CoreState) (v : Cove) : List (Nat × Tag) :=
  c.tags.filter (fun e => decide (v.tagBase ≤ e.1) && decide (e.1 < v.tagBase + v.slots))

/-- Offsets of the predicate pairs in the core window (R221). -/
def predOffsets : List Nat := (List.range 7).flatMap (fun n => (List.range 5).map (fun k => 0x200 + n * 0x30 + k * 8))

/-- The credit words of the route table: the upper words of its entries. -/
def creditKeys : List Nat := (List.range 256).map (fun e => 2 * e + 1)

/-- The fence copy of a core (R98, R174, R227, R260, R283). -/
def CoreState.fenceCopy (c : CoreState) : FenceCore where
  coves := c.coves.map (fun v => ⟨v.n, c.reg (F.coveCfg_enable.addr v.n), v.tagBase, c.coveTags v, c.reg (F.covePtr_head.addr v.n)⟩)
  xregs := c.xregs
  off := c.iss.off
  lease := c.get F.ldgLeaseAct_set
  desc := c.desc
  preds := predOffsets.map (fun o => (o, c.reg o))
  credit := creditKeys.map (fun k => (k, field (Sparse.get 0 c.route k) 24 0)) |>.map (fun x => (x.1, BitVec.ofNat 64 x.2))
  tagNow := c.reg (F.corTagNow_tag.addr 0)
  countNow := c.reg (F.corCountNow_count.addr 0)
  waits := c.iss.atFence

/-- The windows on coves of a bay's cores. -/
def State.bayWindows (s : State) (b : Nat) : List Nat :=
  (s.wins.map (fun w => w.1)).filter (fun n => s.flag F.hbrWinCtl_open n && s.bayOf ((s.win n).core / 16) == some b)

/-- Take the fence copy of a bay: RETAINED clears first (R98, R260). -/
def State.takeFence (s : State) (b : Nat) : State :=
  let s1 := (s.bayCores b).foldl (fun s k =>
    s.modCore (s.phys k) (fun c => c.coves.foldl (fun c v => c.unretain v) c)) s
  s1.modBay b (fun y => { y with
    copy := (s1.bayCores b).map (fun k => (k, (s1.core (s1.phys k)).fenceCopy))
    wins := (s1.bayWindows b).map (fun n => ⟨n, s1.window n, s1.get F.hbrWinStat_grantPtr n⟩) })

/-! ## The restore (R99, R260, R267) -/

/-- A cove enabled as the copy holds it takes its tags and pointers back; every other cove stays as it stands (R99). -/
def CoreState.restoreCove (c : CoreState) (k : CoveCopy) : CoreState :=
  if c.flag F.coveCfg_enable k.n && c.reg (F.coveCfg_enable.addr k.n) == k.cfg && c.get F.coveAux_tagBase k.n == k.tagBase then
    let v := c.cove k.n
    let c1 : CoreState := { c with
      tags := k.tags.foldl (fun m e => Sparse.set Tag.ebb m e.1 e.2) (Sparse.clear c.tags v.tagBase (v.tagBase + v.slots)) }
    let c2 := c1.setReg (F.covePtr_head.addr k.n) k.ptr
    { c2 with lastLevel := Sparse.set 0 c2.lastLevel k.n (c2.level v) }
  else c

/-- Every field that a restore writes counts as changed by the plain (R416): the lease set, the predicates, the current command, the
descriptors and the credit words. -/
def CoreState.restoreMoved (c : CoreState) : CoreState :=
  let whole := [F.ldgLeaseAct_set.base, F.corTagNow_tag.base, F.corCountNow_count.base] ++ predOffsets
  let tables := (List.range 64).flatMap (fun e => [(F.corDescLo_data.base, e), (F.corDescHi_data.base, e)]) ++
    (List.range 256).map (fun e => (F.corRouteHi_dest.base, e))
  { c with cyc.moved := c.cyc.moved ++ whole.map (fun o => (o, 0)) ++ tables }

/-- What else of the core the copy holds: registers, fetch position, lease set, descriptors, predicates, credit, tag and count. -/
def CoreState.restoreRegs (c : CoreState) (x : FenceCore) : CoreState :=
  let c1 := x.preds.foldl (fun c e => c.setReg e.1 e.2) c
  let c2 := ((c1.put F.ldgLeaseAct_set x.lease).setReg (F.corTagNow_tag.addr 0) x.tagNow).setReg (F.corCountNow_count.addr 0) x.countNow
  { c2 with
    xregs := Sparse.ofList 0 x.xregs
    desc := Sparse.ofList 0 x.desc
    route := x.credit.foldl (fun m e => Sparse.set 0 m e.1 (setField (Sparse.get 0 m e.1) 24 0 e.2.toNat)) c2.route
    fetchWin := [] }

/-- The core after a restore: one that waited on its fence mark at the copy waits there again, from this tick on, unless a program fault or the
loss of its context has stopped it for good; one that was stopped stays stopped. -/
def CoreState.resumeAtFence (c : CoreState) (now : Nat) (x : FenceCore) : CoreState :=
  let goes := x.waits && !c.flag F.corCtl_faulted && !c.iss.lost
  { (c.put F.corCtl_stopped (b2n !goes)) with
    iss := { c.iss with
      off := x.off
      tag := BitVec.ofNat 24 (field x.tagNow 23 0)
      running := goes
      stopping := false
      cut := false
      restoring := false
      broke := false
      atFence := goes
      passFence := false
      markWait := if goes then some now else none
      deadline := none
      scal := none
      sync := none
      slot := if goes then some (c.codeSlot x.off) else none } }

/-- The grant state of a window goes back to what it was at the fence; whether it closes, and when it sent its last message, stay
as they are (R99). -/
def State.restoreWindow (s : State) (n : Nat) (granted : List Nat) (ptr : Nat) : State :=
  (s.modWindow n (fun w => { w with granted := granted })).put F.hbrWinStat_grantPtr ptr n

/-- Restore the fence copy of a bay (R99, R260). A window that has opened since the fence had granted nothing then: DEDUCED, log
entry 140, its pointer is where its opening set it. -/
def State.restoreFence (s : State) (b : Nat) : State :=
  let y := s.bay b
  let s1 := y.copy.foldl (fun s e => s.modCore (s.phys e.1) (fun c =>
    (((e.2.coves.foldl (fun c k => c.restoreCove k) c).restoreRegs e.2).restoreMoved).resumeAtFence s.now e.2)) s
  let s2 := ((s1.bayWindows b).filter (fun n => !y.wins.any (fun w => w.win == n))).foldl (fun s n => s.restoreWindow n [] (s.win n).first) s1
  y.wins.foldl (fun s w => s.restoreWindow w.win w.state.granted w.ptr) s2

/-- Items 1 to 4 of R267: abandon, discard with a DISCARD reply to senders outside the group (Table 10-7), and note the step whose late flits are dropped. -/
def State.abandonBay (s : State) (b : Nat) : State :=
  let s1 := (s.bayCores b).foldl (fun s k => s.abandonCore k) s
  (s1.discardInto b (fun s q => s.discardReply (s.groupOf b) q)).modBay b (fun y => { y with oldStep := some (s.stepStartAt b / s.frameLen b % 256) })

/-! ## Fencing for a mend (R313) -/

/-- A bay fences: its cores stop as under R265, its landings are discarded, and it keeps its fence copy. -/
def State.fenceBay (s : State) (b : Nat) : State :=
  if (s.bay b).fenced then s
  else
    let s1 := (s.bayCores b).foldl (fun s k => s.modCore (s.phys k) (fun c =>
      if c.flag F.corCtl_stopped then c else c.stopShort)) s
    ((s1.discardInto b (fun s q => s.discardReply (s.groupOf b) q)).put F.tidStep_guardBreach 0 b).modBay b (fun y =>
      { y with fenced := true, breached := false, restored := false })

/-- Every armed bay of the group fences, and a mend beacon goes out (R313). -/
def State.fenceGroup (s : State) (g step : Nat) : State :=
  ((s.beaconBays g step).foldl (fun s b => s.fenceBay b) s).beaconOnce 2 g step (.mend g step)

/-- Hold a bay at its fence after a repeat breach or a mend outside the promise (R268, R305, R327); one fenced in its step goes
back to the fence of the step first. -/
def State.holdBay (s0 : State) (b : Nat) : State :=
  let s := if (s0.bay b).fenced then (s0.abandonBay b).restoreFence b else s0
  ((s.put F.tidStep_halted 1 b).put F.tidStep_guardBreach 0 b).modBay b (fun y =>
    { y with fenced := false, breached := false, restored := false, resumeAt := none })

end Sys2Proof.Machine
end

