-- ==== Sys2Proof/Machine/Strait.lean ====
section
/-! DEFINITION. Strait ports (R24, R25, R248 to R253, R287 to R293, R403): link states, identity, measuring and alignment, blocks, and
what a loss of a link does. -/

namespace Sys2Proof.Machine

/-- A command for a strait port. -/
def onPort (port : Nat) (s : State) (f : State → State) : Out :=
  if port < 48 then .next (f s) else .fault (.noSuchPort port)

/-- State of a link (Table 10-6). -/
def State.linkState (s : State) (n : Nat) : Nat := s.get F.strStat_state n

/-- A link enters a state. -/
def State.setLink (s : State) (n st : Nat) : State := (s.put F.strStat_state st n).modLink n (fun l => { l with since := s.now })

/-! ## SCHED_OK (R250, R292) -/

/-- The link may carry scheduled traffic. -/
def State.schedOk (s : State) (n : Nat) : Bool :=
  s.linkState n == 5 && s.flag F.tidLink_fit n && (s.link n).matched && s.flag F.tidStat_aligned && !s.flag F.tidStat_ahead

/-- SCHED_OK of every link as it holds now. -/
def State.refreshSched (s : State) : State :=
  (List.range 48).foldl (fun s n => s.put F.strStat_schedOk (b2n (s.schedOk n)) n) s

/-! ## Loss (R287, R288, R293) -/

/-- Armed bays with traffic over a port, each with the lowest core that uses it: a SEND in flight over it, or a landing arriving
over it that has not committed. `sched` leaves elastic traffic out. -/
def State.cutBays (s : State) (n : Nat) (sched : Bool) : List (Nat × Nat) :=
  let out := (s.conss.filter (fun q => q.port == some n && q.via.isNone && (!sched || !q.elastic) &&
    s.flits.any (fun f => f.cons == q.id))).map (fun q => q.srcCore)
  let arriving := (s.conss.filter (fun q => q.via == some n && (!sched || !q.elastic))).flatMap (fun q =>
    (q.dests.filter (fun d => !(d.committed || d.dropped))).map (fun d => d.core))
  let users := (out ++ arriving).filterMap (fun k => (s.armedBay k).map (fun b => (b, k)))
  ((users.map (fun x => x.1)).eraseDups).map (fun b =>
    (b, ((users.filter (fun x => x.1 == b)).foldl (fun m x => min m x.2) 1279)))

/-- Traffic over a lost link ends: SENDs that have not passed their commit are abandoned, arrivals whose LAST flit has not landed are
discarded (R287, R288). -/
def State.cutTraffic (s : State) (n : Nat) (sched : Bool) : State :=
  let out := s.conss.filter (fun q => q.port == some n && q.via.isNone && (!sched || !q.elastic))
  let s1 : State := { s with flits := s.flits.filter (fun f => !out.any (fun q => q.id == f.cons)) }
  (s1.conss.filter (fun q => q.via == some n && (!sched || !q.elastic) && q.dests.any (fun d => !allLanded q d))).foldl
    (fun s q => s.discardCons q.id) s1

/-- The link goes DOWN with a cause (R293), and returns to TRAIN while ENABLE is 1. -/
def State.takeDown (s : State) (n cause : Nat) : State :=
  if s.linkState n = 0 then s
  else
    let cut := s.cutBays n false
    let s1 := s.cutTraffic n false
    let s2 := (((s1.put F.strStat_lastEvent cause n).bump F.strStat_downs 1 n).put F.strStat_elasticOk 0 n).put F.strStat_schedOk 0 n
    let s3 := ((s2.put F.tidLink_valid 0 n).put F.tidLink_fit 0 n).linkEvent n
    (s3.modLink n (fun l => { Link.down with lost := l.lost ++ cut, control := [] })).setLink n (b2n (s.flag F.strCfg_enable n))

/-- ENABLE 1 in DOWN: the link trains. -/
def State.linkStart (s : State) (n : Nat) : State := if s.linkState n = 0 && s.loader.outputs then s.setLink n 1 else s

/-- LINK_DOWN: for lock loss (2) or errors (6), once R293 gives the cause. -/
def execLinkDown (port cause : Nat) (s : State) : Out :=
  onPort port s (fun s =>
    let l := s.link port
    let errors : Nat := (l.badWords.filter (fun x => decide (s.now < x.1 + 1000000))).foldl (fun (m : Nat) x => m + x.2) 0
    if (cause = 2 ∧ 64 ≤ l.badRun) ∨ (cause = 6 ∧ 16 < errors) then s.takeDown port cause else s)

/-- The tag a core's fault carries when no word raised it: its current command tag. -/
def CoreState.nowInfo (c : CoreState) (cls unit : Nat) : FaultInfo :=
  { cls, unit, tag := c.iss.tag, off := c.iss.curOff / 4 }

/-- The start of a core's step, where its bay is armed. -/
def State.stepAt (s : State) (core : Nat) : Option Nat := (s.armedBay core).map (fun b => s.stepStartAt b)

/-- LINK_LOST (R288): LINK_LOST in the lowest core of each bay whose traffic was cut, and the bay's step fences. The UNIT of the
record is a free value. -/
def execLinkLost (port : Nat) (s : State) : Out :=
  onPort port s (fun s =>
    let l := s.link port
    (l.lost.filter (fun x => s.armed x.1)).foldl (fun s x =>
      let p := s.phys x.2
      let s1 := s.used.modCore p (fun c => c.hwFault s.now (s.stepAt x.2) (c.nowInfo clsLink (Config.freeNat s.fresh % 11)))
      let s2 := s1.fenceGroup (s.groupOf x.1) (s.stepOf x.1)
      { s2 with linkFaults := Sparse.set ⟨0, 0, 0⟩ s2.linkFaults (port * 128 + x.1) ⟨x.1, x.2, s.now⟩ })
      (s.modLink port (fun l => { l with lost := [] })))

/-! ## Bring-up (R289 to R292, R403) -/

/-- LINK_TRAIN_DONE: all four lanes have trained; the channel record is kept, and the link enters LOCK. -/
def execLinkTrainDone (port : Nat) (loss margin : BitVec 16) (s : State) : Out :=
  onPort port s (fun s =>
    if s.linkState port = 1 then
      { s.setLink port 2 with
        channels := Sparse.set 0 s.channels port (BitVec.ofNat 64 (2 ^ 63 + 15 * 2 ^ 40 + margin.toNat * 2 ^ 24 + loss.toNat)) }
    else s)

/-- LINK_LOCK_DONE: the link enters EXCHANGE. -/
def execLinkLockDone (port : Nat) (s : State) : Out :=
  onPort port s (fun s =>
    if s.linkState port = 2 then
      (s.setLink port 3).modLink port (fun l => { l with recordAt := none, acked := false, got := false, matched := false })
    else s)

/-- LINK_STATE_TIMEOUT (Table 10-6): TRAIN restarts and counts DOWNS; LOCK and EXCHANGE go back to TRAIN. -/
def execLinkStateTimeout (port : Nat) (s : State) : Out :=
  onPort port s (fun s =>
    let t := s.now - (s.link port).since
    match s.linkState port with
    | 1 => if 500000000 ≤ t then ((s.put F.strStat_lastEvent 1 port).bump F.strStat_downs 1 port).setLink port 1 else s
    | 2 => if 1000000 ≤ t then (s.put F.strStat_lastEvent 2 port).setLink port 1 else s
    | 3 => if 1000000 ≤ t then (s.put F.strStat_lastEvent 5 port).setLink port 1 else s
    | _ => s)

/-- The capability record of this plain on a port (R290). -/
def State.ownRecord (s : State) (port : Nat) : CapRecord where
  part := BitVec.ofNat 64 (s.get F.plnId_class * 2 ^ 48 + s.get F.plnId_stepping * 2 ^ 44 + s.get F.plnId_geomCode * 2 ^ 32 +
    port * 2 ^ 26 + b2n (s.get F.imgStat_state == 6) * 2 ^ 11 + s.hall)
  dieLo := s.reg (F.plnDieLo_die.addr 0)
  dieHi := s.reg (F.plnDieHi_die.addr 0)
  depth := s.get F.tidStat_depth
  root := s.flag F.tidStat_root
  aligned := s.flag F.tidStat_aligned

/-- Both records have been received and acknowledged: the link enters MEASURE, where it carries elastic traffic (R292). DESIGN
CHOICE, log entry 31: the partner's record acknowledges the one sent before it. -/
def State.exchanged (s : State) (port : Nat) : State :=
  let l := s.link port
  if l.got && l.recordAt.isSome then
    ((s.setLink port 4).put F.strStat_elasticOk 1 port).modLink port (fun l =>
      { l with acked := true, rtts := [], offsets := [], exchanges := 0, steers := [] })
  else s

/-- CAPABILITY_RECORD_SEND: every 16 µs in EXCHANGE until it is acknowledged. -/
def execCapabilityRecordSend (port : Nat) (s : State) : Out :=
  onPort port s (fun s =>
    let l := s.link port
    if s.linkState port = 3 ∧ !l.acked ∧ l.recordAt.all (fun t => decide (t + 16000 ≤ s.now)) then
      (s.modLink port (fun l => { l with recordAt := some s.now, record := some (s.ownRecord port) })).exchanged port
    else s)

/-- What the identity check makes of a partner (R291): accepted, accepted as new, or a mismatch (none). -/
def State.identity (s : State) (port : Nat) (r : CapRecord) : Option Bool :=
  let pos := field r.part 10 0
  let cls := field r.part 63 48
  let geom := field r.part 39 32
  if s.flag F.strCfg_expValid port then
    if pos = s.get F.strCfg_expPos port then
      if r.dieLo = s.reg (F.strExpDieLo_die.addr port) ∧ r.dieHi = s.reg (F.strExpDieHi_die.addr port) then some false
      else if cls = s.get F.strCfg_expClass port ∧ geom = s.get F.strCfg_expGeom port then some true else none
    else none
  else if cls = s.get F.plnId_class ∧ geom = s.get F.plnId_geomCode then some false else none

/-- CAPABILITY_RECORD_RECEIVE: STR_PART and the partner's die fill, and the identity check runs (R291). -/
def execCapabilityRecordReceive (port : Nat) (r : CapRecord) (s : State) : Out :=
  onPort port s (fun s =>
    if s.linkState port ≠ 3 then s
    else
      let s1 := ((s.setReg (F.strPart_class.addr port) r.part).setReg (F.strPartDieLo_die.addr port) r.dieLo).setReg
        (F.strPartDieHi_die.addr port) r.dieHi
      let s2 := match s.identity port r with
        | some true => ((s1.raiseFlag F.strStat_newDie port).linkEvent port).modLink port (fun l => { l with got := true, matched := true })
        | some false => s1.modLink port (fun l => { l with got := true, matched := true })
        | none => ((s1.put F.strStat_lastEvent 4 port).linkEvent port).modLink port (fun l => { l with got := true, matched := false })
      s2.exchanged port)

/-- LINK_UP: the measurement is VALID. A link that does not fit its hop delay is reported (R24, R250). -/
def execLinkUp (port : Nat) (s : State) : Out :=
  onPort port s (fun s =>
    if s.linkState port = 4 ∧ s.flag F.tidLink_valid port then
      let s1 := (s.setLink port 5).refreshSched
      if s.flag F.tidLink_fit port then s1 else (s1.put F.strStat_lastEvent 3 port).linkEvent port
    else s)

/-! ## Measuring and alignment (R249 to R253) -/

/-- Mean of a list of integers, rounded down. -/
def meanOf (l : List Int) : Int := if l.isEmpty then 0 else l.foldl (· + ·) 0 / l.length

/-- RTT and OFFSET of an exchange (R249), in ps. -/
def exchangeRtt (t1 t2 t3 t4 : Int) : Int := (t4 - t1) - (t3 - t2)
def exchangeOffset (t1 t2 t3 t4 : Int) : Int := ((t2 - t1) - (t4 - t3)) / 2

/-- The link fits its hop delay (R250). -/
def fitsHop (rttPs hop : Nat) : Bool := decide (110 + ceilDiv rttPs 2000 + 2 ≤ hop)

/-- OFFSET_PS as the register shows it: two's complement, saturating. -/
def offsetShown (o : Int) : Nat := unsigned 16 (max (-32767) (min 32767 o))

/-- Some bay of the plain is armed. -/
def State.anyArmed (s : State) : Bool := (List.range 80).any (fun b => s.armed b)

/-- The ticks of a jump by an offset in ps. -/
def jumpTicks (o : Int) : Nat := ((o + 500) / 1000).toNat

/-- The tide counter jumps forward by an offset in ps (R252). DESIGN CHOICE, log entry 138: the offsets measured before are corrected by
the jump, so that their mean stays one of 256 exchanges. -/
def State.jump (s : State) (o : Int) : State :=
  let by_ : Int := jumpTicks o * 1000
  let s1 : State := { s with
    now := (s.now + jumpTicks o) % 2 ^ 64
    links := s.links.map (fun l => (l.1, { l.2 with offsets := l.2.offsets.map (fun x => x - by_), steers := [] })) }
  (s1.links.filter (fun l => !l.2.offsets.isEmpty)).foldl (fun s l =>
    s.put F.tidLink_offsetPs (offsetShown (meanOf l.2.offsets)) l.1) s1

/-- A link that stops fitting while in use loses SCHED_OK; its scheduled traffic is cut (R250, R288, R293). -/
def State.stopFitting (s : State) (n : Nat) : State :=
  if s.linkState n = 5 then
    let cut := s.cutBays n true
    (((s.cutTraffic n true).put F.strStat_lastEvent 3 n).modLink n (fun l => { l with lost := l.lost ++ cut })).linkEvent n
  else s

/-- The mean of an exchange is written, VALID sets at 256 exchanges, and FIT follows (R249, R250); a link on which a flit came too
late does not fit (R248). -/
def State.measured (s : State) (n : Nat) (rtt off : Int) : State :=
  let s1 := s.modLink n (fun l => { l with
    rtts := (l.rtts ++ [rtt]).drop (l.rtts.length + 1 - 256)
    offsets := (l.offsets ++ [off]).drop (l.offsets.length + 1 - 256)
    exchanges := l.exchanges + 1 })
  let l := s1.link n
  let r := (meanOf l.rtts).toNat
  let valid := decide (256 ≤ l.exchanges)
  let fit := valid && fitsHop r (s.get F.tidLink_hopNs n) && !l.late
  let s2 := (((s1.put F.tidLink_rttPs (min (2 ^ 22 - 1) r) n).put F.tidLink_offsetPs (offsetShown (meanOf l.offsets)) n).put F.tidLink_valid
    (b2n valid) n).put F.tidLink_fit (b2n fit) n
  if s.flag F.tidLink_fit n && !fit then s2.stopFitting n else s2

/-- The exchanges that count towards ALIGNED: the last 1,024 since alignment began (R253). -/
def State.steer (s : State) (n : Nat) (o : Int) : State :=
  s.modLink n (fun l => { l with steers := (l.steers ++ [o]).drop (l.steers.length + 1 - 1024) })

/-- Alignment to the parent (R252, R253): AHEAD, a jump forward, or steering, of which SLEW shows that it goes on; ALIGNED sets by the
mean of 1,024 exchanges and clears by the running mean. ERR_PS is a free value of at most 400. `off` is the offset of this exchange. -/
def State.align (s : State) (n depth : Nat) (off : Int) : State :=
  let o := meanOf (s.link n).offsets
  if o < -300 then
    (((s.put F.tidStat_ahead 1).put F.tidStat_aligned 0).put F.strStat_lastEvent 7 n).linkEvent n
  else if 300 < o ∧ !s.anyArmed then
    (((s.put F.tidStat_depth (depth + 1)).put F.tidStat_slew 1).put F.tidStat_aligned 0).jump o
  else if 300 < o then s.put F.tidStat_aligned 0
  else
    let s1 := (s.put F.tidStat_depth (depth + 1)).steer n off
    let l := (s1.link n).steers
    if l.length = 1024 ∧ (meanOf l).natAbs < 50 ∧ !s.flag F.tidStat_aligned then
      ((s1.used.put F.tidStat_aligned 1).put F.tidStat_slew 0).put F.tidStat_errPs (Config.freeNat s.fresh % 401)
    else if s.flag F.tidStat_aligned then s1 else s1.put F.tidStat_slew 1

/-- The largest offset of a partner over the links with a valid mean. -/
def State.largestOffset (s : State) : Int :=
  (s.links.filter (fun l => decide (l.1 < 48) && s.flag F.tidLink_valid l.1 && !l.2.offsets.isEmpty)).foldl (fun m l => max m (meanOf l.2.offsets)) 0

/-- A parent that is not aligned gives nothing to align to, but an offset beyond 0.3 ns still clears ALIGNED (R253). -/
def State.drift (s : State) (n : Nat) : State :=
  if 300 < (meanOf (s.link n).offsets).natAbs then s.put F.tidStat_aligned 0 else s

/-- BEACON_EXCHANGE: RTT and OFFSET, fit, and alignment over the parent's link; the hall root jumps to the largest count a
partner reports until one of its bays is armed (R252). -/
def execBeaconExchange (port : Nat) (t1 t2 t3 t4 : Int) (parentOk : Bool) (parentDepth : Nat) (s : State) : Out :=
  onPort port s (fun s =>
    if s.linkState port < 4 then s
    else
      let off := exchangeOffset t1 t2 t3 t4
      let s1 := s.measured port (exchangeRtt t1 t2 t3 t4) off
      let ready := s1.flag F.tidLink_valid port && !s1.flag F.tidStat_ahead && !(s1.link port).offsets.isEmpty
      let s2 :=
        if s.flag F.tidCfg_root then if 300 < s1.largestOffset ∧ !s1.everArmed then s1.jump s1.largestOffset else s1
        else if ready && s.get F.tidCfg_parent == port then (if parentOk then s1.align port parentDepth off else s1.drift port)
        else s1
      s2.refreshSched)

/-! ## Blocks (R248, R289, Table 10-5) -/

/-- The open record of a landing that leaves by a strait. -/
def openRecord (lane : Nat) (q : Consign) : OpenRecord where
  lane := lane
  stamp := q.w.stamp
  epoch := q.epoch
  step := q.stepNo
  cid := q.cid
  srcCore := q.srcCore
  dstCore := Config.farCore q.dstPos q.win
  dstPos := q.dstPos
  srcPos := q.srcPos
  win := q.win
  slot := q.slot
  elastic := q.elastic

/-- The plan runs of a strait's egress. -/
def State.straitPlan (s : State) (n : Nat) : List (Nat × Reg64) :=
  s.strPlan.filter (fun e => e.1 / 1024 == n)

/-- Flits that wait at the egress of a port, first of their consignments, with their consignments. -/
def State.egress (s : State) (n : Nat) : List (Flit × Consign) :=
  s.flits.filterMap (fun f => if f.out && s.leads f && decide (f.ready ≤ s.now) then
    (match s.cons f.cons with
     | some q => if q.port == some n then some (f, q) else none
     | none => none) else none)

/-- The lane of a consignment, and the lowest free lane. -/
def laneOf (l : Link) (id : Nat) : Option Nat := (l.lanesOut.find? (fun e => e.2 == id)).map (fun e => e.1)
def freeLane (l : Link) : Option Nat := (List.range 16).find? (fun k => !l.lanesOut.any (fun e => e.1 == k))

/-- A flit takes a position: an open record where its consignment has no lane yet, else the flit itself; none when no lane is free. -/
def State.takePosition (s : State) (n : Nat) (f : Flit) (q : Consign) : Option (StraitSlot × State) :=
  match laneOf (s.link n) q.id with
  | some k =>
    some (.data k f.seq f.last (f.chunks.map (fun x => x.1)),
      { s.modLink n (fun l => { l with lanesOut := if f.last then l.lanesOut.filter (fun e => e.1 != k) else l.lanesOut }) with
        flits := s.flits.erase f })
  | none =>
    match freeLane (s.link n) with
    | some k => some (.opening (openRecord k q), s.modLink n (fun l => { l with lanesOut := l.lanesOut ++ [(k, q.id)] }))
    | none => none

/-- Key of a stream on a strait. -/
def straitKey (n stream : Nat) : Nat := streamKey (10240 + n) stream

/-- A scheduled flit takes a position, which counts for its stream (R262). -/
def State.takeSched (s : State) (n : Nat) (x : Flit × Consign) : Option (StraitSlot × State) :=
  (s.takePosition n x.1 x.2).map (fun r => (r.1, r.2.countSent (s.straitPlan n) (straitKey n x.2.stream) x.2.stream 5 true))

/-- One position of the block, at its tick: a scheduled flit that may take it, then a grant or reply, then an elastic flit; one that is
still to come and that a plan reserves is left for its tick. -/
def State.fillPosition (s : State) (n tick : Nat) : StraitSlot × State :=
  let all := s.egress n
  let plan := s.straitPlan n
  let sched := if s.flag F.strStat_schedOk n then all.filter (fun x => !x.2.elastic) else []
  let goes := sched.find? (fun x => s.planAllows plan
    ((sched.filter (fun y => y.2.id != x.2.id)).map (fun y => y.2.stream)) (straitKey n x.2.stream) x.2.stream 5 tick true)
  match goes.bind (s.takeSched n) with
  | some r => r
  | none =>
    match (s.link n).control with
    | m :: rest => (m, s.modLink n (fun l => { l with control := rest }))
    | [] =>
      if s.now < tick ∧ (s.planHolder plan 5 tick true).isSome then (.empty, s)
      else match (all.find? (fun x => x.2.elastic)).bind (fun x => s.takePosition n x.1 x.2) with
      | some r => r
      | none => (.empty, s)

/-- Fill positions from a tick on. -/
def State.fillPositions (s : State) (n : Nat) (k tick : Nat) : List (StraitSlot × Bool) × State :=
  match k with
  | 0 => ([], s)
  | k + 1 =>
    let r := s.fillPosition n tick
    let rest := r.2.fillPositions n k (tick + 1)
    ((r.1, false) :: rest.1, rest.2)

/-- The perturbation point of a strait holds the flits that wait at its egress (R441). -/
def State.straitHold (s : State) (n : Nat) : State :=
  ((s.egress n).filter (fun x => !x.1.drawn && (if x.2.elastic then s.sel F.prtStrait_elastic n == 1 else s.sel F.prtStrait_sched n == 1))).foldl
    (fun s x =>
      let h := s.perturb (8208 + n) (s.sel F.prtStrait_delay n) (s.sel F.prtStrait_jit n) (s.sel F.prtStrait_duty n) (s.replaying (x.2.srcCore / 16))
      { h.1 with flits := h.1.flits.map (fun f => if f = x.1 then { f with ready := s.now + h.2, drawn := true } else f) }) s

/-- Groups armed on this plain, as its blocks announce them. -/
def State.armedGroups (s : State) : List Nat :=
  (((List.range 80).filter (fun b => s.armed b)).map (fun b => s.groupOf b)).eraseDups

/-- The timestamped beacon that a block carries every 4,096 ns once the link has trained, with what it reports of this plain (R249,
R252). -/
def State.timeBeacon (s : State) (n : Nat) : List Beacon :=
  if (s.link n).beaconAt.all (fun t => decide (t + 4096 ≤ s.now)) then
    [.measure s.now (s.flag F.tidStat_aligned) (s.flag F.tidCfg_root) (s.get F.tidStat_depth)]
  else []

/-- A position of the block under way that stands empty takes what has reached the port by its tick (Table 10-5). -/
def State.fillLate (s : State) (n : Nat) : State :=
  match (s.link n).sent with
  | none => s
  | some b =>
    let i := s.now - b.tick
    if 0 < i ∧ i < 25 ∧ s.flag F.strStat_elasticOk n ∧ (b.slots[i]?).any (fun x => x.1 == .empty) then
      let r := s.fillPosition n s.now
      (r.2.modLink n (fun l => { l with sent := some { b with slots := b.slots.set i (r.1, false) } })).settleRevokes
    else s

/-- STRAIT_BLOCK_SEND: at every tick with t mod 32 = 0 a locked port sends a block. -/
def execStraitBlockSend (port : Nat) (s : State) : Out :=
  onPort port s (fun s =>
    if s.now % 32 = 0 ∧ 2 ≤ s.linkState port then
      let r := if s.flag F.strStat_elasticOk port then (s.straitHold port).fillPositions port 25 s.now
        else (List.replicate 25 (.empty, false), s)
      let l := s.link port
      let time := s.timeBeacon port
      (r.2.modLink port (fun k => { k with
        beacons := []
        beaconAt := if time.isEmpty then k.beaconAt else some s.now
        sent := some ⟨s.now, r.1, l.beacons ++ [.armed s.armedGroups] ++ time, 0, true⟩ })).settleRevokes
    else s)

/-- The core of this plain that a grant from a partner's window is for: the lowest whose route table names it. -/
def State.granteeOf (s : State) (plain win : Nat) : Nat :=
  ((List.range 1280).find? (fun k => ((s.core (s.phys k)).routeTo plain win).isSome)).getD 0

/-- The consignment an open record describes. -/
def State.arrival (s : State) (port : Nat) (r : OpenRecord) : Consign :=
  { id := s.fresh
    kind := 3
    srcCore := r.srcCore
    srcPos := r.srcPos
    dstPos := r.dstPos
    ctx := 0
    w := ⟨0, true, r.stamp, none, none, 0, 0, 0⟩
    stream := 0
    elastic := r.elastic
    epoch := r.epoch
    stepNo := r.step
    cid := r.cid
    win := r.win
    slot := r.slot
    port := none
    via := some port
    lane := some r.lane
    lands := []
    flits := none
    dests := [Dest.to (s.win r.win).core]
    firstAt := 0
    diverted := false
    divert := []
    tier := none }

/-- HOP_NS for a flit sent in a tick: a new value applies to flits sent from the tick after its write (R248). -/
def State.hopAt (s : State) (port tick : Nat) : Nat :=
  (((s.link port).hops.find? (fun h => decide (tick ≤ h.1))).map (fun h => h.2)).getD (s.get F.tidLink_hopNs port)

/-- HOP_NS is about to be written: the value before is kept for the flits under way, and the link may fit again. -/
def State.noteHop (s : State) (port : Nat) : State :=
  s.modLink port (fun l => { l with
    hops := l.hops.filter (fun h => decide (s.now < h.1 + 8192)) ++ [(s.now, s.get F.tidLink_hopNs port)]
    late := false })

/-- A position of an arriving block reached the port: the whole block has at `now`, and each of its 25 positions 31 − i ticks before.
DEDUCED, log entry 137. -/
def arrivedAt (now i : Nat) : Nat := now - (31 - i)

/-- One position of an arriving block (R248, R289): released at its tick and HOP_NS; a flit for another plain is dropped and counted; a
scheduled flit that reached the port later than 2 ns before its release means that the link no longer fits. A reply with a reserved code is
dropped and counted (Table 10-7). -/
def State.takeSlot (s : State) (port tick i : Nat) (x : StraitSlot) (bad : Bool) : State :=
  let drop (s : State) : State := s.bump F.strStat_misroute 1 port
  match x with
  | .empty => s
  | .opening r =>
    if r.dstPos = s.hall then
      { (s.modLink port (fun l => { l with lanesIn := Sparse.set 0 l.lanesIn r.lane (s.fresh + 1) })) with
        conss := s.conss ++ [s.arrival port r]
        fresh := s.fresh + 1 }
    else s.modLink port (fun l => { l with lanesIn := Sparse.set 0 l.lanesIn r.lane 0 })
  | .data lane seq last chunks =>
    match Sparse.get 0 (s.link port).lanesIn lane with
    | 0 => drop s
    | id + 1 =>
      let s0 := if last then s.modLink port (fun l => { l with lanesIn := Sparse.set 0 l.lanesIn lane 0 }) else s
      match s.cons id with
      | none => s0
      | some q =>
        let release := tick + i + s.hopAt port (tick + i)
        let late := !q.elastic && decide (release < arrivedAt s.now i + 2)
        let s1 : State := { s0 with flits := s0.flits ++ [⟨id, seq, last, chunks.map (fun c => (c, bad)), straitX port, straitY port, 5,
          q.dests.map (fun d => d.core), release, false, false, false⟩] }
        if late then (((s1.put F.tidLink_fit 0 port).put F.strStat_schedOk 0 port).modLink port (fun l => { l with late := true })).stopFitting port
        else s1
  | .grant dstPos win first count =>
    if dstPos = s.hall then
      { s with msgs := s.msgs ++ [⟨.grant dstPos win first count, s.granteeOf (s.get F.strPart_pos port) win, none⟩] }
    else drop s
  | .reply dstPos srcPos core win code found dropped cid =>
    if dstPos ≠ s.hall then drop s
    else if 5 ≤ code then s.bump F.hbrStat_dropped
    else { s with msgs := s.msgs ++ [⟨.reply dstPos srcPos core win code found dropped cid, core, none⟩] }

/-- STRAIT_BLOCK_RECEIVE: lock and errors are counted, the announced groups kept, and each position taken. Beacons of breach, repeat,
mend and resume that the control field carries arrive by their own commands. -/
def execStraitBlockReceive (port : Nat) (b : StraitBlock) (s : State) : Out :=
  onPort port s (fun s =>
    if s.linkState port < 2 then s
    else
      let s1 := s.modLink port (fun l => { l with
        badRun := if b.locked then 0 else l.badRun + 1
        badWords := (l.badWords.filter (fun x => decide (s.now < x.1 + 1000000))) ++ (if b.badCodewords = 0 then [] else [(s.now, b.badCodewords)])
        groups := b.control.foldl (fun g x => match x with
          | .armed l => l
          | _ => g) l.groups })
      let s2 := s1.bump F.strStat_fecUe b.badCodewords port
      if s.flag F.strStat_elasticOk port then
        b.slots.zipIdx.foldl (fun s x => s.takeSlot port b.tick x.2 x.1.1 x.1.2) s2
      else s2)

end Sys2Proof.Machine
end

