-- ==== Sys2Proof/Machine/Schedule.lean ====
section
/-! DEFINITION. Step grids, breach and replay, deadlines, and the announced load (R32, R206 to R210, R219, R254 to R269, R275, R345). -/

namespace Sys2Proof.Machine

/-- A command for a bay. -/
def onBay (bay : Nat) (s : State) (f : State → State) : Out :=
  if bay < 80 then .next (f s) else .fault (.noSuchBay bay)

/-! ## Arming (R255) -/

/-- A write of ARM 1 may take effect: `v` is the value written to TID_SCHED. -/
def State.mayArm (s : State) (b : Nat) (v : Reg64) : Bool :=
  decide (2 ≤ field v 15 0) && decide (10 ≤ field v 19 16) && decide (field v 19 16 ≤ 16) &&
  decide (s.now + 2 * 2 ^ field v 19 16 ≤ s.stepStartAt b)

/-- The grid runs: no step has started since ARM. -/
def State.armBay (s : State) (b : Nat) (v : Reg64) : State :=
  let s1 := (s.setReg (F.tidSched_arm.addr b) v).modBay b (fun _ =>
    { BayRun.idle with frames := field v 15 0, base := field v 60 48, drainAt := (s.bay b).drainAt })
  (((({ s1 with everArmed := true } : State).forgetTold (field v 47 32)).put F.tidStep_stepNo 0 b).put F.tidStep_replay 0 b).put F.tidStep_guardBreach 0 b

/-- STEP_FRAMES and FTAB_BASE written while ARM is 1: they apply at the first step start at least F later. -/
def State.regrid (s : State) (b : Nat) (v : Reg64) : State :=
  (s.setReg (F.tidSched_arm.addr b) v).modBay b (fun y => { y with writes := y.writes ++ [(s.now, field v 15 0, field v 60 48)] })

/-- The write changes nothing but STEP_FRAMES and FTAB_BASE. -/
def State.sameGrid (s : State) (b : Nat) (v : Reg64) : Bool :=
  let old := s.reg (F.tidSched_arm.addr b)
  setField (setField v 15 0 0) 60 48 0 == setField (setField old 15 0 0) 60 48 0

/-- A write of ARM 0 may take effect: every core is stopped, or the bay is held (R255). -/
def State.mayDisarm (s : State) (b : Nat) : Bool := s.bayStopped b || s.flag F.tidStep_halted b

/-- The core stops where it stands at its fence. -/
def CoreState.stopHere (c : CoreState) : CoreState :=
  { (c.put F.corCtl_stopped 1).put F.corDeadline_deadline 0 with
    waits := []
    iss := { c.iss with running := false, stopping := false, cut := false, atFence := false, passFence := false, markWait := none, deadline := none } }

/-- The grid stops; each core of a held bay sets STOPPED, and HALTED clears (R255). -/
def State.disarmBay (s : State) (b : Nat) (v : Reg64) : State :=
  let s1 := if s.flag F.tidStep_halted b then
      (s.bayCores b).foldl (fun s k => s.modCore (s.phys k) CoreState.stopHere) s
    else s
  ((s1.setReg (F.tidSched_arm.addr b) v).put F.tidStep_halted 0 b).modBay b (fun _ => { BayRun.idle with drainAt := (s.bay b).drainAt })

/-! ## Draining (R345) -/

/-- GO: the cores of the bay stop at their next fence mark. -/
def State.drainBay (s : State) (b : Nat) : State :=
  (s.put F.bayDrain_go 1 b).modBay b (fun y => { y with drainAt := some s.now })

/-! ## Step starts (R260, R98) -/

/-- The start of the step to come, and whether its tick has been reached. -/
def State.nextStart (s : State) (b : Nat) : Nat := if (s.bay b).started then s.stepEndAt b else s.stepStartAt b

/-- The bay may start its next step: nothing of the last one is being resolved, and every core has reached its fence. -/
def State.mayStart (s : State) (b : Nat) : Bool :=
  let y := s.bay b
  s.armed b && !s.flag F.tidStep_halted b && !s.railHeld && !y.breached && !y.restored && !y.fenced && decide (s.nextStart b ≤ s.now) &&
  (!y.started || (s.bayCores b).all (fun k => s.reachedFence (s.phys k)))

/-- Cores that wait on their fence mark issue it, or stop instead in a bay that drains. -/
def CoreState.leaveFence (c : CoreState) (drain : Bool) : CoreState :=
  if !c.iss.atFence then c
  else if drain then { c.stopIssue with iss.atFence := false }
  else { c with iss.passFence := true }

/-- Consignments of past steps that were sent to other plains and whose flits have all left. -/
def State.pruneSent (s : State) : State :=
  { s with conss := s.conss.filter (fun q => !(q.port.isSome && !s.flits.any (fun f => f.cons == q.id))) }

/-- STEP_FRAMES and FTAB_BASE of a step that starts at a tick: the last written at least F before (R255). -/
def State.gridAt (s : State) (b at_ : Nat) : Nat × Nat :=
  let y := s.bay b
  match (y.writes.filter (fun w => decide (w.1 + s.frameLen b ≤ at_))).getLast? with
  | some w => w.2
  | none => (y.frames, y.base)

/-- A step starts: the numbers move on, RETAINED clears, the fence copy is taken and the fence marks may issue. -/
def State.startStep (s : State) (b : Nat) : State :=
  let at_ := s.nextStart b
  let y := s.bay b
  let grid := s.gridAt b at_
  let s1 := ((s.put F.tidStart_start at_ b).wrap F.tidStep_stepNo 1 b).put F.tidStep_replay 0 b
  let s2 := (s1.put F.tidStep_guardBreach 0 b).modBay b (fun y => { y with
    frames := grid.1
    base := grid.2
    writes := y.writes.filter (fun w => decide (at_ < w.1 + s.frameLen b))
    started := true
    repeated := false
    mendReplay := false
    oldStep := none
    frame := 0 })
  let s3 := (s2.takeFence b).pruneSent
  let drain := s.flag F.bayDrain_go b && y.drainAt.any (fun t => decide (t + s.frameLen b ≤ at_))
  let s4 := (s3.bayCores b).foldl (fun s k => s.modCore (s.phys k) (fun c => c.leaveFence drain)) s3
  { s4 with gov.spent := (s4.bayShoals b).foldl (fun m k => Sparse.set 0 m k 0) s4.gov.spent }

/-- STEP_START. -/
def execStepStart (bay : Nat) (s : State) : Out :=
  onBay bay s (fun s => if s.mayStart bay then s.startStep bay else s)

/-! ## Frames (R275) -/

/-- FRAME_END: a bay whose charge in the frame exceeded the frame's UNITS counts OVERPLAN. -/
def execFrameEnd (bay : Nat) (s : State) : Out :=
  onBay bay s (fun s =>
    let y := s.bay bay
    if s.armed bay && y.started && decide (y.frame < y.frames) && decide (s.stepStartAt bay + (y.frame + 1) * s.frameLen bay ≤ s.now) then
      let entry := Sparse.get 0 s.ftab ((y.base + y.frame) % 8192)
      let charge := (s.bayShoals bay).foldl (fun m k => m + Sparse.get 0 s.gov.spent k) 0
      let s1 := if 4 * field entry 31 0 < charge then s.bump F.tidStep_overplan 1 bay else s
      { s1.modBay bay (fun y => { y with frame := y.frame + 1 }) with
        gov.spent := (s.bayShoals bay).foldl (fun m k => Sparse.set 0 m k 0) s.gov.spent }
    else s)

/-- Planned power of a bay at a time: that of the frame it stands in then; none before its first step or between a step and its
replay. -/
def State.bayPower (s : State) (b t : Nat) : Nat :=
  let y := s.bay b
  let f := s.frameLen b
  let watts (base start frames : Nat) : Nat :=
    if start ≤ t ∧ 0 < frames then field (Sparse.get 0 s.ftab ((base + (t - start) / f % frames) % 8192)) 47 32 else 0
  let here := if t < s.stepEndAt b then watts y.base (s.stepStartAt b) y.frames else 0
  if !s.armed b || s.flag F.tidStep_halted b then 0
  else if y.breached || y.restored || y.fenced then
    (match y.resumeAt with
     | some r => if r ≤ t then watts y.base r y.frames else here
     | none => here)
  else if !y.started || decide (t < s.stepEndAt b) then watts y.base (s.stepStartAt b) y.frames
  else watts (s.gridAt b (s.stepEndAt b)).2 (s.stepEndAt b) (s.gridAt b (s.stepEndAt b)).1

/-- Budgeted power of the plain at a time, in W. -/
def State.power (s : State) (t : Nat) : Nat := (List.range 80).foldl (fun m b => m + s.bayPower b t) 0

/-- LOAD_STEP_ASSERT (R32): 1 µs before the power rises by more than 200 W. -/
def execLoadStepAssert (s : State) : Out :=
  if s.power (s.now + 999) + 200 < s.power (s.now + 1000) then
    .next { s with pins.loadStep := true, loadStepOff := s.now + 2000 }
  else .next s

/-- LOAD_STEP_RELEASE (R32): 1 µs after the frame has started. -/
def execLoadStepRelease (s : State) : Out :=
  if s.pins.loadStep ∧ s.loadStepOff ≤ s.now then .next { s with pins.loadStep := false } else .next s

/-! ## Breach (R265, R268) -/

/-- Cores of the bay that have not reached the fence. -/
def State.shortCores (s : State) (b : Nat) : List Nat := (s.bayCores b).filter (fun k => !s.reachedFence (s.phys k))

/-- A first breach: the short cores stop issuing, and the breach is recorded. -/
def State.breach (s : State) (b : Nat) (short : List Nat) : State :=
  let s1 := short.foldl (fun s k => s.modCore (s.phys k) CoreState.cutShort) s
  let s2 := (s1.bump F.tidStep_breaches 1 b).put F.tidStep_guardBreach 1 b
  s2.modBay b (fun y => { y with breached := true, resumeAt := some (s.stepEndAt b + s.frameLen b) })

/-- TID_BREACH of a breach that a core of this plain has caused. -/
def State.noteBreach (s : State) (b : Nat) (short : List Nat) : State :=
  (s.put F.tidBreach_core (short.foldl min 2047) b).put F.tidBreach_step (s.stepOf b) b

/-- The earliest issued of some faults (R220). -/
def earliestFault (l : List FaultInfo) : Option FaultInfo :=
  l.foldl (fun m x => match m with
    | none => some x
    | some y => if x.count.getD 0 < y.count.getD 0 then some x else some y) none

/-- The fault of an operation that waits. -/
def Wait.fault (w : Wait) : FaultInfo :=
  { cls := clsTimeout, unit := w.unit, tag := w.w.tag, off := w.w.off / 4, claimant := w.claimant,
    addr := if w.addr < basinBytes then some w.addr else none, count := some w.w.count }

/-- The fault of a release that HOLD keeps waiting. -/
def CoreState.relFault (c : CoreState) (r : Release) : FaultInfo :=
  { cls := clsTimeout, unit := 9, tag := r.tag, off := r.off / 4, claimant := (c.tag (c.cove r.cove) r.first).shown,
    addr := some (slotAddr (c.cove r.cove, r.first)), count := some r.count }

/-- The fault of an access that waits at its tag stage. -/
def accessFault (a : Access) : FaultInfo :=
  { cls := clsTimeout, unit := 9, tag := a.w.tag, off := a.w.off / 4, addr := (accChunks a).head?, count := some a.w.count }

/-- Releases of the sync slot held by HOLD, and accesses that wait at their tag stage, whose deadline a test picks out. -/
def CoreState.dueRels (c : CoreState) (due : Option Nat → Bool) : List Release :=
  c.rels.filter (fun r => due r.deadline && c.held (c.cove r.cove))
def CoreState.dueAccesses (c : CoreState) (due : Option Nat → Bool) : List Access :=
  c.accesses.filter (fun a => !a.passed && due a.w.deadline && !c.tagPasses a)

/-- The faults of the waits of a core that a step limit finds unresolved (R209): operations, words, releases of its program that
HOLD keeps back, and accesses of its words at their tag stage. -/
def CoreState.unresolved (c : CoreState) : List FaultInfo :=
  c.waits.map Wait.fault ++ ((c.dueRels (fun _ => true)).filter (fun r => !r.viaCsr)).map c.relFault ++
  ((c.dueAccesses (fun _ => true)).filter (fun a => a.w.count != 0)).map accessFault

/-- A repeat breach faults a short core: TAG_TIMEOUT for the earliest issued of its waits, TIDE_BREACH without one (R268). The UNIT of a
TIDE_BREACH is a free value. -/
def State.repeatFault (s : State) (core : Nat) : State :=
  let p := s.phys core
  let c := s.core p
  match earliestFault c.unresolved with
  | some f => s.setCore p (c.fault s.now f)
  | none => s.used.setCore p (c.fault s.now (c.nowInfo clsBreach (Config.freeNat s.fresh % 11)))

/-- The bay stands in its guard frame with every core at its fence, and nothing of its step is being resolved. -/
def State.guarding (s : State) (b : Nat) : Bool :=
  let y := s.bay b
  y.started && !y.breached && !y.restored && !y.fenced && decide (s.stepLimitAt b ≤ s.now) && decide (s.now < s.stepEndAt b) &&
    (s.shortCores b).isEmpty

/-- Every bay of the group that stands at its fence in its guard frame is treated as breached (R266). -/
def State.breachGroup (s : State) (g step : Nat) : State :=
  (s.beaconBays g step).foldl (fun s b => if s.guarding b then s.breach b [] else s) s

/-- A hardware fault found in the group's step is mended before the step's breach is judged (R220, R269). -/
def State.mendFirst (s : State) (g step : Nat) : Bool :=
  (s.beaconBays g step).any (fun b => (s.bayCores b).any (fun k =>
    let c := s.core (s.phys k)
    c.flag F.corCtl_faulted && isHardware (c.get F.corFault_class)) || s.links.any (fun l => l.2.lost.any (fun x => x.1 == b)))

/-- STEP_LIMIT: a bay with a core short of its fence breaches, and with it the bays of its group on this plain; in a breach replay it
breaches again. -/
def execStepLimit (bay : Nat) (s : State) : Out :=
  onBay bay s (fun s =>
    let y := s.bay bay
    let short := s.shortCores bay
    let g := s.groupOf bay
    let n := s.stepOf bay
    if !s.armed bay || !y.started || y.fenced || y.breached || y.restored || y.repeated || s.flag F.tidStep_halted bay ||
        decide (s.now < s.stepLimitAt bay) || short.isEmpty || s.mendFirst g n then s
    else if s.flag F.tidStep_replay bay then
      let s1 := short.foldl (fun s k => s.repeatFault k) s
      let s2 := ((s1.noteBreach bay short).raiseFlag F.tidStep_repeat bay).modBay bay (fun y => { y with repeated := true })
      let others := (s2.beaconBays g n).filter (fun b => !(s2.bay b).repeated && (s2.shortCores b).isEmpty)
      let s3 := others.foldl (fun s b => (s.raiseFlag F.tidStep_repeat b).holdBay b) s2
      s3.beaconOnce 1 g n (.repeated g n)
    else (((s.breach bay short).noteBreach bay short).breachGroup g n).beaconOnce 0 g n (.breach g n))

/-- BREACH_BEACON_RECEIVE: the beacon is forwarded once; in the guard frame a bay of the group whose cores have all reached the
fence is treated as breached (R266). -/
def execBreachBeaconReceive (group step : Nat) (s : State) : Out :=
  .next ((s.beaconOnce 0 group step (.breach group step)).breachGroup group step)

/-- REPEAT_BEACON_RECEIVE: every bay of the group that did not breach again holds at its fence (R268). -/
def execRepeatBeaconReceive (group step : Nat) (s : State) : Out :=
  let s1 := s.beaconOnce 1 group step (.repeated group step)
  .next ((s1.beaconBays group step).foldl (fun s b =>
    if (s.bay b).repeated then s else (s.raiseFlag F.tidStep_repeat b).holdBay b) s1)

/-- BREACH_RESTORE (R267): at the end of the step a breached bay abandons its work and takes its fence copy back. -/
def execBreachRestore (bay : Nat) (s : State) : Out :=
  onBay bay s (fun s =>
    let y := s.bay bay
    if s.armed bay && y.breached && !y.restored && !y.fenced && decide (s.stepEndAt bay ≤ s.now) then
      ((s.abandonBay bay).restoreFence bay).modBay bay (fun y => { y with restored := true, mendReplay := false })
    else s)

/-- REPLAY_START (R267, R319): at S' the restored fence marks issue, and the grid goes on from S'. -/
def execReplayStart (bay : Nat) (s : State) : Out :=
  onBay bay s (fun s =>
    let y := s.bay bay
    match y.resumeAt with
    | some t =>
      if s.armed bay && y.restored && !y.fenced && !s.railHeld && decide (t ≤ s.now) then
        let s0 := if y.mendReplay then s.forgetTold (s.groupOf bay) else s
        let s1 := ((s0.put F.tidStart_start t bay).put F.tidStep_replay (b2n !y.mendReplay) bay).put F.tidStep_guardBreach 0 bay
        let s2 := (s1.bayCores bay).foldl (fun s k => s.modCore (s.phys k) (fun c => c.leaveFence false)) s1
        let s3 := s2.modBay bay (fun y => { y with restored := false, breached := false, mendReplay := false, resumeAt := none, frame := 0 })
        { s3 with gov.spent := (s3.bayShoals bay).foldl (fun m k => Sparse.set 0 m k 0) s3.gov.spent }
      else s
    | none => s)

/-! ## Deadlines (R206 to R208) -/

/-- Abandon the operation of a word that waits at its tag stage under a number (R208): wherever it stands, with the tiles of a PASS. -/
def CoreState.abandonOp (c : CoreState) (unit : Nat) (w : WordCtx) : CoreState :=
  let hit (q : WordCtx) (op : QOp) : Bool := q == w && waitUnit op == unit
  let cut (l : List QItem) : List QItem := l.filter (fun q => !hit q.w q.op)
  let c1 : CoreState := { c with
    vecQ := cut c.vecQ
    arrQ := cut c.arrQ
    estQ := cut c.estQ
    loadQ := cut c.loadQ
    storeQ := cut c.storeQ
    started := cut c.started
    draining := c.draining.filter (fun d => !hit d.w (.drain d.a))
    exec := c.exec.filter (fun x => !hit x.w x.op) }
  match (c.pass.map (fun r => (r.w, r.a))).toList ++ c.tiles.map (fun t => (t.w, t.a)) |>.find? (fun x => hit x.1 (.pass x.2)) with
  | some x => c1.dropPass 0 x.1
  | none => c1

/-- The number under which the operation of a request waits. -/
def reqUnit (q : TierReq) : Nat := if q.write then 137 else 89

/-- Abandon the operation that waits (R208): the scalar slot, a ledge command, an operation of a unit, or a SEND with its landings. -/
def State.abandonWait (s : State) (p core : Nat) (w : Wait) : State :=
  let c := s.core p
  let c1 : CoreState := if w.unit = 1 then { c with iss.scal := none }
    else if w.unit = 7 then c.endLdg
    else if w.unit % 16 = 9 then c.abandonOp w.unit w.w
    else c
  let s1 := s.setCore p { c1 with waits := c1.waits.erase w }
  if w.unit % 16 = 9 ∧ 265 ≤ w.unit then
    (s1.conss.filter (fun q => q.srcCore == core && q.via.isNone && q.id == (w.unit - 265) / 16 / 2048)).foldl
      (fun s q => s.discardCons q.id) s1
  else s1.dropReqs (fun q => q.place == p && q.w == w.w && reqUnit q == w.unit)

/-- An explicit deadline has been reached. -/
def State.due (s : State) (d : Option Nat) : Bool := d.any (fun t => decide (t ≤ s.now))

/-- DEADLINE_EXPIRE (R208): every wait bound to an explicit deadline that has been reached is abandoned, and the core faults with
TAG_TIMEOUT for the earliest issued; not while the step is fenced (R210). -/
def execDeadlineExpire (core : Nat) (s : State) : Out :=
  onLive core s (fun p c =>
    if s.deadlinesHeld core then s
    else
      let waits := c.waits.filter (fun w => s.due w.w.deadline)
      let rels := c.dueRels s.due
      let accs := c.dueAccesses s.due
      let found := waits.map Wait.fault ++ rels.map c.relFault ++ accs.map accessFault
      let s1 := waits.foldl (fun s w => s.abandonWait p core w) s
      let s2 := s1.modCore p (fun c => { c with
        rels := c.rels.filter (fun r => !decide (r ∈ rels))
        accesses := c.accesses.filter (fun a => !decide (a ∈ accs)) })
      match earliestFault found with
      | some x => s2.modCore p (fun c => c.fault s.now x)
      | none => s2)

/-! ## A lost context (R219) -/

/-- The context has been lost, or a core holds a program fault of it. -/
def State.contextGone (s : State) (ctx : Nat) : Bool :=
  s.get F.ctxCfg_state ctx == 2 || (List.range 1280).any (fun k =>
    let c := s.core (s.phys k)
    c.flag F.corCtl_faulted && !isHardware (c.get F.corFault_class) && c.get F.corFault_ctx == ctx)

/-- CONTEXT_LOSS_STOP: a core that runs a lost context stops issuing, its operations ending as in R218. -/
def execContextLossStop (core : Nat) (s : State) : Out :=
  onLive core s (fun p c =>
    if s.contextGone (c.get F.corCtl_ctx) && !c.flag F.corCtl_stopped && !c.flag F.corCtl_faulted then
      s.setCore p { c with iss.lost := true, iss.running := false, iss.stopping := true }
    else s)

end Sys2Proof.Machine
end

