-- ==== Sys2Proof/Machine/Mending.lean ====
section
/-! DEFINITION. Reserve cores and mending (R246, R302 to R330): detection, takeover, link mending, service, and the mend log. -/

namespace Sys2Proof.Machine

/-- A command for a shoal. -/
def onShoal (shoal : Nat) (s : State) (f : State → State) : Out :=
  if shoal < 80 then .next (f s) else .fault (.noSuchShoal shoal)

/-! ## Contexts lost (R366) -/

/-- A context is lost: OPEN becomes LOST with its event; CTX_FAULT takes the first fault in every state but FREE. -/
def State.loseContext (s : State) (ctx cls core tag : Nat) : State :=
  let st := s.get F.ctxCfg_state ctx
  let s1 := if st ≠ 0 ∧ s.get F.ctxFault_class ctx = 0 then
      s.setReg (F.ctxFault_class.addr ctx) (BitVec.ofNat 64 (tag % 2 ^ 24 * 2 ^ 40 + core % 2 ^ 11 * 2 ^ 29 + cls % 256))
    else s
  if st = 1 then (s1.put F.ctxCfg_state 2 ctx).raise 2 (some ctx) (cls + core * 2 ^ 8 + tag * 2 ^ 24) else s1

/-! ## The mend log (R330) -/

/-- What a mend record holds. -/
structure MendInfo where
  detected : Nat
  replayAt : Nat
  step : Nat
  bay : Nat
  shoal : Nat
  pos : Nat
  cls : Nat
  tag : Nat
  source : Nat
  outcome : Nat
  port : Nat
  chunks : Nat
  restoreNs : Nat
  deriving DecidableEq, Repr

/-- The bytes of a mend record (Table 11-9). -/
def mendBytes (seq : Nat) (r : MendInfo) : List Byte :=
  natBytes 8 seq ++ natBytes 8 r.detected ++ natBytes 8 r.replayAt ++ natBytes 4 r.step ++ natBytes 1 r.bay ++ natBytes 1 r.shoal ++
  natBytes 1 r.pos ++ natBytes 1 r.cls ++ natBytes 3 r.tag ++ natBytes 1 r.source ++ natBytes 1 r.outcome ++ natBytes 1 r.port ++
  natBytes 4 r.chunks ++ natBytes 4 r.restoreNs ++ List.replicate 18 0

/-- Write a mend record to the ring, or count it lost (R330). -/
def State.mendRecord (s : State) (r : MendInfo) : State :=
  let size := 2 ^ s.get F.plnMendLog_sizeLog2
  let write := s.get F.plnMendLogPtr_write
  let room := (s.get F.plnMendLogPtr_read + 2 * size - write - 1) % size
  let s1 : State := { s with mendSeq := s.mendSeq + 1 }
  if s.flag F.plnMendLog_enable ∧ 64 ≤ room then
    (s1.ringWrite (s.get F.plnMendLog_base * 4096) size write (mendBytes (s.mendSeq + 1) r)).put F.plnMendLogPtr_write ((write + 64) % size)
  else s1.bump F.plnMendStat_logLost

/-- The record of a takeover. -/
def Mend.info (m : Mend) (shoal outcome replayAt restoreNs : Nat) : MendInfo :=
  ⟨m.since, replayAt, m.step, m.bay.getD 255, shoal, m.pos, m.cls, m.tag, m.source, outcome, 255, m.rebuilt, restoreNs⟩

/-- MENDED for each context of a bay that enabled it, with the SEQ of the record (R323). -/
def State.raiseMended (s : State) (b : Nat) : State :=
  ((s.bayContexts b).filter (fun c => bit (s.get F.ctxCfg_evtEn c) 1)).foldl (fun s c => s.raise 3 (some c) s.mendSeq) s

/-! ## Detection

No mend is begun or goes on after a rail fault (R30): each of the commands below then has no effect. -/

/-- Start of the step a hardware fault of a core belongs to, and the fault with a free UNIT: the manual names none. -/
def State.hardFault (s : State) (core cls : Nat) : State :=
  s.used.modCore (s.phys core) (fun c => c.hwFault s.now (s.stepAt core) (c.nowInfo cls (Config.freeNat s.fresh % 11)))

/-- ISLAND_LOST (R246): the core records the hardware fault 0x0D. -/
def execIslandLost (core : Nat) (s : State) : Out :=
  onCore core s (fun p _ =>
    let s1 := (s.hardFault core clsIsland).put F.tidStat_locked 0
    { s1 with lostIslands := insertNat s1.lostIslands p })

/-- ARITH_PARITY_FAULT (Table 11-2): uncorrectable parity in core state records ARITH_RESIDUE with SOURCE 2. -/
def execArithParityFault (core : Nat) (s : State) : Out :=
  onCore core s (fun _ _ => (s.hardFault core clsResidue).put F.shlMendStat_source 2 (core / 16))

/-! ## Takeovers -/

/-- The takeover of a shoal. -/
def State.mend (s : State) (shoal : Nat) : Option Mend := (s.mends.find? (fun e => e.1 == shoal)).map (fun e => e.2)

/-- Change, begin or end it. -/
def State.setMend (s : State) (shoal : Nat) (m : Option Mend) : State :=
  let rest := s.mends.filter (fun e => e.1 != shoal)
  { s with mends := match m with
    | some m => rest ++ [(shoal, m)]
    | none => rest }

/-- Contexts with a core in a bay: those a core of the bay carries and whose BAY it is. -/
def State.contextsIn (s : State) (b : Nat) : List Nat :=
  (s.bayContexts b).filter (fun c => (s.bayCores b).any (fun k => (s.core (s.phys k)).get F.corCtl_ctx == c))

/-- The mend lies outside the promise (R305): the bay's contexts are lost with MEND_EXHAUSTED, every other bay of the group holds, and
the mend is counted and recorded once. -/
def State.exhaust (s : State) (shoal : Nat) : State :=
  match s.mend shoal with
  | none => s
  | some m =>
    if m.outside then s
    else
      let s1 := ((s.setMend shoal (some { m with outside := true })).raiseFlag F.shlMendStat_exhausted shoal).bump F.plnMendStat_exhausted
      let s2 := match m.bay with
        | some b =>
          let spared := !s.armed b && (s.bayCores b).all (fun k => s.phys k == m.place || (s.core (s.phys k)).flag F.corCtl_stopped)
          let s3 := if spared then s1 else (s.contextsIn b).foldl (fun s c => s.loseContext c 11 (shoal * 16 + m.pos) m.tag) s1
          if s.armed b then
            let g := s.groupOf b
            let s4 : State := ((s3.beaconBays g (s3.stepOf b)).filter (fun k => k != b)).foldl (fun s k => s.holdBay k) s3
            s4.beaconOnce 1 g (s3.stepOf b) (.repeated g (s3.stepOf b))
          else s3
        | none => s1
      s2.mendRecord (m.info shoal 1 0 0)

/-- The takeover ends. -/
def State.endMend (s : State) (shoal : Nat) : State :=
  ((s.setMend shoal none).put F.shlMendStat_active 0 shoal).put F.shlMendStat_phase 0 shoal

/-- A class whose core is taken over (Table 11-2). -/
def takesOver (cls : Nat) : Bool := cls == clsResidue || cls == clsIsland

/-- MEND_FENCE (R313): in the tick after a core-takeover fault, the core's bay and its group fence, and the takeover begins. A
second failure in the shoal lies outside the promise (R320). -/
def execMendFence (core : Nat) (s : State) : Out :=
  onCore core s (fun p c =>
    let shoal := core / 16
    if !c.flag F.corCtl_faulted || !takesOver (c.get F.corFault_class) || c.isolated || s.railHeld then s
    else
      match s.mend shoal with
      | some m => if m.place = p then s else s.exhaust shoal
      | none =>
        let bay := s.bayOf shoal
        let source := if c.get F.corFault_class = clsIsland then 3 else if c.flag F.corResidue_declared then 1 else 2
        let m : Mend := ⟨core % 16, p, s.now, c.get F.corFault_class, c.get F.corFault_tag, source,
          (bay.map s.stepOf).getD 0, bay, 0, 0, none, 0, 0, false, false⟩
        let s1 := ((((s.setMend shoal (some m)).put F.shlMendStat_active 1 shoal).put F.shlMendStat_phase 1 shoal).put
          F.shlMendStat_source source shoal).put F.shlMendStat_lastPos (core % 16) shoal
        match bay with
        | some b =>
          if s.armed b then s1.fenceGroup (s.groupOf b) (s.stepOf b)
          else ((s1.bayCores b).foldl (fun s k => s.modCore (s.phys k) (fun c =>
            if c.flag F.corCtl_stopped then c else c.stopShort)) s1).discardInto b (fun s _ => s)
        | none => s1.modCore p CoreState.stopShort)

/-- MEND_BEACON_RECEIVE: the beacon is forwarded, and the group's bays fence (R313). -/
def execMendBeaconReceive (group step : Nat) (s : State) : Out := .next (s.fenceGroup group step)

/-- A FOLD or UNFOLD is pending in some core of the shoal. -/
def State.foldsPending (s : State) (shoal : Nat) : Bool :=
  (List.range 16).any (fun pos =>
    let c := s.core (shoal * 17 + s.physAt shoal pos)
    (c.ldgQ ++ c.ldgExec.toList).any (fun i => match i with
      | .fold _ _ _ _ => true
      | .unfold _ _ _ _ => true
      | .cmd _ _ _ _ _ => false))

/-- MEND_CHECK (R314): 2,000 ns after detection the fence phase ends; the plain's conditions of Table 11-1 are checked, and the
failed island is isolated; LOCKED shows whether every island left is locked (R246). Without a reserve the takeover ends here. -/
def execMendCheck (shoal : Nat) (s : State) : Out :=
  onShoal shoal s (fun s =>
    match s.mend shoal with
    | none => s
    | some m =>
      if s.railHeld ∨ s.get F.shlMendStat_phase shoal ≠ 1 ∨ s.now < m.since + 2000 then s
      else
        let spent := s.flag F.shlMendStat_spent shoal
        let dead := s.flag F.shlMendStat_dead shoal
        let ok := !spent && !dead && m.bay.any (fun b => s.armed b) && !s.foldsPending shoal
        let lost := eraseNat s.lostIslands m.place
        let s0 := ((s.drainDeltas shoal).modCore m.place (fun c => { c.dropOps with isolated := true })).put F.shlMendStat_phase 2 shoal
        let s1 : State := { (if lost.isEmpty then s0.put F.tidStat_locked 1 else s0) with lostIslands := lost }
        let s2 := if ok then s1 else s1.exhaust shoal
        if spent ∨ dead then s2.endMend shoal else s2)

/-! ### The rebuild (R315, R316) -/

/-- Chunks of the folded shadowed coves of a core. -/
def CoreState.foldedChunks (c : CoreState) : List Nat :=
  (c.coves.filter (fun v => c.folded v.base)).flatMap (fun v => (List.range (v.extent / 64)).map (fun k => v.base + k * 64))

/-- The largest number of them in one ledge. -/
def maxPerLedge (l : List Nat) : Nat := (List.range 12).foldl (fun m k => max m ((l.filter (fun a => ledgeOf a == k)).length)) 0

/-- The cores whose chunk at an address the parity holds beside the failed core's. -/
def State.survivors (s : State) (shoal place a : Nat) : List Nat :=
  ((List.range 16).map (fun pos => shoal * 17 + s.physAt shoal pos)).filter (fun q => q != place && (s.core q).folded a)

/-- One chunk of the rebuild: data, poison, and whether every word of it could be read. -/
def State.rebuildChunk (s : State) (shoal place r a : Nat) : List Byte × Bool × Bool :=
  let from_ := (s.survivors shoal place a).map s.core
  let res := s.core r
  let bad := (from_ ++ [res]).any (fun c => (c.errorsIn a).any (fun e => e.2))
  (from_.foldl (fun m c => xorBytes m (c.peek a 64)) (res.peek a 64),
    from_.foldl (fun m c => m != c.poisoned a) (res.poisoned a) || bad, bad)

/-- The reserve's basin after the rebuild: the failed core's shadowed chunks, and zero elsewhere (R315). -/
def State.rebuildBasin (s : State) (shoal place r : Nat) : State × Nat × Nat :=
  let l := (s.core place).foldedChunks
  let built := l.map (fun a => (a, s.rebuildChunk shoal place r a))
  let fails := (built.filter (fun x => x.2.2.2)).length
  let reads := built.foldl (fun m x => m + (s.survivors shoal place x.1).length + 2) 0
  let s1 := s.modCore r (fun c => { c with
    basin := built.foldl (fun m x => Bytes.write 0 m x.1 x.2.1) []
    poison := built.foldl (fun m x => if x.2.2.1 then insertNat m (x.1 / 64) else m) []
    alien := (s.core place).alien.filter (fun k => l.any (fun a => a / 64 == k))
    ecc := [] })
  (s1.charge r (4 * reads + (393216 - l.length)), l.length, fails)

/-- MEND_REBUILD (R315): from 4,000 ns after detection the reserve's basin is rebuilt, in 4 cycles a chunk and ledge, while its
self-test of 40,000 ns runs. Chunks that cannot be rebuilt stay poisoned, are counted, and exhaust the mend. -/
def execMendRebuild (shoal : Nat) (s : State) : Out :=
  onShoal shoal s (fun s =>
    match s.mend shoal, s.spare shoal with
    | some m, some r =>
      if s.railHeld ∨ s.get F.shlMendStat_phase shoal ≠ 2 ∨ s.now < m.since + 4000 then s
      else
        let b := s.rebuildBasin shoal m.place r
        let s1 := (b.1.put F.shlMendStat_phase 3 shoal).setMend shoal (some { m with
          rebuilt := b.2.1 - b.2.2
          rebuildEnd := m.since + 4000 + max (4 * maxPerLedge (s.core m.place).foldedChunks) 40000 })
        if b.2.2 = 0 then s1 else (s1.bump F.shlMendStat_repairFails b.2.2 shoal).exhaust shoal
    | _, _ => s)

/-- DEAD sets (R311, R316). -/
def State.setDead (s : State) (shoal : Nat) : State :=
  if s.flag F.shlMendStat_dead shoal then s else (s.put F.shlMendStat_dead 1 shoal).bump F.plnMendStat_deadShoals

/-- SELF_TEST_DONE: 40,000 ns into the rebuild the reserve's self-test ends; a failure sets DEAD, lies outside the promise, and ends
the takeover (R316). -/
def execSelfTestDone (shoal : Nat) (pass : Bool) (s : State) : Out :=
  onShoal shoal s (fun s =>
    match s.mend shoal with
    | none => s
    | some m =>
      if s.railHeld ∨ s.get F.shlMendStat_phase shoal ≠ 3 ∨ m.test.isSome ∨ s.now < m.since + 44000 then s
      else if pass then s.setMend shoal (some { m with test := some true })
      else ((s.setDead shoal).exhaust shoal).endMend shoal)

/-! ### Renumber and restore (R317, R318, R322) -/

/-- SPENT sets: the shoal has no spare and keeps no parity, and RESERVE_SPENT is due (R317, R323). -/
def State.setSpent (s : State) (shoal : Nat) : State :=
  let s1 := (((s.put F.shlMendStat_spent 1 shoal).bump F.plnMendStat_spentShoals).put F.shlPhysHi_spare 31 shoal).raise 16 none shoal
  (List.range 16).foldl (fun s pos => s.modCore (shoal * 17 + s.physAt shoal pos) (fun c =>
    { (c.put F.corShadow_folded 0) with deltas := [] })) s1

/-- Give a position of a shoal another physical core (SHL_PHYS). -/
def State.setPhys (s : State) (shoal pos n : Nat) : State :=
  if pos < 12 then
    s.setReg (F.shlPhysLo_pos011.addr shoal) (setField (s.reg (F.shlPhysLo_pos011.addr shoal)) (5 * pos + 4) (5 * pos) n)
  else s.setReg (F.shlPhysHi_pos1215.addr shoal) (setField (s.reg (F.shlPhysHi_pos1215.addr shoal)) (5 * (pos - 12) + 4) (5 * (pos - 12)) n)

/-- A reserve that takes a logical number: its configuration is that of the mirror, its counters and COR_FAULT are 0, and its
basin is what the rebuild left; the pass keeps its slot plan (R311, R317). -/
def State.fromMirror (s : State) (core : Nat) (reserve failed : CoreState) : CoreState :=
  let mine := s.mirror.filter (fun e => e.1 / 4096 == core)
  let c : CoreState := { CoreState.reset with
    regs := mine.foldl (fun m e => Sparse.set (coreReset (e.1 % 4096)) m (e.1 % 4096) e.2) []
    route := (s.routeMirror.filter (fun e => e.1 / 512 == core)).map (fun e => (e.1 % 512, e.2))
    basin := reserve.basin
    poison := reserve.poison
    alien := reserve.alien
    ecc := reserve.ecc
    strand := reserve.strand
    plan := failed.plan }
  (((c.put F.corCtl_stopped 1).put F.corCtl_faulted 0).put F.corCtl_start 0).setReg F.corStrandCaps_opLat.base
    (reserve.reg F.corStrandCaps_opLat.base)

/-- MEND_RENUMBER (R317): at the end of the rebuild the reserve takes the failed core's number; the phase takes 512 ns. -/
def execMendRenumber (shoal : Nat) (s : State) : Out :=
  onShoal shoal s (fun s =>
    match s.mend shoal, s.spare shoal with
    | some m, some r =>
      if s.railHeld ∨ s.get F.shlMendStat_phase shoal ≠ 3 ∨ m.test ≠ some true ∨ s.now < m.rebuildEnd then s
      else
        let core := shoal * 16 + m.pos
        let s1 := s.setCore r (s.fromMirror core (s.core r) (s.core m.place))
        let s2 := s1.setReg (F.shlMendRec_step.addr shoal) (BitVec.ofNat 64 (m.step % 2 ^ 32 * 2 ^ 32 + m.cls * 2 ^ 24 + m.tag))
        let s3 := ((s2.setPhys shoal m.pos (r % 17)).setSpent shoal).put F.shlMendStat_phase 4 shoal
        { s3.setMend shoal (some { m with renumberEnd := s.now + 512 }) with
          failed := Sparse.set 31 s3.failed shoal (m.place % 17) }
    | _, _ => s)

/-- The restore phase begins: the declared routine starts on the reserve; without one the phase takes no time (R318). -/
def State.beginRestore (s : State) (shoal : Nat) (m : Mend) (lead : Bool) : State :=
  let p := s.phys (shoal * 16 + m.pos)
  let s1 := (s.setMend shoal (some { m with restoreAt := s.now, lead := lead })).put F.shlMendStat_phase 5 shoal
  if (s.core p).flag F.corMendEntry_valid then
    s1.modCore p (fun c => { (c.put F.corCtl_stopped 0) with
      fetchWin := []
      iss := { IssueState.reset with off := c.get F.corMendEntry_entry, running := true, restoring := true, count := c.iss.count } })
  else s1

/-- MEND_RESTORE: the mend component runs the restore routine once renumber has ended. -/
def execMendRestore (shoal : Nat) (s : State) : Out :=
  onShoal shoal s (fun s =>
    match s.mend shoal with
    | some m =>
      if !s.railHeld ∧ s.get F.shlMendStat_phase shoal = 4 ∧ m.renumberEnd ≤ s.now then s.beginRestore shoal m m.lead else s
    | none => s)

/-- MEND_PILOT_TIMEOUT (R322): PILOT_US after renumber the lead pilot runs the restore and resume phases. -/
def execMendPilotTimeout (shoal : Nat) (s : State) : Out :=
  onShoal shoal s (fun s =>
    match s.mend shoal with
    | some m =>
      if !s.railHeld ∧ s.get F.shlMendStat_phase shoal = 4 ∧ m.renumberEnd + s.get F.shlMendCfg_pilotUs shoal * 1000 ≤ s.now then
        s.beginRestore shoal m true
      else s
    | none => s)

/-- RESTORE_TIMEOUT (R318): a routine that runs longer than RESTORE_NS places the mend outside the promise; it ends. -/
def execRestoreTimeout (shoal : Nat) (s : State) : Out :=
  onShoal shoal s (fun s =>
    match s.mend shoal with
    | some m =>
      let p := s.phys (shoal * 16 + m.pos)
      if !s.railHeld ∧ s.get F.shlMendStat_phase shoal = 5 ∧ !(s.core p).flag F.corCtl_stopped ∧
          m.restoreAt + s.get F.shlMendCfg_restoreNs shoal < s.now then
        (s.exhaust shoal).modCore p (fun c => c.dropOps.stopHere)
      else s
    | none => s)

/-! ### Resume (R319, R320) -/

/-- S': the smallest S + n × F at least 2F after the beacon leaves. -/
def State.replayTime (s : State) (b : Nat) : Nat :=
  s.stepStartAt b + roundUp (s.now + 2 * s.frameLen b - s.stepStartAt b) (s.frameLen b)

/-- Clear the hardware fault of a core, its class and tag kept in SHL_MEND_REC (R319). -/
def State.clearHard (s : State) (core step : Nat) : State :=
  let p := s.phys core
  let c := s.core p
  if c.flag F.corCtl_faulted && isHardware (c.get F.corFault_class) then
    (s.setReg (F.shlMendRec_step.addr (core / 16))
      (BitVec.ofNat 64 (step % 2 ^ 32 * 2 ^ 32 + c.get F.corFault_class * 2 ^ 24 + c.get F.corFault_tag))).setCore p
        ((c.setReg 0x10 0).put F.corCtl_faulted 0)
  else s

/-- A mend of the group is still under way on this plain. -/
def State.mendsOf (s : State) (g : Nat) : Bool :=
  s.mends.any (fun e => !e.2.outside && e.2.bay.any (fun b => s.groupOf b == g)) ||
  s.linkFaults.any (fun e => s.groupOf e.2.bay == g)

/-- The fenced bays of a group take their fence copies back and wait for S'; while another mend of the group is under way they stay
fenced, and the latest S' counts. -/
def State.resumeBays (s : State) (g step at_ : Nat) : State :=
  let more := s.mendsOf g
  ((s.beaconBays g step).filter (fun b => (s.bay b).fenced)).foldl (fun s b =>
    let s1 := s.modBay b (fun y => { y with resumeAt := some (max at_ (y.resumeAt.getD 0)), mendReplay := true })
    if more then s1
    else
      let s2 := (s1.bayCores b).foldl (fun s k => s.clearHard k step) s1
      ((s2.abandonBay b).restoreFence b).modBay b (fun y => { y with fenced := false, restored := true })) s

/-- MEND_RESUME (R319): once the restore routine has stopped, the fence copies are restored, and the resume beacon announces S'. A
routine that faulted, wrote, released, sent or posted places the mend outside the promise; the takeover completes without a
replay. -/
def execMendResume (shoal : Nat) (s : State) : Out :=
  onShoal shoal s (fun s =>
    match s.mend shoal with
    | none => s
    | some m =>
      let c := s.core (s.phys (shoal * 16 + m.pos))
      if s.railHeld ∨ s.get F.shlMendStat_phase shoal ≠ 5 ∨ !c.flag F.corCtl_stopped then s
      else
        let broke := c.flag F.corCtl_faulted || c.iss.broke
        let s1 := if broke then s.exhaust shoal else s
        let s2 := (s1.endMend shoal).bump F.plnMendStat_mends
        match m.bay with
        | some b =>
          if broke || m.outside || !s.armed b then s2
          else
            let at_ := s.replayTime b
            let s3 := (s2.resumeBays (s.groupOf b) m.step at_).mendRecord (m.info shoal 0 at_ (s.now - m.restoreAt))
            (s3.raiseMended b).beaconOnce 3 (s.groupOf b) m.step (.resume (s.groupOf b) m.step at_)
        | none => s2)

/-- RESUME_BEACON_RECEIVE (R319): the beacon is forwarded; a fenced bay replays from the latest S', and a plain fenced for a
partner writes a record with OUTCOME 4 (R330). -/
def execResumeBeaconReceive (group step start : Nat) (s : State) : Out :=
  let bays := (s.beaconBays group step).filter (fun b => (s.bay b).fenced)
  let s1 := s.beaconOnce 3 group step (.resume group step start)
  let s2 := s1.resumeBays group step start
  .next (if s.mendsOf group then s2
    else bays.foldl (fun s b => s.mendRecord ⟨s.now, start, step, b, 255, 0, 0, 0, 0, 4, 255, 0, 0⟩) s2)

/-! ## Link mending (R326, R327) -/

/-- Copy a port's plan runs to its twin. -/
def State.copyPlan (s : State) (port twin : Nat) : State :=
  { s with strPlan := (List.range 1024).foldl (fun m i =>
      Sparse.set 0 m (twin * 1024 + i) (Sparse.get 0 s.strPlan (port * 1024 + i))) s.strPlan }

/-- Rewrite PORT in the KIND 3 route entries of a core that name the lost port; the mirror follows. -/
def State.reroute (s : State) (core port twin : Nat) : State :=
  let p := s.phys core
  let c := s.core p
  let hits := (List.range 256).filter (fun e =>
    let lo := Sparse.get 0 c.route (2 * e)
    field lo 1 0 == 3 && field lo 21 16 == port)
  hits.foldl (fun s e =>
    let v := setField (Sparse.get 0 (s.core p).route (2 * e)) 21 16 twin
    { s.modCore p (fun c => { c with route := Sparse.set 0 c.route (2 * e) v }) with
      routeMirror := Sparse.set 0 s.routeMirror (core * 512 + 2 * e) v }) s

/-- The record of a link mend. -/
def LinkFault.info (s : State) (x : LinkFault) (port outcome replayAt : Nat) : MendInfo :=
  let c := s.core (s.phys x.core)
  ⟨x.since, replayAt, s.stepOf x.bay, x.bay, 255, x.core % 16, 12, c.get F.corFault_tag, 0, outcome, port, 0, 0⟩

/-- The link faults of a port. -/
def State.faultsOf (s : State) (port : Nat) : List LinkFault := (s.linkFaults.filter (fun e => e.1 / 128 == port)).map (fun e => e.2)

/-- A usable twin. -/
def State.twinOf (s : State) (port : Nat) : Option Nat :=
  let t := s.get F.strTwin_twin port
  if s.flag F.strTwin_valid port && s.linkState t == 5 && s.flag F.strStat_schedOk t then some t else none

/-- A lost bay's routes move to the twin, and its group resumes. -/
def State.mendLink (s : State) (port twin : Nat) (x : LinkFault) : State :=
  let g := s.groupOf x.bay
  let n := s.stepOf x.bay
  let at_ := s.replayTime x.bay
  let s1 := (s.bayCores x.bay).foldl (fun s k => s.reroute k port twin) s
  let s2 : State := { s1 with linkFaults := s1.linkFaults.filter (fun e => e.1 != port * 128 + x.bay) }
  let s3 := ((s2.resumeBays g n at_).mendRecord (x.info s port 2 at_)).raiseMended x.bay
  (s3.bump F.plnMendStat_linkMends).beaconOnce 3 g n (.resume g n at_)

/-- Without a usable twin every bay of the group holds, and the link fault is cleared (R319, R327). -/
def State.holdLink (s : State) (port : Nat) (x : LinkFault) : State :=
  let g := s.groupOf x.bay
  let n := s.stepOf x.bay
  let s1 := (s.mendRecord (x.info s port 3 0)).clearHard x.core n
  let s2 := (s1.beaconBays g n).foldl (fun s b => s.holdBay b) s1
  { s2.beaconOnce 1 g n (.repeated g n) with linkFaults := s2.linkFaults.filter (fun e => e.1 != port * 128 + x.bay) }

/-- LINK_MEND (R326): once the cores of the fenced bays have stopped, the lead pilot moves the lost port's plans and routes to its
twin and resumes the group, or holds it. -/
def execLinkMend (port : Nat) (s : State) : Out :=
  onPort port s (fun s =>
    let l := s.faultsOf port
    if s.railHeld || l.isEmpty || !l.all (fun x => s.bayStopped x.bay) then s
    else
      match s.twinOf port with
      | some t => l.foldl (fun s x => s.mendLink port t x) ((s.copyPlan port t).put F.strTwin_valid 0 port)
      | none => l.foldl (fun s x => s.holdLink port x) s)

/-! ## The reserve and the shoal island (R311, R328) -/

/-- RESERVE_LOST (Table 11-2): SPENT sets, no step is fenced, and RESERVE_SPENT is raised. The OUTCOME of the record is a free
value: the manual gives none. -/
def execReserveLost (shoal : Nat) (s : State) : Out :=
  onShoal shoal s (fun s =>
    match s.spare shoal with
    | none => s
    | some r =>
      let s1 := (s.put F.shlMendStat_source 4 shoal).setSpent shoal
      let s2 := { s1.used with failed := Sparse.set 31 s1.failed shoal (r % 17) }
      s2.mendRecord ⟨s.now, 0, 0, (s.bayOf shoal).getD 255, shoal, 255, 0, 0, 4, Config.freeNat s.fresh % 5, 255, 0, 0⟩)

/-- SHOAL_ISLAND_LOST: DEAD sets; it lies outside the promise (R305, R311). -/
def execShoalIslandLost (shoal : Nat) (s : State) : Out :=
  onShoal shoal s (fun s =>
    let s1 := (s.put F.shlMendStat_source 5 shoal).setDead shoal
    match s1.mend shoal with
    | some _ => (s1.exhaust shoal).endMend shoal
    | none =>
      let bay := s.bayOf shoal
      let m : Mend := ⟨0, 80 * 17, s.now, clsIsland, 0, 5, (bay.map s.stepOf).getD 0, bay, 0, 0, none, 0, 0, false, false⟩
      ((s1.setMend shoal (some m)).exhaust shoal).endMend shoal)

/-- SERVICE_GO takes effect only with SPENT 1, DEAD 0 and every core of the shoal stopped (R328). -/
def State.mayService (s : State) (shoal : Nat) : Bool :=
  s.flag F.shlMendStat_spent shoal && !s.flag F.shlMendStat_dead shoal &&
  (shoalCores shoal).all (fun k => (s.core (s.phys k)).flag F.corCtl_stopped)

/-- SERVICE_DONE (R328): the self-test has ended; on a pass the core that failed last is the spare, the shoal has been washed and
SPENT clears; else SVC_FAIL sets. -/
def execServiceDone (shoal : Nat) (pass : Bool) (s : State) : Out :=
  onShoal shoal s (fun s =>
    if !s.flag F.shlMendCfg_serviceGo shoal then s
    else
      let s0 := s.put F.shlMendCfg_serviceGo 0 shoal
      let n := Sparse.get 31 s.failed shoal
      if pass ∧ n < 17 then
        let r := shoal * 17 + n
        let s1 := (s0.put F.shlPhysHi_spare n shoal).put F.shlMendStat_spent 0 shoal
        let s2 := (s1.put F.plnMendStat_spentShoals (s1.get F.plnMendStat_spentShoals - 1)).modCore r (fun c => { c with isolated := false })
        let s3 := (shoalCores shoal).foldl (fun s k => (s.washCore (s.phys k) (some k)).modCore (s.phys k) CoreState.washOver) s2
        { ((s3.washCore r none).modCore r CoreState.washOver) with failed := Sparse.set 31 s3.failed shoal 31 }
      else s0.raiseFlag F.shlMendStat_svcFail shoal)

end Sys2Proof.Machine
end

