-- ==== Sys2Proof/Machine/Pilot.lean ====
section
/-! DEFINITION. Pilot cores (R331 to R333, Table 12-2): their SRAM and its SEC-DED, physical memory protection, the address map,
interrupts, and taking and leaving a trap. The table has no row for an instruction of a pilot (log entry 111); what other rows do to a
pilot goes through here. -/

namespace Sys2Proof.Machine

/-- A pilot: 0 to 79 of a shoal, 80 the lead pilot. -/
def State.pilot (s : State) (n : Nat) : PilotRun := Sparse.get PilotRun.reset s.pilots n

/-- Change it. -/
def State.modPilot (s : State) (n : Nat) (f : PilotRun → PilotRun) : State :=
  { s with pilots := Sparse.set PilotRun.reset s.pilots n (f (s.pilot n)) }

/-! ## Physical memory protection (R331) -/

/-- What an access does. -/
inductive PilotUse where
  | fetch
  | load
  | store
  deriving DecidableEq, Repr

/-- Trailing ones of a number, at most `k`. -/
def trailingOnes (k n : Nat) : Nat :=
  match k with
  | 0 => 0
  | k + 1 => if n % 2 = 1 then trailingOnes k (n / 2) + 1 else 0

/-- Lower and upper end of what a PMP entry matches; `below` is the address register of the entry before it. With G = 10 the low ten bits
of a TOR address count as 0 and the low nine of a NAPOT address as 1. -/
def PmpEntry.range (e : PmpEntry) (below : Nat) : Nat × Nat :=
  match e.mode with
  | .off => (0, 0)
  | .tor => (below / 1024 * 4096, e.addr.toNat / 1024 * 4096)
  | .napot =>
    let k := trailingOnes 54 (e.addr.toNat / 512 * 512 + 511)
    let base := e.addr.toNat / 2 ^ (k + 1) * 2 ^ (k + 1) * 4
    (base, base + 2 ^ (k + 3))

/-- The entry grants the access. -/
def PmpEntry.grants (e : PmpEntry) (use : PilotUse) : Bool :=
  match use with
  | .fetch => e.x
  | .load => e.r
  | .store => e.w

/-- The lowest entry that matches any byte of a range, with whether it matches all of them. -/
def pmpFind (l : List PmpEntry) (below a n : Nat) : Option (PmpEntry × Bool) :=
  match l with
  | [] => none
  | e :: rest =>
    let r := e.range below
    if max a r.1 < min (a + n) r.2 then some (e, decide (r.1 ≤ a) && decide (a + n ≤ r.2))
    else pmpFind rest e.addr.toNat a n

/-- PMP allows an access in a mode: the matching entry must hold all of it and, in user mode or locked, grant it; without a match only
machine mode passes. -/
def Hart.pmpAllows (h : Hart) (priv : Priv) (use : PilotUse) (a n : Nat) : Bool :=
  match pmpFind h.pmp.toList 0 a n with
  | some (e, whole) => whole && ((priv == .machine && !e.lock) || e.grants use)
  | none => priv == .machine

/-- The mode that loads and stores are checked in: MPP where MPRV is 1. -/
def Hart.dataPriv (h : Hart) (use : PilotUse) : Priv := if h.mprv && use != .fetch then h.mpp else h.priv

/-! ## The address map (Table 12-2, R332) -/

/-- The range lies wholly in one SRAM of a pilot (Tables 12-1 and 12-2). -/
def sramHolds (lead : Bool) (a n : Nat) : Bool :=
  let i := if lead then 0x100000 else 0x40000
  let d := if lead then 0x400000 else 0x80000
  decide (a + n ≤ i) || (decide (0x1000000 ≤ a) && decide (a + n ≤ 0x1000000 + d))

/-- Where an access of a pilot goes: its SRAM, the CSR port, a tier port, or nowhere (an access fault). -/
inductive PilotTarget where
  | sram
  | csr (a : Nat)
  | tier (a : Nat)
  | fault
  deriving DecidableEq, Repr

/-- Table 12-2, with the access fault of a CSR access that is not of 64 bits (R332). -/
def pilotTarget (lead : Bool) (a n : Nat) : PilotTarget :=
  if sramHolds lead a n then .sram
  else if 0x40000000 ≤ a ∧ a + n ≤ 0x44000000 then (if n = 8 then .csr (a - 0x40000000) else .fault)
  else if 0x040000000000 ≤ a ∧ a + n ≤ 0x040000000000 + 2 ^ 41 then .tier (a - 0x040000000000)
  else .fault

/-- Where an access of pilot `n` goes once PMP has passed it. -/
def State.pilotAccess (s : State) (n : Nat) (use : PilotUse) (a len : Nat) : PilotTarget :=
  let h := (s.pilot n).hart
  if h.pmpAllows (h.dataPriv use) use a len then pilotTarget (n == 80) a len else .fault

/-- A word of the SRAM holds an uncorrectable error, which resets the pilot that reads it (R338). -/
def State.sramBad (s : State) (n a len : Nat) : Bool :=
  (s.pilot n).sramErrs.any (fun e => e.2 && decide (a < e.1 * 8 + 8) && decide (e.1 * 8 < a + len))

/-- The SRAM words that a write replaces carry no error any more. -/
def State.sramWritten (s : State) (n a len : Nat) : State :=
  s.modPilot n (fun p => { p with sramErrs := p.sramErrs.filter (fun e => !(decide (a ≤ e.1 * 8) && decide (e.1 * 8 + 8 ≤ a + len))) })

/-! ## Interrupts and traps (R331, R333) -/

/-- The timer interrupt of a pilot: mtime, which is TID_NOW, has reached its mtimecmp (R333). -/
def State.pilotTimer (s : State) (n : Nat) : Bool := decide ((s.pilot n).mtimecmp.toNat ≤ s.now)

/-- The machine software interrupt of a pilot: the MSIP bit of its shoal, or PLN_LEAD_MSIP for the lead pilot (R333). -/
def State.pilotSoftware (s : State) (n : Nat) : Bool := if n < 80 then s.flag F.shlMsip_msip n else s.flag F.plnLeadMsip_msip

/-- The pending interrupts of a pilot, as mip shows them: software in bit 3, timer in bit 7, and for the lead pilot the doorbell's
external interrupt in bit 11 (R369). -/
def State.pilotPending (s : State) (n : Nat) : Nat :=
  b2n (s.pilotSoftware n) * 8 + b2n (s.pilotTimer n) * 128 + b2n (n == 80 && s.leadIrq) * 2048

/-- The interrupt a pilot takes next, in the order external, software, timer; none while they are off. -/
def State.pilotInterrupt (s : State) (n : Nat) : Option Nat :=
  let h := (s.pilot n).hart
  let on := Nat.land (s.pilotPending n) h.enables.toNat
  if h.priv == .machine && !h.mie then none
  else [11, 3, 7].find? (fun k => bit on k)

/-- The pilot takes a trap: mepc, mcause and mtval are written, mstatus keeps the mode and the interrupt enable, and machine mode goes
on at mtvec (an interrupt at its own entry where mtvec is vectored). -/
def Hart.trap (h : Hart) (interrupt : Bool) (code : Nat) (tval : BitVec 64) : Hart :=
  let base := h.mtvec / 4 * 4
  { h with
    mepc := h.pc
    mcause := BitVec.ofNat 64 (b2n interrupt * 2 ^ 63 + code)
    mtval := tval
    mpie := h.mie
    mie := false
    mpp := h.priv
    priv := .machine
    pc := if interrupt && h.mtvec % 4 == 1 then base + BitVec.ofNat 64 (4 * code) else base }

/-- The return from a trap (MRET): the saved mode and enable come back, and the pilot goes on at mepc. -/
def Hart.mret (h : Hart) : Hart :=
  { h with
    priv := h.mpp
    mie := h.mpie
    mpie := true
    mpp := .user
    mprv := h.mprv && h.mpp == .machine
    pc := h.mepc }

/-- An access that gets an error response of the CSR port, or finds a tier's data uncorrectable, raises a load or store access fault in
the pilot (R332). -/
def State.pilotFault (s : State) (n : Nat) (use : PilotUse) (a : Nat) : State :=
  let code := match use with
    | .fetch => 1
    | .load => 5
    | .store => 7
  s.modPilot n (fun p => { p with hart := p.hart.trap false code (BitVec.ofNat 64 a) })

/-- The pilot starts at address 0 in machine mode (R387 to R389). -/
def State.startPilot (s : State) (n : Nat) : State :=
  s.modPilot n (fun p => { p with inReset := false, hart := Hart.start })

end Sys2Proof.Machine
end

