-- ==== Sys2Proof/Machine/Rings.lean ====
section
/-! DEFINITION. Rings and events (R20, R367, R368, R371 to R377): completion and event entries, PHASE, MSI-X, and what the lead pilot
holds while a ring has no room. -/

namespace Sys2Proof.Machine

/-- A command for a context. -/
def onCtx (ctx : Nat) (s : State) (f : State → State) : Out :=
  if ctx < 1024 then .next (f s) else .fault (.noSuchContext ctx)

/-- The lead pilot runs its firmware: the image has loaded and the pilot is not in reset (R338, R388). -/
def State.leadRuns (s : State) : Bool := s.get F.imgStat_state == 6 && !(s.pilot 80).inReset

/-- A ring of `n` entries whose next entry to write is `producer` takes one more (R367). -/
def ringRoom (n producer consumer : Nat) : Bool := decide (0 < n) && (producer + 1) % n != consumer % n

/-- PHASE of the entries of a lap (R368). -/
def phaseOf (lap : Nat) : Nat := if lap % 2 = 0 then 1 else 0

/-! ## Events (R375, R376) -/

/-- Entries of the event ring. -/
def State.evEntries (s : State) : Nat := 2 ^ s.get F.plnEvtCfg_sizeLog2

/-- The event ring is enabled and has room. -/
def State.evRoom (s : State) : Bool :=
  s.flag F.plnEvtCfg_enable && ringRoom s.evEntries (s.get F.plnEvtPtr_producer) (s.get F.plnEvtPtr_consumer)

/-- Vector of an event: the context's, or that of plain events. -/
def State.evVector (s : State) (e : Event) : Nat :=
  match e.ctx with
  | some c => s.get F.ctxCfg_vector c
  | none => s.get F.plnEvtCfg_vector

/-- The bytes of an event entry (Table 13-6). -/
def State.evBytes (s : State) (e : Event) : List Byte :=
  let cookie := match e.ctx with
    | some c => s.get F.ctxCookie_cookie c
    | none => s.get F.plnEvtCookie_cookie
  natBytes 8 cookie ++ natBytes 2 e.kind ++ natBytes 1 (phaseOf s.evLap) ++ natBytes 1 0 ++ natBytes 2 (e.ctx.getD 0xffff) ++
  natBytes 2 (s.evVector e) ++ natBytes 8 e.time ++ natBytes 8 e.detail.toNat

/-- A request of MSI-X with a vector (R20, R375). -/
def State.requestMsix (s : State) (v : Nat) : State := { s.put F.plnMsix_vector v with msix := s.msix ++ [v] }

/-- Write one event: the entry, then PRODUCER, then the vector (R375). -/
def State.writeEvent (s : State) (e : Event) : State :=
  let at_ := s.get F.plnEvtPtr_producer
  let next := (at_ + 1) % s.evEntries
  let s1 := s.tierWrite (s.get F.plnEvtCfg_base * 4096 + 32 * at_) (s.evBytes e) []
  let s2 := (s1.put F.plnEvtPtr_producer next).wrap F.plnEvtStat_written
  ({ s2 with evLap := if next = 0 then s.evLap + 1 else s.evLap } : State).requestMsix (s.evVector e)

/-- PENDING shows the events held. -/
def State.showPending (s : State) : State := s.put F.plnEvtStat_pending s.evHeld.length

/-- Write held events while there is room, then one OVERFLOW (R376); the first argument bounds the writes. -/
def State.flushEvents (k : Nat) (s : State) : State :=
  match k with
  | 0 => s.showPending
  | k + 1 =>
    if !s.evRoom then s.showPending
    else
      match s.evHeld with
      | e :: rest => flushEvents k (({ s with evHeld := rest } : State).writeEvent e)
      | [] =>
        if s.evLost = 0 then s.showPending
        else (({ s with evLost := 0 } : State).writeEvent ⟨22, none, s.now, BitVec.ofNat 64 s.evLost⟩).showPending

/-- Kinds that are never discarded: CONTEXT_LOST, MENDED, TEARDOWN_DONE. -/
def keptKind (k : Nat) : Bool := k == 2 || k == 3 || k == 5

/-- Raise an event: it joins those held, at most 256 beside the kinds never discarded, and what there is room for is written. -/
def State.postEvent (s : State) (e : Event) : State :=
  let s1 := if s.evHeld.length < 256 ∨ keptKind e.kind then { s with evHeld := s.evHeld ++ [e] }
    else { s.bump F.plnEvtStat_lost with evLost := s.evLost + 1 }
  s1.flushEvents (s1.evHeld.length + 1)

/-- The event may be raised: a kind of Table 13-7, of a context that has enabled it where EVT_EN asks for that. -/
def State.mayRaise (s : State) (e : Event) : Bool :=
  match e.ctx with
  | some c =>
    decide (c < 1024) && decide (1 ≤ e.kind) && decide (e.kind ≤ 5) &&
    (if e.kind = 1 then bit (s.get F.ctxCfg_evtEn c) 0 else if e.kind = 3 then bit (s.get F.ctxCfg_evtEn c) 1
      else if e.kind = 4 then bit (s.get F.ctxCfg_evtEn c) 2 else true)
  | none => decide (16 ≤ e.kind) && decide (e.kind ≤ 22)

/-- EVENT_RAISE: the lead pilot raises an event; one that was due is due no more. -/
def execEventRaise (e : Event) (s : State) : Out :=
  if s.leadRuns ∧ s.mayRaise e then .next (({ s with evDue := s.evDue.erase e } : State).postEvent e) else .next s

/-- The events due for a context are raised (R365). -/
def State.raiseDue (s : State) (ctx : Nat) : State :=
  let l := s.evDue.filter (fun e => e.ctx == some ctx)
  l.foldl (fun s e => if s.mayRaise e then s.postEvent e else s) { s with evDue := s.evDue.filter (fun e => !(e.ctx == some ctx)) }

/-! ## Completions (R340, R371 to R374) -/

/-- A completion to be written. -/
structure ComplEntry where
  submitId : Nat
  status : Nat
  detail : Nat
  queue : Nat
  tokens : Nat
  outUsed : Nat
  ledger : Nat
  event : Bool
  deriving DecidableEq, Repr

/-- Entries of a context's completion ring. -/
def State.cqEntries (s : State) (ctx : Nat) : Nat := 2 ^ s.get F.ctxCq_sizeLog2 ctx

/-- The completion ring is enabled and has room (R374). -/
def State.cqRoom (s : State) (ctx : Nat) : Bool :=
  s.flag F.ctxCq_enable ctx && ringRoom (s.cqEntries ctx) (s.get F.ctxCqp_producer ctx) (s.get F.ctxCqp_consumer ctx)

/-- The bytes of a completion entry (Table 13-4). -/
def completionBytes (x : ComplEntry) (lap now : Nat) : List Byte :=
  natBytes 8 x.submitId ++ natBytes 1 x.status ++ natBytes 1 x.detail ++ natBytes 1 (x.queue % 4 + 128 * phaseOf lap) ++ natBytes 1 0 ++
  natBytes 4 x.tokens ++ natBytes 4 x.outUsed ++ natBytes 2 x.ledger ++ natBytes 2 0 ++ natBytes 8 now

/-- Write a completion into a ring with room: the entry, then PRODUCER, then its event (R374, Table 13-7). -/
def State.complete (s : State) (ctx : Nat) (x : ComplEntry) : State :=
  let at_ := s.get F.ctxCqp_producer ctx
  let next := (at_ + 1) % s.cqEntries ctx
  let lap := Sparse.get 0 s.cqLap ctx
  let s1 := s.tierWrite (s.get F.ctxCq_base ctx * 4096 + 32 * at_) (completionBytes x lap s.now) []
  let s2 := s1.put F.ctxCqp_producer next ctx
  let s3 : State := { s2 with cqLap := Sparse.set 0 s2.cqLap ctx (if next = 0 then lap + 1 else lap) }
  if x.event ∧ bit (s.get F.ctxCfg_evtEn ctx) 0 then
    s3.postEvent ⟨1, some ctx, s.now, BitVec.ofNat 64 (x.queue + x.status * 256)⟩
  else s3

/-! ## The request ledger (Table 12-4, R343, R344) -/

/-- STATE of a ledger entry. -/
def State.ledState (s : State) (i : Nat) : Nat := s.get F.ledWord0_state i

/-- The transitions of Table 12-5. -/
def legalNext (st new : Nat) : Bool :=
  match st with
  | 0 => new == 1
  | 1 => new == 2 || new == 6
  | 2 => new == 3 || new == 4 || new == 6
  | 3 => new == 4 || new == 6
  | 4 => new == 5 || new == 6
  | 5 => new == 4 || new == 6
  | 6 => new == 0
  | _ => false

/-- What firmware keeps of an entry's submission. -/
def State.sub (s : State) (i : Nat) : Option Sub := (s.subs.find? (fun e => e.1 == i)).map (fun e => e.2)

/-- Change, add (as the latest) or drop it. -/
def State.setSub (s : State) (i : Nat) (x : Option Sub) : State :=
  { s with subs := match x with
    | some x => if s.subs.any (fun e => e.1 == i) then s.subs.map (fun e => if e.1 = i then (i, x) else e) else s.subs ++ [(i, x)]
    | none => s.subs.filter (fun e => e.1 != i) }

/-- A compare-and-set that succeeds: to FREE every other field is zeroed too (R344); to DONE the step of the bay counts as the last
of the submission. -/
def State.moveEntry (s : State) (i new : Nat) : State :=
  if new = 0 then
    ((((s.setReg (F.ledWord0_state.addr i) 0).setReg (F.ledWord1_deadline.addr i) 0).setReg (F.ledWord2_head.addr i) 0).setReg
      (F.ledWord3_queue.addr i) 0).setSub i none
  else
    let s1 := s.put F.ledWord0_state new i
    match s.sub i with
    | some x => if new = 6 then s1.setSub i (some { x with lastStep := s.stepOf (s.get F.ledWord0_bay i) }) else s1
    | none => s1

/-- Entries of a context that are not FREE. -/
def State.entriesOf (s : State) (ctx : Nat) : List Nat :=
  (List.range 8192).filter (fun i => s.ledState i != 0 && s.get F.ledWord0_context i == ctx)

/-- Page records of an entry's KV list, from HEAD on (Table 12-9); the first argument bounds their number. -/
def State.pageList (s : State) (k page : Nat) : List Nat :=
  match k with
  | 0 => []
  | k + 1 =>
    if page = 0xffffffff then []
    else page :: s.pageList k (bytesNat (s.tierRead (s.get F.ledCfg_pageBase * 4096 + 16 * page) 4))

/-- The pages of an entry. -/
def State.pagesOf (s : State) (i : Nat) : List Nat := s.pageList (s.get F.ledWord2_pages i) (s.get F.ledWord2_head i)

/-- Address of a page record. -/
def State.pageAddr (s : State) (page : Nat) : Nat := s.get F.ledCfg_pageBase * 4096 + 16 * page

/-- REFS of a page record goes down by one (R352). -/
def State.dropPage (s : State) (page : Nat) : State :=
  let a := s.pageAddr page + 6
  s.tierWrite a (natBytes 2 (bytesNat (s.tierRead a 2) - 1)) []

/-- The entry releases its KV pages. -/
def State.releasePages (s : State) (i : Nat) : State :=
  let s1 := (s.pagesOf i).foldl (fun s k => s.dropPage k) s
  (s1.put F.ledWord2_pages 0 i).put F.ledWord2_head 0xffffffff i

/-- Entries of one submission queue. -/
def State.sameQueue (s : State) (ctx queue i : Nat) : Bool :=
  s.get F.ledWord0_context i == ctx && s.get F.ledWord3_queue i == queue

/-- No earlier submission of the queue still waits for its completion (R340). -/
def State.firstInQueue (s : State) (ctx queue order : Nat) : Bool :=
  s.subs.all (fun e => !(s.sameQueue ctx queue e.1 && decide (e.2.order < order)))

/-- The completion of an accepted submission with its STATUS and DETAIL. OUT_USED, the bytes written at OUT_ADDR, is the firmware's
count: a free value within OUT_BYTES (log entry 142). -/
def State.completionOf (s : State) (i : Nat) (x : Sub) (status detail : Nat) : ComplEntry :=
  ⟨x.submitId, status, detail, s.get F.ledWord3_queue i, if x.op = 3 then x.tokens else 0, Config.freeNat s.fresh % (x.outBytes + 1), i,
    bit x.flags 0⟩

end Sys2Proof.Machine
end

