-- ==== Sys2Proof/Machine/Contexts.lean ====
section
/-! DEFINITION. Bays and contexts (R355 to R366, R373): carve-outs and shoal sets, bay epochs and washes, contexts from open to
free, references, doorbells and loss. -/

namespace Sys2Proof.Machine

/-! ## Carve-outs (R356) -/

/-- A bay other than `b` that is not EMPTY. -/
def State.otherBays (s : State) (b : Nat) : List Nat := (List.range 80).filter (fun k => k != b && s.get F.bayCtl_state k != 0)

/-- Two ranges share something. -/
def carvesMeet (a b c d : Nat) : Bool := decide (max a c < min b d)

/-- A shoal is named by a register pair. -/
def shoalBit (lo hi : Reg64) (k : Nat) : Bool := if k < 64 then bit lo.toNat k else bit hi.toNat (k - 64)

/-- The value of a carve-out word (0 to 2) or of a half of the shoal set (3, 4) of bay `b` is valid. -/
def State.carveValid (s : State) (b word : Nat) (v : Reg64) : Bool :=
  match word with
  | 0 => decide (field v 18 0 ≤ field v 50 32) && decide (field v 50 32 ≤ 393216)
  | 1 =>
    decide (field v 18 0 ≤ field v 50 32) && decide (field v 50 32 ≤ s.get F.plnGeom7_nearGib * 1024) &&
    (s.otherBays b).all (fun k => !carvesMeet (field v 18 0) (field v 50 32) (s.get F.bayCarve1_nearBase k) (s.get F.bayCarve1_nearLimit k))
  | 2 =>
    decide (field v 20 0 ≤ field v 52 32) && decide (field v 52 32 ≤ s.get F.plnGeom7_farGib * 1024) &&
    (s.otherBays b).all (fun k => !carvesMeet (field v 20 0) (field v 52 32) (s.get F.bayCarve2_farBase k) (s.get F.bayCarve2_farLimit k))
  | 3 => (List.range 64).all (fun k => !bit v.toNat k ||
      (s.usable k && (s.otherBays b).all (fun o => !s.bayNames o k)))
  | _ => (List.range 16).all (fun k => !bit v.toNat k ||
      (s.usable (64 + k) && (s.otherBays b).all (fun o => !s.bayNames o (64 + k))))

/-- Addresses of the five registers of R356. -/
def carveAddrs (b : Nat) : List Nat := (List.range 5).map (fun w => 0x18000 + b * 0x40 + w * 8)

/-- A WO1 register has taken its write of this epoch. -/
def State.isLocked (s : State) (a : Nat) : Bool := decide (a ∈ s.locked)

/-- Some shoal is set. -/
def State.bayNamesAny (s : State) (b : Nat) : Bool := (List.range 80).any (fun k => s.bayNames b k)

/-! ## Bay epochs (R357, R358) -/

/-- CREATE_GO takes effect: EMPTY, all five registers locked, some shoal set. -/
def State.mayCreate (s : State) (b : Nat) : Bool :=
  s.get F.bayCtl_state b == 0 && (carveAddrs b).all (fun a => s.isLocked a) && s.bayNamesAny b

/-- Contexts of the bay whose STATE is not FREE (BAY_STAT.CONTEXTS). -/
def State.contextCount (s : State) (b : Nat) : Nat := (s.bayContexts b).length

/-- The bay becomes EMPTY (R358, Table 15-8): its grid stops, its epoch advances, and its carve-outs and shoal set are open again. -/
def State.emptyBay (s : State) (b : Nat) : State :=
  let s1 := (s.disarmBay b (setField (s.reg (F.tidSched_arm.addr b)) 63 63 0)).moved (F.tidSched_arm.addr b)
  let s2 := (carveAddrs b).foldl (fun s a => ({ s with locked := eraseNat s.locked a } : State).setReg a 0) s1
  (s2.put F.bayCtl_state 0 b).wrap F.bayCtl_bayEpoch 1 b

/-! ## Bay washes (R359) -/

/-- WASH_GO: the wash of R68 starts on every core of the bay and on the reserve of each of its shoals. -/
def State.washBay (s : State) (b : Nat) : State :=
  let s1 := (s.bayCores b).foldl (fun s k => s.washCore (s.phys k) (some k)) s
  let s2 := (s.bayShoals b).foldl (fun s k => match s.spare k with
    | some r => s.washCore r none
    | none => s) s1
  s2.put F.bayCtl_washGo 1 b

/-- Every core of the bay and every reserve of its shoals has its wash behind it. -/
def State.bayWashed (s : State) (b : Nat) : Bool :=
  (s.bayCores b).all (fun k => (s.core (s.phys k)).washEnd.isNone) &&
  (s.bayShoals b).all (fun k => match s.spare k with
    | some r => (s.core r).washEnd.isNone
    | none => true)

/-- A wash whose ticks have passed ends (R69): DONE sets, GO clears. -/
def State.endWash (s : State) (p : Nat) : State :=
  s.modCore p (fun c => if c.washEnd.any (fun t => decide (t ≤ s.now)) then c.washOver else c)

/-- The wash of the bay's reserves ends with that of its cores; no command of its own ends it. -/
def State.endReserveWashes (s : State) (b : Nat) : State :=
  (s.bayShoals b).foldl (fun s k => match s.spare k with
    | some r => s.endWash r
    | none => s) s

/-- BAY_WASH_DONE: in the cycle after the last DONE, WASH_GO clears and WASHES advances; a RETIRING bay without contexts becomes
EMPTY (R358, R359). -/
def execBayWashDone (bay : Nat) (s : State) : Out :=
  onBay bay s (fun s0 =>
    let s := s0.endReserveWashes bay
    if s.flag F.bayCtl_washGo bay && s.bayWashed bay then
      let s1 := (s.put F.bayCtl_washGo 0 bay).wrap F.bayStat_washes 1 bay
      let s2 : State := { s1 with ctxWashed := (s1.bayContexts bay).foldl insertNat s1.ctxWashed }
      if s2.get F.bayCtl_state bay = 2 ∧ s2.contextCount bay = 0 then s2.emptyBay bay else s2
    else s)

/-! ## Contexts (R361 to R365) -/

/-- The carve-out or near tier holds a ring (R367): entries of `size` bytes. -/
def State.ringFits (s : State) (bay base log2 size : Nat) : Bool :=
  let lo := base * 4096
  let hi := lo + size * 2 ^ log2
  decide (4 ≤ log2) && decide (log2 ≤ 16) && decide (hi ≤ s.get F.plnGeom7_nearGib * 2 ^ 30) &&
  (bay == 127 || (decide (s.get F.bayCarve1_nearBase bay * 2 ^ 20 ≤ lo) && decide (hi ≤ s.get F.bayCarve1_nearLimit bay * 2 ^ 20)))

/-- Every enabled ring of the context lies where it may. -/
def State.ringsFit (s : State) (ctx bay : Nat) : Bool :=
  (!s.flag F.ctxCq_enable ctx || s.ringFits bay (s.get F.ctxCq_base ctx) (s.get F.ctxCq_sizeLog2 ctx) 32) &&
  (List.range 4).all (fun q => !s.flag (F.ctxSq_enable.sh (16 * q)) ctx ||
    s.ringFits bay (s.get (F.ctxSq_base.sh (16 * q)) ctx) (s.get (F.ctxSq_sizeLog2.sh (16 * q)) ctx) 128)

/-- OPEN_GO takes effect (R362). -/
def State.mayOpenCtx (s : State) (ctx : Nat) : Bool :=
  let bay := s.get F.ctxCfg_bay ctx
  s.get F.ctxCfg_state ctx == 0 && (bay == 127 || (decide (bay < 80) && s.get F.bayCtl_state bay == 1)) && s.ringsFit ctx bay

/-- The context opens. -/
def State.openCtx (s : State) (ctx : Nat) : State :=
  let bay := s.get F.ctxCfg_bay ctx
  let s1 := ((s.put F.ctxCfg_state 1 ctx).put F.ctxRef_host 1 ctx).put F.ctxCfg_tenant (if bay < 80 then s.get F.bayCtl_tenant bay else 0) ctx
  let s2 := (List.range 4).foldl (fun s q => s.setReg ((F.ctxSqp_producer.sh (16 * q)).addr ctx) 0) (s1.setReg (F.ctxCqp_producer.addr ctx) 0)
  { (s2.setReg (F.ctxFault_class.addr ctx) 0) with
    cqLap := Sparse.set 0 s2.cqLap ctx 0
    ctxWashed := eraseNat s2.ctxWashed ctx }

/-- CLOSE_GO in OPEN or LOST: CLOSING, and HOST goes down by one, not below 0 (R364). -/
def State.closeCtx (s : State) (ctx : Nat) : State :=
  (s.put F.ctxCfg_state 3 ctx).put F.ctxRef_host (s.get F.ctxRef_host ctx - 1) ctx

/-- Cores that run under a context: CTX is `ctx` and STOPPED is 0. -/
def State.coresOf (s : State) (ctx : Nat) : List Nat :=
  (List.range 1280).filter (fun k => let c := s.core (s.phys k); c.get F.corCtl_ctx == ctx && !c.flag F.corCtl_stopped)

/-- DEV (R363): ledger entries of the context that are not FREE, and its cores that are not stopped. -/
def State.devRefs (s : State) (ctx : Nat) : Nat := (s.entriesOf ctx).length + (s.coresOf ctx).length

/-- FREE_GO takes effect (R365). -/
def State.mayFree (s : State) (ctx : Nat) : Bool :=
  s.get F.ctxCfg_state ctx == 3 && s.get F.ctxRef_host ctx == 0 && s.devRefs ctx == 0

/-- The context is FREE; a RETIRING bay that has been washed since its cores stopped and has no other context becomes EMPTY
(R358, R365). -/
def State.freeCtx (s : State) (ctx : Nat) : State :=
  let bay := s.get F.ctxCfg_bay ctx
  let s1 := ((s.put F.ctxCfg_state 0 ctx).put F.ctxCfg_bay 127 ctx).setReg (F.ctxFault_class.addr ctx) 0
  let s2 := (s1.put F.ctxCookie_cookie 0 ctx).put F.ctxCq_enable 0 ctx
  let s3 := (List.range 4).foldl (fun s q => s.put (F.ctxSq_enable.sh (16 * q)) 0 ctx) s2
  let s4 : State := { s3 with
    ctxWashed := eraseNat s3.ctxWashed ctx
    teardowns := s3.teardowns.filter (fun e => e.1 != ctx) }
  if bay < 80 ∧ s.get F.bayCtl_state bay = 2 ∧ s4.contextCount bay = 0 ∧ ctx ∈ s.ctxWashed then s4.emptyBay bay else s4

/-- PLN_CTX_LOSE takes effect (R366): the context is not FREE, and the core holds a program fault. -/
def State.mayLose (s : State) (ctx core : Nat) : Bool :=
  let cls := (s.core (s.phys core)).get F.corFault_class
  s.get F.ctxCfg_state ctx != 0 && decide (core < 1280) && cls != 0 && !isHardware cls

/-- The loss that a shoal pilot reports. -/
def State.loseFrom (s : State) (ctx core : Nat) : State :=
  let c := s.core (s.phys core)
  s.loseContext ctx (c.get F.corFault_class) core (c.get F.corFault_tag)

/-- A doorbell of a context (R369): its bit of PLN_DB_SUM sets, and the lead pilot's external interrupt rises. -/
def State.doorbell (s : State) (ctx : Nat) : State :=
  { s.raiseBit F.plnDbSum_db (ctx % 64) (ctx / 64) with leadIrq := true }

/-- A stopped core starts (R202); its context's cores have then not been washed since they last stopped (R358). -/
def State.startCore (s : State) (p : Nat) : State :=
  let ctx := (s.core p).get F.corCtl_ctx
  { s.modCore p CoreState.startIssue with ctxWashed := eraseNat s.ctxWashed ctx }

/-! ## Teardown (R365) and loss (R373) -/

/-- Firmware writes a command into LDG_ENG_CMD_LO and LDG_ENG_CMD_HI of a core, which the configuration mirror copies, and then 1 to
PUSH (R59, R234). -/
def State.firmwarePush (s : State) (core : Nat) (lo hi : Reg64) : State :=
  let s1 := (s.mirrorPut core F.ldgEngCmdLo_word0 lo.toNat).mirrorPut core F.ldgEngCmdHi_word1 hi.toNat
  s1.modCore (s.phys core) (fun c => ((c.setReg F.ldgEngCmdLo_word0.base lo).setReg F.ldgEngCmdHi_word1.base hi).push)

/-- Pushes on the ledge engines' CSR path that firmware has still to make are made where PUSH reads 0 (R59). -/
def State.pushFirmware (s : State) : State :=
  s.fwPush.foldl (fun s x =>
    if (s.core (s.phys x.1)).pushHeld.isNone && s.live x.1 then
      { s.firmwarePush x.1 x.2.1 x.2.2 with fwPush := s.fwPush.erase x }
    else s) s

/-- The words of a FILL of a range with a pattern (Table 2-6). -/
def fillLo (dst : Nat) (stamp : Option (BitVec 16)) : Reg64 :=
  BitVec.ofNat 64 (dst * 2 ^ 32 + (match stamp with | some x => x.toNat * 2 ^ 16 + 2 ^ 8 | none => 0) + 1)
def fillHi (pattern chunks : Nat) : Reg64 := BitVec.ofNat 64 (chunks * 2 ^ 32 + pattern % 2 ^ 32)

/-- The enabled coves of a core that a context owns. -/
def CoreState.ownedBy (c : CoreState) (ctx : Nat) : List Cove := c.coves.filter (fun v => c.get F.coveCfg_owner v.n == ctx)

/-- DONE_COUNT a core will read once `n` more commands have completed. -/
def CoreState.doneAfter (c : CoreState) (n : Nat) : Nat :=
  (c.get F.ldgEngStat_doneCount + (c.ldgQ.filter (fun q => q.isCommand)).length + b2n (c.ldgExec.any (fun q => q.isCommand)) +
    b2n c.pushHeld.isSome + n) % (F.ldgEngStat_doneCount.max + 1)

/-- The FILLs with zero of every cove a context owns. -/
def State.fillCoves (s : State) (ctx : Nat) : State × List (Nat × Nat) :=
  let cores := (List.range 1280).filter (fun k => s.live k && !((s.core (s.phys k)).ownedBy ctx).isEmpty)
  let pushes := cores.flatMap (fun k => ((s.core (s.phys k)).ownedBy ctx).map (fun v => (k, fillLo v.base none, fillHi 0 (v.extent / 64))))
  let counts := cores.map (fun k => (k, (s.core (s.phys k)).doneAfter ((s.core (s.phys k)).ownedBy ctx).length))
  (({ s with fwPush := s.fwPush ++ pushes } : State).pushFirmware, counts)

/-- The FILLs have completed on every core. -/
def State.countsReached (s : State) (l : List (Nat × Nat)) : Bool :=
  l.all (fun x =>
    let n := F.ldgEngStat_doneCount.max + 1
    decide (((s.core (s.phys x.1)).get F.ldgEngStat_doneCount + n - x.2) % n < n / 2) && !s.fwPush.any (fun y => y.1 == x.1))

/-- The coves that a context owns are disabled. -/
def State.disableCoves (s : State) (ctx : Nat) : State :=
  (List.range 1280).foldl (fun s k =>
    ((s.core (s.phys k)).ownedBy ctx).foldl (fun s v =>
      (s.modCore (s.phys k) (fun c => c.writeCoveCfg v.n (setField (c.reg (F.coveCfg_enable.addr v.n)) 63 63 0))).mirrorPut k
        F.coveCfg_enable 0 v.n) s) s

/-- TEARDOWN (R365): with both counts 0 the lead pilot raises the events still due, then washes the bay where this is its only
context, else fills and disables the context's coves, and when that has ended raises TEARDOWN_DONE. -/
def execTeardown (ctx : Nat) (s : State) : Out :=
  onCtx ctx s (fun s =>
    if !s.leadRuns || !s.mayFree ctx then s
    else
      let bay := s.get F.ctxCfg_bay ctx
      let done (s : State) (washed : Bool) : State :=
        ({ s with teardowns := s.teardowns.filter (fun e => e.1 != ctx) } : State).postEvent
          ⟨5, some ctx, s.now, BitVec.ofNat 64 (bay + 128 * b2n washed)⟩
      match (s.teardowns.find? (fun e => e.1 == ctx)).map (fun e => e.2) with
      | none =>
        let s1 := s.raiseDue ctx
        if bay < 80 ∧ s1.contextCount bay = 1 then
          if s1.bayStopped bay ∧ !s1.flag F.bayCtl_washGo bay then
            { s1.washBay bay with teardowns := s1.teardowns ++ [(ctx, ⟨true, []⟩)] }
          else s1
        else
          let r := s1.fillCoves ctx
          { r.1 with teardowns := r.1.teardowns ++ [(ctx, ⟨false, r.2⟩)] }
      | some t =>
        if t.washed then (if s.flag F.bayCtl_washGo bay then s else done s true)
        else
          let s1 := s.pushFirmware
          if s1.countsReached t.counts then done (s1.disableCoves ctx) false else s1)

/-- CONTEXT_LOST_COMPLETE (R373): each ledger entry of a lost context is completed with CONTEXT_LOST, DETAIL 0, in the order of its
queue; one already DONE keeps its status. Its pages are released and it becomes FREE. A completion without room waits. -/
def execContextLostComplete (ctx : Nat) (s : State) : Out :=
  onCtx ctx s (fun s =>
    let lost := s.get F.ctxCfg_state ctx == 2 || (s.get F.ctxCfg_state ctx == 3 && s.get F.ctxFault_class ctx != 0)
    if !s.leadRuns || !lost then s
    else
      let l := s.subs.filter (fun e => s.get F.ledWord0_context e.1 == ctx && s.ledState e.1 != 0)
      l.foldl (fun s e =>
        if s.cqRoom ctx && s.firstInQueue ctx (s.get F.ledWord3_queue e.1) e.2.order then
          let st := if s.ledState e.1 = 6 then e.2.done.getD (0, 0) else (1, 0)
          ((s.used.complete ctx (s.completionOf e.1 e.2 st.1 st.2)).releasePages e.1).moveEntry e.1 0
        else s) s)

end Sys2Proof.Machine
end

