-- ==== Sys2Proof/Machine/Serving.lean ====
section
/-! DEFINITION. Pilots and serving (R334 to R354, R370 to R372, R231 to R235): notices, component restarts, submissions from ring
to completion, tenant budgets, decode batches, role changes, drift records sent again, and the prefix walk. -/

namespace Sys2Proof.Machine

/-- A command for a pilot: 0 to 79 of a shoal, 80 the lead pilot. -/
def onPilot (pilot : Nat) (s : State) (f : State → State) : Out :=
  if pilot ≤ 80 then .next (f s) else .fault (.noSuchPilot pilot)

/-- A command for a request ledger entry. -/
def onEntry (entry : Nat) (s : State) (f : State → State) : Out :=
  if entry < 8192 then .next (f s) else .fault (.noSuchEntry entry)

/-! ## Pilots (R336 to R338) -/

/-- The restart counts of a pilot's components, and those held down. -/
def pilotField (n : Nat) (shoalF leadF : RF) : RF := if n < 80 then shoalF else leadF

/-- Restarts of component `comp`: its byte of RST_COUNT saturates. -/
def State.countRestart (s : State) (n comp : Nat) : State :=
  let f := pilotField n F.shlPilotRst_rstCount F.plnPilotRst_rstCount
  let i := if n < 80 then n else 0
  let v := s.get f i
  s.counted f (setBits v (8 * comp + 7) (8 * comp) (min 255 (bits v (8 * comp + 7) (8 * comp) + 1))) (2 ^ (8 * comp)) i

/-- The component is held down. -/
def State.heldDown (s : State) (n comp : Nat) : Bool :=
  bit (s.get (pilotField n F.shlPilotRst_rstDown F.plnPilotRst_rstDown) (if n < 80 then n else 0)) comp

/-- The supervisor enters a component at its restart entry (R336): its scratch region is zeroed, its persistent region kept, and user
mode goes on at the entry. Region and entry are the firmware's (log entry 111). -/
def State.enterComponent (s : State) (n comp : Nat) : State :=
  let r := Config.scratch n comp
  let s1 : State := { s with sram := Sparse.clear s.sram (n * 2 ^ 32 + r.1 % 2 ^ 32) (n * 2 ^ 32 + min (r.2 % 2 ^ 32) (2 ^ 32)) }
  (s1.sramWritten n (r.1 % 2 ^ 32) (min (r.2 % 2 ^ 32) (2 ^ 32) - r.1 % 2 ^ 32)).modPilot n (fun p =>
    { p with hart := { p.hart with priv := .user, pc := Config.restartEntry n comp } })

/-- A restart of a component (R336): its counter rises, and it is entered again; more than 8 restarts in 1 s hold it down (R337), which
for the lead pilot raises PILOT_DOWN. -/
def State.restartComponent (s : State) (n comp : Nat) : State :=
  if s.heldDown n comp || (s.pilot n).inReset then s
  else
    let recent := ((s.pilot n).starts.filter (fun e => decide (s.now < e.2 + 1000000000))) ++ [(comp, s.now)]
    let s1 := (s.countRestart n comp).modPilot n (fun p => { p with starts := recent })
    if (recent.filter (fun e => e.1 == comp)).length ≤ 8 then s1.enterComponent n comp
    else
      let s2 := s1.raiseBit (pilotField n F.shlPilotRst_rstDown F.plnPilotRst_rstDown) comp (if n < 80 then n else 0)
      if n < 80 then s2 else s2.raise 19 none (comp + 0xff * 256)

/-- COMPONENT_RESTART. -/
def execComponentRestart (pilot comp : Nat) (s : State) : Out :=
  if comp ≤ 6 then onPilot pilot s (fun s => s.restartComponent pilot comp) else .fault (.noSuchPilot pilot)

/-- PILOT_RESET (R338): a machine-mode trap or an uncorrectable error of its SRAM leaves the pilot in reset until its firmware has been
loaded again. -/
def execPilotReset (pilot : Nat) (s : State) : Out :=
  onPilot pilot s (fun s => s.modPilot pilot (fun p => { p with inReset := true, hart := Hart.start }))

/-- The tier chunks of a range carry the poison marking: a pilot's read of it takes an access fault (R332). -/
def State.tierBad (s : State) (a n : Nat) : Bool :=
  s.tierPoison.any (fun k => decide (a < k * 64 + 64) && decide (k * 64 < a + n))

/-- POP (R334, R419): the shown entry goes; entries of the current tick are not shown yet. -/
def State.popNotice (s : State) (q : Nat) : State :=
  let l := Sparse.get [] s.notices q
  if l.length ≤ s.freshNotices q then s else { s with notices := Sparse.set [] s.notices q l.tail }

/-! ## Terraces (Tables 8-2, 8-3, R231 to R233) -/

/-- A little-endian number of a tier. -/
def State.tierNat (s : State) (a n : Nat) : Nat := bytesNat (s.tierRead a n)

/-- The program block of a context, and its terrace table. -/
def State.progBase (s : State) (ctx : Nat) : Nat := s.get F.ctxProg_base ctx * 64
def State.terraceTable (s : State) (ctx : Nat) : Nat := s.progBase ctx + s.tierNat (s.progBase ctx + 4) 4

/-- Bound of dimension `d` in terrace `i`. -/
def State.bound (s : State) (table i d : Nat) : Nat := s.tierNat (table + 64 + 64 * i + 4 * d) 4

/-- Terraces and dimensions of a table. -/
def State.terraces (s : State) (table : Nat) : Nat := s.tierNat table 1
def State.dims (s : State) (table : Nat) : Nat := s.tierNat (table + 1) 1

/-- The lowest-numbered terrace that holds a shape (R231). -/
def State.terraceFor (s : State) (table : Nat) (shape : List Nat) : Option Nat :=
  (List.range (s.terraces table)).find? (fun i => (List.range (min 4 (s.dims table))).all (fun d => decide (shape.getD d 0 ≤ s.bound table i d)))

/-- The lowest dimension of a shape that exceeds the largest terrace; a free one where none does, which R231 leaves open. -/
def State.overDim (s : State) (table : Nat) (shape : List Nat) : Nat :=
  ((List.range (min 4 (s.dims table))).find? (fun d => decide (s.bound table (s.terraces table - 1) d < shape.getD d 0))).getD
    (Config.freeNat s.fresh % 4)

/-- Tiles t and last extent e of a dimension (R233). -/
def tilesOf (n granule : Nat) : Nat × Nat :=
  let t := ceilDiv n granule
  (t, if n = 0 then 0 else n - (t - 1) * granule)

/-! ## Submissions (R339, R370, R371, Table 13-3) -/

/-- A submission entry as the ring server reads it. -/
structure SubEntry where
  op : Nat
  flags : Nat
  prio : Nat
  role : Nat
  ctx : Nat
  queue : Nat
  submitId : Nat
  deadline : Nat
  tenant : Nat
  prompt : Nat
  shape : List Nat
  inAddr : Nat
  outAddr : Nat
  outBytes : Nat
  maxTokens : Nat
  reserved : Nat
  deriving DecidableEq, Repr

/-- The fields of 128 bytes; `reserved` is 0 when every reserved byte is. -/
def subEntry (b : List Byte) : SubEntry :=
  let n (a k : Nat) : Nat := bytesNat ((b.drop a).take k)
  { op := n 0 1, flags := n 1 1, prio := n 2 1, role := n 3 1, ctx := n 4 2, queue := n 6 1, submitId := n 8 8, deadline := n 16 8,
    tenant := n 24 2, prompt := n 28 4, shape := [n 32 4, n 36 4, n 40 4, n 44 4], inAddr := n 48 8, outAddr := n 56 8,
    outBytes := n 64 4, maxTokens := n 68 4,
    reserved := n 7 1 + n 26 2 + n 72 56 }

/-- The entry is malformed: a reserved OP, a non-zero reserved field, or a CONTEXT or QUEUE other than the ring's (R371). -/
def SubEntry.malformed (x : SubEntry) (ctx queue : Nat) : Bool :=
  x.op == 0 || decide (3 < x.op) || decide (1 < x.flags) || decide (7 < x.prio) || decide (3 < x.role) || decide (1023 < x.tenant) ||
  x.reserved != 0 || x.ctx != ctx || x.queue != queue

/-- The refusal of a submission, as STATUS and DETAIL, tested in the order of R371; none when it is accepted. -/
def State.refuseSub (s : State) (x : SubEntry) (ctx queue : Nat) : Option (Nat × Nat) :=
  let bay := s.get F.ctxCfg_bay ctx
  let prog := s.progBase ctx
  if x.malformed ctx queue then some (6, 1)
  else if s.get F.ctxCfg_state ctx = 2 then some (1, 0)
  else if s.get F.ctxCfg_state ctx = 3 then some (1, 1)
  else if bay = 127 then some (6, 0)
  else if s.get F.bayCtl_state bay ≠ 1 then some (6, 3)
  else if s.tierNat prog 2 ≠ s.get F.plnId_class ∨ s.tierNat (prog + 2) 1 ≠ s.get F.plnId_geomCode then some (6, 2)
  else if x.role ≠ 0 ∧ x.role ≠ s.get F.bayRole_role bay then some (4, s.get F.bayRole_role bay)
  else if x.op ≠ 1 ∧ (s.terraceFor (s.terraceTable ctx) x.shape).isNone then some (2, s.overDim (s.terraceTable ctx) x.shape)
  else none

/-- Shoals of a bay count a refused shape. -/
def State.countRejected (s : State) (bay : Nat) : State :=
  (s.bayShoals bay).foldl (fun s k => s.wrap F.shlTileStat_rejected 1 k) s

/-- The ledger entry of an accepted submission, and what firmware keeps of it. -/
def State.acceptSub (s : State) (i : Nat) (x : SubEntry) : State :=
  let s1 := s.setReg (F.ledWord0_state.addr i) (BitVec.ofNat 64
    (x.tenant * 2 ^ 30 + x.ctx * 2 ^ 20 + s.get F.ctxCfg_bay x.ctx * 2 ^ 13 + x.prio * 2 ^ 10 + 1))
  let s2 := (s1.setReg (F.ledWord1_deadline.addr i) (BitVec.ofNat 64 x.deadline)).setReg (F.ledWord2_head.addr i) 0xffffffff
  let s3 := s2.setReg (F.ledWord3_queue.addr i) (BitVec.ofNat 64 (x.queue * 2 ^ 14))
  { s3.setSub i (some ⟨x.op, x.flags, x.role, x.submitId, x.prompt, x.shape, x.inAddr, x.outAddr, x.outBytes, x.maxTokens, 0, s.now, s.arrivals,
    none, none, 0, none⟩) with
    arrivals := s.arrivals + 1 }

/-- SUBMISSION_READ: the ring server copies the entry at CONSUMER, completes it at once when it is refused, and else gives it a ledger
entry. It waits while no ledger entry is FREE, and with a refusal while its completion has no room or is not in turn. -/
def execSubmissionRead (ctx queue : Nat) (s : State) : Out :=
  onCtx ctx s (fun s =>
    let f := 16 * (queue % 4)
    let at_ := s.get (F.ctxSqp_consumer.sh f) ctx
    let n := 2 ^ s.get (F.ctxSq_sizeLog2.sh f) ctx
    let a := s.get (F.ctxSq_base.sh f) ctx * 4096 + 128 * at_
    if !s.leadRuns || s.heldDown 80 0 || decide (4 ≤ queue) || s.get F.ctxCfg_state ctx == 0 || !s.flag (F.ctxSq_enable.sh f) ctx ||
        at_ == s.get (F.ctxSqp_producer.sh f) ctx then s
    else if s.tierBad a 128 then (s.pilotFault 80 .load (0x040000000000 + a)).restartComponent 80 0
    else
      let x := subEntry (s.tierRead a 128)
      let taken := s.put (F.ctxSqp_consumer.sh f) ((at_ + 1) % n) ctx
      match s.refuseSub x ctx queue with
      | some (st, detail) =>
        if s.cqRoom ctx && s.firstInQueue ctx queue s.arrivals then
          let s1 := taken.used.complete ctx ⟨x.submitId, st, detail, queue, 0, 0, 0xffff, bit x.flags 0⟩
          if st = 2 then s1.countRejected (s.get F.ctxCfg_bay ctx) else s1
        else s
      | none =>
        match (List.range 8192).find? (fun i => s.ledState i == 0) with
        | some i => taken.acceptSub i x
        | none => s)

/-! ## Tenants (R348 to R351, Table 12-8) -/

/-- BALANCE of a tenant. -/
def State.balance (s : State) (t : Nat) : Int := signed 32 (s.get F.tenWord0_balance t)

/-- A balance as BALANCE holds it; it saturates. -/
def balanceBits (x : Int) : Nat := unsigned 32 (max (-(2 ^ 31)) (min (2 ^ 31 - 1) x))

/-- Give it a balance. -/
def State.setBalance (s : State) (t : Nat) (x : Int) : State := s.put F.tenWord0_balance (balanceBits x) t

/-- Charge units (R349); the charges of a tick are kept, since a refill and a write of the tick come before them (R348). -/
def State.chargeTenant (s : State) (t amount : Nat) : State :=
  (s.counted F.tenWord0_balance (balanceBits (s.balance t - amount)) amount t).wrap F.tenWord3_charged amount t

/-- TENANT_REFILL (R348): at a tick n with n mod 2^REFILL_LOG2 = t the balance rises by RATE up to BURST, and never falls. It comes
before the tick's charges, and before a write of BALANCE in the tick, which leaves nothing of it. -/
def execTenantRefill (tenant : Nat) (s : State) : Out :=
  if 1024 ≤ tenant then .fault (.noSuchTenant tenant)
  else if s.flag F.tenWord1_enable tenant ∧ s.now % 2 ^ s.get F.ledCfg_refillLog2 = tenant then
    let charged := countedIn s.cyc.counted (F.tenWord0_balance.key tenant)
    let b := s.balance tenant + (charged.1 : Int)
    if charged.2 then .next s
    else .next (s.setBalance tenant
      (max b (min (s.get F.tenWord0_burst tenant : Int) (b + (s.get F.tenWord1_rate tenant : Int))) - (charged.1 : Int)))
  else .next s

/-- Cost of an entry (R350). -/
def State.costOf (s : State) (i : Nat) (x : Sub) : Nat :=
  (x.prompt - s.get F.ledWord3_prefixHit i) * s.get F.tenWord1_pfWeight (s.get F.ledWord0_tenant i)

/-- The budget component admits the entry now. -/
def State.admits (s : State) (i : Nat) (x : Sub) : Bool :=
  let t := s.get F.ledWord0_tenant i
  s.flag F.tenWord1_enable t && decide ((min (s.costOf i x) (s.get F.tenWord0_burst t) : Nat) ≤ s.balance t)

/-- More than HOLD_MS of the entry's tenant has passed since a tick. -/
def State.heldLong (s : State) (i since : Nat) : Bool :=
  decide (since + s.get F.tenWord1_holdMs (s.get F.ledWord0_tenant i) * 1000000 < s.now)

/-- An entry ends with a status: DONE, its completion to follow. -/
def State.finish (s : State) (i : Nat) (x : Sub) (status detail : Nat) : State :=
  (s.setSub i (some { x with done := some (status, detail) })).moveEntry i 6

/-- BUDGET_HELD (R350): a QUEUED entry not admitted within HOLD_MS of its arrival ends with BUDGET_HELD. -/
def execBudgetHeld (entry : Nat) (s : State) : Out :=
  onEntry entry s (fun s =>
    match s.sub entry with
    | some x =>
      if s.leadRuns && s.ledState entry == 1 && s.heldLong entry x.arrival && !s.admits entry x then s.finish entry x 3 0 else s
    | none => s)

/-- A step boundary of the bay lies behind a time: its current step started after it, or its grid does not run. -/
def State.boundaryPast (s : State) (b t : Nat) : Bool :=
  !s.armed b || !(s.bay b).started || decide (t < s.stepStartAt b)

/-- DEADLINE_MISSED (R341): once DEADLINE has passed, at the next step boundary of its bay the entry ends with DEADLINE_MISSED and
releases its KV pages. -/
def execDeadlineMissed (entry : Nat) (s : State) : Out :=
  onEntry entry s (fun s =>
    let d := s.get F.ledWord1_deadline entry
    match s.sub entry with
    | some x =>
      if s.leadRuns && d != 0 && decide (d < s.now) && s.ledState entry != 0 && s.ledState entry != 6 &&
          s.boundaryPast (s.get F.ledWord0_bay entry) d then
        (s.finish entry x 5 0).releasePages entry
      else s
    | none => s)

/-! ## Placing (R339, R350, R233, R234) -/

/-- Entry `i` goes before entry `j`: higher PRIO, then earlier DEADLINE (0 is later than all), then earlier arrival. -/
def State.goesBefore (s : State) (i j : Nat × Sub) : Bool :=
  let p := s.get F.ledWord0_prio i.1
  let q := s.get F.ledWord0_prio j.1
  let di := s.get F.ledWord1_deadline i.1
  let dj := s.get F.ledWord1_deadline j.1
  let late (d : Nat) : Nat := if d = 0 then 2 ^ 64 else d
  decide (q < p) || (p == q && (decide (late di < late dj) || (late di == late dj && decide (i.2.order < j.2.order))))

/-- QUEUED entries of a bay that no earlier one of their queue keeps back. -/
def State.candidates (s : State) (bay : Nat) : List (Nat × Sub) :=
  let l := s.subs.filter (fun e => s.ledState e.1 == 1)
  l.filter (fun e => s.get F.ledWord0_bay e.1 == bay &&
    l.all (fun o => !(s.sameQueue (s.get F.ledWord0_context e.1) (s.get F.ledWord3_queue e.1) o.1 && decide (o.2.order < e.2.order))))

/-- The one the scheduler places next. -/
def State.nextSub (s : State) (bay : Nat) : Option (Nat × Sub) :=
  (s.candidates bay).foldl (fun m e => match m with
    | none => some e
    | some b => if s.goesBefore e b then some e else some b) none

/-- Write the bindings of a terrace into the predicate pairs of a core (R233). -/
def State.bindPairs (s : State) (table i : Nat) (shape : List Nat) (c : CoreState) : CoreState :=
  (List.range 8).foldl (fun c k =>
    let b := s.tierNat (table + 64 + 64 * i + 24 + k) 1
    let d := bits b 6 5
    let g := s.tierNat (table + 4 + 4 * d) 4
    let e := (tilesOf (shape.getD d 0) g).2
    let n := bits b 2 0 - 1
    if bit b 7 && bits b 2 0 != 0 then
      (c.put (if bit b 4 then F.corPredEdge_outEdge else F.corPredEdge_redEdge) (if e < g then e else 0) n).put F.corPredEdge_padFill
        (b2n (bit b 3)) n
    else c) c

/-- COR_PRED_EDGE of the seven pairs as they stand, in the configuration mirror. -/
def State.mirrorPairs (s : State) (core : Nat) : State :=
  (List.range 7).foldl (fun s n =>
    [F.corPredEdge_padFill, F.corPredEdge_outEdge, F.corPredEdge_redEdge].foldl (fun s f =>
      s.mirrorPut core f ((s.core (s.phys core)).get f n) n) s) s

/-- The twelve FILLs of a shape block (R234): n, t and e of each dimension. -/
def State.shapeFills (s : State) (table : Nat) (shape : List Nat) : List (Reg64 × Reg64) :=
  let base := s.tierNat (table + 20) 4 % 2 ^ 25
  let stamp := BitVec.ofNat 16 (s.tierNat (table + 24) 2)
  (List.range 4).flatMap (fun d =>
    let n := shape.getD d 0
    let x := tilesOf n (s.tierNat (table + 4 + 4 * d) 4)
    [n, x.1, x.2].zipIdx.map (fun v => (fillLo (base + (3 * d + v.2) * 64) (some stamp), fillHi v.1 1)))

/-- Place an admitted submission on its terrace: STEP_FRAMES, the pairs and the shape block of every core; the FILLs go as places
free. -/
def State.place (s : State) (bay i : Nat) (x : Sub) (ter : Nat) : State :=
  let ctx := s.get F.ledWord0_context i
  let table := s.terraceTable ctx
  let cores := s.bayCores bay
  let counts := cores.map (fun k => (k, (s.core (s.phys k)).doneAfter 12))
  let s1 := cores.foldl (fun s k => (s.modCore (s.phys k) (fun c => s.bindPairs table ter x.shape c)).mirrorPairs k) s
  let pushes := cores.flatMap (fun k => (s.shapeFills table x.shape).map (fun f => (k, f.1, f.2)))
  let frames := s.tierNat (table + 64 + 64 * ter + 20) 4 / s.frameLen bay
  let s2 := s1.regrid bay (setField (s1.reg (F.tidSched_arm.addr bay)) 15 0 frames)
  let s3 := (s2.bayShoals bay).foldl (fun s k => (s.wrap F.shlTileStat_placed 1 k).put F.shlTileStat_last ter k) s2
  ({ s3 with
      fwPush := s3.fwPush ++ pushes
      tilers := (s3.tilers.filter (fun e => e.1 != bay)) ++ [(bay, ⟨i, s.tierNat (table + 64 + 64 * ter + 16) 4, ctx, counts⟩)] } : State).pushFirmware

/-- A page of the entry's list was found poisoned (FLAGS bit 1 of Table 12-9). -/
def State.pagesPoisoned (s : State) (i : Nat) : Bool := (s.pagesOf i).any (fun k => bit (s.tierNat (s.pageAddr k + 5) 1) 1)

/-- SUBMISSION_PLACE: in a READY bay whose cores are stopped and that places none, the next QUEUED entry is placed once the budget
admits it; its cost is charged (R339, R350). It is refused with CONTEXT_LOST when a page of it is poisoned (R352), and with SHAPE_OVER
when no terrace of the table, which may have changed since it was accepted, holds its shape (R232, Table 12-5). -/
def execSubmissionPlace (bay : Nat) (s : State) : Out :=
  onBay bay s (fun s =>
    if !s.leadRuns || s.heldDown 80 1 || s.get F.bayCtl_state bay != 1 || !s.bayStopped bay || s.tilers.any (fun e => e.1 == bay) then s
    else
      match s.nextSub bay with
      | none => s
      | some (i, x) =>
        let table := s.terraceTable (s.get F.ledWord0_context i)
        let ter := s.terraceFor table x.shape
        if s.pagesPoisoned i then s.finish i x 1 0
        else if x.op ≠ 1 ∧ ter.isNone then (s.used.finish i x 2 (s.overDim table x.shape)).countRejected bay
        else if !s.admits i x then s
        else
          let t := s.get F.ledWord0_tenant i
          let s1 := ((s.chargeTenant t (s.costOf i x)).wrap F.tenWord2_admitted 1 t).setSub i (some { x with placed := some s.now })
          let s2 := s1.moveEntry i 2
          if x.op = 1 then s2
          else
            match ter with
            | some ter => s2.place bay i x ter
            | none => s2)

/-- TILER_START (R235): once the twelve FILLs of every core have completed the tiler writes ENTRY and starts the cores; with
TIMEOUT set it starts none. -/
def execTilerStart (bay : Nat) (s : State) : Out :=
  onBay bay s (fun s0 =>
    let s := s0.pushFirmware
    match (s.tilers.find? (fun e => e.1 == bay)).map (fun e => e.2) with
    | none => s
    | some t =>
      if s.railHeld || !s.countsReached t.counts then s
      else
        let s1 : State := { s with tilers := s.tilers.filter (fun e => e.1 != bay) }
        if (s.bayCores bay).any (fun k => (s.core (s.phys k)).flag F.ldgEngStat_timeout) then s1
        else (s.bayCores bay).foldl (fun s k =>
          let c := s.core (s.phys k)
          if c.flag F.corCtl_stopped && !c.flag F.corCtl_faulted then
            let s2 := (s.setCore (s.phys k) ((c.put F.corCtl_entry (t.start / 4 * 4)).put F.corCtl_ctx t.ctx)).startCore (s.phys k)
            (s2.mirrorPut k F.corCtl_entry (t.start / 4 * 4)).mirrorPut k F.corCtl_ctx t.ctx
          else s) s1)

/-! ## Completions (R340) -/

/-- The step that follows the last step of a submission has started, without a breach or a mend fence of it. -/
def State.stepBehind (s : State) (b last : Nat) : Bool :=
  if s.armed b then decide (last < s.stepOf b) && !(s.bay b).breached && !(s.bay b).restored && !(s.bay b).fenced else s.bayStopped b

/-- COMPLETION_WRITE (R340, R374): a DONE entry whose completion is in turn gets it, and becomes FREE. -/
def execCompletionWrite (entry : Nat) (s : State) : Out :=
  onEntry entry s (fun s =>
    match s.sub entry with
    | some x =>
      let ctx := s.get F.ledWord0_context entry
      if s.leadRuns && !s.heldDown 80 0 && s.ledState entry == 6 && s.stepBehind (s.get F.ledWord0_bay entry) x.lastStep && s.cqRoom ctx &&
          s.firstInQueue ctx (s.get F.ledWord3_queue entry) x.order then
        let st := x.done.getD (0, 0)
        (s.used.complete ctx (s.completionOf entry x st.1 st.2)).moveEntry entry 0
      else s
    | none => s)

/-! ## Decode batches (R351, R352) -/

/-- Every page of the entry's list lies in the basins of the bay, and none was found poisoned. -/
def State.pagesReady (s : State) (i bay : Nat) : Bool :=
  (s.pagesOf i).all (fun k =>
    let a := s.pageAddr k
    s.tierNat (a + 4) 1 == 0 && bits (s.tierNat (a + 8) 8) 22 16 == bay && !bit (s.tierNat (a + 5) 1) 1)

/-- The DECODE entries of a bay. -/
def State.decoding (s : State) (bay : Nat) : List (Nat × Sub) :=
  s.subs.filter (fun e => s.ledState e.1 == 4 && s.get F.ledWord0_bay e.1 == bay)

/-- The request generates more tokens: fewer than its MAX_TOKENS (Table 13-3). -/
def Sub.mayGenerate (x : Sub) : Bool := x.op != 3 || decide (x.tokens < x.maxTokens)

/-- DECODE_BATCH (R351): entries of tenants below zero are left out, HELD counting once a tenant; one left out for longer than HOLD_MS
is parked; each entry of the batch whose pages are ready is charged 256 units for its token. An entry with a page found
poisoned ends with CONTEXT_LOST (R352). -/
def execDecodeBatch (bay : Nat) (s : State) : Out :=
  onBay bay s (fun s =>
    if !s.leadRuns || s.heldDown 80 1 then s
    else
      let l := s.decoding bay
      let below := l.filter (fun e => decide (s.balance (s.get F.ledWord0_tenant e.1) < 0))
      let s1 := ((below.map (fun e => s.get F.ledWord0_tenant e.1)).eraseDups).foldl (fun s t => s.bump F.tenWord2_held 1 t) s
      let s2 := below.foldl (fun s e =>
        let since := e.2.leftOut.getD s.now
        if s.heldLong e.1 since then (s.setSub e.1 (some { e.2 with leftOut := none })).moveEntry e.1 5
        else s.setSub e.1 (some { e.2 with leftOut := some since })) s1
      (l.filter (fun e => decide (0 ≤ s.balance (s.get F.ledWord0_tenant e.1)) && e.2.mayGenerate)).foldl (fun s e =>
        if s.pagesPoisoned e.1 then s.finish e.1 e.2 1 0
        else if s.pagesReady e.1 bay then
          ((s.chargeTenant (s.get F.ledWord0_tenant e.1) 256).wrap F.ledWord3_generated 1 e.1).setSub e.1
            (some { e.2 with leftOut := none, tokens := e.2.tokens + 1 })
        else s) s2)

/-! ## Role changes (R346, Table 12-6) -/

/-- Work of the bay that stands in the way of a role change: entries in PREFILL or DECODE. -/
def State.roleWork (s : State) (bay : Nat) : Bool :=
  s.subs.any (fun e => s.get F.ledWord0_bay e.1 == bay && (s.ledState e.1 == 2 || s.ledState e.1 == 4))

/-- ROLE_CHANGE: with the bay's work done, its cores drained and its grid disarmed, BAY_ROLE takes the new role and EPOCH + 1 in one
write, and ROLE_CHANGED is raised. -/
def execRoleChange (bay role : Nat) (s : State) : Out :=
  onBay bay s (fun s =>
    if !s.leadRuns || s.heldDown 80 1 || decide (3 < role) || s.roleWork bay || !s.bayStopped bay || s.armed bay || !s.flag F.bayDrain_done bay then s
    else
      let e := (s.get F.bayRole_epoch bay + 1) % 65536
      (((s.keepRole bay (s.get F.bayRole_epoch bay)).put F.bayRole_role role bay).put F.bayRole_epoch e bay).raise 18 none (bay + role * 2 ^ 8 + e * 2 ^ 16))

/-! ## Drift records sent again (R347) -/

/-- The drift record at an offset. -/
def State.driftByte (s : State) (off k : Nat) : Nat := s.get F.hbrDriftCfg_base * 4096 + (off + k) % s.driftSize

/-- `n` bytes of it from byte `k` on. -/
def State.driftRead (s : State) (off k n : Nat) : List Byte :=
  (List.range n).map (fun i => Sparse.get 0 s.tier (s.driftByte off (k + i)))

/-- The window is not open for the drift engine, or the record's flit count is out of range. -/
def State.redriveBad (s : State) (win off : Nat) : Bool :=
  let flits := bytesNat (s.driftRead off 14 2)
  !s.flag F.hbrWinCtl_open win || s.get F.hbrWinCfg_sendPos win != s.hall || s.get F.hbrWinCfg_sendCore win != leadSender ||
  flits == 0 || decide (4096 < flits)

/-- Slots of the window that the record needs. -/
def State.redriveNeeds (s : State) (win off : Nat) : Nat :=
  s.slotsNeeded s.hall win (bytesNat (s.driftRead off 14 2) * 128)

/-- The drift engine sends a record once it has credit: one elastic consignment with the record's stamp and the destination bay's epoch,
whose flits enter at the destination's pass. `via` 48 stands for the engine. -/
def State.settleRedrive (s : State) : State :=
  match s.redrive with
  | none => s
  | some off =>
    let win := s.get F.hbrRedrive_window
    let cr := s.driftCredit win
    let need := s.redriveNeeds win off
    if cr.2 < need then s
    else
      let flits := bytesNat (s.driftRead off 14 2)
      let dst := (s.win win).core
      let w : WordCtx := ⟨0, true, BitVec.ofNat 16 (bytesNat (s.driftRead off 12 2)), none, none, 0, 0, 0⟩
      let q : Consign := {
        id := s.fresh
        kind := 3
        srcCore := leadSender
        srcPos := s.hall
        dstPos := s.hall
        ctx := 0
        w := w
        stream := 0
        elastic := true
        epoch := s.epochOf dst
        stepNo := s.stepNo dst
        cid := s.nextCid leadSender
        win := win
        slot := cr.1
        port := none
        via := some 48
        lane := none
        lands := []
        flits := some flits
        dests := [Dest.to dst]
        firstAt := 0
        diverted := false
        divert := []
        tier := none }
      let chunks := (List.range (2 * flits)).map (fun k => (s.driftRead off (64 + 64 * k) 64, false))
      let l := (sendFlits q.id (coreX dst) (coreY dst) (s.now + 1) [dst] chunks).map (fun f => { f with inPort := 5 })
      let s1 := s.setDriftCredit win (s.creditSlot s.hall win cr.1 need) (cr.2 - need)
      { s1 with
        redrive := none
        conss := s1.conss ++ [q]
        flits := s1.flits ++ l
        cidNext := Sparse.set 0 s1.cidNext leadSender ((q.cid + 1) % 65536)
        fresh := s1.fresh + 1 }

/-- GO of HBR_REDRIVE clears once the commit marker, which follows the last flit, has left the engine's pass (R347). -/
def State.redriveLeft (s : State) : State :=
  if s.flag F.hbrRedrive_go && s.redrive.isNone &&
      !s.flits.any (fun f => !f.atCore && s.conss.any (fun q => q.id == f.cons && q.srcCore == leadSender && q.via == some 48)) then
    s.put F.hbrRedrive_go 0
  else s

/-- GO of HBR_REDRIVE: ERR sets and nothing is sent for a bad window or record; else the record waits for its credit. -/
def State.startRedrive (s : State) : State :=
  let off := s.get F.hbrRedrive_record
  if s.redriveBad (s.get F.hbrRedrive_window) off then (s.raiseFlag F.hbrRedrive_err).put F.hbrRedrive_go 0
  else ({ s.put F.hbrRedrive_go 1 with redrive := some off } : State).settleRedrive

/-- GRANT_RECEIVE: the slots join the sender's credit (R105); those for SEND_CORE 2,047 are the drift engine's. -/
def execGrantReceive (core plain win first count : Nat) (s : State) : Out :=
  let taken := (s.takeMsg (fun m => m.core == core && (match m.slot with
      | .grant _ w f n => w == win && f == first && n == count
      | _ => false))).2
  if core = leadSender then
    let cr := s.driftCredit win
    .next (taken.setDriftCredit win (if cr.2 = 0 then first else cr.1) (cr.2 + count)).settleRedrive
  else onCore core s (fun p c =>
    let s1 := taken
    match c.routeTo plain win with
    | none => s1
    | some e =>
      let cr := c.credit e
      s1.setCore p (c.setCredit e (if cr.2 = 0 then first else cr.1) (cr.2 + count)))

/-! ## The prefix walk (R353, R354, Table 12-10) -/

/-- One step of the chained hash. -/
def hashStep (h token : Nat) : Nat := Nat.xor h token * 0x100000001b3 % 2 ^ 64

/-- The hash after a block of 64 tokens. -/
def blockHash (h : Nat) (tokens : List Byte) : Nat :=
  (List.range 64).foldl (fun h j => hashStep h (bytesNat ((tokens.drop (4 * j)).take 4))) h

/-- Address of a node, and of a bucket. -/
def State.nodeAddr (s : State) (n : Nat) : Nat := s.get F.ledWalkCfg_nodeBase * 4096 + 64 * n
def State.bucketAddr (s : State) (h : Nat) : Nat := s.get F.ledWalkCfg_bucketBase * 4096 + 4 * (h % 2 ^ s.get F.ledWalkCfg_bucketLog2)

/-- What ends a search of a bucket: a node, a miss, or an uncorrectable read. -/
inductive Found where
  | node (n : Nat)
  | miss
  | bad
  deriving DecidableEq, Repr

/-- Search the chain of a bucket, at most `k` nodes. -/
def State.searchChain (s : State) (k n h parent scope : Nat) : Found :=
  match k with
  | 0 => .miss
  | k + 1 =>
    if n = 0xffffffff then .miss
    else
      let a := s.nodeAddr n
      if s.tierBad a 64 then .bad
      else if bit (s.tierNat (a + 22) 1) 0 && s.tierNat a 8 == h && s.tierNat (a + 8) 4 == parent && s.tierNat (a + 20) 2 == scope then .node n
      else s.searchChain k (s.tierNat (a + 12) 4) h parent scope

/-- The outcome of a walk: blocks matched, last node, whether an uncorrectable read ended it. -/
structure WalkRes where
  matched : Nat
  last : Nat
  err : Bool
  deriving DecidableEq, Repr

/-- Walk `k` blocks of the prompt from the block at `a` on (R353). -/
def State.walkBlocks (s : State) (k a h parent scope : Nat) (r : WalkRes) : WalkRes :=
  match k with
  | 0 => r
  | k + 1 =>
    if s.tierBad a 256 then { r with err := true }
    else
      let tokens := s.tierRead a 256
      let h1 := blockHash h tokens
      if s.tierBad (s.bucketAddr h1) 4 then { r with err := true }
      else
        match s.searchChain 64 (s.tierNat (s.bucketAddr h1) 4) h1 parent scope with
        | .miss => r
        | .bad => { r with err := true }
        | .node n =>
          let copy := s.tierNat (s.nodeAddr n + 40) 8
          if s.flag F.ledWalkCfg_verify && s.tierBad copy 256 then { r with err := true }
          else if s.flag F.ledWalkCfg_verify && s.tierRead copy 256 != tokens then r
          else s.walkBlocks k (a + 256) h1 n scope ⟨r.matched + 1, n, false⟩

/-- PREFIX_WALK_END: the walk under way ends, LED_WALK_RES is set and GO clears. -/
def execPrefixWalkEnd (s : State) : Out :=
  if s.flag F.ledWalkCmd_go then
    let scope := s.get F.ledWalkCmd_scope
    let r := s.walkBlocks (s.get F.ledWalkCmd_blocks + 1) (s.get F.ledWalkCmd_tokens * 64) (Nat.xor 0xcbf29ce484222325 scope) 0xffffffff scope
      ⟨0, 0xffffffff, false⟩
    let s1 := ((s.put F.ledWalkRes_matched r.matched).put F.ledWalkRes_node r.last).raiseFlag F.ledWalkRes_done
    .next ((if r.err then s1.raiseFlag F.ledWalkRes_err else s1).put F.ledWalkCmd_go 0)
  else .next s

end Sys2Proof.Machine
end

