-- ==== Sys2Proof/Machine/Mirror.lean ====
section
/-! DEFINITION. The cold mirror (R329, Tables 11-7 and 11-8): loading basins from far tier, and saving them to it. -/

namespace Sys2Proof.Machine

/-- A mirror segment (Table 11-8). -/
structure Segment where
  core : Nat
  addr : Nat
  chunks : Nat
  stamp : Nat
  post : Bool
  off : Nat
  deriving DecidableEq, Repr

/-- Far-tier address of the mirror. -/
def State.mirrorBase (s : State) : Nat := s.get F.plnMirrorCfg_base * 4096

/-- Segment `i` of the mirror. -/
def State.segment (s : State) (i : Nat) : Segment :=
  let a := s.mirrorBase + 64 + 32 * i
  ⟨s.tierNat a 2, s.tierNat (a + 2) 4, s.tierNat (a + 6) 4, s.tierNat (a + 10) 2, bit (s.tierNat (a + 12) 1) 0, s.tierNat (a + 16) 8⟩

/-- The segments of the mirror: at most 65,536 (Table 11-7). -/
def State.segments (s : State) : List Segment :=
  (List.range (min 65536 (s.tierNat s.mirrorBase 4))).map (fun i => s.segment i)

/-- The header names this plain's class and geometry. -/
def State.mirrorOurs (s : State) : Bool :=
  s.tierNat (s.mirrorBase + 4) 2 == s.get F.plnId_class && s.tierNat (s.mirrorBase + 6) 1 == s.get F.plnId_geomCode

/-- The segment lies inside the carve-out its core is checked against, on chunks of a core that exists. -/
def State.segmentInside (s : State) (x : Segment) : Bool :=
  decide (x.core < 1280) && decide (x.addr % 64 = 0) && decide (1 ≤ x.chunks) &&
  decide ((s.carve (x.core / 16)).1 * 64 ≤ x.addr) && decide (x.addr + x.chunks * 64 ≤ (s.carve (x.core / 16)).2 * 64)

/-- Far-tier address of a segment's payload. -/
def State.segmentFar (s : State) (x : Segment) : Nat := s.mirrorBase + 64 * x.off

/-- The payload lies in a tier and its capacity (R21), and in the tier carve-out of the core's bay (R22). The mirror is no transfer of a
core: for a core in no bay only R21 is asked (log entry 143). -/
def State.segmentReached (s : State) (x : Segment) : Bool :=
  s.tierExists (s.segmentFar x) (64 * x.chunks) && ((s.bayOf (x.core / 16)).isNone || s.tierOk (x.core / 16) (s.segmentFar x) (64 * x.chunks))

/-- The header and the segment table lie in a tier and its capacity (R21). -/
def State.mirrorTable (s : State) : Bool :=
  s.tierExists s.mirrorBase 64 && s.tierExists s.mirrorBase (64 + 32 * min 65536 (s.tierNat s.mirrorBase 4))

/-- What stops an operation before it moves data: ERR_CODE, 0 for nothing. A range of the tier that the DMA may not reach shows the code
of a carve-out, since Table 11-7 has none of its own (log entry 143). -/
def State.mirrorError (s : State) (save : Bool) : Nat :=
  if !s.mirrorTable then 3
  else if !save && !s.mirrorOurs then 1
  else if !s.segments.all (fun x => (s.core (s.phys x.core)).flag F.corCtl_stopped) then 2
  else if !s.segments.all (fun x => s.segmentInside x && s.segmentReached x) then 3
  else 0

/-- The bay whose tier traffic a segment is. -/
def State.segmentBay (s : State) (x : Segment) : Nat := (s.bayOf (x.core / 16)).getD 80

/-- Chunk `k` of a segment, from the mirror to the basin. -/
def State.loadChunk (s : State) (x : Segment) (k : Nat) : State :=
  let a := s.segmentFar x + 64 * k
  let p := s.phys x.core
  let bs := s.tierRead a 64
  (s.charge p ((s.core p).writeCharge .dmaWrite none [⟨x.addr + 64 * k, bs⟩])).land p .dmaWrite none (x.addr + 64 * k) bs (s.tierBad a 64)

/-- A segment from the mirror to the basin; STAMP is posted to every slot wholly inside it where FLAGS asks for that. -/
def State.loadSegment (s : State) (x : Segment) : State :=
  let p := s.phys x.core
  let s1 := (List.range x.chunks).foldl (fun s k => s.loadChunk x k) s
  let slots := (s1.core p).whollyIn (rangeChunks x.addr x.chunks)
  let s2 := if x.post then s1.modCore p (fun c => slots.foldl (fun c v => c.post (BitVec.ofNat 16 x.stamp) v) c) else s1
  s2.countBytes (s.segmentBay x) (64 * x.chunks)

/-- Chunk `k` of a segment, from the basin to the mirror; a poisoned chunk carries its marking. -/
def State.saveChunk (s : State) (x : Segment) (k : Nat) : State :=
  let a := s.segmentFar x + 64 * k
  let c := s.core (s.phys x.core)
  (s.charge (s.phys x.core) 4).tierWrite a (c.peek (x.addr + 64 * k) 64) (if c.poisoned (x.addr + 64 * k) then [a / 64] else [])

/-- A segment from the basin to the mirror. -/
def State.saveSegment (s : State) (x : Segment) : State :=
  ((List.range x.chunks).foldl (fun s k => s.saveChunk x k) s).countBytes (s.segmentBay x) (64 * x.chunks)

/-- GO: the checks are made, and the data of an operation that passes them moves; GO reads 1 until MIRROR_DONE. -/
def State.startMirror (s : State) : State :=
  let save := s.flag F.plnMirrorCfg_dir
  let err := s.mirrorError save
  let segs := s.segments
  let s1 := if err ≠ 0 then s
    else if save then segs.foldl (fun s x => s.saveSegment x) s
    else segs.foldl (fun s x => s.loadSegment x) s
  { (s1.put F.plnMirrorCfg_go 1).put F.plnMirrorStat_segsDone 0 with
    mirrorOp := some ⟨save, err, if err = 0 then segs.length else 0⟩ }

/-- MIRROR_DONE: DONE or ERR sets, and GO clears. -/
def execMirrorDone (s : State) : Out :=
  match s.mirrorOp with
  | none => .next s
  | some m =>
    let s1 := (s.put F.plnMirrorStat_segsDone m.segs).put F.plnMirrorStat_errCode m.err
    let s2 := if m.err = 0 then s1.raiseFlag F.plnMirrorStat_done else s1.raiseFlag F.plnMirrorStat_err
    .next { s2.put F.plnMirrorCfg_go 0 with mirrorOp := none }

end Sys2Proof.Machine
end

