-- ==== Sys2Proof/Machine/Store.lean ====
section
/-! DEFINITION. The non-volatile store (R378), the journal (R395 to R399), image headers and frames (R379 to R382, R386), and partial
reconfiguration (R391 to R393). -/

namespace Sys2Proof.Machine

/-! ## The store (Table 14-1) -/

/-- What an erased byte reads as (R378). -/
def erasedByte : Byte := 0xff#8

/-- First byte of an image slot, of a journal area, and the end of the store. -/
def slotBase (slot : Nat) : Nat := slot * 0xc000000
def areaBase (area : Nat) : Nat := 0x18000000 + area * 0x100000
def storeEnd : Nat := 0x18200000

/-- Bytes of the store. -/
def State.storeRead (s : State) (a n : Nat) : List Byte := Bytes.read erasedByte s.store a n

/-- The number held in bytes of the store. -/
def State.storeNat (s : State) (a n : Nat) : Nat := bytesNat (s.storeRead a n)

/-- The store reports a word of the range as uncorrectable. -/
def State.storeFails (s : State) (a n : Nat) : Bool := s.storeBad.any (fun w => decide (a < w + 8) && decide (w < a + n))

/-- Write bytes to the store; the words they lie in are good again. -/
def State.storeWrite (s : State) (a : Nat) (bs : List Byte) : State :=
  { s with
    store := Bytes.write erasedByte s.store a bs
    storeBad := s.storeBad.filter (fun w => !(decide (a < w + 8) && decide (w < a + bs.length))) }

/-- Erase a range of the store. -/
def State.storeClear (s : State) (lo hi : Nat) : State :=
  { s with
    store := Sparse.clear s.store lo hi
    storeBad := s.storeBad.filter (fun w => !(decide (lo ≤ w) && decide (w < hi))) }

/-- Size of the store's erase block: its own (R432), a power of two between 8 B and 1 MiB. -/
def eraseSize : Nat := 2 ^ (3 + Config.storeBlock % 18)

/-- Erase the block an address lies in. -/
def State.storeErase (s : State) (a : Nat) : State := s.storeClear (a / eraseSize * eraseSize) (a / eraseSize * eraseSize + eraseSize)

/-! ## The journal (R395, R396) -/

/-- The area begins with a valid header. -/
def State.areaValid (s : State) (area : Nat) : Bool :=
  let a := areaBase area
  s.storeNat a 2 == 0x4a4e && s.storeNat (a + 2) 6 == 0 && s.storeNat (a + 16) 47 == 0 && s.storeNat (a + 63) 1 == 0x5a && !s.storeFails a 64

/-- GEN of an area. -/
def State.areaGen (s : State) (area : Nat) : Nat := s.storeNat (areaBase area + 8) 8

/-- The active area: the valid one with the larger GEN. -/
def State.activeArea (s : State) : Option Nat :=
  if s.areaValid 0 && s.areaValid 1 then some (if s.areaGen 0 < s.areaGen 1 then 1 else 0)
  else if s.areaValid 0 then some 0
  else if s.areaValid 1 then some 1
  else none

/-- Records an area holds (R399). -/
def areaRecords : Nat := 65532

/-- Address of record `k` of an area. -/
def recordAt (area k : Nat) : Nat := areaBase area + 64 + 16 * k

/-- A record as it reads. -/
inductive JRecord where
  | ends
  | torn
  | holds (addr : Nat) (value : Reg64)
  deriving DecidableEq, Repr

/-- Read the record at a store address (R396). -/
def State.readRecord (s : State) (a : Nat) : JRecord :=
  let word := s.storeNat (a + 8) 4
  if s.storeNat a 16 = 2 ^ 128 - 1 then .ends
  else if s.storeFails a 16 || s.storeNat (a + 12) 3 != 0 || s.storeNat (a + 15) 1 != 0x5a || word % 8 != 0 || decide (2 ^ 26 ≤ word) then .torn
  else .holds word (BitVec.ofNat 64 (s.storeNat a 8))

/-- The records of an area from position `k` on, at most `n`. -/
def State.records (s : State) (area n k : Nat) : List JRecord :=
  match n with
  | 0 => []
  | n + 1 =>
    match s.readRecord (recordAt area k) with
    | .ends => []
    | r => r :: s.records area n (k + 1)

/-- The bytes of a record. -/
def recordBytes (addr : Nat) (value : Reg64) : List Byte := natBytes 8 value.toNat ++ natBytes 4 addr ++ [0, 0, 0, 0x5a#8]

/-- The bytes of an area header. -/
def areaHeader (gen : Nat) : List Byte := natBytes 2 0x4a4e ++ natBytes 6 0 ++ natBytes 8 gen ++ List.replicate 47 0 ++ [0x5a#8]

/-- The registers of Table 14-6. -/
def isJournalled (a : Nat) : Bool :=
  a == 0x7008 || a == 0x70a0 || a == 0x70a8 || a == 0x12c00 || a == 0x10010 || a == 0x16000 ||
  (decide (0x10100 ≤ a) && decide (a < 0x10280) && a % 8 == 0) || (decide (0x12d00 ≤ a) && decide (a < 0x12e80) && a % 8 == 0) ||
  (decide (0x12000 ≤ a) && decide (a < 0x12c00) && (a % 64 == 0 || a % 64 == 0x28 || a % 64 == 0x30)) ||
  (decide (0x60000 ≤ a) && decide (a < 0x68000) && (a % 32 == 0 || a % 32 == 8))

/-! ## Appends and compaction (R398, R399) -/

/-- USED at and beyond which the engine compacts: 75%. -/
def compactAt : Nat := 49149

/-- An append enters the queue of 16, or waits with PUSH at 1; an address outside Table 14-6 is refused. -/
def State.pushAppend (s : State) : State :=
  let a := s.get F.imgJrnlAddr_addr * 8
  if !isJournalled a then (s.raiseFlag F.imgJrnlStat_err).put F.imgJrnlCmd_push 0
  else if s.appends.length < 16 then
    { s.put F.imgJrnlCmd_push 0 with appends := s.appends ++ [(a, BitVec.ofNat 64 (s.get F.imgJrnlVal_value))] }
  else s.put F.imgJrnlCmd_push 1

/-- The last valid record of each address, in the order of their last appearance. -/
def lastRecords (l : List JRecord) : List (Nat × Reg64) :=
  l.foldl (fun acc r => match r with
    | .holds a v => acc.filter (fun e => e.1 != a) ++ [(a, v)]
    | _ => acc) []

/-- Torn records among those read. -/
def tornCount (l : List JRecord) : Nat := (l.filter (fun r => r == .torn)).length

/-- Compact the active area into the other one (R399). -/
def State.compactJournal (s : State) : State :=
  match s.journalGen with
  | none => s.put F.imgJrnlCmd_compact 0
  | some gen =>
    let old := s.get F.imgJrnlStat_area
    let new := 1 - old
    let all := s.records old areaRecords 0
    let kept := lastRecords all
    let s1 := s.storeClear (areaBase new) (areaBase new + 0x100000)
    let s2 := s1.storeWrite (recordAt new 0) (kept.flatMap (fun e => recordBytes e.1 e.2))
    let s3 := (s2.storeWrite (areaBase new) (areaHeader (gen + 1))).storeClear (areaBase old) (areaBase old + 0x100000)
    let s4 := ((s3.put F.imgJrnlStat_area new).put F.imgJrnlStat_used kept.length).bump F.imgJrnlStat_torn (tornCount all)
    { (s4.put F.imgJrnlStat_tight (b2n (decide (compactAt ≤ kept.length)))).put F.imgJrnlCmd_compact 0 with journalGen := some (gen + 1) }

/-- The store has an active area: the first append makes one (R395). -/
def State.withArea (s : State) : State :=
  if s.journalGen.isNone then
    { ((s.storeClear (areaBase 0) (areaBase 0 + 0x100000)).storeWrite (areaBase 0) (areaHeader 1)).put F.imgJrnlStat_area 0 with journalGen := some 1 }
  else s

/-- One append reaches the store. -/
def State.appendRecord (s0 : State) (addr : Nat) (value : Reg64) : State :=
  let s := s0.withArea
  let used := s.get F.imgJrnlStat_used
  if areaRecords ≤ used then s.raiseFlag F.imgJrnlStat_full
  else
    let s1 := (s.storeWrite (recordAt (s.get F.imgJrnlStat_area) used) (recordBytes addr value)).put F.imgJrnlStat_used (used + 1)
    if compactAt ≤ used + 1 ∧ s1.get F.imgJrnlStat_tight = 0 then s1.compactJournal else s1

/-- JOURNAL_APPEND: the first queued append is written once the journal has been read; a PUSH that waits enters the queue. -/
def execJournalAppend (s : State) : Out :=
  match s.appends with
  | [] => .next s
  | (a, v) :: rest =>
    if !s.loader.replayed then .next s
    else
      let s1 := ({ s with appends := rest } : State).appendRecord a v
      .next (if s1.flag F.imgJrnlCmd_push then s1.pushAppend else s1)

/-! ## Image headers (Table 14-2, R381) -/

/-- Where an image lies: in the store, or in near tier (R392). -/
inductive Source where
  | store (base : Nat)
  | tier (base : Nat)
  deriving DecidableEq, Repr

/-- Bytes of an image, counted from its header. -/
def State.imageBytes (s : State) (x : Source) (off n : Nat) : List Byte :=
  match x with
  | .store base => s.storeRead (base + off) n
  | .tier base => s.tierRead (base + off) n

/-- Some word of the range reads uncorrectable. -/
def State.imageFails (s : State) (x : Source) (off n : Nat) : Bool :=
  match x with
  | .store base => s.storeFails (base + off) n
  | .tier base => s.tierBad (base + off) n

/-- The number held in bytes of a header. -/
def hdr (h : List Byte) (off n : Nat) : Nat := bytesNat ((h.drop off).take n)

/-- Geometry bytes of a header: 10 to 27 and 64 to 75. -/
def geometryBytes (h : List Byte) : List Byte := (h.drop 10).take 18 ++ (h.drop 64).take 12

/-- The STRAND_CAPS of a header agree with its extensions. -/
def capsOk (h : List Byte) : Bool :=
  let c := hdr h 64 8
  (bits c 59 55 == 0) == (hdr h 15 1 == 0) &&
  (List.range 4).all (fun i => (bits c (39 + 5 * i) (35 + 5 * i) == 0) == decide (hdr h 13 1 ≤ i)) &&
  (let w := bit (hdr h 14 1) 0
   (bits c 29 25 != 0) == w && (bits c 20 16 != 0) == w && (bits c 15 12 != 0) == w && decide (bits c 15 12 ≤ 8)) &&
  (let a := bit (hdr h 14 1) 1
   (bits c 34 30 != 0) == a && (bits c 24 21 != 0) == a && (bits c 11 8 != 0) == a && decide (bits c 11 8 ≤ 8))

/-- START_ORDER is a permutation of 1 to 4. -/
def orderOk (h : List Byte) : Bool := (List.range 4).all (fun k => (List.range 4).any (fun i => hdr h (28 + i) 1 == k + 1))

/-- The checks of R381 in order: whether each holds, the IMG_FAIL cause of its failure, and the header byte at fault. -/
def State.headerChecks (s : State) (h : List Byte) : List (Bool × Nat × Nat) :=
  [(hdr h 0 2 == 0x4e59, 1, 0), (hdr h 2 1 == 1, 1, 2), (hdr h 4 2 == s.get F.plnId_class, 2, 4),
   (bit (hdr h 8 2) (s.get F.plnId_stepping), 3, 8),
   (decide (18 ≤ hdr h 44 4) && decide (hdr h 44 4 ≤ 25165824), 9, 44),
   (hdr h 3 1 == 0, 4, 3), (hdr h 7 1 == 0, 4, 7), (hdr h 6 1 != 0, 4, 6), (decide (hdr h 10 1 ≤ 1), 4, 10),
   (hdr h 11 1 == 32 || hdr h 11 1 == 64, 4, 11), (decide (hdr h 13 1 ≤ 4), 4, 13), (decide (hdr h 14 1 ≤ 3), 4, 14),
   (decide (hdr h 15 1 ≤ 64), 4, 15), (hdr h 16 10 != 0, 4, 16), (hdr h 26 2 == 0, 4, 26), (orderOk h, 4, 28),
   (hdr h 56 8 == 0, 4, 56), (capsOk h, 4, 64), (Nat.land (hdr h 72 2) (hdr h 74 2) == 0, 4, 72), (hdr h 76 52 == 0, 4, 76)]

/-- The first check a header fails: cause and byte at fault. -/
def State.headerFault (s : State) (h : List Byte) : Option (Nat × Nat) :=
  ((s.headerChecks h).find? (fun x => !x.1)).map (fun x => x.2)

/-! ## Frames (Tables 14-3 and 14-4, R382) -/

/-- A frame: its payload lies at byte `payload` of the image. -/
structure Frame where
  kind : Nat
  words : Nat
  offset : Nat
  mask : Nat
  payload : Nat
  deriving DecidableEq, Repr

/-- Bytes of the target space of a kind other than a pilot's. -/
def targetBytes (kind : Nat) : Nat :=
  match kind with
  | 1 => 0x400000
  | 2 => 0x10000
  | 3 => 0x40000
  | _ => 0x10000

/-- The header of a frame at byte `pos`, with whether the store can read it and whether its bytes are as Table 14-3 says. -/
def State.frameAt (s : State) (x : Source) (pos : Nat) : Frame × Bool :=
  let b := s.imageBytes x pos 16
  let kind := hdr b 0 1
  let masked := decide (2 ≤ kind) && decide (kind ≤ 5)
  let m := if masked then s.imageBytes x (pos + 16) 16 else []
  (⟨kind, hdr b 4 4, hdr b 8 4, hdr m 0 10, pos + (if masked then 32 else 16)⟩,
   hdr b 1 3 == 0 && hdr b 12 4 == 0 && hdr m 10 6 == 0 && (decide (1 ≤ kind) && decide (kind ≤ 6) || kind == 15))

/-- Bytes of a frame's header. -/
def frameHead (kind : Nat) : Nat := if 2 ≤ kind ∧ kind ≤ 5 then 32 else 16

/-- A frame that R382 fails for what it asks; `h` is the image header. -/
def Frame.bad (f : Frame) (h : List Byte) : Bool :=
  let a := f.offset * 8
  let n := f.words * 8
  if f.kind = 15 then f.words != 0
  else if f.kind = 5 ∨ f.kind = 6 then !sramHolds (f.kind == 6) a n
  else decide (targetBytes f.kind < a + n) ||
    (f.kind == 4 && (List.range 16).any (fun k => !bit (hdr h 72 2) k && decide (a < (k + 1) * 4096) && decide (k * 4096 < a + n)))

/-- What stops a walk over the frames of an image: cause and byte of the image at fault. -/
abbrev Stop := Option (Nat × Nat)

/-- Walk the frames of an image from byte `pos` on; `act` does what is to be done with each (its own stop ends the walk), `n` frames
are left of FRAMES, and `total` is the length of the image in bytes. -/
def State.walkFrames (s : State) (x : Source) (h : List Byte) (act : State → Frame → State × Stop) (total n pos : Nat) : State × Stop :=
  match n with
  | 0 => (s, some (5, pos))
  | n + 1 =>
    if total < pos + 16 then (s, some (5, pos))
    else if s.imageFails x pos 16 then (s, some (6, pos))
    else
      let f := (s.frameAt x pos).1
      if s.imageFails x pos (frameHead f.kind) then (s, some (6, pos + 16))
      else if !(s.frameAt x pos).2 || f.bad h || decide (total < f.payload + f.words * 8) then (s, some (5, pos))
      else if f.kind = 15 then
        (s, if n = 0 ∧ f.payload = total then none else some (5, pos))
      else
        match act s f with
        | (s1, none) => s1.walkFrames x h act total n (f.payload + f.words * 8)
        | r => r

/-- The first payload word of a frame that reads uncorrectable. -/
def State.badWord (s : State) (x : Source) (f : Frame) : Option Nat :=
  (List.range f.words).find? (fun i => s.imageFails x (f.payload + 8 * i) 8)

/-- The shoals a frame reaches: those of its mask that the image names. -/
def Frame.shoals (f : Frame) (h : List Byte) : List Nat := (List.range 80).filter (fun k => bit f.mask k && bit (hdr h 16 10) k)

/-- Strand RAM words of a core written by the loader. -/
def CoreState.loadStrand (c : CoreState) (first : Nat) (l : List Nat) : CoreState :=
  { c with strand := l.zipIdx.foldl (fun m e => Sparse.set 0 m (first + e.2) (BitVec.ofNat 64 e.1)) c.strand }

/-- The words of a byte string. -/
def wordsOf (bs : List Byte) : List Nat := (chunksOf (bs.length / 8 + 1) 8 bs).map bytesNat

/-- Write the first `k` words of a frame's payload to its targets; `shoals` are those it reaches. -/
def State.writeFrame (s : State) (x : Source) (f : Frame) (shoals : List Nat) (k : Nat) : State :=
  let bs := s.imageBytes x f.payload (8 * k)
  let a := f.offset * 8
  match f.kind with
  | 1 => { s with fabric := Bytes.write 0 s.fabric a bs }
  | 2 => { s with coreCfg := shoals.foldl (fun m j => Bytes.write 0 m (j * 0x10000 + a) bs) s.coreCfg }
  | 3 => { s with strandCfg := shoals.foldl (fun m j => Bytes.write 0 m (j * 0x40000 + a) bs) s.strandCfg }
  | 4 => shoals.foldl (fun s j => (List.range 17).foldl (fun s n => s.modCore (j * 17 + n) (fun c => c.loadStrand f.offset (wordsOf bs))) s) s
  | 5 => { s with sram := shoals.foldl (fun m j => Bytes.write 0 m (j * 2 ^ 32 + a) bs) s.sram }
  | _ => { s with sram := Bytes.write 0 s.sram (80 * 2 ^ 32 + a) bs }

/-- Copy a frame to the targets it reaches, up to a word that reads uncorrectable. -/
def State.copyFrame (s : State) (x : Source) (shoals : List Nat) (f : Frame) : State × Stop :=
  match s.badWord x f with
  | some i => (s.writeFrame x f shoals i, some (6, f.payload + 8 * i))
  | none => (s.writeFrame x f shoals f.words, none)

/-- What each target of a frame holds where the frame went: the bytes, per target. -/
def State.targetsOf (s : State) (f : Frame) (shoals : List Nat) : List (List Byte) :=
  let a := f.offset * 8
  let n := f.words * 8
  match f.kind with
  | 1 => [Bytes.read 0 s.fabric a n]
  | 2 => shoals.map (fun j => Bytes.read 0 s.coreCfg (j * 0x10000 + a) n)
  | 3 => shoals.map (fun j => Bytes.read 0 s.strandCfg (j * 0x40000 + a) n)
  | 4 => shoals.flatMap (fun j => (List.range 17).map (fun k =>
      (List.range f.words).flatMap (fun w => natBytes 8 (Sparse.get 0 (s.core (j * 17 + k)).strand (f.offset + w)).toNat)))
  | 5 => shoals.map (fun j => Bytes.read 0 s.sram (j * 2 ^ 32 + a) n)
  | _ => [Bytes.read 0 s.sram (80 * 2 ^ 32 + a) n]

/-- Compare a frame with its targets (R386): the first word that differs. -/
def State.compareFrame (s : State) (x : Source) (shoals : List Nat) (f : Frame) : State × Stop :=
  let bs := s.imageBytes x f.payload (f.words * 8)
  let differs := fun i => (s.targetsOf f shoals).any (fun t => (t.drop (8 * i)).take 8 != (bs.drop (8 * i)).take 8)
  match s.badWord x f, (List.range f.words).find? differs with
  | some i, some j => (s, some (if j < i then (7, f.payload + 8 * j) else (6, f.payload + 8 * i)))
  | some i, none => (s, some (6, f.payload + 8 * i))
  | none, some j => (s, some (7, f.payload + 8 * j))
  | none, none => (s, none)

/-! ## Partial reconfiguration (R391 to R393) -/

/-- GO of IMG_PR_CFG takes effect (R391). -/
def State.mayPr (s : State) (shoal : Nat) : Bool :=
  s.usable shoal && (shoalCores shoal).all (fun k => (s.core (s.phys k)).flag F.corCtl_stopped) &&
  (match s.bayOf shoal with
   | some b => !s.armed b
   | none => true) && !s.flag F.imgPrStat_busy

/-- The operation starts: the shoal's cores are held in reset until PR_END. -/
def State.startPr (s : State) : State :=
  { s.put F.imgPrStat_busy 1 with pr := some ⟨s.get F.imgPrCfg_shoal, s.get F.imgPrCfg_src, s.get F.imgPrAddr_addr * 64⟩ }

/-- Where the source of an operation lies. -/
def PrRun.source (r : PrRun) : Source := if r.src = 2 then .tier r.addr else .store (slotBase r.src)

/-- Apply the frames of the source that are for the shoal: the state after, and ERR_CODE. -/
def State.applyPr (s : State) (r : PrRun) : State × Nat :=
  let h := s.imageBytes r.source 0 128
  if s.imageFails r.source 0 128 then (s, 4)
  else if (s.headerFault h).isSome || geometryBytes h != geometryBytes s.header then (s, 2)
  else
    let act := fun (s : State) (f : Frame) =>
      if (f.kind == 3 || f.kind == 4) && bit f.mask r.shoal then s.copyFrame r.source [r.shoal] f else (s, none)
    match s.walkFrames r.source h act (hdr h 44 4 * 8) (hdr h 40 4) 128 with
    | (s1, none) => (s1, 0)
    | (s1, some (6, _)) => (s1, 4)
    | (s1, some _) => (s1, 3)

/-- The configuration mirror of a shoal's cores returns to its reset values (R393). -/
def State.resetMirror (s : State) (shoal : Nat) : State :=
  { s with
    mirror := Sparse.clear s.mirror (shoal * 16 * 4096) ((shoal + 1) * 16 * 4096)
    routeMirror := Sparse.clear s.routeMirror (shoal * 16 * 512) ((shoal + 1) * 16 * 512) }

/-- The wash of every core of a shoal and of its reserve, to its end (R68, R69). -/
def State.washShoal (s : State) (shoal : Nat) : State :=
  let s1 := (shoalCores shoal).foldl (fun s k => (s.washCore (s.phys k) (some k)).modCore (s.phys k) CoreState.washOver) s
  match s1.spare shoal with
  | some r => (s1.washCore r none).modCore r CoreState.washOver
  | none => s1

/-- PR_END: what the source holds for the shoal is applied, the shoal is washed, its mirror reset, and its cores released stopped. -/
def execPrEnd (s : State) : Out :=
  match s.pr with
  | none => .next s
  | some r =>
    let res := s.applyPr r
    let s1 := if res.2 = 0 then res.1.wrap F.imgPrStat_doneCount else res.1.raiseFlag F.imgPrStat_err
    let s2 := ((s1.put F.imgPrStat_errCode res.2).washShoal r.shoal).resetMirror r.shoal
    .next { s2.put F.imgPrStat_busy 0 with pr := none }

end Sys2Proof.Machine
end

