-- ==== Sys2Proof/Machine/Shown.lean ====
section
/-! DEFINITION. CSR addresses and what a register shows (R7, R8, R14, R407, R409, R422 to R425): windows, reserve views, and the
fields that hardware keeps elsewhere. -/

namespace Sys2Proof.Machine

/-! ## Addresses (Table 15-1, R407) -/

/-- Where a CSR address leads: a register of a window with its number, a disabled shoal's windows (R14; `id` for its SHL_ID), or a
hole (R18). -/
inductive Place where
  | plain (r : RegRow) (i : Nat)
  | shoal (r : RegRow) (shoal : Nat)
  | core (r : RegRow) (i core : Nat)
  | reserve (r : RegRow) (i shoal : Nat)
  | disabled (id : Option Nat)
  | hole
  deriving DecidableEq, Repr

/-- The register of a row table at an offset, as a place. -/
def placeIn (rows : List RegRow) (off : Nat) (f : RegRow → Nat → Place) : Place :=
  match findRow rows off with
  | some (r, i) => f r i
  | none => .hole

/-- The place of a CSR address. -/
def State.placeOf (s : State) (a : Nat) : Place :=
  if a < 0x100000 then placeIn plainRows a .plain
  else if 0x1000000 ≤ a ∧ a < 0x1500000 then
    let shoal := (a - 0x1000000) / 0x10000
    let off := a % 0x10000
    if !s.usable shoal then .disabled (if off = 0 then some shoal else none)
    else if 0x1000 ≤ off ∧ off < 0x2000 then placeIn coreRows (off - 0x1000) (fun r i => .reserve r i shoal)
    else placeIn shoalRows off (fun r _ => .shoal r shoal)
  else if 0x2000000 ≤ a ∧ a < 0x2500000 then
    let core := (a - 0x2000000) / 0x1000
    if !s.usable (core / 16) then .disabled none
    else placeIn coreRows (a % 0x1000) (fun r i => .core r i core)
  else .hole

/-- Offset or address of the register a place names, in the map that stores it. -/
def Place.slot (pl : Place) : Nat :=
  match pl with
  | .plain r i => r.base + i * r.stride
  | .shoal r j => 0x1000000 + j * 0x10000 + r.base
  | .core r i _ => r.base + i * r.stride
  | .reserve r i _ => r.base + i * r.stride
  | _ => 0

/-- The row a place lies in. -/
def Place.row (pl : Place) : Option RegRow :=
  match pl with
  | .plain r _ => some r
  | .shoal r _ => some r
  | .core r _ _ => some r
  | .reserve r _ _ => some r
  | _ => none

/-- The number of the register in its row; the shoal for a shoal register. -/
def Place.index (pl : Place) : Nat :=
  match pl with
  | .plain _ i => i
  | .shoal _ j => j
  | .core _ i _ => i
  | .reserve _ i _ => i
  | _ => 0

/-- The physical core behind a core window or a reserve view. -/
def State.placeCore (s : State) (pl : Place) : Option Nat :=
  match pl with
  | .core _ _ k => some (s.phys k)
  | .reserve _ _ j => s.spare j
  | _ => none

/-- The logical core of a place. -/
def Place.logical (pl : Place) : Option Nat :=
  match pl with
  | .core _ _ k => some k
  | _ => none

/-- The shoal whose core a place shows. -/
def Place.shoalNo (pl : Place) : Nat :=
  match pl with
  | .core _ _ k => k / 16
  | .reserve _ _ j => j
  | .shoal _ j => j
  | _ => 0

/-! ## What registers show -/

/-- Issue is held by COR_CTL.HALT or by a breakpoint. -/
def CoreState.issueOff (c : CoreState) : Bool := c.flag F.corCtl_halt || c.flag F.dbgCoreCtl_bpHit

/-- DBG_CORE_CTL.HALTED (R434). -/
def State.halted (s : State) (p : Nat) : Bool :=
  ((s.core p).issueOff || (s.core p).flag F.corCtl_stopped) && s.opsEnded p

/-- A unit executes an operation a test holds for. -/
def CoreState.executes (c : CoreState) (f : QOp → Bool) : Bool := c.exec.any (fun x => f x.op)

/-- A register with a field set. -/
def RF.setIn (f : RF) (v : Reg64) (x : Nat) : Reg64 := setField v f.hi f.lo x

/-- COR_ID of a core. -/
def corIdOf (p : Nat) (core : Option Nat) : Reg64 :=
  BitVec.ofNat 64 ((core.getD 0x7ff) * 2 ^ 32 + p / 17 * 2 ^ 16 + (match core with | some k => k % 16 | none => 31) * 2 ^ 8 + p % 17)

/-- The bits of a word of a descriptor entry that Tables 6-4 and 6-5 define, by its KIND; the others are reserved (R4). -/
def descMask (kind word : Nat) : Reg64 :=
  match kind, word with
  | 1, 0 => 0x07ffffffffffffff
  | 1, _ => 0x000000fffff7ffff
  | 2, 0 => 0x000000007fffffff
  | 2, _ => 0
  | _, _ => 0xffffffffffffffff

/-- The bits of a word of a tree record that Table 8-4 defines. -/
def treeMask (word : Nat) : Reg64 := if word = 0 then 0xff7ff else if word < 12 then 0xffffffffffffffff else 0

/-- A word of the descriptor entry selected, without its reserved bits. -/
def CoreState.shownDesc (c : CoreState) (word : Nat) : Reg64 :=
  let e := c.sel F.corDescSel_entry
  Sparse.get 0 c.desc (2 * e + word) &&& descMask (field (Sparse.get 0 c.desc (2 * e)) 1 0) word

/-- An operation of the core waits under an explicit deadline: at issue, at the tag stage of an operation or of an access of its own, or as
a release that HOLD keeps back (COR_SCL_STAT.DL_RUN). -/
def CoreState.deadlineRuns (c : CoreState) : Bool :=
  c.waits.any (fun w => w.w.deadline.isSome) || !(c.dueRels Option.isSome).isEmpty || !(c.dueAccesses Option.isSome).isEmpty

/-- What a register of a core shows; `v` is what is stored for it. -/
def State.shownCore (s : State) (p : Nat) (core : Option Nat) (k : Kind) (i : Nat) (v : Reg64) : Reg64 :=
  let c := s.core p
  match k with
  | .corId => corIdOf p core
  | .corArrStat => F.corArrStat_busy.setIn v (b2n (!c.tiles.isEmpty))
  | .corVecStat => F.corVecStat_busy.setIn v (b2n (c.executes (fun o => match o with | .vec _ _ => true | _ => false)))
  | .corEstStat =>
    F.corEstStat_set1Busy.setIn (F.corEstStat_set0Busy.setIn (F.corEstStat_busy.setIn v
      (b2n (c.executes (fun o => match o with | .drain _ => true | _ => false)))) (b2n (c.drainHolds 0))) (b2n (c.drainHolds 1))
  | .corSclStat => F.corSclStat_dlRun.setIn (F.corSclStat_fetch.setIn v c.iss.off) (b2n c.deadlineRuns)
  | .corStrandData => Sparse.get 0 c.strand (c.sel F.corStrandSel_word)
  | .corDescLo => c.shownDesc 0
  | .corDescHi => c.shownDesc 1
  | .corRouteLo => Sparse.get 0 c.route (2 * c.sel F.corRouteSel_entry)
  | .corRouteHi => Sparse.get 0 c.route (2 * c.sel F.corRouteSel_entry + 1)
  | .corPlanData => Sparse.get 0 c.plan (c.sel F.corPlanSel_index)
  | .ldgEngStat => F.ldgEngStat_busy.setIn v (b2n c.ldgExec.isSome)
  | .ldgEngLevel => F.ldgEngLevel_queueLevel.setIn v (min 15 c.ldgQ.length)
  | .covePtr => F.covePtr_level.setIn v (c.level (c.cove i))
  | .coveTagData => (Sparse.get Tag.ebb c.tags (c.sel F.coveTagSel_index)).shownWord
  | .dbgCoreCtl =>
    F.dbgCoreCtl_step.setIn (F.dbgCoreCtl_issueOff.setIn (F.dbgCoreCtl_halted.setIn v (b2n (s.halted p))) (b2n c.issueOff)) (b2n c.iss.stepOne)
  | _ => v

/-- A notice as SHL_NOTICE and PLN_NOTICE_LO show it. -/
def Notice.lo (n : Notice) (v : Reg64) : Reg64 :=
  setField (setField (setField (setField (setField v 63 63 1) 60 57 n.kind) 56 46 n.core) 45 41 n.cove) 31 0 n.time

/-- The upper word of a notice. -/
def Notice.hi (n : Notice) : Reg64 := BitVec.ofNat 64 (n.srcPos % 2048 * 2 ^ 28 + n.cid % 65536 * 2 ^ 12 + n.window % 4096)

/-- The bay whose locked shoal set names a shoal (SHL_ID.BAY); 0x7F when none. -/
def State.shownBay (s : State) (shoal : Nat) : Nat :=
  ((List.range 80).find? (fun b => s.bayNames b shoal && s.isLocked (if shoal < 64 then 0x18018 + b * 0x40 else 0x18020 + b * 0x40))).getD 0x7f

/-- SHL_ID of a shoal. -/
def State.shlIdOf (s : State) (shoal : Nat) : Reg64 :=
  BitVec.ofNat 64 (s.shownBay shoal * 2 ^ 16 + b2n (s.usable shoal) * 2 ^ 8 + shoal)

/-- What a register of the plain or of a shoal shows; `v` is what is stored for it, `i` its number or shoal. -/
def State.shownPlain (s : State) (k : Kind) (i : Nat) (v : Reg64) : Reg64 :=
  match k with
  | .plnDtreeData => Sparse.get 0 s.dtree (s.sel F.plnDtreeSel_tree * 16 + s.sel F.plnDtreeSel_word) &&& treeMask (s.sel F.plnDtreeSel_word)
  | .plnNoticeLo => match Sparse.get [] s.notices 80 with
    | n :: _ => n.lo v
    | [] => v
  | .plnNoticeHi => match Sparse.get [] s.notices 80 with
    | n :: _ => n.hi
    | [] => v
  | .shlNotice => match Sparse.get [] s.notices i with
    | n :: _ => n.lo v
    | [] => v
  | .imgMeasData => Sparse.get 0 s.channels (s.sel F.imgMeasSel_port)
  | .tidNow => BitVec.ofNat 64 s.now
  | .tidFtabData => Sparse.get 0 s.ftab (s.sel F.tidFtabSel_index)
  | .strPlanData => Sparse.get 0 s.strPlan (s.sel F.strPlanSel_port * 1024 + s.sel F.strPlanSel_index)
  | .bayStat => F.bayStat_contexts.setIn v (s.contextCount i)
  | .ctxRef => F.ctxRef_dev.setIn v (s.devRefs i)
  | .shlId => s.shlIdOf i
  | _ => v

/-- The bits of a row that belong to a field: the others read 0 (R4). -/
def RegRow.defined (r : RegRow) (v : Reg64) : Reg64 :=
  r.fields.foldl (fun acc f => setField acc f.1.hi f.1.lo (field v f.1.hi f.1.lo)) 0

/-- What a place shows to a read (R408): 0 in a disabled shoal but for SHL_ID (R14, R424), and in an empty reserve view (R425). -/
def State.shown (s : State) (pl : Place) : Reg64 :=
  match pl with
  | .plain r i => r.defined (s.shownPlain r.kind i (s.reg pl.slot))
  | .shoal r j => r.defined (s.shownPlain r.kind j (s.reg pl.slot))
  | .core r i k => r.defined (s.shownCore (s.phys k) (some k) r.kind i ((s.core (s.phys k)).reg pl.slot))
  | .reserve r i j => match s.spare j with
    | some p => r.defined (s.shownCore p none r.kind i ((s.core p).reg pl.slot))
    | none => 0
  | .disabled (some j) => s.shlIdOf j
  | _ => 0

/-- A CSR read at an address (R409: it changes nothing). -/
def State.csrRead (s : State) (a : Nat) : Reg64 := s.shown (s.placeOf a)

end Sys2Proof.Machine
end

