-- ==== Sys2Proof/Machine/Judge.lean ====
section
/-! DEFINITION. When a field takes a write (R4, R5, R10, R355, R385, R390, R398, R411, R415, R420, R421, R425, R442): its masters, its
reserved encodings, its locks and the state it asks for. Causes are those of Table 15-2. -/

namespace Sys2Proof.Machine

/-! ## Masters (R11, R19) -/

/-- The master of an AXI ID: 0 debug port, 1 lead pilot, 2 shoal pilot, 3 host. -/
def masterOf (id : BitVec 12) : Nat := id.toNat % 4

/-- Priority of a master, 0 the highest; a lower shoal goes before a higher one. -/
def rankOf (id : BitVec 12) : Nat := if masterOf id = 2 then 2 + id.toNat / 4 % 128 else if masterOf id = 3 then 200 else masterOf id

/-- The ledger port of a master (R343). -/
def ledgerPort (id : BitVec 12) : Nat :=
  match masterOf id with
  | 0 => 82
  | 1 => 80
  | 2 => id.toNat / 4 % 128
  | _ => 81

/-- A field takes writes from the master (R343, R355, R390, R398, R425, R442); `lo` is its lowest bit. -/
def fieldTakes (pl : Place) (k : Kind) (i lo : Nat) (id : BitVec 12) : Bool :=
  let pilot := decide (masterOf id ≤ 1)
  match pl with
  | .reserve _ _ _ => masterOf id == 0
  | _ =>
    match k with
    | .ctxCfg => lo != 59 || pilot
    | .plnMsix => pilot
    | .plnEvtStat => lo != 0 || pilot
    | .plnEvtPtr => lo != 16 || pilot
    | .ctxCqp => lo != 16 || pilot
    | .ctxSqp => lo != 0 || pilot
    | .plnCtxLose => masterOf id != 3
    | .imgCtl => masterOf id == 0
    | .imgJrnlCmd => lo != 0 || pilot
    | .prtCtl => pilot
    | .prtStat => pilot
    | .prtTier => pilot
    | .prtStrait => pilot
    | .prtInlet => pilot
    | .prtPass => pilot
    | .casCmd => i == ledgerPort id
    | .charge => i == ledgerPort id
    | _ => true

/-! ## Fields written -/

/-- A field with the value a write gives it. -/
structure FieldWrite where
  f : RF
  cls : Cls
  v : Nat
  deriving DecidableEq, Repr

/-- The value a list of field writes gives the field at bit `lo`, if any. -/
def writtenAt (l : List FieldWrite) (lo : Nat) : Option Nat := (l.find? (fun x => x.f.lo == lo)).map (fun x => x.v)

/-- A 1 is written to an SC bit, or any value to another field, at bit `lo`. -/
def writes (l : List FieldWrite) (lo : Nat) : Bool := (writtenAt l lo).isSome

/-- What hardware has done to the fields of a register in the current tick: its counts, and its sticky bits (R10). -/
structure HwDone where
  counted : List (Nat × Nat × Bool)
  raised : List (Nat × Nat)
  deriving DecidableEq, Repr

/-- What hardware has done in the tick where a place keeps its register. -/
def State.hwDone (s : State) (pl : Place) : HwDone :=
  match s.placeCore pl with
  | some p => ⟨(s.core p).cyc.counted, (s.core p).cyc.raised⟩
  | none => ⟨s.cyc.counted, s.cyc.raised⟩

/-- The bits of a W1C field at `a` that a write of `v` clears: those written 1 that hardware has not set in this tick (R10). -/
def clearedBits (h : HwDone) (a : Nat) (f : RF) (v : Nat) : Nat :=
  ((List.range (f.hi + 1 - f.lo)).map (fun b => if bit v b && !decide ((a, f.lo + b) ∈ h.raised) then 2 ^ b else 0)).foldl (· + ·) 0

/-- A CNT field at `a` written with `v`: the value plus what hardware has counted in this tick (R10). RST_COUNT holds a byte for each
component, and each saturates; BALANCE is signed and was charged (R348, R349). -/
def countedOn (k : Kind) (h : HwDone) (a : Nat) (f : RF) (v : Nat) : Nat :=
  let n := countedIn h.counted (a * 64 + f.lo)
  match k with
  | .shlPilotRst | .plnPilotRst =>
    ((List.range 7).map (fun i => min 255 (bits v (8 * i + 7) (8 * i) + bits n.1 (8 * i + 7) (8 * i)) * 2 ^ (8 * i))).foldl (· + ·) 0
  | .tenWord0 => balanceBits (signed 32 v - (n.1 : Int))
  | _ => if n.2 then min f.max (v + n.1) else (v + n.1) % (f.max + 1)

/-- A register at `a` after field writes: W1C bits written 1 clear, counters count on, SC bits are left to their operation. -/
def withFields (k : Kind) (h : HwDone) (a : Nat) (r : Reg64) (l : List FieldWrite) : Reg64 :=
  l.foldl (fun r x => match x.cls with
    | .sc => r
    | .ro => r
    | .w1c => x.f.setIn r (let cur := field r x.f.hi x.f.lo; cur - Nat.land cur (clearedBits h a x.f x.v))
    | .cnt => x.f.setIn r (countedOn k h a x.f x.v)
    | _ => x.f.setIn r x.v) r

/-! ## Reserved encodings (R5) -/

/-- Entries of the ring a pointer register belongs to (R367). -/
def State.ringEntries (s : State) (k : Kind) (i sub : Nat) : Nat :=
  match k with
  | .ctxCqp => s.cqEntries i
  | .ctxSqp => 2 ^ s.get (F.ctxSq_sizeLog2.sh (16 * sub)) i
  | _ => s.evEntries

/-- Outside a range. -/
def outside (v lo hi : Nat) : Bool := decide (v < lo) || decide (hi < v)

/-- Some HOLD nibble carries a reserved class code (R44). -/
def badLease (hold : Nat) : Bool := (List.range 12).any (fun m => bit hold (4 * m + 3))

/-- The value is an encoding marked reserved. `all` is all that the write gives the register. -/
def State.reservedCode (s : State) (k : Kind) (i sub lo v : Nat) (all : List FieldWrite) : Bool :=
  match k with
  | .ldgLease => badLease ((writtenAt all 0).getD 0)
  | .coveTagData => lo == 16 && v == 3
  | .corCtl => lo == 24 && v % 4 != 0
  | .corDescLo => v % 4 == 3 || (v % 4 == 2 && bits v 18 17 == 3)
  | .corRouteLo => lo == 16 && outside v 0 47 && v != 63
  | .corPlanData => decide (6 ≤ bits v 62 60)
  | .strPlanData => decide (6 ≤ bits v 62 60)
  | .corPredEdge => (lo == 16 && decide (128 < v)) || (lo == 0 && decide (256 < v))
  | .coveCfg => lo == 25 && decide (10 < v)
  | .corMendEntry => lo == 0 && v % 4 != 0
  | .tidLink => lo == 40 && decide (v < 112)
  | .tidCfg => lo == 0 && decide (48 ≤ v)
  | .tidSched => lo == 16 && outside v 10 16
  | .strPlanSel => lo == 10 && decide (48 ≤ v)
  | .hbrDriftCfg => lo == 58 && outside v 20 30
  | .strTwin => lo == 0 && decide (48 ≤ v)
  | .plnMendLog => lo == 58 && outside v 12 24
  | .ledWord0 => lo == 13 && decide (80 ≤ v)
  | .hbrRedrive => lo == 0 && v % 64 != 0
  | .ledCfg => (lo == 5 && outside v 10 26) || (lo == 0 && outside v 16 24)
  | .ledWalkCfg => lo == 58 && outside v 10 24
  | .ctxCfg => lo == 0 && decide (80 ≤ v) && v != 127
  | .ctxCq => lo == 58 && outside v 4 16
  | .ctxSq => lo == 58 && outside v 4 16
  | .plnEvtCfg => lo == 58 && outside v 4 16
  | .ctxCqp => decide (s.ringEntries k i sub ≤ v)
  | .ctxSqp => decide (s.ringEntries k i sub ≤ v)
  | .plnEvtPtr => decide (s.ringEntries k i sub ≤ v)
  | .imgPrCfg => (lo == 32 && decide (80 ≤ v)) || (lo == 61 && v == 3)
  | .imgMeasSel => decide (48 ≤ v)
  | .dbgTraceCfg => lo == 58 && outside v 12 30
  | _ => false

/-! ## Locks (R420) -/

/-- The field is locked. -/
def State.fieldLocked (s : State) (pl : Place) (k : Kind) (i : Nat) (cls : Cls) : Bool :=
  match cls with
  | .wo1 => s.isLocked pl.slot
  | .rwl =>
    match k, s.placeCore pl with
    | .coveCfg, some p => (s.core p).flag F.coveCfg_lock i
    | .coveAux, some p => (s.core p).flag F.coveCfg_lock i
    | .tidCfg, _ => s.flag F.tidCfg_lock
    | .strHall, _ => s.flag F.strHall_lock
    | _, _ => false
  | _ => false

/-! ## State conditions (Table 15-4) -/

/-- Cause 6 need a condition holds. -/
def need (c : Bool) (cause : Nat := 6) : List Nat := if c then [] else [cause]

/-- The bay of a valid plan run is stopped; a run that is not valid belongs to none. -/
def State.runStopped (s : State) (run : Reg64) : Bool := field run 63 63 == 0 || s.bayStopped (field run 47 41)

/-- What Table 15-4 asks of a field of a core's register. -/
def State.coreCauses (s : State) (p : Nat) (k : Kind) (i lo v : Nat) : List Nat :=
  let c := s.core p
  let stopped := c.flag F.corCtl_stopped
  match k with
  | .corCtl => if lo = 24 ∨ lo = 14 then need stopped else if lo = 0 then need (stopped && !c.flag F.corCtl_faulted) else []
  | .corTileCtl => if lo = 0 then need stopped else []
  | .corDescLo => need (s.halted p)
  | .corDescHi => need (s.halted p)
  | .corRouteLo => need stopped
  | .corRouteHi => need stopped
  | .corPlanData => need (s.runStopped (Sparse.get 0 c.plan (c.sel F.corPlanSel_index)) && s.runStopped (BitVec.ofNat 64 v))
  | .covePtr => need (c.flag F.coveCtl_hold i) 8 ++ need (decide (v < c.get F.coveCfg_slots i)) 9
  | .coveTagData => need (c.tagWritable (c.sel F.coveTagSel_index)) 8
  | .coveCtl => if lo = 63 then need (c.flag F.coveCfg_enable i) else []
  | .corStrandData => need (!bit s.constBlocks (c.sel F.corStrandSel_word / 512)) 9
  | .dbgCoreCtl => if lo = 4 then need (c.issueOff && !stopped) 10 else []
  | _ => []

/-- PLN_DTREE_DATA: the word takes the value (R237). -/
def State.treeCauses (s : State) (v : Nat) : List Nat :=
  let tree := s.sel F.plnDtreeSel_tree
  let valid := bit (Sparse.get 0 s.dtree (tree * 16)).toNat 19
  if s.sel F.plnDtreeSel_word ≠ 0 then need (!valid)
  else if !bit v 19 then []
  else if valid then [6]
  else
    let d := Sparse.set 0 s.dtree (tree * 16) (BitVec.ofNat 64 v)
    let ms := treeMembers d tree
    let root := bits v 10 0
    need (decide (1 ≤ bits v 18 12) && decide (bits v 18 12 ≤ 64) && (root :: ms).all (fun k => decide (k < 1280) && s.usable (k / 16)) &&
      ms.eraseDups.length == ms.length && !decide (root ∈ ms)) 9

/-- What Table 15-4 asks of a field of the plain or of a shoal. -/
def State.plainCauses (s : State) (k : Kind) (i lo v : Nat) : List Nat :=
  match k with
  | .plnDtreeData => s.treeCauses v
  | .strPlanData => need (s.runStopped (Sparse.get 0 s.strPlan (s.sel F.strPlanSel_port * 1024 + s.sel F.strPlanSel_index)) &&
      s.runStopped (BitVec.ofNat 64 v))
  | .tidStart => need (!s.armed i)
  | .strCfg => if lo = 63 ∨ lo = 62 then [] else need (s.linkState i == 0)
  | .strExpDieLo => need (s.linkState i == 0)
  | .strExpDieHi => need (s.linkState i == 0)
  | .hbrWinCfg => need (!s.flag F.hbrWinCtl_open i)
  | .hbrWinCtl => if lo = 3 ∨ lo = 0 then need (!s.flag F.hbrWinCtl_open i) else if lo = 1 then need (s.flag F.hbrWinCtl_open i) else []
  | .bayCtl =>
    if lo = 16 then need (s.get F.bayCtl_state i == 0)
    else if lo = 61 then need (s.mayCreate i)
    else if lo = 60 then need (s.get F.bayCtl_state i == 1)
    else if lo = 59 then need (s.bayStopped i)
    else []
  | .ctxCfg =>
    if lo = 0 ∨ lo = 61 then need (s.get F.ctxCfg_state i == 0)
    else if lo = 60 then need (s.get F.ctxCfg_state i == 1 || s.get F.ctxCfg_state i == 2)
    else if lo = 59 then need (s.mayFree i)
    else []
  | .ctxProg => need (s.get F.ctxCfg_state i == 0)
  | .ctxSq => need (s.get F.ctxCfg_state i == 0)
  | .ctxCq => need (s.get F.ctxCfg_state i == 0)
  | .ctxRef => if lo ≤ 1 then need (s.get F.ctxCfg_state i != 0) else []
  | .shlMendCfg => if lo = 0 then need (s.mayService i) 10 else []
  | _ => []

/-- Why the field does not take a value; empty where it does. `cur` is what it shows. -/
def State.fieldCauses (s : State) (pl : Place) (r : RegRow) (i : Nat) (x : FieldWrite) (cur : Nat) (all : List FieldWrite) : List Nat :=
  let state := match s.placeCore pl with
    | some p => s.coreCauses p r.kind i x.f.lo x.v
    | none => s.plainCauses r.kind i x.f.lo x.v
  (if s.reservedCode r.kind i r.sub x.f.lo x.v all then [1] else []) ++
  (if s.fieldLocked pl r.kind i x.cls then [2] else []) ++
  (if x.cls == .sc && cur == 1 then [10] else []) ++ state

/-- A write of the value a field has is no refusal for its lock, its master or its state (R411). -/
def exempt (x : FieldWrite) (cur : Nat) (causes : List Nat) : Bool :=
  x.cls != .sc && x.cls != .w1c && x.v == cur && causes.all (fun c => c != 1 && c != 9)

end Sys2Proof.Machine
end

