-- ==== Sys2Proof/Machine/Csr.lean ====
section
/-! DEFINITION. CSR writes (R4, R5, R10, R17 to R19, R408 to R421): what an accepted write of each register does, how writes that meet
are merged, what is recorded, and the writes a wash holds. -/

namespace Sys2Proof.Machine

/-! ## The records (R412, R414) -/

/-- A refused or failed access, with every cause that some part of it has. -/
structure Refused where
  id : BitVec 12
  addr : Nat
  causes : List Nat
  deriving DecidableEq, Repr

/-- A write dropped under R413: the field's lowest bit, and who took it. -/
structure Dropped where
  loser : BitVec 12
  winner : BitVec 12
  lsb : Nat
  addr : Nat
  deriving DecidableEq, Repr

/-- The first of a list by master, then by address. -/
def firstBy {α : Type} (id : α → BitVec 12) (addr : α → Nat) (l : List α) : Option α :=
  l.foldl (fun m x =>
    match m with
    | none => some x
    | some y => if rankOf (id x) < rankOf (id y) ∨ (rankOf (id x) = rankOf (id y) ∧ addr x < addr y) then some x else some y) none

/-- One of the causes of an access: free where its parts have several (R412 names one). -/
def State.oneCause (s : State) (l : List Nat) : State × Nat :=
  match l.eraseDups with
  | [c] => (s, c)
  | l => (s.used, l.getD (Config.freeNat s.fresh % l.length) 0)

/-- The refused accesses of one tick in PLN_ACCESS_ERR. -/
def State.recordRefused (s : State) (l : List Refused) : State :=
  match firstBy Refused.id Refused.addr l with
  | none => s
  | some r =>
    let c := s.oneCause r.causes
    (((c.1.bump F.plnAccessErr_count l.length).put F.plnAccessErr_cause c.2).put F.plnAccessErr_master r.id.toNat).put
      F.plnAccessErr_addr r.addr

/-- The dropped writes of one tick in PLN_COLLIDE. -/
def State.recordDropped (s : State) (l : List Dropped) : State :=
  match firstBy Dropped.loser Dropped.addr l with
  | none => s
  | some d =>
    ((((s.bump F.plnCollide_count l.length).put F.plnCollide_fieldLsb d.lsb).put F.plnCollide_loser d.loser.toNat).put
      F.plnCollide_winner d.winner.toNat).put F.plnCollide_addr d.addr

/-! ## Effects of accepted writes -/

/-- What a write leaves: the state, and the causes for which its register refused the write as a whole. -/
abbrev Effect := State × List Nat

/-- The value goes into the register. -/
def State.keep (s : State) (pl : Place) (v : Reg64) : State :=
  match s.placeCore pl with
  | some p => s.modCore p (fun c => c.setReg pl.slot v)
  | none => s.setReg pl.slot v

/-- COVE_CFG (R73 to R75, R90, R310). -/
def State.writeCove (s : State) (p : Nat) (carve : Nat × Nat) (n : Nat) (all : List FieldWrite) (new : Reg64) : Effect :=
  let c := s.core p
  let live := c.flag F.coveCfg_enable n && !c.flag F.coveCtl_hold n
  let old := c.reg (F.coveCfg_enable.addr n)
  let badSize := (writtenAt all 25).any (fun x => decide (10 < x)) && field new 63 63 == 1
  if badSize then (s, [9])
  else if c.coveWriteOk carve n new (c.get F.coveAux_tagBase n) then (s.setCore p (c.writeCoveCfg n new), [])
  else (s, [if live && field old 62 0 != field new 62 0 then 6 else 9])

/-- COVE_AUX (R73, R74): a change of TAG_BASE in an enabled cove that is not held leaves TAG_BASE; WM is taken. -/
def State.writeAux (s : State) (p : Nat) (pl : Place) (carve : Nat × Nat) (n : Nat) (new : Reg64) : Effect :=
  let c := s.core p
  let base := field new 12 0
  if c.flag F.coveCfg_enable n && base != c.get F.coveAux_tagBase n then
    if !c.flag F.coveCtl_hold n then (s.keep pl (setField new 12 0 (c.get F.coveAux_tagBase n)), [6])
    else if c.coveWriteOk carve n (c.reg (F.coveCfg_enable.addr n)) base then (s.keep pl new, [])
    else (s, [9])
  else (s.keep pl new, [])

/-- COVE_CTL: HOLD and the release fields, and REL_GO (R90, R94). -/
def State.writeCoveCtl (s : State) (p : Nat) (pl : Place) (n : Nat) (ok : List FieldWrite) (new : Reg64) : Effect :=
  let s1 := s.keep pl new
  if !writes ok 63 then (s1, [])
  else
    let c := s1.core p
    let first := c.get F.coveCtl_relFirst n
    let count := c.get F.coveCtl_relCount n
    let slots := c.get F.coveCfg_slots n
    if first < slots ∧ 1 ≤ count ∧ count ≤ slots then
      (s1.setCore p { c with rels := c.rels ++ [⟨n, first, count, none, c.iss.count, c.iss.tag, c.iss.off, none, true, s.now⟩] }, [])
    else (s1, [9])

/-- COR_CTL: ENTRY, CTX and HALT, then START with the values just written (R201, R202, R434). -/
def State.writeCorCtl (s : State) (p : Nat) (pl : Place) (ok : List FieldWrite) (new : Reg64) : State :=
  let c := s.core p
  let halts := !c.flag F.corCtl_halt && field new F.corCtl_halt.hi F.corCtl_halt.lo == 1 && !c.flag F.corCtl_stopped
  let s1 := ((s.modCore p (fun c => c.keepSel pl.slot)).keep pl new).modCore p (fun c => if halts then c.put F.dbgCoreCtl_cause 1 else c)
  if writes ok 0 && !s.railHeld then s1.startCore p else s1

/-- LDG_SWEEP (R66): an INTERVAL below 16 is taken as 16, and a sweep that is switched on has its first row due. -/
def State.writeSweep (s : State) (p : Nat) (pl : Place) (new : Reg64) : State :=
  let on := field new 16 16 == 1 && !(s.core p).flag F.ldgSweep_enable
  let v := if field new 15 0 < 16 then setField new 15 0 16 else new
  (s.keep pl v).modCore p (fun c => if on then { c with sweepDue := s.now } else c)

/-- A word of a route-table entry, and of its copy in the configuration mirror (R283, R311). -/
def State.writeRoute (s : State) (p : Nat) (core : Option Nat) (hi : Nat) (new : Reg64) : State :=
  let i := 2 * (s.core p).sel F.corRouteSel_entry + hi
  let s1 := s.modCore p (fun c => { c with route := Sparse.set 0 c.route i new })
  match core with
  | some k => { s1 with routeMirror := Sparse.set 0 s1.routeMirror (k * 512 + i) new }
  | none => s1

/-- A word of the descriptor entry selected, without its reserved bits (R4, R174). -/
def CoreState.writeDesc (c : CoreState) (word : Nat) (new : Reg64) : CoreState :=
  let e := c.sel F.corDescSel_entry
  let lo := if word = 0 then new else Sparse.get 0 c.desc (2 * e)
  { c with desc := Sparse.set 0 c.desc (2 * e + word) (new &&& descMask (field lo 1 0) word) }

/-- What software writes to a tag or pointer of a held cove remains whatever the plain does to it in the tick (R418). -/
def CoreState.keepTag (c : CoreState) (i : Nat) (v : Reg64) : CoreState := { c with cyc.keptTags := c.cyc.keptTags ++ [(i, v)] }
def CoreState.keepPtr (c : CoreState) (off : Nat) (v : Reg64) : CoreState := { c with cyc.keptPtrs := c.cyc.keptPtrs ++ [(off, v)] }

/-- What a write of a register of a core does; `ok` are the fields that take it, `all` what it gives every field. -/
def State.effectCore (s : State) (p : Nat) (pl : Place) (k : Kind) (i : Nat) (ok all : List FieldWrite) (new : Reg64) : Effect :=
  match k with
  | .corCtl => (s.writeCorCtl p pl ok new, [])
  | .dbgCoreCtl =>
    let s1 := s.keep pl new
    (if writes ok 4 then s1.modCore p (fun c => { c with iss := { c.iss with stepOne := true } }) else s1, [])
  | .ldgEngPush => (s.modCore p CoreState.push, [])
  | .ldgWash =>
    let s1 := s.keep pl new
    (if writes ok 0 then s1.washCore p pl.logical else s1, [])
  | .ldgSweep => (s.writeSweep p pl new, [])
  | .coveCfg => s.writeCove p (s.carve pl.shoalNo) i all new
  | .coveAux => s.writeAux p pl (s.carve pl.shoalNo) i new
  | .coveCtl => s.writeCoveCtl p pl i ok new
  | .coveStat =>
    let s1 := s.keep pl new
    (if writes ok 34 then s1.modCore p (fun c => c.clearPeak i) else s1, [])
  | .coveTagData =>
    (s.modCore p (fun c => (c.writeTag (c.sel F.coveTagSel_index) new).keepTag (c.sel F.coveTagSel_index) new), [])
  | .covePtr => (s.modCore p (fun c => (c.setReg pl.slot new).keepPtr pl.slot new), [])
  | .coveTagSel | .corStrandSel | .corDescSel | .corRouteSel | .corPlanSel | .prtInlet | .prtPass =>
    (s.modCore p (fun c => (c.keepSel pl.slot).setReg pl.slot new), [])
  | .ldgLeaseAct => (s.modCore p (fun c => (c.noteLease s.now).setReg pl.slot new), [])
  | .corDescLo => (s.modCore p (fun c => c.writeDesc 0 new), [])
  | .corDescHi => (s.modCore p (fun c => c.writeDesc 1 new), [])
  | .corRouteLo => (s.writeRoute p pl.logical 0 new, [])
  | .corRouteHi => (s.writeRoute p pl.logical 1 new, [])
  | .corPlanData => (s.modCore p (fun c => { c with plan := Sparse.set 0 c.plan (c.sel F.corPlanSel_index) new }), [])
  | .corStrandData => (s.modCore p (fun c => { c with strand := Sparse.set 0 c.strand (c.sel F.corStrandSel_word) new }), [])
  | _ => (s.keep pl new, [])

/-! Registers of the plain. -/

/-- TID_SCHED (R255): ARM going to 1, ARM going to 0, and the fields that may change while it is 1. -/
def State.writeSched (s : State) (pl : Place) (b : Nat) (all : List FieldWrite) (new : Reg64) : Effect :=
  let arm := field new 63 63 == 1
  let badLog := (writtenAt all 16).any (fun x => outside x 10 16)
  if !s.armed b then
    if !arm then (s.keep pl new, [])
    else if s.mayArm b new && !badLog then (s.armBay b new, [])
    else (s.keep pl (setField new 63 63 0), [9])
  else if arm then (if s.sameGrid b new then (s.regrid b new, []) else (s, [6]))
  else if (s.sameGrid b (setField new 63 63 1) || s.flag F.tidStep_halted b) && s.mayDisarm b then (s.disarmBay b new, [])
  else (s, [6])

/-- TID_GOV_CFG (R273): BUDGET up to its load value, FLOOR up to BUDGET. -/
def State.govLimits (s : State) (v : Reg64) : Reg64 :=
  let budget := min (field v 63 32) (1024000 * s.get F.plnGeom3_shoalsUsable)
  setField (setField v 63 32 budget) 31 0 (min (field v 31 0) budget)

/-- TID_CFG: the root of the tide tree is aligned to itself (R251). -/
def State.writeTidCfg (s : State) (pl : Place) (new : Reg64) : State :=
  let root := field new F.tidCfg_root.hi F.tidCfg_root.lo
  let was := s.get F.tidCfg_root
  let s1 := (s.keep pl new).put F.tidStat_root root
  (if root = 1 then s1.put F.tidStat_aligned 1 else if was = 1 then s1.put F.tidStat_aligned 0 else s1).refreshSched

/-- TID_LINK: FIT follows HOP_NS (R250). -/
def State.writeHop (s : State) (pl : Place) (n : Nat) (new : Reg64) : State :=
  let s1 := (s.noteHop n).keep pl new
  if !s1.flag F.tidLink_valid n then s1
  else
    let fit := fitsHop (s1.get F.tidLink_rttPs n) (s1.get F.tidLink_hopNs n)
    let s2 := s1.put F.tidLink_fit (b2n fit) n
    (if s.flag F.tidLink_fit n && !fit then s2.stopFitting n else s2).refreshSched

/-- STR_CFG: ENABLE starts a link or takes it down, RETRAIN does both (R293). -/
def State.writeStrCfg (s : State) (pl : Place) (n : Nat) (ok : List FieldWrite) (new : Reg64) : State :=
  let s1 := s.keep pl new
  let on := s1.flag F.strCfg_enable n
  let s2 := if !on then s1.takeDown n 0 else if writes ok 62 then s1.takeDown n 0 else s1
  if on then s2.linkStart n else s2

/-- PLN_CTX_LOSE (R366). -/
def State.writeLose (s : State) (pl : Place) (new : Reg64) : Effect :=
  let ctx := field new F.plnCtxLose_ctx.hi F.plnCtxLose_ctx.lo
  let core := field new F.plnCtxLose_core.hi F.plnCtxLose_core.lo
  if s.get F.ctxCfg_state ctx = 0 then (s, [6])
  else if s.mayLose ctx core then ((s.keep pl new).loseFrom ctx core, [])
  else (s, [9])

/-- PLN_EVT_CFG and PLN_EVT_PTR: held events go out where there is room now (R376). -/
def State.writeEvents (s : State) (pl : Place) (new : Reg64) (fresh : Bool) : State :=
  let s1 := s.keep pl new
  let s2 : State := if fresh then { s1 with evLap := 0 } else s1
  s2.flushEvents (s2.evHeld.length + 1)

/-- PLN_DB_SUM: the lead pilot's external interrupt stays while a bit is set (R369). -/
def State.writeDoorbells (s : State) (pl : Place) (new : Reg64) : State :=
  let s1 := s.keep pl new
  { s1 with leadIrq := (List.range 16).any (fun k => s1.get F.plnDbSum_db k != 0) }

/-- IMG_PR_CFG (R391): GO starts the operation or is refused with ERR_CODE 1. -/
def State.writePr (s : State) (pl : Place) (ok : List FieldWrite) (new : Reg64) : Effect :=
  let s1 := s.keep pl new
  if !writes ok 63 then (s1, [])
  else if s1.mayPr (s1.get F.imgPrCfg_shoal) then (s1.startPr, [])
  else ((s1.raiseFlag F.imgPrStat_err).put F.imgPrStat_errCode 1, [6])

/-- IMG_JRNL_CMD (R398, R399). -/
def State.writeJournal (s : State) (ok : List FieldWrite) : State :=
  let s1 := if writes ok 0 then s.pushAppend else s
  if writes ok 1 && s1.loader.replayed then s1.compactJournal else s1

/-- CAS_CMD of port `m` (R343, R344). -/
def State.compareSet (s : State) (m : Nat) (v : Reg64) : State :=
  let i := field v F.casCmd_index.hi F.casCmd_index.lo
  let want := field v F.casCmd_expect.hi F.casCmd_expect.lo
  let new := field v F.casCmd_new.hi F.casCmd_new.lo
  let st := s.ledState i
  let res := if st ≠ want then 2 else if legalNext st new then 1 else 3
  let s1 := if res = 1 then s.moveEntry i new else s
  (s1.put F.casRes_found st m).put F.casRes_result res m

/-- BAY_CTL: TENANT, creating, retiring and washing (R357 to R359). -/
def State.writeBayCtl (s : State) (pl : Place) (b : Nat) (ok : List FieldWrite) (new : Reg64) : State :=
  let s1 := s.keep pl new
  let s2 := if writes ok 61 then s1.put F.bayCtl_state 1 b else s1
  let s3 := if writes ok 60 then s2.put F.bayCtl_state 2 b else s2
  if writes ok 59 then s3.washBay b else s3

/-- HBR_WIN_CTL (R294, R295). -/
def State.writeWindow (s : State) (pl : Place) (n : Nat) (ok : List FieldWrite) (new : Reg64) : Effect :=
  let s1 := s.keep pl new
  let s2 := if writes ok 1 then s1.closeWindow n else s1
  if !writes ok 0 then (s2, [])
  else if s2.mayOpen n then (s2.openWindow n, [])
  else (s2, [9])

/-- CTX_CFG: opening, closing and freeing a context (R361 to R365). -/
def State.writeCtxCfg (s : State) (pl : Place) (c : Nat) (ok : List FieldWrite) (new : Reg64) : Effect :=
  let s1 := s.keep pl new
  let s2 := if writes ok 60 then s1.closeCtx c else if writes ok 59 then s1.freeCtx c else s1
  if !writes ok 61 then (s2, [])
  else if s2.mayOpenCtx c then (s2.openCtx c, [])
  else
    let bay := s2.get F.ctxCfg_bay c
    (s2, [if bay < 80 ∧ s2.get F.bayCtl_state bay ≠ 1 then 6 else 9])

/-- A carve-out or half of a shoal set (R356): a valid write is taken and locks the register, any other is not. -/
def State.writeCarve (s : State) (pl : Place) (b word : Nat) (new : Reg64) : Effect :=
  if s.carveValid b word new then ({ s.keep pl new with locked := insertNat s.locked pl.slot }, [])
  else (s, [9])

/-- Word 0 of a tenant: a write of BALANCE leaves nothing of a refill in the tick (R348). -/
def State.writeBalance (s : State) (pl : Place) (t : Nat) (ok : List FieldWrite) (new : Reg64) : State :=
  let s1 := s.keep pl new
  if writes ok 32 then { s1 with cyc.counted := addCount s1.cyc.counted (F.tenWord0_balance.key t) 0 true } else s1

/-- What a write of a register of the plain or of a shoal does; `raw` is what the first master wrote. -/
def State.effectPlain (s : State) (pl : Place) (k : Kind) (i : Nat) (ok all : List FieldWrite) (new raw : Reg64) : Effect :=
  match k with
  | .plnDtreeData =>
    let word := s.sel F.plnDtreeSel_word
    ({ s with dtree := Sparse.set 0 s.dtree (s.sel F.plnDtreeSel_tree * 16 + word) (new &&& treeMask word) }, [])
  | .plnDtreeSel | .strPlanSel | .tidFtabSel | .imgMeasSel | .prtTier | .prtStrait => ((s.keepSel pl.slot).keep pl new, [])
  | .bayRole => ((s.keepRole i (s.get F.bayRole_epoch i)).keep pl new, [])
  | .tenWord0 => (s.writeBalance pl i ok new, [])
  | .plnMirrorCfg =>
    let s1 := s.keep pl new
    (if writes ok 0 then s1.startMirror else s1, [])
  | .plnNoticeLo =>
    let s1 := s.keep pl new
    (if writes ok 62 then s1.popNotice 80 else s1, [])
  | .shlNotice =>
    let s1 := s.keep pl new
    (if writes ok 62 then s1.popNotice i else s1, [])
  | .plnCtxLose => s.writeLose pl new
  | .plnEvtCfg => (s.writeEvents pl new (!s.flag F.plnEvtCfg_enable && field new 63 63 == 1), [])
  | .plnEvtPtr => (s.writeEvents pl new false, [])
  | .plnMsix => if 2047 < raw.toNat then (s, [1]) else (s.requestMsix raw.toNat, [])
  | .plnDbSum => (s.writeDoorbells pl new, [])
  | .imgCtl =>
    let s1 := s.keep pl new
    (if writes ok 0 ∧ s.get F.imgStat_state = 7 then s1.put F.imgCtl_go 1 else s1, [])
  | .imgPrCfg => s.writePr pl ok new
  | .imgJrnlCmd => (s.writeJournal ok, [])
  | .tidCfg => (s.writeTidCfg pl new, [])
  | .tidLink => (s.writeHop pl i new, [])
  | .tidSched => s.writeSched pl i all new
  | .tidGovCfg => (s.keep pl (s.govLimits new), [])
  | .tidFtabData => ({ s with ftab := Sparse.set 0 s.ftab (s.sel F.tidFtabSel_index) new }, [])
  | .strCfg => (s.writeStrCfg pl i ok new, [])
  | .strPlanData =>
    ({ s with strPlan := Sparse.set 0 s.strPlan (s.sel F.strPlanSel_port * 1024 + s.sel F.strPlanSel_index) new }, [])
  | .hbrRedrive =>
    let s1 := s.keep pl new
    (if writes ok 63 then s1.startRedrive else s1, [])
  | .bayDrain =>
    let s1 := s.keep pl new
    (if writes ok 0 then s1.drainBay i else s1, [])
  | .ledWalkCmd =>
    let s1 := s.keep pl new
    (if writes ok 63 then s1.put F.ledWalkCmd_go 1 else s1, [])
  | .casCmd => ((s.keep pl new).compareSet i new, [])
  | .charge =>
    ((s.keep pl new).chargeTenant (field new F.charge_tenant.hi F.charge_tenant.lo) (field new F.charge_amount.hi F.charge_amount.lo), [])
  | .bayCarve0 => s.writeCarve pl i 0 new
  | .bayCarve1 => s.writeCarve pl i 1 new
  | .bayCarve2 => s.writeCarve pl i 2 new
  | .bayShoalsLo => s.writeCarve pl i 3 new
  | .bayShoalsHi => s.writeCarve pl i 4 new
  | .bayCtl => (s.writeBayCtl pl i ok new, [])
  | .hbrWinCtl => s.writeWindow pl i ok new
  | .ctxCfg => s.writeCtxCfg pl i ok new
  | .shlMendCfg =>
    let s1 := s.keep pl new
    (if writes ok 0 then s1.put F.shlMendCfg_serviceGo 1 i else s1, [])
  | .prtCtl =>
    let s1 := (s.keepSel pl.slot).keep pl new
    (if !s.flag F.prtCtl_enable && field new 63 63 == 1 then { s1 with prtGen := [] } else s1, [])
  | _ => (s.keep pl new, [])

/-- What is stored behind a register: for a data port, the table word it shows (R422). -/
def State.stored (s : State) (pl : Place) (k : Kind) : Reg64 :=
  match k with
  | .corStrandData | .corDescLo | .corDescHi | .corRouteLo | .corRouteHi | .corPlanData | .coveTagData | .plnDtreeData | .tidFtabData
  | .strPlanData => s.shown pl
  | _ => match s.placeCore pl with
    | some p => (s.core p).reg pl.slot
    | none => s.reg pl.slot

/-- The configuration mirror takes the RW, RWL and WO1 fields written to a core's register, but for START, HALT and the words
behind a data port (R311). -/
def State.mirrorWrite (s : State) (pl : Place) (k : Kind) (ok : List FieldWrite) : State :=
  match pl.logical, k with
  | none, _ => s
  | some _, .corStrandData | some _, .corDescLo | some _, .corDescHi | some _, .corRouteLo | some _, .corRouteHi
  | some _, .corPlanData | some _, .coveTagData => s
  | some c, _ =>
    let kept := ok.filter (fun x => (x.cls == .rw || x.cls == .rwl || x.cls == .wo1) && x.f != F.corCtl_halt)
    kept.foldl (fun s x => s.mirrorPut c x.f ((s.core (s.phys c)).get x.f pl.index) pl.index) s

/-! ## Writes that meet (R413) -/

/-- What the masters' writes make of one field: the masters it does not take, the merged value with the master it is judged for, and
the writes dropped, each with its winner. -/
structure Merged where
  removed : List (BitVec 12)
  value : Option (BitVec 12 × FieldWrite)
  dropped : List (BitVec 12 × BitVec 12)
  deriving DecidableEq, Repr

/-- A write of 0 to a field of the class is no action (R411). -/
def Cls.action (c : Cls) : Bool := c == .sc || c == .w1c

/-- The port takes writes of the master now (R385); `boot` for the journal's replay. -/
def State.portTakes (s : State) (boot : Bool) (id : BitVec 12) : Bool := boot || masterOf id == 0 || s.get F.imgStat_state == 6

/-- Merge the writes of one tick to a field; `ws` stand in the order of their masters. -/
def State.mergeField (s : State) (pl : Place) (r : RegRow) (boot : Bool) (ws : List HeldWrite) (f : RF × Cls) : Merged :=
  let v := fun (w : HeldWrite) => field w.value f.1.hi f.1.lo
  let cur := field (s.shown pl) f.1.hi f.1.lo
  let acts := if f.2.action then ws.filter (fun w => v w != 0) else ws
  let takes := fun (w : HeldWrite) => s.portTakes boot w.id && (boot || fieldTakes pl r.kind pl.index f.1.lo w.id)
  let out := (acts.filter (fun w => !takes w && (f.2.action || v w != cur))).map HeldWrite.id
  match acts.filter takes with
  | [] => ⟨out, none, []⟩
  | w :: rest =>
    let x := if f.2.action then rest.foldl (fun m y => Nat.lor m (v y)) (v w) else v w
    ⟨out, some (w.id, ⟨f.1, f.2, x⟩), if f.2.action then [] else (rest.filter (fun y => v y != v w)).map (fun y => (y.id, w.id))⟩

/-- One entry for each access of a register, with every cause it has. -/
def gatherRefused (addr : Nat) (l : List (BitVec 12 × List Nat)) : List Refused :=
  ((l.map (fun x => x.1)).eraseDups).map (fun id => ⟨id, addr, (l.filter (fun x => x.1 == id)).flatMap (fun x => x.2)⟩)

/-- One entry for each dropped write of a register, with the lowest field it lost. -/
def gatherDropped (addr : Nat) (l : List (BitVec 12 × BitVec 12 × Nat)) : List Dropped :=
  ((l.map (fun x => x.1)).eraseDups).filterMap (fun id =>
    ((l.filter (fun x => x.1 == id)).foldl (fun (m : Option (BitVec 12 × BitVec 12 × Nat)) x =>
      match m with
      | none => some x
      | some y => if x.2.2 < y.2.2 then some x else some y) none).map (fun x => ⟨id, x.2.1, x.2.2, addr⟩))

/-- What the writes of one tick to one register leave. -/
structure Wrote where
  state : State
  refused : List Refused
  dropped : List Dropped
  deriving DecidableEq, Repr

/-- A register that the plain can change under R416: of a core, or the schedule of a bay. -/
def Place.canMove (pl : Place) : Bool :=
  match pl with
  | .core _ _ _ => true
  | .plain r _ => r.kind == .tidSched
  | _ => false

/-- Among the fields of R416 that the plain changes stands the register of a place: of a data register, the entry selected. -/
def State.isMoved (s : State) (pl : Place) (k : Kind) : Bool :=
  match s.placeCore pl with
  | some p =>
    let c := s.core p
    let entry := match k with
      | .corDescLo | .corDescHi => c.sel F.corDescSel_entry
      | .corRouteHi => c.sel F.corRouteSel_entry
      | _ => 0
    decide ((pl.slot, entry) ∈ c.cyc.moved)
  | none => pl.canMove && decide (pl.slot ∈ s.cyc.moved)

/-- The class of a field that R416 speaks of: software and the plain both write it, and the written value stays. -/
def Cls.lasting (c : Cls) : Bool := c == .rw || c == .rwl || c == .wo1 || c == .ptr

/-- Software writes of a tick to a register of R416 are kept until the tick has ended. -/
def State.noteWrites (s : State) (pl : Place) (ws : List HeldWrite) : State :=
  if pl.canMove then { s with cyc.wrote := s.cyc.wrote ++ ws } else s

/-- Writes of one tick to one register with fields, in the order of their masters. The fields of R416 wait for the next tick when the plain
has changed them in this one; a 1 for an SC bit that still reads 1 waits for the end of the tick, in which hardware may clear the bit
(R10, R415). -/
def State.writeReg (s : State) (addr : Nat) (pl : Place) (r : RegRow) (ws : List HeldWrite) (boot : Bool) : Wrote :=
  let late := s.isMoved pl r.kind
  let fields := r.fields.filter (fun f => f.2 != .ro && !(late && f.2.lasting))
  let merged := fields.map (fun f => (f.1, s.mergeField pl r boot ws f))
  let removed := merged.flatMap (fun m => m.2.removed.map (fun id => (id, [7])))
  let cur := fun (x : FieldWrite) => field (s.shown pl) x.f.hi x.f.lo
  let busy := fun (v : BitVec 12 × FieldWrite) => v.2.cls == .sc && cur v.2 == 1
  let values := merged.filterMap (fun m => m.2.value)
  let again := (values.filter busy).map (fun v => (⟨v.1, addr, v.2.f.setIn 0 v.2.v⟩ : HeldWrite))
  let live := values.filter (fun v => !busy v)
  let all := live.map (fun v => v.2)
  let judged := live.map (fun v => (v, s.fieldCauses pl r pl.index v.2 (cur v.2) all))
  let ok := (judged.filter (fun j => j.2.isEmpty)).map (fun j => j.1.2)
  let bad := (judged.filter (fun j => !j.2.isEmpty && !exempt j.1.2 (cur j.1.2) j.2)).map (fun j => (j.1.1, j.2))
  let dropped := gatherDropped addr (merged.flatMap (fun m => m.2.dropped.map (fun d => (d.1, d.2, m.1.lo))))
  let s0 := s.noteWrites pl ws
  let s1 : State := { s0 with cyc.again := s0.cyc.again ++ again }
  match ok, live with
  | _ :: _, first :: _ =>
    let new := withFields r.kind (s.hwDone pl) pl.slot (s.stored pl r.kind) ok
    let raw := ((ws.find? (fun w => w.id == first.1)).map HeldWrite.value).getD 0
    let e := match s.placeCore pl with
      | some p => s1.effectCore p pl r.kind pl.index ok all new
      | none => s1.effectPlain pl r.kind pl.index ok all new raw
    ⟨e.1.mirrorWrite pl r.kind ok, gatherRefused addr (removed ++ bad ++ (if e.2.isEmpty then [] else [(first.1, e.2)])), dropped⟩
  | _, _ => ⟨s1, gatherRefused addr (removed ++ bad), dropped⟩

/-- CTX_REF: every INC and DEC of a tick applies (R363); those beyond the ends of HOST are refused, the last masters' first. -/
def State.writeRefs (s : State) (addr c : Nat) (ws : List HeldWrite) (boot : Bool) : Wrote :=
  let live := ws.filter (fun w => s.portTakes boot w.id)
  let acts := fun (b : Nat) (l : List HeldWrite) => l.filter (fun w => field w.value b b == 1)
  let out := (ws.filter (fun w => !s.portTakes boot w.id && field w.value 1 0 != 0)).map (fun w => (w.id, [7]))
  let incs := acts 0 live
  let decs := acts 1 live
  let host := s.get F.ctxRef_host c
  if s.get F.ctxCfg_state c = 0 then
    ⟨s, gatherRefused addr (out ++ (incs ++ decs).map (fun w => (w.id, [6]))), []⟩
  else
    let badInc := host + incs.length - decs.length - 65535
    let badDec := decs.length - incs.length - host
    let late := incs.drop (incs.length - badInc) ++ decs.drop (decs.length - badDec)
    ⟨s.put F.ctxRef_host (host + (incs.length - badInc) - (decs.length - badDec)) c,
      gatherRefused addr (out ++ late.map (fun w => (w.id, [10]))), []⟩

/-! ## Doorbells (R365, R369) -/

/-- The context whose record holds an address, with the offset in it. -/
def recordOf (a : Nat) : Option (Nat × Nat) :=
  if 0x40000 ≤ a ∧ a < 0x60000 then some ((a - 0x40000) / 0x80, (a - 0x40000) % 0x80) else none

/-- A write by the host rings the doorbell of a context: to CTX_CFG, CTX_REF, CTX_SQP or CTX_CQP, or anywhere in a record that only
waits for its teardown. -/
def State.ring (s : State) (w : HeldWrite) : State :=
  match recordOf w.addr with
  | none => s
  | some (c, off) =>
    let ends := s.get F.ctxCfg_state c == 3 && s.get F.ctxRef_host c == 0 && s.devRefs c == 0
    if masterOf w.id = 3 ∧ s.get F.imgStat_state = 6 ∧
        (off = 0 ∨ off = 0x10 ∨ off = 0x30 ∨ (0x40 ≤ off ∧ off % 16 = 8) ∨ (ends && off != 0x38) = true) then s.doorbell c
    else s

/-! ## The port (R408, R410, R417) -/

/-- Writes of one tick to one address, in the order of their masters. -/
def State.writeAt (s : State) (addr : Nat) (ws : List HeldWrite) (boot : Bool) : Wrote :=
  let pl := s.placeOf addr
  let all := fun (cause : Nat) => ws.map (fun w => (⟨w.id, addr, [cause]⟩ : Refused))
  let done : Wrote :=
    match pl with
    | .disabled _ => ⟨s, all 5, []⟩
    | .hole => ⟨s, all 4, []⟩
    | .plain r i => if r.kind == .ctxRef then s.writeRefs addr i ws boot else s.writeReg addr pl r ws boot
    | .shoal r _ => s.writeReg addr pl r ws boot
    | .core r _ _ => s.writeReg addr pl r ws boot
    | .reserve r _ j =>
      if (s.spare j).isNone then ⟨s, ws.map (fun w => ⟨w.id, addr, [if masterOf w.id = 0 then 5 else 7]⟩), []⟩
      else s.writeReg addr pl r ws boot
  { done with state := ws.foldl (fun s w => s.ring w) done.state }

/-- The writes of a tick in the order of their masters. -/
def byMaster (ws : List HeldWrite) : List HeldWrite :=
  ws.foldl (fun l w => l.takeWhile (fun x => decide (rankOf x.id ≤ rankOf w.id)) ++ w :: l.dropWhile (fun x => decide (rankOf x.id ≤ rankOf w.id))) []

/-- A wash holds writes of this address (R417). -/
def State.washHolds (s : State) (addr : Nat) : Bool :=
  match s.placeCore (s.placeOf addr) with
  | some p => (s.core p).washEnd.isSome
  | none => false

/-- Writes of one tick, at most one of each master: those that a wash holds, or whose master has one held, wait; the others are
applied address by address, and what they fail is recorded. A plain in reset takes none (R30). -/
def State.writeTick (s : State) (ws : List HeldWrite) (boot : Bool) (failed : List Refused) : State :=
  if s.inReset then s else
  let waits := fun (w : HeldWrite) => !boot && (s.washHolds w.addr || s.heldWrites.any (fun h => h.id.toNat % 512 == w.id.toNat % 512))
  let s0 : State := { s with heldWrites := s.heldWrites ++ ws.filter waits }
  let live := byMaster (ws.filter (fun w => !waits w))
  let addrs := ((live.map HeldWrite.addr).eraseDups)
  let sorted := addrs.foldl insertNat []
  let out := sorted.foldl (fun (acc : Wrote) a =>
    let x := acc.state.writeAt a (live.filter (fun w => w.addr == a)) boot
    ⟨x.state, acc.refused ++ x.refused, acc.dropped ++ x.dropped⟩) ⟨s0, failed, []⟩
  (out.state.recordRefused out.refused).recordDropped out.dropped

/-- Held writes whose wash has ended are applied in their order of acceptance; a master's later ones wait for its first (R417). The
first argument bounds their number. -/
def State.releaseHeld (k : Nat) (s : State) : State :=
  match k with
  | 0 => s
  | k + 1 =>
    let firsts := (s.heldWrites.map (fun w => w.id.toNat % 512)).eraseDups.filterMap (fun m =>
      s.heldWrites.find? (fun w => w.id.toNat % 512 == m))
    match firsts.filter (fun w => !s.washHolds w.addr) with
    | [] => s
    | ready =>
      let s1 : State := { s with heldWrites := [] }
      let s2 := s1.writeTick ready false []
      releaseHeld k { s2 with heldWrites := (ready.foldl (fun l w => l.erase w) s.heldWrites) ++ s2.heldWrites }

/-- Apply what is no longer held, in the tick after the wash that held it (R417); a tick does. -/
def State.settleHeld (s : State) : State := s.releaseHeld s.heldWrites.length

/-- One write of 64 bits by a master (R411). -/
def State.csrWrite (s : State) (id : BitVec 12) (addr : Nat) (v : Reg64) : State := s.writeTick [⟨id, addr, v⟩] false []

/-! ## The end of a tick (R10, R415, R416) -/

/-- A row with only the fields of some classes. -/
def RegRow.only (r : RegRow) (f : Cls → Bool) : RegRow := { r with fields := r.fields.filter (fun x => f x.2) }

/-- A write whose SC bit read 1: the operation starts when hardware has cleared the bit in the tick, and else the write is refused with
cause OPERATION. -/
def State.writeAgain (s : State) (w : HeldWrite) : State × List Refused :=
  let pl := s.placeOf w.addr
  match pl.row with
  | none => (s, [])
  | some r =>
    let busy := r.fields.filter (fun f => f.2 == .sc && field w.value f.1.hi f.1.lo != 0 && field (s.shown pl) f.1.hi f.1.lo == 1)
    match busy with
    | f :: _ => (s, [⟨w.id, w.addr, s.fieldCauses pl r pl.index ⟨f.1, .sc, 1⟩ 1 []⟩])
    | [] =>
      let x := s.writeReg w.addr pl (r.only (fun c => c == .sc)) [w] false
      (x.state, x.refused)

/-- The writes of the tick that met an SC bit still set. -/
def State.settleAgain (s : State) : State :=
  let out := s.cyc.again.foldl (fun (acc : State × List Refused) w =>
    let x := acc.1.writeAgain w
    (x.1, acc.2 ++ x.2)) ({ s with cyc.again := [] }, [])
  out.1.recordRefused out.2

/-- The software writes of the tick to registers of R416 that the plain changed in it. -/
def State.lateWrites (s : State) : List HeldWrite :=
  s.cyc.wrote.filter (fun w => (s.placeOf w.addr).row.any (fun r => s.isMoved (s.placeOf w.addr) r.kind))

/-- They are applied in the next tick, judged as they then stand. -/
def State.applyLate (s : State) (l : List HeldWrite) : State :=
  l.foldl (fun s w =>
    let pl := s.placeOf w.addr
    match pl.row with
    | none => s
    | some r =>
      let x := s.writeReg w.addr pl (r.only Cls.lasting) [w] false
      (x.state.recordRefused x.refused).recordDropped x.dropped) s

/-! ## Transactions (R17, R18, R410) -/

/-- The transaction keeps to R17. -/
def axiFits (w : AxiWrite) : Bool :=
  decide (1 ≤ w.beats.length) && decide (w.beats.length ≤ 16) && decide (w.addr % 8 = 0) && w.size == 8 && w.strobes == 255 &&
  (w.beats.length == 1 || w.burst == .incr)

/-- The beats of a transaction as single writes. -/
def axiBeats (w : AxiWrite) : List HeldWrite := w.beats.zipIdx.map (fun b => ⟨w.id, w.addr + 8 * b.2, b.1⟩)

/-- The response of a transaction. -/
def State.response (s : State) (w : AxiWrite) : Resp :=
  if !axiFits w then .slverr
  else if (axiBeats w).any (fun x => s.placeOf x.addr == .hole) then .decerr
  else .okay

/-- The n-th beat of every master, in the order its transactions were issued. -/
def roundOf (l : List HeldWrite) (n : Nat) : List HeldWrite :=
  ((l.map (fun w => w.id.toNat % 512)).eraseDups).filterMap (fun m => (l.filter (fun w => w.id.toNat % 512 == m))[n]?)

/-- A pilot's access that gets an error response raises a store access fault in it (R332). -/
def State.errorResponse (s : State) (w : AxiWrite) (r : Resp) : State :=
  if r = .okay then s
  else if masterOf w.id = 1 then s.pilotFault 80 .store (0x40000000 + w.addr)
  else if masterOf w.id = 2 then s.pilotFault (w.id.toNat / 4 % 128) .store (0x40000000 + w.addr)
  else s

/-- Transactions accepted together: each tick takes one beat of each master. A plain in reset accepts none (R30). -/
def State.writeAll (s : State) (ws : List AxiWrite) : State :=
  if s.inReset then { s with responses := [] } else
  let failed := (ws.filter (fun w => !axiFits w)).map (fun w => (⟨w.id, w.addr, [3]⟩ : Refused))
  let beats := (ws.filter axiFits).flatMap axiBeats
  let s1 := (List.range (max 1 beats.length)).foldl (fun s n => s.writeTick (roundOf beats n) false (if n = 0 then failed else [])) s
  let s2 := ws.foldl (fun t w => t.errorResponse w (s.response w)) s1
  { s2 with responses := ws.map s.response }

/-- REGISTER_WRITE (R411). -/
def execRegisterWrite (ws : List AxiWrite) (s : State) : Out := .next (s.writeAll ws)

end Sys2Proof.Machine
end

