-- ==== Sys2Proof/Machine/CsrRows.lean ====
section
/-! DEFINITION. The commands that are CSR writes with a row of their own: each is the write that its rule names, made by a master, and
goes through the port like every other write. -/

namespace Sys2Proof.Machine

/-! ## Writes that change some fields -/

/-- What a counter at `a` read when the tick began; hardware adds this tick's counts to what is written (R10). -/
def countedBack (h : HwDone) (a : Nat) (f : RF) (v : Nat) : Nat :=
  let n := countedIn h.counted (a * 64 + f.lo)
  if n.2 then v - n.1 else (v + (f.max + 1) - n.1 % (f.max + 1)) % (f.max + 1)

/-- What a master writes back to leave a register as it is: its value with every SC and W1C bit 0 (R411), and every counter as it stood
when the tick began (R10). -/
def State.writeBack (s : State) (addr : Nat) : Reg64 :=
  let pl := s.placeOf addr
  match pl.row with
  | some r => r.fields.foldl (fun v f =>
      if f.2.action then f.1.setIn v 0
      else if f.2 == .cnt then f.1.setIn v (countedBack (s.hwDone pl) pl.slot f.1 (field v f.1.hi f.1.lo))
      else v) (s.csrRead addr)
  | none => 0

/-- A write that gives some fields new values and leaves the others. -/
def State.csrModify (s : State) (id : BitVec 12) (addr : Nat) (l : List (RF × Nat)) : State :=
  s.csrWrite id addr (l.foldl (fun v x => x.1.setIn v x.2) (s.writeBack addr))

/-- CSR address of a register of a core's window. -/
def coreAddr (core off : Nat) : Nat := 0x2000000 + core * 0x1000 + off

/-- A write by each of several masters. -/
def State.writeMany (s : State) (l : List HeldWrite) : State :=
  (List.range (max 1 l.length)).foldl (fun s n => s.writeTick (roundOf l n) false []) s

/-! ## Cores -/

/-- LDG_ENG_PUSH (R59). -/
def execLdgEngPush (core : Nat) (id : BitVec 12) (s : State) : Out :=
  onCore core s (fun _ _ => s.csrWrite id (coreAddr core 0x170) 1)

/-- WASH_START (R68, R69). -/
def execWashStart (core : Nat) (id : BitVec 12) (s : State) : Out :=
  onCore core s (fun _ _ => s.csrWrite id (coreAddr core 0x190) 1)

/-- COVE_ENABLE (R73, R75): a write of COVE_CFG with ENABLE 1. -/
def execCoveEnable (core cove : Nat) (id : BitVec 12) (value : Reg64) (s : State) : Out :=
  onCore core s (fun _ _ =>
    if cove < 32 then s.csrWrite id (coreAddr core (F.coveCfg_enable.addr cove)) (setField value 63 63 1) else s)

/-- COVE_DISABLE (R90): ENABLE 0. -/
def execCoveDisable (core cove : Nat) (id : BitVec 12) (s : State) : Out :=
  onCore core s (fun _ _ =>
    if cove < 32 then s.csrModify id (coreAddr core (F.coveCfg_enable.addr cove)) [(F.coveCfg_enable, 0)] else s)

/-- REL_GO (R90, R94). -/
def execRelGo (core cove : Nat) (id : BitVec 12) (first count : Nat) (s : State) : Out :=
  onCore core s (fun _ _ =>
    if cove < 32 then s.csrModify id (coreAddr core (F.coveCtl_relGo.addr cove))
      [(F.coveCtl_relFirst, first), (F.coveCtl_relCount, count), (F.coveCtl_relGo, 1)] else s)

/-- TAG_WRITE (R106): COVE_TAG_DATA. -/
def execTagWrite (core : Nat) (id : BitVec 12) (value : Reg64) (s : State) : Out :=
  onCore core s (fun _ _ => s.csrWrite id (coreAddr core 0x908) value)

/-- PEAK_CLR (R419). -/
def execPeakClr (core cove : Nat) (id : BitVec 12) (s : State) : Out :=
  onCore core s (fun _ _ =>
    if cove < 32 then s.csrModify id (coreAddr core (F.coveStat_peakClr.addr cove)) [(F.coveStat_peakClr, 1)] else s)

/-- START (R201, R202). -/
def execStart (core : Nat) (id : BitVec 12) (entry ctx : Nat) (s : State) : Out :=
  onCore core s (fun _ _ =>
    s.csrModify id (coreAddr core 0x8) [(F.corCtl_entry, entry), (F.corCtl_ctx, ctx), (F.corCtl_start, 1)])

/-- HALT (R434). -/
def execHalt (core : Nat) (id : BitVec 12) (s : State) : Out :=
  onCore core s (fun _ _ => s.csrModify id (coreAddr core 0x8) [(F.corCtl_halt, 1)])

/-- STEP (R436). -/
def execStep (core : Nat) (id : BitVec 12) (s : State) : Out :=
  onCore core s (fun _ _ => s.csrModify id (coreAddr core 0xc00) [(F.dbgCoreCtl_step, 1)])

/-! ## Windows, straits, schedule -/

/-- DTREE_WRITE (R237). -/
def execDtreeWrite (id : BitVec 12) (value : Reg64) (s : State) : Out := .next (s.csrWrite id 0x4008 value)

/-- A command for a harbour window. -/
def onWindow (win : Nat) (s : State) (f : State → State) : Out := if win < 4096 then .next (f s) else .fault (.noSuchWindow win)

/-- OPEN_GO (R294). -/
def execOpenGo (win : Nat) (id : BitVec 12) (s : State) : Out :=
  onWindow win s (fun s => s.csrModify id (F.hbrWinCtl_openGo.addr win) [(F.hbrWinCtl_openGo, 1)])

/-- CLOSE_GO (R295). -/
def execCloseGo (win : Nat) (id : BitVec 12) (s : State) : Out :=
  onWindow win s (fun s => s.csrModify id (F.hbrWinCtl_closeGo.addr win) [(F.hbrWinCtl_closeGo, 1)])

/-- BAY_ROLE_WRITE (R297). -/
def execBayRoleWrite (bay : Nat) (id : BitVec 12) (role epoch : Nat) (s : State) : Out :=
  onBay bay s (fun s => s.csrModify id (F.bayRole_role.addr bay) [(F.bayRole_role, role), (F.bayRole_epoch, epoch)])

/-- LINK_ENABLE (R293): a write of STR_CFG. -/
def execLinkEnable (port : Nat) (id : BitVec 12) (value : Reg64) (s : State) : Out :=
  onPort port s (fun s => s.csrWrite id (F.strCfg_enable.addr port) value)

/-- RETRAIN (R293). -/
def execRetrain (port : Nat) (id : BitVec 12) (s : State) : Out :=
  onPort port s (fun s => s.csrModify id (F.strCfg_enable.addr port) [(F.strCfg_retrain, 1)])

/-- SCHED_ARM (R255): a write of TID_SCHED with ARM 1. -/
def execSchedArm (bay : Nat) (id : BitVec 12) (value : Reg64) (s : State) : Out :=
  onBay bay s (fun s => s.csrWrite id (F.tidSched_arm.addr bay) (setField value 63 63 1))

/-- SCHED_DISARM (R255): ARM 0. -/
def execSchedDisarm (bay : Nat) (id : BitVec 12) (s : State) : Out :=
  onBay bay s (fun s => s.csrModify id (F.tidSched_arm.addr bay) [(F.tidSched_arm, 0)])

/-- SERVICE_GO (R328). -/
def execServiceGo (shoal : Nat) (id : BitVec 12) (s : State) : Out :=
  onShoal shoal s (fun s => s.csrModify id (F.shlMendCfg_serviceGo.addr shoal) [(F.shlMendCfg_serviceGo, 1)])

/-! ## Mirror, notices, ledger -/

/-- MIRROR_LOAD (R329): DIR 0 and GO; `base` is the BASE field. -/
def execMirrorLoad (id : BitVec 12) (base : Nat) (s : State) : Out :=
  .next (s.csrModify id 0x5020 [(F.plnMirrorCfg_dir, 0), (F.plnMirrorCfg_base, base), (F.plnMirrorCfg_go, 1)])

/-- MIRROR_SAVE (R329): DIR 1 and GO. -/
def execMirrorSave (id : BitVec 12) (base : Nat) (s : State) : Out :=
  .next (s.csrModify id 0x5020 [(F.plnMirrorCfg_dir, 1), (F.plnMirrorCfg_base, base), (F.plnMirrorCfg_go, 1)])

/-- POP (R334, R419); pilot 80 is the lead pilot. -/
def execPop (pilot : Nat) (id : BitVec 12) (s : State) : Out :=
  onPilot pilot s (fun s =>
    if pilot = 80 then s.csrModify id 0x6010 [(F.plnNoticeLo_pop, 1)]
    else s.csrModify id (F.shlNotice_pop.addr pilot) [(F.shlNotice_pop, 1)])

/-- A write of every listed master to a register of its ledger port. -/
def onLedgerPorts (base : Nat) (l : List (BitVec 12 × Nat × Reg64)) (s : State) : Out :=
  match l.find? (fun x => decide (82 < x.2.1)) with
  | some x => .fault (.noSuchPort x.2.1)
  | none => .next (s.writeMany (l.map (fun x => ⟨x.1, base + x.2.1 * 0x20, x.2.2⟩)))

/-- CAS_CMD (R343, R344): each command with its master and port. -/
def execCasCmd (cmds : List (BitVec 12 × Nat × Reg64)) (s : State) : Out := onLedgerPorts 0x17000 cmds s

/-- CHARGE (R349): each command with its master and port. -/
def execCharge (cmds : List (BitVec 12 × Nat × Reg64)) (s : State) : Out := onLedgerPorts 0x17010 cmds s

/-- BAY_DRAIN (R345). -/
def execBayDrain (bay : Nat) (id : BitVec 12) (s : State) : Out :=
  onBay bay s (fun s => s.csrModify id (F.bayDrain_go.addr bay) [(F.bayDrain_go, 1)])

/-- HBR_REDRIVE (R347). -/
def execHbrRedrive (id : BitVec 12) (window record : Nat) (s : State) : Out :=
  .next (s.csrModify id 0x14018 [(F.hbrRedrive_window, window), (F.hbrRedrive_record, record), (F.hbrRedrive_go, 1)])

/-- PREFIX_WALK (R353): LED_WALK_CMD with GO. -/
def execPrefixWalk (id : BitVec 12) (value : Reg64) (s : State) : Out := .next (s.csrWrite id 0x16108 (setField value 63 63 1))

/-! ## Bays and contexts -/

/-- BAY_CARVE_WRITE (R356): words 0 to 2 of BAY_CARVE, 3 and 4 the halves of BAY_SHOALS. -/
def execBayCarveWrite (bay word : Nat) (id : BitVec 12) (value : Reg64) (s : State) : Out :=
  onBay bay s (fun s => if word < 5 then s.csrWrite id (0x18000 + bay * 0x40 + word * 8) value else s)

/-- CREATE_GO (R357). -/
def execCreateGo (bay : Nat) (id : BitVec 12) (s : State) : Out :=
  onBay bay s (fun s => s.csrModify id (F.bayCtl_createGo.addr bay) [(F.bayCtl_createGo, 1)])

/-- RETIRE_GO (R358). -/
def execRetireGo (bay : Nat) (id : BitVec 12) (s : State) : Out :=
  onBay bay s (fun s => s.csrModify id (F.bayCtl_retireGo.addr bay) [(F.bayCtl_retireGo, 1)])

/-- WASH_GO (R359). -/
def execWashGo (bay : Nat) (id : BitVec 12) (s : State) : Out :=
  onBay bay s (fun s => s.csrModify id (F.bayCtl_washGo.addr bay) [(F.bayCtl_washGo, 1)])

/-- CTX_CFG.OPEN_GO (R362). -/
def execCtxOpen (ctx : Nat) (id : BitVec 12) (s : State) : Out :=
  onCtx ctx s (fun s => s.csrModify id (F.ctxCfg_openGo.addr ctx) [(F.ctxCfg_openGo, 1)])

/-- CTX_CFG.CLOSE_GO (R364). -/
def execCtxClose (ctx : Nat) (id : BitVec 12) (s : State) : Out :=
  onCtx ctx s (fun s => s.csrModify id (F.ctxCfg_closeGo.addr ctx) [(F.ctxCfg_closeGo, 1)])

/-- FREE_GO (R365). -/
def execFreeGo (ctx : Nat) (id : BitVec 12) (s : State) : Out :=
  onCtx ctx s (fun s => s.csrModify id (F.ctxCfg_freeGo.addr ctx) [(F.ctxCfg_freeGo, 1)])

/-- INC (R363): one write of CTX_REF by each master. -/
def execInc (ctx : Nat) (ids : List (BitVec 12)) (s : State) : Out :=
  onCtx ctx s (fun s => s.writeMany (ids.map (fun id => ⟨id, F.ctxRef_inc.addr ctx, 1⟩)))

/-- DEC (R363). -/
def execDec (ctx : Nat) (ids : List (BitVec 12)) (s : State) : Out :=
  onCtx ctx s (fun s => s.writeMany (ids.map (fun id => ⟨id, F.ctxRef_dec.addr ctx, 2⟩)))

/-- PLN_CTX_LOSE (R366). -/
def execPlnCtxLose (id : BitVec 12) (ctx core : Nat) (s : State) : Out :=
  .next (s.csrWrite id 0x6020 (F.plnCtxLose_core.setIn (F.plnCtxLose_ctx.setIn 0 ctx) core))

/-- PLN_MSIX (R375). -/
def execPlnMsix (id : BitVec 12) (vector : Nat) (s : State) : Out := .next (s.csrWrite id 0x6040 (BitVec.ofNat 64 vector))

/-! ## Image, journal, perturbation -/

/-- PR_GO (R391): IMG_PR_CFG with GO. -/
def execPrGo (id : BitVec 12) (value : Reg64) (s : State) : Out := .next (s.csrWrite id 0x7020 (setField value 63 63 1))

/-- PUSH (R398). -/
def execPush (id : BitVec 12) (s : State) : Out := .next (s.csrWrite id 0x7050 1)

/-- COMPACT (R399). -/
def execCompact (id : BitVec 12) (s : State) : Out := .next (s.csrWrite id 0x7050 2)

/-- PRT_ENABLE (R442): a write of PRT_CTL. -/
def execPrtEnable (id : BitVec 12) (value : Reg64) (s : State) : Out := .next (s.csrWrite id 0xc1000 value)

end Sys2Proof.Machine
end

