-- ==== Sys2Proof/Machine/Image.lean ====
section
/-! DEFINITION. Bring-up (R383 to R389, R397, R401, R402): the loader from the journal's replay to READY, and pilot reloads. -/

namespace Sys2Proof.Machine

/-! ## Journal replay (R397) -/

/-- A record's value as it is written: SC fields 0. -/
def State.replayValue (s : State) (addr : Nat) (v : Reg64) : Reg64 :=
  match (s.placeOf addr).row with
  | some r => (r.fields.filter (fun f => f.2 == .sc)).foldl (fun v f => f.1.setIn v 0) v
  | none => v

/-- One record: a write as the lead pilot; an address outside Table 14-6 is skipped, a torn record counted. -/
def State.replayRecord (s : State) (r : JRecord) : State :=
  match r with
  | .holds a v => if isJournalled a then s.writeTick [⟨1, a, s.replayValue a v⟩] true [] else s.bump F.imgJrnlStat_skipped
  | .torn => s.bump F.imgJrnlStat_torn
  | .ends => s

/-- Replay of the active area. -/
def State.replayJournal (s : State) : State :=
  match s.activeArea with
  | none => { (s.put F.imgJrnlStat_used 0).put F.imgJrnlStat_area 0 with journalGen := none, loader := { s.loader with replayed := true } }
  | some area =>
    let all := s.records area areaRecords 0
    let s1 := all.foldl (fun s r => s.replayRecord r) s
    { (s1.put F.imgJrnlStat_used all.length).put F.imgJrnlStat_area area with
      journalGen := some (s.areaGen area)
      loader := { s1.loader with replayed := true } }

/-! ## Slot attempts (R383) -/

/-- The loader may run: release and all three rails are high (R26, R30). -/
def State.mayLoad (s : State) : Bool := s.pins.release && s.pins.railLogic && s.pins.railLedge && s.pins.railStrand

/-- Every structure an attempt wrote returns to its reset value. -/
def State.dropImage (s : State) : State :=
  (s.cores.map (fun e => e.1)).foldl (fun s p => s.modCore p (fun c => { c with strand := [] }))
    { s with
      fabric := []
      coreCfg := []
      strandCfg := []
      sram := []
      header := []
      loader := { s.loader with pos := 0, outputs := false } }

/-- The slot that the next attempt of the round tries, or that the last one tried. -/
def Loader.slotOf (l : Loader) (n : Nat) : Nat := if n = 0 then l.first else 1 - l.first

/-- A slot fails with a cause; `word` is the store address of the word at fault, over 8. After both slots STATE reads RETRY. -/
def State.failSlot (s : State) (slot cause word : Nat) : State :=
  let s1 := if slot = 0 then (s.put F.imgFail_cause0 cause).put F.imgFail_word0 word
    else (s.put F.imgFail_cause1 cause).put F.imgFail_word1 word
  let s2 := s1.dropImage
  { s2.put F.imgStat_state (if 2 ≤ s.loader.tries then 7 else 2) with loader := { s2.loader with since := s.now } }

/-- Header check, frame copy and compare of a slot: the state after, and what fails with its byte of the image. -/
def State.trySlot (s : State) (slot : Nat) : State × Stop :=
  let x := Source.store (slotBase slot)
  let h := s.imageBytes x 0 128
  match (List.range 16).find? (fun i => s.imageFails x (8 * i) 8) with
  | some i => (s, some (6, 8 * i))
  | none =>
    match s.headerFault h with
    | some e => (s, some e)
    | none =>
      match s.walkFrames x h (fun s f => s.copyFrame x (f.shoals h) f) (hdr h 44 4 * 8) (hdr h 40 4) 128 with
      | (s1, some e) => (s1, some e)
      | (s1, none) =>
        if s1.flag F.imgBoot_compare then
          s1.walkFrames x h (fun s f => s.compareFrame x (f.shoals h) f) (hdr h 44 4 * 8) (hdr h 40 4) 128
        else (s1, none)

/-- One attempt at a slot, counted; an image that passes goes on to its start order. -/
def State.attemptSlot (s0 : State) : State :=
  let s1 := s0.bump F.imgStat_attempts
  let slot := s0.loader.slotOf s0.loader.tries
  let s : State := { s1 with loader := { s1.loader with tries := s1.loader.tries + 1 } }
  match s.trySlot slot with
  | (s2, some (cause, byte)) => s2.failSlot slot cause ((slotBase slot + byte) / 8)
  | (s2, none) =>
    { s2.put F.imgStat_state 4 with
      header := s2.storeRead (slotBase slot) 128
      loader := { s2.loader with pos := 0, acted := s2.now, since := s2.now } }

/-- IMAGE_LOAD_ATTEMPT: with release and rails high and no load behind it or under way; the journal is replayed first, and HOLD stops
the loader before the attempt. -/
def execImageLoadAttempt (s : State) : Out :=
  let st := s.get F.imgStat_state
  if !s.mayLoad || !(st == 0 || st == 2 || st == 8) then .next s
  else
    let s1 := if s.loader.replayed then s else s.replayJournal
    let first := if s1.flag F.imgCtl_slotOvrEn then s1.get F.imgCtl_slotOvr else s1.get F.imgBoot_slot
    let s2 : State := if s1.loader.tries = 0 then { s1 with loader := { s1.loader with first := first } } else s1
    if s2.flag F.imgCtl_hold then .next (s2.put F.imgStat_state 8) else .next s2.attemptSlot

/-- Rails that are high and fall: bit 0 logic, bit 1 ledge, bit 2 strand (RAIL_FAULT's DETAIL). -/
def State.railsFalling (s : State) (logic ledge strand : Bool) : Nat :=
  b2n (s.pins.railLogic && logic) + 2 * b2n (s.pins.railLedge && ledge) + 4 * b2n (s.pins.railStrand && strand)

/-- Every core of the plain that runs stops as under R265: it issues nothing more. -/
def State.holdCores (s : State) : State :=
  s.cores.foldl (fun x e => if e.2.flag F.corCtl_stopped then x else x.modCore e.1 CoreState.stopShort) s

/-- Rails fall in READY (R30): every step in progress fences, all shoals are held, and the event goes to the lead pilot. -/
def State.failRails (s : State) (bits : Nat) : State :=
  let s1 := ((List.range 80).filter s.armed).foldl (fun x b => x.fenceBay b) s
  ({ s1.holdCores with railHeld := true } : State).raise 20 none bits

/-- New levels of release and the rails (R30, R384): where one falls before READY the attempt is abandoned uncounted, and the
loader begins at the top; a rail that falls in READY is a rail fault. The plain leaves reset once all three rails are high. The
first rise of release starts LOAD_MS. -/
def State.changeLevels (s : State) (release logic ledge strand : Bool) : State :=
  let bits := s.railsFalling (!logic) (!ledge) (!strand)
  let s1 : State := { s with
    pins := { s.pins with release := release, railLogic := logic, railLedge := ledge, railStrand := strand }
    inReset := s.inReset && !(logic && ledge && strand)
    loader := { s.loader with released :=
      if release && !s.pins.release && s.loader.released.isNone then some s.now else s.loader.released } }
  if s.get F.imgStat_state = 6 then (if bits = 0 then s1 else s1.failRails bits)
  else if bits = 0 ∧ (s.pins.release && !release) = false then s1
  else
    let s2 := s1.dropImage
    { s2.put F.imgStat_state 0 with loader := { s2.loader with replayed := false, tries := 0 } }

/-- LOAD_ABANDON (R384): the levels of release and the rails after a change. -/
def execLoadAbandon (release logic ledge strand : Bool) (s : State) : Out := .next (s.changeLevels release logic ledge strand)

/-- LOAD_RETRY (R383): after both slots, 10 ms or GO begin a new round. -/
def execLoadRetry (s : State) : Out :=
  if s.get F.imgStat_state = 7 ∧ (s.loader.since + 10000000 ≤ s.now ∨ s.flag F.imgCtl_go = true) then
    .next { (s.put F.imgStat_state 2).put F.imgCtl_go 0 with loader := { s.loader with tries := 0 } }
  else .next s

/-! ## Start order (R387, Table 14-5) -/

/-- The delay after the last action performed is over. -/
def State.delayOver (s : State) : Bool :=
  let l := s.loader
  l.pos == 0 || decide (l.acted + hdr s.header (32 + 2 * (l.pos - 1)) 2 * 1000 ≤ s.now)

/-- The next action of START_ORDER. -/
def State.nextAction (s : State) : Nat := hdr s.header (28 + s.loader.pos) 1

/-- What an action does: LOCK sets LOCKED, OUTPUTS lets straits leave DOWN; SETRESET and WRITES release parts that hold their reset
values and that nothing but the loader can have written before READY. -/
def State.performAction (s : State) (a : Nat) : State :=
  if a = 1 then s.put F.tidStat_locked 1
  else if a = 2 then
    (List.range 48).foldl (fun s n => if s.flag F.strCfg_enable n then s.linkStart n else s)
      { s with loader := { s.loader with outputs := true } }
  else s

/-- START_ACTION: the next action, once the delay of the one before is over. -/
def execStartAction (s : State) : Out :=
  if s.get F.imgStat_state = 4 ∧ s.loader.pos < 4 ∧ s.delayOver = true ∧ s.mayLoad = true then
    let s1 := s.performAction s.nextAction
    .next { s1 with loader := { s1.loader with pos := s1.loader.pos + 1, acted := s.now } }
  else .next s

/-- LOCK_TIMEOUT: LOCK is due and has not completed within 10 ms. The word of IMG_FAIL is free: no word of the store is at fault. -/
def execLockTimeout (s : State) : Out :=
  let begun := if s.loader.pos = 0 then s.loader.acted else s.loader.acted + hdr s.header (32 + 2 * (s.loader.pos - 1)) 2 * 1000
  if s.get F.imgStat_state = 4 ∧ s.loader.pos < 4 ∧ s.nextAction = 1 ∧ begun + 10000000 ≤ s.now then
    .next (s.used.failSlot (s.loader.slotOf (s.loader.tries - 1)) 8 (Config.freeNat s.fresh % 2 ^ 26))
  else .next s

/-! ## The end of a load (R388, R401, R402) -/

/-- PLN_GEOM0 to 6 and GEOM_CODE from a header, with the figures of the geometry table that the silicon fixes (Tables 1-2 to 1-5). -/
def State.writeGeometry (s : State) (h : List Byte) : State :=
  let a := hdr h 10 1 == 0
  let mask := hdr h 16 10
  let l : List (RF × Nat) :=
    [(F.plnId_geomCode, hdr h 6 1), (F.plnGeom0_fmtMask, 0x3ff), (F.plnGeom0_vecLanes, hdr h 11 1), (F.plnGeom0_aspect, hdr h 10 1),
     (F.plnGeom0_arrCols, if a then 64 else 128), (F.plnGeom1_estMask, hdr h 12 1), (F.plnGeom1_strandStages, hdr h 13 1),
     (F.plnGeom1_inletDec, hdr h 14 1), (F.plnGeom1_customOps, hdr h 15 1), (F.plnGeom1_strandLe, 2048), (F.plnGeom1_strandMult, 16),
     (F.plnGeom1_strandRamKib, 64), (F.plnGeom2_shoalMaskLo, mask % 2 ^ 64), (F.plnGeom3_shoalMaskHi, mask / 2 ^ 64),
     (F.plnGeom3_shoalsUsable, ((List.range 80).filter (fun k => bit mask k)).length), (F.plnGeom4_basinLat, 7), (F.plnGeom4_coves, 32),
     (F.plnGeom4_chunkBytes, 64), (F.plnGeom4_ledgeRows, 2048), (F.plnGeom4_banks, 16), (F.plnGeom4_ledges, 12),
     (F.plnGeom5_engMhz, 1000), (F.plnGeom5_strandMhz, 500), (F.plnGeom5_straits, 48), (F.plnGeom5_tierPorts, 16),
     (F.plnGeom5_passBytes, 128), (F.plnGeom6_ledgerEntries, 8192), (F.plnGeom6_harbourWindows, 4096), (F.plnGeom6_contexts, 1024),
     (F.plnGeom6_tenants, 1024), (F.plnGeom0_arrRows, if a then 128 else 64)]
  l.foldl (fun s x => s.put x.1 x.2) s

/-- COR_STRAND_CAPS of every physical core of the usable shoals. -/
def State.loadCaps (s : State) (h : List Byte) : State :=
  let v := BitVec.ofNat 64 (hdr h 64 8)
  ((List.range 80).filter (fun k => s.usable k)).foldl (fun s k =>
    (List.range 17).foldl (fun s n => s.modCore (k * 17 + n) (fun c => c.setReg F.corStrandCaps_opLat.base v)) s) s

/-- A rail's reading in 0.1 mV with its trim. -/
def trimmed (raw trim : Nat) : Nat := ((raw : Int) + signed 16 trim).toNat

/-- A rail lies more than 5% from its nominal voltage, in 0.1 mV. -/
def outOfRail (v nominal : Nat) : Bool := decide (20 * v < 19 * nominal) || decide (21 * nominal < 20 * v)

/-- A reading as its field shows it, in whole mV. -/
def shownMv (v : Nat) : Nat := min 1023 (v / 10)

/-- The rail measurement (R401). -/
def State.measureRails (s : State) (m : Measure) : State :=
  let logic := s.get F.imgTrimRail_logic
  let ledge := s.get F.imgTrimRail_ledge
  let strand := s.get F.imgTrimRail_strand
  let out := b2n (outOfRail (trimmed m.logicLoad logic) 7000) + 2 * b2n (outOfRail (trimmed m.ledgeLoad ledge) 6500) +
    4 * b2n (outOfRail (trimmed m.strandLoad strand) 7500)
  let l : List (RF × Nat) :=
    [(F.imgMeasRail_logicIdle, shownMv (trimmed m.logicIdle logic)), (F.imgMeasRail_logicLoad, shownMv (trimmed m.logicLoad logic)),
     (F.imgMeasRail_ledgeIdle, shownMv (trimmed m.ledgeIdle ledge)), (F.imgMeasRail_ledgeLoad, shownMv (trimmed m.ledgeLoad ledge)),
     (F.imgMeasRail_strandIdle, shownMv (trimmed m.strandIdle strand)), (F.imgMeasRail_strandLoad, shownMv (trimmed m.strandLoad strand)),
     (F.imgMeasRail_out, out), (F.imgMeasRail_valid, 1)]
  l.foldl (fun s x => s.put x.1 x.2) s

/-- The tier measurement and PLN_GEOM7 (R402). -/
def State.measureTiers (s : State) (m : Measure) : State :=
  let near := if m.hbmStacks % 16 = 15 then 256 else 0
  let far := if m.cxlLinks % 4 = 3 then min 1024 (2 * min m.cxl0 m.cxl1) else 0
  let l : List (RF × Nat) :=
    [(F.imgMeasTier_stacks, m.hbmStacks), (F.imgMeasTier_links, m.cxlLinks), (F.imgMeasTier_cxl0Gib, m.cxl0), (F.imgMeasTier_cxl1Gib, m.cxl1),
     (F.imgMeasTier_valid, 1), (F.plnGeom7_nearGib, near), (F.plnGeom7_farGib, far)]
  l.foldl (fun s x => s.put x.1 x.2) s

/-- BUDGET and FLOOR at their load values (R273). -/
def State.loadBudget (s : State) : State :=
  let budget := 1024000 * s.get F.plnGeom3_shoalsUsable
  (s.put F.tidGovCfg_budget budget).put F.tidGovCfg_floor (budget / 2)

/-- The pilots of the usable shoals and the lead pilot start (R388). -/
def State.startPilots (s : State) : State := ((List.range 81).filter (fun n => n == 80 || s.usable n)).foldl (fun s n => s.startPilot n) s

/-- LOAD_FINISH: geometry, caps, the power-up wash, the measurements, READY, and the pilots' start. -/
def execLoadFinish (m : Measure) (s : State) : Out :=
  if s.get F.imgStat_state = 4 ∧ s.loader.pos = 4 ∧ s.delayOver = true ∧ s.mayLoad = true then
    let h := s.header
    let s1 := { (s.writeGeometry h).loadCaps h with constBlocks := hdr h 72 2, writeBlocks := hdr h 74 2 }
    let s2 := ((List.range 80).filter (fun k => s1.usable k)).foldl (fun s k => s.washShoal k) s1
    let s3 := ((s2.loadBudget.measureRails m).measureTiers m).put F.imgStat_slot (s.loader.slotOf (s.loader.tries - 1))
    let ms := min 65535 ((s.now - s.loader.released.getD 0) / 1000000)
    .next ((s3.put F.imgStat_loadMs ms).put F.imgStat_state 6).startPilots
  else .next s

/-! ## Pilot reloads (R389) -/

/-- PILOT_RELOAD: a pilot in reset gets its SRAM zeroed and its frames again, and starts; a walk that fails leaves it in reset. The
image port serves one operation at a time, so it waits for the load and for a partial reconfiguration (R394). -/
def execPilotReload (pilot : Nat) (s : State) : Out :=
  onPilot pilot s (fun s =>
    if !(s.pilot pilot).inReset || s.pr.isSome || s.get F.imgStat_state != 6 then s
    else
      let x := Source.store (slotBase (s.get F.imgStat_slot))
      let h := s.header
      let s1 := ({ s with sram := Sparse.clear s.sram (pilot * 2 ^ 32) ((pilot + 1) * 2 ^ 32) } : State).modPilot pilot
        (fun p => { p with sramErrs := [] })
      let act := fun (s : State) (f : Frame) =>
        if pilot < 80 then (if f.kind == 5 && pilot ∈ f.shoals h then s.copyFrame x [pilot] f else (s, none))
        else (if f.kind == 6 then s.copyFrame x [] f else (s, none))
      match s1.walkFrames x h act (hdr h 44 4 * 8) (hdr h 40 4) 128 with
      | (s2, none) => s2.startPilot pilot
      | (s2, some _) => s2)

end Sys2Proof.Machine
end

