-- ==== Sys2Proof/Machine/Debug.lean ====
section
/-! DEFINITION. The debug port (R429 to R433) and trace (R438). -/

namespace Sys2Proof.Machine

/-! ## Results -/

/-- What a command of XFER answers: DATA where it reads, STATUS, POISON. -/
structure XferRes where
  data : Option Reg64
  status : Nat
  poison : Bool
  deriving DecidableEq, Repr

/-- A command ends: the result stands for the next Capture-DR. DATA is free where the command reads nothing. -/
def State.finishXfer (s : State) (r : XferRes) : State :=
  let d : DebugPort := { s.dbg with
    data := r.data.getD (Config.freeReg s.fresh)
    status := r.status
    poison := r.poison
    busy := none
    commands := (s.dbg.commands + 1) % 65536 }
  { (if r.data.isSome then s else s.used) with dbg := d }

/-! ## CSR (R408 to R414 as master 0) -/

/-- An access of the debug port fails: it is recorded. -/
def State.refuseDebug (s : State) (addr cause : Nat) : State := s.recordRefused [⟨0, addr, [cause]⟩]

/-- CSR read: SLVERR for a misaligned address, DECERR for a hole. -/
def State.debugCsrRead (s : State) (addr : Nat) : State × XferRes :=
  if addr % 8 ≠ 0 then (s.refuseDebug addr 3, ⟨none, 2, false⟩)
  else if s.placeOf addr == .hole then (s.refuseDebug addr 4, ⟨none, 3, false⟩)
  else (s, ⟨some (s.csrRead addr), 0, false⟩)

/-- CSR write. -/
def State.debugCsrWrite (s : State) (addr : Nat) (v : Reg64) : State × XferRes :=
  if addr % 8 ≠ 0 then (s.refuseDebug addr 3, ⟨none, 2, false⟩)
  else (s.csrWrite 0 addr v, ⟨none, if s.placeOf addr == .hole then 3 else 0, false⟩)

/-! ## Basin (R430) -/

/-- The core of a basin or table operation exists and has power. -/
def State.debugCore (s : State) (core : Nat) : Bool := decide (core < 1280) && s.usable (core / 16)

/-- Basin read of the word that holds the address: no tag check, no repair; a poisoned or uncorrectable chunk sets POISON. -/
def State.debugBasinRead (s : State) (core addr : Nat) : State × XferRes :=
  let a := addr / 8 * 8
  if !s.debugCore core || decide (basinBytes ≤ a) then (s, ⟨none, 2, false⟩)
  else
    let p := s.phys core
    let g := s.meets p .debug [a]
    (g.2, ⟨some (BitVec.ofNat 64 (bytesNat ((g.2.core p).peek a 8))), 0, match g.1 with
      | .data [] => false
      | _ => true⟩)

/-- Basin write of a word: no tag is checked or changed; parity deltas go out. -/
def State.debugBasinWrite (s : State) (core addr : Nat) (v : Reg64) : State × XferRes :=
  let a := addr / 8 * 8
  if !s.debugCore core || decide (basinBytes ≤ a) then (s, ⟨none, 2, false⟩)
  else (s.poke (s.phys core) a (natBytes 8 v.toNat) false, ⟨none, 0, false⟩)

/-- DATA[0] becomes the chunk's poison bit; in a folded cove a change goes out as a delta. -/
def State.debugPoison (s : State) (core addr : Nat) (v : Reg64) : State × XferRes :=
  let a := chunkOf addr
  if !s.debugCore core || decide (basinBytes ≤ a) then (s, ⟨none, 2, false⟩)
  else
    let p := s.phys core
    let bad := field v 0 0 == 1
    let s1 := s.modCore p (fun c => c.setPoison a bad)
    (if (s.core p).folded a && (s.core p).poisoned a != bad then s1.pushDelta p ⟨a, List.replicate 64 0, true⟩ else s1, ⟨none, 0, false⟩)

/-! ## Tiers and store (R431, R432) -/

/-- Tier read of a word as bay 0. -/
def State.debugTierRead (s : State) (addr : Nat) : State × XferRes :=
  let a := addr / 8 * 8
  if !s.tierExists a 8 then (s, ⟨none, 2, false⟩)
  else
    let bad := s.tierBad a 8
    (s.countBytes 0 8, ⟨some (BitVec.ofNat 64 (s.tierNat a 8)), if bad then 2 else 0, bad⟩)

/-- Tier write of a word as bay 0. -/
def State.debugTierWrite (s : State) (addr : Nat) (v : Reg64) : State × XferRes :=
  let a := addr / 8 * 8
  if !s.tierExists a 8 then (s, ⟨none, 2, false⟩) else ((s.tierWrite a (natBytes 8 v.toNat) []).countBytes 0 8, ⟨none, 0, false⟩)

/-- Store read of a word; an address beyond the store, or a word it cannot correct, is refused. -/
def State.debugStoreRead (s : State) (addr : Nat) : State × XferRes :=
  let a := addr / 8 * 8
  if storeEnd ≤ a ∨ s.storeFails a 8 = true then (s, ⟨none, 2, false⟩)
  else (s, ⟨some (BitVec.ofNat 64 (s.storeNat a 8)), 0, false⟩)

/-- The loader is HELD. -/
def State.loaderHeld (s : State) : Bool := s.get F.imgStat_state == 8

/-- Store write of a word, only while the loader is HELD. -/
def State.debugStoreWrite (s : State) (addr : Nat) (v : Reg64) : State × XferRes :=
  let a := addr / 8 * 8
  if s.loaderHeld && decide (a < storeEnd) then (s.storeWrite a (natBytes 8 v.toNat), ⟨none, 0, false⟩) else (s, ⟨none, 2, false⟩)

/-- Store erase of a block, only while the loader is HELD. -/
def State.debugStoreErase (s : State) (addr : Nat) : State × XferRes :=
  if s.loaderHeld && decide (addr < storeEnd) then (s.storeErase addr, ⟨none, 0, false⟩) else (s, ⟨none, 2, false⟩)

/-! ## Tables (R433, Table 16-3) -/

/-- A table: how many entries it has, the fields of its selector with the part of the index each takes (divisor), and the address of
its data register. -/
structure DebugTable where
  size : Nat
  sels : List (RF × Nat)
  data : Nat
  deriving DecidableEq, Repr

/-- Table `t` at an index; `core` where it is a core's. -/
def debugTable (t core i : Nat) : Option DebugTable :=
  let at_ := coreAddr core
  match t with
  | 0 => some ⟨8192, [(F.coveTagSel_index, 1)], at_ 0x908⟩
  | 1 => some ⟨8192, [(F.corStrandSel_word, 1)], at_ 0xd0⟩
  | 2 => some ⟨128, [(F.corDescSel_entry, 2)], at_ (if i % 2 = 0 then 0xe0 else 0xe8)⟩
  | 3 => some ⟨512, [(F.corRouteSel_entry, 2)], at_ (if i % 2 = 0 then 0x378 else 0x380)⟩
  | 4 => some ⟨1024, [(F.corPlanSel_index, 1)], at_ 0x390⟩
  | 5 => some ⟨49152, [(F.strPlanSel_port, 1024), (F.strPlanSel_index, 1)], 0x12c10⟩
  | 6 => some ⟨16384, [(F.plnDtreeSel_tree, 16), (F.plnDtreeSel_word, 1)], 0x4008⟩
  | 7 => some ⟨8192, [(F.tidFtabSel_index, 1)], 0x11028⟩
  | 8 => some ⟨48, [(F.imgMeasSel_port, 1)], 0x7098⟩
  | _ => none

/-- A field of a selector: of a core for tables 0 to 4. -/
def State.selGet (s : State) (t core : Nat) (f : RF) : Nat := if t < 5 then (s.core (s.phys core)).get f else s.get f
def State.selPut (s : State) (t core : Nat) (f : RF) (x : Nat) : State :=
  if t < 5 then s.modCore (s.phys core) (fun c => c.put f x) else s.put f x

/-- What the selectors held at the start of the tick, of a core for tables 0 to 4 (R422). -/
def State.selsKept (s : State) (t core : Nat) : List (Nat × Reg64) := if t < 5 then (s.core (s.phys core)).cyc.sels else s.cyc.sels
def State.putSelsKept (s : State) (t core : Nat) (l : List (Nat × Reg64)) : State :=
  if t < 5 then s.modCore (s.phys core) (fun c => { c with cyc.sels := l }) else { s with cyc.sels := l }

/-- The selector shows an index. -/
def State.select (s : State) (t core i : Nat) (d : DebugTable) : State :=
  (d.sels.foldl (fun s x => s.selPut t core x.1 (i / x.2 % 2 ^ (x.1.hi + 1 - x.1.lo))) s).putSelsKept t core []

/-- The selector shows again what it showed. -/
def State.unselect (s was : State) (t core : Nat) (d : DebugTable) : State :=
  (d.sels.foldl (fun s x => s.selPut t core x.1 (was.selGet t core x.1)) s).putSelsKept t core (was.selsKept t core)

/-- The table operation reaches an entry: its table; else STATUS 2 for a reserved table or a core that does not exist, 3 beyond its end. -/
def tableFor (t core i : Nat) : Except Nat DebugTable :=
  match debugTable t core i with
  | none => .error 2
  | some d => if t < 5 ∧ 1280 ≤ core then .error 2 else if d.size ≤ i then .error 3 else .ok d

/-- Table read. -/
def State.debugTableRead (s : State) (core addr : Nat) : State × XferRes :=
  let t := addr / 2 ^ 36
  let i := addr % 2 ^ 36
  match tableFor t core i with
  | .error e => (s, ⟨none, e, false⟩)
  | .ok d => (s, ⟨some ((s.select t core i d).csrRead d.data), 0, false⟩)

/-- Table write: as a write of the data register; a refusal is recorded. -/
def State.debugTableWrite (s : State) (core addr : Nat) (v : Reg64) : State × XferRes :=
  let t := addr / 2 ^ 36
  let i := addr % 2 ^ 36
  match tableFor t core i with
  | .error e => (s, ⟨none, e, false⟩)
  | .ok d => (((s.select t core i d).csrWrite 0 d.data v).unselect s t core d, ⟨none, 0, false⟩)

/-! ## Commands of XFER (R429) -/

/-- What an operation of Table 16-2 does. -/
def State.xferOp (s : State) (x : XferCmd) : State × XferRes :=
  match x.op with
  | 0 => (s, ⟨none, 0, false⟩)
  | 1 => s.debugCsrRead (x.addr % 2 ^ 26)
  | 2 => s.debugCsrWrite (x.addr % 2 ^ 26) x.data
  | 3 => s.debugBasinRead x.core (x.addr % 2 ^ 25)
  | 4 => s.debugBasinWrite x.core (x.addr % 2 ^ 25) x.data
  | 5 => s.debugPoison x.core (x.addr % 2 ^ 25) x.data
  | 6 => s.debugTierRead (x.addr % 2 ^ 41)
  | 7 => s.debugTierWrite (x.addr % 2 ^ 41) x.data
  | 8 => s.debugStoreRead (x.addr % 2 ^ 29)
  | 9 => s.debugStoreWrite (x.addr % 2 ^ 29) x.data
  | 10 => s.debugStoreErase (x.addr % 2 ^ 29)
  | 11 => s.debugTableRead x.core (x.addr % 2 ^ 41)
  | 12 => s.debugTableWrite x.core (x.addr % 2 ^ 41) x.data
  | _ => (s, ⟨none, 2, false⟩)

/-- A write of the debug port is held (R417). -/
def State.debugHeld (s : State) : Bool := s.heldWrites.any (fun h => h.id.toNat % 512 == 0)

/-- The command has to wait: a CSR or table write for the end of a wash (R417), a basin access for a wash (R70), a CSR read or a table
write behind a write that is held. -/
def State.xferWaits (s : State) (x : XferCmd) : Bool :=
  let washing := decide (x.core < 1280) && (s.core (s.phys x.core)).washEnd.isSome
  match x.op with
  | 1 => s.debugHeld
  | 2 => s.washHolds (x.addr % 2 ^ 26)
  | 3 | 4 | 5 => washing
  | 12 => (decide (x.addr / 2 ^ 36 % 32 < 5) && washing) || s.debugHeld
  | _ => false

/-- A basin access of the command asks the governor for its charge, a quarter each for the chunk's banks (R71, R270, R430); whether it
may pass, and the state after. -/
def State.xferAsk (s : State) (x : XferCmd) : Bool × State :=
  if 3 ≤ x.op ∧ x.op ≤ 5 ∧ s.debugCore x.core = true ∧ x.addr % 2 ^ 25 < basinBytes then s.govAsk (s.phys x.core) 4 else (true, s)

/-- The command that is busy runs once it has to wait no longer. -/
def State.settleDebug (s : State) : State :=
  match s.dbg.busy with
  | none => s
  | some x =>
    if s.xferWaits x then s
    else
      let g := s.xferAsk x
      if g.1 then
        let r := g.2.xferOp x
        r.1.finishXfer r.2
      else g.2

/-- Update-DR of XFER: the command starts, or is dropped while another is busy. A plain in reset takes none (R30). -/
def State.startXfer (s0 : State) (x : XferCmd) : State :=
  if s0.inReset then s0 else
  let s := s0.settleDebug
  if s.dbg.busy.isSome then { s with dbg := { s.dbg with dropped := true } }
  else ({ s with dbg := { s.dbg with busy := some x } } : State).settleDebug

/-- XFER_NOP. -/
def execXferNop (core addr : Nat) (data : Reg64) (s : State) : Out := .next (s.startXfer ⟨0, core, addr, data⟩)

/-- XFER_CSR_READ. -/
def execXferCsrRead (core addr : Nat) (data : Reg64) (s : State) : Out := .next (s.startXfer ⟨1, core, addr, data⟩)

/-- XFER_CSR_WRITE. -/
def execXferCsrWrite (core addr : Nat) (data : Reg64) (s : State) : Out := .next (s.startXfer ⟨2, core, addr, data⟩)

/-- XFER_BASIN_READ. -/
def execXferBasinRead (core addr : Nat) (data : Reg64) (s : State) : Out := .next (s.startXfer ⟨3, core, addr, data⟩)

/-- XFER_BASIN_WRITE. -/
def execXferBasinWrite (core addr : Nat) (data : Reg64) (s : State) : Out := .next (s.startXfer ⟨4, core, addr, data⟩)

/-- XFER_POISON_WRITE. -/
def execXferPoisonWrite (core addr : Nat) (data : Reg64) (s : State) : Out := .next (s.startXfer ⟨5, core, addr, data⟩)

/-- XFER_TIER_READ. -/
def execXferTierRead (core addr : Nat) (data : Reg64) (s : State) : Out := .next (s.startXfer ⟨6, core, addr, data⟩)

/-- XFER_TIER_WRITE. -/
def execXferTierWrite (core addr : Nat) (data : Reg64) (s : State) : Out := .next (s.startXfer ⟨7, core, addr, data⟩)

/-- XFER_STORE_READ. -/
def execXferStoreRead (core addr : Nat) (data : Reg64) (s : State) : Out := .next (s.startXfer ⟨8, core, addr, data⟩)

/-- XFER_STORE_WRITE. -/
def execXferStoreWrite (core addr : Nat) (data : Reg64) (s : State) : Out := .next (s.startXfer ⟨9, core, addr, data⟩)

/-- XFER_STORE_ERASE. -/
def execXferStoreErase (core addr : Nat) (data : Reg64) (s : State) : Out := .next (s.startXfer ⟨10, core, addr, data⟩)

/-- XFER_TABLE_READ. -/
def execXferTableRead (core addr : Nat) (data : Reg64) (s : State) : Out := .next (s.startXfer ⟨11, core, addr, data⟩)

/-- XFER_TABLE_WRITE. -/
def execXferTableWrite (core addr : Nat) (data : Reg64) (s : State) : Out := .next (s.startXfer ⟨12, core, addr, data⟩)

/-- DSTAT_CAPTURE: Capture-DR of DSTAT loads BUSY, DROPPED and COMMANDS, and clears DROPPED. -/
def execDstatCapture (s0 : State) : Out :=
  let s := s0.settleDebug
  let d := s.dbg
  .next { s with dbg := { d with
    dstat := b2n d.busy.isSome * 2 ^ 31 + b2n d.dropped * 2 ^ 30 + d.commands % 65536
    dropped := false } }

/-- WASH_DONE (R69): 2,048 cycles after GO; a command of the debug port that waited follows, and the writes that the wash held in
the next tick (R417). -/
def execWashDone (core : Nat) (s : State) : Out := onCore core s (fun p _ => (s.endWash p).settleDebug)

/-! ## Trace (R438, Table 16-4) -/

/-- The bytes of a trace record. -/
def TraceBytes (r : TraceRec) : List Byte :=
  natBytes 8 r.time ++ natBytes 2 r.core ++ natBytes 1 r.kind ++ natBytes 1 r.code ++ natBytes 3 r.tag.toNat ++ natBytes 1 0 ++
  natBytes 8 r.count.toNat ++ natBytes 8 r.detail.toNat

/-- One record goes to the ring as bay 0, or is dropped and counted where the ring has no room. -/
def State.writeTrace (s : State) (r : TraceRec) : State :=
  let size := 2 ^ s.get F.dbgTraceCfg_sizeLog2
  let w := s.get F.dbgTracePtr_write
  let room := (s.get F.dbgTracePtr_read + 2 * size - w % size - 1) % size
  if room < 32 then s.bump F.dbgTraceStat_lost
  else
    let a := s.get F.dbgTraceCfg_base * 4096 + w % size
    (((s.tierWrite a (TraceBytes r) []).countBytes 0 32).put F.dbgTracePtr_write ((w + 32) % size)).wrap F.dbgTraceStat_written

/-- What a core has buffered goes to the ring while ENABLE is 1. -/
def State.drainTrace (s : State) (p : Nat) : State :=
  if s.flag F.dbgTraceCfg_enable then
    ((s.core p).traceBuf.foldl (fun s r => s.writeTrace r) s).modCore p (fun c => { c with traceBuf := [] })
  else s

/-- The command tag of the word a trace record concerns (R187): of the fault or the residue record where the event is one, of the
access where a lease breach or hazard names it, else of the last word issued. -/
def CoreState.traceTag (c : CoreState) (r : TraceRec) : BitVec 24 :=
  match r.kind with
  | 2 => BitVec.ofNat 24 (c.get F.corFault_tag)
  | 4 => BitVec.ofNat 24 (c.get F.corResidue_lastTag)
  | 5 => r.tag
  | _ => BitVec.ofNat 24 (c.get F.corTagNow_tag)

/-- TRACE_RECORD: a selected event of a core joins its buffer of 16, or is dropped and counted. -/
def execTraceRecord (r : TraceRec) (s : State) : Out :=
  onCore r.core s (fun p c =>
    if !bit (c.get F.dbgTraceSel_events) r.kind then s
    else if 16 ≤ c.traceBuf.length then (s.bump F.dbgTraceStat_lost).drainTrace p
    else (s.setCore p { c with traceBuf := c.traceBuf ++ [{ r with tag := c.traceTag r }] }).drainTrace p)

end Sys2Proof.Machine
end

