-- ==== Sys2Proof/Machine/Plain.lean ====
section
/-! DEFINITION. Power, reset and thermal sense of the plain: the rails (R30), THROTTLE_REQ (R31, R273), the tide reference
(R29), the temperature sensors (R426) and power-up (R427). -/

namespace Sys2Proof.Machine

/-- RAIL_FAULT (R30): the named RAIL_GOOD signals fall. Every step in progress fences, all shoals are held, and the event goes
to the lead pilot. Before READY the load is abandoned instead (R384). -/
def execRailFault (logic ledge strand : Bool) (s : State) : Out :=
  .next (s.changeLevels s.pins.release (s.pins.railLogic && !logic) (s.pins.railLedge && !ledge) (s.pins.railStrand && !strand))

/-- THROTTLE_REQ_RISE (R31): FLOOR becomes the governor's limit. -/
def execThrottleReqRise (s : State) : Out :=
  .next (({ s with pins := { s.pins with throttleReq := true } } : State).put F.tidGovStat_floorAct 1)

/-- THROTTLE_REQ_FALL (R273): BUDGET is the limit again. -/
def execThrottleReqFall (s : State) : Out :=
  .next (({ s with pins := { s.pins with throttleReq := false } } : State).put F.tidGovStat_floorAct 0)

/-- HOLDOVER (R29): the tide reference stops; the tide counter goes on counting. -/
def execHoldover (s : State) : Out :=
  .next ((({ s with pins := { s.pins with tideRef := false } } : State).put F.tidStat_holdover 1).raiseFlag F.tidStat_holdSeen)

/-- HOLDOVER_END (R29): the tide reference resumes; HOLD_SEEN stays. -/
def execHoldoverEnd (s : State) : Out :=
  .next (({ s with pins := { s.pins with tideRef := true } } : State).put F.tidStat_holdover 0)

/-- What a sensor shows: its sample, and 0 in a shoal the image disables (R426). -/
def State.sensed (s : State) (temps : List (BitVec 8)) (shoal : Nat) : Nat :=
  if s.usable shoal then (temps.getD shoal 0).toNat else 0

/-- THERM_SAMPLE (R426): all eighty samples reach PLN_THERM0 to 9 in one tick. -/
def execThermSample (temps : List (BitVec 8)) (s : State) : Out :=
  .next (if s.inReset then s else (List.range 80).foldl (fun x shoal =>
    x.put ⟨F.plnTherm_temp0.base, F.plnTherm_temp0.stride, shoal % 8 * 8 + 7, shoal % 8 * 8⟩ (s.sensed temps shoal) (shoal / 8)) s)

/-- POWER_UP (R427): every register takes its reset value and the memories lose what they held; the chip's store and the
signals that others drive keep theirs, shown by FLOOR_ACT, HOLDOVER and HOLD_SEEN. The plain leaves reset only with all three
rails high (R30). -/
def execPowerUp (logic ledge strand : Bool) (s : State) : Out :=
  .next { ((State.reset.put F.tidGovStat_floorAct (b2n s.pins.throttleReq)).put F.tidStat_holdover (b2n !s.pins.tideRef)).put
      F.tidStat_holdSeen (b2n !s.pins.tideRef) with
    inReset := !(logic && ledge && strand)
    pins := { State.reset.pins with
      railLogic := logic
      railLedge := ledge
      railStrand := strand
      throttleReq := s.pins.throttleReq
      tideRef := s.pins.tideRef
      release := s.pins.release }
    store := s.store
    storeBad := s.storeBad
    fresh := s.fresh
    pending := s.pending }

end Sys2Proof.Machine
end

