-- ==== Sys2Proof/Machine/Dispatch.lean ====
section
/-! DEFINITION. The dispatch: one arm per command, each one call of the command's meaning. -/

namespace Sys2Proof.Machine

def exec (i : Instr) (s : State) : Host.Outcome State Fault Refusal :=
  match i with
  | .registerWrite ws => Sys2Proof.Machine.execRegisterWrite ws s
  | .railFault logic ledge strand => Sys2Proof.Machine.execRailFault logic ledge strand s
  | .throttleReqRise => Sys2Proof.Machine.execThrottleReqRise s
  | .throttleReqFall => Sys2Proof.Machine.execThrottleReqFall s
  | .loadStepAssert => Sys2Proof.Machine.execLoadStepAssert s
  | .loadStepRelease => Sys2Proof.Machine.execLoadStepRelease s
  | .holdover => Sys2Proof.Machine.execHoldover s
  | .islandLost core => Sys2Proof.Machine.execIslandLost core s
  | .bankArbitration core arrivals => Sys2Proof.Machine.execBankArbitration core arrivals s
  | .basinBankCycle core upsets => Sys2Proof.Machine.execBasinBankCycle core upsets s
  | .basinReadData core => Sys2Proof.Machine.execBasinReadData core s
  | .chunkRepair core addr => Sys2Proof.Machine.execChunkRepair core addr s
  | .chunkRepairDone core addr => Sys2Proof.Machine.execChunkRepairDone core addr s
  | .deltaApply shoal ledge => Sys2Proof.Machine.execDeltaApply shoal ledge s
  | .ldgEngPush core id => Sys2Proof.Machine.execLdgEngPush core id s
  | .nop core => Sys2Proof.Machine.execNop core s
  | .fill core => Sys2Proof.Machine.execFill core s
  | .copy core => Sys2Proof.Machine.execCopy core s
  | .accOpen core => Sys2Proof.Machine.execAccOpen core s
  | .accClose core => Sys2Proof.Machine.execAccClose core s
  | .ledgeCmdComplete core => Sys2Proof.Machine.execLedgeCmdComplete core s
  | .ledgeCmdTimeout core => Sys2Proof.Machine.execLedgeCmdTimeout core s
  | .fold core => Sys2Proof.Machine.execFold core s
  | .unfold core => Sys2Proof.Machine.execUnfold core s
  | .sweepRow core upsets => Sys2Proof.Machine.execSweepRow core upsets s
  | .sweepSteal core upsets => Sys2Proof.Machine.execSweepSteal core upsets s
  | .washStart core id => Sys2Proof.Machine.execWashStart core id s
  | .washDone core => Sys2Proof.Machine.execWashDone core s
  | .coveEnable core cove id value => Sys2Proof.Machine.execCoveEnable core cove id value s
  | .coveDisable core cove id => Sys2Proof.Machine.execCoveDisable core cove id s
  | .relGo core cove id first count => Sys2Proof.Machine.execRelGo core cove id first count s
  | .tagWrite core id value => Sys2Proof.Machine.execTagWrite core id value s
  | .peakClr core cove id => Sys2Proof.Machine.execPeakClr core cove id s
  | .releaseApply core => Sys2Proof.Machine.execReleaseApply core s
  | .harbourGrant win => Sys2Proof.Machine.execHarbourGrant win s
  | .grantReceive core plain win first count => Sys2Proof.Machine.execGrantReceive core plain win first count s
  | .wordIssue core => Sys2Proof.Machine.execWordIssue core s
  | .fetchChunk core chunk => Sys2Proof.Machine.execFetchChunk core chunk s
  | .start core id entry ctx => Sys2Proof.Machine.execStart core id entry ctx s
  | .coreStopped core => Sys2Proof.Machine.execCoreStopped core s
  | .operationComplete core => Sys2Proof.Machine.execOperationComplete core s
  | .deadlineExpire core => Sys2Proof.Machine.execDeadlineExpire core s
  | .contextLossStop core => Sys2Proof.Machine.execContextLossStop core s
  | .mark core tag => Sys2Proof.Machine.execMark core tag s
  | .frameMarkIssue core => Sys2Proof.Machine.execFrameMarkIssue core s
  | .expect core cove stamp => Sys2Proof.Machine.execExpect core cove stamp s
  | .wait core cove off stamp => Sys2Proof.Machine.execWait core cove off stamp s
  | .rel core cove first count => Sys2Proof.Machine.execRel core cove first count s
  | .lease core set => Sys2Proof.Machine.execLease core set s
  | .dline core deadline => Sys2Proof.Machine.execDline core deadline s
  | .stop core => Sys2Proof.Machine.execStop core s
  | .vAdd core w a => Sys2Proof.Machine.execVAdd core w a s
  | .vSub core w a => Sys2Proof.Machine.execVSub core w a s
  | .vMul core w a => Sys2Proof.Machine.execVMul core w a s
  | .vFma core w a => Sys2Proof.Machine.execVFma core w a s
  | .vMin core w a => Sys2Proof.Machine.execVMin core w a s
  | .vMax core w a => Sys2Proof.Machine.execVMax core w a s
  | .vAbs core w a => Sys2Proof.Machine.execVAbs core w a s
  | .vNeg core w a => Sys2Proof.Machine.execVNeg core w a s
  | .vCmpEq core w a => Sys2Proof.Machine.execVCmpEq core w a s
  | .vCmpLt core w a => Sys2Proof.Machine.execVCmpLt core w a s
  | .vCmpLe core w a => Sys2Proof.Machine.execVCmpLe core w a s
  | .vSel core w a => Sys2Proof.Machine.execVSel core w a s
  | .vIota core w a => Sys2Proof.Machine.execVIota core w a s
  | .vBcast core w a => Sys2Proof.Machine.execVBcast core w a s
  | .vCvt core w a => Sys2Proof.Machine.execVCvt core w a s
  | .vExp2 core w a => Sys2Proof.Machine.execVExp2 core w a s
  | .vLog2 core w a => Sys2Proof.Machine.execVLog2 core w a s
  | .vRcp core w a => Sys2Proof.Machine.execVRcp core w a s
  | .vRsqrt core w a => Sys2Proof.Machine.execVRsqrt core w a s
  | .vSqrt core w a => Sys2Proof.Machine.execVSqrt core w a s
  | .vRsum core w a => Sys2Proof.Machine.execVRsum core w a s
  | .vRmax core w a => Sys2Proof.Machine.execVRmax core w a s
  | .vRargmax core w a => Sys2Proof.Machine.execVRargmax core w a s
  | .pass core w a => Sys2Proof.Machine.execPass core w a s
  | .tileIssue core => Sys2Proof.Machine.execTileIssue core s
  | .segmentSwap core r c => Sys2Proof.Machine.execSegmentSwap core r c s
  | .residueCheck core seg mismatch => Sys2Proof.Machine.execResidueCheck core seg mismatch s
  | .tileCommit core => Sys2Proof.Machine.execTileCommit core s
  | .drain core w a => Sys2Proof.Machine.execDrain core w a s
  | .softmaxRecord core => Sys2Proof.Machine.execSoftmaxRecord core s
  | .param core w a => Sys2Proof.Machine.execParam core w a s
  | .vload core w a => Sys2Proof.Machine.execVload core w a s
  | .tload core w a => Sys2Proof.Machine.execTload core w a s
  | .dload core w a => Sys2Proof.Machine.execDload core w a s
  | .vstore core w a => Sys2Proof.Machine.execVstore core w a s
  | .tstore core w a => Sys2Proof.Machine.execTstore core w a s
  | .send core w a => Sys2Proof.Machine.execSend core w a s
  | .eng core w cmd => Sys2Proof.Machine.execEng core w cmd s
  | .add core rd ra rb => Sys2Proof.Machine.execAdd core rd ra rb s
  | .sub core rd ra rb => Sys2Proof.Machine.execSub core rd ra rb s
  | .and core rd ra rb => Sys2Proof.Machine.execAnd core rd ra rb s
  | .or core rd ra rb => Sys2Proof.Machine.execOr core rd ra rb s
  | .xor core rd ra rb => Sys2Proof.Machine.execXor core rd ra rb s
  | .sll core rd ra rb => Sys2Proof.Machine.execSll core rd ra rb s
  | .srl core rd ra rb => Sys2Proof.Machine.execSrl core rd ra rb s
  | .sra core rd ra rb => Sys2Proof.Machine.execSra core rd ra rb s
  | .slt core rd ra rb => Sys2Proof.Machine.execSlt core rd ra rb s
  | .sltu core rd ra rb => Sys2Proof.Machine.execSltu core rd ra rb s
  | .mul core rd ra rb => Sys2Proof.Machine.execMul core rd ra rb s
  | .mulhu core rd ra rb => Sys2Proof.Machine.execMulhu core rd ra rb s
  | .divu core rd ra rb => Sys2Proof.Machine.execDivu core rd ra rb s
  | .remu core rd ra rb => Sys2Proof.Machine.execRemu core rd ra rb s
  | .addi core rd ra imm => Sys2Proof.Machine.execAddi core rd ra imm s
  | .andi core rd ra imm => Sys2Proof.Machine.execAndi core rd ra imm s
  | .ori core rd ra imm => Sys2Proof.Machine.execOri core rd ra imm s
  | .xori core rd ra imm => Sys2Proof.Machine.execXori core rd ra imm s
  | .slli core rd ra imm => Sys2Proof.Machine.execSlli core rd ra imm s
  | .srli core rd ra imm => Sys2Proof.Machine.execSrli core rd ra imm s
  | .srai core rd ra imm => Sys2Proof.Machine.execSrai core rd ra imm s
  | .lui core rd imm => Sys2Proof.Machine.execLui core rd imm s
  | .fadd core rd ra rb => Sys2Proof.Machine.execFadd core rd ra rb s
  | .fsub core rd ra rb => Sys2Proof.Machine.execFsub core rd ra rb s
  | .fmul core rd ra rb => Sys2Proof.Machine.execFmul core rd ra rb s
  | .fdiv core rd ra rb => Sys2Proof.Machine.execFdiv core rd ra rb s
  | .fmin core rd ra rb => Sys2Proof.Machine.execFmin core rd ra rb s
  | .fmax core rd ra rb => Sys2Proof.Machine.execFmax core rd ra rb s
  | .feq core rd ra rb => Sys2Proof.Machine.execFeq core rd ra rb s
  | .flt core rd ra rb => Sys2Proof.Machine.execFlt core rd ra rb s
  | .fle core rd ra rb => Sys2Proof.Machine.execFle core rd ra rb s
  | .fcvtWS core rd ra => Sys2Proof.Machine.execFcvtWS core rd ra s
  | .fcvtSW core rd ra => Sys2Proof.Machine.execFcvtSW core rd ra s
  | .lw core rd ra imm => Sys2Proof.Machine.execLw core rd ra imm s
  | .sw core rb ra imm => Sys2Proof.Machine.execSw core rb ra imm s
  | .bld core rd ra imm => Sys2Proof.Machine.execBld core rd ra imm s
  | .bst core rb ra imm => Sys2Proof.Machine.execBst core rb ra imm s
  | .beq core ra rb imm => Sys2Proof.Machine.execBeq core ra rb imm s
  | .bne core ra rb imm => Sys2Proof.Machine.execBne core ra rb imm s
  | .blt core ra rb imm => Sys2Proof.Machine.execBlt core ra rb imm s
  | .bge core ra rb imm => Sys2Proof.Machine.execBge core ra rb imm s
  | .bltu core ra rb imm => Sys2Proof.Machine.execBltu core ra rb imm s
  | .bgeu core ra rb imm => Sys2Proof.Machine.execBgeu core ra rb imm s
  | .jal core rd target => Sys2Proof.Machine.execJal core rd target s
  | .jalr core rd ra imm => Sys2Proof.Machine.execJalr core rd ra imm s
  | .custom core fn rd ra rb => Sys2Proof.Machine.execCustom core fn rd ra rb s
  | .tide core rd => Sys2Proof.Machine.execTide core rd s
  | .trap core imm => Sys2Proof.Machine.execTrap core imm s
  | .dtreeWrite id value => Sys2Proof.Machine.execDtreeWrite id value s
  | .flitRelease cons seq => Sys2Proof.Machine.execFlitRelease cons seq s
  | .consignmentFirstFlit cons dst => Sys2Proof.Machine.execConsignmentFirstFlit cons dst s
  | .flitLand cons dst seq => Sys2Proof.Machine.execFlitLand cons dst seq s
  | .consignmentCommit cons dst => Sys2Proof.Machine.execConsignmentCommit cons dst s
  | .roleStale core cid srcPos win found dropped => Sys2Proof.Machine.execRoleStale core cid srcPos win found dropped s
  | .denied core cid => Sys2Proof.Machine.execDenied core cid s
  | .revoke core plain win => Sys2Proof.Machine.execRevoke core plain win s
  | .revokeAck win => Sys2Proof.Machine.execRevokeAck win s
  | .discard core cid srcPos => Sys2Proof.Machine.execDiscard core cid srcPos s
  | .openGo win id => Sys2Proof.Machine.execOpenGo win id s
  | .closeGo win id => Sys2Proof.Machine.execCloseGo win id s
  | .bayRoleWrite bay id role epoch => Sys2Proof.Machine.execBayRoleWrite bay id role epoch s
  | .straitBlockReceive port b => Sys2Proof.Machine.execStraitBlockReceive port b s
  | .linkEnable port id value => Sys2Proof.Machine.execLinkEnable port id value s
  | .retrain port id => Sys2Proof.Machine.execRetrain port id s
  | .linkTrainDone port loss margin => Sys2Proof.Machine.execLinkTrainDone port loss margin s
  | .linkLockDone port => Sys2Proof.Machine.execLinkLockDone port s
  | .linkStateTimeout port => Sys2Proof.Machine.execLinkStateTimeout port s
  | .capabilityRecordSend port => Sys2Proof.Machine.execCapabilityRecordSend port s
  | .capabilityRecordReceive port r => Sys2Proof.Machine.execCapabilityRecordReceive port r s
  | .linkUp port => Sys2Proof.Machine.execLinkUp port s
  | .linkDown port cause => Sys2Proof.Machine.execLinkDown port cause s
  | .linkLost port => Sys2Proof.Machine.execLinkLost port s
  | .beaconExchange port t1 t2 t3 t4 parentOk parentDepth => Sys2Proof.Machine.execBeaconExchange port t1 t2 t3 t4 parentOk parentDepth s
  | .tierRequestIssue port far => Sys2Proof.Machine.execTierRequestIssue port far s
  | .tierReadReply req ue => Sys2Proof.Machine.execTierReadReply req ue s
  | .tierWriteAck req => Sys2Proof.Machine.execTierWriteAck req s
  | .schedArm bay id value => Sys2Proof.Machine.execSchedArm bay id value s
  | .schedDisarm bay id => Sys2Proof.Machine.execSchedDisarm bay id s
  | .stepStart bay => Sys2Proof.Machine.execStepStart bay s
  | .frameEnd bay => Sys2Proof.Machine.execFrameEnd bay s
  | .stepLimit bay => Sys2Proof.Machine.execStepLimit bay s
  | .breachBeaconReceive group step => Sys2Proof.Machine.execBreachBeaconReceive group step s
  | .repeatBeaconReceive group step => Sys2Proof.Machine.execRepeatBeaconReceive group step s
  | .breachRestore bay => Sys2Proof.Machine.execBreachRestore bay s
  | .replayStart bay => Sys2Proof.Machine.execReplayStart bay s
  | .governorSlice => Sys2Proof.Machine.execGovernorSlice s
  | .mendFence core => Sys2Proof.Machine.execMendFence core s
  | .arithParityFault core => Sys2Proof.Machine.execArithParityFault core s
  | .mendBeaconReceive group step => Sys2Proof.Machine.execMendBeaconReceive group step s
  | .mendCheck shoal => Sys2Proof.Machine.execMendCheck shoal s
  | .mendRebuild shoal => Sys2Proof.Machine.execMendRebuild shoal s
  | .selfTestDone shoal pass => Sys2Proof.Machine.execSelfTestDone shoal pass s
  | .mendRenumber shoal => Sys2Proof.Machine.execMendRenumber shoal s
  | .mendRestore shoal => Sys2Proof.Machine.execMendRestore shoal s
  | .restoreTimeout shoal => Sys2Proof.Machine.execRestoreTimeout shoal s
  | .mendPilotTimeout shoal => Sys2Proof.Machine.execMendPilotTimeout shoal s
  | .mendResume shoal => Sys2Proof.Machine.execMendResume shoal s
  | .resumeBeaconReceive group step start => Sys2Proof.Machine.execResumeBeaconReceive group step start s
  | .linkMend port => Sys2Proof.Machine.execLinkMend port s
  | .reserveLost shoal => Sys2Proof.Machine.execReserveLost shoal s
  | .shoalIslandLost shoal => Sys2Proof.Machine.execShoalIslandLost shoal s
  | .serviceGo shoal id => Sys2Proof.Machine.execServiceGo shoal id s
  | .mirrorLoad id base => Sys2Proof.Machine.execMirrorLoad id base s
  | .mirrorSave id base => Sys2Proof.Machine.execMirrorSave id base s
  | .mirrorDone => Sys2Proof.Machine.execMirrorDone s
  | .pop pilot id => Sys2Proof.Machine.execPop pilot id s
  | .componentRestart pilot comp => Sys2Proof.Machine.execComponentRestart pilot comp s
  | .pilotReset pilot => Sys2Proof.Machine.execPilotReset pilot s
  | .pilotReload pilot => Sys2Proof.Machine.execPilotReload pilot s
  | .submissionRead ctx queue => Sys2Proof.Machine.execSubmissionRead ctx queue s
  | .submissionPlace bay => Sys2Proof.Machine.execSubmissionPlace bay s
  | .tilerStart bay => Sys2Proof.Machine.execTilerStart bay s
  | .completionWrite entry => Sys2Proof.Machine.execCompletionWrite entry s
  | .deadlineMissed entry => Sys2Proof.Machine.execDeadlineMissed entry s
  | .casCmd cmds => Sys2Proof.Machine.execCasCmd cmds s
  | .charge cmds => Sys2Proof.Machine.execCharge cmds s
  | .tenantRefill tenant => Sys2Proof.Machine.execTenantRefill tenant s
  | .budgetHeld entry => Sys2Proof.Machine.execBudgetHeld entry s
  | .decodeBatch bay => Sys2Proof.Machine.execDecodeBatch bay s
  | .bayDrain bay id => Sys2Proof.Machine.execBayDrain bay id s
  | .roleChange bay role => Sys2Proof.Machine.execRoleChange bay role s
  | .hbrRedrive id window record => Sys2Proof.Machine.execHbrRedrive id window record s
  | .prefixWalk id value => Sys2Proof.Machine.execPrefixWalk id value s
  | .prefixWalkEnd => Sys2Proof.Machine.execPrefixWalkEnd s
  | .bayCarveWrite bay word id value => Sys2Proof.Machine.execBayCarveWrite bay word id value s
  | .createGo bay id => Sys2Proof.Machine.execCreateGo bay id s
  | .retireGo bay id => Sys2Proof.Machine.execRetireGo bay id s
  | .washGo bay id => Sys2Proof.Machine.execWashGo bay id s
  | .bayWashDone bay => Sys2Proof.Machine.execBayWashDone bay s
  | .ctxOpen ctx id => Sys2Proof.Machine.execCtxOpen ctx id s
  | .ctxClose ctx id => Sys2Proof.Machine.execCtxClose ctx id s
  | .freeGo ctx id => Sys2Proof.Machine.execFreeGo ctx id s
  | .teardown ctx => Sys2Proof.Machine.execTeardown ctx s
  | .inc ctx ids => Sys2Proof.Machine.execInc ctx ids s
  | .dec ctx ids => Sys2Proof.Machine.execDec ctx ids s
  | .plnCtxLose id ctx core => Sys2Proof.Machine.execPlnCtxLose id ctx core s
  | .contextLostComplete ctx => Sys2Proof.Machine.execContextLostComplete ctx s
  | .eventRaise e => Sys2Proof.Machine.execEventRaise e s
  | .plnMsix id vector => Sys2Proof.Machine.execPlnMsix id vector s
  | .imageLoadAttempt => Sys2Proof.Machine.execImageLoadAttempt s
  | .loadAbandon release logic ledge strand => Sys2Proof.Machine.execLoadAbandon release logic ledge strand s
  | .loadRetry => Sys2Proof.Machine.execLoadRetry s
  | .startAction => Sys2Proof.Machine.execStartAction s
  | .lockTimeout => Sys2Proof.Machine.execLockTimeout s
  | .loadFinish m => Sys2Proof.Machine.execLoadFinish m s
  | .prGo id value => Sys2Proof.Machine.execPrGo id value s
  | .prEnd => Sys2Proof.Machine.execPrEnd s
  | .push id => Sys2Proof.Machine.execPush id s
  | .journalAppend => Sys2Proof.Machine.execJournalAppend s
  | .compact id => Sys2Proof.Machine.execCompact id s
  | .thermSample temps => Sys2Proof.Machine.execThermSample temps s
  | .xferNop core addr data => Sys2Proof.Machine.execXferNop core addr data s
  | .xferCsrRead core addr data => Sys2Proof.Machine.execXferCsrRead core addr data s
  | .xferCsrWrite core addr data => Sys2Proof.Machine.execXferCsrWrite core addr data s
  | .xferBasinRead core addr data => Sys2Proof.Machine.execXferBasinRead core addr data s
  | .xferBasinWrite core addr data => Sys2Proof.Machine.execXferBasinWrite core addr data s
  | .xferPoisonWrite core addr data => Sys2Proof.Machine.execXferPoisonWrite core addr data s
  | .xferTierRead core addr data => Sys2Proof.Machine.execXferTierRead core addr data s
  | .xferTierWrite core addr data => Sys2Proof.Machine.execXferTierWrite core addr data s
  | .xferStoreRead core addr data => Sys2Proof.Machine.execXferStoreRead core addr data s
  | .xferStoreWrite core addr data => Sys2Proof.Machine.execXferStoreWrite core addr data s
  | .xferStoreErase core addr data => Sys2Proof.Machine.execXferStoreErase core addr data s
  | .xferTableRead core addr data => Sys2Proof.Machine.execXferTableRead core addr data s
  | .xferTableWrite core addr data => Sys2Proof.Machine.execXferTableWrite core addr data s
  | .dstatCapture => Sys2Proof.Machine.execDstatCapture s
  | .halt core id => Sys2Proof.Machine.execHalt core id s
  | .step core id => Sys2Proof.Machine.execStep core id s
  | .traceRecord r => Sys2Proof.Machine.execTraceRecord r s
  | .prtEnable id value => Sys2Proof.Machine.execPrtEnable id value s
  | .powerUp logic ledge strand => Sys2Proof.Machine.execPowerUp logic ledge strand s
  | .holdoverEnd => Sys2Proof.Machine.execHoldoverEnd s
  | .straitBlockSend port => Sys2Proof.Machine.execStraitBlockSend port s
  | .serviceDone shoal pass => Sys2Proof.Machine.execServiceDone shoal pass s

end Sys2Proof.Machine
end

