-- ==== Sys2Proof/Machine/Tick.lean ====
section
/-! DEFINITION. One tide tick (R245): what comes about at its end whatever is commanded, and the start of the next. DESIGN CHOICE,
log entry 1: the commands taken from the queue between two ticks belong to one tick. -/

namespace Sys2Proof.Machine

/-! ## The end of a tick -/

/-- The sweep counts the cycles in which its due row found the banks taken (R66). -/
def CoreState.sweepWaits (c : CoreState) (now : Nat) : CoreState :=
  { c with sweepWaited := if c.flag F.ldgSweep_enable && decide (c.sweepDue ≤ now) && c.cyc.busy then c.sweepWaited + 1 else 0 }

/-- Commits that wait go on, and a cycle in which one still waits counts (R127, R135). -/
def CoreState.commitsGoOn (c : CoreState) (geo : Nat × Nat) : CoreState :=
  if c.commitQ.isEmpty then c
  else
    let c1 := CoreState.retryCommits geo c
    if c1.commitQ.isEmpty then c1 else c1.colStall

/-- Tags and pointers that software wrote in the tick remain (R418). -/
def CoreState.keepWrites (c : CoreState) : CoreState :=
  c.cyc.keptPtrs.foldl (fun c x => c.setReg x.1 x.2) (c.cyc.keptTags.foldl (fun c x => c.writeTag x.1 x.2) c)

/-- A wash moves 48 units in each of its 2,048 cycles (R71). -/
def State.washCharge (s : State) (p : Nat) : State :=
  match (s.core p).washEnd with
  | some done => if done ≤ s.now + 2048 ∧ s.now < done then s.charge p 192 else s
  | none => s

/-- The end of a cycle of a core: its waiting commits, software's tags, the watermarks of its coves, its sweep and its wash. -/
def State.endCore (s : State) (p : Nat) : State :=
  let s1 := s.modCore p (fun c => ((c.commitsGoOn s.geo).keepWrites).sweepWaits s.now)
  match s1.logical p with
  | some core => (s1.endCycle p core).washCharge p
  | none => s1.washCharge p

/-- The end of a tick: of every core, of the blocks under way (R247), of the notice queues (R334), of the drift engine's command
(R347), and of the writes that met a busy bit (R10). -/
def State.endTick (s : State) : State :=
  let s1 := (s.cores.map (fun e => e.1)).foldl (fun s p => s.endCore p) s
  let s2 := (List.range 48).foldl (fun s n => s.fillLate n) s1
  ((List.range 81).foldl (fun s q => s.settleNotices q) s2.redriveLeft).settleAgain

/-! ## The next tick -/

/-- The tick of a core is over: what it kept of the tick goes, and the lease sets that no access can still be governed by (R43). -/
def CoreState.nextCycle (c : CoreState) (now : Nat) : CoreState :=
  { c with cyc := Cycle.none, leaseOld := c.leaseOld.filter (fun x => decide (now ≤ x.1 + 2)) }

/-- The counter goes on, and the tick's records are empty (R245). -/
def State.nextTick (s : State) : State :=
  let s1 := (s.cores.map (fun e => e.1)).foldl (fun s p => s.modCore p (fun c => c.nextCycle (s.now + 1))) s
  { s1 with cyc := PlainCycle.none, now := (s1.now + 1) % 2 ^ 64 }

/-- The start of a tick: the writes that came second in the one before (R416), drains that have ended (R345), and what a wash held
(R417). -/
def State.startTick (s : State) (late : List HeldWrite) : State :=
  ((List.range 80).foldl (fun s b => s.settleDrain b) (s.applyLate late)).settleHeld.settleDebug

/-- One tide tick; nothing else of it moves the counter. It does not pass while the plain is in reset (R30). -/
def State.tick (s : State) : State :=
  if s.inReset then s
  else
    let s1 := s.endTick
    { s1.nextTick.startTick s1.lateWrites with now := (s.now + 1) % 2 ^ 64 }

end Sys2Proof.Machine
end

