-- ==== Sys2Proof/WellFormed.lean ====
section
/-! DEFINITION. Well-formed commands: every unit a command names exists. -/

namespace Sys2Proof

/-- A write transaction has 1 to 256 beats, what AXI gives a burst; R17 answers SLVERR above 16. -/
def axiWriteOk (w : AxiWrite) : Bool := decide (1 ≤ w.beats.length) && decide (w.beats.length ≤ 256)

/-- A command is well-formed when each unit it names exists: cores (R7), shoals, bays, ports, windows, contexts. -/
def wellFormed (i : Instr) : Bool :=
  match i with
  | .registerWrite ws => ws.all axiWriteOk
  | .railFault _ _ _ => true
  | .throttleReqRise => true
  | .throttleReqFall => true
  | .loadStepAssert => true
  | .loadStepRelease => true
  | .holdover => true
  | .islandLost core => decide (core < 1280)
  | .bankArbitration core _ => decide (core < 1280)
  | .basinBankCycle core _ => decide (core < 1280)
  | .basinReadData core => decide (core < 1280)
  | .chunkRepair core addr => decide (core < 1280) && decide (addr < 25165824)
  | .chunkRepairDone core addr => decide (core < 1280) && decide (addr < 25165824)
  | .deltaApply shoal ledge => decide (shoal < 80) && decide (ledge < 12)
  | .ldgEngPush core _ => decide (core < 1280)
  | .nop core => decide (core < 1280)
  | .fill core => decide (core < 1280)
  | .copy core => decide (core < 1280)
  | .accOpen core => decide (core < 1280)
  | .accClose core => decide (core < 1280)
  | .ledgeCmdComplete core => decide (core < 1280)
  | .ledgeCmdTimeout core => decide (core < 1280)
  | .fold core => decide (core < 1280)
  | .unfold core => decide (core < 1280)
  | .sweepRow core _ => decide (core < 1360)
  | .sweepSteal core _ => decide (core < 1360)
  | .washStart core _ => decide (core < 1280)
  | .washDone core => decide (core < 1280)
  | .coveEnable core cove _ _ => decide (core < 1280) && decide (cove < 32)
  | .coveDisable core cove _ => decide (core < 1280) && decide (cove < 32)
  | .relGo core cove _ _ _ => decide (core < 1280) && decide (cove < 32)
  | .tagWrite core _ _ => decide (core < 1280)
  | .peakClr core cove _ => decide (core < 1280) && decide (cove < 32)
  | .releaseApply core => decide (core < 1280)
  | .harbourGrant win => decide (win < 4096)
  | .grantReceive core plain win _ _ => (decide (core < 1280) || decide (core = 2047)) && decide (plain < 2048) && decide (win < 4096)
  | .wordIssue core => decide (core < 1280)
  | .fetchChunk core _ => decide (core < 1280)
  | .start core _ entry ctx => decide (core < 1280) && decide (entry < 8192) && decide (ctx < 1024)
  | .coreStopped core => decide (core < 1280)
  | .operationComplete core => decide (core < 1280)
  | .deadlineExpire core => decide (core < 1280)
  | .contextLossStop core => decide (core < 1280)
  | .mark core _ => decide (core < 1280)
  | .frameMarkIssue core => decide (core < 1280)
  | .expect core cove _ => decide (core < 1280) && decide (cove < 32)
  | .wait core cove _ _ => decide (core < 1280) && decide (cove < 32)
  | .rel core cove _ _ => decide (core < 1280) && decide (cove < 32)
  | .lease core set => decide (core < 1280) && decide (set < 8)
  | .dline core _ => decide (core < 1280)
  | .stop core => decide (core < 1280)
  | .vAdd core _ _ => decide (core < 1280)
  | .vSub core _ _ => decide (core < 1280)
  | .vMul core _ _ => decide (core < 1280)
  | .vFma core _ _ => decide (core < 1280)
  | .vMin core _ _ => decide (core < 1280)
  | .vMax core _ _ => decide (core < 1280)
  | .vAbs core _ _ => decide (core < 1280)
  | .vNeg core _ _ => decide (core < 1280)
  | .vCmpEq core _ _ => decide (core < 1280)
  | .vCmpLt core _ _ => decide (core < 1280)
  | .vCmpLe core _ _ => decide (core < 1280)
  | .vSel core _ _ => decide (core < 1280)
  | .vIota core _ _ => decide (core < 1280)
  | .vBcast core _ _ => decide (core < 1280)
  | .vCvt core _ _ => decide (core < 1280)
  | .vExp2 core _ _ => decide (core < 1280)
  | .vLog2 core _ _ => decide (core < 1280)
  | .vRcp core _ _ => decide (core < 1280)
  | .vRsqrt core _ _ => decide (core < 1280)
  | .vSqrt core _ _ => decide (core < 1280)
  | .vRsum core _ _ => decide (core < 1280)
  | .vRmax core _ _ => decide (core < 1280)
  | .vRargmax core _ _ => decide (core < 1280)
  | .pass core _ _ => decide (core < 1280)
  | .tileIssue core => decide (core < 1280)
  | .segmentSwap core _ _ => decide (core < 1280)
  | .residueCheck core _ _ => decide (core < 1280)
  | .tileCommit core => decide (core < 1280)
  | .drain core _ _ => decide (core < 1280)
  | .softmaxRecord core => decide (core < 1280)
  | .param core _ _ => decide (core < 1280)
  | .vload core _ _ => decide (core < 1280)
  | .tload core _ _ => decide (core < 1280)
  | .dload core _ _ => decide (core < 1280)
  | .vstore core _ _ => decide (core < 1280)
  | .tstore core _ _ => decide (core < 1280)
  | .send core _ _ => decide (core < 1280)
  | .eng core _ _ => decide (core < 1280)
  | .add core _ _ _ => decide (core < 1280)
  | .sub core _ _ _ => decide (core < 1280)
  | .and core _ _ _ => decide (core < 1280)
  | .or core _ _ _ => decide (core < 1280)
  | .xor core _ _ _ => decide (core < 1280)
  | .sll core _ _ _ => decide (core < 1280)
  | .srl core _ _ _ => decide (core < 1280)
  | .sra core _ _ _ => decide (core < 1280)
  | .slt core _ _ _ => decide (core < 1280)
  | .sltu core _ _ _ => decide (core < 1280)
  | .mul core _ _ _ => decide (core < 1280)
  | .mulhu core _ _ _ => decide (core < 1280)
  | .divu core _ _ _ => decide (core < 1280)
  | .remu core _ _ _ => decide (core < 1280)
  | .addi core _ _ _ => decide (core < 1280)
  | .andi core _ _ _ => decide (core < 1280)
  | .ori core _ _ _ => decide (core < 1280)
  | .xori core _ _ _ => decide (core < 1280)
  | .slli core _ _ _ => decide (core < 1280)
  | .srli core _ _ _ => decide (core < 1280)
  | .srai core _ _ _ => decide (core < 1280)
  | .lui core _ _ => decide (core < 1280)
  | .fadd core _ _ _ => decide (core < 1280)
  | .fsub core _ _ _ => decide (core < 1280)
  | .fmul core _ _ _ => decide (core < 1280)
  | .fdiv core _ _ _ => decide (core < 1280)
  | .fmin core _ _ _ => decide (core < 1280)
  | .fmax core _ _ _ => decide (core < 1280)
  | .feq core _ _ _ => decide (core < 1280)
  | .flt core _ _ _ => decide (core < 1280)
  | .fle core _ _ _ => decide (core < 1280)
  | .fcvtWS core _ _ => decide (core < 1280)
  | .fcvtSW core _ _ => decide (core < 1280)
  | .lw core _ _ _ => decide (core < 1280)
  | .sw core _ _ _ => decide (core < 1280)
  | .bld core _ _ _ => decide (core < 1280)
  | .bst core _ _ _ => decide (core < 1280)
  | .beq core _ _ _ => decide (core < 1280)
  | .bne core _ _ _ => decide (core < 1280)
  | .blt core _ _ _ => decide (core < 1280)
  | .bge core _ _ _ => decide (core < 1280)
  | .bltu core _ _ _ => decide (core < 1280)
  | .bgeu core _ _ _ => decide (core < 1280)
  | .jal core _ _ => decide (core < 1280)
  | .jalr core _ _ _ => decide (core < 1280)
  | .custom core _ _ _ _ => decide (core < 1280)
  | .tide core _ => decide (core < 1280)
  | .trap core _ => decide (core < 1280)
  | .dtreeWrite _ _ => true
  | .flitRelease _ _ => true
  | .consignmentFirstFlit _ dst => decide (dst < 1280)
  | .flitLand _ dst _ => decide (dst < 1280)
  | .consignmentCommit _ dst => decide (dst < 1280)
  | .roleStale core _ _ win _ _ => (decide (core < 1280) || decide (core = 2047)) && decide (win < 4096)
  | .denied core _ => (decide (core < 1280) || decide (core = 2047))
  | .revoke core plain win => (decide (core < 1280) || decide (core = 2047)) && decide (plain < 2048) && decide (win < 4096)
  | .revokeAck win => decide (win < 4096)
  | .discard core _ _ => (decide (core < 1280) || decide (core = 2047))
  | .openGo win _ => decide (win < 4096)
  | .closeGo win _ => decide (win < 4096)
  | .bayRoleWrite bay _ _ _ => decide (bay < 80)
  | .straitBlockReceive port _ => decide (port < 48)
  | .linkEnable port _ _ => decide (port < 48)
  | .retrain port _ => decide (port < 48)
  | .linkTrainDone port _ _ => decide (port < 48)
  | .linkLockDone port => decide (port < 48)
  | .linkStateTimeout port => decide (port < 48)
  | .capabilityRecordSend port => decide (port < 48)
  | .capabilityRecordReceive port _ => decide (port < 48)
  | .linkUp port => decide (port < 48)
  | .linkDown port _ => decide (port < 48)
  | .linkLost port => decide (port < 48)
  | .beaconExchange port _ _ _ _ _ _ => decide (port < 48)
  | .tierRequestIssue port _ => decide (port < 16)
  | .tierReadReply _ _ => true
  | .tierWriteAck _ => true
  | .schedArm bay _ _ => decide (bay < 80)
  | .schedDisarm bay _ => decide (bay < 80)
  | .stepStart bay => decide (bay < 80)
  | .frameEnd bay => decide (bay < 80)
  | .stepLimit bay => decide (bay < 80)
  | .breachBeaconReceive _ _ => true
  | .repeatBeaconReceive _ _ => true
  | .breachRestore bay => decide (bay < 80)
  | .replayStart bay => decide (bay < 80)
  | .governorSlice => true
  | .mendFence core => decide (core < 1280)
  | .arithParityFault core => decide (core < 1280)
  | .mendBeaconReceive _ _ => true
  | .mendCheck shoal => decide (shoal < 80)
  | .mendRebuild shoal => decide (shoal < 80)
  | .selfTestDone shoal _ => decide (shoal < 80)
  | .mendRenumber shoal => decide (shoal < 80)
  | .mendRestore shoal => decide (shoal < 80)
  | .restoreTimeout shoal => decide (shoal < 80)
  | .mendPilotTimeout shoal => decide (shoal < 80)
  | .mendResume shoal => decide (shoal < 80)
  | .resumeBeaconReceive _ _ _ => true
  | .linkMend port => decide (port < 48)
  | .reserveLost shoal => decide (shoal < 80)
  | .shoalIslandLost shoal => decide (shoal < 80)
  | .serviceGo shoal _ => decide (shoal < 80)
  | .mirrorLoad _ _ => true
  | .mirrorSave _ _ => true
  | .mirrorDone => true
  | .pop pilot _ => decide (pilot < 81)
  | .componentRestart pilot comp => decide (pilot < 81) && decide (comp ≤ 6)
  | .pilotReset pilot => decide (pilot < 81)
  | .pilotReload pilot => decide (pilot < 81)
  | .submissionRead ctx queue => decide (ctx < 1024) && decide (queue < 4)
  | .submissionPlace bay => decide (bay < 80)
  | .tilerStart bay => decide (bay < 80)
  | .completionWrite entry => decide (entry < 8192)
  | .deadlineMissed entry => decide (entry < 8192)
  | .casCmd cmds => cmds.all (fun x => decide (x.2.1 ≤ 82))
  | .charge cmds => cmds.all (fun x => decide (x.2.1 ≤ 82))
  | .tenantRefill tenant => decide (tenant < 1024)
  | .budgetHeld entry => decide (entry < 8192)
  | .decodeBatch bay => decide (bay < 80)
  | .bayDrain bay _ => decide (bay < 80)
  | .roleChange bay _ => decide (bay < 80)
  | .hbrRedrive _ window record => decide (window < 4096) && decide (record < 2 ^ 38)
  | .prefixWalk _ _ => true
  | .prefixWalkEnd => true
  | .bayCarveWrite bay word _ _ => decide (bay < 80) && decide (word < 5)
  | .createGo bay _ => decide (bay < 80)
  | .retireGo bay _ => decide (bay < 80)
  | .washGo bay _ => decide (bay < 80)
  | .bayWashDone bay => decide (bay < 80)
  | .ctxOpen ctx _ => decide (ctx < 1024)
  | .ctxClose ctx _ => decide (ctx < 1024)
  | .freeGo ctx _ => decide (ctx < 1024)
  | .teardown ctx => decide (ctx < 1024)
  | .inc ctx _ => decide (ctx < 1024)
  | .dec ctx _ => decide (ctx < 1024)
  | .plnCtxLose _ ctx core => decide (ctx < 1024) && decide (core < 2048)
  | .contextLostComplete ctx => decide (ctx < 1024)
  | .eventRaise e => decide (e.kind < 256)
  | .plnMsix _ _ => true
  | .imageLoadAttempt => true
  | .loadAbandon _ _ _ _ => true
  | .loadRetry => true
  | .startAction => true
  | .lockTimeout => true
  | .loadFinish _ => true
  | .prGo _ _ => true
  | .prEnd => true
  | .push _ => true
  | .journalAppend => true
  | .compact _ => true
  | .thermSample temps => decide (temps.length = 80)
  | .xferNop _ _ _ => true
  | .xferCsrRead _ _ _ => true
  | .xferCsrWrite _ _ _ => true
  | .xferBasinRead _ _ _ => true
  | .xferBasinWrite _ _ _ => true
  | .xferPoisonWrite _ _ _ => true
  | .xferTierRead _ _ _ => true
  | .xferTierWrite _ _ _ => true
  | .xferStoreRead _ _ _ => true
  | .xferStoreWrite _ _ _ => true
  | .xferStoreErase _ _ _ => true
  | .xferTableRead _ _ _ => true
  | .xferTableWrite _ _ _ => true
  | .dstatCapture => true
  | .halt core _ => decide (core < 1280)
  | .step core _ => decide (core < 1280)
  | .traceRecord r => decide (r.core < 1280)
  | .prtEnable _ _ => true
  | .powerUp _ _ _ => true
  | .holdoverEnd => true
  | .straitBlockSend port => decide (port < 48)
  | .serviceDone shoal _ => decide (shoal < 80)

end Sys2Proof
end

