-- ==== Sys2Proof/Safety.lean ====
section
/-! DEFINITION. What a safe run is: no command names a unit that does not exist, and every memory and register map keeps its
canonical form, so that equal machines are equal data. -/

namespace Sys2Proof

/-- A machine fault: a step that answers a fault names a unit that the plain does not have. -/
def stops (o : Host.Outcome Machine.State Machine.Fault Machine.Refusal) : Bool :=
  match o with
  | .fault _ => true
  | .refused _ => true
  | .next _ => false

/-- Every command that waits is well-formed. -/
def queueWellFormed (s : Machine.State) : Bool := s.pending.all wellFormed

/-- The canonical form of a byte memory whose unlisted bytes read as `d`: addresses rise strictly, and no entry equals `d`. -/
def Memory.wf (d : Byte) (m : List (Nat × Byte)) : Bool := Machine.Sparse.wf (fun _ => d) m

namespace Machine

/-- A core's registers, basin, tags, scalar store, vector registers, drain parameters, scalar registers
and descriptors are in canonical form. -/
def CoreState.canonical (c : CoreState) : Bool :=
  Sparse.wf coreReset c.regs && Memory.wf 0 c.basin && Sparse.wf (fun _ => Tag.ebb) c.tags && Memory.wf 0 c.sstore &&
  Memory.wf 0 c.vregs && Memory.wf 0 c.params && Sparse.wf (fun _ => 0) c.xregs && Sparse.wf (fun _ => 0) c.desc

/-- The tier memory, the store, the pilots' SRAM, the register map and every core are in canonical form. -/
def State.canonical (s : State) : Bool :=
  Memory.wf 0 s.tier && Memory.wf erasedByte s.store && Memory.wf 0 s.sram && Sparse.wf plainReset s.regs &&
  Sparse.wf (fun _ => CoreState.reset) s.cores && s.cores.all (fun e => e.2.canonical)

/-! ## What changes -/

/-- Nothing but the core at place `p` differs. -/
def State.onlyCore (p : Nat) (s t : State) : Prop := { t with cores := s.cores } = s ∧ ∀ k, k ≠ p → t.core k = s.core k

/-- Nothing but the register of the plain or of a shoal at address `a`, and what the tick's record says of it (R10), differs. -/
def State.onlyReg (a : Nat) (s t : State) : Prop := { t with regs := s.regs, cyc := s.cyc } = s ∧ ∀ k, k ≠ a → t.reg k = s.reg k

/-! ## What statements suppose and say -/

/-- A logical core of the plain that executes: it exists, is powered, not isolated and not being washed (R7, R14, R70, R314, R393). -/
def State.executes (s : State) (core : Nat) : Bool := decide (core < 1280) && s.live core

/-- The CSR port takes a write of this master now: the plain has left reset, none of an earlier write waits for a wash, and the loader
has finished or the master is the debug port (R30, R385, R417). -/
def State.takes (s : State) (id : BitVec 12) : Bool := !s.inReset && s.heldWrites.isEmpty && s.portTakes false id

/-- A CSR write changed nothing of the plain but the core at place `p`, what it is charged, the configuration mirror and the tick's
record. -/
def State.wroteCore (p : Nat) (s t : State) : Prop :=
  { t with cores := s.cores, mirror := s.mirror, gov := s.gov, cyc := s.cyc } = s ∧ ∀ k, k ≠ p → t.core k = s.core k

/-- The banks of the core at place `p` are there for an access of this charge: the sweep has not taken the cycle (R66), and the
governor admits it (R270). -/
def State.banksFree (s : State) (p charge : Nat) : Bool := !(s.core p).cyc.stolen && s.portAdmits p charge

/-- The banks are there for accesses of this charge together, one after the other: the sweep has not taken the cycle, the governor
throttles nothing, and its window has room for them all (R66, R270). -/
def State.roomFor (s : State) (p charge : Nat) : Bool := !(s.core p).cyc.stolen && !s.gov.throttling && s.govRoom charge

/-- A program fault of the word last issued is recorded: the core holds no fault, none of an earlier word came about in this tick, and
it does not end for a lost context (R218 to R220). -/
def CoreState.faultOpen (c : CoreState) : Bool := !c.flag F.corCtl_faulted && c.cyc.faulted.isNone && !c.iss.lost

/-- The fault record of a core that held none: class, unit and tag as given, FAULTED set and issue stopped (R218). -/
def CoreState.faultIs (c : CoreState) (cls unit : Nat) (tag : BitVec 24) : Prop :=
  c.flag F.corCtl_faulted = true ∧ c.get F.corFault_class = cls ∧ c.get F.corFault_unit = unit ∧ c.get F.corFault_tag = tag.toNat ∧
  c.iss.running = false ∧ c.iss.stopping = true

/-- The reads of the chunks pass: every slot they touch passes the tag check, and every chunk is without poison and error (R55, R82). -/
def CoreState.readsClean (c : CoreState) (expect : Option (Nat × BitVec 16)) (l : List Nat) : Bool :=
  (c.slotsOf l).all (c.readPasses expect) && l.all (fun a => !c.poisoned (chunkOf a) && (c.errorsIn (chunkOf a)).isEmpty)

/-- The operation is the next of its unit, nothing of its word comes before it, and it is not refused (R170, R171, R190, R446). -/
def State.opNext (s : State) (core : Nat) (w : WordCtx) (op : QOp) : Bool :=
  let c := s.core (s.phys core)
  c.nextOp (unitOf op) w op && (s.opRefused c core w op).isNone

/-- The chunks the inlets read for a tile (R114 to R117, R122). -/
def CoreState.tileReads (c : CoreState) (geo : Nat × Nat) (a : PassArgs) (b t : Nat) : List Nat :=
  (if a.wkeep then [] else (c.missingBlocks geo a b t).flatMap (fun x => x.pins) ++ (neededParts geo a t).flatMap (partChunks a b t)) ++
  (if tileLoads a b t then actChunks geo a b t else [])

/-- The inlet decoders of the tile a PASS has come to keep their contract, whatever the strand RAM then holds (R164). -/
def State.decodersKeep (s : State) (p : Nat) (r : PassRun) : Prop :=
  let c := s.core p
  let img := s.strandImage p
  (r.a.wdec = true → Config.strandBreaks (c.weightUse img (Tile.issued s.geo r.w r.a r.b r.t s.now)) = false) ∧
  (r.a.adec = true → ∀ m, Config.strandBreaks (({ c with strand := m } : CoreState).actUse img s.geo r.a r.b r.t) = false)

/-- Pieces of a write to untagged memory outside every accumulate window and every FOLD, no two of which share a byte. -/
def CoreState.writesOpen (c : CoreState) (l : List Piece) : Bool :=
  l.all (fun x => [x.addr, chunkOf x.addr].all (fun a => (c.coveAt a).isNone && (c.windowAt a).isNone && !c.foldPending a) &&
    decide (x.addr % 64 + x.bytes.length ≤ 64)) &&
  l.zipIdx.all (fun x => l.zipIdx.all (fun y => x.2 == y.2 || apart x.1.addr x.1.bytes.length y.1.addr y.1.bytes.length))

/-- Nothing but the registers of the core, what it is to issue and the tick's record differs. -/
def CoreState.onlyRegs (c d : CoreState) : Prop := { d with regs := c.regs, iss := c.iss, cyc := c.cyc } = c

end Machine

end Sys2Proof
end

