-- ==== Sys2Proof/Certificates/Slice0/Obligations.lean ====
section
/-! DEFINITION. The statements about the plain, for the provers. -/

open Sys2Proof Sys2Proof.Machine

/-! ## The machine as a whole -/

/-- A step of a state with a command at the front of its queue is that command's effect, with the rest of the queue. -/
def Obligations.StepRunsFront : Prop :=
  ∀ (c : Instr) (rest : List Instr) (s : State), Machine.step { s with pending := c :: rest } = Machine.exec c { s with pending := rest }

/-- A step of a state with an empty queue is one tide tick (the model's choice, log entry 1): the counter goes on by one, modulo 2^64, and
the record of the tick is empty again; while the plain is in reset no tick passes (R30). Neither a tick nor a command touches the
queue of waiting commands, and none uses a free value again that was used before. -/
def Obligations.QueueServed : Prop :=
  (∀ s : State, s.canonical = true → s.pending = [] → s.inReset = false →
    ∃ t, Machine.step s = .next t ∧ t.now = (s.now + 1) % 2 ^ 64 ∧ t.pending = [] ∧ s.fresh ≤ t.fresh) ∧
  (∀ s : State, s.pending = [] → s.inReset = true → Machine.step s = .next s) ∧
  (∀ (c : Instr) (s t : State), s.canonical = true → Machine.exec c s = .next t → t.pending = s.pending ∧ s.fresh ≤ t.fresh)

/-- After reset the tide counter stands at 0, every register reads its reset value, no command waits, and all memories and
register maps are in canonical form. -/
def Obligations.ResetState : Prop :=
  State.reset.now = 0 ∧ State.reset.pending = [] ∧ State.reset.canonical = true ∧
  (∀ a, State.reset.reg a = plainReset a) ∧ ∀ p a, (State.reset.core p).reg a = coreReset a

/-- Every step keeps all memories and register maps in canonical form, from any state in that form. -/
def Obligations.CanonicalKept : Prop :=
  ∀ s t : State, s.canonical = true → Machine.step s = .next t → t.canonical = true

/-- Every well-formed command answers a next state, whatever the state: nothing is refused, and no fault is raised. -/
def Obligations.WellFormedRuns : Prop :=
  ∀ (c : Instr) (s : State), wellFormed c = true → ∃ t, Machine.exec c s = .next t

/-! ## The scalar processor -/

/-- Every integer instruction of the scalar slot writes its result to RD, or discards it where RD is x0, and changes nothing else
but that its slot has executed (R191, R193, R196). -/
def Obligations.ScalarResults : Prop :=
  ∀ (s : State) (core : Nat) (rd ra rb : Fin 32) (imm : BitVec 16), s.canonical = true → s.executes core = true →
    let p := s.phys core
    let c := s.core p
    let a := c.x ra
    let b := c.x rb
    let k : Word := imm.signExtend 32
    ∀ e ∈ ([(.add core rd ra rb, a + b), (.sub core rd ra rb, a - b), (.and core rd ra rb, a &&& b), (.or core rd ra rb, a ||| b),
        (.xor core rd ra rb, a ^^^ b), (.sll core rd ra rb, a <<< (b.toNat % 32)), (.srl core rd ra rb, a >>> (b.toNat % 32)),
        (.sra core rd ra rb, a.sshiftRight (b.toNat % 32)), (.slt core rd ra rb, if a.toInt < b.toInt then 1 else 0),
        (.sltu core rd ra rb, if a.toNat < b.toNat then 1 else 0), (.mul core rd ra rb, a * b),
        (.mulhu core rd ra rb, BitVec.ofNat 32 (a.toNat * b.toNat / 2 ^ 32)), (.addi core rd ra imm, a + k),
        (.andi core rd ra imm, a &&& k), (.ori core rd ra imm, a ||| k), (.xori core rd ra imm, a ^^^ k),
        (.slli core rd ra imm, a <<< (imm.toNat % 32)), (.srli core rd ra imm, a >>> (imm.toNat % 32)),
        (.srai core rd ra imm, a.sshiftRight (imm.toNat % 32)), (.lui core rd imm, BitVec.ofNat 32 (imm.toNat * 65536)),
        (.feq core rd ra rb, if Fp.eqB Fp.f32 a.toNat b.toNat then 1 else 0), (.flt core rd ra rb, if Fp.ltB Fp.f32 a.toNat b.toNat then 1 else 0),
        (.fle core rd ra rb, if Fp.leB Fp.f32 a.toNat b.toNat then 1 else 0),
        (.fcvtWS core rd ra, BitVec.ofInt 32 (Fp.toIntB Fp.f32 32 a.toNat).1), (.fcvtSW core rd ra, BitVec.ofNat 32 (Fp.ofIntB Fp.f32 a.toInt))] :
        List (Instr × Word)),
      ∃ t, Machine.exec e.1 s = .next t ∧ s.onlyCore p t ∧ (t.core p).x rd = (if rd = 0 then 0 else e.2) ∧
        (∀ r, r ≠ rd.val → (t.core p).x r = c.x r) ∧ { t.core p with xregs := c.xregs } = { c with iss.scal := none }

/-- Every binary32 instruction with a binary32 result writes it to RD and sets NAN_SEEN where it is a NaN; a division writes its quotient
or remainder, and by zero writes nothing and faults with SCALAR_TRAP (R193, R196). -/
def Obligations.ScalarArithmetic : Prop :=
  (∀ (s : State) (core : Nat) (rd ra rb : Fin 32), s.canonical = true → s.executes core = true →
      let p := s.phys core
      let c := s.core p
      let a := (c.x ra).toNat
      let b := (c.x rb).toNat
      ∀ e ∈ ([(.fadd core rd ra rb, Fp.addB Fp.f32 a b), (.fsub core rd ra rb, Fp.subB Fp.f32 a b), (.fmul core rd ra rb, Fp.mulB Fp.f32 a b),
          (.fdiv core rd ra rb, Fp.divB Fp.f32 a b), (.fmin core rd ra rb, Fp.minB Fp.f32 a b), (.fmax core rd ra rb, Fp.maxB Fp.f32 a b)] :
          List (Instr × Nat)),
        ∃ t, Machine.exec e.1 s = .next t ∧ s.onlyCore p t ∧ (t.core p).x rd = (if rd = 0 then 0 else BitVec.ofNat 32 e.2) ∧
          (∀ r, r ≠ rd.val → (t.core p).x r = c.x r) ∧
          (t.core p).flag F.corSclStat_nanSeen = (c.flag F.corSclStat_nanSeen || Fp.isNan Fp.f32 (e.2 % 2 ^ 32)) ∧
          (∀ a, a ≠ 0xf8 → (t.core p).reg a = c.reg a) ∧
          { t.core p with xregs := c.xregs, regs := c.regs, cyc := c.cyc } = { c with iss.scal := none }) ∧
  (∀ (s : State) (core : Nat) (rd ra rb : Fin 32), s.canonical = true → s.executes core = true →
      let p := s.phys core
      let c := s.core p
      let a := (c.x ra).toNat
      let b := (c.x rb).toNat
      ∀ e ∈ ([(.divu core rd ra rb, a / b), (.remu core rd ra rb, a % b)] : List (Instr × Nat)),
        (c.x rb ≠ 0 → ∃ t, Machine.exec e.1 s = .next t ∧ s.onlyCore p t ∧ (t.core p).x rd = (if rd = 0 then 0 else BitVec.ofNat 32 e.2) ∧
          (∀ r, r ≠ rd.val → (t.core p).x r = c.x r) ∧ { t.core p with xregs := c.xregs } = { c with iss.scal := none }) ∧
        (c.x rb = 0 → c.faultOpen = true → ∃ t, Machine.exec e.1 s = .next t ∧ s.onlyCore p t ∧
          (t.core p).faultIs clsTrap 1 c.iss.tag ∧ (t.core p).iss.scal = none ∧ c.onlyRegs (t.core p)))

/-- LW reads and SW writes one little-endian word of the scalar store at RA + IMM16, and another address faults with OPERAND_BOUNDS; BLD
puts the 8 bytes at its basin address into RD and RD + 1 and BST stores RB and RB + 1 there, or adds them where an accumulate
window takes them, where the tag check passes and the banks are there; no other byte and no other register changes (R63, R64, R191,
R192, R196). -/
def Obligations.ScalarMemory : Prop :=
  (∀ (s : State) (core : Nat) (rd rb ra : Fin 32) (imm : BitVec 16), s.canonical = true → s.executes core = true →
      let p := s.phys core
      let c := s.core p
      let a := (c.x ra + imm.signExtend 32).toNat
      (a ≤ 0xFFFC → a % 4 = 0 →
        (∃ t, Machine.exec (.lw core rd ra imm) s = .next t ∧ s.onlyCore p t ∧
          (t.core p).x rd = (if rd = 0 then 0 else BitVec.ofNat 32 (bytesNat (Bytes.read 0 c.sstore a 4))) ∧
          (∀ r, r ≠ rd.val → (t.core p).x r = c.x r) ∧ { t.core p with xregs := c.xregs } = { c with iss.scal := none }) ∧
        ∃ t, Machine.exec (.sw core rb ra imm) s = .next t ∧ s.onlyCore p t ∧
          Bytes.read 0 (t.core p).sstore a 4 = natBytes 4 (c.x rb).toNat ∧
          (∀ k, k < a ∨ a + 4 ≤ k → Bytes.read 0 (t.core p).sstore k 1 = Bytes.read 0 c.sstore k 1) ∧
          { t.core p with sstore := c.sstore } = { c with iss.scal := none }) ∧
      ((0xFFFC < a ∨ a % 4 ≠ 0) → c.faultOpen = true → ∀ i ∈ ([.lw core rd ra imm, .sw core rb ra imm] : List Instr),
        ∃ t, Machine.exec i s = .next t ∧ s.onlyCore p t ∧ (t.core p).faultIs clsBounds 1 c.iss.tag ∧ (t.core p).iss.scal = none ∧
          c.onlyRegs (t.core p))) ∧
  (∀ (s : State) (core : Nat) (rd ra : Fin 32) (imm : BitVec 16), s.canonical = true → s.executes core = true → rd.val % 2 = 0 →
      let p := s.phys core
      let c := s.core p
      let a := c.sclBasin ra imm
      c.sclForeign (s.carve (core / 16)) a = false →
      ((c.slotsOf [a]).all (c.readPasses c.iss.expect) = true → c.poisoned (chunkOf a) = false → c.errorsIn (chunkOf a) = [] →
        s.banksFree p 4 = true →
        ∃ t, Machine.exec (.bld core rd ra imm) s = .next t ∧ { t with cores := s.cores, gov := s.gov } = s ∧
          (∀ k, k ≠ p → t.core k = s.core k) ∧
          (t.core p).x rd = (if rd = 0 then 0 else BitVec.ofNat 32 (bytesNat (c.peek a 4))) ∧
          (t.core p).x (rd + 1) = BitVec.ofNat 32 (bytesNat (c.peek (a + 4) 4)) ∧
          (∀ r, r ≠ rd.val → r ≠ rd.val + 1 → (t.core p).x r = c.x r) ∧ (t.core p).basin = c.basin ∧ (t.core p).tags = c.tags ∧
          (t.core p).iss.scal = none ∧ t.gov.cur = s.gov.cur + 4) ∧
      (let bs := natBytes 4 (c.x rd).toNat ++ natBytes 4 (c.x (rd + 1)).toNat
        let count := some c.iss.count
        (c.slotsOf [chunkOf a]).all (fun x => !s.inWindow core x && c.writePasses (noProducer c.iss.count) x) = true →
        c.shadowHolds [chunkOf a] = false → c.poisoned (chunkOf a) = false → c.errorsIn (chunkOf a) = [] →
        s.banksFree p (c.writeCharge .sclWrite count [⟨a, bs⟩]) = true →
        ∃ t, Machine.exec (.bst core rd ra imm) s = .next t ∧
          (c.adding .sclWrite count a = none → (t.core p).peek a 8 = bs) ∧
          (∀ w, c.adding .sclWrite count a = some w →
            (t.core p).peek a 8 = accumulate w.bf16 (c.peekSums a 8) bs (if w.bf16 then 4 else 2)) ∧
          (∀ k, k < a ∨ a + 8 ≤ k → (t.core p).peek k 1 = c.peek k 1) ∧ (t.core p).tags = c.tags ∧ (t.core p).xregs = c.xregs ∧
          (t.core p).iss.scal = none))

/-- A conditional branch that is taken goes to its target and counts in TAKEN; one that is not taken changes nothing but that its slot has
executed; JAL and JALR write the offset of the word after their own to RD and go to their target, which JALR forms from RA as it
was; a target outside cove 0 faults with OPERAND_BOUNDS and writes nothing (R196, R197). -/
def Obligations.ControlMoves : Prop :=
  (∀ (s : State) (core : Nat) (ra rb : Fin 32) (imm : BitVec 16), s.canonical = true → s.executes core = true →
      let p := s.phys core
      let c := s.core p
      let a := c.x ra
      let b := c.x rb
      let target : Int := (c.iss.curOff : Int) + imm.toInt * 4
      ∀ e ∈ ([(.beq core ra rb imm, a = b), (.bne core ra rb imm, a ≠ b), (.blt core ra rb imm, a.toInt < b.toInt),
          (.bge core ra rb imm, b.toInt ≤ a.toInt), (.bltu core ra rb imm, a.toNat < b.toNat), (.bgeu core ra rb imm, b.toNat ≤ a.toNat)] :
          List (Instr × Prop)),
        (e.2 → c.targetOk target = true → ∃ t, Machine.exec e.1 s = .next t ∧ s.onlyCore p t ∧ (t.core p).iss.off = target.toNat ∧
          (t.core p).get F.corSclStat_taken = (c.get F.corSclStat_taken + 1) % 2 ^ 32 ∧ (∀ a, a ≠ 0xf8 → (t.core p).reg a = c.reg a) ∧
          { t.core p with regs := c.regs, cyc := c.cyc } = { c with iss.off := target.toNat, iss.scal := none }) ∧
        (e.2 → c.targetOk target = false → c.faultOpen = true → ∃ t, Machine.exec e.1 s = .next t ∧ s.onlyCore p t ∧
          (t.core p).faultIs clsBounds 1 c.iss.tag ∧ (t.core p).iss.off = c.iss.off ∧ c.onlyRegs (t.core p)) ∧
        (¬ e.2 → ∃ t, Machine.exec e.1 s = .next t ∧ s.onlyCore p t ∧ t.core p = { c with iss.scal := none })) ∧
  (∀ (s : State) (core : Nat) (rd ra : Fin 32) (imm : BitVec 16) (far : BitVec 18), s.canonical = true → s.executes core = true →
      let p := s.phys core
      let c := s.core p
      ∀ e ∈ ([(.jal core rd far, (far.toNat * 4 : Int)), (.jalr core rd ra imm, (((c.x ra).toNat : Int) + imm.toInt * 4) % 2 ^ 20)] :
          List (Instr × Int)),
        (c.targetOk e.2 = true → ∃ t, Machine.exec e.1 s = .next t ∧ s.onlyCore p t ∧ (t.core p).iss.off = e.2.toNat ∧
          (t.core p).x rd = (if rd = 0 then 0 else BitVec.ofNat 32 c.linkOffset) ∧ (∀ r, r ≠ rd.val → (t.core p).x r = c.x r) ∧
          (t.core p).get F.corSclStat_taken = (c.get F.corSclStat_taken + 1) % 2 ^ 32) ∧
        (c.targetOk e.2 = false → c.faultOpen = true → ∃ t, Machine.exec e.1 s = .next t ∧ s.onlyCore p t ∧
          (t.core p).faultIs clsBounds 1 c.iss.tag ∧ c.onlyRegs (t.core p)))

/-- TIDE reads the tide counter as it was when its word issued; TRAP faults with SCALAR_TRAP; CUSTOM writes what its extension makes of its
operands, the strand RAM and the image, or faults where the extension breaks its contract; an odd RD of TIDE and an opcode the image
lacks are DECODE faults. In the sync slot MARK sets the tag, EXPECT holds a stamp, LEASE takes a set, DLINE sets a
deadline in the step of an armed bay and none in another core, STOP ends issue, REL queues a release, and a WAIT passes at a
FLOOD slot with its stamp (R91, R162 to R164, R187, R194 to R196, R203 to R206, R215). -/
def Obligations.SlotsServe : Prop :=
  (∀ (s : State) (core : Nat) (fn : BitVec 6) (rd ra rb : Fin 32) (imm : BitVec 16), s.canonical = true → s.executes core = true →
      let p := s.phys core
      let c := s.core p
      let issued := if c.iss.scal.isSome then c.iss.issuedAt else s.now
      let use := c.strandUse (s.strandImage p) (.custom fn.toNat (c.x ra) (c.x rb))
      (rd.val % 2 = 0 → ∃ t, Machine.exec (.tide core rd) s = .next t ∧ s.onlyCore p t ∧
        (t.core p).x rd = (if rd = 0 then 0 else BitVec.ofNat 32 issued) ∧ (t.core p).x (rd + 1) = BitVec.ofNat 32 (issued / 2 ^ 32) ∧
        (∀ r, r ≠ rd.val → r ≠ rd.val + 1 → (t.core p).x r = c.x r) ∧ { t.core p with xregs := c.xregs } = { c with iss.scal := none }) ∧
      (rd.val % 2 = 1 → c.faultOpen = true → ∃ t, Machine.exec (.tide core rd) s = .next t ∧ s.onlyCore p t ∧
        (t.core p).faultIs clsDecode 1 c.iss.tag ∧ c.onlyRegs (t.core p)) ∧
      (c.faultOpen = true → ∃ t, Machine.exec (.trap core imm) s = .next t ∧ s.onlyCore p t ∧
        (t.core p).faultIs clsTrap 1 c.iss.tag ∧ (t.core p).get F.dbgFaultAux_imm16 = imm.toNat ∧
        (t.core p).get F.corFault_wordOff = c.iss.curOff / 4 % 2 ^ 18 ∧ c.onlyRegs (t.core p)) ∧
      (fn.toNat < s.get F.plnGeom1_customOps → c.faultOpen = true → ∃ t, Machine.exec (.custom core fn rd ra rb) s = .next t ∧
        s.onlyCore p t ∧
        (Config.strandBreaks use = false →
          (t.core p).x rd = (if rd = 0 then 0 else BitVec.ofNat 32 ((Config.strandOut use).headD 0)) ∧
          (∀ r, r ≠ rd.val → (t.core p).x r = c.x r) ∧ { t.core p with xregs := c.xregs, strand := c.strand } = { c with iss.scal := none }) ∧
        (Config.strandBreaks use = true → (t.core p).faultIs clsTrap 1 c.iss.tag ∧ (t.core p).flag F.corStrandStat_proto = true ∧
          (t.core p).xregs = c.xregs)) ∧
      (s.get F.plnGeom1_customOps ≤ fn.toNat → c.faultOpen = true → ∃ t, Machine.exec (.custom core fn rd ra rb) s = .next t ∧
        s.onlyCore p t ∧ (t.core p).faultIs clsDecode 1 c.iss.tag ∧ c.onlyRegs (t.core p))) ∧
  (∀ (s : State) (core cove first count set d : Nat) (tag : BitVec 24) (stamp : BitVec 16), s.canonical = true → s.executes core = true →
      let p := s.phys core
      let c := s.core p
      (∃ t, Machine.exec (.mark core tag) s = .next t ∧ s.onlyCore p t ∧ (t.core p).iss.tag = tag ∧ (t.core p).iss.deadline = none ∧
        (t.core p).get F.corTagNow_tag = tag.toNat ∧ (t.core p).iss.sync = none) ∧
      (∃ t, Machine.exec (.expect core cove stamp) s = .next t ∧ s.onlyCore p t ∧
        t.core p = { c with iss.expect := some (cove, stamp), iss.sync := none }) ∧
      (∃ t, Machine.exec (.lease core set) s = .next t ∧ s.onlyCore p t ∧ (t.core p).get F.ldgLeaseAct_set = set % 8 ∧
        (t.core p).iss = { c.iss with sync := none }) ∧
      (∃ t, Machine.exec (.stop core) s = .next t ∧ s.onlyCore p t ∧
        t.core p = { c with iss.stopping := true, iss.running := false, iss.sync := none }) ∧
      (∀ start limit, s.gridOf core = some (start, limit) → d ≠ 0 → limit < 2 ^ 64 → ∃ t, Machine.exec (.dline core d) s = .next t ∧
        s.onlyCore p t ∧ (t.core p).iss.deadline = some (min (start + d) limit) ∧
        (t.core p).get F.corDeadline_deadline = min (start + d) limit ∧ (t.core p).iss.sync = none) ∧
      (s.gridOf core = none → ∃ t, Machine.exec (.dline core d) s = .next t ∧ s.onlyCore p t ∧ (t.core p).iss.deadline = none ∧
        (t.core p).get F.corDeadline_deadline = 0) ∧
      (c.flag F.coveCfg_enable cove = true → first < (c.cove cove).slots → 0 < count → count ≤ (c.cove cove).slots →
        ∃ t, Machine.exec (.rel core cove first count) s = .next t ∧ s.onlyCore p t ∧ (t.core p).tags = c.tags ∧ (t.core p).iss.sync = none ∧
          (t.core p).rels = c.rels ++ [⟨cove, first, count, some (c.get F.corCtl_ctx), c.iss.count, c.iss.tag, c.iss.curOff, c.iss.deadline, false, s.now⟩]) ∧
      (c.flag F.coveCfg_enable cove = true → first < (c.cove cove).slots → c.waitPasses cove first stamp = true →
        ∃ t, Machine.exec (.wait core cove first stamp) s = .next t ∧ s.onlyCore p t ∧
          t.core p = { c with iss.sync := none, waits := c.waits.filter (fun y => y.unit != 0) }))

/-! ## The sync slot, fetch and issue -/
/-- Fetch reads a chunk that it may read, whose slot passes and which is clean, where no BLD or BST wants the port, into its window,
and its arrival at the word to come clears START; nothing of the basin changes, and the governor is charged one chunk unit
(R71, R197, R198, R202). -/
def Obligations.FetchReads : Prop :=
  ∀ (s : State) (core chunk : Nat), s.canonical = true → s.executes core = true →
    let p := s.phys core
    let c := s.core p
    let a := (c.cove 0).base + chunk * 64
    c.iss.running = true → c.ending = false → c.targetOk c.iss.off = true → c.mayFetch chunk = true → c.sclWantsPort = false →
    s.banksFree p 4 = true →
    (c.slotsOf [a]).all (c.readPasses none) = true → c.poisoned (chunkOf a) = false → c.errorsIn (chunkOf a) = [] →
    ∃ t, Machine.exec (.fetchChunk core chunk) s = .next t ∧ { t with cores := s.cores, gov := s.gov } = s ∧
      (∀ k, k ≠ p → t.core k = s.core k) ∧ t.gov.cur = s.gov.cur + 4 ∧ (chunk, c.peek a 64) ∈ (t.core p).fetchWin ∧
      (chunk = c.iss.off / 64 → (t.core p).flag F.corCtl_start = false) ∧ (t.core p).basin = c.basin ∧ (t.core p).tags = c.tags ∧
      (t.core p).xregs = c.xregs

/-- A word whose waits, queues and interlocks allow it issues whole: all its operations enter their queues, the count of words and
the fetch position move on, and its tag, stamp and deadline are in force; a frame mark of an armed bay does so once the tide counter
has reached its frame, and is recorded in COR_SLIP (R169, R187, R188, R257). -/
def Obligations.WordsIssue : Prop :=
  ∀ (s : State) (core : Nat) (w : LongWord) (x : WordCtx) (ops : List QOp), s.canonical = true → s.executes core = true →
    let p := s.phys core
    let c := (s.core p).skipMarkers 64
    (s.core p).mayIssue = true → (s.core p).targetOk (s.core p).iss.off = true → c.nextWord = some (.ok w) → c.breakpoint w = none →
    s.judge p core c w = .issue x ops false →
    let issued := fun (t : State) => s.onlyCore p t ∧
      (t.core p).queued.length = c.queued.length + ops.length ∧ (t.core p).iss.off = (c.iss.off + w.len * 4) % c.codeBytes ∧
      (t.core p).get F.corCountNow_count = (c.get F.corCountNow_count + 1) % 2 ^ 64 ∧ (t.core p).get F.corTagNow_tag = x.tag.toNat ∧
      (t.core p).iss.tag = x.tag ∧ (t.core p).iss.deadline = x.deadline ∧ (t.core p).iss.count = x.count ∧ (t.core p).iss.curOff = c.iss.off ∧
      (t.core p).basin = c.basin ∧ (t.core p).xregs = c.xregs
    (((wordMark w).all (fun m => !isTideMark m) = true ∨
        (s.armedBay core = none ∧ (s.bayOf (core / 16)).all (fun b => !s.flag F.bayDrain_go b) = true) ∨
        ((wordMark w).any isFenceMark = true ∧ (s.armedBay core).isSome = true ∧ c.iss.passFence = true)) →
      ∃ t, Machine.exec (.wordIssue core) s = .next t ∧ issued t) ∧
    (∀ m b, wordMark w = some m → isTideMark m = true → isFenceMark m = false → s.armedBay core = some b →
      s.stepStartAt b + markFrame m * s.frameLen b ≤ s.now →
      ∃ t, Machine.exec (.frameMarkIssue core) s = .next t ∧ issued t ∧ (t.core p).get F.corSlip_lastFrame = markFrame m)

/-- A core that is to stop sets STOPPED once all it has issued has ended, and nothing of it waits any more; a core that runs a lost context
issues no more, and stops as its operations end (R202, R206, R218, R219). -/
def Obligations.CoresEnd : Prop :=
  ∀ (s : State) (core : Nat), s.canonical = true → s.executes core = true →
    let p := s.phys core
    let c := s.core p
    (c.iss.stopping = true → c.flag F.corCtl_stopped = false → s.opsEnded p = true →
      ∃ t, Machine.exec (.coreStopped core) s = .next t ∧ s.onlyCore p t ∧ (t.core p).flag F.corCtl_stopped = true ∧
        (t.core p).flag F.corCtl_faulted = c.flag F.corCtl_faulted ∧ (t.core p).get F.corDeadline_deadline = 0 ∧ (t.core p).waits = [] ∧
        { t.core p with regs := c.regs, waits := c.waits } =
          { c with iss := { c.iss with running := false, stopping := false, cut := false, deadline := none } }) ∧
    (s.contextGone (c.get F.corCtl_ctx) = true → c.flag F.corCtl_stopped = false → c.flag F.corCtl_faulted = false →
      ∃ t, Machine.exec (.contextLossStop core) s = .next t ∧ s.onlyCore p t ∧
        t.core p = { c with iss.lost := true, iss.running := false, iss.stopping := true } ∧
        (t.core p).mayIssue = false ∧ (t.core p).ending = true)

/-- The first executing operation of which nothing is under way completes: it leaves the core, and a free slot that it names and its writes
have not posted becomes FLOOD with its stamp; of the waits whose explicit deadline has come none is left, and the core faults with
TAG_TIMEOUT for the operation that issued first (R79, R81, R207, R208, R212, R220). -/
def Obligations.OperationsEnd : Prop :=
  ∀ (s : State) (core : Nat), s.canonical = true → s.executes core = true →
    let p := s.phys core
    let c := s.core p
    (∀ x rest, c.exec = x :: rest → c.exec.all (fun y => y.pend.isEmpty) = true → s.stillBusy p core x = false → x.posts = [] →
      ∃ t, Machine.exec (.operationComplete core) s = .next t ∧ s.onlyCore p t ∧ (t.core p).exec = rest ∧
        { t.core p with exec := c.exec, waits := c.waits, regs := c.regs, cyc := c.cyc } = c) ∧
    (∀ x rest n i, c.exec = x :: rest → c.exec.all (fun y => y.pend.isEmpty) = true → s.stillBusy p core x = false → x.posts = [(n, i)] →
      c.held (c.cove n) = false → c.windowSlot (c.cove n, i) = false → (c.tagSeen (c.cove n) i).free = true → (c.tag (c.cove n) i).free = true →
      ∃ t, Machine.exec (.operationComplete core) s = .next t ∧ s.onlyCore p t ∧ (t.core p).exec = rest ∧
        (t.core p).tag (c.cove n) i = ⟨2, x.w.stamp, false, some (opProducer x.w x.op)⟩ ∧
        (∀ k, k ≠ (c.cove n).tagBase + i → Sparse.get Tag.ebb (t.core p).tags k = Sparse.get Tag.ebb c.tags k) ∧
        (t.core p).basin = c.basin) ∧
    (∀ x, x ∈ c.waits → s.due x.w.deadline = true → (∀ y ∈ c.waits, s.due y.w.deadline = true → y = x ∨ x.w.count < y.w.count) →
      c.rels = [] → c.accesses = [] → s.deadlinesHeld core = false → c.faultOpen = true →
      ∃ t, Machine.exec (.deadlineExpire core) s = .next t ∧ (t.core p).faultIs clsTimeout (x.unit % 16) x.w.tag ∧
        (∀ y ∈ (t.core p).waits, y ∈ c.waits ∧ s.due y.w.deadline = false) ∧ (t.core p).basin = c.basin ∧
        (x.unit < 265 → c.waits = [x] → (t.core p).tags = c.tags))

/-! ## The vector engine -/

/-- An element-wise vector operation that is next in its unit writes to every element of its destination what its operation gives for
the elements of its sources, and changes no other byte (where source and destination meet: one group, or in place); a reduction combines
64 lane partials in the lane tree and writes its result to its scalar register (R140 to R146, R172, R191, R212, R443). -/
def Obligations.VectorsCompute : Prop :=
  (∀ (s : State) (core : Nat) (w : WordCtx) (a : VecArgs), s.canonical = true → s.executes core = true →
      let p := s.phys core
      let c := s.core p
      let lanes := s.get F.plnGeom0_vecLanes
      let ty := a.ty
      let un := fun (f : Fp.Fl → Fp.Fl × Bool) (x _ _ _ : Nat) => vUnary ty f x
      ∀ e ∈ ([(0x01, .vAdd core w a, fun x y _ _ => vArith ty Fp.addB (· + ·) x y), (0x02, .vSub core w a, fun x y _ _ => vArith ty Fp.subB (· - ·) x y),
          (0x03, .vMul core w a, fun x y _ _ => vArith ty Fp.mulB (· * ·) x y),
          (0x04, .vFma core w a, fun x y z _ => vFp ty (Fp.fmaB (vecFmt ty) x y z)),
          (0x05, .vMin core w a, fun x y _ _ => vArith ty Fp.minB min x y), (0x06, .vMax core w a, fun x y _ _ => vArith ty Fp.maxB max x y),
          (0x07, .vAbs core w a, fun x _ _ _ => if vecFp ty then vFp ty (x % 2 ^ (vecWidth ty - 1)) else vInt ty (vSigned ty x).natAbs),
          (0x08, .vNeg core w a, fun x _ _ _ =>
            if vecFp ty then vFp ty ((x + 2 ^ (vecWidth ty - 1)) % 2 ^ vecWidth ty) else vInt ty (-(vSigned ty x))),
          (0x09, .vCmpEq core w a, fun x y _ _ => vCompare ty Fp.eqB (fun m n => decide (m = n)) x y),
          (0x0A, .vCmpLt core w a, fun x y _ _ => vCompare ty Fp.ltB (fun m n => decide (m < n)) x y),
          (0x0B, .vCmpLe core w a, fun x y _ _ => vCompare ty Fp.leB (fun m n => decide (m ≤ n)) x y),
          (0x0C, .vSel core w a, fun x y z _ =>
            let v := if (if vecFp ty then z % 2 ^ (vecWidth ty - 1) != 0 else z != 0) then x else y
            if vecFp ty then vFp ty v else ⟨v, false, false⟩),
          (0x0D, .vIota core w a, fun _ _ _ n => if vecFp ty then vFp ty (Fp.ofIntB (vecFmt ty) n) else vInt ty n),
          (0x0E, .vBcast core w a, fun _ _ _ _ => if ty = 0 then vFp 0 a.scal.toNat else if ty = 2 then vFp 2 (Fp.toBf16 a.scal.toNat)
            else vInt ty a.scal.toInt),
          (0x0F, .vCvt core w a, fun x _ _ _ => vConvert ty a.dty x), (0x10, .vExp2 core w a, un Fp.exp2), (0x11, .vLog2 core w a, un Fp.log2),
          (0x12, .vRcp core w a, un recip), (0x13, .vRsqrt core w a, un Fp.rsqrt), (0x14, .vSqrt core w a, un Fp.sqrt)] :
          List (Nat × Instr × (Nat → Nat → Nat → Nat → VRes))),
        let op := QOp.vec e.1 a
        let res := fun n => e.2.2 (c.va a n) (c.vb a n) (c.vc a n) n
        let count := vecCount a
        s.opNext core w op = true → c.vregBusy w op = false →
        (count ≤ vecGroup lanes e.1 a ∨ (vregReads op).all (fun r => apart r.1 r.2 (vregAt a.vd) (count * vecBytes a.dty) ||
          (r.1 == vregAt a.vd && vecBytes a.ty == vecBytes a.dty)) = true) →
        ∃ t, Machine.exec e.2.1 s = .next t ∧ s.onlyCore p t ∧
          (∀ n, n < count → (t.core p).velem a.dty a.vd n = (res n).val % 2 ^ vecWidth a.dty) ∧
          (∀ k, k < vregAt a.vd ∨ vregAt a.vd + count * vecBytes a.dty ≤ k → Bytes.read 0 (t.core p).vregs k 1 = Bytes.read 0 c.vregs k 1) ∧
          (t.core p).flag F.corVecStat_nanSeen = (c.flag F.corVecStat_nanSeen || (List.range count).any (fun n => (res n).nan)) ∧
          (t.core p).flag F.corVecStat_intWrap = (c.flag F.corVecStat_intWrap || (List.range count).any (fun n => (res n).wrap)) ∧
          (t.core p).get F.corVecStat_groups = (c.get F.corVecStat_groups + ceilDiv count (vecGroup lanes e.1 a)) % 2 ^ 32 ∧
          (t.core p).exec.length = c.exec.length + 1 ∧ (t.core p).xregs = c.xregs ∧ (t.core p).basin = c.basin) ∧
  (∀ (s : State) (core : Nat) (w : WordCtx) (a : VecArgs), s.canonical = true → s.executes core = true →
      let p := s.phys core
      let c := s.core p
      let l := c.redElems a
      ∀ e ∈ ([(0x15, .vRsum core w a, if vecFp a.ty then reduce (Fp.addB Fp.f32) 0 l else reduce addWrap 0 l),
          (0x16, .vRmax core w a, if vecFp a.ty then reduce (Fp.maxB Fp.f32) 0xFF800000 l else reduce maxInt 0x80000000 l),
          (0x17, .vRargmax core w a, argMax a.ty l)] : List (Nat × Instr × Nat)),
        s.opNext core w (.vec e.1 a) = true → c.vregBusy w (.vec e.1 a) = false →
        (0 < vecCount a → ∃ t, Machine.exec e.2.1 s = .next t ∧ s.onlyCore p t ∧
          (t.core p).x a.vd = (if a.vd = 0 then 0 else BitVec.ofNat 32 e.2.2) ∧ (∀ r, r ≠ a.vd → (t.core p).x r = c.x r) ∧
          (t.core p).vregs = c.vregs ∧ (t.core p).exec.length = c.exec.length + 1) ∧
        (vecCount a = 0 → ∃ t, Machine.exec e.2.1 s = .next t ∧ s.onlyCore p t ∧ (t.core p).xregs = c.xregs ∧ (t.core p).regs = c.regs ∧
          (t.core p).vregs = c.vregs ∧ (t.core p).exec.length = c.exec.length + 1))

/-! ## The array and the estuary -/

/-- A PASS that is next in the array begins its walk, one of no tiles only occupies the array; TILE_ISSUE issues the next tile of the
running PASS and, its data being clean and its inlet decoders keeping their contract, delivers it into the shadow registers. A segment swaps
in the first tile it has not swapped, once the tile and the segment's part of it have reached it; a residue check passes the tile's column
segment, or on a first mismatch squashes the tile and those behind it, and on a second declares the core faulty; a tile that every segment
has swapped and checked commits its sums and counts (R114, R116, R118, R125, R129, R132, R134, R135, R161, R181, R212). -/
def Obligations.ArrayRuns : Prop :=
  (∀ (s : State) (core : Nat) (w : WordCtx) (a : PassArgs), s.canonical = true → s.executes core = true →
      let p := s.phys core
      let c := s.core p
      (s.opNext core w (.pass a) = true → c.pass = none → ∃ t, Machine.exec (.pass core w a) s = .next t ∧ s.onlyCore p t ∧
        (t.core p).pass = (if passTiles a = 0 then none else some ⟨w, a, 0, 0, false⟩) ∧ (t.core p).exec = c.exec ++ [⟨w, .pass a, [], [], []⟩] ∧
        { t.core p with pass := none, exec := c.exec, arrQ := c.arrQ, started := c.started } = c) ∧
      (∀ r, c.pass = some r → c.tiles = [] → sideBeyond (s.carve (core / 16)) r.a r.b r.t = none → s.sel F.prtCtl_enable = 0 →
        partCount r.a ≤ 16 → c.readsClean r.w.expect (c.tileReads s.geo r.a r.b r.t) = true → s.decodersKeep p r →
        s.roomFor p (4 * (c.tileReads s.geo r.a r.b r.t).length) = true →
        ∃ t x, Machine.exec (.tileIssue core) s = .next t ∧ { t with cores := s.cores, gov := s.gov } = s ∧ (∀ k, k ≠ p → t.core k = s.core k) ∧
          (t.core p).pass = (nextTile r).map (fun r => { r with begun := true }) ∧
          (t.core p).tiles = [x] ∧ x.w = r.w ∧ x.a = r.a ∧ x.b = r.b ∧ x.t = r.t ∧ x.arrived = true ∧
          (r.a.wkeep = false → r.a.wdec = false →
            x.loaded.bits = ((neededParts s.geo r.a r.t).foldl (fun m k => WSet.withPart m (Mx.width r.a.wfmt) k
              ((partChunks r.a r.b r.t k).flatMap (fun y => c.peek y 64))) (WSet.load r.a)).bits) ∧
          (r.a.wkeep = false → ∀ m n, m < 16 * (segments s.geo).1 → n < 16 * (segments s.geo).2 →
            Sparse.get 0 (t.core p).shadow.bits (m * s.geo.2 + n) = Sparse.get 0 x.loaded.bits (m * s.geo.2 + n)) ∧
          t.gov.cur = s.gov.cur + 4 * (c.tileReads s.geo r.a r.b r.t).length ∧ (t.core p).basin = c.basin ∧ (t.core p).acc = c.acc)) ∧
  (∀ (s : State) (core r k seg col n : Nat) (x : Tile), s.canonical = true → s.executes core = true →
      let p := s.phys core
      let c := s.core p
      let first := fun (f : Tile → Bool) => c.tiles.zipIdx.find? (fun y => f y.1)
      (r < (segments s.geo).1 → k < (segments s.geo).2 → first (fun y => !decide (segNo s.geo r k ∈ y.swapped)) = some (x, n) →
        x.reached s.geo r k = true → x.segReady s.geo r = true → CoreState.commitFull s.geo c x r k = false →
        CoreState.linksFree s.geo c r k = true →
        ∃ t, Machine.exec (.segmentSwap core r k) s = .next t ∧ s.onlyCore p t ∧
          (t.core p).active = (if x.a.wkeep then c.active
            else WSet.swapIn s.geo r k x.loaded.scaled x.loaded.indexed (rowRead s.geo x.a x.t) c.shadow c.active) ∧
          ((t.core p).tiles[n]?.map (fun y => (y.swapped, y.weights))) =
            some (insertNat x.swapped (segNo s.geo r k), WSet.copySeg s.geo r k (t.core p).active x.weights) ∧
          { t.core p with tiles := c.tiles, active := c.active, latch := c.latch, shadow := c.shadow } = c) ∧
      (first (fun y => !decide (seg ∈ y.checks)) = some (x, n) → seg < (segments s.geo).2 → columnSwapped s.geo x seg = true →
        (∃ t, Machine.exec (.residueCheck core seg none) s = .next t ∧ s.onlyCore p t ∧
          (t.core p).tiles[n]? = some { x with checks := insertNat x.checks seg } ∧ { t.core p with tiles := c.tiles } = c) ∧
        (x.fails = 0 → ∃ t, Machine.exec (.residueCheck core seg (some col)) s = .next t ∧ s.onlyCore p t ∧
          (t.core p).tiles[n]? = some (({ x with fails := 1 } : Tile).squash s.geo) ∧ (t.core p).tiles.length = c.tiles.length ∧
          (t.core p).get F.corResidue_lastCol = col % 128 ∧ (t.core p).get F.corResidue_lastTag = x.w.tag.toNat ∧
          (t.core p).flag F.corResidue_declared = c.flag F.corResidue_declared) ∧
        (x.fails ≠ 0 → c.flag F.corCtl_faulted = false → ∃ t, Machine.exec (.residueCheck core seg (some col)) s = .next t ∧ s.onlyCore p t ∧
          (t.core p).tiles = c.tiles.take n ∧ (t.core p).pass = none ∧ (t.core p).arrQ = [] ∧
          (t.core p).flag F.corResidue_declared = true ∧ (t.core p).faultIs clsResidue 3 x.w.tag)) ∧
      (∀ rest, c.tiles = x :: rest → swappedIn s.geo x = true →
        (List.range (segments s.geo).2).all (fun k => decide (k ∈ x.checks)) = true → c.commitQ = [] →
        (tileCommits s.geo x).all (fun y => !c.drainAhead s.geo y.w.count y.sums) = true →
        ∃ t, Machine.exec (.tileCommit core) s = .next t ∧ s.onlyCore p t ∧ (t.core p).tiles = rest ∧ (t.core p).commitQ = [] ∧
          (t.core p).get F.corArrTiles_tiles = (c.get F.corArrTiles_tiles + 1) % 2 ^ 64 ∧
          (t.core p).acc = ((tileCommits s.geo x).foldl (fun k y => k.commitWords y.sums) c).acc ∧ (t.core p).basin = c.basin))

/-- A drain that is next in the estuary, held by nothing and with its entries written, takes its elements from the accumulator words of
its entries, writes its output codes and scales to untagged memory, keeps its record, and leaves the accumulator as it was; a record
reaches its parameter set; a PARAM fills the parts of its set that it names (R128, R147, R148, R150, R151, R154 to R157). -/
def Obligations.EstuaryRuns : Prop :=
  ∀ (s : State) (core : Nat) (w : WordCtx) (a : DrainArgs) (b : ParamArgs), s.canonical = true → s.executes core = true →
    let p := s.phys core
    let c := s.core p
    let lanes := lanesOf s.geo a.mode.cross
    let n := drainCount a * lanes
    let xs := (List.range n).map (fun k => c.chain a ⟨a.first + k / lanes, k % lanes, residualAt a (c.residualBytes a n) k⟩
      (accIn (Sparse.get AccWord.zero c.acc (a.first * lanes + k))))
    let out := if a.mode.outFmt = 14 then ([], []) else c.outputs a w.tag lanes xs
    let l := if a.mode.outFmt = 14 then [] else drainPieces a out.1 out.2
    let vals := if a.mode.outFmt = 14 then xs else out.1.map (fun y => y.val)
    let rec_ := softmaxValue a.mode.recMode lanes (drainCount a) vals
    (s.opNext core w (.drain a) = true → 0 < drainCount a → 0 < lanes → lanes % 64 = 0 → c.draining = none → c.setHeld a.set = false →
      (drainCycles s.geo a).all (fun y => y.all (fun g => c.groupWritten s.geo w.count g)) = true →
      c.readsClean w.expect (residualChunks a n) = true → s.roomFor p (4 * ((residualChunks a n).length + l.length)) = true →
      a.mode.strand = 0 → c.commitQ = [] → w.post = false → c.writesOpen l = true →
      ∃ t, Machine.exec (.drain core w a) s = .next t ∧ (∀ x ∈ l, (t.core p).peek x.addr x.bytes.length = x.bytes) ∧
        (t.core p).records = c.records ++ (if a.mode.recMode = 0 then [] else [(a.mode.recSet, rec_.1, natBytes 4 rec_.2)]) ∧
        (t.core p).exec = c.exec ++ [⟨w, .drain a, [], [], []⟩] ∧ (t.core p).acc = c.acc ∧ (t.core p).tags = c.tags ∧
        (∀ k, k ≠ p → t.core k = s.core k)) ∧
    (∀ set byte bs rest, c.records = (set, byte, bs) :: rest → ∃ t, Machine.exec (.softmaxRecord core) s = .next t ∧ s.onlyCore p t ∧
      (t.core p).records = rest ∧ Bytes.read 0 (t.core p).params (set * paramBytes + byte) bs.length = bs ∧
      { t.core p with records := c.records, params := c.params } = c) ∧
    (s.opNext core w (.param b) = true → c.drainHolds b.set = false → c.readsClean w.expect (paramChunks b) = true →
      s.banksFree p (4 * (paramChunks b).length) = true →
      ∃ t, Machine.exec (.param core w b) s = .next t ∧ { t with cores := s.cores, gov := s.gov } = s ∧
        (∀ x ∈ paramChunks b, Bytes.read 0 (t.core p).params (b.set * paramBytes + (x - b.base * 64)) 64 = c.peek x 64) ∧
        (t.core p).exec = c.exec ++ [⟨w, .param b, [], [], []⟩] ∧ (t.core p).basin = c.basin)

/-! ## Load and store queues -/

/-- VLOAD fills vector registers with its stream, DLOAD fills descriptor entries, and TLOAD queues the requests whose landings are its
stream in order, each within 512 bytes of the tier. VSTORE stores the run of its vector registers through its stream; in untagged memory
it changes nothing else, and a chunk that is a free slot it is to post becomes FLOOD with its stamp; TSTORE queues write requests that
carry its stream; ENG takes its command into the ledge-engine queue, or faults where R58 or R214 refuses what it has read (R58, R79, R81,
R146, R175, R184, R185, R211, R299). -/
def Obligations.StreamsMove : Prop :=
  (∀ (s : State) (core : Nat) (w : WordCtx) (v : MoveArgs) (d : DloadArgs) (a : TierArgs), s.canonical = true → s.executes core = true →
      let p := s.phys core
      let c := s.core p
      let n := runChunks v.opnd v.run
      (s.opNext core w (.vload v) = true → c.vregBusy w (.vload v) = false → c.readsClean w.expect (runStream v.opnd v.run) = true →
        s.banksFree p (4 * n) = true →
        ∃ t, Machine.exec (.vload core w v) s = .next t ∧ { t with cores := s.cores, gov := s.gov } = s ∧
          (∀ k, k ≠ p → t.core k = s.core k) ∧ Bytes.read 0 (t.core p).vregs (vregAt v.v) (n * 64) = operandBytes c (withRows v.opnd v.run) 0 0 (n * 64) ∧
          (∀ k, k < vregAt v.v ∨ vregAt v.v + n * 64 ≤ k → Bytes.read 0 (t.core p).vregs k 1 = Bytes.read 0 c.vregs k 1) ∧
          (t.core p).exec = c.exec ++ [⟨w, .vload v, [], [], []⟩] ∧ (t.core p).basin = c.basin ∧ (t.core p).tags = c.tags) ∧
      (s.opNext core w (.dload d) = true → c.readsClean w.expect ((List.range ((d.n + 4) / 4)).map (fun k => (d.base + k) * 64)) = true →
        s.banksFree p (4 * ((d.n + 4) / 4)) = true →
        ∃ t, Machine.exec (.dload core w d) s = .next t ∧ { t with cores := s.cores, gov := s.gov } = s ∧
          (∀ k, k < 2 * (d.n + 1) →
            Sparse.get 0 (t.core p).desc (2 * d.first + k) = BitVec.ofNat 64 (bytesNat (c.peek (d.base * 64 + 8 * k) 8))) ∧
          (∀ k, k < 2 * d.first ∨ 2 * (d.first + d.n + 1) ≤ k → Sparse.get 0 (t.core p).desc k = Sparse.get 0 c.desc k) ∧
          (t.core p).basin = c.basin ∧ (t.core p).tags = c.tags) ∧
      (s.opNext core w (.tload a) = true → ∃ t, Machine.exec (.tload core w a) s = .next t ∧
        s.reqs <+: t.reqs ∧ (t.reqs.drop s.reqs.length).flatMap (fun q => q.land) = runStream a.opnd a.run ∧
        (∀ q ∈ t.reqs.drop s.reqs.length, q.place = p ∧ q.core = core ∧ q.w = w ∧ q.write = false ∧ q.issued = none ∧
          q.addr / 512 = (q.addr + q.land.length * 64 - 1) / 512) ∧
        (t.core p).exec.length = c.exec.length + 1 ∧ (t.core p).basin = c.basin ∧ ∀ k, k ≠ p → t.core k = s.core k)) ∧
  (∀ (s : State) (core : Nat) (w : WordCtx) (v : MoveArgs) (a : TierArgs) (cmd : Nat), s.canonical = true → s.executes core = true →
      let p := s.phys core
      let c := s.core p
      let l := streamPieces (withRows v.opnd v.run) 0 (Bytes.read 0 c.vregs (vregAt v.v) (runChunks v.opnd v.run * 64))
      let src := runStream a.opnd a.run
      (s.opNext core w (.vstore v) = true → c.vregBusy w (.vstore v) = false → w.post = false → c.writesOpen l = true →
        s.roomFor p (4 * l.length) = true →
        ∃ t, Machine.exec (.vstore core w v) s = .next t ∧ (∀ x ∈ l, (t.core p).peek x.addr x.bytes.length = x.bytes) ∧
          (∀ k, l.all (fun x => decide (k < x.addr ∨ x.addr + x.bytes.length ≤ k)) = true → (t.core p).peek k 1 = c.peek k 1) ∧
          (t.core p).tags = c.tags ∧ (t.core p).vregs = c.vregs ∧ (t.core p).exec.length = c.exec.length + 1 ∧
          ∀ k, k ≠ p → t.core k = s.core k) ∧
      (∀ x y, l = [x] → c.namedSlots s.geo w (.vstore v) = [y] → c.slotsOf [x.addr] = [y] → x.bytes.length = 64 → x.addr % 64 = 0 →
        s.opNext core w (.vstore v) = true → c.vregBusy w (.vstore v) = false → s.inWindow core y = false → c.held y.1 = false →
        (c.tagSeen y.1 y.2).free = true → (c.tag y.1 y.2).free = true → c.windowSlot y = false → c.windowAt x.addr = none →
        c.foldPending x.addr = false → c.folded x.addr = false → s.roomFor p 4 = true →
        ∃ t, Machine.exec (.vstore core w v) s = .next t ∧ (t.core p).peek x.addr 64 = x.bytes ∧
          (t.core p).tag y.1 y.2 = ⟨2, w.stamp, false, some (opProducer w (.vstore v))⟩) ∧
      (s.opNext core w (.tstore a) = true → c.readsClean w.expect src = true → s.banksFree p (4 * src.length) = true →
        ∃ t, Machine.exec (.tstore core w a) s = .next t ∧ s.reqs <+: t.reqs ∧
          (t.reqs.drop s.reqs.length).flatMap (fun q => q.bytes) = src.flatMap (fun x => c.peek x 64) ∧
          (∀ q ∈ t.reqs.drop s.reqs.length, q.place = p ∧ q.w = w ∧ q.write = true ∧ q.marked = [] ∧
            q.addr / 512 = (q.addr + q.bytes.length - 1) / 512) ∧
          (t.core p).exec.length = c.exec.length + 1 ∧ (t.core p).basin = c.basin) ∧
      (let lo := BitVec.ofNat 64 (bytesNat (c.peek (cmd * 16) 8))
        let hi := BitVec.ofNat 64 (bytesNat (c.peek (cmd * 16 + 8) 8))
        s.opNext core w (.eng cmd) = true → c.ldgQ.length < 8 → c.readsClean w.expect [cmd * 16, cmd * 16 + 8] = true →
        s.banksFree p 8 = true →
        (c.rejectsRead (s.carve (core / 16)) lo hi = none →
          ∃ t, Machine.exec (.eng core w cmd) s = .next t ∧ (t.core p).ldgQ = c.ldgQ ++ [.cmd lo hi (some w) w.count c.aheadNow] ∧
            (t.core p).storeQ = c.storeQ.erase ⟨w, .eng cmd⟩ ∧ (t.core p).basin = c.basin) ∧
        (∀ cls, c.rejectsRead (s.carve (core / 16)) lo hi = some cls → c.faultOpen = true →
          ∃ t, Machine.exec (.eng core w cmd) s = .next t ∧ (t.core p).faultIs cls 7 w.tag ∧ (t.core p).ldgQ = c.ldgQ ∧
            (t.core p).basin = c.basin)))

/-- A SEND with its source clean and its credit at hand makes one consignment and its flits, two chunks to a flit, at the pass of its
core, and uses up the slots of credit it needs (R284, R285, Table 10-10). -/
def Obligations.SendLeaves : Prop :=
  ∀ (s : State) (core : Nat) (w : WordCtx) (a : SendArgs), s.canonical = true → s.executes core = true →
    let p := s.phys core
    let c := s.core p
    let n := runChunks a.opnd a.run
    s.opNext core w (.send a) = true → s.hasCredit core c a (n * 64) = true → c.readsClean w.expect (runStream a.opnd a.run) = true →
    s.banksFree p (4 * n) = true →
    ∃ t q, Machine.exec (.send core w a) s = .next t ∧ t.conss = s.conss ++ [q] ∧ q.srcCore = core ∧ q.kind = field a.lo 1 0 ∧
      q.cid = Sparse.get 0 s.cidNext core ∧ q.stream = field a.lo 63 52 ∧ q.flits = some (max 1 (ceilDiv n 2)) ∧
      s.flits <+: t.flits ∧ t.flits.length = s.flits.length + max 1 (ceilDiv n 2) ∧
      (∀ f ∈ t.flits.drop s.flits.length, f.cons = q.id ∧ f.x = coreX core ∧ f.y = coreY core ∧ f.inPort = 4 ∧ s.now + 8 < f.ready) ∧
      t.cidNext = Sparse.set 0 s.cidNext core ((q.cid + 1) % 65536) ∧ t.fresh = s.fresh + 1 ∧
      (field a.lo 1 0 = 3 → (t.core p).route = (c.setCredit a.route (s.creditSlot q.dstPos q.win q.slot (s.slotsNeeded q.dstPos q.win (n * 64)))
        ((c.credit a.route).2 - s.slotsNeeded q.dstPos q.win (n * 64))).route) ∧ (field a.lo 1 0 ≠ 3 → (t.core p).route = c.route) ∧
      (t.core p).basin = c.basin ∧ (t.core p).tags = c.tags

/-! ## The basin -/

/-- An access that meets no other goes on to its bank cycle, charged; of two that want one bank of an unleased ledge the first in the
order of the classes goes on. In its bank cycle a write stores its bytes and nothing else; what an accumulate window adds is read and added
in the first bank cycle and stored in the second. A read of clean chunks sends the stored bytes up; an engine's read of an unshadowed
chunk with an uncorrectable word poisons it and faults; read data of which every part is due reaches its port (R40 to R42, R46 to R48,
R55, R63, R64, R270, Table 2-5). -/
def Obligations.BanksServe : Prop :=
  (∀ (s : State) (core : Nat) (a b : Access), s.canonical = true → s.executes core = true →
      let p := s.phys core
      let c := s.core p
      let go := fun (x : Access) => ({ c.arrive s.now x with breached := true } : Access)
      let charge := c.partCharge a (accChunks a)
      let open_ := fun (x : Access) => c.tagPasses x && !c.shadowWaits x && (s.meetsWindow core c x).isNone && !x.breached && !x.retry
      let adds := if a.write then (accChunks a).filterMap (fun x => (c.adding a.port (accCount a) x).map (fun w => (x, w.bf16))) else []
      s.sel F.prtCtl_enable = 0 → c.accesses = [] → c.cyc.stolen = false → open_ a = true → s.gov.throttling = false →
        s.govRoom charge = true → a.posts = none → partOf (accChunks a) = accChunks a →
      (∃ t, Machine.exec (.bankArbitration core [a]) s = .next t ∧ (t.core p).accesses = [] ∧
        (t.core p).banking = c.banking ++ [⟨go a, a.pieces, s.now, true, adds, none, none⟩] ∧ t.gov.cur = s.gov.cur + charge ∧
        (t.core p).get F.ldgBreach_count = min (2 ^ 32 - 1) (c.get F.ldgBreach_count + (if (c.breaches (go a)).isNone then 0 else 1)) ∧
        (t.core p).basin = c.basin ∧ (t.core p).tags = c.tags ∧ (∀ k, k ≠ p → t.core k = s.core k)) ∧
      (∀ x y, accChunks a = [x] → accChunks b = [y] → bankOf x = bankOf y → c.holder (c.setFor (s.now - 2)) (ledgeOf x) = 0 →
        open_ b = true → b.posts = none → accBefore (go a) (go b) = true → a.serial ≠ b.serial →
        ∃ t, Machine.exec (.bankArbitration core [a, b]) s = .next t ∧
          (t.core p).accesses = [{ go b with passed := b.passed || !b.write, retry := conflicts a b }] ∧
          (t.core p).banking = c.banking ++ [⟨go a, a.pieces, s.now, true, adds, none, none⟩] ∧ t.gov.cur = s.gov.cur + charge ∧
          (t.core p).basin = c.basin ∧ (t.core p).tags = c.tags)) ∧
  (∀ (s : State) (core : Nat) (b : Banking) (x y : Piece) (f : Bool), s.canonical = true → s.executes core = true →
      let p := s.phys core
      let c := s.core p
      (c.banking = [b] → b.part = [x] → bankTick b ≤ s.now → x.addr % 64 + x.bytes.length ≤ 64 → c.folded (chunkOf x.addr) = false →
        (b.acc.write = true → b.sums = none → b.adds = [] → ∃ t, Machine.exec (.basinBankCycle core []) s = .next t ∧ s.onlyCore p t ∧
          (t.core p).peek x.addr x.bytes.length = x.bytes ∧ (t.core p).banking = [] ∧ (t.core p).tags = c.tags ∧ (t.core p).regs = c.regs ∧
          ∀ k, k < x.addr ∨ x.addr + x.bytes.length ≤ k → (t.core p).peek k 1 = c.peek k 1) ∧
        (b.acc.write = true → b.sums = none → b.adds = [(chunkOf x.addr, f)] → b.stalled = none → s.now < b.won + 4 →
          c.poisoned x.addr = false → c.errorsIn x.addr = [] →
          ∃ t, Machine.exec (.basinBankCycle core []) s = .next t ∧ s.onlyCore p t ∧ (t.core p).banking = [{ b with sums := some [⟨x.addr,
            accumulate f (c.peek x.addr x.bytes.length) x.bytes (if f then x.bytes.length / 2 else x.bytes.length / 4)⟩] }] ∧
            (t.core p).basin = c.basin ∧ (t.core p).tags = c.tags) ∧
        (b.acc.write = true → b.sums = some [y] → y.addr % 64 + y.bytes.length ≤ 64 → c.folded (chunkOf y.addr) = false →
          ∃ t, Machine.exec (.basinBankCycle core []) s = .next t ∧ s.onlyCore p t ∧ (t.core p).peek y.addr y.bytes.length = y.bytes ∧
            (t.core p).banking = [] ∧ (t.core p).tags = c.tags ∧
            ∀ k, k < y.addr ∨ y.addr + y.bytes.length ≤ k → (t.core p).peek k 1 = c.peek k 1) ∧
        (b.acc.write = false → b.sums = none → b.adds = [] → c.portData = [] → b.stalled = none → c.poisoned x.addr = false →
          (c.errorsIn x.addr = [] → ∃ t, Machine.exec (.basinBankCycle core []) s = .next t ∧ s.onlyCore p t ∧
            (t.core p).portData = [⟨b.acc, [{ x with bytes := c.peek x.addr x.bytes.length }], false, b.won + 5⟩] ∧ (t.core p).banking = [] ∧
            { t.core p with portData := c.portData, banking := c.banking, regs := c.regs, cyc := c.cyc } = c) ∧
          (((c.errorsIn x.addr).any (fun e => e.2)) = true → c.shadowed (chunkOf x.addr) = false → readerOf b.acc.port = .engine →
            c.faultOpen = true → ∃ t, Machine.exec (.basinBankCycle core []) s = .next t ∧ s.onlyCore p t ∧
              (t.core p).poisoned x.addr = true ∧ (t.core p).faultIs clsPoison (portUnit b.acc.port) b.acc.w.tag ∧
              (t.core p).portData = [] ∧ (t.core p).basin = c.basin))) ∧
      (∀ d, c.portData = [d] → d.complete = true → d.due ≤ s.now → ∃ t, Machine.exec (.basinReadData core) s = .next t ∧ s.onlyCore p t ∧
        (t.core p).atPort = Sparse.set [] c.atPort (portRank d.acc.port) d.bytes ∧ { t.core p with atPort := c.atPort, portData := [d] } = c))

/-- A poisoned chunk of a shadowed cove, its poison not from a tier or a strait, begins to be rebuilt; the rebuild writes what the parity and the other contributors give and
clears the poison, or in a shoal whose reserve is spent leaves it and counts; a ledge's shadow bus moves the oldest delta of the
next core to the reserve, which XORs it in (R56, R306, R308, R324). -/
def Obligations.ChunksRebuilt : Prop :=
  ∀ (s : State) (core addr : Nat), s.canonical = true → s.executes core = true →
    let p := s.phys core
    let c := s.core p
    let shoal := core / 16
    (c.poisoned addr = true → c.shadowed addr = true → c.foreign addr = false → c.repairs = [] → ∃ t, Machine.exec (.chunkRepair core addr) s = .next t ∧
      s.onlyCore p t ∧ (t.core p).repairs = [⟨chunkOf addr, false, s.now⟩] ∧ { t.core p with repairs := [] } = c) ∧
    (∀ r, c.repairs = [r] → r.addr = chunkOf addr → (∀ k, k < 17 → (s.core (shoal * 17 + k)).deltas = []) → s.physAt shoal (core % 16) < 17 →
      (∀ data, s.flag F.shlMendStat_spent shoal = false → c.foldPending addr = false → c.foreign addr = false → c.folded addr = true → c.folded (chunkOf addr) = true →
        s.rebuilt p (chunkOf addr) = some data → ∃ t, Machine.exec (.chunkRepairDone core addr) s = .next t ∧
          (t.core p).peek (chunkOf addr) 64 = data ∧ (t.core p).poisoned addr = false ∧ (t.core p).repairs = [] ∧
          (∀ k, k < chunkOf addr ∨ chunkOf addr + 64 ≤ k → (t.core p).peek k 1 = c.peek k 1) ∧
          t.get F.shlMendStat_readRepairs shoal = min F.shlMendStat_readRepairs.max (s.get F.shlMendStat_readRepairs shoal + b2n (!r.bySweep)) ∧
          t.get F.shlMendStat_repairFails shoal = s.get F.shlMendStat_repairFails shoal) ∧
      (s.flag F.shlMendStat_spent shoal = true → c.banking = [] → ∃ t, Machine.exec (.chunkRepairDone core addr) s = .next t ∧
          t.get F.shlMendStat_repairFails shoal = min F.shlMendStat_repairFails.max (s.get F.shlMendStat_repairFails shoal + 1) ∧
          (t.core p).poison = c.poison ∧ (t.core p).basin = c.basin ∧ (t.core p).repairs = [])) ∧
    (∀ ledge pos n d rest r, ledge < 12 → n < 16 → pos = (Sparse.get 0 s.deltaTurn (shoal * 12 + ledge) + n) % 16 →
      (∀ m, m < n → Sparse.get [] (s.core (shoal * 17 + s.physAt shoal ((Sparse.get 0 s.deltaTurn (shoal * 12 + ledge) + m) % 16))).deltas ledge = []) →
      Sparse.get [] (s.core (shoal * 17 + s.physAt shoal pos)).deltas ledge = d :: rest → s.spare shoal = some r →
      r ≠ shoal * 17 + s.physAt shoal pos → d.data.length = 64 →
      ∃ t, Machine.exec (.deltaApply shoal ledge) s = .next t ∧ (t.core r).peek d.addr 64 = xorBytes ((s.core r).peek d.addr 64) d.data ∧
        (t.core r).poisoned d.addr = ((s.core r).poisoned d.addr != d.poison) ∧
        (∀ k, k < d.addr ∨ d.addr + 64 ≤ k → (t.core r).peek k 1 = (s.core r).peek k 1) ∧
        (t.core (shoal * 17 + s.physAt shoal pos)).deltas = Sparse.set [] (s.core (shoal * 17 + s.physAt shoal pos)).deltas ledge rest ∧
        (∀ k, k ≠ r → k ≠ shoal * 17 + s.physAt shoal pos → t.core k = s.core k) ∧ t.regs = s.regs)

/-! ## The ledge engine -/

/-- A command at the front of an idle engine's queue, sound and behind no earlier write, leaves the queue and executes: a NOP does nothing
more, a FILL writes its pattern over its chunks, a COPY moves what its source held, and ACC_OPEN opens its window, claiming the slots it
stamps. ACC_CLOSE takes its window away once every earlier write into it has been made; a command that has executed counts, posts its
stamp to the slots it claimed and leaves the engine idle; one of the CSR path that has waited 100 us is abandoned, counted and flagged
(R57, R59 to R62, R65, R71, R86). -/
def Obligations.EngineServes : Prop :=
  (∀ (s : State) (core : Nat) (lo hi : Reg64) (w : Option WordCtx) (n : Nat) (ahead : Ahead) (rest : List LdgItem), s.canonical = true →
      s.executes core = true →
      let p := s.phys core
      let c := s.core p
      let i : LdgItem := .cmd lo hi w n ahead
      let dst := rangeChunks (ldgDst lo) (ldgLen hi)
      let src := rangeChunks (ldgSrc hi) (ldgLen hi)
      let outside := fun (k : Nat) => k < ldgDst lo ∨ ldgDst lo + ldgLen hi * 64 ≤ k
      c.ldgExec = none → c.ldgWait = none → c.ldgQ = i :: rest → c.pushHeld = none → ldgRejects (s.carve (core / 16)) lo hi = none →
      c.rejectsStart (s.carve (core / 16)) w lo hi = none → c.earlierWritesDone ahead = true → c.cyc.stolen = false →
      (ldgOp lo = 0 → ∃ t, Machine.exec (.nop core) s = .next t ∧ s.onlyCore p t ∧ (t.core p).ldgExec = some i ∧ (t.core p).ldgQ = rest ∧
        { t.core p with ldgExec := none, ldgQ := c.ldgQ } = c) ∧
      (s.ldgMeetsWindow core c lo hi = none → c.ldgBlocked lo hi (ldgProducer w n) = none → dst.all (fun a => !c.folded a) = true →
        s.portAdmits p (c.ldgCharge lo hi) = true →
        (ldgOp lo = 1 → ∃ t, Machine.exec (.fill core) s = .next t ∧ (∀ k, k < ldgLen hi → (t.core p).peek (ldgDst lo + 64 * k) 64 = patternChunk (ldgPattern hi)) ∧
          (∀ k, outside k → (t.core p).peek k 1 = c.peek k 1) ∧ (∀ a ∈ dst, (t.core p).poisoned a = false) ∧
          (ldgStampEn lo = false → (t.core p).tags = c.tags) ∧ t.gov.cur = s.gov.cur + ldgLen hi ∧
          (t.core p).ldgExec = some i ∧ (t.core p).ldgQ = rest ∧ ∀ k, k ≠ p → t.core k = s.core k) ∧
        (ldgOp lo = 2 → c.readsClean none src = true → ∃ t, Machine.exec (.copy core) s = .next t ∧
          (∀ k, k < ldgLen hi → (t.core p).peek (ldgDst lo + 64 * k) 64 = c.peek (ldgSrc hi + 64 * k) 64) ∧
          (∀ k, outside k → (t.core p).peek k 1 = c.peek k 1) ∧ t.gov.cur = s.gov.cur + 8 * ldgLen hi ∧
          (t.core p).ldgExec = some i ∧ (t.core p).ldgQ = rest ∧ ∀ k, k ≠ p → t.core k = s.core k)) ∧
      (ldgOp lo = 3 → (ldgStampEn lo = true → (c.ldgSlots lo hi).all (fun x => (c.tagSeen x.1 x.2).free && (c.tag x.1 x.2).free && !c.held x.1) = true) →
        ∃ t, Machine.exec (.accOpen core) s = .next t ∧ s.onlyCore p t ∧
          (t.core p).accWin = c.accWin ++ [⟨ldgWin lo, ldgDst lo, ldgLen hi, ldgBf16 lo, ldgStampEn lo, n⟩] ∧
          bit ((t.core p).get F.ldgEngStat_winOpen) (ldgWin lo) = true ∧
          (ldgStampEn lo = true → ∀ x ∈ c.ldgSlots lo hi, ((t.core p).tag x.1 x.2).state = 1 ∧ ((t.core p).tag x.1 x.2).claimant = some ⟨7, ldgWin lo, n⟩) ∧
          (t.core p).basin = c.basin ∧ (t.core p).ldgExec = some i ∧ (t.core p).ldgQ = rest)) ∧
  (∀ (s : State) (core : Nat) (lo hi : Reg64) (w : Option WordCtx) (n : Nat) (ahead : Ahead) (rest : List LdgItem) (win : AccWindow)
      (x : LdgWaiting), s.canonical = true → s.executes core = true →
      let p := s.phys core
      let c := s.core p
      let i : LdgItem := .cmd lo hi w n ahead
      (c.ldgExec = none → c.ldgWait = none → c.ldgQ = i :: rest → c.pushHeld = none → c.rejectsStart (s.carve (core / 16)) w lo hi = none →
        c.earlierWritesDone ahead = true → c.cyc.stolen = false → ldgOp lo = 4 → c.accWin = [win] → win.win = ldgWin lo →
        (c.earlierDests s.geo n).any (fun a => decide (win.base ≤ a ∧ a < win.base + win.len * 64)) = false →
        s.landingInto p n win.base (win.len * 64) = false → c.bstInto n win.base (win.len * 64) = false →
        (c.closeSlots win).all (fun x => !c.held x.1) = true → ∃ t, Machine.exec (.accClose core) s = .next t ∧ s.onlyCore p t ∧
          (t.core p).accWin = [] ∧ bit ((t.core p).get F.ldgEngStat_winOpen) (ldgWin lo) = false ∧
          (win.stampEn = false → (t.core p).tags = c.tags) ∧
          (ldgStampEn lo = true → ∀ x ∈ c.closeSlots win, ((t.core p).tag x.1 x.2).state = 2 ∧ ((t.core p).tag x.1 x.2).stamp = ldgStamp lo) ∧
          (ldgStampEn lo = false → ∀ x ∈ c.closeSlots win, ((t.core p).tag x.1 x.2).state = 0) ∧
          (t.core p).basin = c.basin ∧ (t.core p).ldgExec = some i) ∧
      (c.ldgExec = some i → c.ldgWait = none → (c.ldgPosts lo hi w n).all (fun x => !c.held x.1) = true →
        ∃ t, Machine.exec (.ledgeCmdComplete core) s = .next t ∧ s.onlyCore p t ∧ (t.core p).ldgExec = none ∧
        (t.core p).get F.ldgEngStat_doneCount = (c.get F.ldgEngStat_doneCount + 1) % (F.ldgEngStat_doneCount.max + 1) ∧
        (∀ x ∈ c.ldgPosts lo hi w n, ((t.core p).tag x.1 x.2).state = 2 ∧ ((t.core p).tag x.1 x.2).stamp = ldgStamp lo) ∧
        (ldgStampEn lo = false → (t.core p).tags = c.tags) ∧ (t.core p).basin = c.basin ∧ (t.core p).ldgQ = c.ldgQ) ∧
      (c.ldgExec = some i → w = none → c.ldgWait = some x → x.since + 100000 ≤ s.now → ∃ t,
        Machine.exec (.ledgeCmdTimeout core) s = .next t ∧ s.onlyCore p t ∧ (t.core p).ldgExec = none ∧ (t.core p).ldgWait = none ∧
        (t.core p).flag F.ldgEngStat_timeout = true ∧
        (t.core p).get F.ldgEngStat_doneCount = (c.get F.ldgEngStat_doneCount + 1) % (F.ldgEngStat_doneCount.max + 1) ∧
        (c.coveAt x.addr = none → (t.core p).flag F.corCtl_faulted = c.flag F.corCtl_faulted) ∧
        (∀ v, c.coveAt x.addr = some v → c.faultOpen = true → (t.core p).faultIs clsTimeout 7 0 ∧
          (t.core p).get F.corFault_ctx = c.get F.coveCfg_owner v.n) ∧ (t.core p).basin = c.basin ∧ (t.core p).tags = c.tags))

/-- A queued FOLD XORs its extent, chunk by chunk, into the reserve's parity and sets FOLDED; an UNFOLD XORs it in again. A sweep whose
row's turn has come reads it in an idle cycle: a row without errors is only counted off, a corrected word is rewritten and counted, an
uncorrectable word outside every cove poisons its chunk; one that has waited 64 cycles takes the next and counts a steal. In the reserve
an uncorrectable parity chunk is recomputed from its contributors (R66, R306, R310, R325, Table 11-6). -/
def Obligations.ParityAndSweeps : Prop :=
  (∀ (s : State) (core r n base len : Nat) (ahead : Ahead) (rest : List LdgItem), s.canonical = true → s.executes core = true →
      let p := s.phys core
      let c := s.core p
      let folded := fun (t : State) => (∀ k, k < len / 64 →
          (t.core r).peek (base + 64 * k) 64 = xorBytes ((s.core r).peek (base + 64 * k) 64) (c.peek (base + 64 * k) 64) ∧
          (t.core r).poisoned (base + 64 * k) = ((s.core r).poisoned (base + 64 * k) != c.poisoned (base + 64 * k))) ∧
        (∀ k, k < base ∨ base + len / 64 * 64 ≤ k → (t.core r).peek k 1 = (s.core r).peek k 1) ∧ (t.core p).ldgQ = rest ∧
        (t.core p).basin = c.basin ∧ (t.core p).tags = c.tags ∧ { t with cores := s.cores } = s ∧ ∀ k, k ≠ p → k ≠ r → t.core k = s.core k
      s.physAt (core / 16) (core % 16) < 17 → s.spare (core / 16) = some r → r ≠ p → c.ldgExec = none → c.pushHeld = none →
        c.earlierWritesDone ahead = true → n < 32 →
      (c.ldgQ = .fold n base len ahead :: rest → ∃ t, Machine.exec (.fold core) s = .next t ∧ folded t ∧ bit ((t.core p).get F.corShadow_folded) n = true) ∧
      (c.ldgQ = .unfold n base len ahead :: rest → ∃ t, Machine.exec (.unfold core) s = .next t ∧ folded t)) ∧
  (∀ (s : State) (core a : Nat) (steal : Bool), s.canonical = true → s.executes core = true →
      let p := s.phys core
      let c := s.core p
      let found := c.ecc.filter (fun e => inRow c.sweepRow e.1)
      let run := if steal then Machine.exec (.sweepSteal core []) s else Machine.exec (.sweepRow core []) s
      let walked := fun (t : State) => (t.core p).sweepRow = (c.sweepRow + 1) % 2048 ∧
        (t.core p).sweepDue = s.now + max 16 (c.get F.ldgSweep_interval) ∧ (t.core p).basin = c.basin ∧ (t.core p).tags = c.tags ∧
        (t.core p).get F.ldgSweep_passes = (c.get F.ldgSweep_passes + b2n (c.sweepRow == 2047)) % 65536 ∧
        (t.core p).get F.ldgSweep_steals = min 65535 (c.get F.ldgSweep_steals + b2n steal) ∧
        ∀ k, k ≠ p → t.core k = s.core k
      c.flag F.ldgSweep_enable = true →
      (if steal then 64 ≤ c.sweepWaited ∧ c.cyc.busy = false else c.sweepDue ≤ s.now ∧ c.banksIdle s.now = true) →
      (found = [] → ∃ t, run = .next t ∧ walked t ∧ (t.core p).ecc = c.ecc ∧ (t.core p).poison = c.poison ∧ t.gov.cur = s.gov.cur + 768) ∧
      (found = [(a, false)] → c.cyc.errs = [] → ∃ t, run = .next t ∧ walked t ∧ (t.core p).ecc = c.ecc.filter (fun e => !(e == (a, false))) ∧
        (t.core p).get F.ldgEcc_ceCount = min 65535 (c.get F.ldgEcc_ceCount + 1) ∧ (t.core p).get F.ldgEcc_lastAddr = a % 2 ^ 25 ∧
        (t.core p).flag F.ldgEcc_lastUe = false ∧ (t.core p).poison = c.poison ∧ t.gov.cur = s.gov.cur + 772) ∧
      (found = [(a, true)] → c.coveAt (chunkOf a) = none → ∃ t, run = .next t ∧ walked t ∧ (t.core p).poisoned a = true ∧
        (t.core p).ecc = c.ecc ∧ (t.core p).get F.ldgEcc_ueCount = min 65535 (c.get F.ldgEcc_ueCount + 1) ∧ (t.core p).flag F.ldgEcc_lastUe = true)) ∧
  (∀ (s : State) (shoal a r : Nat), s.canonical = true → shoal < 80 →
      let c := s.core r
      let l := s.contributors shoal (chunkOf a)
      s.usable shoal = true → s.reconfiguring shoal = false → s.spare shoal = some r → c.washEnd = none → c.flag F.ldgSweep_enable = true →
      c.sweepDue ≤ s.now → c.banksIdle s.now = true → c.ecc.filter (fun e => inRow c.sweepRow e.1) = [(a, true)] →
      (∀ k, k < 17 → (s.core (shoal * 17 + k)).deltas = []) → l.all (fun q => ((s.core q).errorsIn (chunkOf a)).isEmpty) = true →
      ∃ t, Machine.exec (.sweepRow (1280 + shoal) []) s = .next t ∧
        (t.core r).peek (chunkOf a) 64 = l.foldl (fun m q => xorBytes m ((s.core q).peek (chunkOf a) 64)) (List.replicate 64 0) ∧
        (t.core r).poisoned a = l.foldl (fun m q => m != (s.core q).poisoned (chunkOf a)) false ∧
        (∀ k, k < chunkOf a ∨ chunkOf a + 64 ≤ k → (t.core r).peek k 1 = c.peek k 1) ∧
        t.get F.shlMendStat_sweepRepairs shoal = min F.shlMendStat_sweepRepairs.max (s.get F.shlMendStat_sweepRepairs shoal + 1))

/-- At its tag stage a release turns each slot it covers that was FLOOD when the tick began EBB, its stamp kept. Slots that were already EBB
or SLACK stay as they are: the release counts REL_REPEAT once for EBB slots and REL_EARLY once for SLACK slots, raises a notice for each,
and releases the rest of its slots (R78, R92, R93). -/
def Obligations.ReleasesCover : Prop :=
  ∀ (s : State) (core : Nat) (r : Release), s.canonical = true → s.executes core = true →
    let p := s.phys core
    let c := s.core p
    let v := c.cove r.cove
    let covers := fun (i : Nat) => ∃ k, k < r.n ∧ i = (r.first + k) % v.slots
    let told := fun (t : State) (kind : Nat) => ⟨kind, core, v.n, s.now, 0, 0, 0⟩ ∈ Sparse.get [] t.notices (core / 16)
    c.rels = [r] → r.cove < 32 → c.flag F.coveCfg_enable r.cove = true → c.relReady s.geo s.now v r = true → r.first < v.slots → 1 ≤ r.n → r.n ≤ v.slots →
    (r.ctx = none ∨ r.ctx = some (c.get F.coveCfg_owner v.n)) → Sparse.wf (fun _ => ([] : List Notice)) s.notices = true →
    ∃ t, Machine.exec (.releaseApply core) s = .next t ∧ (t.core p).rels = [] ∧
      ((∃ i, covers i ∧ (c.tagSeen v i).state = 0) → told t 2 ∧
        (t.core p).get F.coveStat_relRepeat v.n = min 255 (c.get F.coveStat_relRepeat v.n + 1)) ∧
      ((∃ i, covers i ∧ (c.tagSeen v i).state = 1) → told t 3 ∧
        (t.core p).get F.coveStat_relEarly v.n = min 255 (c.get F.coveStat_relEarly v.n + 1)) ∧
      ((∀ i, covers i → (c.tagSeen v i).state ≠ 0) → (t.core p).get F.coveStat_relRepeat v.n = c.get F.coveStat_relRepeat v.n) ∧
      ((∀ i, covers i → (c.tagSeen v i).state ≠ 1) → (t.core p).get F.coveStat_relEarly v.n = c.get F.coveStat_relEarly v.n) ∧
      (∀ i, covers i → (c.tagSeen v i).state = 2 →
        (t.core p).tag v i = { c.tag v i with state := 0, retained := c.flag F.coveCfg_retain v.n }) ∧
      (∀ i, i < v.slots → ¬ (covers i ∧ (c.tagSeen v i).state = 2) → (t.core p).tag v i = c.tag v i) ∧
      (t.core p).basin = c.basin ∧ (∀ k, k ≠ p → t.core k = s.core k)

/-! ## What software commands of a core -/

/-- When ENABLE goes from 0 to 1, each of the cove's tags becomes EBB with stamp 0 and no retention or claimant, HEAD, TAIL and LEVEL
become 0, every field of COVE_STAT is cleared, and the basin's contents stay; no other tag and no other core changes (R75). -/
def Obligations.CovesEnable : Prop :=
  ∀ (s : State) (core n : Nat) (id : BitVec 12) (value : Reg64), s.canonical = true → s.executes core = true →
    let p := s.phys core
    let c := s.core p
    let v := coveOf n value (c.get F.coveAux_tagBase n)
    s.takes id = true → n < 32 → c.flag F.coveCfg_lock n = false → Sparse.wf (fun _ => 0) c.lastLevel = true →
    (F.coveCfg_enable.addr n, 0) ∉ c.cyc.moved → c.flag F.coveCfg_enable n = false → c.coveValid (s.carve (core / 16)) n value v.tagBase = true →
      ∃ t, Machine.exec (.coveEnable core n id value) s = .next t ∧ (t.core p).flag F.coveCfg_enable n = true ∧ (t.core p).cove n = v ∧
        (∀ i, i < v.slots → ((t.core p).tag v i).state = 0 ∧ ((t.core p).tag v i).stamp = 0 ∧ ((t.core p).tag v i).retained = false ∧
          ((t.core p).tag v i).claimant = none) ∧
        (∀ i, i < v.tagBase ∨ v.tagBase + v.slots ≤ i → Sparse.get Tag.ebb (t.core p).tags i = Sparse.get Tag.ebb c.tags i) ∧
        (t.core p).get F.covePtr_head n = 0 ∧ (t.core p).get F.covePtr_tail n = 0 ∧ (t.core p).level v = 0 ∧
        (t.core p).reg (F.coveStat_peak.addr n) = 0 ∧ (t.core p).basin = c.basin ∧ t.now = s.now ∧ ∀ k, k ≠ p → t.core k = s.core k

/-- REL_GO queues the release of its slots as the owner; a release by a context that does not
own the cove changes no tag and loses that context; enabling or disabling a shadowed cove queues its FOLD or UNFOLD, and disabling ends
its releases and keeps tags and data; a tag of a held cove takes the STATE, stamp and retained bit written; PEAK_CLR gives PEAK the level
(R90 to R94, R106, R310, R419). -/
def Obligations.CoveControls : Prop :=
  ∀ (s : State) (core n first count : Nat) (id : BitVec 12) (value : Reg64) (v : Cove) (r : Release), s.canonical = true → s.executes core = true →
    let p := s.phys core
    let c := s.core p
    let sel := c.sel F.coveTagSel_index
    let old := c.cove n
    let u := coveOf n value (c.get F.coveAux_tagBase n)
    let w := c.cove r.cove
    s.takes id = true →
    (n < 32 → (F.coveCtl_hold.addr n, 0) ∉ c.cyc.moved → c.flag F.coveCfg_enable n = true → c.flag F.coveCtl_relGo n = false → first < c.get F.coveCfg_slots n → first < 4096 → 1 ≤ count →
      count ≤ c.get F.coveCfg_slots n → ∃ t, Machine.exec (.relGo core n id first count) s = .next t ∧ s.wroteCore p t ∧
        (t.core p).rels = c.rels ++ [⟨n, first, count, none, c.iss.count, c.iss.tag, c.iss.off, none, true, s.now⟩] ∧
        (t.core p).get F.coveCtl_relFirst n = first ∧ (t.core p).get F.coveCtl_relCount n = count ∧
        (t.core p).flag F.coveCtl_hold n = c.flag F.coveCtl_hold n ∧ (t.core p).tags = c.tags ∧ (t.core p).basin = c.basin) ∧
    (c.rels = [r] → r.cove < 32 → c.flag F.coveCfg_enable r.cove = true → c.relReady s.geo s.now w r = true →
      (∀ k, r.ctx = some k → k ≠ c.get F.coveCfg_owner w.n → k < 1024 → c.faultOpen = true →
        ∃ t, Machine.exec (.releaseApply core) s = .next t ∧ (t.core p).tags = c.tags ∧ (t.core p).rels = [] ∧
          (t.core p).faultIs clsForeign 9 r.tag ∧ (t.core p).get F.corFault_ctx = k)) ∧
    (n < 32 → c.flag F.coveCfg_lock n = false → (F.coveCfg_enable.addr n, 0) ∉ c.cyc.moved →
      (c.flag F.coveCfg_enable n = false → c.coveValid (s.carve (core / 16)) n value u.tagBase = true →
        ∃ t, Machine.exec (.coveEnable core n id value) s = .next t ∧ (t.core p).get F.coveCfg_owner n = field value 57 48 ∧
          (t.core p).ldgQ = c.ldgQ ++ (if bit value.toNat 60 then [.fold n u.base u.extent c.aheadNow] else [])) ∧
      (c.flag F.coveCfg_enable n = true → c.get F.coveCfg_size n ≤ 10 → ∃ t, Machine.exec (.coveDisable core n id) s = .next t ∧
        (t.core p).flag F.coveCfg_enable n = false ∧ (t.core p).cove n = old ∧ (t.core p).rels = c.rels.filter (fun r => r.cove != n) ∧
        (t.core p).ldgQ = c.ldgQ ++ (if c.flag F.coveCfg_shadow n then [.unfold n old.base old.extent c.aheadNow] else []) ∧
        (c.flag F.coveCfg_shadow n = true → bit ((t.core p).get F.corShadow_folded) n = false) ∧
        (t.core p).tags = c.tags ∧ (t.core p).basin = c.basin ∧ ∀ k, k ≠ p → t.core k = s.core k)) ∧
    (c.coveOfTag sel = some v → c.held v = true → (F.coveTagData_state.base, 0) ∉ c.cyc.moved → field value 17 16 ≠ 3 → ∃ t, Machine.exec (.tagWrite core id value) s = .next t ∧
        (∀ k, (Sparse.get Tag.ebb (t.core p).tags k) = if k = sel then { Sparse.get Tag.ebb c.tags sel with
            state := field value 17 16, stamp := BitVec.ofNat 16 (field value 15 0), retained := bit value.toNat 19 } else Sparse.get Tag.ebb c.tags k) ∧
        (t.core p).basin = c.basin ∧ (t.core p).iss = c.iss ∧ ∀ k, k ≠ p → t.core k = s.core k) ∧
    (n < 32 → c.flag F.coveStat_peakClr n = false → ∃ t, Machine.exec (.peakClr core n id) s = .next t ∧ s.wroteCore p t ∧
        (t.core p).get F.coveStat_peak n = c.level (c.cove n) ∧
        ((countedIn c.cyc.counted (F.coveStat_crossCount.key n)).1 ≤ c.get F.coveStat_crossCount n →
          (t.core p).get F.coveStat_crossCount n = c.get F.coveStat_crossCount n) ∧
        (∀ k, k ≠ F.coveStat_peak.addr n → (t.core p).reg k = c.reg k) ∧ { t.core p with regs := c.regs, cyc := c.cyc } = c)

/-- START on a stopped, unfaulted core takes ENTRY and CTX, clears STOPPED and fetches from ENTRY; HALT stops issue; STEP lets a halted core
issue one word; PUSH queues the command words while the queue has a place and holds them while it has none (R59, R201, R202, R434, R436). -/
def Obligations.CoreControls : Prop :=
  ∀ (s : State) (core entry ctx : Nat) (id : BitVec 12), s.canonical = true → s.executes core = true →
    let p := s.phys core
    let c := s.core p
    let push : LdgItem := .cmd (c.reg 0x160) (c.reg 0x168) none (c.iss.count + 1) c.aheadNow
    s.takes id = true → (F.corCtl_halt.base, 0) ∉ c.cyc.moved → (F.dbgCoreCtl_step.base, 0) ∉ c.cyc.moved →
    (c.flag F.corCtl_stopped = true → c.flag F.corCtl_faulted = false → c.flag F.corCtl_start = false → entry < 2 ^ 20 → entry % 4 = 0 → ctx < 1024 →
      s.railHeld = false → ∃ t, Machine.exec (.start core id entry ctx) s = .next t ∧
      s.wroteCore p { t with ctxWashed := s.ctxWashed } ∧ t.ctxWashed = eraseNat s.ctxWashed ctx ∧ c.onlyRegs { t.core p with fetchWin := c.fetchWin } ∧
        (t.core p).get F.corCtl_entry = entry ∧ (t.core p).get F.corCtl_ctx = ctx ∧ (t.core p).flag F.corCtl_stopped = false ∧
        (t.core p).iss.off = entry ∧ (t.core p).iss.running = true ∧ (t.core p).iss.stopping = false ∧ (t.core p).fetchWin = [] ∧
        (t.core p).flag F.corCtl_halt = c.flag F.corCtl_halt) ∧
    (c.get F.corCtl_entry % 4 = 0 → ∃ t, Machine.exec (.halt core id) s = .next t ∧ s.wroteCore p t ∧ (t.core p).flag F.corCtl_halt = true ∧
      (t.core p).issueOff = true ∧ (c.flag F.corCtl_halt = false → c.flag F.corCtl_stopped = false → (t.core p).get F.dbgCoreCtl_cause = 1) ∧
      (∀ k, k ≠ 0x8 → k ≠ 0xc00 → (t.core p).reg k = c.reg k) ∧ { t.core p with regs := c.regs, cyc := c.cyc } = c) ∧
    (c.issueOff = true → c.flag F.corCtl_stopped = false → c.iss.stepOne = false → ∃ t, Machine.exec (.step core id) s = .next t ∧ s.wroteCore p t ∧
      (t.core p).iss = { c.iss with stepOne := true } ∧ c.onlyRegs (t.core p) ∧ (t.core p).flag F.dbgCoreCtl_bpHit = c.flag F.dbgCoreCtl_bpHit) ∧
    (c.flag F.ldgEngPush_push = false → c.pushHeld = none → ∃ t, Machine.exec (.ldgEngPush core id) s = .next t ∧ s.wroteCore p t ∧
      (c.ldgQ.length < 8 → (t.core p).ldgQ = c.ldgQ ++ [push] ∧ (t.core p).pushHeld = none ∧ (t.core p).flag F.ldgEngPush_push = false) ∧
      (8 ≤ c.ldgQ.length → (t.core p).ldgQ = c.ldgQ ∧ (t.core p).pushHeld = some (c.reg 0x160, c.reg 0x168) ∧
        (t.core p).flag F.ldgEngPush_push = true) ∧ (t.core p).basin = c.basin ∧ (t.core p).iss = c.iss)

/-- A wash clears basin, tags, coves, register files, accumulator and queues of the core at once, stops and unfaults it, leaves its plan
memory, and ends 2,049 ticks later, when DONE sets, GO clears and the wash is counted (R68, R69). -/
def Obligations.WashClears : Prop :=
  ∀ (s : State) (core e : Nat) (id : BitVec 12), s.canonical = true →
    let p := s.phys core
    let c := s.core p
    (s.executes core = true → s.takes id = true → c.flag F.ldgWash_go = false → ∃ t, Machine.exec (.washStart core id) s = .next t ∧
      (t.core p).basin = [] ∧ (t.core p).tags = [] ∧ (t.core p).poison = [] ∧ (t.core p).xregs = [] ∧ (t.core p).vregs = [] ∧ (t.core p).acc = [] ∧
      (t.core p).sstore = [] ∧ (t.core p).desc = [] ∧ (t.core p).route = [] ∧ (t.core p).params = [] ∧ (t.core p).ldgQ = [] ∧
      (∀ n, n < 32 → (t.core p).flag F.coveCfg_enable n = false ∧ (t.core p).flag F.coveCfg_lock n = false) ∧
      (t.core p).flag F.corCtl_stopped = true ∧ (t.core p).flag F.corCtl_faulted = false ∧ (t.core p).iss.running = false ∧
      (t.core p).washEnd = some (s.now + 2049) ∧ (t.core p).flag F.ldgWash_go = true ∧ (t.core p).plan = c.plan ∧ t.tier = s.tier) ∧
    (core < 1280 → c.washEnd = some e → e ≤ s.now → s.dbg.busy = none → ∃ t, Machine.exec (.washDone core) s = .next t ∧
      s.onlyCore p t ∧ (t.core p).washEnd = none ∧ (t.core p).flag F.ldgWash_done = true ∧ (t.core p).flag F.ldgWash_go = false ∧
      (t.core p).get F.ldgWash_washCount = (c.get F.ldgWash_washCount + 1) % 2 ^ 32 ∧ c.onlyRegs { t.core p with washEnd := c.washEnd })

/-! ## Harbour windows -/

/-- A window opens over slots of an enabled cove, with GRANT_PTR at FIRST, and grants the free slots from there on; granting no sooner
than 64 ns after its last message, if it has sent one, it grants only free slots that are not granted, and tells its sender; CLOSE_GO stops it and
sends REVOKE; REVOKE_ACK ends it (R102, R294, R295). -/
def Obligations.WindowsGrant : Prop :=
  ∀ (s : State) (win : Nat) (id : BitVec 12), s.canonical = true → Sparse.wf (fun _ => (⟨[], 0, false⟩ : Window)) s.wins = true → win < 4096 →
    let w := s.window win
    let v := s.winCove win
    let pos := s.get F.hbrWinCfg_sendPos win
    let core := s.get F.hbrWinCfg_sendCore win
    let free := fun (i : Nat) => ((s.winCore win).tag v i).free
    let grants := fun (t : State) (old : List Nat) => ∃ slots, (t.window win).granted = old ++ slots ∧ slots.length ≤ (s.win win).count ∧
      (∀ i ∈ slots, free i = true ∧ i ∉ old) ∧ (t.window win).closing = false ∧ t.cores = s.cores ∧
      (slots ≠ [] → t.msgs = s.msgs ++ [⟨.grant pos win (slots.headD 0) slots.length, core, none⟩] ∧ (t.window win).lastGrant = s.now + 1)
    (s.takes id = true → s.mayOpen win = true → s.flag F.hbrWinCtl_openGo win = false → s.flag F.hbrWinCtl_closeGo win = false → pos = s.hall →
      ∃ t, Machine.exec (.openGo win id) s = .next t ∧ t.flag F.hbrWinCtl_open win = true ∧ grants t [] ∧
        (free (s.win win).first = false → t.get F.hbrWinStat_grantPtr win = (s.win win).first ∧ t.msgs = s.msgs)) ∧
    (s.flag F.hbrWinCtl_open win = true → w.closing = false → (w.lastGrant = 0 ∨ w.lastGrant + 63 ≤ s.now) → pos = s.hall → ∃ t,
      Machine.exec (.harbourGrant win) s = .next t ∧ grants t w.granted ∧
      (free (s.get F.hbrWinStat_grantPtr win) = true → s.get F.hbrWinStat_grantPtr win ∉ w.granted → 0 < (s.win win).count →
        t.get F.hbrWinStat_granted win = (t.window win).granted.length % 8192 ∧ w.granted.length < (t.window win).granted.length) ∧
      ∀ n, n ≠ win → Sparse.get ⟨[], 0, false⟩ t.wins n = s.window n) ∧
    (s.takes id = true → s.flag F.hbrWinCtl_open win = true → s.flag F.hbrWinCtl_openGo win = false → s.flag F.hbrWinCtl_closeGo win = false →
      w.closing = false → pos = s.hall → ∃ t, Machine.exec (.closeGo win id) s = .next t ∧ t.window win = { w with closing := true } ∧
        t.flag F.hbrWinCtl_open win = true ∧ t.flag F.hbrWinCtl_closeGo win = true ∧
        t.msgs = s.msgs ++ [⟨.reply pos s.hall core win 2 0 false 0, core, none⟩] ∧ t.cores = s.cores) ∧
    (w.closing = true → ∃ t, Machine.exec (.revokeAck win) s = .next t ∧ t.flag F.hbrWinCtl_open win = false ∧
      t.flag F.hbrWinCtl_closeGo win = false ∧ t.window win = ⟨[], 0, false⟩ ∧ t.get F.hbrWinStat_granted win = 0 ∧ t.cores = s.cores)

/-- A grant joins the credit of the route that names its window; a revocation takes that credit away, at once where no landing on it has
still to leave, and is acknowledged; DENIED faults the sending core; a stale role and a discard are told the lead pilot, behind the notices of earlier ticks
(R103, R105, R295, R298, R342). -/
def Obligations.SendersTold : Prop :=
  ∀ (s : State) (core win first count e cid srcPos found : Nat) (dropped : Bool) (m : Msg) (w : WordCtx), s.canonical = true → core < 1280 →
    let p := s.phys core
    let c := s.core p
    let cr := c.credit e
    let told := fun (t : State) (n : Notice) => (∃ l, t.notices = Sparse.set [] s.notices 80 l ∧ l.Perm (Sparse.get [] s.notices 80 ++ [n]) ∧
      (s.freshNotices 80 = 0 → l = Sparse.get [] s.notices 80 ++ [n])) ∧ t.cores = s.cores ∧ t.msgs = []
    (s.msgs = [] → c.routeTo s.hall win = some e →
      (∃ t, Machine.exec (.grantReceive core s.hall win first count) s = .next t ∧ s.onlyCore p t ∧
        (t.core p).route = (c.setCredit e (if cr.2 = 0 then first else cr.1) (cr.2 + count)).route ∧
        { t.core p with route := c.route, cyc := c.cyc } = c) ∧
      (s.revokes = [] → s.landingLeaves core s.hall win = false → ∃ t, Machine.exec (.revoke core s.hall win) s = .next t ∧
        (t.core p).route = (c.setCredit e cr.1 0).route ∧ t.msgs = [⟨.reply s.hall s.hall core win 3 0 false 0, core, none⟩] ∧ t.revokes = [] ∧
        { t.core p with route := c.route, cyc := c.cyc } = c) ∧
      (s.revokes = [] → s.landingLeaves core s.hall win = true → ∃ t, Machine.exec (.revoke core s.hall win) s = .next t ∧
        { t with revokes := [] } = s ∧ t.revokes = [(core, s.hall, win)])) ∧
    (s.msgs = [m] → isReply m core 1 cid = true → m.w = some w → c.faultOpen = true →
      ∃ t, Machine.exec (.denied core cid) s = .next t ∧ t.msgs = [] ∧ (t.core p).faultIs clsDenied 10 w.tag ∧ (t.core p).basin = c.basin ∧
        (t.core p).tags = c.tags ∧ ∀ k, k ≠ p → t.core k = s.core k) ∧
    (s.msgs = [] →
      (∃ t, Machine.exec (.roleStale core cid srcPos win found dropped) s = .next t ∧ told t ⟨6, core, 0, s.now, win, cid, srcPos⟩ ∧
        t.get F.hbrStat_stale = min (2 ^ 32 - 1) (s.get F.hbrStat_stale + 1)) ∧
      (∃ t, Machine.exec (.discard core cid srcPos) s = .next t ∧ told t ⟨7, core, 0, s.now, 0, cid, srcPos⟩ ∧ t.regs = s.regs))

/-! ## Flits and consignments -/

/-- A flit alone at a pass, whose class may take its link, goes on along X before Y, one pass in two ticks, and at its destination's pass
over the core link to the core, where the first flit has passed its checks (R239, R247, R263, R278). -/
def Obligations.FlitsForward : Prop :=
  ∀ (s : State) (f : Flit) (q : Consign) (d : Nat) (dst : Dest), s.canonical = true → s.flits = [f] → s.conss = [q] → f.cons = q.id → edgeOf q = none →
    f.dests = [d] → q.dests = [dst] → dst.core = d → dst.dropped = false → dst.committed = false → s.revokes = [] → f.atCore = false → f.out = false →
    f.ready ≤ s.now → f.inPort < 6 → d < 1280 → s.sel F.prtCtl_enable = 0 →
    let l := linkTowards f.x f.y (coreX d) (coreY d)
    Sparse.get 0 s.linkUse (linkKey f.x f.y l) ≠ s.now + 1 →
    (q.elastic = true ∨ s.planAllows (s.passPlan f.x f.y) [] (streamKey (linkKey f.x f.y l) q.stream) q.stream l s.now false = true) → (l = 4 → dst.passed = true) →
    ∃ t g, Machine.exec (.flitRelease q.id f.seq) s = .next t ∧ t.flits = [g] ∧ t.conss = [q] ∧ t.cores = s.cores ∧ t.regs = s.regs ∧
      g.cons = f.cons ∧ g.seq = f.seq ∧ g.chunks = f.chunks ∧ g.dests = [d] ∧ g.last = f.last ∧
      (f.x < coreX d → g.x = f.x + 1 ∧ g.y = f.y ∧ g.inPort = 3) ∧ (coreX d < f.x → g.x = f.x - 1 ∧ g.y = f.y ∧ g.inPort = 2) ∧
      (f.x = coreX d → coreY d < f.y → g.x = f.x ∧ g.y = f.y - 1) ∧ (f.x = coreX d → f.y < coreY d → g.x = f.x ∧ g.y = f.y + 1) ∧
      (l ≠ 4 → g.atCore = false ∧ g.ready = s.now + 2) ∧
      (l = 4 → g.atCore = true ∧ g.x = f.x ∧ g.y = f.y ∧ g.ready = s.now + s.coreLink d)

/-- At its destination's pass a consignment of this plain passes; one that touches a cove of another owner is dropped, and faults its
sender; a landing in a window of a stale role is diverted, and one that its window does not take is denied and counted
(R286, R296, R297, R298). -/
def Obligations.FirstFlitChecked : Prop :=
  ∀ (s : State) (q : Consign) (d : Dest), s.canonical = true → s.conss = [q] → q.dests = [d] → d.core < 1280 → d.passed = false → d.dropped = false →
    d.committed = false → d.claimed = [] → d.wslots = [] → s.firstThere q.id d.core = true → s.fromOldStep q d.core = false → q.port = none → q.via = none →
    let c := s.core (s.phys d.core)
    let src := s.phys q.srcCore
    let run := Machine.exec (.consignmentFirstFlit q.id d.core) s
    let passes := fun (t : State) => { t with conss := s.conss } = s ∧ t.conss = [{ q with dests := [{ d with passed := true }] }]
    (q.kind ≠ 3 → c.foreignLanding q.ctx q.lands = none → ∃ t, run = .next t ∧ passes t) ∧
    (∀ a, q.kind ≠ 3 → c.foreignLanding q.ctx q.lands = some a → (s.core src).faultOpen = true → s.flits.all (fun f => f.cons == q.id && f.dests == [d.core]) = true →
      ∃ t, run = .next t ∧ t.conss = [] ∧ t.flits = [] ∧ (t.core src).faultIs clsBounds 10 q.w.tag ∧ (t.core src).basin = (s.core src).basin) ∧
    (q.kind = 3 → s.epochSeen d.core ≠ q.epoch → ∃ t, run = .next t ∧ { t with conss := s.conss } = s ∧
      t.conss = [{ q with dests := [{ d with passed := true }], diverted := true, firstAt := s.now }]) ∧
    (q.kind = 3 → s.epochSeen d.core = q.epoch → s.windowTakes q = false → q.srcPos = s.hall → ∃ t, run = .next t ∧
      t.get F.hbrStat_denied = min 65535 (s.get F.hbrStat_denied + 1) ∧ (∀ k, { t.core k with waits := (s.core k).waits } = s.core k) ∧
      t.msgs = s.msgs ++ [⟨.reply s.hall s.hall q.srcCore q.win 1 0 false q.cid, q.srcCore, some q.w⟩]) ∧
    (q.kind = 3 → s.epochSeen d.core = q.epoch → s.windowTakes q = true → c.get F.coveCfg_owner (s.winCove q.win).n = q.ctx → ∃ t, run = .next t ∧ passes t)

/-- A flit lands its chunks: in untagged memory they are stored, and a chunk that is a free slot the consignment names is claimed for it
too; flits land in their order; two cycles after the last has landed, the commit makes every slot it claimed FLOOD with its stamp
(R79, R87, R241, R242, R287). -/
def Obligations.ConsignmentsLand : Prop :=
  ∀ (s : State) (q : Consign) (d : Dest) (f : Flit) (bs : List Byte) (bad : Bool), s.canonical = true → s.conss = [q] → q.dests = [d] → d.core < 1280 →
    d.passed = true → d.dropped = false → d.committed = false → q.diverted = false → q.port = none → q.kind ≠ 3 →
    let p := s.phys d.core
    let c := s.core p
    let a := s.landChunk q (2 * f.seq)
    let landed := { q with dests := [{ d with landed := insertNat d.landed f.seq, landedAt := s.now }], flits := if f.last then some (f.seq + 1) else q.flits }
    (s.flits = [f] → f.cons = q.id → f.atCore = true → f.dests = [d.core] → f.ready ≤ s.now → f.chunks = [(bs, bad)] → bs.length = 64 → a % 64 = 0 →
      c.washEnd = none → c.isolated = false → c.windowAt a = none → c.foldPending a = false → c.folded a = false →
      s.banksFree p 4 = true → (∀ k, k < f.seq → k ∈ d.landed) →
      (c.coveAt a = none → ∃ t, Machine.exec (.flitLand q.id d.core f.seq) s = .next t ∧ t.flits = [] ∧ t.conss = [landed] ∧
        (t.core p).peek a 64 = bs ∧ (t.core p).poisoned a = bad ∧ (t.core p).tags = c.tags ∧
        ∀ k, k < a ∨ a + 64 ≤ k → (t.core p).peek k 1 = c.peek k 1) ∧
      (∀ x, c.slotsOf [a] = [x] → c.consNamed q = [x] → s.inWindow d.core x = false → c.held x.1 = false → (c.tag x.1 x.2).free = true →
        (c.tagSeen x.1 x.2).free = true →
        c.windowSlot x = false → d.claimed = [] → ∃ t, Machine.exec (.flitLand q.id d.core f.seq) s = .next t ∧ t.flits = [] ∧ (t.core p).peek a 64 = bs ∧
        ((t.core p).tag x.1 x.2).state = 1 ∧ ((t.core p).tag x.1 x.2).claimant = some (consProducer q) ∧
        (t.conss.flatMap (fun y => y.dests)).flatMap (fun y => y.claimed) = [(x.1.n, x.2, c.tag x.1 x.2)])) ∧
    (s.flits = [] → allLanded q d = true → d.landedAt + 2 ≤ s.now → (∀ x ∈ d.claimed, c.held (c.cove x.1) = false) → s.untouched c q d = [] → ∃ t, Machine.exec (.consignmentCommit q.id d.core) s = .next t ∧ t.conss = [] ∧
      (∀ x ∈ d.claimed, (c.tag (c.cove x.1) x.2.1).claimant = some (consProducer q) → (c.tag (c.cove x.1) x.2.1).state = 1 →
        ((t.core p).tag (c.cove x.1) x.2.1).state = 2 ∧ ((t.core p).tag (c.cove x.1) x.2.1).stamp = q.w.stamp) ∧
      (d.claimed = [] → (t.core p).tags = c.tags) ∧ (t.core p).basin = c.basin)

/-! ## Straits -/

/-- A link that is down trains when ENABLE is written 1; training and lock take it to EXCHANGE, the records to MEASURE, where it carries
elastic traffic, and a VALID measurement to UP, where it carries scheduled traffic if it fits, matched and the plain is aligned; a state
that exceeds its limit trains again. A link goes down on 64 unlocked blocks in a row or more than 16 bad codewords in a millisecond, and
on RETRAIN, which trains it again: it carries nothing more, its measurement is void, and DOWNS counts; a loss that cut an armed bay's
traffic faults the bay's lowest core with LINK_LOST and fences the bay (R289 to R293, R288, R293, R313). -/
def Obligations.LinksMove : Prop :=
  (∀ (s : State) (port : Nat) (id : BitVec 12) (value : Reg64) (loss margin : BitVec 16) (r : CapRecord), s.canonical = true →
      Sparse.wf (fun _ => Link.down) s.links = true → port < 48 →
      let l := s.link port
      let nowIn := fun (t : State) (n : Nat) => t.linkState port = n ∧ t.cores = s.cores ∧ t.now = s.now
      (s.takes id = true → s.linkState port = 0 → s.loader.outputs = true → bit value.toNat 63 = true → s.flag F.strCfg_retrain port = false →
        ∃ t, Machine.exec (.linkEnable port id value) s = .next t ∧ nowIn t 1 ∧ t.flag F.strCfg_enable port = true ∧
          t.get F.strCfg_expPos port = field value 10 0 ∧ (t.link port).since = s.now) ∧
      (s.linkState port = 1 → ∃ t, Machine.exec (.linkTrainDone port loss margin) s = .next t ∧ nowIn t 2 ∧ t.link port = { l with since := s.now }) ∧
      (s.linkState port = 2 → ∃ t, Machine.exec (.linkLockDone port) s = .next t ∧ nowIn t 3 ∧ (t.link port).acked = false ∧ (t.link port).got = false ∧
        (t.link port).recordAt = none) ∧
      (s.linkState port = 3 → l.acked = false → l.recordAt.all (fun x => decide (x + 16000 ≤ s.now)) = true →
        ∃ t, Machine.exec (.capabilityRecordSend port) s = .next t ∧ nowIn t (if l.got then 4 else 3) ∧ (t.link port).record = some (s.ownRecord port) ∧
          (t.link port).recordAt = some s.now ∧ (l.got = true → t.flag F.strStat_elasticOk port = true ∧ (t.link port).acked = true)) ∧
      (s.linkState port = 3 → ∃ t, Machine.exec (.capabilityRecordReceive port r) s = .next t ∧ nowIn t (if l.recordAt.isSome then 4 else 3) ∧
        t.reg (F.strPart_class.addr port) = r.part ∧ (t.link port).got = true ∧ (t.link port).matched = (s.identity port r).isSome ∧
        (s.identity port r = none → t.get F.strStat_lastEvent port = 4) ∧ (s.identity port r = some true → t.flag F.strStat_newDie port = true)) ∧
      (s.linkState port = 4 → s.flag F.tidLink_valid port = true → ∃ t, Machine.exec (.linkUp port) s = .next t ∧ nowIn t 5 ∧
        t.flag F.strStat_schedOk port = (s.flag F.tidLink_fit port && l.matched && s.flag F.tidStat_aligned && !s.flag F.tidStat_ahead) ∧
        (s.flag F.tidLink_fit port = false → t.get F.strStat_lastEvent port = 3)) ∧
      (s.linkState port = 1 → l.since + 500000000 ≤ s.now → ∃ t, Machine.exec (.linkStateTimeout port) s = .next t ∧ nowIn t 1 ∧
        t.get F.strStat_downs port = min 65535 (s.get F.strStat_downs port + 1) ∧ (t.link port).since = s.now) ∧
      (s.linkState port = 2 ∨ s.linkState port = 3 → l.since + 1000000 ≤ s.now → ∃ t, Machine.exec (.linkStateTimeout port) s = .next t ∧ nowIn t 1 ∧
        t.get F.strStat_downs port = s.get F.strStat_downs port)) ∧
  (∀ (s : State) (port cause b core : Nat) (id : BitVec 12), s.canonical = true → Sparse.wf (fun _ => Link.down) s.links = true →
      Sparse.wf (fun _ => BayRun.idle) s.bays = true → port < 48 →
      let l := s.link port
      let down := fun (t : State) (st : Nat) => t.linkState port = st ∧ t.flag F.strStat_elasticOk port = false ∧ t.flag F.strStat_schedOk port = false ∧
        t.flag F.tidLink_valid port = false ∧ t.flag F.tidLink_fit port = false ∧ t.get F.strStat_downs port = min 65535 (s.get F.strStat_downs port + 1) ∧
        (t.link port).beacons = [] ∧ l.lost <+: (t.link port).lost
      (s.linkState port ≠ 0 → cause = 2 ∧ 64 ≤ l.badRun ∨ cause = 6 ∧ 16 < ((l.badWords.filter (fun x => decide (s.now < x.1 + 1000000))).map (fun x => x.2)).sum →
        ∃ t, Machine.exec (.linkDown port cause) s = .next t ∧ down t (b2n (s.flag F.strCfg_enable port)) ∧ t.get F.strStat_lastEvent port = cause) ∧
      (s.takes id = true → s.linkState port ≠ 0 → s.flag F.strCfg_enable port = true → s.flag F.strCfg_retrain port = false →
        ∃ t, Machine.exec (.retrain port id) s = .next t ∧ down t 1) ∧
      (l.lost = [(b, core)] → b < 80 → core < 1280 → s.armed b = true → (s.core (s.phys core)).flag F.corCtl_faulted = false →
        ∃ t, Machine.exec (.linkLost port) s = .next t ∧ (t.core (s.phys core)).flag F.corCtl_faulted = true ∧
          (t.core (s.phys core)).get F.corFault_class = 12 ∧ (t.core (s.phys core)).get F.corFault_tag = (s.core (s.phys core)).iss.tag.toNat ∧
          (t.bay b).fenced = true ∧ (t.link port).lost = [] ∧ s.fresh < t.fresh))

/-- At every 32nd tick a locked port sends a block: what control messages wait go first where there are no flits, the armed groups are
announced, and a timestamped beacon goes every 4,096 ns; of an arriving block the bad run and codewords are counted, a flit of an open lane is released at its tick and the HOP_NS it
was sent under later at the strait's pass, and one of no lane is counted as misrouted (R248, R249, R289). -/
def Obligations.BlocksCross : Prop :=
  ∀ (s : State) (port : Nat) (b : StraitBlock), s.canonical = true → Sparse.wf (fun _ => Link.down) s.links = true → port < 48 →
    let l := s.link port
    let due := l.beaconAt.all (fun x => decide (x + 4096 ≤ s.now))
    (s.now % 32 = 0 → 2 ≤ s.linkState port → s.flits = [] → s.revokes = [] → ∃ t k, Machine.exec (.straitBlockSend port) s = .next t ∧
      (t.link port).sent = some ⟨s.now, k, l.beacons ++ [.armed s.armedGroups] ++
        (if due then [.measure s.now (s.flag F.tidStat_aligned) (s.flag F.tidCfg_root) (s.get F.tidStat_depth)] else []), 0, true⟩ ∧
      (t.link port).beaconAt = (if due then some s.now else l.beaconAt) ∧ k.length = 25 ∧ (t.link port).beacons = [] ∧ t.cores = s.cores ∧
      (s.flag F.strStat_elasticOk port = false → k = List.replicate 25 (.empty, false) ∧ (t.link port).control = l.control) ∧
      (s.flag F.strStat_elasticOk port = true → k.map (fun x => x.1) = (l.control ++ List.replicate 25 StraitSlot.empty).take 25 ∧ (t.link port).control = l.control.drop 25)) ∧
    (2 ≤ s.linkState port → (s.flag F.strStat_elasticOk port = false ∨ b.slots = []) → ∃ t, Machine.exec (.straitBlockReceive port b) s = .next t ∧
      (t.link port).badRun = (if b.locked then 0 else l.badRun + 1) ∧ t.get F.strStat_fecUe port = min 65535 (s.get F.strStat_fecUe port + b.badCodewords) ∧
      t.flits = s.flits ∧ t.conss = s.conss ∧ t.cores = s.cores) ∧
    (∀ lane seq last chunks bad, 2 ≤ s.linkState port → s.flag F.strStat_elasticOk port = true → b.slots = [(.data lane seq last chunks, bad)] →
      (∀ n q, Sparse.get 0 l.lanesIn lane = n + 1 → s.cons n = some q → q.elastic = true → ∃ t, Machine.exec (.straitBlockReceive port b) s = .next t ∧
        t.flits = s.flits ++ [⟨n, seq, last, chunks.map (fun c => (c, bad)), straitX port, straitY port, 5, q.dests.map (fun d => d.core),
          b.tick + s.hopAt port b.tick, false, false, false⟩] ∧ t.cores = s.cores ∧ t.conss = s.conss ∧
        (l.hops = [] → s.hopAt port b.tick = s.get F.tidLink_hopNs port)) ∧
      (Sparse.get 0 l.lanesIn lane = 0 → ∃ t, Machine.exec (.straitBlockReceive port b) s = .next t ∧ t.flits = s.flits ∧
        t.get F.strStat_misroute port = min 65535 (s.get F.strStat_misroute port + 1)))

/-- A beacon exchange of a link in MEASURE writes the mean of the last 256 round trips, which is VALID from the 256th exchange on, and whether it
fits the hop delay; over the parent's link the plain becomes aligned after 1,024 exchanges whose mean offset is within 50 ps, with an error of
at most 400 ps; it jumps forward where it lags by more than 300 ps and no bay is armed, shows AHEAD where it leads by more, and is no
longer aligned then, nor while its parent is not aligned itself (R249, R250, R252, R253). -/
def Obligations.BeaconsAlign : Prop :=
  ∀ (s : State) (port depth : Nat) (t1 t2 t3 t4 : Int) (ok : Bool), s.canonical = true → Sparse.wf (fun _ => Link.down) s.links = true → port < 48 →
    let l := s.link port
    let off := ((t2 - t1) - (t4 - t3)) / 2
    let rtts := (l.rtts ++ [(t4 - t1) - (t3 - t2)]).drop (l.rtts.length + 1 - 256)
    let offs := (l.offsets ++ [off]).drop (l.offsets.length + 1 - 256)
    let steers := (l.steers ++ [off]).drop (l.steers.length + 1 - 1024)
    let valid := decide (256 ≤ l.exchanges + 1)
    let parent := !s.flag F.tidCfg_root && s.get F.tidCfg_parent == port
    let follows := parent = true ∧ valid = true ∧ s.flag F.tidStat_ahead = false
    s.linkState port = 4 → ∃ t, Machine.exec (.beaconExchange port t1 t2 t3 t4 ok depth) s = .next t ∧ t.cores = s.cores ∧
      t.get F.tidLink_rttPs port = min (2 ^ 22 - 1) (meanOf rtts).toNat ∧ t.flag F.tidLink_valid port = valid ∧
      t.flag F.tidLink_fit port = (valid && fitsHop (meanOf rtts).toNat (s.get F.tidLink_hopNs port) && !l.late) ∧ (t.link port).rtts = rtts ∧
      (s.flag F.tidCfg_root = false → parent = false → t.now = s.now ∧ t.flag F.tidStat_aligned = s.flag F.tidStat_aligned) ∧
      (follows → ok = true → (meanOf offs).natAbs ≤ 300 → steers.length = 1024 → (meanOf steers).natAbs < 50 → s.flag F.tidStat_aligned = false →
        t.flag F.tidStat_aligned = true ∧ t.flag F.tidStat_slew = false ∧ t.get F.tidStat_errPs ≤ 400 ∧ t.get F.tidStat_depth = (depth + 1) % 256 ∧
        t.now = s.now) ∧
      (follows → ok = true → 300 < meanOf offs → s.anyArmed = false →
        t.now = (s.now + ((meanOf offs + 500) / 1000).toNat) % 2 ^ 64 ∧ t.flag F.tidStat_slew = true ∧ t.flag F.tidStat_aligned = false) ∧
      (follows → ok = true → meanOf offs < -300 → t.flag F.tidStat_ahead = true ∧ t.flag F.tidStat_aligned = false ∧ t.now = s.now) ∧
      (follows → 300 < (meanOf offs).natAbs → t.flag F.tidStat_aligned = false)

/-! ## Tier ports -/

/-- A tier port issues its only request once it has come over the passes: a read samples the tier and its reply sets out for the core, a
write keeps its bytes; the reply's chunks land once they have come back, those reported
uncorrectable poisoned; a write that is acknowledged becomes visible, and no other byte of the tier changes (R23, R247, R299 to R301). -/
def Obligations.TierRequests : Prop :=
  ∀ (s : State) (q : TierReq) (x : ExecItem) (rest : List ExecItem), s.canonical = true → s.reqs = [q] →
    let c := s.core q.place
    let n := q.land.length * 64
    let pieces := q.land.zipIdx.map (fun x => Piece.mk x.1 ((q.bytes.drop (x.2 * 64)).take 64))
    (q.issued = none → reqSize q ≤ 512 → q.bay ≤ 80 → s.sel F.prtCtl_enable = 0 →
      (∀ f ∈ s.flits, f.cons = q.id → f.out = true ∧ f.ready ≤ s.now) →
      (q.write = true → ∀ far, far = isFar q.addr → (if far then s.linkAccepts (tierPort q.addr / 8) true = true else Sparse.get 0 s.nearAt (tierPort q.addr) ≠ s.now + 1) →
        ∃ t, Machine.exec (.tierRequestIssue (tierPort q.addr) far) s = .next t ∧ t.reqs = [{ q with issued := some s.now, due := s.now }] ∧
          t.tier = s.tier ∧ t.cores = s.cores) ∧
      (q.write = false → ∀ far, far = isFar q.addr → (if far then s.linkAccepts (tierPort q.addr / 8) false = true else Sparse.get 0 s.nearAt (tierPort q.addr) ≠ s.now + 1) →
        ∃ t, Machine.exec (.tierRequestIssue (tierPort q.addr) far) s = .next t ∧ t.tier = s.tier ∧ t.cores = s.cores ∧
          (∀ f ∈ t.flits, f.cons = q.id → s.now + 2 ≤ f.ready ∧ f.dests = [q.core]) ∧ t.reqs = [{ q with
            issued := some s.now
            due := s.now
            bytes := s.tierRead q.addr n
            marked := s.tierPoison.filter (fun k => decide (q.addr / 64 ≤ k) && decide (k < (q.addr + n) / 64)) }])) ∧
    (q.issued.isSome = true → q.due ≤ s.now → q.write = true → ∃ t, Machine.exec (.tierWriteAck q.id) s = .next t ∧ t.reqs = [] ∧
      t.tierRead q.addr q.bytes.length = q.bytes ∧ (∀ a, a < q.addr ∨ q.addr + q.bytes.length ≤ a → t.tierRead a 1 = s.tierRead a 1) ∧ t.cores = s.cores) ∧
    (∀ ue a, q.issued.isSome = true → q.due ≤ s.now → q.write = false → c.exec = x :: rest → x.w = q.w → x.op = .tload a → x.pend = [] → x.bad = [] → x.posts = [] →
      q.w.post = false → q.bytes.length = n → q.marked = [] → s.answered q.id = true → s.roomFor q.place (4 * pieces.length) = true → c.writesOpen pieces = true → q.land.all (fun y => decide (y % 64 = 0)) = true →
      ∃ t, Machine.exec (.tierReadReply q.id ue) s = .next t ∧ t.reqs = [] ∧ (∀ y ∈ pieces, (t.core q.place).peek y.addr y.bytes.length = y.bytes) ∧
        (∀ y ∈ q.land.zipIdx, (t.core q.place).poisoned y.1 = decide (q.addr / 64 + y.2 ∈ ue)) ∧
        (t.core q.place).tags = c.tags ∧ ∀ k, k ≠ q.place → t.core k = s.core k)

/-! ## The schedule -/

/-- A write of ARM 1 with a step of at least two frames and a start at least two frames ahead arms the bay, with no step begun and STEP_NO
0; one of ARM 0 in a bay whose cores are all stopped ends its grid. A step that may start does: START and STEP_NO go on, a change of
STEP_FRAMES or FTAB_BASE written at least a frame before applies, the fence copy
holds every core of the bay, no slot of an enabled cove stays retained, and every core at its fence mark may issue it, unless the bay
drains; at a frame end a bay that was charged more than the frame's UNITS counts OVERPLAN (R255, R98, R260, R275). -/
def Obligations.GridsStep : Prop :=
  (∀ (s : State) (b : Nat) (id : BitVec 12) (value : Reg64), s.canonical = true → Sparse.wf (fun _ => BayRun.idle) s.bays = true → b < 80 → s.takes id = true → F.tidSched_arm.addr b ∉ s.cyc.moved →
      (s.armed b = false → s.mayArm b value = true → ∃ t, Machine.exec (.schedArm b id value) s = .next t ∧ t.armed b = true ∧
        t.get F.tidSched_stepFrames b = field value 15 0 ∧ t.get F.tidSched_frameLog2 b = field value 19 16 ∧ t.groupOf b = field value 47 32 ∧
        (t.bay b).frames = field value 15 0 ∧ (t.bay b).base = field value 60 48 ∧ (t.bay b).started = false ∧ (t.bay b).writes = [] ∧
        t.stepOf b = 0 ∧ t.flag F.tidStep_replay b = false ∧ t.stepStartAt b = s.stepStartAt b ∧ t.cores = s.cores) ∧
      (s.armed b = true → s.bayStopped b = true → s.flag F.tidStep_halted b = false → ∃ t, Machine.exec (.schedDisarm b id) s = .next t ∧
        t.armed b = false ∧ (t.bay b).started = false ∧ (t.bay b).breached = false ∧ t.get F.tidSched_stepFrames b = s.get F.tidSched_stepFrames b ∧
        t.cores = s.cores)) ∧
  (∀ (s : State) (b : Nat), s.canonical = true → Sparse.wf (fun _ => BayRun.idle) s.bays = true → b < 80 →
      let y := s.bay b
      let charge := (s.bayShoals b).foldl (fun m k => m + Sparse.get 0 s.gov.spent k) 0
      let units := field (Sparse.get 0 s.ftab ((y.base + y.frame) % 8192)) 31 0
      (s.mayStart b = true → ∃ t, Machine.exec (.stepStart b) s = .next t ∧ t.stepStartAt b = s.nextStart b % 2 ^ 64 ∧ t.stepOf b = (s.stepOf b + 1) % 2 ^ 32 ∧
        t.flag F.tidStep_replay b = false ∧ t.flag F.tidStep_guardBreach b = false ∧ (t.bay b).started = true ∧ (t.bay b).frame = 0 ∧
        (∀ w, y.writes = [w] → ((t.bay b).frames, (t.bay b).base) = if w.1 + s.frameLen b ≤ s.nextStart b then w.2 else (y.frames, y.base)) ∧
        (t.bay b).copy.map (fun x => x.1) = s.bayCores b ∧
        (∀ k ∈ s.bayCores b, (∀ v ∈ (s.core (s.phys k)).coves, ∀ i, i < v.slots → ((t.core (s.phys k)).tag v i).retained = false) ∧
          (t.core (s.phys k)).basin = (s.core (s.phys k)).basin ∧
          ((s.core (s.phys k)).iss.atFence = true → s.flag F.bayDrain_go b = false → (t.core (s.phys k)).iss.passFence = true))) ∧
      (s.armed b = true → y.started = true → y.frame < y.frames → s.stepStartAt b + (y.frame + 1) * s.frameLen b ≤ s.now → ∃ t,
        Machine.exec (.frameEnd b) s = .next t ∧ (t.bay b).frame = y.frame + 1 ∧ t.cores = s.cores ∧
        t.get F.tidStep_overplan b = min 255 (s.get F.tidStep_overplan b + b2n (decide (4 * units < charge)))))

/-- At its step limit a bay with a core short of its fence breaches: it is counted and noted, the short cores issue nothing more, and the
replay follows one frame after the step's end; in a replay of a breach the short core faults instead, also for a release that
HOLD keeps waiting; a breach beacon in the guard frame
makes a bay of the group whose cores are all at the fence breach too, and a repeat beacon holds it. At the end of a breached step the
bay abandons its operations and takes its fence copy back; at S' its replay starts, and the cores at their fence marks may issue them
(R99, R209, R265 to R268, R319). -/
def Obligations.BaysRepeat : Prop :=
  (∀ (s : State) (b : Nat), s.canonical = true → Sparse.wf (fun _ => BayRun.idle) s.bays = true → b < 80 → s.armed b = true →
      let y := s.bay b
      let short := s.shortCores b
      y.started = true → y.fenced = false →
      (y.breached = false → y.restored = false →
        (y.repeated = false → s.flag F.tidStep_halted b = false → s.stepLimitAt b ≤ s.now → short ≠ [] → s.mendFirst (s.groupOf b) (s.stepOf b) = false →
          (s.flag F.tidStep_replay b = false → ∃ t, Machine.exec (.stepLimit b) s = .next t ∧ (t.bay b).breached = true ∧
            (t.bay b).resumeAt = some (s.stepEndAt b + s.frameLen b) ∧ t.get F.tidStep_breaches b = min 65535 (s.get F.tidStep_breaches b + 1) ∧
            t.flag F.tidStep_guardBreach b = true ∧ t.get F.tidBreach_step b = s.stepOf b ∧ t.get F.tidBreach_core b ∈ short ∧
            ∀ k ∈ short, (t.core (s.phys k)).iss.running = false ∧ (t.core (s.phys k)).iss.cut = true ∧ (t.core (s.phys k)).basin = (s.core (s.phys k)).basin) ∧
          (∀ k, s.flag F.tidStep_replay b = true → s.beaconBays (s.groupOf b) (s.stepOf b) = [b] → short = [k] →
            let c := s.core (s.phys k)
            let faults := fun (unit : Nat) (tag : BitVec 24) => ∃ t, Machine.exec (.stepLimit b) s = .next t ∧ (t.bay b).repeated = true ∧
              t.flag F.tidStep_repeat b = true ∧ (t.core (s.phys k)).faultIs clsTimeout unit tag
            c.faultOpen = true → c.accesses = [] →
            (∀ w, c.waits = [w] → c.rels = [] → faults (w.unit % 16) w.w.tag) ∧
            (∀ r, c.waits = [] → c.rels = [r] → r.viaCsr = false → c.held (c.cove r.cove) = true → faults 9 r.tag))) ∧
        (short = [] → s.stepLimitAt b ≤ s.now → s.now < s.stepEndAt b → ∃ t, Machine.exec (.breachBeaconReceive (s.groupOf b) (s.stepOf b)) s = .next t ∧
          (t.bay b).breached = true ∧ (t.bay b).resumeAt = some (s.stepEndAt b + s.frameLen b) ∧ t.flag F.tidStep_guardBreach b = true ∧ t.cores = s.cores)) ∧
      (y.repeated = false → ∃ t, Machine.exec (.repeatBeaconReceive (s.groupOf b) (s.stepOf b)) s = .next t ∧ t.flag F.tidStep_halted b = true ∧
        t.flag F.tidStep_repeat b = true ∧ (t.bay b).breached = false ∧ (t.bay b).resumeAt = none)) ∧
  (∀ (s : State) (b k : Nat) (x : FenceCore) (at_ : Nat), s.canonical = true → Sparse.wf (fun _ => BayRun.idle) s.bays = true → b < 80 → s.armed b = true →
      let y := s.bay b
      let p := s.phys k
      y.fenced = false →
      (y.breached = true → y.restored = false → s.stepEndAt b ≤ s.now → y.copy = [(k, x)] → k ∈ s.bayCores b → s.conss = [] → x.preds.all (fun e => decide (e.1 ∈ predOffsets)) = true →
        Sparse.wf (fun _ => (0 : Word)) x.xregs = true → ∃ t, Machine.exec (.breachRestore b) s = .next t ∧ (t.bay b).restored = true ∧
          (t.core p).xregs = x.xregs ∧ (t.core p).iss.off = x.off ∧ (t.core p).exec = [] ∧ (t.core p).vecQ = [] ∧ (t.core p).storeQ = [] ∧ (t.core p).ldgQ = [] ∧
          (t.core p).get F.ldgLeaseAct_set = x.lease % 8 ∧ (t.core p).iss.cut = false ∧
          ((s.core p).flag F.corCtl_faulted = false → (s.core p).iss.lost = false → (t.core p).iss.atFence = x.waits ∧ (t.core p).flag F.corCtl_stopped = !x.waits) ∧
          (t.core p).basin = (s.core p).basin) ∧
      (y.restored = true → y.resumeAt = some at_ → s.railHeld = false → at_ ≤ s.now → at_ < 2 ^ 64 → ∃ t, Machine.exec (.replayStart b) s = .next t ∧
        t.stepStartAt b = at_ ∧ t.flag F.tidStep_replay b = !y.mendReplay ∧ (t.bay b).restored = false ∧ (t.bay b).breached = false ∧
        (t.bay b).resumeAt = none ∧ t.stepOf b = s.stepOf b ∧
        ∀ k ∈ s.bayCores b, (s.core (s.phys k)).iss.atFence = true → (t.core (s.phys k)).iss.passFence = true))

/-! ## Power -/

/-- Every 8 ns the governor's window moves on by a slice of 124; each shoal with held accesses gets an equal share of what the limit leaves, and a
slice without one ends the throttling; THROTTLE_REQ makes FLOOR the limit of the next slice, and its
fall makes BUDGET the limit again (R31, R270, R272, R273). -/
def Obligations.GovernorServes : Prop :=
  ∀ s : State, s.canonical = true →
    let past := (s.gov.cur :: s.gov.past).take 124
    let limit := 4 * (if s.pins.throttleReq then s.get F.tidGovCfg_floor else s.get F.tidGovCfg_budget)
    (s.now % 8 = 0 → ∃ t, Machine.exec .governorSlice s = .next t ∧ t.gov.past = past ∧ t.gov.cur = 0 ∧ t.gov.limit = limit ∧ t.gov.held = [] ∧ t.cores = s.cores ∧
      t.gov.throttling = !s.gov.held.isEmpty ∧ t.flag F.tidGovStat_throttle = !s.gov.held.isEmpty ∧ t.flag F.tidGovStat_floorAct = s.pins.throttleReq ∧
      (∀ x ∈ t.gov.deficits, x.1 ∈ s.gov.held ∧ x.2 = Sparse.get 0 s.gov.deficits x.1 + (limit - past.sum) / s.gov.held.length) ∧
      ∀ k ∈ s.gov.held, 0 < (limit - past.sum) / s.gov.held.length → ∃ x ∈ t.gov.deficits, x.1 = k) ∧
    (∃ t, Machine.exec .throttleReqRise s = .next t ∧ t.pins = { s.pins with throttleReq := true } ∧ t.flag F.tidGovStat_floorAct = true ∧
      t.govLimit = 4 * s.get F.tidGovCfg_floor ∧ { t with pins := s.pins, regs := s.regs } = s) ∧
    (∃ t, Machine.exec .throttleReqFall s = .next t ∧ t.pins = { s.pins with throttleReq := false } ∧ t.flag F.tidGovStat_floorAct = false ∧
      t.govLimit = 4 * s.get F.tidGovCfg_budget ∧ { t with pins := s.pins, regs := s.regs } = s)

/-- A rail that falls while the plain is READY stops every core that runs, holds all shoals and raises the event with the rails that fell;
LOAD_STEP rises a microsecond before the planned power rises by more than 200 W and falls two microseconds later; the tide reference's
stop sets HOLDOVER and HOLD_SEEN, and its return clears HOLDOVER alone; power-up gives every register its reset value, but for the
three bits that show signals others drive, and empties every memory but the chip's store, whatever the plain held, and the plain stays
in reset until all three rails are high; a thermal sample gives every usable shoal's sensor its byte, and a disabled one 0
(R14, R29 to R32, R426, R427). -/
def Obligations.PinsAndPower : Prop :=
  (∀ (s : State) (logic ledge strand : Bool), s.canonical = true →
      let fell := b2n (s.pins.railLogic && logic) + 2 * b2n (s.pins.railLedge && ledge) + 4 * b2n (s.pins.railStrand && strand)
      (fell ≠ 0 → s.get F.imgStat_state = 6 → ∃ t, Machine.exec (.railFault logic ledge strand) s = .next t ∧ t.railHeld = true ∧
        t.evDue = s.evDue ++ [⟨20, none, s.now, BitVec.ofNat 64 fell⟩] ∧ t.pins.railLogic = (s.pins.railLogic && !logic) ∧
        t.pins.railLedge = (s.pins.railLedge && !ledge) ∧ t.pins.railStrand = (s.pins.railStrand && !strand) ∧
        (∀ p, (s.core p).flag F.corCtl_stopped = false → (t.core p).iss.running = false ∧ (t.core p).iss.stopping = true) ∧
        ∀ p, (t.core p).basin = (s.core p).basin) ∧
      (s.power (s.now + 999) + 200 < s.power (s.now + 1000) → ∃ t, Machine.exec .loadStepAssert s = .next t ∧ t.pins.loadStep = true ∧
        t.loadStepOff = s.now + 2000 ∧ { t with pins := s.pins, loadStepOff := s.loadStepOff } = s) ∧
      (s.pins.loadStep = true → s.loadStepOff ≤ s.now → ∃ t, Machine.exec .loadStepRelease s = .next t ∧ t.pins = { s.pins with loadStep := false } ∧
        { t with pins := s.pins } = s) ∧
      (∃ t, Machine.exec .holdover s = .next t ∧ t.pins.tideRef = false ∧ t.flag F.tidStat_holdover = true ∧ t.flag F.tidStat_holdSeen = true ∧
        t.flag F.tidStat_aligned = s.flag F.tidStat_aligned ∧ { t with pins := s.pins, regs := s.regs, cyc := s.cyc } = s) ∧
      (∃ t, Machine.exec .holdoverEnd s = .next t ∧ t.pins.tideRef = true ∧ t.flag F.tidStat_holdover = false ∧
        t.flag F.tidStat_holdSeen = s.flag F.tidStat_holdSeen ∧ { t with pins := s.pins, regs := s.regs } = s)) ∧
  (∀ (s : State) (logic ledge strand : Bool) (temps : List (BitVec 8)), s.canonical = true →
      (∃ t, Machine.exec (.powerUp logic ledge strand) s = .next t ∧ t.inReset = !(logic && ledge && strand) ∧
        (∀ a, a ≠ F.tidGovStat_floorAct.base → a ≠ F.tidStat_holdover.base → t.reg a = plainReset a) ∧
        t.flag F.tidGovStat_floorAct = s.pins.throttleReq ∧ t.flag F.tidStat_holdover = !s.pins.tideRef ∧ t.flag F.tidStat_holdSeen = !s.pins.tideRef ∧ (∀ p, t.core p = CoreState.reset) ∧ t.now = 0 ∧
        t.tier = [] ∧ t.sram = [] ∧ t.store = s.store ∧ t.flits = [] ∧ t.bays = [] ∧ t.pins.railLogic = logic ∧ t.pins.railLedge = ledge ∧
        t.pins.railStrand = strand ∧ t.pins.loadStep = false ∧ t.pins.throttleReq = s.pins.throttleReq) ∧
      (s.inReset = false → ∃ t, Machine.exec (.thermSample temps) s = .next t ∧ { t with regs := s.regs } = s ∧
        (∀ k, k < 80 → bits (t.reg (F.plnTherm_temp0.addr (k / 8))).toNat (k % 8 * 8 + 7) (k % 8 * 8) = if s.usable k then (temps.getD k 0).toNat else 0) ∧
        ∀ a, (∀ k, k < 10 → a ≠ F.plnTherm_temp0.addr k) → t.reg a = s.reg a))

/-! ## Mending -/

/-- A lost island and a parity error in core state are recorded as hardware faults of the core, with a free UNIT; the takeover of a core that
holds such a fault begins: phase 1, with its armed bay fenced; a mend beacon fences the bays of its group (R246, R302, R313). -/
def Obligations.CoresFail : Prop :=
  ∀ (s : State) (core b : Nat), s.canonical = true → Sparse.wf (fun _ => BayRun.idle) s.bays = true → core < 1280 →
    let p := s.phys core
    let c := s.core p
    let shoal := core / 16
    let fails := fun (t : State) (cls : Nat) => (t.core p).flag F.corCtl_faulted = true ∧ (t.core p).get F.corFault_class = cls ∧
      (t.core p).get F.corFault_tag = c.iss.tag.toNat ∧ (t.core p).iss.running = false ∧ t.fresh = s.fresh + 1 ∧ (t.core p).basin = c.basin ∧
      (t.core p).tags = c.tags ∧ ∀ k, k ≠ p → t.core k = s.core k
    (c.flag F.corCtl_faulted = false → (∃ t, Machine.exec (.islandLost core) s = .next t ∧ fails t clsIsland ∧ t.flag F.tidStat_locked = false) ∧
      ∃ t, Machine.exec (.arithParityFault core) s = .next t ∧ fails t clsResidue ∧ t.get F.shlMendStat_source shoal = 2) ∧
    (c.flag F.corCtl_faulted = true → takesOver (c.get F.corFault_class) = true → c.isolated = false → s.railHeld = false → s.mend shoal = none →
      s.bayOf shoal = some b → s.armed b = true → ∃ t m, Machine.exec (.mendFence core) s = .next t ∧ t.mend shoal = some m ∧ m.pos = core % 16 ∧ m.place = p ∧
        m.since = s.now ∧ m.bay = some b ∧ m.cls = c.get F.corFault_class ∧ t.flag F.shlMendStat_active shoal = true ∧ t.get F.shlMendStat_phase shoal = 1 ∧
        t.get F.shlMendStat_lastPos shoal = core % 16 ∧ (t.bay b).fenced = true ∧
        (c.flag F.corCtl_stopped = false → (s.bay b).fenced = false → (t.core p).iss.running = false ∧ (t.core p).iss.cut = true) ∧ (t.core p).basin = c.basin) ∧
    (b < 80 → s.armed b = true → ∃ t, Machine.exec (.mendBeaconReceive (s.groupOf b) (s.stepOf b)) s = .next t ∧ (t.bay b).fenced = true ∧
      t.armed b = true ∧ ∀ k, (t.core k).basin = (s.core k).basin)

/-- 2,000 ns after detection the failed island is isolated, and the plain is locked again where every other island is; from 4,000 ns on the reserve's basin becomes the failed core's shadowed chunks, zero
elsewhere; its self-test lets the mend go on or makes the shoal DEAD (R246, R314, R315, R316). -/
def Obligations.MendsRebuild : Prop :=
  ∀ (s : State) (shoal : Nat) (m : Mend) (r b : Nat), s.canonical = true → shoal < 80 → s.mends = [(shoal, m)] → m.bay = some b → s.railHeld = false →
    let l := (s.core m.place).foldedChunks
    let phase := s.get F.shlMendStat_phase shoal
    let ended := fun (t : State) => t.flag F.shlMendStat_active shoal = false ∧ t.get F.shlMendStat_phase shoal = 0 ∧ t.mends = []
    (phase = 1 → m.since + 2000 ≤ s.now →
      (s.flag F.shlMendStat_spent shoal = false → s.flag F.shlMendStat_dead shoal = false → s.armed b = true → s.foldsPending shoal = false →
        ∃ t, Machine.exec (.mendCheck shoal) s = .next t ∧ t.get F.shlMendStat_phase shoal = 2 ∧ (t.core m.place).isolated = true ∧
          (t.core m.place).exec = [] ∧ t.mends = s.mends ∧
          t.flag F.tidStat_locked = (s.flag F.tidStat_locked || (eraseNat s.lostIslands m.place).isEmpty)) ∧
      (s.flag F.shlMendStat_spent shoal = true → m.outside = false → ∃ t, Machine.exec (.mendCheck shoal) s = .next t ∧ ended t ∧
        t.flag F.shlMendStat_exhausted shoal = true ∧ (t.core m.place).isolated = true)) ∧
    (phase = 2 → m.since + 4000 ≤ s.now → s.spare shoal = some r → l.all (fun a => decide (a % 64 = 0)) = true →
      l.all (fun a => !(s.rebuildChunk shoal m.place r a).2.2) = true → ∃ t, Machine.exec (.mendRebuild shoal) s = .next t ∧
        t.get F.shlMendStat_phase shoal = 3 ∧ (∀ a ∈ l, (t.core r).peek a 64 = (s.rebuildChunk shoal m.place r a).1) ∧
        (∀ k, l.all (fun a => decide (k < a ∨ a + 64 ≤ k)) = true → (t.core r).peek k 1 = [0]) ∧
        (t.mend shoal).map (fun m => m.rebuilt) = some l.length ∧ (∀ k, k ≠ r → t.core k = s.core k)) ∧
    (phase = 3 → m.test = none → m.since + 44000 ≤ s.now →
      (∃ t, Machine.exec (.selfTestDone shoal true) s = .next t ∧ t.mends = [(shoal, { m with test := some true })] ∧ { t with mends := s.mends } = s) ∧
      (s.flag F.shlMendStat_dead shoal = false → m.outside = false → ∃ t, Machine.exec (.selfTestDone shoal false) s = .next t ∧ ended t ∧
        t.flag F.shlMendStat_dead shoal = true ∧ t.flag F.shlMendStat_exhausted shoal = true))

/-- The reserve takes the failed core's position, with the basin that the rebuild left and stopped, and the shoal has no spare any more; 512 ns
later the restore phase runs the declared routine on it, by the lead pilot where the shoal pilot is late; a routine that overruns is ended
and exhausts the mend (R317, R318, R322). -/
def Obligations.MendsEnd : Prop :=
  ∀ (s : State) (shoal : Nat) (m : Mend) (r : Nat), s.canonical = true → shoal < 80 → s.mends = [(shoal, m)] → m.pos < 16 → s.railHeld = false →
    let p := s.phys (shoal * 16 + m.pos)
    let c := s.core p
    let phase := s.get F.shlMendStat_phase shoal
    let begins := fun (t : State) (lead : Bool) => t.get F.shlMendStat_phase shoal = 5 ∧ t.mends = [(shoal, { m with restoreAt := s.now, lead := lead })] ∧
      (c.flag F.corMendEntry_valid = false → t.cores = s.cores) ∧ (∀ k, k ≠ p → t.core k = s.core k) ∧
      (c.flag F.corMendEntry_valid = true → (t.core p).iss.running = true ∧ (t.core p).iss.restoring = true ∧ (t.core p).iss.off = c.get F.corMendEntry_entry ∧
        (t.core p).flag F.corCtl_stopped = false ∧ (t.core p).basin = c.basin)
    (phase = 3 → m.test = some true → m.rebuildEnd ≤ s.now → s.spare shoal = some r → ∃ t, Machine.exec (.mendRenumber shoal) s = .next t ∧
      t.physAt shoal m.pos = r % 17 ∧ t.spare shoal = none ∧ t.flag F.shlMendStat_spent shoal = true ∧ t.get F.shlMendStat_phase shoal = 4 ∧
      (t.core r).basin = (s.core r).basin ∧ (t.core r).flag F.corCtl_stopped = true ∧ (t.core r).flag F.corCtl_faulted = false ∧
      (t.core r).plan = (s.core m.place).plan ∧ (t.mend shoal).map (fun x => x.renumberEnd) = some (s.now + 512) ∧
      ∀ n, n < 16 → n ≠ m.pos → t.physAt shoal n = s.physAt shoal n) ∧
    (phase = 4 → m.renumberEnd ≤ s.now → ∃ t, Machine.exec (.mendRestore shoal) s = .next t ∧ begins t m.lead) ∧
    (phase = 4 → m.renumberEnd + s.get F.shlMendCfg_pilotUs shoal * 1000 ≤ s.now → ∃ t, Machine.exec (.mendPilotTimeout shoal) s = .next t ∧ begins t true) ∧
    (phase = 5 → c.flag F.corCtl_stopped = false → m.restoreAt + s.get F.shlMendCfg_restoreNs shoal < s.now → m.outside = false →
      ∃ t, Machine.exec (.restoreTimeout shoal) s = .next t ∧ t.flag F.shlMendStat_exhausted shoal = true ∧ (t.core p).flag F.corCtl_stopped = true ∧
        (t.core p).exec = [] ∧ (t.core p).iss.running = false ∧ (t.core p).basin = c.basin)

/-- A mend whose routine has stopped without a fault resumes its group: the takeover ends and is counted, and the fenced bay, whose
fence copy holds one core, takes it back and replays from S', the first step time at least two frames on; a resume beacon does the same with
the S' it carries. A link mend moves the plans of the lost port and the routes that name it to its twin and resumes the bay; without
a twin the bay holds at its fence (R99, R319, R326, R327). -/
def Obligations.GroupsResume : Prop :=
  ∀ (s : State) (b k : Nat) (x : FenceCore), s.canonical = true → Sparse.wf (fun _ => BayRun.idle) s.bays = true →
    Sparse.wf (fun _ => (0 : Reg64)) s.strPlan = true → b < 80 → s.armed b = true → s.beaconBays (s.groupOf b) (s.stepOf b) = [b] → s.railHeld = false →
    (s.bay b).fenced = true → (s.bay b).copy = [(k, x)] → k ∈ s.bayCores b → Sparse.wf (fun _ => (0 : Word)) x.xregs = true →
    x.preds.all (fun e => decide (e.1 ∈ predOffsets)) = true → x.credit.all (fun e => decide (e.1 ∈ creditKeys)) = true → Sparse.wf (fun _ => (0 : Reg64)) (s.core (s.phys k)).route = true →
    let y := s.bay b
    let f := s.frameLen b
    let p := s.phys k
    let restored := fun (t : State) => (t.core p).xregs = x.xregs ∧ (t.core p).iss.off = x.off ∧ (t.core p).exec = [] ∧ (t.core p).vecQ = [] ∧
      (t.core p).ldgQ = [] ∧ (t.core p).get F.ldgLeaseAct_set = x.lease % 8 ∧ (t.core p).basin = (s.core p).basin ∧
      ((s.core p).flag F.corCtl_faulted = false → (s.core p).iss.lost = false →
        (t.core p).iss.atFence = x.waits ∧ (t.core p).flag F.corCtl_stopped = !x.waits)
    let replays := fun (t : State) (at_ : Nat) => (t.bay b).fenced = false ∧ (t.bay b).restored = true ∧ (t.bay b).mendReplay = true ∧
      (t.bay b).resumeAt = some (max at_ (y.resumeAt.getD 0)) ∧ restored t
    (∀ shoal m, shoal < 80 → s.mends = [(shoal, m)] → s.linkFaults = [] → m.bay = some b → m.outside = false → m.step = s.stepOf b →
      s.get F.shlMendStat_phase shoal = 5 → (s.core (s.phys (shoal * 16 + m.pos))).flag F.corCtl_stopped = true →
      (s.core (s.phys (shoal * 16 + m.pos))).flag F.corCtl_faulted = false → (s.core (s.phys (shoal * 16 + m.pos))).iss.broke = false →
      s.stepStartAt b ≤ s.now →
      ∃ t at_, Machine.exec (.mendResume shoal) s = .next t ∧ replays t at_ ∧ s.now + 2 * f ≤ at_ ∧ at_ < s.now + 3 * f ∧ (at_ - s.stepStartAt b) % f = 0 ∧
        t.mends = [] ∧ t.flag F.shlMendStat_active shoal = false ∧ t.get F.shlMendStat_phase shoal = 0 ∧
        t.get F.plnMendStat_mends = min F.plnMendStat_mends.max (s.get F.plnMendStat_mends + 1)) ∧
    (∀ start, s.mends = [] → s.linkFaults = [] → ∃ t, Machine.exec (.resumeBeaconReceive (s.groupOf b) (s.stepOf b) start) s = .next t ∧
      replays t start) ∧
    (∀ port z, port < 48 → s.mends = [] → s.linkFaults = [(port * 128 + b, z)] → z.bay = b → s.bayStopped b = true →
      (∀ twin, s.twinOf port = some twin → twin ≠ port → ∃ t, Machine.exec (.linkMend port) s = .next t ∧ t.linkFaults = [] ∧
        t.flag F.strTwin_valid port = false ∧ replays t (s.replayTime b) ∧
        (∀ i, i < 1024 → Sparse.get 0 t.strPlan (twin * 1024 + i) = Sparse.get 0 s.strPlan (port * 1024 + i)) ∧
        (∀ e, e < 256 →
          let lo := Sparse.get 0 (s.core p).route (2 * e)
          Sparse.get 0 (t.core p).route (2 * e) = if field lo 1 0 = 3 ∧ field lo 21 16 = port then setField lo 21 16 twin else lo) ∧
        t.get F.plnMendStat_linkMends = min F.plnMendStat_linkMends.max (s.get F.plnMendStat_linkMends + 1)) ∧
      (s.twinOf port = none → ∃ t, Machine.exec (.linkMend port) s = .next t ∧ t.linkFaults = [] ∧ t.flag F.tidStep_halted b = true ∧
        (t.bay b).fenced = false ∧ (t.bay b).resumeAt = none ∧ restored t))

/-- A lost reserve leaves its shoal SPENT without a spare, and raises the event; a lost shoal island makes it DEAD; a service that may begin
does, and ends with the core that failed last as the spare and the shoal washed, or with SVC_FAIL (R311, R323, R328). -/
def Obligations.ReservesServe : Prop :=
  ∀ (s : State) (shoal r n : Nat) (id : BitVec 12), s.canonical = true → shoal < 80 →
    (s.spare shoal = some r → ∃ t, Machine.exec (.reserveLost shoal) s = .next t ∧ t.flag F.shlMendStat_spent shoal = true ∧ t.spare shoal = none ∧
      t.get F.shlMendStat_source shoal = 4 ∧ t.evDue = s.evDue ++ [⟨16, none, s.now, BitVec.ofNat 64 shoal⟩] ∧
      ∀ k, k < 16 → (t.core (s.phys (shoal * 16 + k))).get F.corShadow_folded = 0 ∧ (t.core (s.phys (shoal * 16 + k))).deltas = []) ∧
    (s.mends = [] → s.bayOf shoal = none → ∃ t, Machine.exec (.shoalIslandLost shoal) s = .next t ∧ t.flag F.shlMendStat_dead shoal = true ∧
      t.get F.shlMendStat_source shoal = 5 ∧ t.flag F.shlMendStat_exhausted shoal = true ∧ t.mends = [] ∧ t.cores = s.cores) ∧
    (s.takes id = true → s.usable shoal = true → s.mayService shoal = true → s.flag F.shlMendCfg_serviceGo shoal = false → ∃ t,
      Machine.exec (.serviceGo shoal id) s = .next t ∧ t.flag F.shlMendCfg_serviceGo shoal = true ∧ s.onlyReg (F.shlMendCfg_serviceGo.addr shoal) t) ∧
    (s.flag F.shlMendCfg_serviceGo shoal = true →
      (Sparse.get 31 s.failed shoal = n → n < 17 → (∀ k, k < 16 → s.physAt shoal k < 17) → ∃ t, Machine.exec (.serviceDone shoal true) s = .next t ∧ t.spare shoal = some (shoal * 17 + n) ∧
        t.flag F.shlMendStat_spent shoal = false ∧ t.flag F.shlMendCfg_serviceGo shoal = false ∧
        ∀ k, k < 16 → (t.core (s.phys (shoal * 16 + k))).basin = [] ∧ (t.core (s.phys (shoal * 16 + k))).tags = [] ∧
          (t.core (s.phys (shoal * 16 + k))).flag F.corCtl_stopped = true) ∧
      ∃ t, Machine.exec (.serviceDone shoal false) s = .next t ∧ t.flag F.shlMendStat_svcFail shoal = true ∧
        t.flag F.shlMendCfg_serviceGo shoal = false ∧ t.cores = s.cores)

/-! ## The mirror, notices and pilots -/

/-- A mirror load of one segment of one chunk copies it from far tier into the basin of its core and marks it where its source is; a
save copies it the other way; one that fails its checks moves nothing; MIRROR_DONE then reports the segments or the error and
clears GO (R329, Tables 11-7 and 11-8). -/
def Obligations.MirrorMoves : Prop :=
  ∀ (s : State) (id : BitVec 12) (base : Nat) (x : Segment) (m : MirrorOp), s.canonical = true →
    let u := fun (save : Bool) => (s.put F.plnMirrorCfg_base base).put F.plnMirrorCfg_dir (b2n save)
    let far := base * 4096 + 64 * x.off
    let p := s.phys x.core
    let c := s.core p
    (s.takes id = true → s.flag F.plnMirrorCfg_go = false → base < 2 ^ 29 →
      ((u false).segments = [x] → (u false).mirrorError false = 0 → x.chunks = 1 → x.post = false → c.washEnd = none → c.isolated = false →
        c.coveAt x.addr = none → c.windowAt x.addr = none → c.foldPending x.addr = false → c.folded x.addr = false →
        ∃ t, Machine.exec (.mirrorLoad id base) s = .next t ∧ (t.core p).peek x.addr 64 = s.tierRead far 64 ∧
          (t.core p).poisoned x.addr = s.tierBad far 64 ∧ (t.core p).tags = c.tags ∧
          (∀ k, k < x.addr ∨ x.addr + 64 ≤ k → (t.core p).peek k 1 = c.peek k 1) ∧ (∀ k, k ≠ p → t.core k = s.core k) ∧ t.tier = s.tier ∧
          t.mirrorOp = some ⟨false, 0, 1⟩ ∧ t.flag F.plnMirrorCfg_go = true) ∧
      ((u true).segments = [x] → (u true).mirrorError true = 0 → x.chunks = 1 → c.poisoned x.addr = false → far + 64 ≤ 2 ^ 41 →
        ∃ t, Machine.exec (.mirrorSave id base) s = .next t ∧ t.tierRead far 64 = c.peek x.addr 64 ∧ t.tierBad far 64 = false ∧
          (∀ k, k < far ∨ far + 64 ≤ k → Sparse.get 0 t.tier k = Sparse.get 0 s.tier k) ∧ t.cores = s.cores ∧
          t.mirrorOp = some ⟨true, 0, 1⟩ ∧ t.flag F.plnMirrorCfg_go = true) ∧
      ((u false).mirrorError false ≠ 0 → ∃ t, Machine.exec (.mirrorLoad id base) s = .next t ∧ t.cores = s.cores ∧ t.tier = s.tier ∧
        t.mirrorOp = some ⟨false, (u false).mirrorError false, 0⟩ ∧ t.flag F.plnMirrorCfg_go = true)) ∧
    (s.mirrorOp = some m → m.segs < 2 ^ 32 → m.err < 4 → ∃ t, Machine.exec .mirrorDone s = .next t ∧
      { t with regs := s.regs, mirrorOp := s.mirrorOp, cyc := s.cyc } = s ∧ t.mirrorOp = none ∧ t.flag F.plnMirrorCfg_go = false ∧
      t.get F.plnMirrorStat_segsDone = m.segs ∧ t.get F.plnMirrorStat_errCode = m.err ∧
      (m.err = 0 → t.flag F.plnMirrorStat_done = true) ∧ (m.err ≠ 0 → t.flag F.plnMirrorStat_err = true))

/-- POP removes the first notice that a pilot's queue shows; a restart of a component counts, zeroes its scratch region with the errors
of its words and enters it in user mode, and more than 8 in 1 s hold it down, with an event of the lead pilot; a reset holds the pilot
until PILOT_RELOAD, which clears its SRAM with its errors, copies its frames into it alone, and starts it at address 0 in machine mode.
Region and entry of a component are the firmware's (log entry 111) (R331, R334, R336 to R338, R388, R389). -/
def Obligations.PilotsServe : Prop :=
  ∀ (s : State) (pilot comp : Nat) (id : BitVec 12), s.canonical = true → Sparse.wf (fun _ => PilotRun.reset) s.pilots = true →
    Sparse.wf (fun _ => ([] : List Notice)) s.notices = true → pilot ≤ 80 →
    let x := s.pilot pilot
    let others := fun (t : State) => { t with pilots := s.pilots } = s ∧ ∀ k, k ≠ pilot → t.pilot k = s.pilot k
    let again := x.starts.filter (fun e => decide (s.now < e.2 + 1000000000))
    let late := decide (8 ≤ (again.filter (fun e => e.1 == comp)).length)
    let f := pilotField pilot F.shlPilotRst_rstCount F.plnPilotRst_rstCount
    let i := if pilot < 80 then pilot else 0
    let count := fun (t : State) => bits (t.get f i) (8 * comp + 7) (8 * comp)
    let scratch := fun (a : Nat) => pilot * 2 ^ 32 + (Config.scratch pilot comp).1 % 2 ^ 32 ≤ a ∧ a < pilot * 2 ^ 32 + (Config.scratch pilot comp).2 % 2 ^ 32
    (s.takes id = true → ((pilot = 80 ∧ s.flag F.plnNoticeLo_pop = false) ∨ (pilot < 80 ∧ s.usable pilot = true ∧ s.flag F.shlNotice_pop pilot = false)) →
      ∃ t, Machine.exec (.pop pilot id) s = .next t ∧
      (∀ k, Sparse.get [] t.notices k = if k = pilot ∧ s.freshNotices pilot < (Sparse.get [] s.notices k).length then (Sparse.get [] s.notices k).tail
        else Sparse.get [] s.notices k) ∧
      (∀ a, t.reg a = s.reg a) ∧ { t with notices := s.notices, regs := s.regs, cyc := s.cyc } = s) ∧
    (comp ≤ 6 → s.heldDown pilot comp = false → x.inReset = false →
      ∃ t, Machine.exec (.componentRestart pilot comp) s = .next t ∧ count t = min 255 (count s + 1) ∧
        t.pilot pilot = { x with
          starts := again ++ [(comp, s.now)]
          hart := if late then x.hart else { x.hart with priv := .user, pc := Config.restartEntry pilot comp }
          sramErrs := if late then x.sramErrs else x.sramErrs.filter (fun e =>
            !(decide ((Config.scratch pilot comp).1 % 2 ^ 32 ≤ e.1 * 8) && decide (e.1 * 8 + 8 ≤ (Config.scratch pilot comp).2 % 2 ^ 32))) } ∧
        t.heldDown pilot comp = late ∧ t.cores = s.cores ∧ (∀ a, a ≠ f.addr i → t.reg a = s.reg a) ∧ (∀ k, k ≠ pilot → t.pilot k = s.pilot k) ∧
        (∀ a, Sparse.get 0 t.sram a = if late = false ∧ scratch a then 0 else Sparse.get 0 s.sram a) ∧
        t.evDue = if pilot = 80 ∧ late = true then s.evDue ++ [⟨19, none, s.now, BitVec.ofNat 64 (comp + 0xff * 256)⟩] else s.evDue) ∧
    (∃ t, Machine.exec (.pilotReset pilot) s = .next t ∧ others t ∧ t.pilot pilot = { x with inReset := true, hart := Hart.start }) ∧
    (x.inReset = true → s.pr = none → s.get F.imgStat_state = 6 → s.storeBad = [] →
      (s.walkFrames (.store (slotBase (s.get F.imgStat_slot))) s.header (fun u _ => (u, none))
        (hdr s.header 44 4 * 8) (hdr s.header 40 4) 128).2 = none →
      ∃ t, Machine.exec (.pilotReload pilot) s = .next t ∧ { t with pilots := s.pilots, sram := s.sram } = s ∧
        t.pilot pilot = { x with inReset := false, hart := Hart.start, sramErrs := [] } ∧ (∀ k, k ≠ pilot → t.pilot k = s.pilot k) ∧
        ∀ a, a / 2 ^ 32 ≠ pilot → Sparse.get 0 t.sram a = Sparse.get 0 s.sram a)

/-! ## Submissions -/

/-- An accepted submission takes the lowest FREE ledger entry, QUEUED, with its tenant, context, deadline and queue; a refused one is
completed at once with its STATUS and DETAIL; in either case CONSUMER moves on. A finished entry gets its completion and
becomes FREE; one past its deadline, and one held too long, ends with its status (R339 to R341, R350, R367, R371, R374). -/
def Obligations.SubmissionsServed : Prop :=
  ∀ (s : State) (ctx queue i st detail : Nat) (x : Sub), s.canonical = true → ctx < 1024 → s.leadRuns = true → s.heldDown 80 0 = false → i < 8192 →
    let f := 16 * queue
    let at_ := s.get (F.ctxSqp_consumer.sh f) ctx
    let e := subEntry (s.tierRead (s.get (F.ctxSq_base.sh f) ctx * 4096 + 128 * at_) 128)
    let slot := s.get F.ctxCqp_producer ctx
    let room := s.cqRoom ctx = true ∧ s.get F.ctxCq_sizeLog2 ctx ≤ 16
    let writes := fun (t : State) (y : ComplEntry) =>
      t.tierRead (s.get F.ctxCq_base ctx * 4096 + 32 * slot) 32 = completionBytes y (Sparse.get 0 s.cqLap ctx) s.now ∧
      t.get F.ctxCqp_producer ctx = (slot + 1) % 2 ^ s.get F.ctxCq_sizeLog2 ctx ∧ t.cores = s.cores
    let ended := fun (t : State) (status : Nat) => t.ledState i = 6 ∧
      t.sub i = some { x with done := some (status, 0), lastStep := s.stepOf (s.get F.ledWord0_bay i) } ∧ t.cores = s.cores ∧
      (∀ k, k < 8192 → k ≠ i → t.ledState k = s.ledState k ∧ t.sub k = s.sub k)
    (queue < 4 → s.get F.ctxCfg_state ctx ≠ 0 → s.flag (F.ctxSq_enable.sh f) ctx = true → at_ ≠ s.get (F.ctxSqp_producer.sh f) ctx →
      s.get (F.ctxSq_sizeLog2.sh f) ctx ≤ 16 → s.tierBad (s.get (F.ctxSq_base.sh f) ctx * 4096 + 128 * at_) 128 = false →
      (s.refuseSub e ctx queue = none → s.ledState i = 0 → (∀ k, k < i → s.ledState k ≠ 0) → s.sub i = none →
        ∃ t, Machine.exec (.submissionRead ctx queue) s = .next t ∧ t.get (F.ctxSqp_consumer.sh f) ctx = (at_ + 1) % 2 ^ s.get (F.ctxSq_sizeLog2.sh f) ctx ∧
          t.ledState i = 1 ∧ t.get F.ledWord0_tenant i = e.tenant ∧ t.get F.ledWord0_context i = ctx ∧ t.get F.ledWord0_prio i = e.prio ∧
          t.get F.ledWord0_bay i = s.get F.ctxCfg_bay ctx ∧ t.get F.ledWord1_deadline i = e.deadline ∧ t.get F.ledWord2_head i = 2 ^ 32 - 1 ∧
          t.get F.ledWord3_queue i = queue ∧ (∃ y, t.subs = s.subs ++ [(i, y)] ∧ y.submitId = e.submitId ∧ y.shape = e.shape ∧
            y.arrival = s.now ∧ y.order = s.arrivals) ∧ t.tier = s.tier ∧ t.cores = s.cores ∧ ∀ k, k < 8192 → k ≠ i → t.ledState k = s.ledState k) ∧
      (s.refuseSub e ctx queue = some (st, detail) → room → s.firstInQueue ctx queue s.arrivals = true →
        (bit e.flags 0 = false ∨ bit (s.get F.ctxCfg_evtEn ctx) 0 = false) →
        ∃ t, Machine.exec (.submissionRead ctx queue) s = .next t ∧ t.get (F.ctxSqp_consumer.sh f) ctx = (at_ + 1) % 2 ^ s.get (F.ctxSq_sizeLog2.sh f) ctx ∧
          writes t ⟨e.submitId, st, detail, queue, 0, 0, 0xffff, bit e.flags 0⟩ ∧ t.subs = s.subs ∧ ∀ k, k < 8192 → t.ledState k = s.ledState k)) ∧
    (s.sub i = some x →
      (s.ledState i = 6 → s.get F.ledWord0_context i = ctx → s.stepBehind (s.get F.ledWord0_bay i) x.lastStep = true → room →
        s.firstInQueue ctx (s.get F.ledWord3_queue i) x.order = true → (bit x.flags 0 = false ∨ bit (s.get F.ctxCfg_evtEn ctx) 0 = false) →
        ∃ t, Machine.exec (.completionWrite i) s = .next t ∧
          writes t (s.completionOf i x (x.done.getD (0, 0)).1 (x.done.getD (0, 0)).2) ∧ t.ledState i = 0 ∧ t.sub i = none ∧
          t.get F.ledWord1_deadline i = 0 ∧ t.reg (F.ledWord3_queue.addr i) = 0 ∧
          ∀ k, k < 8192 → k ≠ i → t.ledState k = s.ledState k ∧ t.sub k = s.sub k) ∧
      (s.get F.ledWord1_deadline i ≠ 0 → s.get F.ledWord1_deadline i < s.now → s.ledState i ≠ 0 → s.ledState i ≠ 6 →
        s.boundaryPast (s.get F.ledWord0_bay i) (s.get F.ledWord1_deadline i) = true →
        ∃ t, Machine.exec (.deadlineMissed i) s = .next t ∧ ended t 5 ∧ t.get F.ledWord2_pages i = 0 ∧ t.get F.ledWord2_head i = 2 ^ 32 - 1) ∧
      (s.ledState i = 1 → s.heldLong i x.arrival = true → s.admits i x = false → ∃ t, Machine.exec (.budgetHeld i) s = .next t ∧ ended t 3 ∧
        t.tier = s.tier))

/-- The next QUEUED entry of a READY bay is placed once its tenant's budget admits it, and its cost is charged; one that is not admitted
waits. An entry with a page found poisoned ends with CONTEXT_LOST, and one whose shape no terrace of the table now holds with SHAPE_OVER,
uncharged. Once the FILLs of its shape block have completed, the tiler starts every core of the bay that is stopped and not faulted
at the terrace's ENTRY (R231 to R235, R339, R349, R350, R352). -/
def Obligations.SubmissionsPlaced : Prop :=
  ∀ (s : State) (bay i ter : Nat) (x : Sub) (y : Tiler), s.canonical = true → bay < 80 → i < 8192 →
    let t0 := s.get F.ledWord0_tenant i
    let table := s.terraceTable (s.get F.ledWord0_context i)
    (s.leadRuns = true → s.heldDown 80 1 = false → s.get F.bayCtl_state bay = 1 → s.bayStopped bay = true →
      s.tilers.any (fun e => e.1 == bay) = false → s.nextSub bay = some (i, x) →
      let ends := fun (t : State) (status detail : Nat) => t.ledState i = 6 ∧ (∃ z, t.sub i = some z ∧ z.done = some (status, detail)) ∧
        t.balance t0 = s.balance t0 ∧ t.cores = s.cores ∧ t.tilers = s.tilers ∧ t.tier = s.tier ∧ ∀ k, k < 8192 → k ≠ i → t.ledState k = s.ledState k
      let sound := s.pagesPoisoned i = false ∧ (x.op = 1 ∨ (s.terraceFor table x.shape).isSome = true)
      (s.pagesPoisoned i = true → ∃ t, Machine.exec (.submissionPlace bay) s = .next t ∧ ends t 1 0) ∧
      (s.pagesPoisoned i = false → x.op ≠ 1 → s.terraceFor table x.shape = none → ∃ t, Machine.exec (.submissionPlace bay) s = .next t ∧
        ends t 2 (s.overDim table x.shape)) ∧
      (sound → s.admits i x = false → ∃ t, Machine.exec (.submissionPlace bay) s = .next t ∧ t = s) ∧
      (sound → s.admits i x = true → -(2 ^ 31) ≤ s.balance t0 - s.costOf i x → ∃ t, Machine.exec (.submissionPlace bay) s = .next t ∧ t.ledState i = 2 ∧
        t.balance t0 = s.balance t0 - s.costOf i x ∧ t.get F.tenWord3_charged t0 = (s.get F.tenWord3_charged t0 + s.costOf i x) % 2 ^ 64 ∧
        t.get F.tenWord2_admitted t0 = (s.get F.tenWord2_admitted t0 + 1) % 2 ^ 32 ∧ (∃ z, t.sub i = some z ∧ z.placed = some s.now) ∧
        t.tier = s.tier ∧ (∀ k, k < 8192 → k ≠ i → t.ledState k = s.ledState k) ∧ (x.op = 1 → t.cores = s.cores ∧ t.tilers = s.tilers) ∧
        (x.op ≠ 1 → s.terraceFor table x.shape = some ter → ∃ w, t.tilers = s.tilers ++ [(bay, w)] ∧ w.entry = i ∧
          w.start = s.tierNat (table + 64 + 64 * ter + 16) 4 ∧ w.ctx = s.get F.ledWord0_context i ∧ w.counts.map (fun e => e.1) = s.bayCores bay))) ∧
    (s.fwPush = [] → s.tilers = [(bay, y)] → s.railHeld = false → s.countsReached y.counts = true → y.start < 2 ^ 20 → y.start % 4 = 0 → y.ctx < 1024 →
      ((s.bayCores bay).any (fun k => (s.core (s.phys k)).flag F.ldgEngStat_timeout) = false →
        ∃ t, Machine.exec (.tilerStart bay) s = .next t ∧ t.tilers = [] ∧ (∀ k, k ∈ s.bayCores bay →
          (s.core (s.phys k)).flag F.corCtl_stopped = true → (s.core (s.phys k)).flag F.corCtl_faulted = false →
          (t.core (s.phys k)).flag F.corCtl_stopped = false ∧ (t.core (s.phys k)).get F.corCtl_entry = y.start ∧
          (t.core (s.phys k)).get F.corCtl_ctx = y.ctx ∧ (t.core (s.phys k)).iss.off = y.start ∧ (t.core (s.phys k)).iss.running = true) ∧
          ∀ p, (∀ k, k ∈ s.bayCores bay → s.phys k ≠ p) → t.core p = s.core p) ∧
      ((s.bayCores bay).any (fun k => (s.core (s.phys k)).flag F.ldgEngStat_timeout) = true →
        ∃ t, Machine.exec (.tilerStart bay) s = .next t ∧ { t with tilers := s.tilers } = s ∧ t.tilers = []))

/-- In a decode batch an entry that may generate and whose pages are ready gives one token and costs its tenant 256 units, and one with
a page found poisoned ends with CONTEXT_LOST; the entry of a tenant below zero is left out and counts HELD. A bay whose work is done,
whose cores are drained and whose grid is disarmed takes its new role and EPOCH + 1. GO of BAY_DRAIN begins a drain; the tick
after every core of the bay has stopped finds GO cleared and DONE set (R345, R346, R351, R352). -/
def Obligations.BatchesAndRoles : Prop :=
  ∀ (s : State) (bay i role : Nat) (id : BitVec 12) (x : Sub), s.canonical = true → Sparse.wf (fun _ => BayRun.idle) s.bays = true → bay < 80 → i < 8192 →
    let n := s.get F.ledWord0_tenant i
    let epoch := s.get F.bayRole_epoch bay
    (s.leadRuns = true → s.heldDown 80 1 = false →
      (s.decoding bay = [(i, x)] →
        (0 ≤ s.balance n → x.mayGenerate = true → s.pagesPoisoned i = true → ∃ t, Machine.exec (.decodeBatch bay) s = .next t ∧ t.ledState i = 6 ∧
          (∃ z, t.sub i = some z ∧ z.done = some (1, 0) ∧ z.tokens = x.tokens) ∧ t.balance n = s.balance n ∧ t.cores = s.cores ∧ t.tier = s.tier) ∧
        (0 ≤ s.balance n → x.mayGenerate = true → s.pagesReady i bay = true → ∃ t, Machine.exec (.decodeBatch bay) s = .next t ∧
          t.sub i = some { x with leftOut := none, tokens := x.tokens + 1 } ∧ t.balance n = s.balance n - 256 ∧
          t.get F.ledWord3_generated i = (s.get F.ledWord3_generated i + 1) % 2 ^ (F.ledWord3_generated.hi + 1 - F.ledWord3_generated.lo) ∧
          t.ledState i = 4 ∧ t.cores = s.cores ∧ t.tier = s.tier ∧ ∀ k, k ≠ i → t.sub k = s.sub k) ∧
        (s.balance n < 0 → x.leftOut = none → ∃ t, Machine.exec (.decodeBatch bay) s = .next t ∧
          t.sub i = some { x with leftOut := some s.now } ∧ t.get F.tenWord2_held n = min (2 ^ 32 - 1) (s.get F.tenWord2_held n + 1) ∧
          t.balance n = s.balance n ∧ t.ledState i = 4 ∧ t.cores = s.cores ∧ t.tier = s.tier)) ∧
      (role < 4 → s.roleWork bay = false → s.bayStopped bay = true → s.armed bay = false → s.flag F.bayDrain_done bay = true →
        ∃ t, Machine.exec (.roleChange bay role) s = .next t ∧ t.get F.bayRole_role bay = role ∧ t.get F.bayRole_epoch bay = (epoch + 1) % 65536 ∧
          t.evDue = s.evDue ++ [⟨18, none, s.now, BitVec.ofNat 64 (bay + role * 2 ^ 8 + (epoch + 1) % 65536 * 2 ^ 16)⟩] ∧
          { t with regs := s.regs, evDue := s.evDue, cyc := s.cyc } = s ∧ ∀ a, a ≠ F.bayRole_role.addr bay → t.reg a = s.reg a) ∧
      (role < 4 → s.roleWork bay = true → ∃ t, Machine.exec (.roleChange bay role) s = .next t ∧ t = s)) ∧
    (s.takes id = true → s.flag F.bayDrain_go bay = false → ∃ t, Machine.exec (.bayDrain bay id) s = .next t ∧ t.flag F.bayDrain_go bay = true ∧
      t.flag F.bayDrain_done bay = s.flag F.bayDrain_done bay ∧ (t.bay bay).drainAt = some s.now ∧ t.cores = s.cores) ∧
    (s.flag F.bayDrain_go bay = true →
      (s.bayStopped bay = false → s.settleDrain bay = s) ∧
      (s.bayStopped bay = true → (s.settleDrain bay).flag F.bayDrain_go bay = false ∧ (s.settleDrain bay).flag F.bayDrain_done bay = true ∧
        ((s.settleDrain bay).bay bay).drainAt = none ∧ (s.settleDrain bay).cores = s.cores))

/-! ## The ledgers -/

/-- A write to a port's CHARGE subtracts AMOUNT from the tenant's BALANCE, which saturates, and adds it to CHARGED; all charges of
one cycle apply, whichever ports they come from (R349, Table 12-8). -/
def Obligations.Charges : Prop :=
  ∀ (s : State) (cmds : List (BitVec 12 × Nat × Reg64)), s.canonical = true → s.heldWrites = [] →
    (∀ x, x ∈ cmds → x.2.1 = ledgerPort x.1 ∧ x.2.1 ≤ 82 ∧ s.takes x.1 = true) → (cmds.map (fun x => x.2.1)).Nodup →
    let sum := fun (n : Nat) => ((cmds.filter (fun x => field x.2.2 41 32 == n)).map (fun x => field x.2.2 31 0)).sum
    ∃ t, Machine.exec (.charge cmds) s = .next t ∧ t.cores = s.cores ∧ t.tier = s.tier ∧
      ∀ n, n < 1024 → t.balance n = max (-(2 ^ 31)) (s.balance n - sum n) ∧
        t.get F.tenWord3_charged n = (s.get F.tenWord3_charged n + sum n) % 2 ^ 64 ∧ t.get F.tenWord0_burst n = s.get F.tenWord0_burst n

/-- A refill raises the balance of an enabled tenant at its tick by RATE up to BURST and never lowers it; it comes before the charges of
the tick, and a write of BALANCE in the tick leaves nothing of it. A compare-and-set moves an
entry whose STATE is EXPECT where Table 12-5 allows it, to FREE zeroing it, and answers RESULT and FOUND; a second port sees what the first
left. A walk ends with the blocks it matched. A drift record is sent once its window has credit, and GO clears once its last flit has
left the engine's pass (R343, R344, R347, R348, R353, R354). -/
def Obligations.LedgersWork : Prop :=
  ∀ (s : State) (n p i st want new p2 : Nat) (id id2 : BitVec 12) (v v2 value : Reg64), s.canonical = true → s.takes id = true →
    let ans := fun (t : State) (p found res : Nat) => t.get F.casRes_found p = found ∧ t.get F.casRes_result p = res ∧ t.cores = s.cores ∧
      t.tier = s.tier ∧ ∀ k, k < 8192 → k ≠ i → t.ledState k = s.ledState k ∧ t.sub k = s.sub k
    let asks := fun (x : Reg64) (want new : Nat) => field x 12 0 = i ∧ field x 19 16 = want ∧ field x 23 20 = new
    (n < 1024 → ∃ t, Machine.exec (.tenantRefill n) s = .next t ∧ s.onlyReg (F.tenWord0_balance.addr n) t ∧
      t.get F.tenWord0_burst n = s.get F.tenWord0_burst n ∧
        let charged := countedIn s.cyc.counted (F.tenWord0_balance.key n)
        let b := s.balance n + (charged.1 : Int)
        t.balance n = if s.flag F.tenWord1_enable n = true ∧ s.now % 2 ^ s.get F.ledCfg_refillLog2 = n ∧ charged.2 = false then
          max (-(2 ^ 31)) (min (2 ^ 31 - 1) (max b (min (s.get F.tenWord0_burst n) (b + s.get F.tenWord1_rate n)) - charged.1)) else s.balance n) ∧
    (p = ledgerPort id → p ≤ 82 → asks v want new → s.ledState i = st →
      (st ≠ want → ∃ t, Machine.exec (.casCmd [(id, p, v)]) s = .next t ∧ ans t p st 2 ∧ t.ledState i = st ∧ t.subs = s.subs) ∧
      (st = want → legalNext st new = false → ∃ t, Machine.exec (.casCmd [(id, p, v)]) s = .next t ∧ ans t p st 3 ∧ t.ledState i = st ∧
        t.subs = s.subs) ∧
      (st = want → legalNext st new = true → ∃ t, Machine.exec (.casCmd [(id, p, v)]) s = .next t ∧ ans t p st 1 ∧ t.ledState i = new ∧
        (new = 0 → t.reg (F.ledWord0_state.addr i) = 0 ∧ t.reg (F.ledWord1_deadline.addr i) = 0 ∧ t.reg (F.ledWord2_head.addr i) = 0 ∧
          t.reg (F.ledWord3_queue.addr i) = 0 ∧ t.sub i = none)) ∧
      (st = want → legalNext st new = true → p2 = ledgerPort id2 → p < p2 → p2 ≤ 82 → s.takes id2 = true → asks v2 want new → new ≠ st →
        ∃ t, Machine.exec (.casCmd [(id2, p2, v2), (id, p, v)]) s = .next t ∧ ans t p st 1 ∧ ans t p2 new 2 ∧ t.ledState i = new)) ∧
    (s.flag F.ledWalkCmd_go = false → ∃ t, Machine.exec (.prefixWalk id value) s = .next t ∧ s.onlyReg 0x16108 t ∧
      t.flag F.ledWalkCmd_go = true ∧ t.get F.ledWalkCmd_blocks = field value 57 48 ∧ t.get F.ledWalkCmd_scope = field value 47 38 ∧
      t.get F.ledWalkCmd_tokens = field value 37 6) ∧
    (s.flag F.ledWalkCmd_go = true →
      let scope := s.get F.ledWalkCmd_scope
      let a := s.get F.ledWalkCmd_tokens * 64
      let h := blockHash (Nat.xor 0xcbf29ce484222325 scope) (s.tierRead a 256)
      let first := s.tierNat (s.bucketAddr h) 4
      let node := s.nodeAddr first
      let ends := fun (t : State) (matched last : Nat) => { t with regs := s.regs, cyc := s.cyc } = s ∧ t.flag F.ledWalkCmd_go = false ∧
        t.flag F.ledWalkRes_done = true ∧ t.get F.ledWalkRes_matched = matched ∧ t.get F.ledWalkRes_node = last
      (s.tierBad a 256 = true → ∃ t, Machine.exec .prefixWalkEnd s = .next t ∧ ends t 0 (2 ^ 32 - 1) ∧ t.flag F.ledWalkRes_err = true) ∧
      (s.tierPoison = [] → first = 2 ^ 32 - 1 → ∃ t, Machine.exec .prefixWalkEnd s = .next t ∧ ends t 0 (2 ^ 32 - 1) ∧
        t.flag F.ledWalkRes_err = s.flag F.ledWalkRes_err) ∧
      (s.tierPoison = [] → first ≠ 2 ^ 32 - 1 → s.get F.ledWalkCmd_blocks = 0 → bit (s.tierNat (node + 22) 1) 0 = true → s.tierNat node 8 = h →
        s.tierNat (node + 8) 4 = 2 ^ 32 - 1 → s.tierNat (node + 20) 2 = scope →
        (s.flag F.ledWalkCfg_verify = true → s.tierRead (s.tierNat (node + 40) 8) 256 = s.tierRead a 256) →
        ∃ t, Machine.exec .prefixWalkEnd s = .next t ∧ ends t 1 first ∧ t.flag F.ledWalkRes_err = s.flag F.ledWalkRes_err)) ∧
    (s.flag F.hbrRedrive_go = false → n < 4096 → i < 2 ^ 32 → i % 64 = 0 →
      (s.redriveBad n i = true → ∃ t, Machine.exec (.hbrRedrive id n i) s = .next t ∧ s.onlyReg 0x14018 t ∧ t.flag F.hbrRedrive_err = true ∧
        t.flag F.hbrRedrive_go = false) ∧
      (s.redriveBad n i = false → (s.driftCredit n).2 < s.redriveNeeds n i → ∃ t, Machine.exec (.hbrRedrive id n i) s = .next t ∧
        { t with regs := s.regs, redrive := s.redrive, cyc := s.cyc } = s ∧ t.redrive = some i ∧ t.flag F.hbrRedrive_go = true) ∧
      (s.redriveBad n i = false → s.redriveNeeds n i ≤ (s.driftCredit n).2 → ∃ t, Machine.exec (.hbrRedrive id n i) s = .next t ∧
        t.redrive = none ∧ t.flag F.hbrRedrive_go = true ∧ t.flits.length = s.flits.length + bytesNat (s.driftRead i 14 2) ∧
        (∃ q, t.conss = s.conss ++ [q] ∧ q.win = n ∧ q.elastic = true ∧ q.srcCore = 2047 ∧ q.dstPos = s.hall ∧
          q.flits = some (bytesNat (s.driftRead i 14 2)) ∧ q.w.stamp.toNat = bytesNat (s.driftRead i 12 2)) ∧ t.cores = s.cores ∧ t.tier = s.tier)) ∧
    (s.flag F.hbrRedrive_go = true → s.redrive = none →
      (s.flits = [] → s.redriveLeft.flag F.hbrRedrive_go = false ∧ s.onlyReg 0x14018 s.redriveLeft) ∧
      (s.flits.any (fun f => !f.atCore && s.conss.any (fun q => q.id == f.cons && q.srcCore == leadSender && q.via == some 48)) = true → s.redriveLeft = s))

/-! ## Bays and contexts -/

/-- A valid carve-out or half of a shoal set is taken and locked, an invalid one is not and is recorded; CREATE_GO makes a bay READY,
RETIRE_GO RETIRING; WASH_GO washes every core of a stopped bay and every reserve at once, and as the last wash ends WASHES advances and a
RETIRING bay without contexts becomes EMPTY with its carve-outs open again; BAY_ROLE takes role and epoch; a word of a tree that is
not valid is stored but for its reserved bits (R4, R237, R297, R356 to R359). -/
def Obligations.BaysLive : Prop :=
  ∀ (s : State) (bay word role epoch : Nat) (id : BitVec 12) (value : Reg64), s.canonical = true → s.takes id = true → bay < 80 →
    let a := 0x18000 + bay * 0x40 + word * 8
    let st := s.get F.bayCtl_state bay
    let ctl := F.bayCtl_state.addr bay
    let refused := fun (t : State) (cause : Nat) => s.onlyReg 0x100 t ∧ t.get F.plnAccessErr_count = min 65535 (s.get F.plnAccessErr_count + 1) ∧
      t.get F.plnAccessErr_cause = cause ∧ t.get F.plnAccessErr_master = id.toNat
    let idle := s.flag F.bayCtl_createGo bay = false ∧ s.flag F.bayCtl_retireGo bay = false ∧ s.flag F.bayCtl_washGo bay = false
    (word < 5 → s.isLocked a = false →
      (s.carveValid bay word value = true → ∃ t, Machine.exec (.bayCarveWrite bay word id value) s = .next t ∧
        { t with regs := s.regs, locked := s.locked } = s ∧ t.isLocked a = true ∧ (∀ k, k ≠ a → t.reg k = s.reg k ∧ t.isLocked k = s.isLocked k) ∧
        (word < 2 → field (t.reg a) 18 0 = field value 18 0 ∧ field (t.reg a) 50 32 = field value 50 32) ∧
        (word = 2 → field (t.reg a) 20 0 = field value 20 0 ∧ field (t.reg a) 52 32 = field value 52 32) ∧
        (word = 3 → t.reg a = value) ∧ (word = 4 → field (t.reg a) 15 0 = field value 15 0)) ∧
      (s.carveValid bay word value = false → ∃ t, Machine.exec (.bayCarveWrite bay word id value) s = .next t ∧ refused t 9 ∧
        t.get F.plnAccessErr_addr = a)) ∧
    (idle →
      (s.mayCreate bay = true → ∃ t, Machine.exec (.createGo bay id) s = .next t ∧ s.onlyReg ctl t ∧ t.get F.bayCtl_state bay = 1 ∧
        t.get F.bayCtl_tenant bay = s.get F.bayCtl_tenant bay) ∧
      (s.mayCreate bay = false → ∃ t, Machine.exec (.createGo bay id) s = .next t ∧ refused t 6) ∧
      (st = 1 → ∃ t, Machine.exec (.retireGo bay id) s = .next t ∧ s.onlyReg ctl t ∧ t.get F.bayCtl_state bay = 2) ∧
      (st ≠ 1 → ∃ t, Machine.exec (.retireGo bay id) s = .next t ∧ refused t 6) ∧
      (s.bayStopped bay = true → (∀ j k, j < 80 → k < 16 → s.physAt j k < 17) → (∀ j r, s.spare j = some r → r / 17 = j) →
        ∃ t, Machine.exec (.washGo bay id) s = .next t ∧ t.flag F.bayCtl_washGo bay = true ∧
        (∀ k, k ∈ s.bayCores bay → (t.core (s.phys k)).washEnd = some (s.now + 2049) ∧ (t.core (s.phys k)).basin = []) ∧
        (∀ k r, k ∈ s.bayShoals bay → s.spare k = some r → (t.core r).washEnd = some (s.now + 2049) ∧ (t.core r).basin = []) ∧ t.tier = s.tier) ∧
      (s.bayStopped bay = false → ∃ t, Machine.exec (.washGo bay id) s = .next t ∧ refused t 6)) ∧
    (s.flag F.bayCtl_washGo bay = true → s.bayWashed bay = true →
      let done := fun (t : State) => t.flag F.bayCtl_washGo bay = false ∧
        t.get F.bayStat_washes bay = (s.get F.bayStat_washes bay + 1) % 2 ^ 32 ∧ t.tier = s.tier
      (st ≠ 2 ∨ s.contextCount bay ≠ 0 → ∃ t, Machine.exec (.bayWashDone bay) s = .next t ∧ done t ∧ t.get F.bayCtl_state bay = st ∧
        (∀ p, t.core p = s.core p) ∧ t.locked = s.locked) ∧
      (st = 2 → s.contextCount bay = 0 → ∃ t, Machine.exec (.bayWashDone bay) s = .next t ∧ done t ∧ t.get F.bayCtl_state bay = 0 ∧
        t.get F.bayCtl_bayEpoch bay = (s.get F.bayCtl_bayEpoch bay + 1) % 65536 ∧ t.armed bay = false ∧
        ∀ k, k ∈ carveAddrs bay → t.reg k = 0 ∧ (s.locked.Nodup → t.isLocked k = false))) ∧
    (role < 4 → epoch < 65536 → ∃ t, Machine.exec (.bayRoleWrite bay id role epoch) s = .next t ∧
      t.get F.bayRole_role bay = role ∧ t.get F.bayRole_epoch bay = epoch ∧ s.onlyReg (F.bayRole_role.addr bay) t) ∧
    (let tree := s.sel F.plnDtreeSel_tree
      let word := s.sel F.plnDtreeSel_word
      word ≠ 0 → bit (Sparse.get 0 s.dtree (tree * 16)).toNat 19 = false →
        ∃ t, Machine.exec (.dtreeWrite id value) s = .next t ∧ { t with dtree := s.dtree } = s ∧
          t.dtree = Sparse.set 0 s.dtree (tree * 16 + word) (value &&& treeMask word))

/-- OPEN_GO opens a FREE context with one reference, its bay's tenant, its pointers at 0 and no fault; CLOSE_GO closes an OPEN or LOST one
and drops a reference; INC and DEC of a tick all apply; FREE_GO frees a CLOSING one without references; PLN_CTX_LOSE makes an OPEN one LOST
with the fault of its core (R362 to R366). -/
def Obligations.ContextsLive : Prop :=
  ∀ (s : State) (ctx core : Nat) (id : BitVec 12) (ids : List (BitVec 12)), s.canonical = true → s.takes id = true → ctx < 1024 → core < 1280 →
    let st := s.get F.ctxCfg_state ctx
    let bay := s.get F.ctxCfg_bay ctx
    let host := s.get F.ctxRef_host ctx
    let idle := s.flag F.ctxCfg_openGo ctx = false ∧ s.flag F.ctxCfg_closeGo ctx = false ∧ s.flag F.ctxCfg_freeGo ctx = false
    let kept := fun (t : State) => t.cores = s.cores ∧ t.tier = s.tier ∧ ∀ k, k < 1024 → k ≠ ctx → t.get F.ctxCfg_state k = s.get F.ctxCfg_state k
    let c := s.core (s.phys core)
    (idle →
      (s.mayOpenCtx ctx = true → ∃ t, Machine.exec (.ctxOpen ctx id) s = .next t ∧ kept t ∧ t.get F.ctxCfg_state ctx = 1 ∧
        t.get F.ctxRef_host ctx = 1 ∧ t.get F.ctxCfg_tenant ctx = (if bay < 80 then s.get F.bayCtl_tenant bay else 0) ∧
        t.get F.ctxCfg_bay ctx = bay ∧ t.reg (F.ctxFault_class.addr ctx) = 0 ∧ t.reg (F.ctxCqp_producer.addr ctx) = 0 ∧
        ∀ q, q < 4 → t.reg ((F.ctxSqp_producer.sh (16 * q)).addr ctx) = 0) ∧
      (s.mayOpenCtx ctx = false → ∃ t, Machine.exec (.ctxOpen ctx id) s = .next t ∧ kept t ∧ t.get F.ctxCfg_state ctx = st ∧
        t.get F.ctxRef_host ctx = host ∧ t.get F.plnAccessErr_count = min 65535 (s.get F.plnAccessErr_count + 1)) ∧
      (st = 1 ∨ st = 2 → ∃ t, Machine.exec (.ctxClose ctx id) s = .next t ∧ kept t ∧ t.get F.ctxCfg_state ctx = 3 ∧
        t.get F.ctxRef_host ctx = host - 1 ∧ t.get F.ctxCfg_bay ctx = bay) ∧
      (st = 0 ∨ st = 3 → ∃ t, Machine.exec (.ctxClose ctx id) s = .next t ∧ kept t ∧ t.get F.ctxCfg_state ctx = st ∧
        t.get F.ctxRef_host ctx = host ∧ t.get F.plnAccessErr_count = min 65535 (s.get F.plnAccessErr_count + 1)) ∧
      (masterOf id ≤ 1 → s.mayFree ctx = true → ∃ t, Machine.exec (.freeGo ctx id) s = .next t ∧ t.tier = s.tier ∧
        t.get F.ctxCfg_state ctx = 0 ∧ t.get F.ctxCfg_bay ctx = 127 ∧ t.get F.ctxCookie_cookie ctx = 0 ∧ t.flag F.ctxCq_enable ctx = false ∧
        t.reg (F.ctxFault_class.addr ctx) = 0 ∧ ∀ q, q < 4 → t.flag (F.ctxSq_enable.sh (16 * q)) ctx = false)) ∧
    (st ≠ 0 → s.heldWrites = [] → (∀ m, m ∈ ids → s.takes m = true) → (ids.map (fun m => m.toNat % 512)).Nodup →
      (host + ids.length ≤ 65535 → ∃ t, Machine.exec (.inc ctx ids) s = .next t ∧ kept t ∧ t.get F.ctxRef_host ctx = host + ids.length ∧
        t.get F.ctxCfg_state ctx = st ∧ t.get F.plnAccessErr_count = s.get F.plnAccessErr_count) ∧
      (ids.length ≤ host → ∃ t, Machine.exec (.dec ctx ids) s = .next t ∧ kept t ∧ t.get F.ctxRef_host ctx = host - ids.length ∧
        t.get F.ctxCfg_state ctx = st ∧ t.get F.plnAccessErr_count = s.get F.plnAccessErr_count)) ∧
    (masterOf id ≠ 3 →
      (st = 1 → s.mayLose ctx core = true → s.get F.ctxFault_class ctx = 0 → ∃ t, Machine.exec (.plnCtxLose id ctx core) s = .next t ∧ kept t ∧
        t.get F.ctxCfg_state ctx = 2 ∧ t.get F.ctxFault_class ctx = c.get F.corFault_class ∧ t.get F.ctxFault_core ctx = core ∧
        t.get F.ctxFault_tag ctx = c.get F.corFault_tag ∧ (∃ d, t.evDue = s.evDue ++ [⟨2, some ctx, s.now, d⟩]) ∧ t.get F.ctxRef_host ctx = host) ∧
      (st = 0 → ∃ t, Machine.exec (.plnCtxLose id ctx core) s = .next t ∧ s.onlyReg 0x100 t ∧
        t.get F.plnAccessErr_count = min 65535 (s.get F.plnAccessErr_count + 1)))

/-- The entries of a lost context are completed with CONTEXT_LOST and freed. The teardown of a context alone in a bay washes the bay, that
of another fills its coves; as it ends, TEARDOWN_DONE is raised. An event goes to the ring with its bytes, PRODUCER and vector where there is
room, and waits, or is lost and counted, where there is none; PLN_MSIX sends a vector (R365, R367, R373, R375, R376). -/
def Obligations.EventsTold : Prop :=
  ∀ (s : State) (ctx i vector : Nat) (id : BitVec 12) (x : Sub) (e : Event), s.canonical = true → ctx < 1024 →
    let bay := s.get F.ctxCfg_bay ctx
    let slot := s.get F.ctxCqp_producer ctx
    let at_ := s.get F.plnEvtPtr_producer
    let next := (at_ + 1) % 2 ^ s.get F.plnEvtCfg_sizeLog2
    let ring := s.evRoom = true ∧ s.get F.plnEvtCfg_sizeLog2 ≤ 16 ∧ s.evHeld = [] ∧ s.evLost = 0
    let writes := fun (t : State) (y : Event) => t.tierRead (s.get F.plnEvtCfg_base * 4096 + 32 * at_) 32 = s.evBytes y ∧
      t.get F.plnEvtPtr_producer = next ∧ t.msix = s.msix ++ [s.evVector y] ∧ t.evHeld = [] ∧
      t.get F.plnEvtStat_written = (s.get F.plnEvtStat_written + 1) % 2 ^ 32
    (s.leadRuns = true →
      ((s.get F.ctxCfg_state ctx = 2 ∨ (s.get F.ctxCfg_state ctx = 3 ∧ s.get F.ctxFault_class ctx ≠ 0)) → s.subs = [(i, x)] → s.get F.ledWord0_context i = ctx → i < 8192 → s.ledState i ≠ 0 → s.cqRoom ctx = true →
        s.get F.ctxCq_sizeLog2 ctx ≤ 16 → s.pagesOf i = [] → (bit x.flags 0 = false ∨ bit (s.get F.ctxCfg_evtEn ctx) 0 = false) →
        ∃ t, Machine.exec (.contextLostComplete ctx) s = .next t ∧ t.subs = [] ∧ t.ledState i = 0 ∧ t.cores = s.cores ∧
          t.get F.ctxCqp_producer ctx = (slot + 1) % 2 ^ s.get F.ctxCq_sizeLog2 ctx ∧
          t.tierRead (s.get F.ctxCq_base ctx * 4096 + 32 * slot) 32 = completionBytes
            (if s.ledState i = 6 then s.completionOf i x (x.done.getD (0, 0)).1 (x.done.getD (0, 0)).2 else s.completionOf i x 1 0)
            (Sparse.get 0 s.cqLap ctx) s.now) ∧
      (s.mayFree ctx = true → s.teardowns = [] → s.evDue = [] →
        (bay < 80 → s.contextCount bay = 1 → s.bayStopped bay = true → s.flag F.bayCtl_washGo bay = false →
          ∃ t, Machine.exec (.teardown ctx) s = .next t ∧ t.teardowns = [(ctx, ⟨true, []⟩)] ∧ t.flag F.bayCtl_washGo bay = true ∧
            t.get F.ctxCfg_state ctx = 3) ∧
        (80 ≤ bay ∨ s.contextCount bay ≠ 1 → ∃ t l, Machine.exec (.teardown ctx) s = .next t ∧ t.teardowns = [(ctx, ⟨false, l⟩)] ∧
          (∀ k, k ∈ l.map (fun y => y.1) ↔ k < 1280 ∧ s.live k = true ∧ (s.core (s.phys k)).ownedBy ctx ≠ []) ∧ t.get F.ctxCfg_state ctx = 3)) ∧
      (s.mayFree ctx = true → s.teardowns = [(ctx, ⟨true, []⟩)] → s.flag F.bayCtl_washGo bay = false → ring →
        ∃ t, Machine.exec (.teardown ctx) s = .next t ∧ t.teardowns = [] ∧ writes t ⟨5, some ctx, s.now, BitVec.ofNat 64 (bay + 128)⟩ ∧
          t.cores = s.cores) ∧
      (s.mayRaise e = true →
        (ring → ∃ t, Machine.exec (.eventRaise e) s = .next t ∧ writes t e ∧ t.evDue = s.evDue.erase e ∧ t.cores = s.cores) ∧
        (s.evRoom = false → ∃ t, Machine.exec (.eventRaise e) s = .next t ∧ t.tier = s.tier ∧ t.msix = s.msix ∧ t.cores = s.cores ∧
          (s.evHeld.length < 256 ∨ keptKind e.kind = true → t.evHeld = s.evHeld ++ [e] ∧
            t.get F.plnEvtStat_pending = (s.evHeld.length + 1) % 65536 ∧ t.get F.plnEvtStat_lost = s.get F.plnEvtStat_lost) ∧
          (256 ≤ s.evHeld.length → keptKind e.kind = false → t.evHeld = s.evHeld ∧ t.evLost = s.evLost + 1 ∧
            t.get F.plnEvtStat_lost = min 65535 (s.get F.plnEvtStat_lost + 1))))) ∧
    (s.takes id = true → masterOf id ≤ 1 →
      (vector < 2048 → ∃ t, Machine.exec (.plnMsix id vector) s = .next t ∧ t.msix = s.msix ++ [vector] ∧ t.get F.plnMsix_vector = vector ∧
        { t with regs := s.regs, msix := s.msix } = s ∧ ∀ a, a ≠ 0x6040 → t.reg a = s.reg a) ∧
      (2048 ≤ vector → vector < 2 ^ 64 → ∃ t, Machine.exec (.plnMsix id vector) s = .next t ∧ s.onlyReg 0x100 t ∧
        t.get F.plnAccessErr_count = min 65535 (s.get F.plnAccessErr_count + 1)))

/-! ## The image, the journal and partial reconfiguration -/

/-- An attempt with HOLD stops HELD; one whose header fails counts, names cause and word, and makes the round go on or end; one whose
frames pass goes to its start order. A fall of release or a rail abandons the load, and a rail that falls in READY holds the plain and raises
its event; a retry begins a new round; the start order's actions run one after the other, LOCK within its time; the end writes the
geometry, washes every usable core, sets READY and starts the pilots (R30, R381 to R384, R387, R388). -/
def Obligations.ImagesLoad : Prop :=
  ∀ (s : State) (cause byte : Nat) (m : Measure) (release logic ledge strand : Bool), s.canonical = true →
    let st := s.get F.imgStat_state
    let l := s.loader
    let slot := if l.tries = 0 then (if s.flag F.imgCtl_slotOvrEn then s.get F.imgCtl_slotOvr else s.get F.imgBoot_slot) else l.slotOf l.tries
    let h := s.storeRead (slotBase slot) 128
    let fails := fun (t : State) (slot cause word : Nat) => t.get (if slot = 0 then F.imgFail_cause0 else F.imgFail_cause1) = cause ∧
      t.get (if slot = 0 then F.imgFail_word0 else F.imgFail_word1) = word ∧ t.header = [] ∧ t.sram = [] ∧ t.store = s.store
    let falls := (s.pins.release && !release) || (s.pins.railLogic && !logic) || (s.pins.railLedge && !ledge) || (s.pins.railStrand && !strand)
    let rails := b2n (s.pins.railLogic && !logic) + 2 * b2n (s.pins.railLedge && !ledge) + 4 * b2n (s.pins.railStrand && !strand)
    let moved := fun (t : State) => t.pins = { s.pins with release := release, railLogic := logic, railLedge := ledge, railStrand := strand } ∧
      t.inReset = (s.inReset && !(logic && ledge && strand))
    (s.mayLoad = true → (st = 0 ∨ st = 2 ∨ st = 8) → l.replayed = true →
      (s.flag F.imgCtl_hold = true → ∃ t, Machine.exec .imageLoadAttempt s = .next t ∧ s.onlyReg (F.imgStat_state.addr 0) { t with loader := l } ∧
        t.get F.imgStat_state = 8 ∧ t.loader.tries = l.tries) ∧
      (s.flag F.imgCtl_hold = false → s.storeBad = [] → s.headerFault h = some (cause, byte) →
        ∃ t, Machine.exec .imageLoadAttempt s = .next t ∧ fails t slot cause ((slotBase slot + byte) / 8) ∧ t.loader.tries = l.tries + 1 ∧
          t.get F.imgStat_attempts = min (2 ^ 32 - 1) (s.get F.imgStat_attempts + 1) ∧ t.get F.imgStat_state = (if 1 ≤ l.tries then 7 else 2)) ∧
      (s.flag F.imgCtl_hold = false → s.storeBad = [] → s.headerFault h = none → s.flag F.imgBoot_compare = false →
        (s.walkFrames (.store (slotBase slot)) h (fun u _ => (u, none)) (hdr h 44 4 * 8) (hdr h 40 4) 128).2 = none →
        ∃ t, Machine.exec .imageLoadAttempt s = .next t ∧ t.get F.imgStat_state = 4 ∧ t.header = h ∧ t.loader.pos = 0 ∧
          t.loader.tries = l.tries + 1 ∧ t.store = s.store ∧ t.tier = s.tier)) ∧
    ((st ≠ 6 → falls = true → ∃ t, Machine.exec (.loadAbandon release logic ledge strand) s = .next t ∧ moved t ∧ t.get F.imgStat_state = 0 ∧
        t.loader.tries = 0 ∧ t.loader.replayed = false ∧ t.header = [] ∧ t.sram = [] ∧ t.fabric = [] ∧ t.coreCfg = [] ∧ t.strandCfg = [] ∧
        (∀ p, (t.core p).strand = []) ∧ t.get F.imgStat_attempts = s.get F.imgStat_attempts ∧ t.store = s.store) ∧
      (st = 6 → rails ≠ 0 → ∃ t, Machine.exec (.loadAbandon release logic ledge strand) s = .next t ∧ moved t ∧ t.railHeld = true ∧
        t.evDue = s.evDue ++ [⟨20, none, s.now, BitVec.ofNat 64 rails⟩] ∧ t.get F.imgStat_state = 6 ∧ t.header = s.header ∧ t.sram = s.sram ∧
        (∀ p, (s.core p).flag F.corCtl_stopped = false → (t.core p).iss.running = false ∧ (t.core p).iss.stopping = true)) ∧
      ((st = 6 ∧ rails = 0) ∨ falls = false → ∃ t, Machine.exec (.loadAbandon release logic ledge strand) s = .next t ∧ moved t ∧
        { t with pins := s.pins, loader := l, inReset := s.inReset } = s ∧ { t.loader with released := l.released } = l)) ∧
    (st = 7 → (l.since + 10000000 ≤ s.now ∨ s.flag F.imgCtl_go = true) → ∃ t, Machine.exec .loadRetry s = .next t ∧ t.get F.imgStat_state = 2 ∧
      t.flag F.imgCtl_go = false ∧ t.loader = { l with tries := 0 } ∧ t.cores = s.cores ∧ t.store = s.store) ∧
    (st = 4 → l.pos < 4 → s.delayOver = true → s.mayLoad = true → ∃ t, Machine.exec .startAction s = .next t ∧ t.loader.pos = l.pos + 1 ∧
      t.loader.acted = s.now ∧ (s.nextAction = 1 → t.flag F.tidStat_locked = true ∧ t.loader.outputs = l.outputs) ∧
      (s.nextAction = 2 → t.loader.outputs = true ∧ t.flag F.tidStat_locked = s.flag F.tidStat_locked) ∧
      (2 < s.nextAction → { t with loader := l } = s) ∧ t.get F.imgStat_state = 4 ∧ t.store = s.store) ∧
    (st = 4 → l.pos = 0 → s.nextAction = 1 → l.acted + 10000000 ≤ s.now → l.first < 2 → ∃ t word, Machine.exec .lockTimeout s = .next t ∧
      fails t (l.slotOf (l.tries - 1)) 8 word ∧ t.get F.imgStat_state = (if 2 ≤ l.tries then 7 else 2)) ∧
    (Sparse.wf (fun _ => PilotRun.reset) s.pilots = true → st = 4 → l.pos = 4 → s.delayOver = true → s.mayLoad = true → (∀ k, k < 80 → ∀ n, n < 16 → s.physAt k n < 17) →
      ∃ t, Machine.exec (.loadFinish m) s = .next t ∧ t.get F.imgStat_state = 6 ∧ t.get F.plnGeom2_shoalMaskLo = hdr s.header 16 10 % 2 ^ 64 ∧
        t.get F.plnId_geomCode = hdr s.header 6 1 % 2 ^ (F.plnId_geomCode.hi + 1 - F.plnId_geomCode.lo) ∧ t.get F.plnGeom5_straits = 48 ∧
        t.get F.tidGovCfg_budget = 1024000 * t.get F.plnGeom3_shoalsUsable ∧ t.get F.tidGovCfg_floor = t.get F.tidGovCfg_budget / 2 ∧
        (∀ k, k < 80 → (t.usable k = bit (hdr s.header 16 10) k)) ∧ t.get F.plnGeom7_nearGib = (if m.hbmStacks % 16 = 15 then 256 else 0) ∧
        (∀ k, k < 1280 → t.usable (k / 16) = true → (t.core (t.phys k)).flag F.corCtl_stopped = true ∧ (t.core (t.phys k)).basin = [] ∧
          (t.core (t.phys k)).washEnd = none) ∧
        (∀ k, (k < 80 ∧ t.usable k = true) ∨ k = 80 → t.pilot k = { s.pilot k with inReset := false, hart := Hart.start }) ∧ t.flag F.imgMeasRail_valid = true ∧ t.flag F.imgMeasTier_valid = true ∧ t.tier = s.tier)

/-- PUSH queues an append to a journalled register, waits while the queue is full, and is refused for another address; the first append of
the queue is written behind the last record; COMPACT leaves in the other area the last record of every address. GO of a
reconfiguration that may start holds its shoal; any other is refused; PR_END releases the shoal washed, its mirror reset, with the outcome
in ERR_CODE (R391 to R393, R396, R398, R399). -/
def Obligations.StoreWorks : Prop :=
  ∀ (s : State) (id : BitVec 12) (value v : Reg64) (a gen : Nat) (rest : List (Nat × Reg64)) (r : PrRun), s.canonical = true →
    let used := s.get F.imgJrnlStat_used
    let area := s.get F.imgJrnlStat_area
    let addr := s.get F.imgJrnlAddr_addr * 8
    let shoal := field value 38 32
    let src := field value 62 61
    let h := s.imageBytes r.source 0 128
    (s.takes id = true → s.flag F.imgJrnlCmd_push = false → s.flag F.imgJrnlCmd_compact = false →
      (masterOf id ≤ 1 → isJournalled addr = true → s.appends.length < 16 → ∃ t, Machine.exec (.push id) s = .next t ∧
        t.appends = s.appends ++ [(addr, BitVec.ofNat 64 (s.get F.imgJrnlVal_value))] ∧ t.flag F.imgJrnlCmd_push = false ∧ t.store = s.store) ∧
      (masterOf id ≤ 1 → isJournalled addr = true → 16 ≤ s.appends.length → ∃ t, Machine.exec (.push id) s = .next t ∧
        s.onlyReg 0x7050 t ∧ t.flag F.imgJrnlCmd_push = true) ∧
      (masterOf id ≤ 1 → isJournalled addr = false → ∃ t, Machine.exec (.push id) s = .next t ∧ t.appends = s.appends ∧
        t.flag F.imgJrnlCmd_push = false ∧ t.flag F.imgJrnlStat_err = true ∧ t.store = s.store) ∧
      (s.loader.replayed = true → s.journalGen = some gen → gen + 1 < 2 ^ 64 →
        let kept := lastRecords (s.records area areaRecords 0)
        ∃ t, Machine.exec (.compact id) s = .next t ∧ t.records (1 - area) areaRecords 0 = kept.map (fun e => JRecord.holds e.1 e.2) ∧
          t.activeArea = some (1 - area) ∧ t.areaGen (1 - area) = gen + 1 ∧ t.get F.imgJrnlStat_area = 1 - area ∧
          t.get F.imgJrnlStat_used = kept.length ∧ t.flag F.imgJrnlCmd_compact = false ∧
          (∀ k, k < 0x18000000 → Sparse.get erasedByte t.store k = Sparse.get erasedByte s.store k))) ∧
    (s.appends = (a, v) :: rest → s.loader.replayed = true → s.journalGen = some gen → s.flag F.imgJrnlCmd_push = false →
      (used + 1 < compactAt → a < 2 ^ 26 → a % 8 = 0 → ∃ t, Machine.exec .journalAppend s = .next t ∧ t.appends = rest ∧
        t.readRecord (recordAt area used) = .holds a v ∧ t.get F.imgJrnlStat_used = used + 1 ∧ t.cores = s.cores ∧
        ∀ k, k < recordAt area used ∨ recordAt area used + 16 ≤ k → Sparse.get erasedByte t.store k = Sparse.get erasedByte s.store k) ∧
      (areaRecords ≤ used → ∃ t, Machine.exec .journalAppend s = .next t ∧ t.appends = rest ∧ t.flag F.imgJrnlStat_full = true ∧
        t.store = s.store)) ∧
    (s.takes id = true → s.flag F.imgPrCfg_go = false → shoal < 80 → src < 3 →
      (s.mayPr shoal = true → ∃ t, Machine.exec (.prGo id value) s = .next t ∧ t.pr = some ⟨shoal, src, s.get F.imgPrAddr_addr * 64⟩ ∧
        t.flag F.imgPrStat_busy = true ∧ t.cores = s.cores ∧ (∀ k, k / 16 = shoal → k < 1280 → t.live k = false)) ∧
      (s.mayPr shoal = false → ∃ t, Machine.exec (.prGo id value) s = .next t ∧ t.pr = s.pr ∧ t.flag F.imgPrStat_err = true ∧
        t.get F.imgPrStat_errCode = 1 ∧ t.get F.plnAccessErr_count = min 65535 (s.get F.plnAccessErr_count + 1) ∧ t.cores = s.cores)) ∧
    (s.pr = some r → r.shoal < 80 → s.usable r.shoal = true → (∀ n, n < 16 → s.physAt r.shoal n < 17) →
      let ended := fun (t : State) (code : Nat) => t.pr = none ∧ t.flag F.imgPrStat_busy = false ∧ t.get F.imgPrStat_errCode = code ∧
        (∀ k, k / 16 = r.shoal → (t.core (s.phys k)).flag F.corCtl_stopped = true ∧ (t.core (s.phys k)).basin = [] ∧
          (t.core (s.phys k)).washEnd = none) ∧ (∀ p, p / 17 ≠ r.shoal → s.spare r.shoal ≠ some p → t.core p = s.core p) ∧ t.tier = s.tier
      (s.imageFails r.source 0 128 = true → ∃ t, Machine.exec .prEnd s = .next t ∧ ended t 4 ∧ t.flag F.imgPrStat_err = true) ∧
      (s.imageFails r.source 0 128 = false → s.headerFault h ≠ none ∨ geometryBytes h ≠ geometryBytes s.header →
        ∃ t, Machine.exec .prEnd s = .next t ∧ ended t 2 ∧ t.flag F.imgPrStat_err = true) ∧
      (s.imageFails r.source 0 128 = false → s.headerFault h = none → geometryBytes h = geometryBytes s.header → s.storeBad = [] → s.tierPoison = [] →
        (s.walkFrames r.source h (fun u _ => (u, none)) (hdr h 44 4 * 8) (hdr h 40 4) 128).2 = none →
        ∃ t, Machine.exec .prEnd s = .next t ∧ ended t 0 ∧ t.flag F.imgPrStat_err = s.flag F.imgPrStat_err ∧
          t.get F.imgPrStat_doneCount = (s.get F.imgPrStat_doneCount + 1) % 2 ^ 32))

/-! ## The debug port, trace and single writes -/

/-- A command of XFER acts at once where nothing holds it, and its result stands for the next capture: NOP does nothing; CSR, basin,
tier, store and table reads give the word and change nothing; the writes write exactly their word; an erase needs the loader HELD; a
command behind a busy one is dropped, and DSTAT shows BUSY, DROPPED and COMMANDS (R429 to R433, Table 16-2). -/
def Obligations.DebugWorks : Prop :=
  ∀ (s : State) (core addr : Nat) (data : Reg64) (x : XferCmd), s.canonical = true →
    let p := s.phys core
    let c := s.core p
    let a := addr / 8 * 8
    let ends := fun (t : State) (status : Nat) => t.dbg.busy = none ∧ t.dbg.status = status ∧ t.dbg.dropped = s.dbg.dropped ∧
      t.dbg.commands = (s.dbg.commands + 1) % 65536
    let reads := fun (t : State) (v : Reg64) => ends t 0 ∧ t.dbg.data = v ∧ { t with dbg := s.dbg } = s
    let wrote := fun (t : State) => ends t 0 ∧ t.fresh = s.fresh + 1
    let i := addr % 2 ^ 36
    let entry := fun (t : State) => Sparse.get 0 (t.core p).strand
    (s.inReset = false → s.dbg.busy = none →
      (∃ t, Machine.exec (.xferNop core addr data) s = .next t ∧ wrote t ∧ { t with dbg := s.dbg, fresh := s.fresh } = s) ∧
      (addr < 2 ^ 26 → addr % 8 = 0 → s.placeOf addr ≠ .hole → s.heldWrites = [] →
        (∃ t, Machine.exec (.xferCsrRead core addr data) s = .next t ∧ reads t (s.csrRead addr)) ∧
        (s.washHolds addr = false → ∃ t u, Machine.exec (.xferCsrWrite core addr data) s = .next t ∧
          Machine.exec (.registerWrite [{ id := 0, addr := addr, beats := [data] }]) s = .next u ∧ ends t 0 ∧
          { t with dbg := s.dbg, fresh := u.fresh, responses := u.responses } = u)) ∧
      (addr < 2 ^ 26 → addr % 8 ≠ 0 → s.heldWrites = [] → ∃ t, Machine.exec (.xferCsrRead core addr data) s = .next t ∧ ends t 2 ∧
        t.get F.plnAccessErr_cause = 3 ∧ t.get F.plnAccessErr_addr = addr) ∧
      (core < 1280 → s.usable (core / 16) = true → c.washEnd = none → s.govAdmits (p / 17) 4 = true → addr < basinBytes →
        (c.poisoned (chunkOf a) = false → c.errorsIn (chunkOf a) = [] → ∃ t, Machine.exec (.xferBasinRead core addr data) s = .next t ∧ ends t 0 ∧
          t.dbg.data = BitVec.ofNat 64 (bytesNat (c.peek a 8)) ∧ t.dbg.poison = false ∧ (t.core p).basin = c.basin ∧ (t.core p).tags = c.tags) ∧
        (c.folded (chunkOf a) = false → ∃ t, Machine.exec (.xferBasinWrite core addr data) s = .next t ∧ wrote t ∧
          (t.core p).peek a 8 = natBytes 8 data.toNat ∧ (t.core p).tags = c.tags ∧ (∀ k, k < a ∨ a + 8 ≤ k → (t.core p).peek k 1 = c.peek k 1) ∧
          ∀ k, k ≠ p → t.core k = s.core k) ∧
        (c.folded (chunkOf a) = false → ∃ t, Machine.exec (.xferPoisonWrite core addr data) s = .next t ∧ wrote t ∧
          (t.core p).poisoned (chunkOf addr) = bit data.toNat 0 ∧ (t.core p).basin = c.basin ∧ (t.core p).tags = c.tags ∧
          ∀ k, k ≠ p → t.core k = s.core k)) ∧
      (1280 ≤ core → addr < 2 ^ 25 → ∃ t, Machine.exec (.xferBasinRead core addr data) s = .next t ∧ ends t 2 ∧
        { t with dbg := s.dbg, fresh := s.fresh } = s) ∧
      (addr < 2 ^ 41 → s.tierExists a 8 = true →
        (∃ t, Machine.exec (.xferTierRead core addr data) s = .next t ∧ ends t (if s.tierBad a 8 then 2 else 0) ∧
          t.dbg.data = BitVec.ofNat 64 (s.tierNat a 8) ∧ t.dbg.poison = s.tierBad a 8 ∧ t.tier = s.tier ∧ t.cores = s.cores) ∧
        (∃ t, Machine.exec (.xferTierWrite core addr data) s = .next t ∧ wrote t ∧ t.tierRead a 8 = natBytes 8 data.toNat ∧
          (∀ k, k < a ∨ a + 8 ≤ k → Sparse.get 0 t.tier k = Sparse.get 0 s.tier k) ∧ t.cores = s.cores)) ∧
      (addr < storeEnd →
        (s.storeFails a 8 = false → ∃ t, Machine.exec (.xferStoreRead core addr data) s = .next t ∧
          reads t (BitVec.ofNat 64 (s.storeNat a 8)) ∧ t.dbg.poison = false) ∧
        (s.loaderHeld = true →
          (∃ t, Machine.exec (.xferStoreWrite core addr data) s = .next t ∧ wrote t ∧ t.storeRead a 8 = natBytes 8 data.toNat ∧ t.storeFails a 8 = false ∧
            ∀ k, k < a ∨ a + 8 ≤ k → Sparse.get erasedByte t.store k = Sparse.get erasedByte s.store k) ∧
          (∃ t, Machine.exec (.xferStoreErase core addr data) s = .next t ∧ wrote t ∧
            ∀ k, Sparse.get erasedByte t.store k = if k / eraseSize = addr / eraseSize then erasedByte else Sparse.get erasedByte s.store k)) ∧
        (s.loaderHeld = false → (∃ t, Machine.exec (.xferStoreWrite core addr data) s = .next t ∧ ends t 2 ∧ t.store = s.store) ∧
          ∃ t, Machine.exec (.xferStoreErase core addr data) s = .next t ∧ ends t 2 ∧ t.store = s.store)) ∧
      (core < 1280 → s.usable (core / 16) = true → c.washEnd = none → s.heldWrites = [] → addr / 2 ^ 36 = 1 → i < 8192 →
        Sparse.wf (fun _ => 0) c.strand = true →
        (∃ t, Machine.exec (.xferTableRead core addr data) s = .next t ∧ reads t (entry s i)) ∧
        ((F.corStrandData_data.base, 0) ∉ c.cyc.moved → bit s.constBlocks (i / 512) = false → ∃ t, Machine.exec (.xferTableWrite core addr data) s = .next t ∧ wrote t ∧
            (∀ k, entry t k = if k = i then data else entry s k) ∧ (t.core p).get F.corStrandSel_word = c.get F.corStrandSel_word ∧
            (t.core p).basin = c.basin ∧ (t.core p).tags = c.tags)) ∧
      (9 ≤ addr / 2 ^ 36 → addr / 2 ^ 36 < 32 → ∃ t, Machine.exec (.xferTableRead core addr data) s = .next t ∧ ends t 2 ∧
        { t with dbg := s.dbg, fresh := s.fresh } = s)) ∧
    (s.inReset = false → s.dbg.busy = some x → s.xferWaits x = true →
      (∃ t, Machine.exec (.xferNop core addr data) s = .next t ∧ t.dbg = { s.dbg with dropped := true } ∧ { t with dbg := s.dbg } = s)) ∧
    (s.dbg.busy = none ∨ (∃ y, s.dbg.busy = some y ∧ s.xferWaits y = true) → ∃ t, Machine.exec .dstatCapture s = .next t ∧
      { t with dbg := s.dbg } = s ∧ t.dbg.dropped = false ∧ bit t.dbg.dstat 31 = s.dbg.busy.isSome ∧ bit t.dbg.dstat 30 = s.dbg.dropped ∧
      t.dbg.dstat % 65536 = s.dbg.commands % 65536)

/-- A selected event joins its core's buffer of 16 with the command tag of its word, is lost and counted when that is full, and goes to the
ring where that takes it; PRT_CTL takes its fields. While the plain is in reset no write is accepted; before READY a write by any master but
the debug port changes nothing; a field that two masters write in one tick takes the value of the first of them, and the other is recorded (R30, R187, R385, R411, R413, R438, R442). -/
def Obligations.PortsTake : Prop :=
  ∀ (s : State) (r : TraceRec) (id : BitVec 12) (addr ctx : Nat) (value v1 v2 : Reg64), s.canonical = true →
    let p := s.phys r.core
    let c := s.core p
    let y := { r with tag := c.traceTag r }
    let size := 2 ^ s.get F.dbgTraceCfg_sizeLog2
    let w := s.get F.dbgTracePtr_write
    let at_ := s.get F.dbgTraceCfg_base * 4096 + w
    let cookie := F.ctxCookie_cookie.addr ctx
    (r.core < 1280 →
      (bit (c.get F.dbgTraceSel_events) r.kind = false → ∃ t, Machine.exec (.traceRecord r) s = .next t ∧ t = s) ∧
      (bit (c.get F.dbgTraceSel_events) r.kind = true → s.flag F.dbgTraceCfg_enable = false →
        (c.traceBuf.length < 16 → ∃ t, Machine.exec (.traceRecord r) s = .next t ∧ s.onlyCore p t ∧
          (t.core p).traceBuf = c.traceBuf ++ [y] ∧ { t.core p with traceBuf := c.traceBuf } = c) ∧
        (16 ≤ c.traceBuf.length → ∃ t, Machine.exec (.traceRecord r) s = .next t ∧ s.onlyReg (F.dbgTraceStat_lost.addr 0) t ∧
          t.get F.dbgTraceStat_lost = min F.dbgTraceStat_lost.max (s.get F.dbgTraceStat_lost + 1))) ∧
      (bit (c.get F.dbgTraceSel_events) r.kind = true → s.flag F.dbgTraceCfg_enable = true → c.traceBuf = [] → w + 32 ≤ size → size ≤ 2 ^ 30 →
        32 ≤ (s.get F.dbgTracePtr_read + 2 * size - w - 1) % size →
        ∃ t, Machine.exec (.traceRecord r) s = .next t ∧ t.tierRead at_ 32 = TraceBytes y ∧ t.get F.dbgTracePtr_write = (w + 32) % size ∧
          (t.core p).traceBuf = [] ∧ t.get F.dbgTraceStat_written = (s.get F.dbgTraceStat_written + 1) % (F.dbgTraceStat_written.max + 1) ∧
          ∀ k, k < at_ ∨ at_ + 32 ≤ k → Sparse.get 0 t.tier k = Sparse.get 0 s.tier k)) ∧
    (s.takes id = true → masterOf id ≤ 1 → ∃ t, Machine.exec (.prtEnable id value) s = .next t ∧
      t.flag F.prtCtl_enable = bit value.toNat 63 ∧ t.flag F.prtCtl_spareReplay = bit value.toNat 62 ∧ t.get F.prtCtl_seed = field value 31 0 ∧
      s.onlyReg 0xc1000 { t with prtGen := s.prtGen } ∧
      (s.flag F.prtCtl_enable = false → bit value.toNat 63 = true → t.prtGen = []) ∧ (s.flag F.prtCtl_enable = true → t.prtGen = s.prtGen)) ∧
    (s.inReset = true → ∃ t, Machine.exec (.registerWrite [{ id := id, addr := addr, beats := [value] }]) s = .next t ∧
      { t with responses := s.responses } = s ∧ t.responses = []) ∧
    (s.inReset = false → s.heldWrites = [] → s.get F.imgStat_state ≠ 6 → masterOf id ≠ 0 → addr < 2 ^ 26 → addr % 8 = 0 → s.washHolds addr = false →
      ∃ t, Machine.exec (.registerWrite [{ id := id, addr := addr, beats := [value] }]) s = .next t ∧
        s.onlyReg 0x100 { t with responses := s.responses, fresh := s.fresh, pilots := s.pilots }) ∧
    (s.inReset = false → s.heldWrites = [] → s.get F.imgStat_state = 6 → ctx < 1024 →
      (∃ t, Machine.exec (.registerWrite [{ id := 1, addr := cookie, beats := [value] }]) s = .next t ∧ t.reg cookie = value ∧
        s.onlyReg cookie { t with responses := s.responses } ∧ t.responses = [.okay]) ∧
      (v1 ≠ v2 → ∃ t, Machine.exec (.registerWrite [{ id := 1, addr := cookie, beats := [v2] }, { id := 0, addr := cookie, beats := [v1] }]) s = .next t ∧
        t.reg cookie = v1 ∧ t.get F.plnCollide_count = min 255 (s.get F.plnCollide_count + 1) ∧ t.get F.plnCollide_loser = 1 ∧
        t.get F.plnCollide_winner = 0 ∧ t.get F.plnCollide_addr = cookie ∧ t.responses = [.okay, .okay]))
end

