-- ==== Sys2Proof/Laws/Memory.lean ====
section
/-! SUPPORT. Laws of the maps and byte memories: a read after a write, and the canonical form kept by every operation. -/

namespace Sys2Proof.Machine.Sparse

variable {α : Type}

theorem wfFrom_mono [DecidableEq α] {d : Nat → α} {lo hi : Nat} {m : List (Nat × α)} (h : wfFrom d hi m = true) (hl : lo ≤ hi) :
    wfFrom d lo m = true := by
  cases m with
  | nil => rfl
  | cons e rest => simp only [wfFrom, Bool.and_eq_true, decide_eq_true_eq] at h ⊢; exact ⟨⟨by omega, h.1.2⟩, h.2⟩

theorem get_below [DecidableEq α] {d : Nat → α} {lo i : Nat} {m : List (Nat × α)} (x : α) (h : wfFrom d lo m = true) (hi : i < lo) :
    get x m i = x := by
  induction m generalizing lo with
  | nil => rfl
  | cons e rest ih =>
    simp only [wfFrom, Bool.and_eq_true, decide_eq_true_eq] at h
    simp only [get]
    rw [if_neg (by omega)]
    exact ih h.2 (by omega)

/-- A map reads at a key what was last written there. -/
theorem get_set_same [DecidableEq α] {d : Nat → α} {lo : Nat} {m : List (Nat × α)} (i : Nat) (x : α) (h : wfFrom d lo m = true) :
    get (d i) (set (d i) m i x) i = x := by
  induction m generalizing lo with
  | nil => simp only [set]; split <;> simp_all [get]
  | cons e rest ih =>
    obtain ⟨k, v⟩ := e
    have hm := h
    simp only [wfFrom, Bool.and_eq_true, decide_eq_true_eq] at h
    simp only [set]
    by_cases hik : i < k
    · rw [if_pos hik]
      split
      · next hx => rw [hx]; simp only [get]; rw [if_neg (by omega)]; exact get_below _ h.2 (by omega)
      · simp [get]
    · rw [if_neg hik]
      by_cases he : i = k
      · rw [if_pos he]
        split
        · next hx => rw [hx]; exact get_below _ h.2 (by omega)
        · simp [get]
      · rw [if_neg he]; simp only [get]; rw [if_neg he]; exact ih h.2

/-- A write leaves every other key alone. -/
theorem get_set_other [DecidableEq α] (d : α) (m : List (Nat × α)) (i j : Nat) (x y : α) (hij : i ≠ j) :
    get y (set d m i x) j = get y m j := by
  induction m with
  | nil => simp only [set]; split <;> simp [get, Ne.symm hij]
  | cons e rest ih =>
    obtain ⟨k, v⟩ := e
    simp only [set]
    by_cases hik : i < k
    · rw [if_pos hik]; split
      · rfl
      · simp [get, Ne.symm hij]
    · rw [if_neg hik]
      by_cases he : i = k
      · rw [if_pos he]; subst he
        split <;> simp [get, Ne.symm hij]
      · rw [if_neg he]; simp only [get]; rw [ih]

theorem wfFrom_set [DecidableEq α] {d : Nat → α} {lo : Nat} {m : List (Nat × α)} (i : Nat) (x : α) (h : wfFrom d lo m = true) (hl : lo ≤ i) :
    wfFrom d lo (set (d i) m i x) = true := by
  induction m generalizing lo with
  | nil => simp only [set]; split <;> simp_all [wfFrom]
  | cons e rest ih =>
    obtain ⟨k, v⟩ := e
    have hm := h
    simp only [wfFrom, Bool.and_eq_true, decide_eq_true_eq] at h
    simp only [set]
    by_cases hik : i < k
    · rw [if_pos hik]; split
      · exact hm
      · next hx =>
        simp only [wfFrom, Bool.and_eq_true, decide_eq_true_eq]
        exact ⟨⟨hl, hx⟩, ⟨by omega, h.1.2⟩, h.2⟩
    · rw [if_neg hik]
      by_cases he : i = k
      · rw [if_pos he]; subst he; split
        · exact wfFrom_mono h.2 (by omega)
        · next hx => simp only [wfFrom, Bool.and_eq_true, decide_eq_true_eq]; exact ⟨⟨hl, hx⟩, h.2⟩
      · rw [if_neg he]
        simp only [wfFrom, Bool.and_eq_true, decide_eq_true_eq]
        exact ⟨⟨h.1.1, h.1.2⟩, ih h.2 (by omega)⟩

/-- A write keeps the canonical form. -/
theorem wf_set [DecidableEq α] {d : Nat → α} {m : List (Nat × α)} (i : Nat) (x : α) (h : wf d m = true) : wf d (set (d i) m i x) = true :=
  wfFrom_set i x h (Nat.zero_le i)

theorem wfFrom_filter [DecidableEq α] {d : Nat → α} {lo : Nat} {m : List (Nat × α)} (p : Nat × α → Bool) (h : wfFrom d lo m = true) :
    wfFrom d lo (m.filter p) = true := by
  induction m generalizing lo with
  | nil => rfl
  | cons e rest ih =>
    simp only [wfFrom, Bool.and_eq_true, decide_eq_true_eq] at h
    simp only [List.filter]
    split
    · simp only [wfFrom, Bool.and_eq_true, decide_eq_true_eq]; exact ⟨h.1, ih h.2⟩
    · exact wfFrom_mono (ih h.2) (by omega)

/-- Forgetting keys keeps the canonical form. -/
theorem wf_filter [DecidableEq α] {d : Nat → α} {m : List (Nat × α)} (p : Nat × α → Bool) (h : wf d m = true) : wf d (m.filter p) = true :=
  wfFrom_filter p h

/-- Forgetting a range of keys keeps the canonical form. -/
theorem wf_clear [DecidableEq α] {d : Nat → α} {m : List (Nat × α)} (lo hi : Nat) (h : wf d m = true) : wf d (clear m lo hi) = true :=
  wfFrom_filter _ h

/-- A fold of operations that keep the canonical form keeps it. -/
theorem wf_foldl [DecidableEq α] {β : Type} {d : Nat → α} {f : List (Nat × α) → β → List (Nat × α)} {l : List β} {m : List (Nat × α)}
    (hf : ∀ m x, wf d m = true → wf d (f m x) = true) (h : wf d m = true) : wf d (l.foldl f m) = true := by
  induction l generalizing m with
  | nil => exact h
  | cons x rest ih => exact ih (hf m x h)

/-- The map of a list of entries is in canonical form. -/
theorem wf_ofList [DecidableEq α] {d : α} (l : List (Nat × α)) : wf (fun _ => d) (ofList d l) = true :=
  wf_foldl (fun _ x h => wf_set (d := fun _ => d) x.1 x.2 h) rfl

/-- What a write leaves in a map is the new value or was there before. -/
theorem mem_set [DecidableEq α] {d : α} {m : List (Nat × α)} {i : Nat} {x : α} {e : Nat × α} (h : e ∈ set d m i x) : e = (i, x) ∨ e ∈ m := by
  induction m with
  | nil => simp only [set] at h; split at h <;> simp_all
  | cons f rest ih =>
    obtain ⟨k, v⟩ := f
    simp only [set] at h
    split at h
    · split at h
      · exact .inr h
      · rcases List.mem_cons.mp h with h | h
        · exact .inl h
        · exact .inr h
    · split at h
      · split at h
        · exact .inr (List.mem_cons_of_mem _ h)
        · rcases List.mem_cons.mp h with h | h
          · exact .inl h
          · exact .inr (List.mem_cons_of_mem _ h)
      · rcases List.mem_cons.mp h with h | h
        · exact .inr (h ▸ List.mem_cons_self)
        · rcases ih h with h | h
          · exact .inl h
          · exact .inr (List.mem_cons_of_mem _ h)

/-- What a map reads is its unlisted value or an entry. -/
theorem get_mem (d : α) (m : List (Nat × α)) (i : Nat) : get d m i = d ∨ (i, get d m i) ∈ m := by
  induction m with
  | nil => exact .inl rfl
  | cons e rest ih =>
    obtain ⟨k, v⟩ := e
    simp only [get]
    split
    · next h => subst h; exact .inr List.mem_cons_self
    · rcases ih with h | h
      · exact .inl h
      · exact .inr (List.mem_cons_of_mem _ h)

end Sys2Proof.Machine.Sparse

namespace Sys2Proof.Machine.Bytes

/-- A write of bytes keeps the canonical form. -/
theorem wf_write {d : Byte} {m : List (Nat × Byte)} (a : Nat) (bs : List Byte) (h : Sparse.wf (fun _ => d) m = true) :
    Sparse.wf (fun _ => d) (write d m a bs) = true := by
  induction bs generalizing m a with
  | nil => exact h
  | cons b rest ih => exact ih _ (Sparse.wf_set (d := fun _ => d) a b h)

/-- A write of bytes leaves every byte outside it alone. -/
theorem get_write_other (d x : Byte) (m : List (Nat × Byte)) (a k : Nat) (bs : List Byte) (h : k < a ∨ a + bs.length ≤ k) :
    Sparse.get x (write d m a bs) k = Sparse.get x m k := by
  induction bs generalizing m a with
  | nil => rfl
  | cons b rest ih =>
    simp only [List.length_cons] at h
    simp only [write]
    rw [ih _ _ (by omega), Sparse.get_set_other _ _ _ _ _ _ (by omega)]

/-- A read gives the bytes that were written. -/
theorem read_write {d : Byte} {m : List (Nat × Byte)} (a : Nat) (bs : List Byte) (h : Sparse.wf (fun _ => d) m = true) :
    read d (write d m a bs) a bs.length = bs := by
  induction bs generalizing m a with
  | nil => rfl
  | cons b rest ih =>
    have hw := Sparse.wf_set (d := fun _ => d) a b h
    simp only [List.length_cons, read, write]
    rw [ih _ hw, get_write_other _ _ _ _ _ _ (by omega), Sparse.get_set_same (d := fun _ => d) a b h]

end Sys2Proof.Machine.Bytes
end

