-- ==== Sys2Proof/Laws/Fields.lean ====
section
/-! SUPPORT. Laws of bit fields and of the registers they lie in: a field reads what was written, and the others stay. -/

namespace Sys2Proof.Machine

/-- A number as what lies above a field, the field, and what lies below it. -/
theorem bits_split (v hi lo : Nat) :
    v = v / 2 ^ lo / 2 ^ (hi + 1 - lo) * 2 ^ (hi + 1 - lo) * 2 ^ lo + bits v hi lo * 2 ^ lo + v % 2 ^ lo := by
  have h1 := Nat.div_add_mod v (2 ^ lo)
  have h2 := Nat.div_add_mod (v / 2 ^ lo) (2 ^ (hi + 1 - lo))
  unfold bits
  generalize 2 ^ (hi + 1 - lo) = w at *
  generalize 2 ^ lo = l at *
  rw [← Nat.add_mul, Nat.mul_comm (v / l / w) w, h2, Nat.mul_comm (v / l) l, h1]

theorem setBits_eq (v hi lo x : Nat) :
    setBits v hi lo x = v / 2 ^ lo / 2 ^ (hi + 1 - lo) * 2 ^ (hi + 1 - lo) * 2 ^ lo + x % 2 ^ (hi + 1 - lo) * 2 ^ lo + v % 2 ^ lo := by
  have h := bits_split v hi lo
  unfold setBits
  omega

theorem setBits_div (v hi lo x : Nat) :
    setBits v hi lo x / 2 ^ lo = v / 2 ^ lo / 2 ^ (hi + 1 - lo) * 2 ^ (hi + 1 - lo) + x % 2 ^ (hi + 1 - lo) := by
  have hp : 0 < 2 ^ lo := Nat.two_pow_pos lo
  rw [setBits_eq, ← Nat.add_mul, Nat.add_comm, Nat.add_mul_div_right _ _ hp, Nat.div_eq_of_lt (Nat.mod_lt v hp), Nat.zero_add]

/-- A field reads what was written to it, cut to its width. -/
theorem bits_setBits (v hi lo x : Nat) : bits (setBits v hi lo x) hi lo = x % 2 ^ (hi + 1 - lo) := by
  unfold bits
  rw [setBits_div, Nat.add_comm, Nat.add_mul_mod_self_right, Nat.mod_mod]

/-- A write leaves the fields above it alone. -/
theorem bits_setBits_above (v hi lo x h l : Nat) (hl : hi < l) (hw : lo ≤ hi) : bits (setBits v hi lo x) h l = bits v h l := by
  have e : 2 ^ l = 2 ^ lo * (2 ^ (hi + 1 - lo) * 2 ^ (l - (hi + 1))) := by
    rw [← Nat.pow_add, ← Nat.pow_add]; congr 1; omega
  have hp : 0 < 2 ^ (hi + 1 - lo) := Nat.two_pow_pos _
  unfold bits
  rw [e, ← Nat.div_div_eq_div_mul, ← Nat.div_div_eq_div_mul, setBits_div, Nat.add_comm, Nat.add_mul_div_right _ _ hp,
    Nat.div_eq_of_lt (Nat.mod_lt _ hp), Nat.zero_add, Nat.div_div_eq_div_mul, Nat.div_div_eq_div_mul]

/-- A write leaves the fields below it alone. -/
theorem bits_setBits_below (v hi lo x h l : Nat) (hl : h < lo) : bits (setBits v hi lo x) h l = bits v h l := by
  have hmod : setBits v hi lo x % 2 ^ lo = v % 2 ^ lo := by
    rw [setBits_eq, ← Nat.add_mul, Nat.add_comm, Nat.add_mul_mod_self_right, Nat.mod_mod]
  have key : ∀ n : Nat, bits n h l = bits (n % 2 ^ lo) h l := by
    intro n
    unfold bits
    by_cases hh : l ≤ h
    · have e : 2 ^ lo = 2 ^ l * (2 ^ (h + 1 - l) * 2 ^ (lo - (h + 1))) := by
        rw [← Nat.pow_add, ← Nat.pow_add]; congr 1; omega
      rw [e, Nat.mod_mul_right_div_self, Nat.mod_mul_right_mod]
    · have : h + 1 - l = 0 := by omega
      rw [this]; simp [Nat.mod_one]
  rw [key, hmod, ← key]

theorem setBits_lt (v hi lo x : Nat) (hw : lo ≤ hi) (hh : hi < 64) (hv : v < 2 ^ 64) : setBits v hi lo x < 2 ^ 64 := by
  have hp : 0 < 2 ^ lo := Nat.two_pow_pos lo
  have e : (2 : Nat) ^ 64 = 2 ^ lo * (2 ^ (hi + 1 - lo) * 2 ^ (64 - (hi + 1))) := by
    rw [← Nat.pow_add, ← Nat.pow_add]; congr 1; omega
  have hx : x % 2 ^ (hi + 1 - lo) < 2 ^ (hi + 1 - lo) := Nat.mod_lt _ (Nat.two_pow_pos _)
  rw [e] at hv ⊢
  have h1 : v / 2 ^ lo / 2 ^ (hi + 1 - lo) < 2 ^ (64 - (hi + 1)) := by
    rw [Nat.div_div_eq_div_mul]
    exact Nat.div_lt_of_lt_mul (by rw [Nat.mul_assoc]; exact hv)
  have h2 : v % 2 ^ lo < 2 ^ lo := Nat.mod_lt v hp
  rw [setBits_eq]
  generalize v / 2 ^ lo / 2 ^ (hi + 1 - lo) = a at *
  generalize x % 2 ^ (hi + 1 - lo) = b at *
  generalize v % 2 ^ lo = c at *
  generalize 2 ^ (hi + 1 - lo) = w at *
  generalize 2 ^ (64 - (hi + 1)) = u at *
  generalize 2 ^ lo = l at *
  have h3 : a * w + b + 1 ≤ w * u := by
    have : (a + 1) * w ≤ u * w := Nat.mul_le_mul_right w h1
    rw [Nat.add_mul, Nat.one_mul, Nat.mul_comm u w] at this
    omega
  have h4 : (a * w + b + 1) * l ≤ w * u * l := Nat.mul_le_mul_right l h3
  rw [Nat.add_mul, Nat.one_mul, Nat.add_mul, Nat.mul_comm (w * u) l] at h4
  omega

theorem toNat_setField (r : Reg64) (hi lo x : Nat) (hw : lo ≤ hi) (hh : hi < 64) :
    (setField r hi lo x).toNat = setBits r.toNat hi lo x := by
  unfold setField
  rw [BitVec.toNat_ofNat, Nat.mod_eq_of_lt (setBits_lt _ _ _ _ hw hh r.isLt)]

/-- A field of a register reads what was written to it. -/
theorem field_setField (r : Reg64) (hi lo x : Nat) (hw : lo ≤ hi) (hh : hi < 64) :
    field (setField r hi lo x) hi lo = x % 2 ^ (hi + 1 - lo) := by
  unfold field; rw [toNat_setField _ _ _ _ hw hh, bits_setBits]

/-- A write of a field leaves the others of its register alone. -/
theorem field_setField_other (r : Reg64) (hi lo x h l : Nat) (hw : lo ≤ hi) (hh : hi < 64) (hd : h < lo ∨ hi < l) :
    field (setField r hi lo x) h l = field r h l := by
  unfold field; rw [toNat_setField _ _ _ _ hw hh]
  rcases hd with hd | hd
  · exact bits_setBits_below _ _ _ _ _ _ hd
  · exact bits_setBits_above _ _ _ _ _ _ hd hw

/-- A field lies in its register. -/
def RF.ok (f : RF) : Prop := f.lo ≤ f.hi ∧ f.hi < 64

/-! ## Registers of the plain -/

theorem State.reg_setReg (s : State) (a : Nat) (v : Reg64) (h : Sparse.wf plainReset s.regs = true) : (s.setReg a v).reg a = v :=
  Sparse.get_set_same (d := plainReset) a v h

theorem State.reg_setReg_other (s : State) (a b : Nat) (v : Reg64) (h : a ≠ b) : (s.setReg a v).reg b = s.reg b :=
  Sparse.get_set_other _ _ _ _ _ _ h

/-- A field of the plain reads what was put there. -/
theorem State.get_put (s : State) (f : RF) (x i : Nat) (h : Sparse.wf plainReset s.regs = true) (hf : f.ok) :
    (s.put f x i).get f i = x % 2 ^ (f.hi + 1 - f.lo) := by
  unfold State.get State.put; rw [State.reg_setReg _ _ _ h, field_setField _ _ _ _ hf.1 hf.2]

/-- Fields of other registers of the plain stay. -/
theorem State.get_put_reg (s : State) (f g : RF) (x i j : Nat) (h : f.addr i ≠ g.addr j) : (s.put f x i).get g j = s.get g j := by
  unfold State.get State.put; rw [State.reg_setReg_other _ _ _ _ h]

/-- Other fields of the same register of the plain stay. -/
theorem State.get_put_field (s : State) (f g : RF) (x i j : Nat) (h : Sparse.wf plainReset s.regs = true) (hf : f.ok)
    (hd : g.hi < f.lo ∨ f.hi < g.lo) : (s.put f x i).get g j = s.get g j := by
  by_cases ha : f.addr i = g.addr j
  · unfold State.get State.put
    rw [← ha, State.reg_setReg _ _ _ h, field_setField_other _ _ _ _ _ _ hf.1 hf.2 hd]
  · exact State.get_put_reg s f g x i j ha

theorem State.wf_setReg (s : State) (a : Nat) (v : Reg64) (h : Sparse.wf plainReset s.regs = true) :
    Sparse.wf plainReset (s.setReg a v).regs = true := Sparse.wf_set (d := plainReset) a v h

theorem State.wf_put (s : State) (f : RF) (x i : Nat) (h : Sparse.wf plainReset s.regs = true) :
    Sparse.wf plainReset (s.put f x i).regs = true := State.wf_setReg _ _ _ h

/-! ## Registers of a core -/

theorem CoreState.reg_setReg (c : CoreState) (a : Nat) (v : Reg64) (h : Sparse.wf coreReset c.regs = true) : (c.setReg a v).reg a = v :=
  Sparse.get_set_same (d := coreReset) a v h

theorem CoreState.reg_setReg_other (c : CoreState) (a b : Nat) (v : Reg64) (h : a ≠ b) : (c.setReg a v).reg b = c.reg b :=
  Sparse.get_set_other _ _ _ _ _ _ h

/-- A field of a core reads what was put there. -/
theorem CoreState.get_put (c : CoreState) (f : RF) (x i : Nat) (h : Sparse.wf coreReset c.regs = true) (hf : f.ok) :
    (c.put f x i).get f i = x % 2 ^ (f.hi + 1 - f.lo) := by
  unfold CoreState.get CoreState.put; rw [CoreState.reg_setReg _ _ _ h, field_setField _ _ _ _ hf.1 hf.2]

/-- Fields of other registers of the core stay. -/
theorem CoreState.get_put_reg (c : CoreState) (f g : RF) (x i j : Nat) (h : f.addr i ≠ g.addr j) : (c.put f x i).get g j = c.get g j := by
  unfold CoreState.get CoreState.put; rw [CoreState.reg_setReg_other _ _ _ _ h]

/-- Other fields of the same register of the core stay. -/
theorem CoreState.get_put_field (c : CoreState) (f g : RF) (x i j : Nat) (h : Sparse.wf coreReset c.regs = true) (hf : f.ok)
    (hd : g.hi < f.lo ∨ f.hi < g.lo) : (c.put f x i).get g j = c.get g j := by
  by_cases ha : f.addr i = g.addr j
  · unfold CoreState.get CoreState.put
    rw [← ha, CoreState.reg_setReg _ _ _ h, field_setField_other _ _ _ _ _ _ hf.1 hf.2 hd]
  · exact CoreState.get_put_reg c f g x i j ha

theorem CoreState.wf_setReg (c : CoreState) (a : Nat) (v : Reg64) (h : Sparse.wf coreReset c.regs = true) :
    Sparse.wf coreReset (c.setReg a v).regs = true := Sparse.wf_set (d := coreReset) a v h

/-! ## Cores -/

/-- A core reads as it was set. -/
theorem State.core_setCore (s : State) (p : Nat) (c : CoreState) (h : Sparse.wf (fun _ => CoreState.reset) s.cores = true) :
    (s.setCore p c).core p = c := Sparse.get_set_same (d := fun _ => CoreState.reset) p c h

/-- The other cores stay. -/
theorem State.core_setCore_other (s : State) (p q : Nat) (c : CoreState) (h : p ≠ q) : (s.setCore p c).core q = s.core q :=
  Sparse.get_set_other _ _ _ _ _ _ h

theorem State.wf_setCore (s : State) (p : Nat) (c : CoreState) (h : Sparse.wf (fun _ => CoreState.reset) s.cores = true) :
    Sparse.wf (fun _ => CoreState.reset) (s.setCore p c).cores = true := Sparse.wf_set (d := fun _ => CoreState.reset) p c h

end Sys2Proof.Machine
end

