-- ==== Sys2Proof/Laws/Kept.lean ====
section
/-! SUPPORT. What every operation keeps: the canonical form of all memories and register maps, the queue of waiting commands,
and free values never used twice. -/

namespace Sys2Proof.Machine

/-- A core in canonical form. -/
structure CoreKept (c : CoreState) : Prop where
  regs : Sparse.wf coreReset c.regs = true
  basin : Memory.wf 0 c.basin = true
  tags : Sparse.wf (fun _ => Tag.ebb) c.tags = true
  sstore : Memory.wf 0 c.sstore = true
  vregs : Memory.wf 0 c.vregs = true
  params : Memory.wf 0 c.params = true
  xregs : Sparse.wf (fun _ => 0) c.xregs = true
  desc : Sparse.wf (fun _ => 0) c.desc = true

theorem coreKept_iff (c : CoreState) : CoreKept c ↔ c.canonical = true := by
  simp only [CoreState.canonical, Bool.and_eq_true]
  exact ⟨fun h => ⟨⟨⟨⟨⟨⟨⟨h.1, h.2⟩, h.3⟩, h.4⟩, h.5⟩, h.6⟩, h.7⟩, h.8⟩,
    fun h => ⟨h.1.1.1.1.1.1.1, h.1.1.1.1.1.1.2, h.1.1.1.1.1.2, h.1.1.1.1.2, h.1.1.1.2, h.1.1.2, h.1.2, h.2⟩⟩

theorem CoreKept.congr {c d : CoreState} (h1 : c.regs = d.regs) (h2 : c.basin = d.basin) (h3 : c.tags = d.tags)
    (h4 : c.sstore = d.sstore) (h5 : c.vregs = d.vregs) (h6 : c.params = d.params) (h7 : c.xregs = d.xregs)
    (h8 : c.desc = d.desc) (h : CoreKept d) : CoreKept c :=
  ⟨h1 ▸ h.1, h2 ▸ h.2, h3 ▸ h.3, h4 ▸ h.4, h5 ▸ h.5, h6 ▸ h.6, h7 ▸ h.7, h8 ▸ h.8⟩

/-- What `CoreKept` says, over the fields it speaks of. -/
def CoreKeptOf (regs : List (Nat × Reg64)) (basin : List (Nat × Byte)) (tags : List (Nat × Tag))
    (sstore vregs params : List (Nat × Byte)) (xregs : List (Nat × Word)) (desc : List (Nat × Reg64)) : Prop :=
  Sparse.wf coreReset regs = true ∧ Memory.wf 0 basin = true ∧ Sparse.wf (fun _ => Tag.ebb) tags = true ∧
  Memory.wf 0 sstore = true ∧ Memory.wf 0 vregs = true ∧ Memory.wf 0 params = true ∧ Sparse.wf (fun _ => 0) xregs = true ∧
  Sparse.wf (fun _ => 0) desc = true

theorem CoreKept.intro {c : CoreState} (h : CoreKeptOf c.regs c.basin c.tags c.sstore c.vregs c.params c.xregs c.desc) : CoreKept c :=
  ⟨h.1, h.2.1, h.2.2.1, h.2.2.2.1, h.2.2.2.2.1, h.2.2.2.2.2.1, h.2.2.2.2.2.2.1, h.2.2.2.2.2.2.2⟩

theorem CoreKept.elim {c : CoreState} (h : CoreKept c) : CoreKeptOf c.regs c.basin c.tags c.sstore c.vregs c.params c.xregs c.desc :=
  ⟨h.1, h.2, h.3, h.4, h.5, h.6, h.7, h.8⟩

theorem CoreKept.reset : CoreKept CoreState.reset := ⟨rfl, rfl, rfl, rfl, rfl, rfl, rfl, rfl⟩

/-- A state in canonical form, with the queue `q` and the free values up to `n` used. -/
structure Kept (q : List Instr) (n : Nat) (s : State) : Prop where
  queue : s.pending = q
  fresh : n ≤ s.fresh
  tier : Memory.wf 0 s.tier = true
  store : Memory.wf erasedByte s.store = true
  sram : Memory.wf 0 s.sram = true
  regs : Sparse.wf plainReset s.regs = true
  cores : Sparse.wf (fun _ => CoreState.reset) s.cores = true
  each : ∀ e ∈ s.cores, CoreKept e.2

theorem Kept.of_canonical {s : State} (h : s.canonical = true) : Kept s.pending s.fresh s := by
  simp only [State.canonical, Bool.and_eq_true, List.all_eq_true] at h
  exact ⟨rfl, Nat.le_refl _, h.1.1.1.1.1, h.1.1.1.1.2, h.1.1.1.2, h.1.1.2, h.1.2, fun e he => (coreKept_iff _).2 (h.2 e he)⟩

theorem Kept.canonical {q : List Instr} {n : Nat} {s : State} (h : Kept q n s) : s.canonical = true := by
  simp only [State.canonical, Bool.and_eq_true, List.all_eq_true]
  exact ⟨⟨⟨⟨⟨h.tier, h.store⟩, h.sram⟩, h.regs⟩, h.cores⟩, fun e he => (coreKept_iff _).1 (h.each e he)⟩

variable {q : List Instr} {n : Nat}

theorem Kept.congr {s t : State} (h1 : s.pending = t.pending) (h2 : s.fresh = t.fresh) (h3 : s.tier = t.tier) (h4 : s.store = t.store)
    (h5 : s.sram = t.sram) (h6 : s.regs = t.regs) (h7 : s.cores = t.cores) (h : Kept q n t) : Kept q n s :=
  ⟨h1 ▸ h.1, h2 ▸ h.2, h3 ▸ h.3, h4 ▸ h.4, h5 ▸ h.5, h6 ▸ h.6, h7 ▸ h.7, h7 ▸ h.8⟩

/-- What `Kept` says, over the fields it speaks of: an update of any other field drops out. -/
def KeptOf (q : List Instr) (n : Nat) (pending : List Instr) (fresh : Nat) (tier store sram : List (Nat × Byte))
    (regs : List (Nat × Reg64)) (cores : List (Nat × CoreState)) : Prop :=
  pending = q ∧ n ≤ fresh ∧ Memory.wf 0 tier = true ∧ Memory.wf erasedByte store = true ∧ Memory.wf 0 sram = true ∧
  Sparse.wf plainReset regs = true ∧ Sparse.wf (fun _ => CoreState.reset) cores = true ∧ ∀ e ∈ cores, CoreKept e.2

theorem Kept.intro {s : State} (h : KeptOf q n s.pending s.fresh s.tier s.store s.sram s.regs s.cores) : Kept q n s :=
  ⟨h.1, h.2.1, h.2.2.1, h.2.2.2.1, h.2.2.2.2.1, h.2.2.2.2.2.1, h.2.2.2.2.2.2.1, h.2.2.2.2.2.2.2⟩

theorem Kept.elim {s : State} (h : Kept q n s) : KeptOf q n s.pending s.fresh s.tier s.store s.sram s.regs s.cores :=
  ⟨h.1, h.2, h.3, h.4, h.5, h.6, h.7, h.8⟩

/-- The same where free values beyond those of a kept state are used. -/
theorem Kept.elim_used {s t : State} (k : Nat) (ht : Kept q n t) (h : Kept q n s) :
    KeptOf q n s.pending (t.fresh + k) s.tier s.store s.sram s.regs s.cores :=
  ⟨h.1, Nat.le_trans ht.2 (Nat.le_add_right _ _), h.3, h.4, h.5, h.6, h.7, h.8⟩

/-- The same with more free values used. -/
theorem Kept.congr_fresh {s t : State} (h1 : s.pending = t.pending) (h2 : t.fresh ≤ s.fresh) (h3 : s.tier = t.tier) (h4 : s.store = t.store)
    (h5 : s.sram = t.sram) (h6 : s.regs = t.regs) (h7 : s.cores = t.cores) (h : Kept q n t) : Kept q n s :=
  ⟨h1 ▸ h.1, Nat.le_trans h.2 h2, h3 ▸ h.3, h4 ▸ h.4, h5 ▸ h.5, h6 ▸ h.6, h7 ▸ h.7, h7 ▸ h.8⟩

theorem Kept.core {s : State} (h : Kept q n s) (p : Nat) : CoreKept (s.core p) := by
  rcases Sparse.get_mem CoreState.reset s.cores p with e | e
  · unfold State.core; rw [e]; exact CoreKept.reset
  · exact h.each _ e

/-! A state or a core that a tuple holds. -/

theorem Kept.of_fst {α : Type} {x : State × α} {s : State} {a : α} (e : x = (s, a)) (h : Kept q n x.1) : Kept q n s := by rw [e] at h; exact h

theorem Kept.of_snd {α : Type} {x : α × State} {s : State} {a : α} (e : x = (a, s)) (h : Kept q n x.2) : Kept q n s := by rw [e] at h; exact h

theorem Kept.of_trd {α β : Type} {x : α × β × State} {s : State} {a : α} {b : β} (e : x = (a, b, s)) (h : Kept q n x.2.2) : Kept q n s := by
  rw [e] at h; exact h

theorem CoreKept.of_fst {α : Type} {x : CoreState × α} {c : CoreState} {a : α} (e : x = (c, a)) (h : CoreKept x.1) : CoreKept c := by
  rw [e] at h; exact h

theorem CoreKept.of_snd {α : Type} {x : α × CoreState} {c : CoreState} {a : α} (e : x = (a, c)) (h : CoreKept x.2) : CoreKept c := by
  rw [e] at h; exact h

theorem Kept.foldl {α : Type} {f : State → α → State} {s : State} {l : List α} (hf : ∀ s x, Kept q n s → Kept q n (f s x))
    (h : Kept q n s) : Kept q n (l.foldl f s) := by
  induction l generalizing s with
  | nil => exact h
  | cons x rest ih => exact ih (hf s x h)

theorem CoreKept.foldl {α : Type} {f : CoreState → α → CoreState} {c : CoreState} {l : List α} (hf : ∀ c x, CoreKept c → CoreKept (f c x))
    (h : CoreKept c) : CoreKept (l.foldl f c) := by
  induction l generalizing c with
  | nil => exact h
  | cons x rest ih => exact ih (hf c x h)

/-- A fold whose accumulator carries the state in its first place. -/
theorem Kept.foldl_fst {α β : Type} {f : State × β → α → State × β} {s : State × β} {l : List α}
    (hf : ∀ s x, Kept q n s.1 → Kept q n (f s x).1) (h : Kept q n s.1) : Kept q n (l.foldl f s).1 := by
  induction l generalizing s with
  | nil => exact h
  | cons x rest ih => exact ih (hf s x h)

/-- A fold whose accumulator carries the state in its last place. -/
theorem Kept.foldl_snd {α β : Type} {f : β × State → α → β × State} {s : β × State} {l : List α}
    (hf : ∀ s x, Kept q n s.2 → Kept q n (f s x).2) (h : Kept q n s.2) : Kept q n (l.foldl f s).2 := by
  induction l generalizing s with
  | nil => exact h
  | cons x rest ih => exact ih (hf s x h)

/-- The same of a core. -/
theorem CoreKept.foldl_fst {α β : Type} {f : CoreState × β → α → CoreState × β} {c : CoreState × β} {l : List α}
    (hf : ∀ c x, CoreKept c.1 → CoreKept (f c x).1) (h : CoreKept c.1) : CoreKept (l.foldl f c).1 := by
  induction l generalizing c with
  | nil => exact h
  | cons x rest ih => exact ih (hf c x h)

theorem CoreKept.foldl_snd {α β : Type} {f : β × CoreState → α → β × CoreState} {c : β × CoreState} {l : List α}
    (hf : ∀ c x, CoreKept c.2 → CoreKept (f c x).2) (h : CoreKept c.2) : CoreKept (l.foldl f c).2 := by
  induction l generalizing c with
  | nil => exact h
  | cons x rest ih => exact ih (hf c x h)

/-- An outcome whose next state is kept. -/
def OutKept (q : List Instr) (n : Nat) (o : Out) : Prop := ∀ t, o = .next t → Kept q n t

theorem OutKept.next {s : State} (h : Kept q n s) : OutKept q n (.next s) := by
  intro t e; cases e; exact h

theorem OutKept.fault (f : Fault) : OutKept q n (.fault f) := by
  intro t e; cases e

theorem State.setReg_kept {s : State} (a : Nat) (v : Reg64) (h : Kept q n s) : Kept q n (s.setReg a v) :=
  { queue := h.queue, fresh := h.fresh, tier := h.tier, store := h.store, sram := h.sram, regs := State.wf_setReg _ _ _ h.regs,
    cores := h.cores, each := h.each }

theorem State.setCore_kept {s : State} {p : Nat} {c : CoreState} (h : Kept q n s) (hc : CoreKept c) : Kept q n (s.setCore p c) :=
  { queue := h.queue, fresh := h.fresh, tier := h.tier, store := h.store, sram := h.sram, regs := h.regs,
    cores := State.wf_setCore _ _ _ h.cores
    each := fun e he => by
      rcases Sparse.mem_set he with rfl | he
      · exact hc
      · exact h.each _ he }

theorem State.modCore_kept {s : State} {p : Nat} {f : CoreState → CoreState} (h : Kept q n s) (hf : ∀ c, CoreKept c → CoreKept (f c)) :
    Kept q n (s.modCore p f) := State.setCore_kept h (hf _ (h.core p))

theorem State.used_kept {s : State} (h : Kept q n s) : Kept q n s.used :=
  Kept.congr_fresh (t := s) rfl (Nat.le_succ _) rfl rfl rfl rfl rfl h

theorem CoreState.setReg_kept {c : CoreState} (a : Nat) (v : Reg64) (h : CoreKept c) : CoreKept (c.setReg a v) :=
  { regs := CoreState.wf_setReg _ _ _ h.regs, basin := h.basin, tags := h.tags, sstore := h.sstore, vregs := h.vregs, params := h.params,
    xregs := h.xregs, desc := h.desc }

/-! Writes of the memories and tags a core holds. -/

theorem CoreKept.basin_write {c : CoreState} {a : Nat} {bs : List Byte} (h : CoreKept c) :
    CoreKeptOf c.regs (Bytes.write 0 c.basin a bs) c.tags c.sstore c.vregs c.params c.xregs c.desc :=
  ⟨h.regs, Bytes.wf_write a bs h.basin, h.tags, h.sstore, h.vregs, h.params, h.xregs, h.desc⟩

theorem CoreKept.sstore_write {c : CoreState} {a : Nat} {bs : List Byte} (h : CoreKept c) :
    CoreKeptOf c.regs c.basin c.tags (Bytes.write 0 c.sstore a bs) c.vregs c.params c.xregs c.desc :=
  ⟨h.regs, h.basin, h.tags, Bytes.wf_write a bs h.sstore, h.vregs, h.params, h.xregs, h.desc⟩

theorem CoreKept.vregs_write {c : CoreState} {a : Nat} {bs : List Byte} (h : CoreKept c) :
    CoreKeptOf c.regs c.basin c.tags c.sstore (Bytes.write 0 c.vregs a bs) c.params c.xregs c.desc :=
  ⟨h.regs, h.basin, h.tags, h.sstore, Bytes.wf_write a bs h.vregs, h.params, h.xregs, h.desc⟩

theorem CoreKept.params_write {c : CoreState} {a : Nat} {bs : List Byte} (h : CoreKept c) :
    CoreKeptOf c.regs c.basin c.tags c.sstore c.vregs (Bytes.write 0 c.params a bs) c.xregs c.desc :=
  ⟨h.regs, h.basin, h.tags, h.sstore, h.vregs, Bytes.wf_write a bs h.params, h.xregs, h.desc⟩

theorem CoreKept.tags_set {c : CoreState} {i : Nat} {t : Tag} (h : CoreKept c) :
    CoreKeptOf c.regs c.basin (Sparse.set Tag.ebb c.tags i t) c.sstore c.vregs c.params c.xregs c.desc :=
  ⟨h.regs, h.basin, Sparse.wf_set (d := fun _ => Tag.ebb) i t h.tags, h.sstore, h.vregs, h.params, h.xregs, h.desc⟩

theorem CoreKept.tags_clear {c : CoreState} {lo hi : Nat} (h : CoreKept c) :
    CoreKeptOf c.regs c.basin (Sparse.clear c.tags lo hi) c.sstore c.vregs c.params c.xregs c.desc :=
  ⟨h.regs, h.basin, Sparse.wf_clear lo hi h.tags, h.sstore, h.vregs, h.params, h.xregs, h.desc⟩

theorem CoreKept.xregs_set {c : CoreState} {i : Nat} {v : Word} (h : CoreKept c) :
    CoreKeptOf c.regs c.basin c.tags c.sstore c.vregs c.params (Sparse.set 0 c.xregs i v) c.desc :=
  ⟨h.regs, h.basin, h.tags, h.sstore, h.vregs, h.params, Sparse.wf_set (d := fun _ => 0) i v h.xregs, h.desc⟩

theorem CoreKept.desc_set {c : CoreState} {i : Nat} {v : Reg64} (h : CoreKept c) :
    CoreKeptOf c.regs c.basin c.tags c.sstore c.vregs c.params c.xregs (Sparse.set 0 c.desc i v) :=
  ⟨h.regs, h.basin, h.tags, h.sstore, h.vregs, h.params, h.xregs, Sparse.wf_set (d := fun _ => 0) i v h.desc⟩

theorem CoreKept.desc_fold {β : Type} {c : CoreState} {l : List β} {f : List (Nat × Reg64) → β → List (Nat × Reg64)}
    (hf : ∀ m x, Sparse.wf (fun _ => 0) m = true → Sparse.wf (fun _ => 0) (f m x) = true) (h : CoreKept c) :
    CoreKeptOf c.regs c.basin c.tags c.sstore c.vregs c.params c.xregs (l.foldl f c.desc) :=
  ⟨h.regs, h.basin, h.tags, h.sstore, h.vregs, h.params, h.xregs, Sparse.wf_foldl hf h.desc⟩

/-! Writes of the memories a state holds. -/

theorem Kept.tier_write {s : State} {a : Nat} {bs : List Byte} (h : Kept q n s) :
    KeptOf q n s.pending s.fresh (Bytes.write 0 s.tier a bs) s.store s.sram s.regs s.cores :=
  ⟨h.queue, h.fresh, Bytes.wf_write a bs h.tier, h.store, h.sram, h.regs, h.cores, h.each⟩

theorem Kept.store_write {s : State} {a : Nat} {bs : List Byte} (h : Kept q n s) :
    KeptOf q n s.pending s.fresh s.tier (Bytes.write erasedByte s.store a bs) s.sram s.regs s.cores :=
  ⟨h.queue, h.fresh, h.tier, Bytes.wf_write a bs h.store, h.sram, h.regs, h.cores, h.each⟩

theorem Kept.store_clear {s : State} {lo hi : Nat} (h : Kept q n s) :
    KeptOf q n s.pending s.fresh s.tier (Sparse.clear s.store lo hi) s.sram s.regs s.cores :=
  ⟨h.queue, h.fresh, h.tier, Sparse.wf_clear lo hi h.store, h.sram, h.regs, h.cores, h.each⟩

theorem Kept.sram_write {s : State} {a : Nat} {bs : List Byte} (h : Kept q n s) :
    KeptOf q n s.pending s.fresh s.tier s.store (Bytes.write 0 s.sram a bs) s.regs s.cores :=
  ⟨h.queue, h.fresh, h.tier, h.store, Bytes.wf_write a bs h.sram, h.regs, h.cores, h.each⟩

theorem Kept.sram_fold {β : Type} {s : State} {l : List β} {f : List (Nat × Byte) → β → List (Nat × Byte)}
    (hf : ∀ m x, Memory.wf 0 m = true → Memory.wf 0 (f m x) = true) (h : Kept q n s) :
    KeptOf q n s.pending s.fresh s.tier s.store (l.foldl f s.sram) s.regs s.cores :=
  ⟨h.queue, h.fresh, h.tier, h.store, Sparse.wf_foldl hf h.sram, h.regs, h.cores, h.each⟩

theorem Kept.sram_clear {s : State} {lo hi : Nat} (h : Kept q n s) :
    KeptOf q n s.pending s.fresh s.tier s.store (Sparse.clear s.sram lo hi) s.regs s.cores :=
  ⟨h.queue, h.fresh, h.tier, h.store, Sparse.wf_clear lo hi h.sram, h.regs, h.cores, h.each⟩

theorem Kept.sram_reset {s : State}  (h : Kept q n s) :
    KeptOf q n s.pending s.fresh s.tier s.store ([]) s.regs s.cores :=
  ⟨h.queue, h.fresh, h.tier, h.store, rfl, h.regs, h.cores, h.each⟩

/-! ## Commands for a unit -/

theorem onCore_kept {core : Nat} {s : State} {f : Nat → CoreState → State} (h : Kept q n s)
    (hf : ∀ p c, CoreKept c → Kept q n (f p c)) : OutKept q n (onCore core s f) := by
  unfold onCore; split
  · exact OutKept.next (hf _ _ (h.core _))
  · exact OutKept.fault _

theorem onLive_kept {core : Nat} {s : State} {f : Nat → CoreState → State} (h : Kept q n s)
    (hf : ∀ p c, CoreKept c → Kept q n (f p c)) : OutKept q n (onLive core s f) := by
  unfold onLive
  refine onCore_kept h (fun p c hc => ?_)
  split
  · exact hf p c hc
  · exact h

end Sys2Proof.Machine
end

