-- ==== Sys2Proof/Laws/KeptAccess.lean ====
section
/-! SUPPORT. What the operations of Machine/Access.lean keep (Laws/Kept.lean). -/

namespace Sys2Proof.Machine

variable {kq : List Instr} {kn : Nat}

theorem CoreState.put_kept {c : CoreState} {f : RF} {x : Nat} {i : Nat} (h0 : CoreKept c) : CoreKept (CoreState.put c f x i) := by
  unfold CoreState.put
  try dsimp only
  repeat' first
    | with_reducible assumption | with_reducible apply State.setReg_kept | with_reducible apply CoreState.setReg_kept
    | dsimp only

theorem CoreState.keepSel_kept {c : CoreState} {off : Nat} (h0 : CoreKept c) : CoreKept (CoreState.keepSel c off) := by
  unfold CoreState.keepSel
  try dsimp only
  repeat' first
    | with_reducible assumption | with_reducible apply OutKept.next | with_reducible apply OutKept.fault
    | with_reducible apply Kept.core (q := kq) (n := kn) | split
    | (refine Kept.intro ?_; dsimp only; with_reducible refine Kept.elim ?_)
    | (refine CoreKept.intro ?_; dsimp only; with_reducible refine CoreKept.elim ?_) | exact CoreKept.reset | intro _
    | dsimp only

theorem CoreState.bump_kept {c : CoreState} {f : RF} {n : Nat} {i : Nat} (h0 : CoreKept c) : CoreKept (CoreState.bump c f n i) := by
  unfold CoreState.bump
  try dsimp only
  repeat' first
    | with_reducible assumption | with_reducible apply CoreState.put_kept | with_reducible apply OutKept.next
    | with_reducible apply OutKept.fault | with_reducible apply Kept.core (q := kq) (n := kn)
    | (refine Kept.intro ?_; dsimp only; with_reducible refine Kept.elim ?_)
    | (refine CoreKept.intro ?_; dsimp only; with_reducible refine CoreKept.elim ?_) | exact CoreKept.reset | intro _
    | dsimp only

theorem CoreState.wrap_kept {c : CoreState} {f : RF} {n : Nat} {i : Nat} (h0 : CoreKept c) : CoreKept (CoreState.wrap c f n i) := by
  unfold CoreState.wrap
  try dsimp only
  repeat' first
    | with_reducible assumption | with_reducible apply CoreState.put_kept | with_reducible apply OutKept.next
    | with_reducible apply OutKept.fault | with_reducible apply Kept.core (q := kq) (n := kn)
    | (refine Kept.intro ?_; dsimp only; with_reducible refine Kept.elim ?_)
    | (refine CoreKept.intro ?_; dsimp only; with_reducible refine CoreKept.elim ?_) | exact CoreKept.reset | intro _
    | dsimp only

theorem CoreState.raise_kept {c : CoreState} {f : RF} {i : Nat} (h0 : CoreKept c) : CoreKept (CoreState.raise c f i) := by
  unfold CoreState.raise
  try dsimp only
  repeat' first
    | with_reducible assumption | with_reducible apply CoreState.put_kept | with_reducible apply OutKept.next
    | with_reducible apply OutKept.fault | with_reducible apply Kept.core (q := kq) (n := kn)
    | (refine Kept.intro ?_; dsimp only; with_reducible refine Kept.elim ?_)
    | (refine CoreKept.intro ?_; dsimp only; with_reducible refine CoreKept.elim ?_) | exact CoreKept.reset | intro _
    | dsimp only

theorem CoreState.once_kept {c : CoreState} {k : Nat} {f : CoreState → CoreState} (h0 : CoreKept c) (h1 : ∀ y0, CoreKept y0 → CoreKept (f y0)) : CoreKept (CoreState.once c k f) := by
  unfold CoreState.once
  try dsimp only
  repeat' first
    | with_reducible assumption | with_reducible apply h1 | with_reducible apply OutKept.next
    | with_reducible apply OutKept.fault | with_reducible apply Kept.core (q := kq) (n := kn) | split
    | (refine Kept.intro ?_; dsimp only; with_reducible refine Kept.elim ?_)
    | (refine CoreKept.intro ?_; dsimp only; with_reducible refine CoreKept.elim ?_) | exact CoreKept.reset | intro _
    | dsimp only

theorem CoreState.moved_kept {c : CoreState} {off : Nat} {idx : Nat} (h0 : CoreKept c) : CoreKept (CoreState.moved c off idx) := by
  unfold CoreState.moved
  try dsimp only
  repeat' first
    | with_reducible assumption | with_reducible apply OutKept.next | with_reducible apply OutKept.fault
    | with_reducible apply Kept.core (q := kq) (n := kn)
    | (refine Kept.intro ?_; dsimp only; with_reducible refine Kept.elim ?_)
    | (refine CoreKept.intro ?_; dsimp only; with_reducible refine CoreKept.elim ?_) | exact CoreKept.reset | intro _
    | dsimp only

theorem State.put_kept {s : State} {f : RF} {x : Nat} {i : Nat} (h0 : Kept kq kn s) : Kept kq kn (State.put s f x i) := by
  unfold State.put
  try dsimp only
  repeat' first
    | with_reducible assumption | with_reducible apply State.setReg_kept | with_reducible apply CoreState.setReg_kept
    | dsimp only

theorem State.keepSel_kept {s : State} {a : Nat} (h0 : Kept kq kn s) : Kept kq kn (State.keepSel s a) := by
  unfold State.keepSel
  try dsimp only
  repeat' first
    | with_reducible assumption | with_reducible apply OutKept.next | with_reducible apply OutKept.fault
    | with_reducible apply Kept.core (q := kq) (n := kn) | split
    | (refine Kept.intro ?_; dsimp only; with_reducible refine Kept.elim ?_)
    | (refine CoreKept.intro ?_; dsimp only; with_reducible refine CoreKept.elim ?_) | exact CoreKept.reset | intro _
    | dsimp only

theorem State.bump_kept {s : State} {f : RF} {n : Nat} {i : Nat} (h0 : Kept kq kn s) : Kept kq kn (State.bump s f n i) := by
  unfold State.bump
  try dsimp only
  repeat' first
    | with_reducible assumption | with_reducible apply CoreState.put_kept | with_reducible apply State.put_kept
    | with_reducible apply OutKept.next | with_reducible apply OutKept.fault
    | with_reducible apply Kept.core (q := kq) (n := kn)
    | (refine Kept.intro ?_; dsimp only; with_reducible refine Kept.elim ?_)
    | (refine CoreKept.intro ?_; dsimp only; with_reducible refine CoreKept.elim ?_) | exact CoreKept.reset | intro _
    | dsimp only

theorem State.wrap_kept {s : State} {f : RF} {n : Nat} {i : Nat} (h0 : Kept kq kn s) : Kept kq kn (State.wrap s f n i) := by
  unfold State.wrap
  try dsimp only
  repeat' first
    | with_reducible assumption | with_reducible apply CoreState.put_kept | with_reducible apply State.put_kept
    | with_reducible apply OutKept.next | with_reducible apply OutKept.fault
    | with_reducible apply Kept.core (q := kq) (n := kn)
    | (refine Kept.intro ?_; dsimp only; with_reducible refine Kept.elim ?_)
    | (refine CoreKept.intro ?_; dsimp only; with_reducible refine CoreKept.elim ?_) | exact CoreKept.reset | intro _
    | dsimp only

theorem State.counted_kept {s : State} {f : RF} {x : Nat} {n : Nat} {i : Nat} (h0 : Kept kq kn s) : Kept kq kn (State.counted s f x n i) := by
  unfold State.counted
  try dsimp only
  repeat' first
    | with_reducible assumption | with_reducible apply CoreState.put_kept | with_reducible apply State.put_kept
    | with_reducible apply OutKept.next | with_reducible apply OutKept.fault
    | with_reducible apply Kept.core (q := kq) (n := kn)
    | (refine Kept.intro ?_; dsimp only; with_reducible refine Kept.elim ?_)
    | (refine CoreKept.intro ?_; dsimp only; with_reducible refine CoreKept.elim ?_) | exact CoreKept.reset | intro _
    | dsimp only

theorem State.raiseFlag_kept {s : State} {f : RF} {i : Nat} (h0 : Kept kq kn s) : Kept kq kn (State.raiseFlag s f i) := by
  unfold State.raiseFlag
  try dsimp only
  repeat' first
    | with_reducible assumption | with_reducible apply CoreState.put_kept | with_reducible apply State.put_kept
    | with_reducible apply OutKept.next | with_reducible apply OutKept.fault
    | with_reducible apply Kept.core (q := kq) (n := kn)
    | (refine Kept.intro ?_; dsimp only; with_reducible refine Kept.elim ?_)
    | (refine CoreKept.intro ?_; dsimp only; with_reducible refine CoreKept.elim ?_) | exact CoreKept.reset | intro _
    | dsimp only

theorem State.raiseBit_kept {s : State} {f : RF} {b : Nat} {i : Nat} (h0 : Kept kq kn s) : Kept kq kn (State.raiseBit s f b i) := by
  unfold State.raiseBit
  try dsimp only
  repeat' first
    | with_reducible assumption | with_reducible apply CoreState.put_kept | with_reducible apply State.put_kept
    | with_reducible apply OutKept.next | with_reducible apply OutKept.fault
    | with_reducible apply Kept.core (q := kq) (n := kn)
    | (refine Kept.intro ?_; dsimp only; with_reducible refine Kept.elim ?_)
    | (refine CoreKept.intro ?_; dsimp only; with_reducible refine CoreKept.elim ?_) | exact CoreKept.reset | intro _
    | dsimp only

theorem State.moved_kept {s : State} {a : Nat} (h0 : Kept kq kn s) : Kept kq kn (State.moved s a) := by
  unfold State.moved
  try dsimp only
  repeat' first
    | with_reducible assumption | with_reducible apply CoreState.moved_kept | with_reducible apply OutKept.next
    | with_reducible apply OutKept.fault | with_reducible apply Kept.core (q := kq) (n := kn)
    | (refine Kept.intro ?_; dsimp only; with_reducible refine Kept.elim ?_)
    | (refine CoreKept.intro ?_; dsimp only; with_reducible refine CoreKept.elim ?_) | exact CoreKept.reset | intro _
    | dsimp only

theorem State.keepRole_kept {s : State} {b : Nat} {epoch : Nat} (h0 : Kept kq kn s) : Kept kq kn (State.keepRole s b epoch) := by
  unfold State.keepRole
  try dsimp only
  repeat' first
    | with_reducible assumption | with_reducible apply OutKept.next | with_reducible apply OutKept.fault
    | with_reducible apply Kept.core (q := kq) (n := kn) | split
    | (refine Kept.intro ?_; dsimp only; with_reducible refine Kept.elim ?_)
    | (refine CoreKept.intro ?_; dsimp only; with_reducible refine CoreKept.elim ?_) | exact CoreKept.reset | intro _
    | dsimp only

end Sys2Proof.Machine
end

