-- ==== Sys2Proof/Laws/KeptPilot.lean ====
section
/-! SUPPORT. What the operations of Machine/Pilot.lean keep (Laws/Kept.lean). -/

namespace Sys2Proof.Machine

variable {kq : List Instr} {kn : Nat}

theorem State.modPilot_kept {s : State} {n : Nat} {f : PilotRun → PilotRun} (h0 : Kept kq kn s) : Kept kq kn (State.modPilot s n f) := by
  unfold State.modPilot
  try dsimp only
  repeat' first
    | with_reducible assumption | with_reducible apply OutKept.next | with_reducible apply OutKept.fault
    | with_reducible apply Kept.core (q := kq) (n := kn)
    | (refine Kept.intro ?_; dsimp only; with_reducible refine Kept.elim ?_)
    | (refine CoreKept.intro ?_; dsimp only; with_reducible refine CoreKept.elim ?_) | exact CoreKept.reset | intro _
    | dsimp only

theorem State.sramWritten_kept {s : State} {n : Nat} {a : Nat} {len : Nat} (h0 : Kept kq kn s) : Kept kq kn (State.sramWritten s n a len) := by
  unfold State.sramWritten
  try dsimp only
  repeat' first
    | with_reducible assumption | with_reducible apply State.modPilot_kept | with_reducible apply OutKept.next
    | with_reducible apply OutKept.fault | with_reducible apply Kept.core (q := kq) (n := kn)
    | (refine Kept.intro ?_; dsimp only; with_reducible refine Kept.elim ?_)
    | (refine CoreKept.intro ?_; dsimp only; with_reducible refine CoreKept.elim ?_) | exact CoreKept.reset | intro _
    | dsimp only

theorem State.pilotFault_kept {s : State} {n : Nat} {use : PilotUse} {a : Nat} (h0 : Kept kq kn s) : Kept kq kn (State.pilotFault s n use a) := by
  unfold State.pilotFault
  try dsimp only
  repeat' first
    | with_reducible assumption | with_reducible apply State.modPilot_kept | with_reducible apply OutKept.next
    | with_reducible apply OutKept.fault | with_reducible apply Kept.core (q := kq) (n := kn) | split
    | (refine Kept.intro ?_; dsimp only; with_reducible refine Kept.elim ?_)
    | (refine CoreKept.intro ?_; dsimp only; with_reducible refine CoreKept.elim ?_) | exact CoreKept.reset | intro _
    | with_reducible refine Kept.of_fst ‹_› ?_ | with_reducible refine Kept.of_snd ‹_› ?_
    | with_reducible refine Kept.of_trd ‹_› ?_ | with_reducible refine CoreKept.of_fst ‹_› ?_
    | with_reducible refine CoreKept.of_snd ‹_› ?_ | dsimp only

theorem State.startPilot_kept {s : State} {n : Nat} (h0 : Kept kq kn s) : Kept kq kn (State.startPilot s n) := by
  unfold State.startPilot
  try dsimp only
  repeat' first
    | with_reducible assumption | with_reducible apply State.modPilot_kept | with_reducible apply OutKept.next
    | with_reducible apply OutKept.fault | with_reducible apply Kept.core (q := kq) (n := kn)
    | (refine Kept.intro ?_; dsimp only; with_reducible refine Kept.elim ?_)
    | (refine CoreKept.intro ?_; dsimp only; with_reducible refine CoreKept.elim ?_) | exact CoreKept.reset | intro _
    | dsimp only

end Sys2Proof.Machine
end

