-- ==== Sys2Proof/Laws/KeptOps.lean ====
section
/-! SUPPORT. What the operations of Machine/Ops.lean keep (Laws/Kept.lean). -/

namespace Sys2Proof.Machine

variable {kq : List Instr} {kn : Nat}

theorem CoreState.movePtrs_kept {c : CoreState} {v : Cove} {i : Nat} {was : Bool} (h0 : CoreKept c) : CoreKept (CoreState.movePtrs c v i was) := by
  unfold CoreState.movePtrs
  try dsimp only
  repeat' first
    | with_reducible assumption | with_reducible apply CoreState.put_kept | with_reducible apply State.put_kept | split
    | intro _ | dsimp only

theorem CoreState.setTag_kept {c : CoreState} {v : Cove} {i : Nat} {t : Tag} (h0 : CoreKept c) : CoreKept (CoreState.setTag c v i t) := by
  unfold CoreState.setTag
  try dsimp only
  repeat' first
    | with_reducible assumption | with_reducible apply CoreState.movePtrs_kept | with_reducible apply OutKept.next
    | with_reducible apply OutKept.fault | with_reducible apply Kept.core (q := kq) (n := kn)
    | (refine Kept.intro ?_; dsimp only; with_reducible refine Kept.elim ?_)
    | (refine CoreKept.intro ?_; dsimp only; with_reducible refine CoreKept.elim ?_)
    | (refine CoreKept.intro ?_; dsimp only; with_reducible refine CoreKept.tags_set ?_)
    | (refine CoreKept.intro ?_; dsimp only; with_reducible refine CoreKept.tags_clear ?_) | exact CoreKept.reset | intro _
    | dsimp only

theorem State.notify_kept {s : State} {q : Nat} {n : Notice} (h0 : Kept kq kn s) : Kept kq kn (State.notify s q n) := by
  unfold State.notify
  try dsimp only
  repeat' first
    | with_reducible assumption | with_reducible apply OutKept.next | with_reducible apply OutKept.fault
    | with_reducible apply Kept.core (q := kq) (n := kn)
    | (refine Kept.intro ?_; dsimp only; with_reducible refine Kept.elim ?_)
    | (refine Kept.intro ?_; dsimp only; with_reducible refine Kept.elim_used _ ?_ ?_)
    | (refine CoreKept.intro ?_; dsimp only; with_reducible refine CoreKept.elim ?_) | exact CoreKept.reset | intro _
    | dsimp only

theorem State.settleNotices_kept {s : State} {q : Nat} (h0 : Kept kq kn s) : Kept kq kn (State.settleNotices s q) := by
  unfold State.settleNotices
  try dsimp only
  repeat' first
    | with_reducible assumption | with_reducible apply State.raiseFlag_kept | with_reducible apply OutKept.next
    | with_reducible apply OutKept.fault | with_reducible apply Kept.core (q := kq) (n := kn) | split
    | (refine Kept.intro ?_; dsimp only; with_reducible refine Kept.elim ?_)
    | (refine CoreKept.intro ?_; dsimp only; with_reducible refine CoreKept.elim ?_) | exact CoreKept.reset | intro _
    | dsimp only

theorem State.notifyCove_kept {s : State} {core : Nat} {cove : Nat} {kind : Nat} (h0 : Kept kq kn s) : Kept kq kn (State.notifyCove s core cove kind) := by
  unfold State.notifyCove
  try dsimp only
  repeat' first
    | with_reducible assumption | with_reducible apply State.notify_kept | with_reducible apply Kept.core (q := kq) (n := kn)
    | split | dsimp only

theorem CoreState.writeFault_kept {c : CoreState} {now : Nat} {ctx : Nat} {f : FaultInfo} (h0 : CoreKept c) : CoreKept (CoreState.writeFault c now ctx f) := by
  unfold CoreState.writeFault
  try dsimp only
  repeat' first
    | with_reducible assumption | with_reducible apply CoreState.put_kept | with_reducible apply State.put_kept
    | with_reducible apply State.setReg_kept | with_reducible apply CoreState.setReg_kept | split
    | (refine Kept.intro ?_; dsimp only; with_reducible refine Kept.elim ?_)
    | (refine CoreKept.intro ?_; dsimp only; with_reducible refine CoreKept.elim ?_) | dsimp only

theorem CoreState.haltIssue_kept {c : CoreState} (h0 : CoreKept c) : CoreKept (CoreState.haltIssue c) := by
  unfold CoreState.haltIssue
  try dsimp only
  repeat' first
    | with_reducible assumption | with_reducible apply CoreState.put_kept | with_reducible apply State.put_kept
    | with_reducible apply OutKept.next | with_reducible apply OutKept.fault
    | with_reducible apply Kept.core (q := kq) (n := kn)
    | (refine Kept.intro ?_; dsimp only; with_reducible refine Kept.elim ?_)
    | (refine CoreKept.intro ?_; dsimp only; with_reducible refine CoreKept.elim ?_) | exact CoreKept.reset | intro _
    | dsimp only

theorem CoreState.faultCtx_kept {c : CoreState} {now : Nat} {ctx : Nat} {f : FaultInfo} (h0 : CoreKept c) : CoreKept (CoreState.faultCtx c now ctx f) := by
  unfold CoreState.faultCtx
  try dsimp only
  repeat' first
    | with_reducible assumption | with_reducible apply CoreState.writeFault_kept
    | with_reducible apply CoreState.haltIssue_kept | with_reducible apply OutKept.next | with_reducible apply OutKept.fault
    | with_reducible apply Kept.core (q := kq) (n := kn) | split
    | (refine Kept.intro ?_; dsimp only; with_reducible refine Kept.elim ?_)
    | (refine CoreKept.intro ?_; dsimp only; with_reducible refine CoreKept.elim ?_) | exact CoreKept.reset | intro _
    | with_reducible refine Kept.of_fst ‹_› ?_ | with_reducible refine Kept.of_snd ‹_› ?_
    | with_reducible refine Kept.of_trd ‹_› ?_ | with_reducible refine CoreKept.of_fst ‹_› ?_
    | with_reducible refine CoreKept.of_snd ‹_› ?_ | dsimp only

theorem CoreState.fault_kept {c : CoreState} {now : Nat} {f : FaultInfo} (h0 : CoreKept c) : CoreKept (CoreState.fault c now f) := by
  unfold CoreState.fault
  try dsimp only
  repeat' first
    | with_reducible assumption | with_reducible apply CoreState.faultCtx_kept | dsimp only

theorem CoreState.hwFault_kept {c : CoreState} {now : Nat} {stepAt : Option Nat} {f : FaultInfo} (h0 : CoreKept c) : CoreKept (CoreState.hwFault c now stepAt f) := by
  unfold CoreState.hwFault
  try dsimp only
  repeat' first
    | with_reducible assumption | with_reducible apply CoreState.writeFault_kept
    | with_reducible apply CoreState.haltIssue_kept | with_reducible apply OutKept.next | with_reducible apply OutKept.fault
    | with_reducible apply Kept.core (q := kq) (n := kn) | split
    | (refine Kept.intro ?_; dsimp only; with_reducible refine Kept.elim ?_)
    | (refine Kept.intro ?_; dsimp only; with_reducible refine Kept.elim_used _ ?_ ?_)
    | (refine CoreKept.intro ?_; dsimp only; with_reducible refine CoreKept.elim ?_) | exact CoreKept.reset | intro _
    | with_reducible refine Kept.of_fst ‹_› ?_ | with_reducible refine Kept.of_snd ‹_› ?_
    | with_reducible refine Kept.of_trd ‹_› ?_ | with_reducible refine CoreKept.of_fst ‹_› ?_
    | with_reducible refine CoreKept.of_snd ‹_› ?_ | dsimp only

theorem CoreState.faultWord_kept {c : CoreState} {now : Nat} {cls : Nat} {unit : Nat} {w : WordCtx} {addr : Option Nat} {claimant : Nat} (h0 : CoreKept c) : CoreKept (CoreState.faultWord c now cls unit w addr claimant) := by
  unfold CoreState.faultWord
  try dsimp only
  repeat' first
    | with_reducible assumption | with_reducible apply CoreState.fault_kept | with_reducible apply OutKept.next
    | with_reducible apply OutKept.fault | with_reducible apply Kept.core (q := kq) (n := kn)
    | (refine Kept.intro ?_; dsimp only; with_reducible refine Kept.elim ?_)
    | (refine CoreKept.intro ?_; dsimp only; with_reducible refine CoreKept.elim ?_) | exact CoreKept.reset | intro _
    | dsimp only

theorem CoreState.breaks_kept {c : CoreState} {b : Bool} (h0 : CoreKept c) : CoreKept (CoreState.breaks c b) := by
  unfold CoreState.breaks
  try dsimp only
  repeat' first
    | with_reducible assumption | split | (refine Kept.intro ?_; dsimp only; with_reducible refine Kept.elim ?_)
    | (refine CoreKept.intro ?_; dsimp only; with_reducible refine CoreKept.elim ?_) | dsimp only

theorem CoreState.wait_kept {c : CoreState} {w : Wait} (h0 : CoreKept c) : CoreKept (CoreState.wait c w) := by
  unfold CoreState.wait
  try dsimp only
  repeat' first
    | with_reducible assumption | split | (refine Kept.intro ?_; dsimp only; with_reducible refine Kept.elim ?_)
    | (refine CoreKept.intro ?_; dsimp only; with_reducible refine CoreKept.elim ?_) | dsimp only

theorem CoreState.unwait_kept {c : CoreState} {unit : Nat} {w : WordCtx} (h0 : CoreKept c) : CoreKept (CoreState.unwait c unit w) := by
  unfold CoreState.unwait
  try dsimp only
  repeat' first
    | with_reducible assumption | (refine Kept.intro ?_; dsimp only; with_reducible refine Kept.elim ?_)
    | (refine CoreKept.intro ?_; dsimp only; with_reducible refine CoreKept.elim ?_) | intro _ | dsimp only

theorem State.watermark_kept {s : State} {p : Nat} {core : Nat} {v : Cove} (h0 : Kept kq kn s) : Kept kq kn (State.watermark s p core v) := by
  unfold State.watermark
  try dsimp only
  repeat' first
    | with_reducible assumption | with_reducible apply State.setCore_kept | with_reducible apply CoreState.put_kept
    | with_reducible apply CoreState.bump_kept | with_reducible apply CoreState.raise_kept
    | with_reducible apply State.put_kept | with_reducible apply State.bump_kept | with_reducible apply State.notifyCove_kept
    | with_reducible apply OutKept.next | with_reducible apply OutKept.fault
    | with_reducible apply Kept.core (q := kq) (n := kn) | split
    | (refine Kept.intro ?_; dsimp only; with_reducible refine Kept.elim ?_)
    | (refine CoreKept.intro ?_; dsimp only; with_reducible refine CoreKept.elim ?_) | exact CoreKept.reset | intro _
    | dsimp only

theorem State.endCycle_kept {s : State} {p : Nat} {core : Nat} (h0 : Kept kq kn s) : Kept kq kn (State.endCycle s p core) := by
  unfold State.endCycle
  try dsimp only
  repeat' first
    | with_reducible assumption | with_reducible apply State.watermark_kept | with_reducible apply Kept.foldl
    | with_reducible apply Kept.foldl_fst | with_reducible apply CoreKept.foldl
    | with_reducible apply Kept.core (q := kq) (n := kn) | intro _ | dsimp only

theorem State.mirrorPut_kept {s : State} {core : Nat} {f : RF} {x : Nat} {i : Nat} (h0 : Kept kq kn s) : Kept kq kn (State.mirrorPut s core f x i) := by
  unfold State.mirrorPut
  try dsimp only
  repeat' first
    | with_reducible assumption | with_reducible apply Kept.core (q := kq) (n := kn)
    | (refine Kept.intro ?_; dsimp only; with_reducible refine Kept.elim ?_)
    | (refine CoreKept.intro ?_; dsimp only; with_reducible refine CoreKept.elim ?_) | dsimp only

theorem CoreState.setPoison_kept {c : CoreState} {a : Nat} {b : Bool} (h0 : CoreKept c) : CoreKept (CoreState.setPoison c a b) := by
  unfold CoreState.setPoison
  try dsimp only
  repeat' first
    | with_reducible assumption | with_reducible apply OutKept.next | with_reducible apply OutKept.fault
    | with_reducible apply Kept.core (q := kq) (n := kn) | split
    | (refine Kept.intro ?_; dsimp only; with_reducible refine Kept.elim ?_)
    | (refine CoreKept.intro ?_; dsimp only; with_reducible refine CoreKept.elim ?_) | exact CoreKept.reset | intro _
    | dsimp only

theorem CoreState.alienate_kept {c : CoreState} {a : Nat} (h0 : CoreKept c) : CoreKept (CoreState.alienate c a) := by
  unfold CoreState.alienate
  try dsimp only
  repeat' first
    | with_reducible assumption | with_reducible apply OutKept.next | with_reducible apply OutKept.fault
    | with_reducible apply Kept.core (q := kq) (n := kn)
    | (refine Kept.intro ?_; dsimp only; with_reducible refine Kept.elim ?_)
    | (refine CoreKept.intro ?_; dsimp only; with_reducible refine CoreKept.elim ?_) | exact CoreKept.reset | intro _
    | dsimp only

theorem CoreState.countErrors_kept {c : CoreState} {es : List (Nat × Bool)} (h0 : CoreKept c) : CoreKept (CoreState.countErrors c es) := by
  unfold CoreState.countErrors
  try dsimp only
  repeat' first
    | with_reducible assumption | with_reducible apply CoreState.put_kept | with_reducible apply CoreState.bump_kept
    | with_reducible apply State.put_kept | with_reducible apply State.bump_kept | with_reducible apply OutKept.next
    | with_reducible apply OutKept.fault | with_reducible apply Kept.core (q := kq) (n := kn) | split
    | (refine Kept.intro ?_; dsimp only; with_reducible refine Kept.elim ?_)
    | (refine CoreKept.intro ?_; dsimp only; with_reducible refine CoreKept.elim ?_) | exact CoreKept.reset | intro _
    | with_reducible refine Kept.of_fst ‹_› ?_ | with_reducible refine Kept.of_snd ‹_› ?_
    | with_reducible refine Kept.of_trd ‹_› ?_ | with_reducible refine CoreKept.of_fst ‹_› ?_
    | with_reducible refine CoreKept.of_snd ‹_› ?_ | dsimp only

theorem State.charge_kept {s : State} {p : Nat} {quarters : Nat} (h0 : Kept kq kn s) : Kept kq kn (State.charge s p quarters) := by
  unfold State.charge
  try dsimp only
  repeat' first
    | with_reducible assumption | (refine Kept.intro ?_; dsimp only; with_reducible refine Kept.elim ?_)
    | (refine CoreKept.intro ?_; dsimp only; with_reducible refine CoreKept.elim ?_) | dsimp only

theorem State.modReserve_kept {s : State} {shoal : Nat} {f : CoreState → CoreState} (h0 : Kept kq kn s) (h1 : ∀ y0, CoreKept y0 → CoreKept (f y0)) : Kept kq kn (State.modReserve s shoal f) := by
  unfold State.modReserve
  try dsimp only
  repeat' first
    | with_reducible assumption | with_reducible apply h1 | with_reducible apply State.modCore_kept | split | dsimp only

theorem State.applyDelta_kept {s : State} {shoal : Nat} {d : Delta} (h0 : Kept kq kn s) : Kept kq kn (State.applyDelta s shoal d) := by
  unfold State.applyDelta
  try dsimp only
  repeat' first
    | with_reducible assumption | with_reducible apply CoreState.setPoison_kept | with_reducible apply State.modCore_kept
    | split | (refine Kept.intro ?_; dsimp only; with_reducible refine Kept.elim ?_)
    | (refine CoreKept.intro ?_; dsimp only; with_reducible refine CoreKept.elim ?_)
    | (refine CoreKept.intro ?_; dsimp only; with_reducible refine CoreKept.basin_write ?_) | exact CoreKept.reset | intro _
    | dsimp only

theorem State.pushDelta_kept {s : State} {p : Nat} {d : Delta} (h0 : Kept kq kn s) : Kept kq kn (State.pushDelta s p d) := by
  unfold State.pushDelta
  try dsimp only
  repeat' first
    | with_reducible assumption | with_reducible apply CoreState.wrap_kept | with_reducible apply State.wrap_kept
    | with_reducible apply State.applyDelta_kept | with_reducible apply State.setCore_kept
    | with_reducible apply Kept.core (q := kq) (n := kn) | split
    | (refine Kept.intro ?_; dsimp only; with_reducible refine Kept.elim ?_)
    | (refine CoreKept.intro ?_; dsimp only; with_reducible refine CoreKept.elim ?_) | dsimp only

theorem State.poke_kept {s : State} {p : Nat} {a : Nat} {bs : List Byte} {bad : Bool} (h0 : Kept kq kn s) : Kept kq kn (State.poke s p a bs bad) := by
  unfold State.poke
  try dsimp only
  repeat' first
    | with_reducible assumption | with_reducible apply CoreState.setPoison_kept | with_reducible apply State.pushDelta_kept
    | with_reducible apply State.setCore_kept | with_reducible apply Kept.core (q := kq) (n := kn) | split
    | (refine Kept.intro ?_; dsimp only; with_reducible refine Kept.elim ?_)
    | (refine CoreKept.intro ?_; dsimp only; with_reducible refine CoreKept.elim ?_)
    | (refine CoreKept.intro ?_; dsimp only; with_reducible refine CoreKept.basin_write ?_) | exact CoreKept.reset | intro _
    | dsimp only

theorem CoreState.forward_kept {c : CoreState} {x : Piece} (h0 : CoreKept c) : CoreKept (CoreState.forward c x) := by
  unfold CoreState.forward
  try dsimp only
  repeat' first
    | with_reducible assumption | with_reducible apply OutKept.next | with_reducible apply OutKept.fault
    | with_reducible apply Kept.core (q := kq) (n := kn)
    | (refine Kept.intro ?_; dsimp only; with_reducible refine Kept.elim ?_)
    | (refine CoreKept.intro ?_; dsimp only; with_reducible refine CoreKept.elim ?_) | exact CoreKept.reset | intro _
    | dsimp only

theorem State.arrived_kept {s : State} {p : Nat} {port : Port} {a : Nat} {bad : Bool} (h0 : Kept kq kn s) : Kept kq kn (State.arrived s p port a bad) := by
  unfold State.arrived
  try dsimp only
  repeat' first
    | with_reducible assumption | with_reducible apply State.modCore_kept | with_reducible apply CoreState.alienate_kept
    | with_reducible apply OutKept.next | with_reducible apply OutKept.fault
    | with_reducible apply Kept.core (q := kq) (n := kn) | split
    | (refine Kept.intro ?_; dsimp only; with_reducible refine Kept.elim ?_)
    | (refine CoreKept.intro ?_; dsimp only; with_reducible refine CoreKept.elim ?_) | exact CoreKept.reset | intro _
    | dsimp only

theorem State.land_kept {s : State} {p : Nat} {port : Port} {count : Option Nat} {a : Nat} {bs : List Byte} {bad : Bool} (h0 : Kept kq kn s) : Kept kq kn (State.land s p port count a bs bad) := by
  unfold State.land
  try dsimp only
  repeat' first
    | with_reducible assumption | with_reducible apply State.setCore_kept | with_reducible apply State.poke_kept
    | with_reducible apply CoreState.forward_kept | with_reducible apply State.arrived_kept | with_reducible apply OutKept.next
    | with_reducible apply OutKept.fault | with_reducible apply Kept.core (q := kq) (n := kn) | split
    | (refine Kept.intro ?_; dsimp only; with_reducible refine Kept.elim ?_)
    | (refine CoreKept.intro ?_; dsimp only; with_reducible refine CoreKept.elim ?_) | exact CoreKept.reset | intro _
    | with_reducible refine Kept.of_fst ‹_› ?_ | with_reducible refine Kept.of_snd ‹_› ?_
    | with_reducible refine Kept.of_trd ‹_› ?_ | with_reducible refine CoreKept.of_fst ‹_› ?_
    | with_reducible refine CoreKept.of_snd ‹_› ?_ | dsimp only

theorem State.landAll_kept {s : State} {p : Nat} {port : Port} {count : Option Nat} {bad : List Nat} {l : List Piece} (h0 : Kept kq kn s) : Kept kq kn (State.landAll s p port count bad l) := by
  unfold State.landAll
  try dsimp only
  repeat' first
    | with_reducible assumption | with_reducible apply State.land_kept | with_reducible apply OutKept.next
    | with_reducible apply OutKept.fault | with_reducible apply Kept.foldl | with_reducible apply Kept.foldl_fst
    | with_reducible apply CoreKept.foldl | with_reducible apply CoreKept.foldl_fst | with_reducible apply Kept.foldl_snd
    | with_reducible apply CoreKept.foldl_snd | with_reducible apply Kept.core (q := kq) (n := kn)
    | (refine Kept.intro ?_; dsimp only; with_reducible refine Kept.elim ?_)
    | (refine CoreKept.intro ?_; dsimp only; with_reducible refine CoreKept.elim ?_) | exact CoreKept.reset | intro _
    | dsimp only

theorem CoreState.meet_kept {c : CoreState} {now : Nat} {r : Reader} {a : Nat} (h0 : CoreKept c) : CoreKept (CoreState.meet c now r a).2 := by
  unfold CoreState.meet
  try dsimp only
  repeat' first
    | with_reducible assumption | with_reducible apply CoreState.setPoison_kept
    | with_reducible apply CoreState.countErrors_kept | with_reducible apply OutKept.next | with_reducible apply OutKept.fault
    | with_reducible apply Kept.core (q := kq) (n := kn) | split
    | (refine Kept.intro ?_; dsimp only; with_reducible refine Kept.elim ?_)
    | (refine CoreKept.intro ?_; dsimp only; with_reducible refine CoreKept.elim ?_) | exact CoreKept.reset | intro _
    | dsimp only

theorem CoreState.meetAll_kept {c : CoreState} {now : Nat} {r : Reader} {l : List Nat} (h0 : CoreKept c) : CoreKept (CoreState.meetAll c now r l).2 := by
  unfold CoreState.meetAll
  try dsimp only
  repeat' first
    | with_reducible assumption | with_reducible apply CoreState.meet_kept | with_reducible apply OutKept.next
    | with_reducible apply OutKept.fault | with_reducible apply Kept.foldl | with_reducible apply Kept.foldl_fst
    | with_reducible apply CoreKept.foldl | with_reducible apply CoreKept.foldl_fst | with_reducible apply Kept.foldl_snd
    | with_reducible apply CoreKept.foldl_snd | with_reducible apply Kept.core (q := kq) (n := kn) | split
    | (refine Kept.intro ?_; dsimp only; with_reducible refine Kept.elim ?_)
    | (refine CoreKept.intro ?_; dsimp only; with_reducible refine CoreKept.elim ?_) | exact CoreKept.reset | intro _
    | with_reducible refine Kept.of_fst ‹_› ?_ | with_reducible refine Kept.of_snd ‹_› ?_
    | with_reducible refine Kept.of_trd ‹_› ?_ | with_reducible refine CoreKept.of_fst ‹_› ?_
    | with_reducible refine CoreKept.of_snd ‹_› ?_ | dsimp only

theorem State.meets_kept {s : State} {p : Nat} {r : Reader} {l : List Nat} (h0 : Kept kq kn s) : Kept kq kn (State.meets s p r l).2 := by
  unfold State.meets
  try dsimp only
  repeat' first
    | with_reducible assumption | with_reducible apply State.pushDelta_kept | with_reducible apply CoreState.meetAll_kept
    | with_reducible apply State.setCore_kept | with_reducible apply Kept.foldl | with_reducible apply Kept.foldl_fst
    | with_reducible apply CoreKept.foldl | with_reducible apply Kept.core (q := kq) (n := kn) | intro _ | dsimp only

theorem CoreState.post_kept {c : CoreState} {stamp : BitVec 16} {x : Cove × Nat} (h0 : CoreKept c) : CoreKept (CoreState.post c stamp x) := by
  unfold CoreState.post
  try dsimp only
  repeat' first
    | with_reducible assumption | with_reducible apply CoreState.setTag_kept
    | (refine Kept.intro ?_; dsimp only; with_reducible refine Kept.elim ?_)
    | (refine CoreKept.intro ?_; dsimp only; with_reducible refine CoreKept.elim ?_) | dsimp only

theorem CoreState.claim_kept {c : CoreState} {pr : Producer} {x : Cove × Nat} (h0 : CoreKept c) : CoreKept (CoreState.claim c pr x) := by
  unfold CoreState.claim
  try dsimp only
  repeat' first
    | with_reducible assumption | with_reducible apply CoreState.setTag_kept | split
    | (refine Kept.intro ?_; dsimp only; with_reducible refine Kept.elim ?_)
    | (refine CoreKept.intro ?_; dsimp only; with_reducible refine CoreKept.elim ?_) | dsimp only

theorem State.modBay_kept {s : State} {b : Nat} {f : BayRun → BayRun} (h0 : Kept kq kn s) : Kept kq kn (State.modBay s b f) := by
  unfold State.modBay
  try dsimp only
  repeat' first
    | with_reducible assumption | (refine Kept.intro ?_; dsimp only; with_reducible refine Kept.elim ?_)
    | (refine CoreKept.intro ?_; dsimp only; with_reducible refine CoreKept.elim ?_) | dsimp only

end Sys2Proof.Machine
end

