-- ==== Sys2Proof/Laws/KeptGovernor.lean ====
section
/-! SUPPORT. What the operations of Machine/Governor.lean keep (Laws/Kept.lean). -/

namespace Sys2Proof.Machine

variable {kq : List Instr} {kn : Nat}

theorem State.govAdmit_kept {s : State} {shoal : Nat} {charge : Nat} (h0 : Kept kq kn s) : Kept kq kn (State.govAdmit s shoal charge) := by
  unfold State.govAdmit
  try dsimp only
  repeat' first
    | with_reducible assumption | with_reducible apply State.charge_kept | with_reducible apply OutKept.next
    | with_reducible apply OutKept.fault | with_reducible apply Kept.core (q := kq) (n := kn) | split
    | (refine Kept.intro ?_; dsimp only; with_reducible refine Kept.elim ?_)
    | (refine CoreKept.intro ?_; dsimp only; with_reducible refine CoreKept.elim ?_) | exact CoreKept.reset | intro _
    | dsimp only

theorem State.heldOnce_kept {s : State} {place : Nat} {count : State → State} (h0 : Kept kq kn s) (h1 : ∀ y0, Kept kq kn y0 → Kept kq kn (count y0)) : Kept kq kn (State.heldOnce s place count) := by
  unfold State.heldOnce
  try dsimp only
  repeat' first
    | with_reducible assumption | with_reducible apply h1 | split
    | (refine Kept.intro ?_; dsimp only; with_reducible refine Kept.elim ?_)
    | (refine CoreKept.intro ?_; dsimp only; with_reducible refine CoreKept.elim ?_) | dsimp only

theorem State.govHold_kept {s : State} {p : Nat} {shoal : Nat} (h0 : Kept kq kn s) : Kept kq kn (State.govHold s p shoal) := by
  unfold State.govHold
  try dsimp only
  repeat' first
    | with_reducible assumption | with_reducible apply State.modCore_kept | with_reducible apply CoreState.put_kept
    | with_reducible apply CoreState.bump_kept | with_reducible apply CoreState.once_kept | with_reducible apply State.put_kept
    | with_reducible apply State.bump_kept | with_reducible apply State.heldOnce_kept | with_reducible apply OutKept.next
    | with_reducible apply OutKept.fault | with_reducible apply Kept.core (q := kq) (n := kn)
    | (refine Kept.intro ?_; dsimp only; with_reducible refine Kept.elim ?_)
    | (refine CoreKept.intro ?_; dsimp only; with_reducible refine CoreKept.elim ?_) | exact CoreKept.reset | intro _
    | dsimp only

theorem State.govAsk_kept {s : State} {p : Nat} {charge : Nat} (h0 : Kept kq kn s) : Kept kq kn (State.govAsk s p charge).2 := by
  unfold State.govAsk
  try dsimp only
  repeat' first
    | with_reducible assumption | with_reducible apply State.govAdmit_kept | with_reducible apply State.govHold_kept
    | with_reducible apply OutKept.next | with_reducible apply OutKept.fault
    | with_reducible apply Kept.core (q := kq) (n := kn) | split
    | (refine Kept.intro ?_; dsimp only; with_reducible refine Kept.elim ?_)
    | (refine CoreKept.intro ?_; dsimp only; with_reducible refine CoreKept.elim ?_) | exact CoreKept.reset | intro _
    | dsimp only

theorem execGovernorSlice_kept {s : State} (h0 : Kept kq kn s) : OutKept kq kn (execGovernorSlice s) := by
  unfold execGovernorSlice
  try dsimp only
  repeat' first
    | with_reducible assumption | with_reducible apply CoreState.put_kept | with_reducible apply CoreState.wrap_kept
    | with_reducible apply State.put_kept | with_reducible apply State.wrap_kept | with_reducible apply OutKept.next
    | with_reducible apply OutKept.fault | with_reducible apply Kept.foldl | with_reducible apply Kept.foldl_fst
    | with_reducible apply CoreKept.foldl | with_reducible apply CoreKept.foldl_fst | with_reducible apply Kept.foldl_snd
    | with_reducible apply CoreKept.foldl_snd | with_reducible apply Kept.core (q := kq) (n := kn) | split
    | (refine Kept.intro ?_; dsimp only; with_reducible refine Kept.elim ?_)
    | (refine CoreKept.intro ?_; dsimp only; with_reducible refine CoreKept.elim ?_) | exact CoreKept.reset | intro _
    | dsimp only

theorem State.perturb_kept {s : State} {point : Nat} {delay : Nat} {jit : Nat} {duty : Nat} {replay : Bool} (h0 : Kept kq kn s) : Kept kq kn (State.perturb s point delay jit duty replay).1 := by
  unfold State.perturb
  try dsimp only
  repeat' first
    | with_reducible assumption | with_reducible apply CoreState.bump_kept | with_reducible apply CoreState.wrap_kept
    | with_reducible apply State.bump_kept | with_reducible apply State.wrap_kept | with_reducible apply OutKept.next
    | with_reducible apply OutKept.fault | with_reducible apply Kept.core (q := kq) (n := kn) | split
    | (refine Kept.intro ?_; dsimp only; with_reducible refine Kept.elim ?_)
    | (refine CoreKept.intro ?_; dsimp only; with_reducible refine CoreKept.elim ?_) | exact CoreKept.reset | intro _
    | dsimp only

end Sys2Proof.Machine
end

