-- ==== Sys2Proof/Laws/KeptBasin.lean ====
section
/-! SUPPORT. What the operations of Machine/Basin.lean keep (Laws/Kept.lean). -/

namespace Sys2Proof.Machine

variable {kq : List Instr} {kn : Nat}

theorem CoreState.noteLease_kept {c : CoreState} {now : Nat} (h0 : CoreKept c) : CoreKept (CoreState.noteLease c now) := by
  unfold CoreState.noteLease
  try dsimp only
  repeat' first
    | with_reducible assumption | with_reducible apply OutKept.next | with_reducible apply OutKept.fault
    | with_reducible apply Kept.core (q := kq) (n := kn)
    | (refine Kept.intro ?_; dsimp only; with_reducible refine Kept.elim ?_)
    | (refine CoreKept.intro ?_; dsimp only; with_reducible refine CoreKept.elim ?_) | exact CoreKept.reset | intro _
    | dsimp only

theorem CoreState.setLease_kept {c : CoreState} {now : Nat} {set : Nat} (h0 : CoreKept c) : CoreKept (CoreState.setLease c now set) := by
  unfold CoreState.setLease
  try dsimp only
  repeat' first
    | with_reducible assumption | with_reducible apply CoreState.put_kept | with_reducible apply CoreState.moved_kept
    | with_reducible apply State.put_kept | with_reducible apply State.moved_kept
    | with_reducible apply CoreState.noteLease_kept | with_reducible apply OutKept.next | with_reducible apply OutKept.fault
    | with_reducible apply Kept.core (q := kq) (n := kn)
    | (refine Kept.intro ?_; dsimp only; with_reducible refine Kept.elim ?_)
    | (refine CoreKept.intro ?_; dsimp only; with_reducible refine CoreKept.elim ?_) | exact CoreKept.reset | intro _
    | dsimp only

theorem CoreState.lastBreach_kept {c : CoreState} {set : Nat} {cls : Nat} {ledge : Nat} (h0 : CoreKept c) : CoreKept (CoreState.lastBreach c set cls ledge) := by
  unfold CoreState.lastBreach
  try dsimp only
  repeat' first
    | with_reducible assumption | with_reducible apply CoreState.put_kept | with_reducible apply State.put_kept
    | with_reducible apply OutKept.next | with_reducible apply OutKept.fault
    | with_reducible apply Kept.core (q := kq) (n := kn)
    | (refine Kept.intro ?_; dsimp only; with_reducible refine Kept.elim ?_)
    | (refine CoreKept.intro ?_; dsimp only; with_reducible refine CoreKept.elim ?_) | exact CoreKept.reset | intro _
    | dsimp only

theorem CoreState.countBreaches_kept {c : CoreState} {l : List Access} (h0 : CoreKept c) : CoreKept (CoreState.countBreaches c l) := by
  unfold CoreState.countBreaches
  try dsimp only
  repeat' first
    | with_reducible assumption | with_reducible apply CoreState.bump_kept | with_reducible apply State.bump_kept
    | with_reducible apply CoreState.lastBreach_kept | with_reducible apply OutKept.next | with_reducible apply OutKept.fault
    | with_reducible apply Kept.foldl | with_reducible apply Kept.foldl_fst | with_reducible apply CoreKept.foldl
    | with_reducible apply CoreKept.foldl_fst | with_reducible apply Kept.foldl_snd | with_reducible apply CoreKept.foldl_snd
    | with_reducible apply Kept.core (q := kq) (n := kn) | split
    | (refine Kept.intro ?_; dsimp only; with_reducible refine Kept.elim ?_)
    | (refine CoreKept.intro ?_; dsimp only; with_reducible refine CoreKept.elim ?_) | exact CoreKept.reset | intro _
    | with_reducible refine Kept.of_fst ‹_› ?_ | with_reducible refine Kept.of_snd ‹_› ?_
    | with_reducible refine Kept.of_trd ‹_› ?_ | with_reducible refine CoreKept.of_fst ‹_› ?_
    | with_reducible refine CoreKept.of_snd ‹_› ?_ | dsimp only

theorem CoreState.hazard_kept {c : CoreState} {a : Access} {b : Access} {prs : List Producer} (h0 : CoreKept c) : CoreKept (CoreState.hazard c a b prs) := by
  unfold CoreState.hazard
  try dsimp only
  repeat' first
    | with_reducible assumption | with_reducible apply CoreState.put_kept | with_reducible apply CoreState.bump_kept
    | with_reducible apply State.put_kept | with_reducible apply State.bump_kept | with_reducible apply OutKept.next
    | with_reducible apply OutKept.fault | with_reducible apply Kept.core (q := kq) (n := kn) | split
    | (refine Kept.intro ?_; dsimp only; with_reducible refine Kept.elim ?_)
    | (refine CoreKept.intro ?_; dsimp only; with_reducible refine CoreKept.elim ?_) | exact CoreKept.reset | intro _
    | with_reducible refine Kept.of_fst ‹_› ?_ | with_reducible refine Kept.of_snd ‹_› ?_
    | with_reducible refine Kept.of_trd ‹_› ?_ | with_reducible refine CoreKept.of_fst ‹_› ?_
    | with_reducible refine CoreKept.of_snd ‹_› ?_ | dsimp only

theorem CoreState.countHazards_kept {c : CoreState} {l : List Access} (h0 : CoreKept c) : CoreKept (CoreState.countHazards c l) := by
  unfold CoreState.countHazards
  try dsimp only
  repeat' first
    | with_reducible assumption | with_reducible apply CoreState.hazard_kept | with_reducible apply Kept.foldl
    | with_reducible apply Kept.foldl_fst | with_reducible apply CoreKept.foldl | split | intro _ | dsimp only

theorem CoreState.tagWrite_kept {c : CoreState} {a : Access} (h0 : CoreKept c) : CoreKept (CoreState.tagWrite c a) := by
  unfold CoreState.tagWrite
  try dsimp only
  repeat' first
    | with_reducible assumption | with_reducible apply CoreState.post_kept | with_reducible apply CoreState.claim_kept
    | with_reducible apply OutKept.next | with_reducible apply OutKept.fault | with_reducible apply Kept.foldl
    | with_reducible apply Kept.foldl_fst | with_reducible apply CoreKept.foldl | with_reducible apply CoreKept.foldl_fst
    | with_reducible apply Kept.foldl_snd | with_reducible apply CoreKept.foldl_snd
    | with_reducible apply Kept.core (q := kq) (n := kn) | split
    | (refine Kept.intro ?_; dsimp only; with_reducible refine Kept.elim ?_)
    | (refine CoreKept.intro ?_; dsimp only; with_reducible refine CoreKept.elim ?_) | exact CoreKept.reset | intro _
    | with_reducible refine Kept.of_fst ‹_› ?_ | with_reducible refine Kept.of_snd ‹_› ?_
    | with_reducible refine Kept.of_trd ‹_› ?_ | with_reducible refine CoreKept.of_fst ‹_› ?_
    | with_reducible refine CoreKept.of_snd ‹_› ?_ | dsimp only

theorem CoreState.grantBanks_kept {c : CoreState} {now : Nat} {a : Access} (h0 : CoreKept c) : CoreKept (CoreState.grantBanks c now a) := by
  unfold CoreState.grantBanks
  try dsimp only
  repeat' first
    | with_reducible assumption | with_reducible apply OutKept.next | with_reducible apply OutKept.fault
    | with_reducible apply Kept.core (q := kq) (n := kn) | split
    | (refine Kept.intro ?_; dsimp only; with_reducible refine Kept.elim ?_)
    | (refine CoreKept.intro ?_; dsimp only; with_reducible refine CoreKept.elim ?_) | exact CoreKept.reset | intro _
    | dsimp only

theorem State.arbitrateOne_kept {s : State} {p : Nat} {cands : List Access} {a : Access} (h0 : Kept kq kn s) : Kept kq kn (State.arbitrateOne s p cands a) := by
  unfold State.arbitrateOne
  try dsimp only
  repeat' first
    | with_reducible assumption | with_reducible apply State.setCore_kept | with_reducible apply State.modCore_kept
    | with_reducible apply State.govAsk_kept | with_reducible apply CoreState.tagWrite_kept
    | with_reducible apply CoreState.grantBanks_kept | with_reducible apply OutKept.next | with_reducible apply OutKept.fault
    | with_reducible apply Kept.core (q := kq) (n := kn) | split
    | (refine Kept.intro ?_; dsimp only; with_reducible refine Kept.elim ?_)
    | (refine CoreKept.intro ?_; dsimp only; with_reducible refine CoreKept.elim ?_) | exact CoreKept.reset | intro _
    | dsimp only

theorem State.perturbArrivals_kept {s : State} {p : Nat} {core : Nat} {l : List Access} (h0 : Kept kq kn s) : Kept kq kn (State.perturbArrivals s p core l).1 := by
  unfold State.perturbArrivals
  try dsimp only
  repeat' first
    | with_reducible assumption | with_reducible apply State.perturb_kept | with_reducible apply OutKept.next
    | with_reducible apply OutKept.fault | with_reducible apply Kept.foldl | with_reducible apply Kept.foldl_fst
    | with_reducible apply CoreKept.foldl | with_reducible apply CoreKept.foldl_fst | with_reducible apply Kept.foldl_snd
    | with_reducible apply CoreKept.foldl_snd | with_reducible apply Kept.core (q := kq) (n := kn) | split
    | (refine Kept.intro ?_; dsimp only; with_reducible refine Kept.elim ?_)
    | (refine CoreKept.intro ?_; dsimp only; with_reducible refine CoreKept.elim ?_) | exact CoreKept.reset | intro _
    | with_reducible refine Kept.of_fst ‹_› ?_ | with_reducible refine Kept.of_snd ‹_› ?_
    | with_reducible refine Kept.of_trd ‹_› ?_ | with_reducible refine CoreKept.of_fst ‹_› ?_
    | with_reducible refine CoreKept.of_snd ‹_› ?_ | dsimp only

theorem State.arbitrate_kept {s : State} {p : Nat} {core : Nat} {arrivals : List Access} (h0 : Kept kq kn s) : Kept kq kn (State.arbitrate s p core arrivals) := by
  unfold State.arbitrate
  try dsimp only
  repeat' first
    | with_reducible assumption | with_reducible apply State.setCore_kept | with_reducible apply CoreState.faultWord_kept
    | with_reducible apply CoreState.countBreaches_kept | with_reducible apply CoreState.countHazards_kept
    | with_reducible apply State.arbitrateOne_kept | with_reducible apply State.perturbArrivals_kept
    | with_reducible apply OutKept.next | with_reducible apply OutKept.fault | with_reducible apply Kept.foldl
    | with_reducible apply Kept.foldl_fst | with_reducible apply CoreKept.foldl | with_reducible apply CoreKept.foldl_fst
    | with_reducible apply Kept.foldl_snd | with_reducible apply CoreKept.foldl_snd
    | with_reducible apply Kept.core (q := kq) (n := kn) | split
    | (refine Kept.intro ?_; dsimp only; with_reducible refine Kept.elim ?_)
    | (refine Kept.intro ?_; dsimp only; with_reducible refine Kept.elim_used _ ?_ ?_)
    | (refine CoreKept.intro ?_; dsimp only; with_reducible refine CoreKept.elim ?_) | exact CoreKept.reset | intro _
    | with_reducible refine Kept.of_fst ‹_› ?_ | with_reducible refine Kept.of_snd ‹_› ?_
    | with_reducible refine Kept.of_trd ‹_› ?_ | with_reducible refine CoreKept.of_fst ‹_› ?_
    | with_reducible refine CoreKept.of_snd ‹_› ?_ | dsimp only

theorem execBankArbitration_kept {core : Nat} {arrivals : List Access} {s : State} (h0 : Kept kq kn s) : OutKept kq kn (execBankArbitration core arrivals s) := by
  unfold execBankArbitration
  try dsimp only
  repeat' first
    | with_reducible assumption | with_reducible apply State.setCore_kept | with_reducible apply State.arbitrate_kept
    | with_reducible apply onCore_kept | with_reducible apply OutKept.next | with_reducible apply OutKept.fault
    | with_reducible apply Kept.core (q := kq) (n := kn) | split
    | (refine Kept.intro ?_; dsimp only; with_reducible refine Kept.elim ?_)
    | (refine CoreKept.intro ?_; dsimp only; with_reducible refine CoreKept.elim ?_) | exact CoreKept.reset | intro _
    | dsimp only

theorem CoreState.ascend_kept {c : CoreState} {now : Nat} {b : Banking} {bad : Bool} (h0 : CoreKept c) : CoreKept (CoreState.ascend c now b bad) := by
  unfold CoreState.ascend
  try dsimp only
  repeat' first
    | with_reducible assumption | with_reducible apply OutKept.next | with_reducible apply OutKept.fault
    | with_reducible apply Kept.core (q := kq) (n := kn) | split
    | (refine Kept.intro ?_; dsimp only; with_reducible refine Kept.elim ?_)
    | (refine CoreKept.intro ?_; dsimp only; with_reducible refine CoreKept.elim ?_) | exact CoreKept.reset | intro _
    | with_reducible refine Kept.of_fst ‹_› ?_ | with_reducible refine Kept.of_snd ‹_› ?_
    | with_reducible refine Kept.of_trd ‹_› ?_ | with_reducible refine CoreKept.of_fst ‹_› ?_
    | with_reducible refine CoreKept.of_snd ‹_› ?_ | dsimp only

theorem CoreState.dropAccess_kept {c : CoreState} {serial : Nat} (h0 : CoreKept c) : CoreKept (CoreState.dropAccess c serial) := by
  unfold CoreState.dropAccess
  try dsimp only
  repeat' first
    | with_reducible assumption | with_reducible apply OutKept.next | with_reducible apply OutKept.fault
    | with_reducible apply Kept.core (q := kq) (n := kn)
    | (refine Kept.intro ?_; dsimp only; with_reducible refine Kept.elim ?_)
    | (refine CoreKept.intro ?_; dsimp only; with_reducible refine CoreKept.elim ?_) | exact CoreKept.reset | intro _
    | dsimp only

theorem CoreState.stallAt_kept {c : CoreState} {now : Nat} {b : Banking} (h0 : CoreKept c) : CoreKept (CoreState.stallAt c now b) := by
  unfold CoreState.stallAt
  try dsimp only
  repeat' first
    | with_reducible assumption | with_reducible apply OutKept.next | with_reducible apply OutKept.fault
    | with_reducible apply Kept.core (q := kq) (n := kn)
    | (refine Kept.intro ?_; dsimp only; with_reducible refine Kept.elim ?_)
    | (refine CoreKept.intro ?_; dsimp only; with_reducible refine CoreKept.elim ?_) | exact CoreKept.reset | intro _
    | dsimp only

theorem State.bankRead_kept {s : State} {p : Nat} {b : Banking} (h0 : Kept kq kn s) : Kept kq kn (State.bankRead s p b) := by
  unfold State.bankRead
  try dsimp only
  repeat' first
    | with_reducible assumption | with_reducible apply State.modCore_kept | with_reducible apply CoreState.faultWord_kept
    | with_reducible apply State.meets_kept | with_reducible apply CoreState.ascend_kept
    | with_reducible apply CoreState.dropAccess_kept | with_reducible apply CoreState.stallAt_kept
    | with_reducible apply OutKept.next | with_reducible apply OutKept.fault
    | with_reducible apply Kept.core (q := kq) (n := kn) | split
    | (refine Kept.intro ?_; dsimp only; with_reducible refine Kept.elim ?_)
    | (refine CoreKept.intro ?_; dsimp only; with_reducible refine CoreKept.elim ?_) | exact CoreKept.reset | intro _
    | with_reducible refine Kept.of_fst ‹_› ?_ | with_reducible refine Kept.of_snd ‹_› ?_
    | with_reducible refine Kept.of_trd ‹_› ?_ | with_reducible refine CoreKept.of_fst ‹_› ?_
    | with_reducible refine CoreKept.of_snd ‹_› ?_ | dsimp only

theorem State.bankFirst_kept {s : State} {p : Nat} {b : Banking} (h0 : Kept kq kn s) : Kept kq kn (State.bankFirst s p b) := by
  unfold State.bankFirst
  try dsimp only
  repeat' first
    | with_reducible assumption | with_reducible apply State.modCore_kept | with_reducible apply State.poke_kept
    | with_reducible apply State.arrived_kept | with_reducible apply State.meets_kept
    | with_reducible apply CoreState.stallAt_kept | with_reducible apply OutKept.next | with_reducible apply OutKept.fault
    | with_reducible apply Kept.foldl | with_reducible apply Kept.foldl_fst | with_reducible apply CoreKept.foldl
    | with_reducible apply CoreKept.foldl_fst | with_reducible apply Kept.foldl_snd | with_reducible apply CoreKept.foldl_snd
    | with_reducible apply Kept.core (q := kq) (n := kn) | split
    | (refine Kept.intro ?_; dsimp only; with_reducible refine Kept.elim ?_)
    | (refine CoreKept.intro ?_; dsimp only; with_reducible refine CoreKept.elim ?_) | exact CoreKept.reset | intro _
    | with_reducible refine Kept.of_fst ‹_› ?_ | with_reducible refine Kept.of_snd ‹_› ?_
    | with_reducible refine Kept.of_trd ‹_› ?_ | with_reducible refine CoreKept.of_fst ‹_› ?_
    | with_reducible refine CoreKept.of_snd ‹_› ?_ | dsimp only

theorem State.bankSums_kept {s : State} {p : Nat} {b : Banking} (h0 : Kept kq kn s) : Kept kq kn (State.bankSums s p b) := by
  unfold State.bankSums
  try dsimp only
  repeat' first
    | with_reducible assumption | with_reducible apply State.poke_kept | with_reducible apply State.arrived_kept
    | with_reducible apply OutKept.next | with_reducible apply OutKept.fault | with_reducible apply Kept.foldl
    | with_reducible apply Kept.foldl_fst | with_reducible apply CoreKept.foldl | with_reducible apply CoreKept.foldl_fst
    | with_reducible apply Kept.foldl_snd | with_reducible apply CoreKept.foldl_snd
    | with_reducible apply Kept.core (q := kq) (n := kn) | split
    | (refine Kept.intro ?_; dsimp only; with_reducible refine Kept.elim ?_)
    | (refine CoreKept.intro ?_; dsimp only; with_reducible refine CoreKept.elim ?_) | exact CoreKept.reset | intro _
    | dsimp only

theorem State.bankStep_kept {s : State} {p : Nat} {b : Banking} (h0 : Kept kq kn s) : Kept kq kn (State.bankStep s p b) := by
  unfold State.bankStep
  try dsimp only
  repeat' first
    | with_reducible assumption | with_reducible apply State.setCore_kept | with_reducible apply State.bankRead_kept
    | with_reducible apply State.bankFirst_kept | with_reducible apply State.bankSums_kept | with_reducible apply OutKept.next
    | with_reducible apply OutKept.fault | with_reducible apply Kept.core (q := kq) (n := kn) | split
    | (refine Kept.intro ?_; dsimp only; with_reducible refine Kept.elim ?_)
    | (refine CoreKept.intro ?_; dsimp only; with_reducible refine CoreKept.elim ?_) | exact CoreKept.reset | intro _
    | with_reducible refine Kept.of_fst ‹_› ?_ | with_reducible refine Kept.of_snd ‹_› ?_
    | with_reducible refine Kept.of_trd ‹_› ?_ | with_reducible refine CoreKept.of_fst ‹_› ?_
    | with_reducible refine CoreKept.of_snd ‹_› ?_ | dsimp only

theorem CoreState.upset_kept {c : CoreState} {u : Upset} (h0 : CoreKept c) : CoreKept (CoreState.upset c u) := by
  unfold CoreState.upset
  try dsimp only
  repeat' first
    | with_reducible assumption | (refine Kept.intro ?_; dsimp only; with_reducible refine Kept.elim ?_)
    | (refine CoreKept.intro ?_; dsimp only; with_reducible refine CoreKept.elim ?_) | intro _ | dsimp only

theorem execBasinBankCycle_kept {core : Nat} {upsets : List Upset} {s : State} (h0 : Kept kq kn s) : OutKept kq kn (execBasinBankCycle core upsets s) := by
  unfold execBasinBankCycle
  try dsimp only
  repeat' first
    | with_reducible assumption | with_reducible apply State.setCore_kept | with_reducible apply State.bankStep_kept
    | with_reducible apply CoreState.upset_kept | with_reducible apply onLive_kept | with_reducible apply OutKept.next
    | with_reducible apply OutKept.fault | with_reducible apply Kept.foldl | with_reducible apply Kept.foldl_fst
    | with_reducible apply CoreKept.foldl | with_reducible apply CoreKept.foldl_fst | with_reducible apply Kept.foldl_snd
    | with_reducible apply CoreKept.foldl_snd | with_reducible apply Kept.core (q := kq) (n := kn)
    | (refine Kept.intro ?_; dsimp only; with_reducible refine Kept.elim ?_)
    | (refine CoreKept.intro ?_; dsimp only; with_reducible refine CoreKept.elim ?_) | exact CoreKept.reset | intro _
    | dsimp only

theorem execBasinReadData_kept {core : Nat} {s : State} (h0 : Kept kq kn s) : OutKept kq kn (execBasinReadData core s) := by
  unfold execBasinReadData
  try dsimp only
  repeat' first
    | with_reducible assumption | with_reducible apply State.setCore_kept | with_reducible apply onLive_kept
    | with_reducible apply OutKept.next | with_reducible apply OutKept.fault | with_reducible apply Kept.foldl
    | with_reducible apply Kept.foldl_fst | with_reducible apply CoreKept.foldl | with_reducible apply CoreKept.foldl_fst
    | with_reducible apply Kept.foldl_snd | with_reducible apply CoreKept.foldl_snd
    | with_reducible apply Kept.core (q := kq) (n := kn)
    | (refine Kept.intro ?_; dsimp only; with_reducible refine Kept.elim ?_)
    | (refine CoreKept.intro ?_; dsimp only; with_reducible refine CoreKept.elim ?_) | exact CoreKept.reset | intro _
    | dsimp only

theorem execChunkRepair_kept {core : Nat} {addr : Nat} {s : State} (h0 : Kept kq kn s) : OutKept kq kn (execChunkRepair core addr s) := by
  unfold execChunkRepair
  try dsimp only
  repeat' first
    | with_reducible assumption | with_reducible apply State.setCore_kept | with_reducible apply onLive_kept
    | with_reducible apply OutKept.next | with_reducible apply OutKept.fault
    | with_reducible apply Kept.core (q := kq) (n := kn) | split
    | (refine Kept.intro ?_; dsimp only; with_reducible refine Kept.elim ?_)
    | (refine CoreKept.intro ?_; dsimp only; with_reducible refine CoreKept.elim ?_) | exact CoreKept.reset | intro _
    | dsimp only

theorem State.drainDeltas_kept {s : State} {shoal : Nat} (h0 : Kept kq kn s) : Kept kq kn (State.drainDeltas s shoal) := by
  unfold State.drainDeltas
  try dsimp only
  repeat' first
    | with_reducible assumption | with_reducible apply State.applyDelta_kept | with_reducible apply State.modCore_kept
    | with_reducible apply Kept.foldl | with_reducible apply Kept.foldl_fst | with_reducible apply CoreKept.foldl
    | with_reducible apply Kept.core (q := kq) (n := kn)
    | (refine Kept.intro ?_; dsimp only; with_reducible refine Kept.elim ?_)
    | (refine CoreKept.intro ?_; dsimp only; with_reducible refine CoreKept.elim ?_) | intro _ | dsimp only

theorem execChunkRepairDone_kept {core : Nat} {addr : Nat} {s : State} (h0 : Kept kq kn s) : OutKept kq kn (execChunkRepairDone core addr s) := by
  unfold execChunkRepairDone
  try dsimp only
  repeat' first
    | with_reducible assumption | with_reducible apply State.setCore_kept | with_reducible apply State.modCore_kept
    | with_reducible apply CoreState.bump_kept | with_reducible apply State.bump_kept
    | with_reducible apply State.notifyCove_kept | with_reducible apply CoreState.faultWord_kept
    | with_reducible apply CoreState.setPoison_kept | with_reducible apply State.pushDelta_kept
    | with_reducible apply CoreState.dropAccess_kept | with_reducible apply State.drainDeltas_kept
    | with_reducible apply onLive_kept | with_reducible apply OutKept.next | with_reducible apply OutKept.fault
    | with_reducible apply Kept.foldl | with_reducible apply Kept.foldl_fst | with_reducible apply CoreKept.foldl
    | with_reducible apply CoreKept.foldl_fst | with_reducible apply Kept.foldl_snd | with_reducible apply CoreKept.foldl_snd
    | with_reducible apply Kept.core (q := kq) (n := kn) | split
    | (refine Kept.intro ?_; dsimp only; with_reducible refine Kept.elim ?_)
    | (refine CoreKept.intro ?_; dsimp only; with_reducible refine CoreKept.elim ?_)
    | (refine CoreKept.intro ?_; dsimp only; with_reducible refine CoreKept.basin_write ?_) | exact CoreKept.reset | intro _
    | with_reducible refine Kept.of_fst ‹_› ?_ | with_reducible refine Kept.of_snd ‹_› ?_
    | with_reducible refine Kept.of_trd ‹_› ?_ | with_reducible refine CoreKept.of_fst ‹_› ?_
    | with_reducible refine CoreKept.of_snd ‹_› ?_ | dsimp only

theorem execDeltaApply_kept {shoal : Nat} {ledge : Nat} {s : State} (h0 : Kept kq kn s) : OutKept kq kn (execDeltaApply shoal ledge s) := by
  unfold execDeltaApply
  try dsimp only
  repeat' first
    | with_reducible assumption | with_reducible apply CoreState.fault_kept | with_reducible apply State.applyDelta_kept
    | with_reducible apply State.setCore_kept | with_reducible apply OutKept.next | with_reducible apply OutKept.fault
    | with_reducible apply Kept.core (q := kq) (n := kn) | split
    | (refine Kept.intro ?_; dsimp only; with_reducible refine Kept.elim ?_)
    | (refine CoreKept.intro ?_; dsimp only; with_reducible refine CoreKept.elim ?_) | intro _ | dsimp only

end Sys2Proof.Machine
end

