-- ==== Sys2Proof/Laws/KeptPorts.lean ====
section
/-! SUPPORT. What the operations of Machine/Ports.lean keep (Laws/Kept.lean). -/

namespace Sys2Proof.Machine

variable {kq : List Instr} {kn : Nat}

theorem CoreState.portBreaches_kept {c : CoreState} {now : Nat} {port : Port} {width : Nat × Nat} {chunks : List Nat} (h0 : CoreKept c) : CoreKept (CoreState.portBreaches c now port width chunks) := by
  unfold CoreState.portBreaches
  try dsimp only
  repeat' first
    | with_reducible assumption | with_reducible apply CoreState.bump_kept | with_reducible apply State.bump_kept
    | with_reducible apply CoreState.lastBreach_kept | with_reducible apply OutKept.next | with_reducible apply OutKept.fault
    | with_reducible apply Kept.foldl | with_reducible apply Kept.foldl_fst | with_reducible apply CoreKept.foldl
    | with_reducible apply CoreKept.foldl_fst | with_reducible apply Kept.foldl_snd | with_reducible apply CoreKept.foldl_snd
    | with_reducible apply Kept.core (q := kq) (n := kn) | split
    | (refine Kept.intro ?_; dsimp only; with_reducible refine Kept.elim ?_)
    | (refine CoreKept.intro ?_; dsimp only; with_reducible refine CoreKept.elim ?_) | exact CoreKept.reset | intro _
    | with_reducible refine Kept.of_fst ‹_› ?_ | with_reducible refine Kept.of_snd ‹_› ?_
    | with_reducible refine Kept.of_trd ‹_› ?_ | with_reducible refine CoreKept.of_fst ‹_› ?_
    | with_reducible refine CoreKept.of_snd ‹_› ?_ | dsimp only

theorem State.portTake_kept {s : State} {p : Nat} {port : Port} {width : Nat × Nat} {charge : Nat} {chunks : List Nat} (h0 : Kept kq kn s) : Kept kq kn (State.portTake s p port width charge chunks) := by
  unfold State.portTake
  try dsimp only
  repeat' first
    | with_reducible assumption | with_reducible apply State.modCore_kept | with_reducible apply State.charge_kept
    | with_reducible apply State.govAdmit_kept | with_reducible apply CoreState.portBreaches_kept
    | with_reducible apply OutKept.next | with_reducible apply OutKept.fault
    | with_reducible apply Kept.core (q := kq) (n := kn)
    | (refine Kept.intro ?_; dsimp only; with_reducible refine Kept.elim ?_)
    | (refine CoreKept.intro ?_; dsimp only; with_reducible refine CoreKept.elim ?_) | exact CoreKept.reset | intro _
    | dsimp only

theorem State.portRead_kept {s : State} {p : Nat} {port : Port} {expect : Option (Nat × BitVec 16)} {chunks : List Nat} {r : Reader} (h0 : Kept kq kn s) : Kept kq kn (State.portRead s p port expect chunks r).2 := by
  unfold State.portRead
  try dsimp only
  repeat' first
    | with_reducible assumption | with_reducible apply State.meets_kept | with_reducible apply State.govHold_kept
    | with_reducible apply State.portTake_kept | with_reducible apply OutKept.next | with_reducible apply OutKept.fault
    | with_reducible apply Kept.core (q := kq) (n := kn) | split
    | (refine Kept.intro ?_; dsimp only; with_reducible refine Kept.elim ?_)
    | (refine CoreKept.intro ?_; dsimp only; with_reducible refine CoreKept.elim ?_) | exact CoreKept.reset | intro _
    | with_reducible refine Kept.of_fst ‹_› ?_ | with_reducible refine Kept.of_snd ‹_› ?_
    | with_reducible refine Kept.of_trd ‹_› ?_ | with_reducible refine CoreKept.of_fst ‹_› ?_
    | with_reducible refine CoreKept.of_snd ‹_› ?_ | dsimp only

theorem State.landPart_kept {s : State} {p : Nat} {k : Writer} {x : WritePart} (h0 : Kept kq kn s) : Kept kq kn (State.landPart s p k x) := by
  unfold State.landPart
  try dsimp only
  repeat' first
    | with_reducible assumption | with_reducible apply State.setCore_kept | with_reducible apply State.modCore_kept
    | with_reducible apply State.land_kept | with_reducible apply CoreState.post_kept
    | with_reducible apply CoreState.claim_kept | with_reducible apply OutKept.next | with_reducible apply OutKept.fault
    | with_reducible apply Kept.foldl | with_reducible apply Kept.foldl_fst | with_reducible apply CoreKept.foldl
    | with_reducible apply CoreKept.foldl_fst | with_reducible apply Kept.foldl_snd | with_reducible apply CoreKept.foldl_snd
    | with_reducible apply Kept.foldl_state | with_reducible apply Kept.core (q := kq) (n := kn) | split
    | (refine Kept.intro ?_; dsimp only; with_reducible refine Kept.elim ?_)
    | (refine CoreKept.intro ?_; dsimp only; with_reducible refine CoreKept.elim ?_) | exact CoreKept.reset | intro _
    | dsimp only

theorem State.portWrite_kept {s : State} {p : Nat} {core : Nat} {k : Writer} {l : List WritePart} (h0 : Kept kq kn s) : Kept kq kn (State.portWrite s p core k l).2 := by
  unfold State.portWrite
  try dsimp only
  repeat' first
    | with_reducible assumption | with_reducible apply State.meets_kept | with_reducible apply State.govHold_kept
    | with_reducible apply State.portTake_kept | with_reducible apply State.landPart_kept | with_reducible apply OutKept.next
    | with_reducible apply OutKept.fault | with_reducible apply Kept.foldl | with_reducible apply Kept.foldl_fst
    | with_reducible apply CoreKept.foldl | with_reducible apply CoreKept.foldl_fst | with_reducible apply Kept.foldl_snd
    | with_reducible apply CoreKept.foldl_snd | with_reducible apply Kept.core (q := kq) (n := kn) | split
    | (refine Kept.intro ?_; dsimp only; with_reducible refine Kept.elim ?_)
    | (refine CoreKept.intro ?_; dsimp only; with_reducible refine CoreKept.elim ?_) | exact CoreKept.reset | intro _
    | with_reducible refine Kept.of_fst ‹_› ?_ | with_reducible refine Kept.of_snd ‹_› ?_
    | with_reducible refine Kept.of_trd ‹_› ?_ | with_reducible refine CoreKept.of_fst ‹_› ?_
    | with_reducible refine CoreKept.of_snd ‹_› ?_ | dsimp only

theorem State.portWrites_kept {s : State} {p : Nat} {core : Nat} {k : Writer} {l : List (List WritePart)} (h0 : Kept kq kn s) : Kept kq kn (State.portWrites s p core k l).2.2 := by
  induction l generalizing s p core k with
  | nil =>
    unfold State.portWrites
    try dsimp only
    repeat' first
      | with_reducible assumption | with_reducible apply State.portWrite_kept | with_reducible apply OutKept.next
      | with_reducible apply OutKept.fault | with_reducible apply Kept.core (q := kq) (n := kn) | split
      | (refine Kept.intro ?_; dsimp only; with_reducible refine Kept.elim ?_)
      | (refine CoreKept.intro ?_; dsimp only; with_reducible refine CoreKept.elim ?_) | exact CoreKept.reset | intro _
      | with_reducible refine Kept.of_fst ‹_› ?_ | with_reducible refine Kept.of_snd ‹_› ?_
      | with_reducible refine Kept.of_trd ‹_› ?_ | with_reducible refine CoreKept.of_fst ‹_› ?_
      | with_reducible refine CoreKept.of_snd ‹_› ?_ | dsimp only
  | cons z zs ih =>
    unfold State.portWrites
    try dsimp only
    repeat' first
      | with_reducible assumption | with_reducible apply ih | with_reducible apply State.portWrite_kept
      | with_reducible apply OutKept.next | with_reducible apply OutKept.fault
      | with_reducible apply Kept.core (q := kq) (n := kn) | split
      | (refine Kept.intro ?_; dsimp only; with_reducible refine Kept.elim ?_)
      | (refine CoreKept.intro ?_; dsimp only; with_reducible refine CoreKept.elim ?_) | exact CoreKept.reset | intro _
      | with_reducible refine Kept.of_fst ‹_› ?_ | with_reducible refine Kept.of_snd ‹_› ?_
      | with_reducible refine Kept.of_trd ‹_› ?_ | with_reducible refine CoreKept.of_fst ‹_› ?_
      | with_reducible refine CoreKept.of_snd ‹_› ?_ | dsimp only

end Sys2Proof.Machine
end

