-- ==== Sys2Proof/Laws/KeptLedge.lean ====
section
/-! SUPPORT. What the operations of Machine/Ledge.lean keep (Laws/Kept.lean). -/

namespace Sys2Proof.Machine

variable {kq : List Instr} {kn : Nat}

theorem CoreState.takePush_kept {c : CoreState} (h0 : CoreKept c) : CoreKept (CoreState.takePush c) := by
  unfold CoreState.takePush
  try dsimp only
  repeat' first
    | with_reducible assumption | with_reducible apply CoreState.put_kept | with_reducible apply State.put_kept
    | with_reducible apply OutKept.next | with_reducible apply OutKept.fault
    | with_reducible apply Kept.core (q := kq) (n := kn) | split
    | (refine Kept.intro ?_; dsimp only; with_reducible refine Kept.elim ?_)
    | (refine CoreKept.intro ?_; dsimp only; with_reducible refine CoreKept.elim ?_) | exact CoreKept.reset | intro _
    | with_reducible refine Kept.of_fst ‹_› ?_ | with_reducible refine Kept.of_snd ‹_› ?_
    | with_reducible refine Kept.of_trd ‹_› ?_ | with_reducible refine CoreKept.of_fst ‹_› ?_
    | with_reducible refine CoreKept.of_snd ‹_› ?_ | dsimp only

theorem CoreState.push_kept {c : CoreState} (h0 : CoreKept c) : CoreKept (CoreState.push c) := by
  unfold CoreState.push
  try dsimp only
  repeat' first
    | with_reducible assumption | with_reducible apply CoreState.put_kept | with_reducible apply State.put_kept
    | with_reducible apply CoreState.takePush_kept | with_reducible apply OutKept.next | with_reducible apply OutKept.fault
    | with_reducible apply Kept.core (q := kq) (n := kn)
    | (refine Kept.intro ?_; dsimp only; with_reducible refine Kept.elim ?_)
    | (refine CoreKept.intro ?_; dsimp only; with_reducible refine CoreKept.elim ?_) | exact CoreKept.reset | intro _
    | dsimp only

theorem CoreState.beginLdg_kept {c : CoreState} {i : LdgItem} (h0 : CoreKept c) : CoreKept (CoreState.beginLdg c i) := by
  unfold CoreState.beginLdg
  try dsimp only
  repeat' first
    | with_reducible assumption | with_reducible apply CoreState.takePush_kept | split
    | (refine Kept.intro ?_; dsimp only; with_reducible refine Kept.elim ?_)
    | (refine CoreKept.intro ?_; dsimp only; with_reducible refine CoreKept.elim ?_) | exact CoreKept.reset | dsimp only

theorem CoreState.endLdg_kept {c : CoreState} (h0 : CoreKept c) : CoreKept (CoreState.endLdg c) := by
  unfold CoreState.endLdg
  try dsimp only
  repeat' first
    | with_reducible assumption | (refine Kept.intro ?_; dsimp only; with_reducible refine Kept.elim ?_)
    | (refine CoreKept.intro ?_; dsimp only; with_reducible refine CoreKept.elim ?_) | dsimp only

theorem CoreState.rejectLdg_kept {c : CoreState} {now : Nat} {cls : Nat} {lo : Reg64} {w : Option WordCtx} (h0 : CoreKept c) : CoreKept (CoreState.rejectLdg c now cls lo w) := by
  unfold CoreState.rejectLdg
  try dsimp only
  repeat' first
    | with_reducible assumption | with_reducible apply CoreState.put_kept | with_reducible apply CoreState.raise_kept
    | with_reducible apply State.put_kept | with_reducible apply CoreState.faultWord_kept | with_reducible apply OutKept.next
    | with_reducible apply OutKept.fault | with_reducible apply Kept.core (q := kq) (n := kn) | split
    | (refine Kept.intro ?_; dsimp only; with_reducible refine Kept.elim ?_)
    | (refine CoreKept.intro ?_; dsimp only; with_reducible refine CoreKept.elim ?_) | exact CoreKept.reset | intro _
    | with_reducible refine Kept.of_fst ‹_› ?_ | with_reducible refine Kept.of_snd ‹_› ?_
    | with_reducible refine Kept.of_trd ‹_› ?_ | with_reducible refine CoreKept.of_fst ‹_› ?_
    | with_reducible refine CoreKept.of_snd ‹_› ?_ | dsimp only

theorem CoreState.ldgBegins_kept {c : CoreState} {now : Nat} {i : LdgItem} {addr : Nat} {why : LdgWhy} (h0 : CoreKept c) : CoreKept (CoreState.ldgBegins c now i addr why) := by
  unfold CoreState.ldgBegins
  try dsimp only
  repeat' first
    | with_reducible assumption | with_reducible apply CoreState.takePush_kept | with_reducible apply OutKept.next
    | with_reducible apply OutKept.fault | with_reducible apply Kept.core (q := kq) (n := kn) | split
    | (refine Kept.intro ?_; dsimp only; with_reducible refine Kept.elim ?_)
    | (refine CoreKept.intro ?_; dsimp only; with_reducible refine CoreKept.elim ?_) | exact CoreKept.reset | intro _
    | dsimp only

theorem CoreState.ldgWaits_kept {c : CoreState} {now : Nat} {i : LdgItem} {w : Option WordCtx} {x : Cove × Nat} {why : LdgWhy} (h0 : CoreKept c) : CoreKept (CoreState.ldgWaits c now i w x why) := by
  unfold CoreState.ldgWaits
  try dsimp only
  repeat' first
    | with_reducible assumption | with_reducible apply CoreState.wait_kept | with_reducible apply CoreState.unwait_kept
    | with_reducible apply CoreState.endLdg_kept | with_reducible apply CoreState.ldgBegins_kept
    | with_reducible apply OutKept.next | with_reducible apply OutKept.fault
    | with_reducible apply Kept.core (q := kq) (n := kn) | split
    | (refine Kept.intro ?_; dsimp only; with_reducible refine Kept.elim ?_)
    | (refine CoreKept.intro ?_; dsimp only; with_reducible refine CoreKept.elim ?_) | exact CoreKept.reset | intro _
    | with_reducible refine Kept.of_fst ‹_› ?_ | with_reducible refine Kept.of_snd ‹_› ?_
    | with_reducible refine Kept.of_trd ‹_› ?_ | with_reducible refine CoreKept.of_fst ‹_› ?_
    | with_reducible refine CoreKept.of_snd ‹_› ?_ | dsimp only

theorem CoreState.ldgClaim_kept {c : CoreState} {lo : Reg64} {hi : Reg64} {pr : Producer} (h0 : CoreKept c) : CoreKept (CoreState.ldgClaim c lo hi pr) := by
  unfold CoreState.ldgClaim
  try dsimp only
  repeat' first
    | with_reducible assumption | with_reducible apply CoreState.claim_kept | with_reducible apply Kept.foldl
    | with_reducible apply Kept.foldl_fst | with_reducible apply CoreKept.foldl | split | intro _ | dsimp only

theorem State.ldgRun_kept {s : State} {p : Nat} {core : Nat} {op : Nat} {run : State → Reg64 → Reg64 → Option WordCtx → Nat → LdgItem → State} (h0 : Kept kq kn s) (h1 : ∀ y0 y1 y2 y3 y4 y5, Kept kq kn y0 → Kept kq kn (run y0 y1 y2 y3 y4 y5)) : Kept kq kn (State.ldgRun s p core op run) := by
  unfold State.ldgRun
  try dsimp only
  repeat' first
    | with_reducible assumption | with_reducible apply h1 | with_reducible apply State.setCore_kept
    | with_reducible apply CoreState.beginLdg_kept | with_reducible apply CoreState.endLdg_kept
    | with_reducible apply CoreState.rejectLdg_kept | with_reducible apply OutKept.next | with_reducible apply OutKept.fault
    | with_reducible apply Kept.core (q := kq) (n := kn) | split
    | (refine Kept.intro ?_; dsimp only; with_reducible refine Kept.elim ?_)
    | (refine CoreKept.intro ?_; dsimp only; with_reducible refine CoreKept.elim ?_) | exact CoreKept.reset | intro _
    | with_reducible refine Kept.of_fst ‹_› ?_ | with_reducible refine Kept.of_snd ‹_› ?_
    | with_reducible refine Kept.of_trd ‹_› ?_ | with_reducible refine CoreKept.of_fst ‹_› ?_
    | with_reducible refine CoreKept.of_snd ‹_› ?_ | dsimp only

theorem execNop_kept {core : Nat} {s : State} (h0 : Kept kq kn s) : OutKept kq kn (execNop core s) := by
  unfold execNop
  try dsimp only
  repeat' first
    | with_reducible assumption | with_reducible apply CoreState.beginLdg_kept | with_reducible apply State.ldgRun_kept
    | with_reducible apply State.modCore_kept | with_reducible apply onLive_kept | with_reducible apply OutKept.next
    | with_reducible apply OutKept.fault | with_reducible apply Kept.core (q := kq) (n := kn) | intro _ | dsimp only

theorem State.engineWrite_kept {s : State} {p : Nat} {l : List (Nat × List Byte × Bool)} (h0 : Kept kq kn s) : Kept kq kn (State.engineWrite s p l) := by
  unfold State.engineWrite
  try dsimp only
  repeat' first
    | with_reducible assumption | with_reducible apply State.poke_kept | with_reducible apply OutKept.next
    | with_reducible apply OutKept.fault | with_reducible apply Kept.foldl | with_reducible apply Kept.foldl_fst
    | with_reducible apply CoreKept.foldl | with_reducible apply CoreKept.foldl_fst | with_reducible apply Kept.foldl_snd
    | with_reducible apply CoreKept.foldl_snd | with_reducible apply Kept.core (q := kq) (n := kn)
    | (refine Kept.intro ?_; dsimp only; with_reducible refine Kept.elim ?_)
    | (refine CoreKept.intro ?_; dsimp only; with_reducible refine CoreKept.elim ?_) | exact CoreKept.reset | intro _
    | dsimp only

theorem State.ldgWrite_kept {s : State} {p : Nat} {core : Nat} {lo : Reg64} {hi : Reg64} {w : Option WordCtx} {before : Nat} {i : LdgItem} {data : State → State × (Nat ⊕ List (Nat × List Byte × Bool))} (h0 : Kept kq kn s) (h1 : ∀ y0, Kept kq kn y0 → Kept kq kn (data y0).1) : Kept kq kn (State.ldgWrite s p core lo hi w before i data) := by
  unfold State.ldgWrite
  try dsimp only
  repeat' first
    | with_reducible assumption | with_reducible apply h1 | with_reducible apply State.setCore_kept
    | with_reducible apply State.modCore_kept | with_reducible apply CoreState.faultWord_kept
    | with_reducible apply CoreState.unwait_kept | with_reducible apply State.govHold_kept
    | with_reducible apply State.portTake_kept | with_reducible apply CoreState.beginLdg_kept
    | with_reducible apply CoreState.endLdg_kept | with_reducible apply CoreState.rejectLdg_kept
    | with_reducible apply CoreState.ldgBegins_kept | with_reducible apply CoreState.ldgWaits_kept
    | with_reducible apply CoreState.ldgClaim_kept | with_reducible apply State.engineWrite_kept
    | with_reducible apply OutKept.next | with_reducible apply OutKept.fault
    | with_reducible apply Kept.core (q := kq) (n := kn) | split
    | (refine Kept.intro ?_; dsimp only; with_reducible refine Kept.elim ?_)
    | (refine CoreKept.intro ?_; dsimp only; with_reducible refine CoreKept.elim ?_) | exact CoreKept.reset | intro _
    | with_reducible refine Kept.of_fst ‹_› ?_ | with_reducible refine Kept.of_snd ‹_› ?_
    | with_reducible refine Kept.of_trd ‹_› ?_ | with_reducible refine CoreKept.of_fst ‹_› ?_
    | with_reducible refine CoreKept.of_snd ‹_› ?_ | dsimp only

theorem execFill_kept {core : Nat} {s : State} (h0 : Kept kq kn s) : OutKept kq kn (execFill core s) := by
  unfold execFill
  try dsimp only
  repeat' first
    | with_reducible assumption | with_reducible apply State.ldgRun_kept | with_reducible apply State.ldgWrite_kept
    | with_reducible apply onLive_kept | with_reducible apply OutKept.next | with_reducible apply OutKept.fault
    | with_reducible apply Kept.core (q := kq) (n := kn)
    | (refine Kept.intro ?_; dsimp only; with_reducible refine Kept.elim ?_)
    | (refine CoreKept.intro ?_; dsimp only; with_reducible refine CoreKept.elim ?_) | exact CoreKept.reset | intro _
    | dsimp only

theorem execCopy_kept {core : Nat} {s : State} (h0 : Kept kq kn s) : OutKept kq kn (execCopy core s) := by
  unfold execCopy
  try dsimp only
  repeat' first
    | with_reducible assumption | with_reducible apply State.setCore_kept | with_reducible apply State.meets_kept
    | with_reducible apply CoreState.ldgWaits_kept | with_reducible apply State.ldgRun_kept
    | with_reducible apply State.ldgWrite_kept | with_reducible apply onLive_kept | with_reducible apply OutKept.next
    | with_reducible apply OutKept.fault | with_reducible apply Kept.core (q := kq) (n := kn) | split
    | (refine Kept.intro ?_; dsimp only; with_reducible refine Kept.elim ?_)
    | (refine CoreKept.intro ?_; dsimp only; with_reducible refine CoreKept.elim ?_) | exact CoreKept.reset | intro _
    | with_reducible refine Kept.of_fst ‹_› ?_ | with_reducible refine Kept.of_snd ‹_› ?_
    | with_reducible refine Kept.of_trd ‹_› ?_ | with_reducible refine CoreKept.of_fst ‹_› ?_
    | with_reducible refine CoreKept.of_snd ‹_› ?_ | dsimp only

theorem execAccOpen_kept {core : Nat} {s : State} (h0 : Kept kq kn s) : OutKept kq kn (execAccOpen core s) := by
  unfold execAccOpen
  try dsimp only
  repeat' first
    | with_reducible assumption | with_reducible apply State.setCore_kept | with_reducible apply CoreState.put_kept
    | with_reducible apply State.put_kept | with_reducible apply CoreState.unwait_kept
    | with_reducible apply CoreState.claim_kept | with_reducible apply CoreState.beginLdg_kept
    | with_reducible apply CoreState.ldgWaits_kept | with_reducible apply State.ldgRun_kept | with_reducible apply onLive_kept
    | with_reducible apply OutKept.next | with_reducible apply OutKept.fault | with_reducible apply Kept.foldl
    | with_reducible apply Kept.foldl_fst | with_reducible apply CoreKept.foldl | with_reducible apply CoreKept.foldl_fst
    | with_reducible apply Kept.foldl_snd | with_reducible apply CoreKept.foldl_snd
    | with_reducible apply Kept.core (q := kq) (n := kn) | split
    | (refine Kept.intro ?_; dsimp only; with_reducible refine Kept.elim ?_)
    | (refine CoreKept.intro ?_; dsimp only; with_reducible refine CoreKept.elim ?_) | exact CoreKept.reset | intro _
    | with_reducible refine Kept.of_fst ‹_› ?_ | with_reducible refine Kept.of_snd ‹_› ?_
    | with_reducible refine Kept.of_trd ‹_› ?_ | with_reducible refine CoreKept.of_fst ‹_› ?_
    | with_reducible refine CoreKept.of_snd ‹_› ?_ | dsimp only

theorem execAccClose_kept {core : Nat} {s : State} (h0 : Kept kq kn s) : OutKept kq kn (execAccClose core s) := by
  unfold execAccClose
  try dsimp only
  repeat' first
    | with_reducible assumption | with_reducible apply State.setCore_kept | with_reducible apply CoreState.put_kept
    | with_reducible apply State.put_kept | with_reducible apply CoreState.setTag_kept
    | with_reducible apply CoreState.unwait_kept | with_reducible apply CoreState.post_kept
    | with_reducible apply CoreState.beginLdg_kept | with_reducible apply CoreState.ldgWaits_kept
    | with_reducible apply State.ldgRun_kept | with_reducible apply onLive_kept | with_reducible apply OutKept.next
    | with_reducible apply OutKept.fault | with_reducible apply Kept.foldl | with_reducible apply Kept.foldl_fst
    | with_reducible apply CoreKept.foldl | with_reducible apply CoreKept.foldl_fst | with_reducible apply Kept.foldl_snd
    | with_reducible apply CoreKept.foldl_snd | with_reducible apply Kept.core (q := kq) (n := kn) | split
    | (refine Kept.intro ?_; dsimp only; with_reducible refine Kept.elim ?_)
    | (refine CoreKept.intro ?_; dsimp only; with_reducible refine CoreKept.elim ?_) | exact CoreKept.reset | intro _
    | with_reducible refine Kept.of_fst ‹_› ?_ | with_reducible refine Kept.of_snd ‹_› ?_
    | with_reducible refine Kept.of_trd ‹_› ?_ | with_reducible refine CoreKept.of_fst ‹_› ?_
    | with_reducible refine CoreKept.of_snd ‹_› ?_ | dsimp only

theorem execLedgeCmdComplete_kept {core : Nat} {s : State} (h0 : Kept kq kn s) : OutKept kq kn (execLedgeCmdComplete core s) := by
  unfold execLedgeCmdComplete
  try dsimp only
  repeat' first
    | with_reducible assumption | with_reducible apply State.setCore_kept | with_reducible apply CoreState.wrap_kept
    | with_reducible apply State.wrap_kept | with_reducible apply CoreState.unwait_kept
    | with_reducible apply CoreState.post_kept | with_reducible apply CoreState.endLdg_kept
    | with_reducible apply CoreState.ldgWaits_kept | with_reducible apply onLive_kept | with_reducible apply OutKept.next
    | with_reducible apply OutKept.fault | with_reducible apply Kept.foldl | with_reducible apply Kept.foldl_fst
    | with_reducible apply CoreKept.foldl | with_reducible apply CoreKept.foldl_fst | with_reducible apply Kept.foldl_snd
    | with_reducible apply CoreKept.foldl_snd | with_reducible apply Kept.core (q := kq) (n := kn) | split
    | (refine Kept.intro ?_; dsimp only; with_reducible refine Kept.elim ?_)
    | (refine CoreKept.intro ?_; dsimp only; with_reducible refine CoreKept.elim ?_) | exact CoreKept.reset | intro _
    | with_reducible refine Kept.of_fst ‹_› ?_ | with_reducible refine Kept.of_snd ‹_› ?_
    | with_reducible refine Kept.of_trd ‹_› ?_ | with_reducible refine CoreKept.of_fst ‹_› ?_
    | with_reducible refine CoreKept.of_snd ‹_› ?_ | dsimp only

theorem execLedgeCmdTimeout_kept {core : Nat} {s : State} (h0 : Kept kq kn s) : OutKept kq kn (execLedgeCmdTimeout core s) := by
  unfold execLedgeCmdTimeout
  try dsimp only
  repeat' first
    | with_reducible assumption | with_reducible apply State.setCore_kept | with_reducible apply CoreState.wrap_kept
    | with_reducible apply CoreState.raise_kept | with_reducible apply State.wrap_kept
    | with_reducible apply CoreState.faultCtx_kept | with_reducible apply CoreState.endLdg_kept
    | with_reducible apply onLive_kept | with_reducible apply OutKept.next | with_reducible apply OutKept.fault
    | with_reducible apply Kept.core (q := kq) (n := kn) | split
    | (refine Kept.intro ?_; dsimp only; with_reducible refine Kept.elim ?_)
    | (refine CoreKept.intro ?_; dsimp only; with_reducible refine CoreKept.elim ?_) | exact CoreKept.reset | intro _
    | with_reducible refine Kept.of_fst ‹_› ?_ | with_reducible refine Kept.of_snd ‹_› ?_
    | with_reducible refine Kept.of_trd ‹_› ?_ | with_reducible refine CoreKept.of_fst ‹_› ?_
    | with_reducible refine CoreKept.of_snd ‹_› ?_ | dsimp only

theorem State.foldRange_kept {s : State} {p : Nat} {base : Nat} {len : Nat} (h0 : Kept kq kn s) : Kept kq kn (State.foldRange s p base len) := by
  unfold State.foldRange
  try dsimp only
  repeat' first
    | with_reducible assumption | with_reducible apply CoreState.wrap_kept | with_reducible apply State.wrap_kept
    | with_reducible apply State.applyDelta_kept | with_reducible apply State.modCore_kept | with_reducible apply Kept.foldl
    | with_reducible apply Kept.foldl_fst | with_reducible apply CoreKept.foldl
    | with_reducible apply Kept.core (q := kq) (n := kn) | intro _ | dsimp only

theorem CoreState.setFolded_kept {c : CoreState} {n : Nat} {b : Bool} (h0 : CoreKept c) : CoreKept (CoreState.setFolded c n b) := by
  unfold CoreState.setFolded
  try dsimp only
  repeat' first
    | with_reducible assumption | with_reducible apply CoreState.put_kept | with_reducible apply State.put_kept | dsimp only

theorem execFold_kept {core : Nat} {s : State} (h0 : Kept kq kn s) : OutKept kq kn (execFold core s) := by
  unfold execFold
  try dsimp only
  repeat' first
    | with_reducible assumption | with_reducible apply State.modCore_kept | with_reducible apply CoreState.takePush_kept
    | with_reducible apply State.foldRange_kept | with_reducible apply CoreState.setFolded_kept
    | with_reducible apply onLive_kept | with_reducible apply OutKept.next | with_reducible apply OutKept.fault
    | with_reducible apply Kept.core (q := kq) (n := kn) | split
    | (refine Kept.intro ?_; dsimp only; with_reducible refine Kept.elim ?_)
    | (refine CoreKept.intro ?_; dsimp only; with_reducible refine CoreKept.elim ?_) | exact CoreKept.reset | intro _
    | with_reducible refine Kept.of_fst ‹_› ?_ | with_reducible refine Kept.of_snd ‹_› ?_
    | with_reducible refine Kept.of_trd ‹_› ?_ | with_reducible refine CoreKept.of_fst ‹_› ?_
    | with_reducible refine CoreKept.of_snd ‹_› ?_ | dsimp only

theorem execUnfold_kept {core : Nat} {s : State} (h0 : Kept kq kn s) : OutKept kq kn (execUnfold core s) := by
  unfold execUnfold
  try dsimp only
  repeat' first
    | with_reducible assumption | with_reducible apply State.modCore_kept | with_reducible apply CoreState.takePush_kept
    | with_reducible apply State.foldRange_kept | with_reducible apply onLive_kept | with_reducible apply OutKept.next
    | with_reducible apply OutKept.fault | with_reducible apply Kept.core (q := kq) (n := kn) | split
    | (refine Kept.intro ?_; dsimp only; with_reducible refine Kept.elim ?_)
    | (refine CoreKept.intro ?_; dsimp only; with_reducible refine CoreKept.elim ?_) | exact CoreKept.reset | intro _
    | with_reducible refine Kept.of_fst ‹_› ?_ | with_reducible refine Kept.of_snd ‹_› ?_
    | with_reducible refine Kept.of_trd ‹_› ?_ | with_reducible refine CoreKept.of_fst ‹_› ?_
    | with_reducible refine CoreKept.of_snd ‹_› ?_ | dsimp only

theorem State.sweepUe_kept {s : State} {p : Nat} {core : Nat} {a : Nat} (h0 : Kept kq kn s) : Kept kq kn (State.sweepUe s p core a) := by
  unfold State.sweepUe
  try dsimp only
  repeat' first
    | with_reducible assumption | with_reducible apply State.notifyCove_kept | with_reducible apply CoreState.setPoison_kept
    | with_reducible apply State.pushDelta_kept | with_reducible apply State.setCore_kept
    | with_reducible apply State.modCore_kept | with_reducible apply Kept.core (q := kq) (n := kn) | split
    | (refine Kept.intro ?_; dsimp only; with_reducible refine Kept.elim ?_)
    | (refine CoreKept.intro ?_; dsimp only; with_reducible refine CoreKept.elim ?_) | intro _ | dsimp only

theorem State.recomputeFrom_kept {s : State} {shoal : Nat} {a : Nat} {q : Nat} (h0 : Kept kq kn s) : Kept kq kn (State.recomputeFrom s shoal a q) := by
  unfold State.recomputeFrom
  try dsimp only
  repeat' first
    | with_reducible assumption | with_reducible apply State.setCore_kept | with_reducible apply CoreState.bump_kept
    | with_reducible apply State.bump_kept | with_reducible apply State.notifyCove_kept
    | with_reducible apply CoreState.setPoison_kept | with_reducible apply CoreState.countErrors_kept
    | with_reducible apply OutKept.next | with_reducible apply OutKept.fault
    | with_reducible apply Kept.core (q := kq) (n := kn) | split
    | (refine Kept.intro ?_; dsimp only; with_reducible refine Kept.elim ?_)
    | (refine CoreKept.intro ?_; dsimp only; with_reducible refine CoreKept.elim ?_) | exact CoreKept.reset | intro _
    | with_reducible refine Kept.of_fst ‹_› ?_ | with_reducible refine Kept.of_snd ‹_› ?_
    | with_reducible refine Kept.of_trd ‹_› ?_ | with_reducible refine CoreKept.of_fst ‹_› ?_
    | with_reducible refine CoreKept.of_snd ‹_› ?_ | dsimp only

theorem State.recompute_kept {s : State} {r : Nat} {shoal : Nat} {a : Nat} (h0 : Kept kq kn s) : Kept kq kn (State.recompute s r shoal a) := by
  unfold State.recompute
  try dsimp only
  repeat' first
    | with_reducible assumption | with_reducible apply State.modCore_kept | with_reducible apply CoreState.bump_kept
    | with_reducible apply State.bump_kept | with_reducible apply CoreState.setPoison_kept
    | with_reducible apply State.charge_kept | with_reducible apply State.drainDeltas_kept
    | with_reducible apply State.recomputeFrom_kept | with_reducible apply OutKept.next | with_reducible apply OutKept.fault
    | with_reducible apply Kept.foldl | with_reducible apply Kept.foldl_fst | with_reducible apply CoreKept.foldl
    | with_reducible apply CoreKept.foldl_fst | with_reducible apply Kept.foldl_snd | with_reducible apply CoreKept.foldl_snd
    | with_reducible apply Kept.core (q := kq) (n := kn)
    | (refine Kept.intro ?_; dsimp only; with_reducible refine Kept.elim ?_)
    | (refine CoreKept.intro ?_; dsimp only; with_reducible refine CoreKept.elim ?_)
    | (refine CoreKept.intro ?_; dsimp only; with_reducible refine CoreKept.basin_write ?_) | exact CoreKept.reset | intro _
    | dsimp only

theorem State.sweepRead_kept {s : State} {p : Nat} {upsets : List Upset} {ue : State → Nat → State} (h0 : Kept kq kn s) (h1 : ∀ y0 y1, Kept kq kn y0 → Kept kq kn (ue y0 y1)) : Kept kq kn (State.sweepRead s p upsets ue) := by
  unfold State.sweepRead
  try dsimp only
  repeat' first
    | with_reducible assumption | with_reducible apply h1 | with_reducible apply State.setCore_kept
    | with_reducible apply CoreState.wrap_kept | with_reducible apply State.wrap_kept
    | with_reducible apply CoreState.countErrors_kept | with_reducible apply State.charge_kept
    | with_reducible apply CoreState.upset_kept | with_reducible apply OutKept.next | with_reducible apply OutKept.fault
    | with_reducible apply Kept.foldl | with_reducible apply Kept.foldl_fst | with_reducible apply CoreKept.foldl
    | with_reducible apply CoreKept.foldl_fst | with_reducible apply Kept.foldl_snd | with_reducible apply CoreKept.foldl_snd
    | with_reducible apply Kept.core (q := kq) (n := kn) | split
    | (refine Kept.intro ?_; dsimp only; with_reducible refine Kept.elim ?_)
    | (refine CoreKept.intro ?_; dsimp only; with_reducible refine CoreKept.elim ?_) | exact CoreKept.reset | intro _
    | dsimp only

theorem onSwept_kept {core : Nat} {s : State} {f : Nat → CoreState → (State → Nat → State) → State} (h0 : Kept kq kn s) (h1 : ∀ y0 y1 y2, CoreKept y1 → (∀ z0 z1, Kept kq kn z0 → Kept kq kn (y2 z0 z1)) → Kept kq kn (f y0 y1 y2)) : OutKept kq kn (onSwept core s f) := by
  unfold onSwept
  try dsimp only
  repeat' first
    | with_reducible assumption | with_reducible apply h1 | with_reducible apply State.sweepUe_kept
    | with_reducible apply State.recompute_kept | with_reducible apply onLive_kept | with_reducible apply OutKept.next
    | with_reducible apply OutKept.fault | with_reducible apply Kept.core (q := kq) (n := kn) | split
    | (refine Kept.intro ?_; dsimp only; with_reducible refine Kept.elim ?_)
    | (refine CoreKept.intro ?_; dsimp only; with_reducible refine CoreKept.elim ?_) | exact CoreKept.reset | intro _
    | with_reducible refine Kept.of_fst ‹_› ?_ | with_reducible refine Kept.of_snd ‹_› ?_
    | with_reducible refine Kept.of_trd ‹_› ?_ | with_reducible refine CoreKept.of_fst ‹_› ?_
    | with_reducible refine CoreKept.of_snd ‹_› ?_ | dsimp only

theorem execSweepRow_kept {core : Nat} {upsets : List Upset} {s : State} (h0 : Kept kq kn s) : OutKept kq kn (execSweepRow core upsets s) := by
  unfold execSweepRow
  try dsimp only
  repeat' first
    | with_reducible assumption | with_reducible apply State.sweepRead_kept | with_reducible apply onSwept_kept
    | with_reducible apply OutKept.next | with_reducible apply OutKept.fault
    | with_reducible apply Kept.core (q := kq) (n := kn) | split
    | (refine Kept.intro ?_; dsimp only; with_reducible refine Kept.elim ?_)
    | (refine CoreKept.intro ?_; dsimp only; with_reducible refine CoreKept.elim ?_) | exact CoreKept.reset | intro _
    | dsimp only

theorem execSweepSteal_kept {core : Nat} {upsets : List Upset} {s : State} (h0 : Kept kq kn s) : OutKept kq kn (execSweepSteal core upsets s) := by
  unfold execSweepSteal
  try dsimp only
  repeat' first
    | with_reducible assumption | with_reducible apply State.modCore_kept | with_reducible apply CoreState.bump_kept
    | with_reducible apply State.bump_kept | with_reducible apply State.sweepRead_kept | with_reducible apply onSwept_kept
    | with_reducible apply OutKept.next | with_reducible apply OutKept.fault
    | with_reducible apply Kept.core (q := kq) (n := kn) | split
    | (refine Kept.intro ?_; dsimp only; with_reducible refine Kept.elim ?_)
    | (refine CoreKept.intro ?_; dsimp only; with_reducible refine CoreKept.elim ?_) | exact CoreKept.reset | intro _
    | dsimp only

theorem CoreState.washed_regs {m : List (Nat × Reg64)} {l : List Nat} (h : Sparse.wf coreReset m = true) :
    Sparse.wf coreReset (l.foldl (fun m o => Sparse.set (coreReset o) m o (coreReset o)) m) = true := by
  induction l generalizing m with
  | nil => exact h
  | cons o rest ih => exact ih (Sparse.wf_set (d := coreReset) o _ h)

theorem CoreState.washed_kept {c : CoreState} {blocks : Nat} {done : Nat} (h0 : CoreKept c) : CoreKept (CoreState.washed c blocks done) := by
  unfold CoreState.washed
  dsimp only
  repeat' first
    | with_reducible apply CoreState.put_kept
    | with_reducible apply CoreKept.foldl
    | intro _
    | with_reducible assumption
    | (refine CoreKept.intro ?_; dsimp only; refine ⟨?_, rfl, rfl, rfl, rfl, rfl, rfl, rfl⟩; with_reducible exact CoreState.washed_regs h0.regs)

theorem State.washMirror_kept {s : State} {core : Nat} {c : CoreState} (h0 : Kept kq kn s) : Kept kq kn (State.washMirror s core c) := by
  unfold State.washMirror
  try dsimp only
  repeat' first
    | with_reducible assumption | with_reducible apply Kept.foldl | with_reducible apply Kept.foldl_fst
    | with_reducible apply CoreKept.foldl | with_reducible apply Kept.core (q := kq) (n := kn)
    | (refine Kept.intro ?_; dsimp only; with_reducible refine Kept.elim ?_)
    | (refine CoreKept.intro ?_; dsimp only; with_reducible refine CoreKept.elim ?_) | intro _ | dsimp only

theorem State.unparity_kept {s : State} {p : Nat} (h0 : Kept kq kn s) : Kept kq kn (State.unparity s p) := by
  unfold State.unparity
  try dsimp only
  repeat' first
    | with_reducible assumption | with_reducible apply State.drainDeltas_kept | with_reducible apply State.foldRange_kept
    | with_reducible apply Kept.foldl | with_reducible apply Kept.foldl_fst | with_reducible apply CoreKept.foldl
    | with_reducible apply Kept.core (q := kq) (n := kn) | intro _ | dsimp only

theorem State.washCore_kept {s : State} {p : Nat} {core : Option Nat} (h0 : Kept kq kn s) : Kept kq kn (State.washCore s p core) := by
  unfold State.washCore
  try dsimp only
  repeat' first
    | with_reducible assumption | with_reducible apply State.setCore_kept | with_reducible apply CoreState.washed_kept
    | with_reducible apply State.washMirror_kept | with_reducible apply State.unparity_kept | with_reducible apply OutKept.next
    | with_reducible apply OutKept.fault | with_reducible apply Kept.core (q := kq) (n := kn) | split
    | (refine Kept.intro ?_; dsimp only; with_reducible refine Kept.elim ?_)
    | (refine CoreKept.intro ?_; dsimp only; with_reducible refine CoreKept.elim ?_) | exact CoreKept.reset | intro _
    | with_reducible refine Kept.of_fst ‹_› ?_ | with_reducible refine Kept.of_snd ‹_› ?_
    | with_reducible refine Kept.of_trd ‹_› ?_ | with_reducible refine CoreKept.of_fst ‹_› ?_
    | with_reducible refine CoreKept.of_snd ‹_› ?_ | dsimp only

theorem CoreState.washOver_kept {c : CoreState} (h0 : CoreKept c) : CoreKept (CoreState.washOver c) := by
  unfold CoreState.washOver
  try dsimp only
  repeat' first
    | with_reducible assumption | with_reducible apply CoreState.put_kept | with_reducible apply CoreState.wrap_kept
    | with_reducible apply CoreState.raise_kept | with_reducible apply State.put_kept | with_reducible apply State.wrap_kept
    | with_reducible apply OutKept.next | with_reducible apply OutKept.fault
    | with_reducible apply Kept.core (q := kq) (n := kn)
    | (refine Kept.intro ?_; dsimp only; with_reducible refine Kept.elim ?_)
    | (refine CoreKept.intro ?_; dsimp only; with_reducible refine CoreKept.elim ?_) | exact CoreKept.reset | intro _
    | dsimp only

end Sys2Proof.Machine
end

