-- ==== Sys2Proof/Laws/KeptCoves.lean ====
section
/-! SUPPORT. What the operations of Machine/Coves.lean keep (Laws/Kept.lean). -/

namespace Sys2Proof.Machine

variable {kq : List Instr} {kn : Nat}

theorem CoreState.coveEnabled_kept {c : CoreState} {n : Nat} (h0 : CoreKept c) : CoreKept (CoreState.coveEnabled c n) := by
  unfold CoreState.coveEnabled
  try dsimp only
  repeat' first
    | with_reducible assumption | with_reducible apply State.setReg_kept | with_reducible apply CoreState.setReg_kept
    | with_reducible apply OutKept.next | with_reducible apply OutKept.fault
    | with_reducible apply Kept.core (q := kq) (n := kn) | split
    | (refine Kept.intro ?_; dsimp only; with_reducible refine Kept.elim ?_)
    | (refine CoreKept.intro ?_; dsimp only; with_reducible refine CoreKept.elim ?_)
    | (refine CoreKept.intro ?_; dsimp only; with_reducible refine CoreKept.tags_set ?_)
    | (refine CoreKept.intro ?_; dsimp only; with_reducible refine CoreKept.tags_clear ?_) | exact CoreKept.reset | intro _
    | dsimp only

theorem CoreState.coveDisabled_kept {c : CoreState} {v : Cove} {shadow : Bool} (h0 : CoreKept c) : CoreKept (CoreState.coveDisabled c v shadow) := by
  unfold CoreState.coveDisabled
  try dsimp only
  repeat' first
    | with_reducible assumption | with_reducible apply CoreState.setFolded_kept | with_reducible apply OutKept.next
    | with_reducible apply OutKept.fault | with_reducible apply Kept.core (q := kq) (n := kn) | split
    | (refine Kept.intro ?_; dsimp only; with_reducible refine Kept.elim ?_)
    | (refine CoreKept.intro ?_; dsimp only; with_reducible refine CoreKept.elim ?_) | exact CoreKept.reset | intro _
    | dsimp only

theorem CoreState.writeCoveCfg_kept {c : CoreState} {n : Nat} {cfg : Reg64} (h0 : CoreKept c) : CoreKept (CoreState.writeCoveCfg c n cfg) := by
  unfold CoreState.writeCoveCfg
  try dsimp only
  repeat' first
    | with_reducible assumption | with_reducible apply CoreState.coveEnabled_kept
    | with_reducible apply CoreState.coveDisabled_kept | with_reducible apply State.setReg_kept
    | with_reducible apply CoreState.setReg_kept | split | dsimp only

theorem CoreState.writeTag_kept {c : CoreState} {i : Nat} {value : Reg64} (h0 : CoreKept c) : CoreKept (CoreState.writeTag c i value) := by
  unfold CoreState.writeTag
  try dsimp only
  repeat' first
    | with_reducible assumption | with_reducible apply CoreState.setTag_kept | split
    | (refine Kept.intro ?_; dsimp only; with_reducible refine Kept.elim ?_)
    | (refine CoreKept.intro ?_; dsimp only; with_reducible refine CoreKept.elim ?_) | dsimp only

theorem CoreState.clearPeak_kept {c : CoreState} {n : Nat} (h0 : CoreKept c) : CoreKept (CoreState.clearPeak c n) := by
  unfold CoreState.clearPeak
  try dsimp only
  repeat' first
    | with_reducible assumption | with_reducible apply CoreState.put_kept | with_reducible apply CoreState.once_kept
    | with_reducible apply State.put_kept | with_reducible apply OutKept.next | with_reducible apply OutKept.fault
    | with_reducible apply Kept.core (q := kq) (n := kn)
    | (refine Kept.intro ?_; dsimp only; with_reducible refine Kept.elim ?_)
    | (refine CoreKept.intro ?_; dsimp only; with_reducible refine CoreKept.elim ?_) | exact CoreKept.reset | intro _
    | dsimp only

end Sys2Proof.Machine
end

