-- ==== Sys2Proof/Laws/KeptFlags.lean ====
section
/-! SUPPORT. What the operations of Machine/Flags.lean keep (Laws/Kept.lean). -/

namespace Sys2Proof.Machine

variable {kq : List Instr} {kn : Nat}

theorem CoreState.stick_kept {c : CoreState} {f : RF} {b : Bool} (h0 : CoreKept c) : CoreKept (CoreState.stick c f b) := by
  unfold CoreState.stick
  try dsimp only
  repeat' first
    | with_reducible assumption | with_reducible apply CoreState.raise_kept | with_reducible apply OutKept.next
    | with_reducible apply OutKept.fault | with_reducible apply Kept.core (q := kq) (n := kn) | split
    | (refine Kept.intro ?_; dsimp only; with_reducible refine Kept.elim ?_)
    | (refine CoreKept.intro ?_; dsimp only; with_reducible refine CoreKept.elim ?_) | exact CoreKept.reset | intro _
    | dsimp only

theorem CoreState.sclNan_kept {c : CoreState} {v : Word} (h0 : CoreKept c) : CoreKept (CoreState.sclNan c v) := by
  unfold CoreState.sclNan
  try dsimp only
  repeat' first
    | with_reducible assumption | with_reducible apply CoreState.stick_kept | dsimp only

theorem CoreState.vecFlags_kept {c : CoreState} {nan : Bool} {wrap : Bool} (h0 : CoreKept c) : CoreKept (CoreState.vecFlags c nan wrap) := by
  unfold CoreState.vecFlags
  try dsimp only
  repeat' first
    | with_reducible assumption | with_reducible apply CoreState.wrap_kept | with_reducible apply State.wrap_kept
    | with_reducible apply CoreState.stick_kept | dsimp only

theorem CoreState.arrFlags_kept {c : CoreState} {nan : Bool} {wrap : Bool} (h0 : CoreKept c) : CoreKept (CoreState.arrFlags c nan wrap) := by
  unfold CoreState.arrFlags
  try dsimp only
  repeat' first
    | with_reducible assumption | with_reducible apply CoreState.wrap_kept | with_reducible apply State.wrap_kept
    | with_reducible apply CoreState.stick_kept | dsimp only

theorem CoreState.estFlags_kept {c : CoreState} {nan : Bool} {sat : Bool} (h0 : CoreKept c) : CoreKept (CoreState.estFlags c nan sat) := by
  unfold CoreState.estFlags
  try dsimp only
  repeat' first
    | with_reducible assumption | with_reducible apply CoreState.stick_kept | dsimp only

end Sys2Proof.Machine
end

