-- ==== Sys2Proof/Laws/KeptScalar.lean ====
section
/-! SUPPORT. What the operations of Machine/Scalar.lean keep (Laws/Kept.lean). -/

namespace Sys2Proof.Machine

variable {kq : List Instr} {kn : Nat}

theorem CoreState.setX_kept {c : CoreState} {r : Nat} {v : Word} (h0 : CoreKept c) : CoreKept (CoreState.setX c r v) := by
  unfold CoreState.setX
  try dsimp only
  repeat' first
    | with_reducible assumption | split | (refine Kept.intro ?_; dsimp only; with_reducible refine Kept.elim ?_)
    | (refine CoreKept.intro ?_; dsimp only; with_reducible refine CoreKept.elim ?_)
    | (refine CoreKept.intro ?_; dsimp only; with_reducible refine CoreKept.xregs_set ?_) | dsimp only

theorem CoreState.scalDone_kept {c : CoreState} (h0 : CoreKept c) : CoreKept (CoreState.scalDone c) := by
  unfold CoreState.scalDone
  try dsimp only
  repeat' first
    | with_reducible assumption | (refine Kept.intro ?_; dsimp only; with_reducible refine Kept.elim ?_)
    | (refine CoreKept.intro ?_; dsimp only; with_reducible refine CoreKept.elim ?_) | dsimp only

theorem CoreState.sclFault_kept {c : CoreState} {now : Nat} {cls : Nat} {addr : Option Nat} {imm : Nat} (h0 : CoreKept c) : CoreKept (CoreState.sclFault c now cls addr imm) := by
  unfold CoreState.sclFault
  try dsimp only
  repeat' first
    | with_reducible assumption | with_reducible apply CoreState.fault_kept | with_reducible apply CoreState.scalDone_kept
    | with_reducible apply OutKept.next | with_reducible apply OutKept.fault
    | with_reducible apply Kept.core (q := kq) (n := kn)
    | (refine Kept.intro ?_; dsimp only; with_reducible refine Kept.elim ?_)
    | (refine CoreKept.intro ?_; dsimp only; with_reducible refine CoreKept.elim ?_) | exact CoreKept.reset | intro _
    | dsimp only

theorem CoreState.sclWrite_kept {c : CoreState} {rd : Nat} {v : Word} (h0 : CoreKept c) : CoreKept (CoreState.sclWrite c rd v) := by
  unfold CoreState.sclWrite
  try dsimp only
  repeat' first
    | with_reducible assumption | with_reducible apply CoreState.setX_kept | with_reducible apply CoreState.scalDone_kept
    | dsimp only

theorem CoreState.sclWriteFp_kept {c : CoreState} {rd : Nat} {v : Word} (h0 : CoreKept c) : CoreKept (CoreState.sclWriteFp c rd v) := by
  unfold CoreState.sclWriteFp
  try dsimp only
  repeat' first
    | with_reducible assumption | with_reducible apply CoreState.sclNan_kept | with_reducible apply CoreState.setX_kept
    | with_reducible apply CoreState.scalDone_kept | dsimp only

theorem sclR_kept {f : Word → Word → Word} {core : Nat} {rd : Nat} {ra : Nat} {rb : Nat} {s : State} (h0 : Kept kq kn s) : OutKept kq kn (sclR f core rd ra rb s) := by
  unfold sclR
  try dsimp only
  repeat' first
    | with_reducible assumption | with_reducible apply CoreState.sclWrite_kept | with_reducible apply State.setCore_kept
    | with_reducible apply onLive_kept | with_reducible apply OutKept.next | with_reducible apply OutKept.fault
    | with_reducible apply Kept.core (q := kq) (n := kn) | intro _ | dsimp only

theorem sclF_kept {f : Word → Word → Word} {core : Nat} {rd : Nat} {ra : Nat} {rb : Nat} {s : State} (h0 : Kept kq kn s) : OutKept kq kn (sclF f core rd ra rb s) := by
  unfold sclF
  try dsimp only
  repeat' first
    | with_reducible assumption | with_reducible apply CoreState.sclWriteFp_kept | with_reducible apply State.setCore_kept
    | with_reducible apply onLive_kept | with_reducible apply OutKept.next | with_reducible apply OutKept.fault
    | with_reducible apply Kept.core (q := kq) (n := kn) | intro _ | dsimp only

theorem sclI_kept {f : Word → Word → Word} {core : Nat} {rd : Nat} {ra : Nat} {imm : BitVec 16} {s : State} (h0 : Kept kq kn s) : OutKept kq kn (sclI f core rd ra imm s) := by
  unfold sclI
  try dsimp only
  repeat' first
    | with_reducible assumption | with_reducible apply CoreState.sclWrite_kept | with_reducible apply State.setCore_kept
    | with_reducible apply onLive_kept | with_reducible apply OutKept.next | with_reducible apply OutKept.fault
    | with_reducible apply Kept.core (q := kq) (n := kn) | intro _ | dsimp only

theorem sclD_kept {f : Word → Word → Word} {core : Nat} {rd : Nat} {ra : Nat} {rb : Nat} {s : State} (h0 : Kept kq kn s) : OutKept kq kn (sclD f core rd ra rb s) := by
  unfold sclD
  try dsimp only
  repeat' first
    | with_reducible assumption | with_reducible apply CoreState.sclFault_kept | with_reducible apply CoreState.sclWrite_kept
    | with_reducible apply State.setCore_kept | with_reducible apply onLive_kept | with_reducible apply OutKept.next
    | with_reducible apply OutKept.fault | with_reducible apply Kept.core (q := kq) (n := kn) | split | intro _ | dsimp only

theorem execAdd_kept {core : Nat} {rd : Fin 32} {ra : Fin 32} {rb : Fin 32} {s : State} (h0 : Kept kq kn s) : OutKept kq kn (execAdd core rd ra rb s) := by
  unfold execAdd
  try dsimp only
  repeat' first
    | with_reducible assumption | with_reducible apply sclR_kept | with_reducible apply OutKept.next
    | with_reducible apply OutKept.fault | with_reducible apply Kept.core (q := kq) (n := kn) | dsimp only

theorem execSub_kept {core : Nat} {rd : Fin 32} {ra : Fin 32} {rb : Fin 32} {s : State} (h0 : Kept kq kn s) : OutKept kq kn (execSub core rd ra rb s) := by
  unfold execSub
  try dsimp only
  repeat' first
    | with_reducible assumption | with_reducible apply sclR_kept | with_reducible apply OutKept.next
    | with_reducible apply OutKept.fault | with_reducible apply Kept.core (q := kq) (n := kn) | dsimp only

theorem execAnd_kept {core : Nat} {rd : Fin 32} {ra : Fin 32} {rb : Fin 32} {s : State} (h0 : Kept kq kn s) : OutKept kq kn (execAnd core rd ra rb s) := by
  unfold execAnd
  try dsimp only
  repeat' first
    | with_reducible assumption | with_reducible apply sclR_kept | with_reducible apply OutKept.next
    | with_reducible apply OutKept.fault | with_reducible apply Kept.core (q := kq) (n := kn) | dsimp only

theorem execOr_kept {core : Nat} {rd : Fin 32} {ra : Fin 32} {rb : Fin 32} {s : State} (h0 : Kept kq kn s) : OutKept kq kn (execOr core rd ra rb s) := by
  unfold execOr
  try dsimp only
  repeat' first
    | with_reducible assumption | with_reducible apply sclR_kept | with_reducible apply OutKept.next
    | with_reducible apply OutKept.fault | with_reducible apply Kept.core (q := kq) (n := kn) | dsimp only

theorem execXor_kept {core : Nat} {rd : Fin 32} {ra : Fin 32} {rb : Fin 32} {s : State} (h0 : Kept kq kn s) : OutKept kq kn (execXor core rd ra rb s) := by
  unfold execXor
  try dsimp only
  repeat' first
    | with_reducible assumption | with_reducible apply sclR_kept | with_reducible apply OutKept.next
    | with_reducible apply OutKept.fault | with_reducible apply Kept.core (q := kq) (n := kn) | dsimp only

theorem execSll_kept {core : Nat} {rd : Fin 32} {ra : Fin 32} {rb : Fin 32} {s : State} (h0 : Kept kq kn s) : OutKept kq kn (execSll core rd ra rb s) := by
  unfold execSll
  try dsimp only
  repeat' first
    | with_reducible assumption | with_reducible apply sclR_kept | with_reducible apply OutKept.next
    | with_reducible apply OutKept.fault | with_reducible apply Kept.core (q := kq) (n := kn) | dsimp only

theorem execSrl_kept {core : Nat} {rd : Fin 32} {ra : Fin 32} {rb : Fin 32} {s : State} (h0 : Kept kq kn s) : OutKept kq kn (execSrl core rd ra rb s) := by
  unfold execSrl
  try dsimp only
  repeat' first
    | with_reducible assumption | with_reducible apply sclR_kept | with_reducible apply OutKept.next
    | with_reducible apply OutKept.fault | with_reducible apply Kept.core (q := kq) (n := kn) | dsimp only

theorem execSra_kept {core : Nat} {rd : Fin 32} {ra : Fin 32} {rb : Fin 32} {s : State} (h0 : Kept kq kn s) : OutKept kq kn (execSra core rd ra rb s) := by
  unfold execSra
  try dsimp only
  repeat' first
    | with_reducible assumption | with_reducible apply sclR_kept | with_reducible apply OutKept.next
    | with_reducible apply OutKept.fault | with_reducible apply Kept.core (q := kq) (n := kn) | dsimp only

theorem execSlt_kept {core : Nat} {rd : Fin 32} {ra : Fin 32} {rb : Fin 32} {s : State} (h0 : Kept kq kn s) : OutKept kq kn (execSlt core rd ra rb s) := by
  unfold execSlt
  try dsimp only
  repeat' first
    | with_reducible assumption | with_reducible apply sclR_kept | with_reducible apply OutKept.next
    | with_reducible apply OutKept.fault | with_reducible apply Kept.core (q := kq) (n := kn) | dsimp only

theorem execSltu_kept {core : Nat} {rd : Fin 32} {ra : Fin 32} {rb : Fin 32} {s : State} (h0 : Kept kq kn s) : OutKept kq kn (execSltu core rd ra rb s) := by
  unfold execSltu
  try dsimp only
  repeat' first
    | with_reducible assumption | with_reducible apply sclR_kept | with_reducible apply OutKept.next
    | with_reducible apply OutKept.fault | with_reducible apply Kept.core (q := kq) (n := kn) | dsimp only

theorem execMul_kept {core : Nat} {rd : Fin 32} {ra : Fin 32} {rb : Fin 32} {s : State} (h0 : Kept kq kn s) : OutKept kq kn (execMul core rd ra rb s) := by
  unfold execMul
  try dsimp only
  repeat' first
    | with_reducible assumption | with_reducible apply sclR_kept | with_reducible apply OutKept.next
    | with_reducible apply OutKept.fault | with_reducible apply Kept.core (q := kq) (n := kn) | dsimp only

theorem execMulhu_kept {core : Nat} {rd : Fin 32} {ra : Fin 32} {rb : Fin 32} {s : State} (h0 : Kept kq kn s) : OutKept kq kn (execMulhu core rd ra rb s) := by
  unfold execMulhu
  try dsimp only
  repeat' first
    | with_reducible assumption | with_reducible apply sclR_kept | with_reducible apply OutKept.next
    | with_reducible apply OutKept.fault | with_reducible apply Kept.core (q := kq) (n := kn) | dsimp only

theorem execDivu_kept {core : Nat} {rd : Fin 32} {ra : Fin 32} {rb : Fin 32} {s : State} (h0 : Kept kq kn s) : OutKept kq kn (execDivu core rd ra rb s) := by
  unfold execDivu
  try dsimp only
  repeat' first
    | with_reducible assumption | with_reducible apply sclD_kept | with_reducible apply OutKept.next
    | with_reducible apply OutKept.fault | with_reducible apply Kept.core (q := kq) (n := kn) | dsimp only

theorem execRemu_kept {core : Nat} {rd : Fin 32} {ra : Fin 32} {rb : Fin 32} {s : State} (h0 : Kept kq kn s) : OutKept kq kn (execRemu core rd ra rb s) := by
  unfold execRemu
  try dsimp only
  repeat' first
    | with_reducible assumption | with_reducible apply sclD_kept | with_reducible apply OutKept.next
    | with_reducible apply OutKept.fault | with_reducible apply Kept.core (q := kq) (n := kn) | dsimp only

theorem execAddi_kept {core : Nat} {rd : Fin 32} {ra : Fin 32} {imm : BitVec 16} {s : State} (h0 : Kept kq kn s) : OutKept kq kn (execAddi core rd ra imm s) := by
  unfold execAddi
  try dsimp only
  repeat' first
    | with_reducible assumption | with_reducible apply sclI_kept | with_reducible apply OutKept.next
    | with_reducible apply OutKept.fault | with_reducible apply Kept.core (q := kq) (n := kn) | dsimp only

theorem execAndi_kept {core : Nat} {rd : Fin 32} {ra : Fin 32} {imm : BitVec 16} {s : State} (h0 : Kept kq kn s) : OutKept kq kn (execAndi core rd ra imm s) := by
  unfold execAndi
  try dsimp only
  repeat' first
    | with_reducible assumption | with_reducible apply sclI_kept | with_reducible apply OutKept.next
    | with_reducible apply OutKept.fault | with_reducible apply Kept.core (q := kq) (n := kn) | dsimp only

theorem execOri_kept {core : Nat} {rd : Fin 32} {ra : Fin 32} {imm : BitVec 16} {s : State} (h0 : Kept kq kn s) : OutKept kq kn (execOri core rd ra imm s) := by
  unfold execOri
  try dsimp only
  repeat' first
    | with_reducible assumption | with_reducible apply sclI_kept | with_reducible apply OutKept.next
    | with_reducible apply OutKept.fault | with_reducible apply Kept.core (q := kq) (n := kn) | dsimp only

theorem execXori_kept {core : Nat} {rd : Fin 32} {ra : Fin 32} {imm : BitVec 16} {s : State} (h0 : Kept kq kn s) : OutKept kq kn (execXori core rd ra imm s) := by
  unfold execXori
  try dsimp only
  repeat' first
    | with_reducible assumption | with_reducible apply sclI_kept | with_reducible apply OutKept.next
    | with_reducible apply OutKept.fault | with_reducible apply Kept.core (q := kq) (n := kn) | dsimp only

theorem execSlli_kept {core : Nat} {rd : Fin 32} {ra : Fin 32} {imm : BitVec 16} {s : State} (h0 : Kept kq kn s) : OutKept kq kn (execSlli core rd ra imm s) := by
  unfold execSlli
  try dsimp only
  repeat' first
    | with_reducible assumption | with_reducible apply sclI_kept | with_reducible apply OutKept.next
    | with_reducible apply OutKept.fault | with_reducible apply Kept.core (q := kq) (n := kn) | dsimp only

theorem execSrli_kept {core : Nat} {rd : Fin 32} {ra : Fin 32} {imm : BitVec 16} {s : State} (h0 : Kept kq kn s) : OutKept kq kn (execSrli core rd ra imm s) := by
  unfold execSrli
  try dsimp only
  repeat' first
    | with_reducible assumption | with_reducible apply sclI_kept | with_reducible apply OutKept.next
    | with_reducible apply OutKept.fault | with_reducible apply Kept.core (q := kq) (n := kn) | dsimp only

theorem execSrai_kept {core : Nat} {rd : Fin 32} {ra : Fin 32} {imm : BitVec 16} {s : State} (h0 : Kept kq kn s) : OutKept kq kn (execSrai core rd ra imm s) := by
  unfold execSrai
  try dsimp only
  repeat' first
    | with_reducible assumption | with_reducible apply sclI_kept | with_reducible apply OutKept.next
    | with_reducible apply OutKept.fault | with_reducible apply Kept.core (q := kq) (n := kn) | dsimp only

theorem execFadd_kept {core : Nat} {rd : Fin 32} {ra : Fin 32} {rb : Fin 32} {s : State} (h0 : Kept kq kn s) : OutKept kq kn (execFadd core rd ra rb s) := by
  unfold execFadd
  try dsimp only
  repeat' first
    | with_reducible assumption | with_reducible apply sclF_kept | with_reducible apply OutKept.next
    | with_reducible apply OutKept.fault | with_reducible apply Kept.core (q := kq) (n := kn) | dsimp only

theorem execFsub_kept {core : Nat} {rd : Fin 32} {ra : Fin 32} {rb : Fin 32} {s : State} (h0 : Kept kq kn s) : OutKept kq kn (execFsub core rd ra rb s) := by
  unfold execFsub
  try dsimp only
  repeat' first
    | with_reducible assumption | with_reducible apply sclF_kept | with_reducible apply OutKept.next
    | with_reducible apply OutKept.fault | with_reducible apply Kept.core (q := kq) (n := kn) | dsimp only

theorem execFmul_kept {core : Nat} {rd : Fin 32} {ra : Fin 32} {rb : Fin 32} {s : State} (h0 : Kept kq kn s) : OutKept kq kn (execFmul core rd ra rb s) := by
  unfold execFmul
  try dsimp only
  repeat' first
    | with_reducible assumption | with_reducible apply sclF_kept | with_reducible apply OutKept.next
    | with_reducible apply OutKept.fault | with_reducible apply Kept.core (q := kq) (n := kn) | dsimp only

theorem execFdiv_kept {core : Nat} {rd : Fin 32} {ra : Fin 32} {rb : Fin 32} {s : State} (h0 : Kept kq kn s) : OutKept kq kn (execFdiv core rd ra rb s) := by
  unfold execFdiv
  try dsimp only
  repeat' first
    | with_reducible assumption | with_reducible apply sclF_kept | with_reducible apply OutKept.next
    | with_reducible apply OutKept.fault | with_reducible apply Kept.core (q := kq) (n := kn) | dsimp only

theorem execFmin_kept {core : Nat} {rd : Fin 32} {ra : Fin 32} {rb : Fin 32} {s : State} (h0 : Kept kq kn s) : OutKept kq kn (execFmin core rd ra rb s) := by
  unfold execFmin
  try dsimp only
  repeat' first
    | with_reducible assumption | with_reducible apply sclF_kept | with_reducible apply OutKept.next
    | with_reducible apply OutKept.fault | with_reducible apply Kept.core (q := kq) (n := kn) | dsimp only

theorem execFmax_kept {core : Nat} {rd : Fin 32} {ra : Fin 32} {rb : Fin 32} {s : State} (h0 : Kept kq kn s) : OutKept kq kn (execFmax core rd ra rb s) := by
  unfold execFmax
  try dsimp only
  repeat' first
    | with_reducible assumption | with_reducible apply sclF_kept | with_reducible apply OutKept.next
    | with_reducible apply OutKept.fault | with_reducible apply Kept.core (q := kq) (n := kn) | dsimp only

theorem execFeq_kept {core : Nat} {rd : Fin 32} {ra : Fin 32} {rb : Fin 32} {s : State} (h0 : Kept kq kn s) : OutKept kq kn (execFeq core rd ra rb s) := by
  unfold execFeq
  try dsimp only
  repeat' first
    | with_reducible assumption | with_reducible apply sclR_kept | with_reducible apply OutKept.next
    | with_reducible apply OutKept.fault | with_reducible apply Kept.core (q := kq) (n := kn) | dsimp only

theorem execFlt_kept {core : Nat} {rd : Fin 32} {ra : Fin 32} {rb : Fin 32} {s : State} (h0 : Kept kq kn s) : OutKept kq kn (execFlt core rd ra rb s) := by
  unfold execFlt
  try dsimp only
  repeat' first
    | with_reducible assumption | with_reducible apply sclR_kept | with_reducible apply OutKept.next
    | with_reducible apply OutKept.fault | with_reducible apply Kept.core (q := kq) (n := kn) | dsimp only

theorem execFle_kept {core : Nat} {rd : Fin 32} {ra : Fin 32} {rb : Fin 32} {s : State} (h0 : Kept kq kn s) : OutKept kq kn (execFle core rd ra rb s) := by
  unfold execFle
  try dsimp only
  repeat' first
    | with_reducible assumption | with_reducible apply sclR_kept | with_reducible apply OutKept.next
    | with_reducible apply OutKept.fault | with_reducible apply Kept.core (q := kq) (n := kn) | dsimp only

theorem execLui_kept {core : Nat} {rd : Fin 32} {imm : BitVec 16} {s : State} (h0 : Kept kq kn s) : OutKept kq kn (execLui core rd imm s) := by
  unfold execLui
  try dsimp only
  repeat' first
    | with_reducible assumption | with_reducible apply CoreState.sclWrite_kept | with_reducible apply State.setCore_kept
    | with_reducible apply onLive_kept | with_reducible apply OutKept.next | with_reducible apply OutKept.fault
    | with_reducible apply Kept.core (q := kq) (n := kn) | intro _ | dsimp only

theorem execFcvtWS_kept {core : Nat} {rd : Fin 32} {ra : Fin 32} {s : State} (h0 : Kept kq kn s) : OutKept kq kn (execFcvtWS core rd ra s) := by
  unfold execFcvtWS
  try dsimp only
  repeat' first
    | with_reducible assumption | with_reducible apply CoreState.sclWrite_kept | with_reducible apply State.setCore_kept
    | with_reducible apply onLive_kept | with_reducible apply OutKept.next | with_reducible apply OutKept.fault
    | with_reducible apply Kept.core (q := kq) (n := kn) | intro _ | dsimp only

theorem execFcvtSW_kept {core : Nat} {rd : Fin 32} {ra : Fin 32} {s : State} (h0 : Kept kq kn s) : OutKept kq kn (execFcvtSW core rd ra s) := by
  unfold execFcvtSW
  try dsimp only
  repeat' first
    | with_reducible assumption | with_reducible apply CoreState.sclWrite_kept | with_reducible apply State.setCore_kept
    | with_reducible apply onLive_kept | with_reducible apply OutKept.next | with_reducible apply OutKept.fault
    | with_reducible apply Kept.core (q := kq) (n := kn) | intro _ | dsimp only

theorem execTide_kept {core : Nat} {rd : Fin 32} {s : State} (h0 : Kept kq kn s) : OutKept kq kn (execTide core rd s) := by
  unfold execTide
  try dsimp only
  repeat' first
    | with_reducible assumption | with_reducible apply State.setCore_kept | with_reducible apply CoreState.setX_kept
    | with_reducible apply CoreState.scalDone_kept | with_reducible apply CoreState.sclFault_kept
    | with_reducible apply onLive_kept | with_reducible apply OutKept.next | with_reducible apply OutKept.fault
    | with_reducible apply Kept.core (q := kq) (n := kn) | split
    | (refine Kept.intro ?_; dsimp only; with_reducible refine Kept.elim ?_)
    | (refine CoreKept.intro ?_; dsimp only; with_reducible refine CoreKept.elim ?_) | exact CoreKept.reset | intro _
    | dsimp only

theorem execTrap_kept {core : Nat} {imm : BitVec 16} {s : State} (h0 : Kept kq kn s) : OutKept kq kn (execTrap core imm s) := by
  unfold execTrap
  try dsimp only
  repeat' first
    | with_reducible assumption | with_reducible apply CoreState.sclFault_kept | with_reducible apply State.setCore_kept
    | with_reducible apply onLive_kept | with_reducible apply OutKept.next | with_reducible apply OutKept.fault
    | with_reducible apply Kept.core (q := kq) (n := kn) | intro _ | dsimp only

theorem execLw_kept {core : Nat} {rd : Fin 32} {ra : Fin 32} {imm : BitVec 16} {s : State} (h0 : Kept kq kn s) : OutKept kq kn (execLw core rd ra imm s) := by
  unfold execLw
  try dsimp only
  repeat' first
    | with_reducible assumption | with_reducible apply CoreState.sclFault_kept | with_reducible apply CoreState.sclWrite_kept
    | with_reducible apply State.setCore_kept | with_reducible apply onLive_kept | with_reducible apply OutKept.next
    | with_reducible apply OutKept.fault | with_reducible apply Kept.core (q := kq) (n := kn) | split | intro _ | dsimp only

theorem execSw_kept {core : Nat} {rb : Fin 32} {ra : Fin 32} {imm : BitVec 16} {s : State} (h0 : Kept kq kn s) : OutKept kq kn (execSw core rb ra imm s) := by
  unfold execSw
  try dsimp only
  repeat' first
    | with_reducible assumption | with_reducible apply CoreState.scalDone_kept | with_reducible apply CoreState.sclFault_kept
    | with_reducible apply State.setCore_kept | with_reducible apply onLive_kept | with_reducible apply OutKept.next
    | with_reducible apply OutKept.fault | with_reducible apply Kept.core (q := kq) (n := kn) | split
    | (refine Kept.intro ?_; dsimp only; with_reducible refine Kept.elim ?_)
    | (refine CoreKept.intro ?_; dsimp only; with_reducible refine CoreKept.elim ?_)
    | (refine CoreKept.intro ?_; dsimp only; with_reducible refine CoreKept.sstore_write ?_) | exact CoreKept.reset | intro _
    | dsimp only

theorem CoreState.sclWait_kept {c : CoreState} {a : Nat} (h0 : CoreKept c) : CoreKept (CoreState.sclWait c a) := by
  unfold CoreState.sclWait
  try dsimp only
  repeat' first
    | with_reducible assumption | with_reducible apply CoreState.wait_kept | with_reducible apply CoreState.scalDone_kept
    | split | dsimp only

theorem execBld_kept {core : Nat} {rd : Fin 32} {ra : Fin 32} {imm : BitVec 16} {s : State} (h0 : Kept kq kn s) : OutKept kq kn (execBld core rd ra imm s) := by
  unfold execBld
  try dsimp only
  repeat' first
    | with_reducible assumption | with_reducible apply State.setCore_kept | with_reducible apply State.modCore_kept
    | with_reducible apply CoreState.unwait_kept | with_reducible apply State.portRead_kept
    | with_reducible apply CoreState.setX_kept | with_reducible apply CoreState.scalDone_kept
    | with_reducible apply CoreState.sclFault_kept | with_reducible apply CoreState.sclWait_kept
    | with_reducible apply onLive_kept | with_reducible apply OutKept.next | with_reducible apply OutKept.fault
    | with_reducible apply Kept.core (q := kq) (n := kn) | split
    | (refine Kept.intro ?_; dsimp only; with_reducible refine Kept.elim ?_)
    | (refine CoreKept.intro ?_; dsimp only; with_reducible refine CoreKept.elim ?_) | exact CoreKept.reset | intro _
    | with_reducible refine Kept.of_fst ‹_› ?_ | with_reducible refine Kept.of_snd ‹_› ?_
    | with_reducible refine Kept.of_trd ‹_› ?_ | with_reducible refine CoreKept.of_fst ‹_› ?_
    | with_reducible refine CoreKept.of_snd ‹_› ?_ | dsimp only

theorem execBst_kept {core : Nat} {rb : Fin 32} {ra : Fin 32} {imm : BitVec 16} {s : State} (h0 : Kept kq kn s) : OutKept kq kn (execBst core rb ra imm s) := by
  unfold execBst
  try dsimp only
  repeat' first
    | with_reducible assumption | with_reducible apply State.setCore_kept | with_reducible apply State.modCore_kept
    | with_reducible apply CoreState.faultWord_kept | with_reducible apply CoreState.breaks_kept
    | with_reducible apply CoreState.unwait_kept | with_reducible apply State.portWrite_kept
    | with_reducible apply CoreState.scalDone_kept | with_reducible apply CoreState.sclFault_kept
    | with_reducible apply CoreState.sclWrite_kept | with_reducible apply CoreState.sclWait_kept
    | with_reducible apply onLive_kept | with_reducible apply OutKept.next | with_reducible apply OutKept.fault
    | with_reducible apply Kept.core (q := kq) (n := kn) | split
    | (refine Kept.intro ?_; dsimp only; with_reducible refine Kept.elim ?_)
    | (refine CoreKept.intro ?_; dsimp only; with_reducible refine CoreKept.elim ?_) | exact CoreKept.reset | intro _
    | with_reducible refine Kept.of_fst ‹_› ?_ | with_reducible refine Kept.of_snd ‹_› ?_
    | with_reducible refine Kept.of_trd ‹_› ?_ | with_reducible refine CoreKept.of_fst ‹_› ?_
    | with_reducible refine CoreKept.of_snd ‹_› ?_ | dsimp only

theorem State.strandRan_kept {s : State} {p : Nat} {use : Config.StrandUse} (h0 : Kept kq kn s) : Kept kq kn (State.strandRan s p use) := by
  unfold State.strandRan
  try dsimp only
  repeat' first
    | with_reducible assumption | with_reducible apply State.modCore_kept | with_reducible apply OutKept.next
    | with_reducible apply OutKept.fault | with_reducible apply Kept.foldl | with_reducible apply Kept.foldl_fst
    | with_reducible apply CoreKept.foldl | with_reducible apply CoreKept.foldl_fst | with_reducible apply Kept.foldl_snd
    | with_reducible apply CoreKept.foldl_snd | with_reducible apply Kept.core (q := kq) (n := kn)
    | (refine Kept.intro ?_; dsimp only; with_reducible refine Kept.elim ?_)
    | (refine CoreKept.intro ?_; dsimp only; with_reducible refine CoreKept.elim ?_) | exact CoreKept.reset | intro _
    | dsimp only

theorem CoreState.strandBreach_kept {c : CoreState} {ext : Nat} (h0 : CoreKept c) : CoreKept (CoreState.strandBreach c ext) := by
  unfold CoreState.strandBreach
  try dsimp only
  repeat' first
    | with_reducible assumption | with_reducible apply CoreState.put_kept | with_reducible apply CoreState.bump_kept
    | with_reducible apply CoreState.raise_kept | with_reducible apply State.put_kept | with_reducible apply State.bump_kept
    | with_reducible apply OutKept.next | with_reducible apply OutKept.fault
    | with_reducible apply Kept.core (q := kq) (n := kn)
    | (refine Kept.intro ?_; dsimp only; with_reducible refine Kept.elim ?_)
    | (refine CoreKept.intro ?_; dsimp only; with_reducible refine CoreKept.elim ?_) | exact CoreKept.reset | intro _
    | dsimp only

theorem execCustom_kept {core : Nat} {fn : BitVec 6} {rd : Fin 32} {ra : Fin 32} {rb : Fin 32} {s : State} (h0 : Kept kq kn s) : OutKept kq kn (execCustom core fn rd ra rb s) := by
  unfold execCustom
  try dsimp only
  repeat' first
    | with_reducible assumption | with_reducible apply State.setCore_kept | with_reducible apply State.modCore_kept
    | with_reducible apply CoreState.sclFault_kept | with_reducible apply CoreState.sclWrite_kept
    | with_reducible apply State.strandRan_kept | with_reducible apply CoreState.strandBreach_kept
    | with_reducible apply onLive_kept | with_reducible apply OutKept.next | with_reducible apply OutKept.fault
    | with_reducible apply Kept.core (q := kq) (n := kn) | split
    | (refine Kept.intro ?_; dsimp only; with_reducible refine Kept.elim ?_)
    | (refine CoreKept.intro ?_; dsimp only; with_reducible refine CoreKept.elim ?_) | exact CoreKept.reset | intro _
    | dsimp only

theorem CoreState.goto_kept {c : CoreState} {now : Nat} {t : Int} (h0 : CoreKept c) : CoreKept (CoreState.goto c now t) := by
  unfold CoreState.goto
  try dsimp only
  repeat' first
    | with_reducible assumption | with_reducible apply CoreState.wrap_kept | with_reducible apply State.wrap_kept
    | with_reducible apply CoreState.scalDone_kept | with_reducible apply CoreState.sclFault_kept | split
    | (refine Kept.intro ?_; dsimp only; with_reducible refine Kept.elim ?_)
    | (refine CoreKept.intro ?_; dsimp only; with_reducible refine CoreKept.elim ?_) | exact CoreKept.reset | dsimp only

theorem sclB_kept {taken : Word → Word → Bool} {core : Nat} {ra : Nat} {rb : Nat} {imm : BitVec 16} {s : State} (h0 : Kept kq kn s) : OutKept kq kn (sclB taken core ra rb imm s) := by
  unfold sclB
  try dsimp only
  repeat' first
    | with_reducible assumption | with_reducible apply CoreState.scalDone_kept | with_reducible apply CoreState.goto_kept
    | with_reducible apply State.setCore_kept | with_reducible apply onLive_kept | with_reducible apply OutKept.next
    | with_reducible apply OutKept.fault | with_reducible apply Kept.core (q := kq) (n := kn) | split | intro _ | dsimp only

theorem execBeq_kept {core : Nat} {ra : Fin 32} {rb : Fin 32} {imm : BitVec 16} {s : State} (h0 : Kept kq kn s) : OutKept kq kn (execBeq core ra rb imm s) := by
  unfold execBeq
  try dsimp only
  repeat' first
    | with_reducible assumption | with_reducible apply sclB_kept | with_reducible apply OutKept.next
    | with_reducible apply OutKept.fault | with_reducible apply Kept.core (q := kq) (n := kn) | intro _ | dsimp only

theorem execBne_kept {core : Nat} {ra : Fin 32} {rb : Fin 32} {imm : BitVec 16} {s : State} (h0 : Kept kq kn s) : OutKept kq kn (execBne core ra rb imm s) := by
  unfold execBne
  try dsimp only
  repeat' first
    | with_reducible assumption | with_reducible apply sclB_kept | with_reducible apply OutKept.next
    | with_reducible apply OutKept.fault | with_reducible apply Kept.core (q := kq) (n := kn) | intro _ | dsimp only

theorem execBlt_kept {core : Nat} {ra : Fin 32} {rb : Fin 32} {imm : BitVec 16} {s : State} (h0 : Kept kq kn s) : OutKept kq kn (execBlt core ra rb imm s) := by
  unfold execBlt
  try dsimp only
  repeat' first
    | with_reducible assumption | with_reducible apply sclB_kept | with_reducible apply OutKept.next
    | with_reducible apply OutKept.fault | with_reducible apply Kept.core (q := kq) (n := kn) | intro _ | dsimp only

theorem execBge_kept {core : Nat} {ra : Fin 32} {rb : Fin 32} {imm : BitVec 16} {s : State} (h0 : Kept kq kn s) : OutKept kq kn (execBge core ra rb imm s) := by
  unfold execBge
  try dsimp only
  repeat' first
    | with_reducible assumption | with_reducible apply sclB_kept | with_reducible apply OutKept.next
    | with_reducible apply OutKept.fault | with_reducible apply Kept.core (q := kq) (n := kn) | intro _ | dsimp only

theorem execBltu_kept {core : Nat} {ra : Fin 32} {rb : Fin 32} {imm : BitVec 16} {s : State} (h0 : Kept kq kn s) : OutKept kq kn (execBltu core ra rb imm s) := by
  unfold execBltu
  try dsimp only
  repeat' first
    | with_reducible assumption | with_reducible apply sclB_kept | with_reducible apply OutKept.next
    | with_reducible apply OutKept.fault | with_reducible apply Kept.core (q := kq) (n := kn) | intro _ | dsimp only

theorem execBgeu_kept {core : Nat} {ra : Fin 32} {rb : Fin 32} {imm : BitVec 16} {s : State} (h0 : Kept kq kn s) : OutKept kq kn (execBgeu core ra rb imm s) := by
  unfold execBgeu
  try dsimp only
  repeat' first
    | with_reducible assumption | with_reducible apply sclB_kept | with_reducible apply OutKept.next
    | with_reducible apply OutKept.fault | with_reducible apply Kept.core (q := kq) (n := kn) | intro _ | dsimp only

theorem execJal_kept {core : Nat} {rd : Fin 32} {target : BitVec 18} {s : State} (h0 : Kept kq kn s) : OutKept kq kn (execJal core rd target s) := by
  unfold execJal
  try dsimp only
  repeat' first
    | with_reducible assumption | with_reducible apply CoreState.setX_kept | with_reducible apply CoreState.sclFault_kept
    | with_reducible apply CoreState.goto_kept | with_reducible apply State.setCore_kept | with_reducible apply onLive_kept
    | with_reducible apply OutKept.next | with_reducible apply OutKept.fault
    | with_reducible apply Kept.core (q := kq) (n := kn) | split | intro _ | dsimp only

theorem execJalr_kept {core : Nat} {rd : Fin 32} {ra : Fin 32} {imm : BitVec 16} {s : State} (h0 : Kept kq kn s) : OutKept kq kn (execJalr core rd ra imm s) := by
  unfold execJalr
  try dsimp only
  repeat' first
    | with_reducible assumption | with_reducible apply CoreState.setX_kept | with_reducible apply CoreState.sclFault_kept
    | with_reducible apply CoreState.goto_kept | with_reducible apply State.setCore_kept | with_reducible apply onLive_kept
    | with_reducible apply OutKept.next | with_reducible apply OutKept.fault
    | with_reducible apply Kept.core (q := kq) (n := kn) | split | intro _ | dsimp only

end Sys2Proof.Machine
end

