-- ==== Sys2Proof/Laws/KeptWords.lean ====
section
/-! SUPPORT. What the operations of Machine/Words.lean keep (Laws/Kept.lean). -/

namespace Sys2Proof.Machine

variable {kq : List Instr} {kn : Nat}

theorem CoreState.afterScalar_kept {c : CoreState} {now : Nat} {img : List (Nat × Byte)} {off : Nat} {len : Nat} {w : Nat} (h0 : CoreKept c) : CoreKept (CoreState.afterScalar c now img off len w) := by
  unfold CoreState.afterScalar
  try dsimp only
  repeat' first
    | with_reducible assumption | with_reducible apply CoreState.setX_kept | with_reducible apply OutKept.next
    | with_reducible apply OutKept.fault | with_reducible apply Kept.core (q := kq) (n := kn) | split
    | (refine Kept.intro ?_; dsimp only; with_reducible refine Kept.elim ?_)
    | (refine CoreKept.intro ?_; dsimp only; with_reducible refine CoreKept.elim ?_) | exact CoreKept.reset | intro _
    | dsimp only

end Sys2Proof.Machine
end

