-- ==== Sys2Proof/Laws/KeptReleases.lean ====
section
/-! SUPPORT. What the operations of Machine/Releases.lean keep (Laws/Kept.lean). -/

namespace Sys2Proof.Machine

variable {kq : List Instr} {kn : Nat}

theorem State.release_kept {s : State} {p : Nat} {core : Nat} {v : Cove} {r : Release} (h0 : Kept kq kn s) : Kept kq kn (State.release s p core v r) := by
  unfold State.release
  try dsimp only
  repeat' first
    | with_reducible assumption | with_reducible apply State.setCore_kept | with_reducible apply CoreState.bump_kept
    | with_reducible apply State.bump_kept | with_reducible apply CoreState.setTag_kept
    | with_reducible apply State.notifyCove_kept | with_reducible apply OutKept.next | with_reducible apply OutKept.fault
    | with_reducible apply Kept.foldl | with_reducible apply Kept.foldl_fst | with_reducible apply CoreKept.foldl
    | with_reducible apply CoreKept.foldl_fst | with_reducible apply Kept.foldl_snd | with_reducible apply CoreKept.foldl_snd
    | with_reducible apply Kept.foldl_state | with_reducible apply Kept.core (q := kq) (n := kn) | split
    | (refine Kept.intro ?_; dsimp only; with_reducible refine Kept.elim ?_)
    | (refine CoreKept.intro ?_; dsimp only; with_reducible refine CoreKept.elim ?_) | exact CoreKept.reset | intro _
    | dsimp only

theorem State.applyRelease_kept {s : State} {p : Nat} {core : Nat} {r : Release} (h0 : Kept kq kn s) : Kept kq kn (State.applyRelease s p core r) := by
  unfold State.applyRelease
  try dsimp only
  repeat' first
    | with_reducible assumption | with_reducible apply CoreState.faultCtx_kept | with_reducible apply State.release_kept
    | with_reducible apply State.setCore_kept | with_reducible apply Kept.core (q := kq) (n := kn) | split | dsimp only

theorem State.runReleases_kept {s : State} {p : Nat} {core : Nat} {rels : List Release} {blocked : Bool} (h0 : Kept kq kn s) : Kept kq kn (State.runReleases s p core rels blocked) := by
  induction rels generalizing s p core blocked with
  | nil =>
    unfold State.runReleases
    try dsimp only
    repeat' first
      | with_reducible assumption | with_reducible apply State.setCore_kept | with_reducible apply State.applyRelease_kept
      | with_reducible apply OutKept.next | with_reducible apply OutKept.fault
      | with_reducible apply Kept.core (q := kq) (n := kn) | split
      | (refine Kept.intro ?_; dsimp only; with_reducible refine Kept.elim ?_)
      | (refine CoreKept.intro ?_; dsimp only; with_reducible refine CoreKept.elim ?_) | exact CoreKept.reset | intro _
      | with_reducible refine Kept.of_fst ‹_› ?_ | with_reducible refine Kept.of_snd ‹_› ?_
      | with_reducible refine Kept.of_trd ‹_› ?_ | with_reducible refine CoreKept.of_fst ‹_› ?_
      | with_reducible refine CoreKept.of_snd ‹_› ?_ | dsimp only
  | cons z zs ih =>
    unfold State.runReleases
    try dsimp only
    repeat' first
      | with_reducible assumption | with_reducible apply ih | with_reducible apply State.setCore_kept
      | with_reducible apply State.applyRelease_kept | with_reducible apply OutKept.next | with_reducible apply OutKept.fault
      | with_reducible apply Kept.core (q := kq) (n := kn) | split
      | (refine Kept.intro ?_; dsimp only; with_reducible refine Kept.elim ?_)
      | (refine CoreKept.intro ?_; dsimp only; with_reducible refine CoreKept.elim ?_) | exact CoreKept.reset | intro _
      | with_reducible refine Kept.of_fst ‹_› ?_ | with_reducible refine Kept.of_snd ‹_› ?_
      | with_reducible refine Kept.of_trd ‹_› ?_ | with_reducible refine CoreKept.of_fst ‹_› ?_
      | with_reducible refine CoreKept.of_snd ‹_› ?_ | dsimp only

theorem execReleaseApply_kept {core : Nat} {s : State} (h0 : Kept kq kn s) : OutKept kq kn (execReleaseApply core s) := by
  unfold execReleaseApply
  try dsimp only
  repeat' first
    | with_reducible assumption | with_reducible apply State.setCore_kept | with_reducible apply State.runReleases_kept
    | with_reducible apply onLive_kept | with_reducible apply OutKept.next | with_reducible apply OutKept.fault
    | with_reducible apply Kept.core (q := kq) (n := kn)
    | (refine Kept.intro ?_; dsimp only; with_reducible refine Kept.elim ?_)
    | (refine CoreKept.intro ?_; dsimp only; with_reducible refine CoreKept.elim ?_) | exact CoreKept.reset | intro _
    | dsimp only

end Sys2Proof.Machine
end

