-- ==== Sys2Proof/Laws/KeptIssue.lean ====
section
/-! SUPPORT. What the operations of Machine/Issue.lean keep (Laws/Kept.lean). -/

namespace Sys2Proof.Machine

variable {kq : List Instr} {kn : Nat}

theorem CoreState.skipMarkers_kept {k : Nat} {c : CoreState} (h0 : CoreKept c) : CoreKept (CoreState.skipMarkers k c) := by
  induction k generalizing c with
  | zero =>
    unfold CoreState.skipMarkers
    try dsimp only
    repeat' first
      | with_reducible assumption | split | (refine Kept.intro ?_; dsimp only; with_reducible refine Kept.elim ?_)
      | (refine CoreKept.intro ?_; dsimp only; with_reducible refine CoreKept.elim ?_) | dsimp only
  | succ z ih =>
    unfold CoreState.skipMarkers
    try dsimp only
    repeat' first
      | with_reducible assumption | with_reducible apply ih | split
      | (refine Kept.intro ?_; dsimp only; with_reducible refine Kept.elim ?_)
      | (refine CoreKept.intro ?_; dsimp only; with_reducible refine CoreKept.elim ?_) | dsimp only

theorem CoreState.autoRelease_kept {c : CoreState} {now : Nat} (h0 : CoreKept c) : CoreKept (CoreState.autoRelease c now) := by
  unfold CoreState.autoRelease
  try dsimp only
  repeat' first
    | with_reducible assumption | with_reducible apply OutKept.next | with_reducible apply OutKept.fault
    | with_reducible apply Kept.core (q := kq) (n := kn) | split
    | (refine Kept.intro ?_; dsimp only; with_reducible refine Kept.elim ?_)
    | (refine CoreKept.intro ?_; dsimp only; with_reducible refine CoreKept.elim ?_) | exact CoreKept.reset | intro _
    | with_reducible refine Kept.of_fst ‹_› ?_ | with_reducible refine Kept.of_snd ‹_› ?_
    | with_reducible refine Kept.of_trd ‹_› ?_ | with_reducible refine CoreKept.of_fst ‹_› ?_
    | with_reducible refine CoreKept.of_snd ‹_› ?_ | dsimp only

theorem CoreState.trimWindow_kept {c : CoreState} (h0 : CoreKept c) : CoreKept (CoreState.trimWindow c) := by
  unfold CoreState.trimWindow
  try dsimp only
  repeat' first
    | with_reducible assumption | with_reducible apply OutKept.next | with_reducible apply OutKept.fault
    | with_reducible apply Kept.core (q := kq) (n := kn) | split
    | (refine Kept.intro ?_; dsimp only; with_reducible refine Kept.elim ?_)
    | (refine CoreKept.intro ?_; dsimp only; with_reducible refine CoreKept.elim ?_) | exact CoreKept.reset | intro _
    | dsimp only

theorem CoreState.fetchFault_kept {c : CoreState} {now : Nat} (h0 : CoreKept c) : CoreKept (CoreState.fetchFault c now) := by
  unfold CoreState.fetchFault
  try dsimp only
  repeat' first
    | with_reducible assumption | with_reducible apply CoreState.fault_kept | dsimp only

theorem CoreState.fetchWaits_kept {c : CoreState} {chunk : Nat} {x : Cove × Nat} (h0 : CoreKept c) : CoreKept (CoreState.fetchWaits c chunk x) := by
  unfold CoreState.fetchWaits
  try dsimp only
  repeat' first
    | with_reducible assumption | with_reducible apply CoreState.wait_kept | with_reducible apply CoreState.unwait_kept
    | with_reducible apply OutKept.next | with_reducible apply OutKept.fault
    | with_reducible apply Kept.core (q := kq) (n := kn) | split
    | (refine Kept.intro ?_; dsimp only; with_reducible refine Kept.elim ?_)
    | (refine CoreKept.intro ?_; dsimp only; with_reducible refine CoreKept.elim ?_) | exact CoreKept.reset | intro _
    | dsimp only

theorem execFetchChunk_kept {core : Nat} {chunk : Nat} {s : State} (h0 : Kept kq kn s) : OutKept kq kn (execFetchChunk core chunk s) := by
  unfold execFetchChunk
  try dsimp only
  repeat' first
    | with_reducible assumption | with_reducible apply State.setCore_kept | with_reducible apply State.modCore_kept
    | with_reducible apply CoreState.put_kept | with_reducible apply State.put_kept | with_reducible apply CoreState.fault_kept
    | with_reducible apply State.portRead_kept | with_reducible apply CoreState.autoRelease_kept
    | with_reducible apply CoreState.trimWindow_kept | with_reducible apply CoreState.fetchFault_kept
    | with_reducible apply CoreState.fetchWaits_kept | with_reducible apply onLive_kept | with_reducible apply OutKept.next
    | with_reducible apply OutKept.fault | with_reducible apply Kept.core (q := kq) (n := kn) | split
    | (refine Kept.intro ?_; dsimp only; with_reducible refine Kept.elim ?_)
    | (refine CoreKept.intro ?_; dsimp only; with_reducible refine CoreKept.elim ?_) | exact CoreKept.reset | intro _
    | with_reducible refine Kept.of_fst ‹_› ?_ | with_reducible refine Kept.of_snd ‹_› ?_
    | with_reducible refine Kept.of_trd ‹_› ?_ | with_reducible refine CoreKept.of_fst ‹_› ?_
    | with_reducible refine CoreKept.of_snd ‹_› ?_ | dsimp only

theorem CoreState.enqueue_kept {c0 : CoreState} {x : WordCtx} {op : QOp} (h0 : CoreKept c0) : CoreKept (CoreState.enqueue c0 x op) := by
  unfold CoreState.enqueue
  try dsimp only
  repeat' first
    | with_reducible assumption | with_reducible apply CoreState.wrap_kept | with_reducible apply State.wrap_kept
    | with_reducible apply CoreState.breaks_kept | split
    | (refine Kept.intro ?_; dsimp only; with_reducible refine Kept.elim ?_)
    | (refine CoreKept.intro ?_; dsimp only; with_reducible refine CoreKept.elim ?_) | dsimp only

theorem CoreState.issueWord_kept {c : CoreState} {now : Nat} {w : LongWord} {x : WordCtx} {ops : List QOp} {isOver : Bool} {grid : Option (Nat × Nat)} (h0 : CoreKept c) : CoreKept (CoreState.issueWord c now w x ops isOver grid) := by
  unfold CoreState.issueWord
  try dsimp only
  repeat' first
    | with_reducible assumption | with_reducible apply CoreState.put_kept | with_reducible apply CoreState.wrap_kept
    | with_reducible apply State.put_kept | with_reducible apply State.wrap_kept | with_reducible apply CoreState.fault_kept
    | with_reducible apply CoreState.post_kept | with_reducible apply CoreState.autoRelease_kept
    | with_reducible apply CoreState.trimWindow_kept | with_reducible apply CoreState.enqueue_kept
    | with_reducible apply OutKept.next | with_reducible apply OutKept.fault | with_reducible apply Kept.foldl
    | with_reducible apply Kept.foldl_fst | with_reducible apply CoreKept.foldl | with_reducible apply CoreKept.foldl_fst
    | with_reducible apply Kept.foldl_snd | with_reducible apply CoreKept.foldl_snd
    | with_reducible apply Kept.core (q := kq) (n := kn) | split
    | (refine Kept.intro ?_; dsimp only; with_reducible refine Kept.elim ?_)
    | (refine CoreKept.intro ?_; dsimp only; with_reducible refine CoreKept.elim ?_) | exact CoreKept.reset | intro _
    | dsimp only

theorem CoreState.issueWaits_kept {c : CoreState} {on : Option Wait} (h0 : CoreKept c) : CoreKept (CoreState.issueWaits c on) := by
  unfold CoreState.issueWaits
  try dsimp only
  repeat' first
    | with_reducible assumption | with_reducible apply CoreState.put_kept | with_reducible apply State.put_kept
    | with_reducible apply CoreState.wait_kept | split | dsimp only

theorem State.tryIssue_kept {s : State} {p : Nat} {core : Nat} {c : CoreState} {w : LongWord} {note : CoreState → CoreState} (h0 : Kept kq kn s) (h1 : CoreKept c) (h2 : ∀ y0, CoreKept y0 → CoreKept (note y0)) : Kept kq kn (State.tryIssue s p core c w note) := by
  unfold State.tryIssue
  try dsimp only
  repeat' first
    | with_reducible assumption | with_reducible apply h2 | with_reducible apply CoreState.fault_kept
    | with_reducible apply CoreState.wait_kept | with_reducible apply CoreState.issueWord_kept
    | with_reducible apply CoreState.issueWaits_kept | with_reducible apply State.setCore_kept
    | with_reducible apply Kept.core (q := kq) (n := kn) | split | dsimp only

theorem CoreState.noteFence_kept {c : CoreState} {now : Nat} (h0 : CoreKept c) : CoreKept (CoreState.noteFence c now) := by
  unfold CoreState.noteFence
  try dsimp only
  repeat' first
    | with_reducible assumption | with_reducible apply CoreState.put_kept | with_reducible apply State.put_kept | dsimp only

theorem CoreState.noteFrame_kept {c : CoreState} {now : Nat} {start : Nat} {frame : Nat} (h0 : CoreKept c) : CoreKept (CoreState.noteFrame c now start frame) := by
  unfold CoreState.noteFrame
  try dsimp only
  repeat' first
    | with_reducible assumption | with_reducible apply CoreState.put_kept | with_reducible apply CoreState.bump_kept
    | with_reducible apply State.put_kept | with_reducible apply State.bump_kept | split | dsimp only

theorem CoreState.reachMark_kept {c : CoreState} {now : Nat} {fence : Bool} (h0 : CoreKept c) : CoreKept (CoreState.reachMark c now fence) := by
  unfold CoreState.reachMark
  try dsimp only
  repeat' first
    | with_reducible assumption | with_reducible apply CoreState.put_kept | with_reducible apply State.put_kept
    | (refine Kept.intro ?_; dsimp only; with_reducible refine Kept.elim ?_)
    | (refine CoreKept.intro ?_; dsimp only; with_reducible refine CoreKept.elim ?_) | dsimp only

theorem CoreState.stopIssue_kept {c : CoreState} (h0 : CoreKept c) : CoreKept (CoreState.stopIssue c) := by
  unfold CoreState.stopIssue
  try dsimp only
  repeat' first
    | with_reducible assumption | (refine Kept.intro ?_; dsimp only; with_reducible refine Kept.elim ?_)
    | (refine CoreKept.intro ?_; dsimp only; with_reducible refine CoreKept.elim ?_) | dsimp only

theorem State.withWord_kept {s : State} {p : Nat} {c : CoreState} {f : CoreState → LongWord → State} (h0 : Kept kq kn s) (h1 : CoreKept c) (h2 : ∀ y0 y1, CoreKept y0 → Kept kq kn (f y0 y1)) : Kept kq kn (State.withWord s p c f) := by
  unfold State.withWord
  try dsimp only
  repeat' first
    | with_reducible assumption | with_reducible apply h2 | with_reducible apply State.setCore_kept
    | with_reducible apply CoreState.put_kept | with_reducible apply CoreState.raise_kept | with_reducible apply State.put_kept
    | with_reducible apply CoreState.fault_kept | with_reducible apply CoreState.skipMarkers_kept
    | with_reducible apply CoreState.fetchFault_kept | with_reducible apply OutKept.next | with_reducible apply OutKept.fault
    | with_reducible apply Kept.core (q := kq) (n := kn) | split
    | (refine Kept.intro ?_; dsimp only; with_reducible refine Kept.elim ?_)
    | (refine CoreKept.intro ?_; dsimp only; with_reducible refine CoreKept.elim ?_) | exact CoreKept.reset | intro _
    | with_reducible refine Kept.of_fst ‹_› ?_ | with_reducible refine Kept.of_snd ‹_› ?_
    | with_reducible refine Kept.of_trd ‹_› ?_ | with_reducible refine CoreKept.of_fst ‹_› ?_
    | with_reducible refine CoreKept.of_snd ‹_› ?_ | dsimp only

theorem execWordIssue_kept {core : Nat} {s : State} (h0 : Kept kq kn s) : OutKept kq kn (execWordIssue core s) := by
  unfold execWordIssue
  try dsimp only
  repeat' first
    | with_reducible assumption | with_reducible apply State.setCore_kept | with_reducible apply State.tryIssue_kept
    | with_reducible apply CoreState.noteFence_kept | with_reducible apply CoreState.reachMark_kept
    | with_reducible apply CoreState.stopIssue_kept | with_reducible apply State.withWord_kept
    | with_reducible apply onLive_kept | with_reducible apply OutKept.next | with_reducible apply OutKept.fault
    | with_reducible apply Kept.core (q := kq) (n := kn) | split
    | (refine Kept.intro ?_; dsimp only; with_reducible refine Kept.elim ?_)
    | (refine CoreKept.intro ?_; dsimp only; with_reducible refine CoreKept.elim ?_) | exact CoreKept.reset | intro _
    | with_reducible refine Kept.of_fst ‹_› ?_ | with_reducible refine Kept.of_snd ‹_› ?_
    | with_reducible refine Kept.of_trd ‹_› ?_ | with_reducible refine CoreKept.of_fst ‹_› ?_
    | with_reducible refine CoreKept.of_snd ‹_› ?_ | dsimp only [id] | dsimp only

theorem execFrameMarkIssue_kept {core : Nat} {s : State} (h0 : Kept kq kn s) : OutKept kq kn (execFrameMarkIssue core s) := by
  unfold execFrameMarkIssue
  try dsimp only
  repeat' first
    | with_reducible assumption | with_reducible apply State.tryIssue_kept | with_reducible apply CoreState.noteFrame_kept
    | with_reducible apply CoreState.reachMark_kept | with_reducible apply State.withWord_kept
    | with_reducible apply State.setCore_kept | with_reducible apply onLive_kept | with_reducible apply OutKept.next
    | with_reducible apply OutKept.fault | with_reducible apply Kept.core (q := kq) (n := kn) | split | intro _ | dsimp only

theorem CoreState.startIssue_kept {c : CoreState} (h0 : CoreKept c) : CoreKept (CoreState.startIssue c) := by
  unfold CoreState.startIssue
  try dsimp only
  repeat' first
    | with_reducible assumption | with_reducible apply CoreState.put_kept | with_reducible apply State.put_kept
    | with_reducible apply OutKept.next | with_reducible apply OutKept.fault
    | with_reducible apply Kept.core (q := kq) (n := kn) | split
    | (refine Kept.intro ?_; dsimp only; with_reducible refine Kept.elim ?_)
    | (refine CoreKept.intro ?_; dsimp only; with_reducible refine CoreKept.elim ?_) | exact CoreKept.reset | intro _
    | dsimp only

theorem State.settleDrain_kept {s : State} {b : Nat} (h0 : Kept kq kn s) : Kept kq kn (State.settleDrain s b) := by
  unfold State.settleDrain
  try dsimp only
  repeat' first
    | with_reducible assumption | with_reducible apply CoreState.put_kept | with_reducible apply State.put_kept
    | with_reducible apply State.raiseFlag_kept | with_reducible apply State.modBay_kept | with_reducible apply OutKept.next
    | with_reducible apply OutKept.fault | with_reducible apply Kept.core (q := kq) (n := kn) | split
    | (refine Kept.intro ?_; dsimp only; with_reducible refine Kept.elim ?_)
    | (refine CoreKept.intro ?_; dsimp only; with_reducible refine CoreKept.elim ?_) | exact CoreKept.reset | intro _
    | dsimp only

theorem execCoreStopped_kept {core : Nat} {s : State} (h0 : Kept kq kn s) : OutKept kq kn (execCoreStopped core s) := by
  unfold execCoreStopped
  try dsimp only
  repeat' first
    | with_reducible assumption | with_reducible apply State.setCore_kept | with_reducible apply CoreState.put_kept
    | with_reducible apply State.put_kept | with_reducible apply onLive_kept | with_reducible apply OutKept.next
    | with_reducible apply OutKept.fault | with_reducible apply Kept.core (q := kq) (n := kn) | split
    | (refine Kept.intro ?_; dsimp only; with_reducible refine Kept.elim ?_)
    | (refine CoreKept.intro ?_; dsimp only; with_reducible refine CoreKept.elim ?_) | exact CoreKept.reset | intro _
    | dsimp only

theorem CoreState.syncDone_kept {c : CoreState} (h0 : CoreKept c) : CoreKept (CoreState.syncDone c) := by
  unfold CoreState.syncDone
  try dsimp only
  repeat' first
    | with_reducible assumption | (refine Kept.intro ?_; dsimp only; with_reducible refine Kept.elim ?_)
    | (refine CoreKept.intro ?_; dsimp only; with_reducible refine CoreKept.elim ?_) | dsimp only

theorem execMark_kept {core : Nat} {tag : BitVec 24} {s : State} (h0 : Kept kq kn s) : OutKept kq kn (execMark core tag s) := by
  unfold execMark
  try dsimp only
  repeat' first
    | with_reducible assumption | with_reducible apply CoreState.put_kept | with_reducible apply State.put_kept
    | with_reducible apply CoreState.syncDone_kept | with_reducible apply State.setCore_kept | with_reducible apply onLive_kept
    | with_reducible apply OutKept.next | with_reducible apply OutKept.fault
    | with_reducible apply Kept.core (q := kq) (n := kn)
    | (refine Kept.intro ?_; dsimp only; with_reducible refine Kept.elim ?_)
    | (refine CoreKept.intro ?_; dsimp only; with_reducible refine CoreKept.elim ?_) | exact CoreKept.reset | intro _
    | dsimp only

theorem execExpect_kept {core : Nat} {cove : Nat} {stamp : BitVec 16} {s : State} (h0 : Kept kq kn s) : OutKept kq kn (execExpect core cove stamp s) := by
  unfold execExpect
  try dsimp only
  repeat' first
    | with_reducible assumption | with_reducible apply CoreState.syncDone_kept | with_reducible apply State.setCore_kept
    | with_reducible apply onLive_kept | with_reducible apply OutKept.next | with_reducible apply OutKept.fault
    | with_reducible apply Kept.core (q := kq) (n := kn)
    | (refine Kept.intro ?_; dsimp only; with_reducible refine Kept.elim ?_)
    | (refine CoreKept.intro ?_; dsimp only; with_reducible refine CoreKept.elim ?_) | exact CoreKept.reset | intro _
    | dsimp only

theorem execWait_kept {core : Nat} {cove : Nat} {off : Nat} {stamp : BitVec 16} {s : State} (h0 : Kept kq kn s) : OutKept kq kn (execWait core cove off stamp s) := by
  unfold execWait
  try dsimp only
  repeat' first
    | with_reducible assumption | with_reducible apply State.setCore_kept | with_reducible apply CoreState.fault_kept
    | with_reducible apply CoreState.wait_kept | with_reducible apply CoreState.syncDone_kept
    | with_reducible apply onLive_kept | with_reducible apply OutKept.next | with_reducible apply OutKept.fault
    | with_reducible apply Kept.core (q := kq) (n := kn) | split
    | (refine Kept.intro ?_; dsimp only; with_reducible refine Kept.elim ?_)
    | (refine CoreKept.intro ?_; dsimp only; with_reducible refine CoreKept.elim ?_) | exact CoreKept.reset | intro _
    | dsimp only

theorem execRel_kept {core : Nat} {cove : Nat} {first : Nat} {count : Nat} {s : State} (h0 : Kept kq kn s) : OutKept kq kn (execRel core cove first count s) := by
  unfold execRel
  try dsimp only
  repeat' first
    | with_reducible assumption | with_reducible apply State.setCore_kept | with_reducible apply CoreState.fault_kept
    | with_reducible apply CoreState.breaks_kept | with_reducible apply CoreState.syncDone_kept
    | with_reducible apply onLive_kept | with_reducible apply OutKept.next | with_reducible apply OutKept.fault
    | with_reducible apply Kept.core (q := kq) (n := kn) | split
    | (refine Kept.intro ?_; dsimp only; with_reducible refine Kept.elim ?_)
    | (refine CoreKept.intro ?_; dsimp only; with_reducible refine CoreKept.elim ?_) | exact CoreKept.reset | intro _
    | dsimp only

theorem execLease_kept {core : Nat} {set : Nat} {s : State} (h0 : Kept kq kn s) : OutKept kq kn (execLease core set s) := by
  unfold execLease
  try dsimp only
  repeat' first
    | with_reducible assumption | with_reducible apply State.setCore_kept | with_reducible apply CoreState.setLease_kept
    | with_reducible apply CoreState.syncDone_kept | with_reducible apply onLive_kept | with_reducible apply OutKept.next
    | with_reducible apply OutKept.fault | with_reducible apply Kept.core (q := kq) (n := kn)
    | (refine Kept.intro ?_; dsimp only; with_reducible refine Kept.elim ?_)
    | (refine CoreKept.intro ?_; dsimp only; with_reducible refine CoreKept.elim ?_) | exact CoreKept.reset | intro _
    | dsimp only

theorem execDline_kept {core : Nat} {deadline : Nat} {s : State} (h0 : Kept kq kn s) : OutKept kq kn (execDline core deadline s) := by
  unfold execDline
  try dsimp only
  repeat' first
    | with_reducible assumption | with_reducible apply CoreState.put_kept | with_reducible apply State.put_kept
    | with_reducible apply CoreState.syncDone_kept | with_reducible apply State.setCore_kept | with_reducible apply onLive_kept
    | with_reducible apply OutKept.next | with_reducible apply OutKept.fault
    | with_reducible apply Kept.core (q := kq) (n := kn) | split
    | (refine Kept.intro ?_; dsimp only; with_reducible refine Kept.elim ?_)
    | (refine CoreKept.intro ?_; dsimp only; with_reducible refine CoreKept.elim ?_) | exact CoreKept.reset | intro _
    | dsimp only

theorem execStop_kept {core : Nat} {s : State} (h0 : Kept kq kn s) : OutKept kq kn (execStop core s) := by
  unfold execStop
  try dsimp only
  repeat' first
    | with_reducible assumption | with_reducible apply CoreState.stopIssue_kept | with_reducible apply CoreState.syncDone_kept
    | with_reducible apply State.setCore_kept | with_reducible apply onLive_kept | with_reducible apply OutKept.next
    | with_reducible apply OutKept.fault | with_reducible apply Kept.core (q := kq) (n := kn) | intro _ | dsimp only

end Sys2Proof.Machine
end

