-- ==== Sys2Proof/Laws/KeptVector.lean ====
section
/-! SUPPORT. What the operations of Machine/Vector.lean keep (Laws/Kept.lean). -/

namespace Sys2Proof.Machine

variable {kq : List Instr} {kn : Nat}

theorem CoreState.setQueue_kept {c : CoreState} {u : UnitQ} {l : List QItem} (h0 : CoreKept c) : CoreKept (CoreState.setQueue c u l) := by
  unfold CoreState.setQueue
  try dsimp only
  repeat' first
    | with_reducible assumption | split | (refine Kept.intro ?_; dsimp only; with_reducible refine Kept.elim ?_)
    | (refine CoreKept.intro ?_; dsimp only; with_reducible refine CoreKept.elim ?_)
    | (refine Kept.intro ?_; dsimp only; with_reducible refine Kept.store_write ?_)
    | (refine Kept.intro ?_; dsimp only; with_reducible refine Kept.store_clear ?_) | dsimp only

theorem CoreState.dequeue_kept {c : CoreState} {u : UnitQ} {w : WordCtx} {op : QOp} (h0 : CoreKept c) : CoreKept (CoreState.dequeue c u w op) := by
  unfold CoreState.dequeue
  try dsimp only
  repeat' first
    | with_reducible assumption | with_reducible apply CoreState.setQueue_kept | with_reducible apply OutKept.next
    | with_reducible apply OutKept.fault | with_reducible apply Kept.core (q := kq) (n := kn)
    | (refine Kept.intro ?_; dsimp only; with_reducible refine Kept.elim ?_)
    | (refine CoreKept.intro ?_; dsimp only; with_reducible refine CoreKept.elim ?_) | exact CoreKept.reset | intro _
    | dsimp only

theorem CoreState.start_kept {c : CoreState} {u : UnitQ} {w : WordCtx} {op : QOp} (h0 : CoreKept c) : CoreKept (CoreState.start c u w op) := by
  unfold CoreState.start
  try dsimp only
  repeat' first
    | with_reducible assumption | with_reducible apply CoreState.dequeue_kept | with_reducible apply OutKept.next
    | with_reducible apply OutKept.fault | with_reducible apply Kept.core (q := kq) (n := kn)
    | (refine Kept.intro ?_; dsimp only; with_reducible refine Kept.elim ?_)
    | (refine CoreKept.intro ?_; dsimp only; with_reducible refine CoreKept.elim ?_) | exact CoreKept.reset | intro _
    | dsimp only

theorem CoreState.begin_kept {c : CoreState} {u : UnitQ} {w : WordCtx} {op : QOp} {posts : List (Nat × Nat)} (h0 : CoreKept c) : CoreKept (CoreState.begin c u w op posts) := by
  unfold CoreState.begin
  try dsimp only
  repeat' first
    | with_reducible assumption | with_reducible apply CoreState.dequeue_kept
    | (refine Kept.intro ?_; dsimp only; with_reducible refine Kept.elim ?_)
    | (refine CoreKept.intro ?_; dsimp only; with_reducible refine CoreKept.elim ?_) | dsimp only

theorem CoreState.abandon_kept {c : CoreState} {u : UnitQ} {w : WordCtx} {op : QOp} (h0 : CoreKept c) : CoreKept (CoreState.abandon c u w op) := by
  unfold CoreState.abandon
  try dsimp only
  repeat' first
    | with_reducible assumption | with_reducible apply CoreState.dequeue_kept | with_reducible apply OutKept.next
    | with_reducible apply OutKept.fault | with_reducible apply Kept.core (q := kq) (n := kn)
    | (refine Kept.intro ?_; dsimp only; with_reducible refine Kept.elim ?_)
    | (refine CoreKept.intro ?_; dsimp only; with_reducible refine CoreKept.elim ?_) | exact CoreKept.reset | intro _
    | dsimp only

theorem State.startOp_kept {s : State} {p : Nat} {core : Nat} {w : WordCtx} {op : QOp} {ready : Bool} {run : State} (h0 : Kept kq kn s) (h1 : Kept kq kn run) : Kept kq kn (State.startOp s p core w op ready run) := by
  unfold State.startOp
  try dsimp only
  repeat' first
    | with_reducible assumption | with_reducible apply State.setCore_kept | with_reducible apply CoreState.faultWord_kept
    | with_reducible apply OutKept.next | with_reducible apply OutKept.fault
    | with_reducible apply Kept.core (q := kq) (n := kn) | split
    | (refine Kept.intro ?_; dsimp only; with_reducible refine Kept.elim ?_)
    | (refine CoreKept.intro ?_; dsimp only; with_reducible refine CoreKept.elim ?_) | exact CoreKept.reset | intro _
    | with_reducible refine Kept.of_fst ‹_› ?_ | with_reducible refine Kept.of_snd ‹_› ?_
    | with_reducible refine Kept.of_trd ‹_› ?_ | with_reducible refine CoreKept.of_fst ‹_› ?_
    | with_reducible refine CoreKept.of_snd ‹_› ?_ | dsimp only

theorem CoreState.setVelem_kept {c : CoreState} {ty : Nat} {v : Nat} {n : Nat} {x : Nat} (h0 : CoreKept c) : CoreKept (CoreState.setVelem c ty v n x) := by
  unfold CoreState.setVelem
  try dsimp only
  repeat' first
    | with_reducible assumption | (refine Kept.intro ?_; dsimp only; with_reducible refine Kept.elim ?_)
    | (refine CoreKept.intro ?_; dsimp only; with_reducible refine CoreKept.elim ?_)
    | (refine CoreKept.intro ?_; dsimp only; with_reducible refine CoreKept.vregs_write ?_) | dsimp only

theorem CoreState.vecStep_kept {c : CoreState} {a : VecArgs} {f : CoreState → Nat → VRes} {first : Nat} {n : Nat} (h0 : CoreKept c) : CoreKept (CoreState.vecStep c a f first n) := by
  unfold CoreState.vecStep
  try dsimp only
  repeat' first
    | with_reducible assumption | with_reducible apply CoreState.wrap_kept | with_reducible apply State.wrap_kept
    | with_reducible apply CoreState.vecFlags_kept | with_reducible apply CoreState.setVelem_kept
    | with_reducible apply Kept.foldl | with_reducible apply Kept.foldl_fst | with_reducible apply CoreKept.foldl | intro _
    | dsimp only

theorem CoreState.vecLoop_kept {k : Nat} {c : CoreState} {a : VecArgs} {f : CoreState → Nat → VRes} {group : Nat} {first : Nat} (h0 : CoreKept c) : CoreKept (CoreState.vecLoop k c a f group first) := by
  induction k generalizing c a f group first with
  | zero =>
    unfold CoreState.vecLoop
    try dsimp only
    repeat' first
      | with_reducible assumption | with_reducible apply CoreState.vecStep_kept | split | dsimp only
  | succ z ih =>
    unfold CoreState.vecLoop
    try dsimp only
    repeat' first
      | with_reducible assumption | with_reducible apply ih | with_reducible apply CoreState.vecStep_kept | split | dsimp only

theorem State.vecRun_kept {s : State} {core : Nat} {code : Nat} {w : WordCtx} {a : VecArgs} {run : CoreState → CoreState} (h0 : Kept kq kn s) (h1 : ∀ y0, CoreKept y0 → CoreKept (run y0)) : OutKept kq kn (State.vecRun s core code w a run) := by
  unfold State.vecRun
  try dsimp only
  repeat' first
    | with_reducible assumption | with_reducible apply h1 | with_reducible apply State.setCore_kept
    | with_reducible apply CoreState.wrap_kept | with_reducible apply State.wrap_kept
    | with_reducible apply CoreState.begin_kept | with_reducible apply State.startOp_kept | with_reducible apply onLive_kept
    | with_reducible apply OutKept.next | with_reducible apply OutKept.fault
    | with_reducible apply Kept.core (q := kq) (n := kn) | split
    | (refine Kept.intro ?_; dsimp only; with_reducible refine Kept.elim ?_)
    | (refine CoreKept.intro ?_; dsimp only; with_reducible refine CoreKept.elim ?_) | exact CoreKept.reset | intro _
    | dsimp only

theorem State.vecMap_kept {s : State} {core : Nat} {code : Nat} {w : WordCtx} {a : VecArgs} {f : CoreState → Nat → VRes} (h0 : Kept kq kn s) : OutKept kq kn (State.vecMap s core code w a f) := by
  unfold State.vecMap
  try dsimp only
  repeat' first
    | with_reducible assumption | with_reducible apply CoreState.vecLoop_kept | with_reducible apply State.vecRun_kept
    | with_reducible apply OutKept.next | with_reducible apply OutKept.fault
    | with_reducible apply Kept.core (q := kq) (n := kn) | intro _ | dsimp only

theorem execVAdd_kept {core : Nat} {w : WordCtx} {a : VecArgs} {s : State} (h0 : Kept kq kn s) : OutKept kq kn (execVAdd core w a s) := by
  unfold execVAdd
  try dsimp only
  repeat' first
    | with_reducible assumption | with_reducible apply State.vecMap_kept | with_reducible apply OutKept.next
    | with_reducible apply OutKept.fault | with_reducible apply Kept.core (q := kq) (n := kn) | intro _ | dsimp only

theorem execVSub_kept {core : Nat} {w : WordCtx} {a : VecArgs} {s : State} (h0 : Kept kq kn s) : OutKept kq kn (execVSub core w a s) := by
  unfold execVSub
  try dsimp only
  repeat' first
    | with_reducible assumption | with_reducible apply State.vecMap_kept | with_reducible apply OutKept.next
    | with_reducible apply OutKept.fault | with_reducible apply Kept.core (q := kq) (n := kn) | intro _ | dsimp only

theorem execVMul_kept {core : Nat} {w : WordCtx} {a : VecArgs} {s : State} (h0 : Kept kq kn s) : OutKept kq kn (execVMul core w a s) := by
  unfold execVMul
  try dsimp only
  repeat' first
    | with_reducible assumption | with_reducible apply State.vecMap_kept | with_reducible apply OutKept.next
    | with_reducible apply OutKept.fault | with_reducible apply Kept.core (q := kq) (n := kn) | intro _ | dsimp only

theorem execVFma_kept {core : Nat} {w : WordCtx} {a : VecArgs} {s : State} (h0 : Kept kq kn s) : OutKept kq kn (execVFma core w a s) := by
  unfold execVFma
  try dsimp only
  repeat' first
    | with_reducible assumption | with_reducible apply State.vecMap_kept | with_reducible apply OutKept.next
    | with_reducible apply OutKept.fault | with_reducible apply Kept.core (q := kq) (n := kn) | intro _ | dsimp only

theorem execVMin_kept {core : Nat} {w : WordCtx} {a : VecArgs} {s : State} (h0 : Kept kq kn s) : OutKept kq kn (execVMin core w a s) := by
  unfold execVMin
  try dsimp only
  repeat' first
    | with_reducible assumption | with_reducible apply State.vecMap_kept | with_reducible apply OutKept.next
    | with_reducible apply OutKept.fault | with_reducible apply Kept.core (q := kq) (n := kn) | intro _ | dsimp only

theorem execVMax_kept {core : Nat} {w : WordCtx} {a : VecArgs} {s : State} (h0 : Kept kq kn s) : OutKept kq kn (execVMax core w a s) := by
  unfold execVMax
  try dsimp only
  repeat' first
    | with_reducible assumption | with_reducible apply State.vecMap_kept | with_reducible apply OutKept.next
    | with_reducible apply OutKept.fault | with_reducible apply Kept.core (q := kq) (n := kn) | intro _ | dsimp only

theorem execVAbs_kept {core : Nat} {w : WordCtx} {a : VecArgs} {s : State} (h0 : Kept kq kn s) : OutKept kq kn (execVAbs core w a s) := by
  unfold execVAbs
  try dsimp only
  repeat' first
    | with_reducible assumption | with_reducible apply State.vecMap_kept | with_reducible apply OutKept.next
    | with_reducible apply OutKept.fault | with_reducible apply Kept.core (q := kq) (n := kn) | split | intro _ | dsimp only

theorem execVNeg_kept {core : Nat} {w : WordCtx} {a : VecArgs} {s : State} (h0 : Kept kq kn s) : OutKept kq kn (execVNeg core w a s) := by
  unfold execVNeg
  try dsimp only
  repeat' first
    | with_reducible assumption | with_reducible apply State.vecMap_kept | with_reducible apply OutKept.next
    | with_reducible apply OutKept.fault | with_reducible apply Kept.core (q := kq) (n := kn) | split | intro _ | dsimp only

theorem execVCmpEq_kept {core : Nat} {w : WordCtx} {a : VecArgs} {s : State} (h0 : Kept kq kn s) : OutKept kq kn (execVCmpEq core w a s) := by
  unfold execVCmpEq
  try dsimp only
  repeat' first
    | with_reducible assumption | with_reducible apply State.vecMap_kept | with_reducible apply OutKept.next
    | with_reducible apply OutKept.fault | with_reducible apply Kept.core (q := kq) (n := kn) | intro _ | dsimp only

theorem execVCmpLt_kept {core : Nat} {w : WordCtx} {a : VecArgs} {s : State} (h0 : Kept kq kn s) : OutKept kq kn (execVCmpLt core w a s) := by
  unfold execVCmpLt
  try dsimp only
  repeat' first
    | with_reducible assumption | with_reducible apply State.vecMap_kept | with_reducible apply OutKept.next
    | with_reducible apply OutKept.fault | with_reducible apply Kept.core (q := kq) (n := kn) | intro _ | dsimp only

theorem execVCmpLe_kept {core : Nat} {w : WordCtx} {a : VecArgs} {s : State} (h0 : Kept kq kn s) : OutKept kq kn (execVCmpLe core w a s) := by
  unfold execVCmpLe
  try dsimp only
  repeat' first
    | with_reducible assumption | with_reducible apply State.vecMap_kept | with_reducible apply OutKept.next
    | with_reducible apply OutKept.fault | with_reducible apply Kept.core (q := kq) (n := kn) | intro _ | dsimp only

theorem execVSel_kept {core : Nat} {w : WordCtx} {a : VecArgs} {s : State} (h0 : Kept kq kn s) : OutKept kq kn (execVSel core w a s) := by
  unfold execVSel
  try dsimp only
  repeat' first
    | with_reducible assumption | with_reducible apply State.vecMap_kept | with_reducible apply OutKept.next
    | with_reducible apply OutKept.fault | with_reducible apply Kept.core (q := kq) (n := kn) | split | intro _ | dsimp only

theorem execVIota_kept {core : Nat} {w : WordCtx} {a : VecArgs} {s : State} (h0 : Kept kq kn s) : OutKept kq kn (execVIota core w a s) := by
  unfold execVIota
  try dsimp only
  repeat' first
    | with_reducible assumption | with_reducible apply State.vecMap_kept | with_reducible apply OutKept.next
    | with_reducible apply OutKept.fault | with_reducible apply Kept.core (q := kq) (n := kn) | split | intro _ | dsimp only

theorem execVBcast_kept {core : Nat} {w : WordCtx} {a : VecArgs} {s : State} (h0 : Kept kq kn s) : OutKept kq kn (execVBcast core w a s) := by
  unfold execVBcast
  try dsimp only
  repeat' first
    | with_reducible assumption | with_reducible apply State.vecMap_kept | with_reducible apply OutKept.next
    | with_reducible apply OutKept.fault | with_reducible apply Kept.core (q := kq) (n := kn) | split | intro _ | dsimp only

theorem execVCvt_kept {core : Nat} {w : WordCtx} {a : VecArgs} {s : State} (h0 : Kept kq kn s) : OutKept kq kn (execVCvt core w a s) := by
  unfold execVCvt
  try dsimp only
  repeat' first
    | with_reducible assumption | with_reducible apply State.vecMap_kept | with_reducible apply OutKept.next
    | with_reducible apply OutKept.fault | with_reducible apply Kept.core (q := kq) (n := kn) | intro _ | dsimp only

theorem execVExp2_kept {core : Nat} {w : WordCtx} {a : VecArgs} {s : State} (h0 : Kept kq kn s) : OutKept kq kn (execVExp2 core w a s) := by
  unfold execVExp2
  try dsimp only
  repeat' first
    | with_reducible assumption | with_reducible apply State.vecMap_kept | with_reducible apply OutKept.next
    | with_reducible apply OutKept.fault | with_reducible apply Kept.core (q := kq) (n := kn) | intro _ | dsimp only

theorem execVLog2_kept {core : Nat} {w : WordCtx} {a : VecArgs} {s : State} (h0 : Kept kq kn s) : OutKept kq kn (execVLog2 core w a s) := by
  unfold execVLog2
  try dsimp only
  repeat' first
    | with_reducible assumption | with_reducible apply State.vecMap_kept | with_reducible apply OutKept.next
    | with_reducible apply OutKept.fault | with_reducible apply Kept.core (q := kq) (n := kn) | intro _ | dsimp only

theorem execVRcp_kept {core : Nat} {w : WordCtx} {a : VecArgs} {s : State} (h0 : Kept kq kn s) : OutKept kq kn (execVRcp core w a s) := by
  unfold execVRcp
  try dsimp only
  repeat' first
    | with_reducible assumption | with_reducible apply State.vecMap_kept | with_reducible apply OutKept.next
    | with_reducible apply OutKept.fault | with_reducible apply Kept.core (q := kq) (n := kn) | intro _ | dsimp only

theorem execVRsqrt_kept {core : Nat} {w : WordCtx} {a : VecArgs} {s : State} (h0 : Kept kq kn s) : OutKept kq kn (execVRsqrt core w a s) := by
  unfold execVRsqrt
  try dsimp only
  repeat' first
    | with_reducible assumption | with_reducible apply State.vecMap_kept | with_reducible apply OutKept.next
    | with_reducible apply OutKept.fault | with_reducible apply Kept.core (q := kq) (n := kn) | intro _ | dsimp only

theorem execVSqrt_kept {core : Nat} {w : WordCtx} {a : VecArgs} {s : State} (h0 : Kept kq kn s) : OutKept kq kn (execVSqrt core w a s) := by
  unfold execVSqrt
  try dsimp only
  repeat' first
    | with_reducible assumption | with_reducible apply State.vecMap_kept | with_reducible apply OutKept.next
    | with_reducible apply OutKept.fault | with_reducible apply Kept.core (q := kq) (n := kn) | intro _ | dsimp only

theorem CoreState.redWrite_kept {c : CoreState} {a : VecArgs} {v : Nat} {nan : Bool} {wrap : Bool} (h0 : CoreKept c) : CoreKept (CoreState.redWrite c a v nan wrap) := by
  unfold CoreState.redWrite
  try dsimp only
  repeat' first
    | with_reducible assumption | with_reducible apply CoreState.wrap_kept | with_reducible apply State.wrap_kept
    | with_reducible apply CoreState.vecFlags_kept | with_reducible apply CoreState.setX_kept | dsimp only

theorem execVRsum_kept {core : Nat} {w : WordCtx} {a : VecArgs} {s : State} (h0 : Kept kq kn s) : OutKept kq kn (execVRsum core w a s) := by
  unfold execVRsum
  try dsimp only
  repeat' first
    | with_reducible assumption | with_reducible apply State.vecRun_kept | with_reducible apply CoreState.redWrite_kept
    | with_reducible apply OutKept.next | with_reducible apply OutKept.fault
    | with_reducible apply Kept.core (q := kq) (n := kn) | split | intro _ | dsimp only

theorem execVRmax_kept {core : Nat} {w : WordCtx} {a : VecArgs} {s : State} (h0 : Kept kq kn s) : OutKept kq kn (execVRmax core w a s) := by
  unfold execVRmax
  try dsimp only
  repeat' first
    | with_reducible assumption | with_reducible apply State.vecRun_kept | with_reducible apply CoreState.redWrite_kept
    | with_reducible apply OutKept.next | with_reducible apply OutKept.fault
    | with_reducible apply Kept.core (q := kq) (n := kn) | split | intro _ | dsimp only

theorem execVRargmax_kept {core : Nat} {w : WordCtx} {a : VecArgs} {s : State} (h0 : Kept kq kn s) : OutKept kq kn (execVRargmax core w a s) := by
  unfold execVRargmax
  try dsimp only
  repeat' first
    | with_reducible assumption | with_reducible apply State.vecRun_kept | with_reducible apply CoreState.redWrite_kept
    | with_reducible apply OutKept.next | with_reducible apply OutKept.fault
    | with_reducible apply Kept.core (q := kq) (n := kn) | intro _ | dsimp only

end Sys2Proof.Machine
end

