-- ==== Sys2Proof/Laws/KeptReads.lean ====
section
/-! SUPPORT. What the operations of Machine/Reads.lean keep (Laws/Kept.lean). -/

namespace Sys2Proof.Machine

variable {kq : List Instr} {kn : Nat}

theorem CoreState.waitSlot_kept {c : CoreState} {w : WordCtx} {op : QOp} {x : Cove × Nat} (h0 : CoreKept c) : CoreKept (CoreState.waitSlot c w op x) := by
  unfold CoreState.waitSlot
  try dsimp only
  repeat' first
    | with_reducible assumption | with_reducible apply CoreState.wait_kept | with_reducible apply CoreState.unwait_kept
    | with_reducible apply OutKept.next | with_reducible apply OutKept.fault
    | with_reducible apply Kept.core (q := kq) (n := kn)
    | (refine Kept.intro ?_; dsimp only; with_reducible refine Kept.elim ?_)
    | (refine CoreKept.intro ?_; dsimp only; with_reducible refine CoreKept.elim ?_) | exact CoreKept.reset | intro _
    | dsimp only

theorem CoreState.residualWait_kept {c : CoreState} {op : QOp} (h0 : CoreKept c) : CoreKept (CoreState.residualWait c op) := by
  unfold CoreState.residualWait
  try dsimp only
  repeat' first
    | with_reducible assumption | with_reducible apply CoreState.bump_kept | with_reducible apply CoreState.once_kept
    | with_reducible apply State.bump_kept | with_reducible apply OutKept.next | with_reducible apply OutKept.fault
    | with_reducible apply Kept.core (q := kq) (n := kn) | split
    | (refine Kept.intro ?_; dsimp only; with_reducible refine Kept.elim ?_)
    | (refine CoreKept.intro ?_; dsimp only; with_reducible refine CoreKept.elim ?_) | exact CoreKept.reset | intro _
    | with_reducible refine Kept.of_fst ‹_› ?_ | with_reducible refine Kept.of_snd ‹_› ?_
    | with_reducible refine Kept.of_trd ‹_› ?_ | with_reducible refine CoreKept.of_fst ‹_› ?_
    | with_reducible refine CoreKept.of_snd ‹_› ?_ | dsimp only

theorem CoreState.hold_kept {c : CoreState} {u : UnitQ} {w : WordCtx} {op : QOp} {on : Option (Cove × Nat)} (h0 : CoreKept c) : CoreKept (CoreState.hold c u w op on) := by
  unfold CoreState.hold
  try dsimp only
  repeat' first
    | with_reducible assumption | with_reducible apply CoreState.unwait_kept | with_reducible apply CoreState.start_kept
    | with_reducible apply CoreState.abandon_kept | with_reducible apply CoreState.waitSlot_kept
    | with_reducible apply CoreState.residualWait_kept | with_reducible apply OutKept.next | with_reducible apply OutKept.fault
    | with_reducible apply Kept.core (q := kq) (n := kn) | split
    | (refine Kept.intro ?_; dsimp only; with_reducible refine Kept.elim ?_)
    | (refine CoreKept.intro ?_; dsimp only; with_reducible refine CoreKept.elim ?_) | exact CoreKept.reset | intro _
    | with_reducible refine Kept.of_fst ‹_› ?_ | with_reducible refine Kept.of_snd ‹_› ?_
    | with_reducible refine Kept.of_trd ‹_› ?_ | with_reducible refine CoreKept.of_fst ‹_› ?_
    | with_reducible refine CoreKept.of_snd ‹_› ?_ | dsimp only

theorem CoreState.readPoison_kept {c : CoreState} {now : Nat} {unit : Nat} {a : Nat} {u : UnitQ} {w : WordCtx} {op : QOp} (h0 : CoreKept c) : CoreKept (CoreState.readPoison c now unit a u w op) := by
  unfold CoreState.readPoison
  try dsimp only
  repeat' first
    | with_reducible assumption | with_reducible apply CoreState.faultWord_kept | with_reducible apply CoreState.abandon_kept
    | dsimp only

theorem State.readingOp_kept {s : State} {p : Nat} {unit : Nat} {w : WordCtx} {op : QOp} {chunks : List Nat} {run : State → List Nat → State} (h0 : Kept kq kn s) (h1 : ∀ y0 y1, Kept kq kn y0 → Kept kq kn (run y0 y1)) : Kept kq kn (State.readingOp s p unit w op chunks run) := by
  unfold State.readingOp
  try dsimp only
  repeat' first
    | with_reducible assumption | with_reducible apply h1 | with_reducible apply State.modCore_kept
    | with_reducible apply CoreState.unwait_kept | with_reducible apply State.portRead_kept
    | with_reducible apply CoreState.hold_kept | with_reducible apply CoreState.readPoison_kept
    | with_reducible apply OutKept.next | with_reducible apply OutKept.fault
    | with_reducible apply Kept.core (q := kq) (n := kn) | split
    | (refine Kept.intro ?_; dsimp only; with_reducible refine Kept.elim ?_)
    | (refine CoreKept.intro ?_; dsimp only; with_reducible refine CoreKept.elim ?_) | exact CoreKept.reset | intro _
    | with_reducible refine Kept.of_fst ‹_› ?_ | with_reducible refine Kept.of_snd ‹_› ?_
    | with_reducible refine Kept.of_trd ‹_› ?_ | with_reducible refine CoreKept.of_fst ‹_› ?_
    | with_reducible refine CoreKept.of_snd ‹_› ?_ | dsimp only

theorem State.runExec_kept {s : State} {p : Nat} {core : Nat} {n : Nat} (h0 : Kept kq kn s) : Kept kq kn (State.runExec s p core n) := by
  unfold State.runExec
  try dsimp only
  repeat' first
    | with_reducible assumption | with_reducible apply State.modCore_kept | with_reducible apply CoreState.faultWord_kept
    | with_reducible apply CoreState.unwait_kept | with_reducible apply State.portWrites_kept
    | with_reducible apply CoreState.waitSlot_kept | with_reducible apply OutKept.next | with_reducible apply OutKept.fault
    | with_reducible apply Kept.core (q := kq) (n := kn) | split
    | (refine Kept.intro ?_; dsimp only; with_reducible refine Kept.elim ?_)
    | (refine CoreKept.intro ?_; dsimp only; with_reducible refine CoreKept.elim ?_) | exact CoreKept.reset | intro _
    | with_reducible refine Kept.of_fst ‹_› ?_ | with_reducible refine Kept.of_snd ‹_› ?_
    | with_reducible refine Kept.of_trd ‹_› ?_ | with_reducible refine CoreKept.of_fst ‹_› ?_
    | with_reducible refine CoreKept.of_snd ‹_› ?_ | dsimp only

theorem State.beginWrites_kept {s : State} {p : Nat} {core : Nat} {w : WordCtx} {op : QOp} {l : List Piece} (h0 : Kept kq kn s) : Kept kq kn (State.beginWrites s p core w op l) := by
  unfold State.beginWrites
  try dsimp only
  repeat' first
    | with_reducible assumption | with_reducible apply State.setCore_kept | with_reducible apply CoreState.dequeue_kept
    | with_reducible apply State.runExec_kept | with_reducible apply OutKept.next | with_reducible apply OutKept.fault
    | with_reducible apply Kept.core (q := kq) (n := kn)
    | (refine Kept.intro ?_; dsimp only; with_reducible refine Kept.elim ?_)
    | (refine CoreKept.intro ?_; dsimp only; with_reducible refine CoreKept.elim ?_) | exact CoreKept.reset | intro _
    | dsimp only

end Sys2Proof.Machine
end

