-- ==== Sys2Proof/Laws/KeptArray.lean ====
section
/-! SUPPORT. What the operations of Machine/Array.lean keep (Laws/Kept.lean). -/

namespace Sys2Proof.Machine

variable {kq : List Instr} {kn : Nat}

theorem CoreState.fillSegment_kept {geo : Nat × Nat} {c : CoreState} {r : Nat} {k : Nat} (h0 : CoreKept c) : CoreKept (CoreState.fillSegment geo c r k) := by
  unfold CoreState.fillSegment
  try dsimp only
  repeat' first
    | with_reducible assumption | with_reducible apply OutKept.next | with_reducible apply OutKept.fault
    | with_reducible apply Kept.core (q := kq) (n := kn) | split
    | (refine Kept.intro ?_; dsimp only; with_reducible refine Kept.elim ?_)
    | (refine CoreKept.intro ?_; dsimp only; with_reducible refine CoreKept.elim ?_) | exact CoreKept.reset | intro _
    | with_reducible refine Kept.of_fst ‹_› ?_ | with_reducible refine Kept.of_snd ‹_› ?_
    | with_reducible refine Kept.of_trd ‹_› ?_ | with_reducible refine CoreKept.of_fst ‹_› ?_
    | with_reducible refine CoreKept.of_snd ‹_› ?_ | dsimp only

theorem CoreState.fillShadow_kept {geo : Nat × Nat} {c : CoreState} (h0 : CoreKept c) : CoreKept (CoreState.fillShadow geo c) := by
  unfold CoreState.fillShadow
  try dsimp only
  repeat' first
    | with_reducible assumption | with_reducible apply CoreState.fillSegment_kept | with_reducible apply OutKept.next
    | with_reducible apply OutKept.fault | with_reducible apply Kept.foldl | with_reducible apply Kept.foldl_fst
    | with_reducible apply CoreKept.foldl | with_reducible apply CoreKept.foldl_fst | with_reducible apply Kept.foldl_snd
    | with_reducible apply CoreKept.foldl_snd | with_reducible apply Kept.core (q := kq) (n := kn) | split
    | (refine Kept.intro ?_; dsimp only; with_reducible refine Kept.elim ?_)
    | (refine CoreKept.intro ?_; dsimp only; with_reducible refine CoreKept.elim ?_) | exact CoreKept.reset | intro _
    | with_reducible refine Kept.of_fst ‹_› ?_ | with_reducible refine Kept.of_snd ‹_› ?_
    | with_reducible refine Kept.of_trd ‹_› ?_ | with_reducible refine CoreKept.of_fst ‹_› ?_
    | with_reducible refine CoreKept.of_snd ‹_› ?_ | dsimp only

theorem CoreState.holdBlocks_kept {c : CoreState} {a : PassArgs} {b : Nat} {t : Nat} {new : List SideBlock} (h0 : CoreKept c) : CoreKept (CoreState.holdBlocks c a b t new) := by
  unfold CoreState.holdBlocks
  try dsimp only
  repeat' first
    | with_reducible assumption | with_reducible apply OutKept.next | with_reducible apply OutKept.fault
    | with_reducible apply Kept.core (q := kq) (n := kn) | split
    | (refine Kept.intro ?_; dsimp only; with_reducible refine Kept.elim ?_)
    | (refine CoreKept.intro ?_; dsimp only; with_reducible refine CoreKept.elim ?_) | exact CoreKept.reset | intro _
    | dsimp only

theorem CoreState.dropPass_kept {c : CoreState} {n : Nat} {w : WordCtx} (h0 : CoreKept c) : CoreKept (CoreState.dropPass c n w) := by
  unfold CoreState.dropPass
  try dsimp only
  repeat' first
    | with_reducible assumption | split | (refine Kept.intro ?_; dsimp only; with_reducible refine Kept.elim ?_)
    | (refine CoreKept.intro ?_; dsimp only; with_reducible refine CoreKept.elim ?_) | intro _ | dsimp only

theorem CoreState.dropBehind_kept {c : CoreState} {n : Nat} (h0 : CoreKept c) : CoreKept (CoreState.dropBehind c n) := by
  unfold CoreState.dropBehind
  try dsimp only
  repeat' first
    | with_reducible assumption | (refine Kept.intro ?_; dsimp only; with_reducible refine Kept.elim ?_)
    | (refine CoreKept.intro ?_; dsimp only; with_reducible refine CoreKept.elim ?_) | dsimp only

theorem CoreState.rowStall_kept {c : CoreState} (h0 : CoreKept c) : CoreKept (CoreState.rowStall c) := by
  unfold CoreState.rowStall
  try dsimp only
  repeat' first
    | with_reducible assumption | with_reducible apply CoreState.bump_kept | with_reducible apply CoreState.once_kept
    | with_reducible apply State.bump_kept | with_reducible apply OutKept.next | with_reducible apply OutKept.fault
    | with_reducible apply Kept.core (q := kq) (n := kn)
    | (refine Kept.intro ?_; dsimp only; with_reducible refine Kept.elim ?_)
    | (refine CoreKept.intro ?_; dsimp only; with_reducible refine CoreKept.elim ?_) | exact CoreKept.reset | intro _
    | dsimp only

theorem CoreState.colStall_kept {c : CoreState} (h0 : CoreKept c) : CoreKept (CoreState.colStall c) := by
  unfold CoreState.colStall
  try dsimp only
  repeat' first
    | with_reducible assumption | with_reducible apply CoreState.bump_kept | with_reducible apply CoreState.once_kept
    | with_reducible apply State.bump_kept | with_reducible apply OutKept.next | with_reducible apply OutKept.fault
    | with_reducible apply Kept.core (q := kq) (n := kn)
    | (refine Kept.intro ?_; dsimp only; with_reducible refine Kept.elim ?_)
    | (refine CoreKept.intro ?_; dsimp only; with_reducible refine CoreKept.elim ?_) | exact CoreKept.reset | intro _
    | dsimp only

theorem CoreState.setTile_kept {c : CoreState} {n : Nat} {t : Tile} (h0 : CoreKept c) : CoreKept (CoreState.setTile c n t) := by
  unfold CoreState.setTile
  try dsimp only
  repeat' first
    | with_reducible assumption | with_reducible apply OutKept.next | with_reducible apply OutKept.fault
    | with_reducible apply Kept.core (q := kq) (n := kn)
    | (refine Kept.intro ?_; dsimp only; with_reducible refine Kept.elim ?_)
    | (refine CoreKept.intro ?_; dsimp only; with_reducible refine CoreKept.elim ?_) | exact CoreKept.reset | intro _
    | dsimp only

theorem State.inletRead_kept {s : State} {p : Nat} {n : Nat} {port : Port} {want : Tile → Bool} {chunks : CoreState → Tile → List Nat} {take : Tile → CoreState → CoreState} (h0 : Kept kq kn s) (h1 : ∀ y0 y1, CoreKept y1 → CoreKept (take y0 y1)) : Kept kq kn (State.inletRead s p n port want chunks take) := by
  unfold State.inletRead
  try dsimp only
  repeat' first
    | with_reducible assumption | with_reducible apply h1 | with_reducible apply State.setCore_kept
    | with_reducible apply State.modCore_kept | with_reducible apply CoreState.faultWord_kept
    | with_reducible apply State.portRead_kept | with_reducible apply CoreState.waitSlot_kept
    | with_reducible apply CoreState.fillShadow_kept | with_reducible apply CoreState.dropPass_kept
    | with_reducible apply CoreState.rowStall_kept | with_reducible apply OutKept.next | with_reducible apply OutKept.fault
    | with_reducible apply Kept.core (q := kq) (n := kn) | split
    | (refine Kept.intro ?_; dsimp only; with_reducible refine Kept.elim ?_)
    | (refine CoreKept.intro ?_; dsimp only; with_reducible refine CoreKept.elim ?_) | exact CoreKept.reset | intro _
    | with_reducible refine Kept.of_fst ‹_› ?_ | with_reducible refine Kept.of_snd ‹_› ?_
    | with_reducible refine Kept.of_trd ‹_› ?_ | with_reducible refine CoreKept.of_fst ‹_› ?_
    | with_reducible refine CoreKept.of_snd ‹_› ?_ | dsimp only

theorem State.readSide_kept {s : State} {p : Nat} {n : Nat} (h0 : Kept kq kn s) : Kept kq kn (State.readSide s p n) := by
  unfold State.readSide
  try dsimp only
  repeat' first
    | with_reducible assumption | with_reducible apply CoreState.holdBlocks_kept | with_reducible apply CoreState.setTile_kept
    | with_reducible apply State.inletRead_kept | with_reducible apply OutKept.next | with_reducible apply OutKept.fault
    | with_reducible apply Kept.core (q := kq) (n := kn) | split
    | (refine Kept.intro ?_; dsimp only; with_reducible refine Kept.elim ?_)
    | (refine CoreKept.intro ?_; dsimp only; with_reducible refine CoreKept.elim ?_) | exact CoreKept.reset | intro _
    | dsimp only

theorem State.decoderRan_kept {s : State} {p : Nat} {n : Nat} {ext : Nat} {t : Tile} {use : Config.StrandUse} (h0 : Kept kq kn s) : Kept kq kn (State.decoderRan s p n ext t use) := by
  unfold State.decoderRan
  try dsimp only
  repeat' first
    | with_reducible assumption | with_reducible apply State.modCore_kept | with_reducible apply CoreState.faultWord_kept
    | with_reducible apply State.strandRan_kept | with_reducible apply CoreState.strandBreach_kept
    | with_reducible apply CoreState.dropPass_kept | with_reducible apply OutKept.next | with_reducible apply OutKept.fault
    | with_reducible apply Kept.core (q := kq) (n := kn) | split
    | (refine Kept.intro ?_; dsimp only; with_reducible refine Kept.elim ?_)
    | (refine CoreKept.intro ?_; dsimp only; with_reducible refine CoreKept.elim ?_) | exact CoreKept.reset | intro _
    | dsimp only

theorem State.readPart_kept {s : State} {p : Nat} {n : Nat} {k : Nat} (h0 : Kept kq kn s) : Kept kq kn (State.readPart s p n k) := by
  unfold State.readPart
  try dsimp only
  repeat' first
    | with_reducible assumption | with_reducible apply CoreState.setTile_kept | with_reducible apply State.inletRead_kept
    | with_reducible apply State.decoderRan_kept | with_reducible apply OutKept.next | with_reducible apply OutKept.fault
    | with_reducible apply Kept.core (q := kq) (n := kn) | split
    | (refine Kept.intro ?_; dsimp only; with_reducible refine Kept.elim ?_)
    | (refine CoreKept.intro ?_; dsimp only; with_reducible refine CoreKept.elim ?_) | exact CoreKept.reset | intro _
    | with_reducible refine Kept.of_fst ‹_› ?_ | with_reducible refine Kept.of_snd ‹_› ?_
    | with_reducible refine Kept.of_trd ‹_› ?_ | with_reducible refine CoreKept.of_fst ‹_› ?_
    | with_reducible refine CoreKept.of_snd ‹_› ?_ | dsimp only

theorem State.readSlices_kept {s : State} {p : Nat} {n : Nat} (h0 : Kept kq kn s) : Kept kq kn (State.readSlices s p n) := by
  unfold State.readSlices
  try dsimp only
  repeat' first
    | with_reducible assumption | with_reducible apply CoreState.setTile_kept | with_reducible apply State.inletRead_kept
    | with_reducible apply State.decoderRan_kept | with_reducible apply OutKept.next | with_reducible apply OutKept.fault
    | with_reducible apply Kept.core (q := kq) (n := kn) | split
    | (refine Kept.intro ?_; dsimp only; with_reducible refine Kept.elim ?_)
    | (refine CoreKept.intro ?_; dsimp only; with_reducible refine CoreKept.elim ?_) | exact CoreKept.reset | intro _
    | with_reducible refine Kept.of_fst ‹_› ?_ | with_reducible refine Kept.of_snd ‹_› ?_
    | with_reducible refine Kept.of_trd ‹_› ?_ | with_reducible refine CoreKept.of_fst ‹_› ?_
    | with_reducible refine CoreKept.of_snd ‹_› ?_ | dsimp only

theorem State.tryDeliver_kept {s : State} {p : Nat} {n : Nat} (h0 : Kept kq kn s) : Kept kq kn (State.tryDeliver s p n) := by
  unfold State.tryDeliver
  try dsimp only
  repeat' first
    | with_reducible assumption | with_reducible apply State.readSide_kept | with_reducible apply State.readPart_kept
    | with_reducible apply State.readSlices_kept | with_reducible apply OutKept.next | with_reducible apply OutKept.fault
    | with_reducible apply Kept.foldl | with_reducible apply Kept.foldl_fst | with_reducible apply CoreKept.foldl
    | with_reducible apply CoreKept.foldl_fst | with_reducible apply Kept.foldl_snd | with_reducible apply CoreKept.foldl_snd
    | with_reducible apply Kept.core (q := kq) (n := kn)
    | (refine Kept.intro ?_; dsimp only; with_reducible refine Kept.elim ?_)
    | (refine CoreKept.intro ?_; dsimp only; with_reducible refine CoreKept.elim ?_) | exact CoreKept.reset | intro _
    | dsimp only

theorem State.inletHold_kept {s : State} {p : Nat} {core : Nat} {a : PassArgs} {b : Nat} {t : Nat} (h0 : Kept kq kn s) : Kept kq kn (State.inletHold s p core a b t).1 := by
  unfold State.inletHold
  try dsimp only
  repeat' first
    | with_reducible assumption | with_reducible apply State.perturb_kept | with_reducible apply OutKept.next
    | with_reducible apply OutKept.fault | with_reducible apply Kept.core (q := kq) (n := kn) | split
    | (refine Kept.intro ?_; dsimp only; with_reducible refine Kept.elim ?_)
    | (refine CoreKept.intro ?_; dsimp only; with_reducible refine CoreKept.elim ?_) | exact CoreKept.reset | intro _
    | dsimp only

theorem execTileIssue_kept {core : Nat} {s : State} (h0 : Kept kq kn s) : OutKept kq kn (execTileIssue core s) := by
  unfold execTileIssue
  try dsimp only
  repeat' first
    | with_reducible assumption | with_reducible apply State.setCore_kept | with_reducible apply State.modCore_kept
    | with_reducible apply CoreState.faultWord_kept | with_reducible apply CoreState.unwait_kept
    | with_reducible apply CoreState.rowStall_kept | with_reducible apply State.tryDeliver_kept
    | with_reducible apply State.inletHold_kept | with_reducible apply onLive_kept | with_reducible apply OutKept.next
    | with_reducible apply OutKept.fault | with_reducible apply Kept.foldl | with_reducible apply Kept.foldl_fst
    | with_reducible apply CoreKept.foldl | with_reducible apply CoreKept.foldl_fst | with_reducible apply Kept.foldl_snd
    | with_reducible apply CoreKept.foldl_snd | with_reducible apply Kept.core (q := kq) (n := kn) | split
    | (refine Kept.intro ?_; dsimp only; with_reducible refine Kept.elim ?_)
    | (refine CoreKept.intro ?_; dsimp only; with_reducible refine CoreKept.elim ?_) | exact CoreKept.reset | intro _
    | with_reducible refine Kept.of_fst ‹_› ?_ | with_reducible refine Kept.of_snd ‹_› ?_
    | with_reducible refine Kept.of_trd ‹_› ?_ | with_reducible refine CoreKept.of_fst ‹_› ?_
    | with_reducible refine CoreKept.of_snd ‹_› ?_ | dsimp only

theorem execPass_kept {core : Nat} {w : WordCtx} {a : PassArgs} {s : State} (h0 : Kept kq kn s) : OutKept kq kn (execPass core w a s) := by
  unfold execPass
  try dsimp only
  repeat' first
    | with_reducible assumption | with_reducible apply State.setCore_kept | with_reducible apply CoreState.begin_kept
    | with_reducible apply State.startOp_kept | with_reducible apply onLive_kept | with_reducible apply OutKept.next
    | with_reducible apply OutKept.fault | with_reducible apply Kept.core (q := kq) (n := kn) | split
    | (refine Kept.intro ?_; dsimp only; with_reducible refine Kept.elim ?_)
    | (refine CoreKept.intro ?_; dsimp only; with_reducible refine CoreKept.elim ?_) | exact CoreKept.reset | intro _
    | dsimp only

theorem CoreState.swapSegment_kept {geo : Nat × Nat} {k : CoreState} {r : Nat} {c : Nat} {n : Nat} {t : Tile} (h0 : CoreKept k) : CoreKept (CoreState.swapSegment geo k r c n t) := by
  unfold CoreState.swapSegment
  try dsimp only
  repeat' first
    | with_reducible assumption | with_reducible apply CoreState.fillSegment_kept | with_reducible apply OutKept.next
    | with_reducible apply OutKept.fault | with_reducible apply Kept.core (q := kq) (n := kn) | split
    | (refine Kept.intro ?_; dsimp only; with_reducible refine Kept.elim ?_)
    | (refine CoreKept.intro ?_; dsimp only; with_reducible refine CoreKept.elim ?_) | exact CoreKept.reset | intro _
    | dsimp only

theorem execSegmentSwap_kept {core : Nat} {r : Nat} {c : Nat} {s : State} (h0 : Kept kq kn s) : OutKept kq kn (execSegmentSwap core r c s) := by
  unfold execSegmentSwap
  try dsimp only
  repeat' first
    | with_reducible assumption | with_reducible apply State.setCore_kept | with_reducible apply CoreState.rowStall_kept
    | with_reducible apply CoreState.colStall_kept | with_reducible apply CoreState.swapSegment_kept
    | with_reducible apply onLive_kept | with_reducible apply OutKept.next | with_reducible apply OutKept.fault
    | with_reducible apply Kept.core (q := kq) (n := kn) | split
    | (refine Kept.intro ?_; dsimp only; with_reducible refine Kept.elim ?_)
    | (refine CoreKept.intro ?_; dsimp only; with_reducible refine CoreKept.elim ?_) | exact CoreKept.reset | intro _
    | with_reducible refine Kept.of_fst ‹_› ?_ | with_reducible refine Kept.of_snd ‹_› ?_
    | with_reducible refine Kept.of_trd ‹_› ?_ | with_reducible refine CoreKept.of_fst ‹_› ?_
    | with_reducible refine CoreKept.of_snd ‹_› ?_ | dsimp only

theorem CoreState.unswap_kept {geo : Nat × Nat} {c : CoreState} {t : Tile} (h0 : CoreKept c) : CoreKept (CoreState.unswap geo c t) := by
  unfold CoreState.unswap
  try dsimp only
  repeat' first
    | with_reducible assumption | with_reducible apply OutKept.next | with_reducible apply OutKept.fault
    | with_reducible apply Kept.foldl | with_reducible apply Kept.foldl_fst | with_reducible apply CoreKept.foldl
    | with_reducible apply CoreKept.foldl_fst | with_reducible apply Kept.foldl_snd | with_reducible apply CoreKept.foldl_snd
    | with_reducible apply Kept.core (q := kq) (n := kn) | split
    | (refine Kept.intro ?_; dsimp only; with_reducible refine Kept.elim ?_)
    | (refine CoreKept.intro ?_; dsimp only; with_reducible refine CoreKept.elim ?_) | exact CoreKept.reset | intro _
    | with_reducible refine Kept.of_fst ‹_› ?_ | with_reducible refine Kept.of_snd ‹_› ?_
    | with_reducible refine Kept.of_trd ‹_› ?_ | with_reducible refine CoreKept.of_fst ‹_› ?_
    | with_reducible refine CoreKept.of_snd ‹_› ?_ | dsimp only

theorem CoreState.mismatch_kept {geo : Nat × Nat} {c : CoreState} {now : Nat} {stepAt : Option Nat} {n : Nat} {t : Tile} {col : Nat} (h0 : CoreKept c) : CoreKept (CoreState.mismatch geo c now stepAt n t col) := by
  unfold CoreState.mismatch
  try dsimp only
  repeat' first
    | with_reducible assumption | with_reducible apply CoreState.put_kept | with_reducible apply CoreState.bump_kept
    | with_reducible apply State.put_kept | with_reducible apply State.bump_kept | with_reducible apply CoreState.hwFault_kept
    | with_reducible apply CoreState.dropBehind_kept | with_reducible apply CoreState.unswap_kept
    | with_reducible apply OutKept.next | with_reducible apply OutKept.fault
    | with_reducible apply Kept.core (q := kq) (n := kn) | split
    | (refine Kept.intro ?_; dsimp only; with_reducible refine Kept.elim ?_)
    | (refine CoreKept.intro ?_; dsimp only; with_reducible refine CoreKept.elim ?_) | exact CoreKept.reset | intro _
    | dsimp only

theorem execResidueCheck_kept {core : Nat} {seg : Nat} {mismatch : Option Nat} {s : State} (h0 : Kept kq kn s) : OutKept kq kn (execResidueCheck core seg mismatch s) := by
  unfold execResidueCheck
  try dsimp only
  repeat' first
    | with_reducible assumption | with_reducible apply State.setCore_kept | with_reducible apply CoreState.mismatch_kept
    | with_reducible apply onLive_kept | with_reducible apply OutKept.next | with_reducible apply OutKept.fault
    | with_reducible apply Kept.core (q := kq) (n := kn) | split
    | (refine Kept.intro ?_; dsimp only; with_reducible refine Kept.elim ?_)
    | (refine CoreKept.intro ?_; dsimp only; with_reducible refine CoreKept.elim ?_) | exact CoreKept.reset | intro _
    | with_reducible refine Kept.of_fst ‹_› ?_ | with_reducible refine Kept.of_snd ‹_› ?_
    | with_reducible refine Kept.of_trd ‹_› ?_ | with_reducible refine CoreKept.of_fst ‹_› ?_
    | with_reducible refine CoreKept.of_snd ‹_› ?_ | dsimp only

theorem CoreState.commitWord_kept {c : CoreState} {x : Nat × AccWord × Bool} (h0 : CoreKept c) : CoreKept (CoreState.commitWord c x) := by
  unfold CoreState.commitWord
  try dsimp only
  repeat' first
    | with_reducible assumption | with_reducible apply CoreState.arrFlags_kept | split
    | (refine Kept.intro ?_; dsimp only; with_reducible refine Kept.elim ?_)
    | (refine CoreKept.intro ?_; dsimp only; with_reducible refine CoreKept.elim ?_) | exact CoreKept.reset | dsimp only

theorem CoreState.commitWords_kept {c : CoreState} {l : List (Nat × AccWord × Bool)} (h0 : CoreKept c) : CoreKept (CoreState.commitWords c l) := by
  unfold CoreState.commitWords
  try dsimp only
  repeat' first
    | with_reducible assumption | with_reducible apply CoreState.commitWord_kept | with_reducible apply Kept.foldl
    | with_reducible apply Kept.foldl_fst | with_reducible apply CoreKept.foldl | intro _ | dsimp only

theorem CoreState.runCommits_kept {geo : Nat × Nat} {l : List Commit} {c : CoreState} (h0 : CoreKept c) : CoreKept (CoreState.runCommits geo l c) := by
  induction l generalizing geo c with
  | nil =>
    unfold CoreState.runCommits
    try dsimp only
    repeat' first
      | with_reducible assumption | with_reducible apply CoreState.commitWords_kept | with_reducible apply OutKept.next
      | with_reducible apply OutKept.fault | with_reducible apply Kept.core (q := kq) (n := kn) | split
      | (refine Kept.intro ?_; dsimp only; with_reducible refine Kept.elim ?_)
      | (refine CoreKept.intro ?_; dsimp only; with_reducible refine CoreKept.elim ?_) | exact CoreKept.reset | intro _
      | with_reducible refine Kept.of_fst ‹_› ?_ | with_reducible refine Kept.of_snd ‹_› ?_
      | with_reducible refine Kept.of_trd ‹_› ?_ | with_reducible refine CoreKept.of_fst ‹_› ?_
      | with_reducible refine CoreKept.of_snd ‹_› ?_ | dsimp only
  | cons z zs ih =>
    unfold CoreState.runCommits
    try dsimp only
    repeat' first
      | with_reducible assumption | with_reducible apply ih | with_reducible apply CoreState.commitWords_kept
      | with_reducible apply OutKept.next | with_reducible apply OutKept.fault
      | with_reducible apply Kept.core (q := kq) (n := kn) | split
      | (refine Kept.intro ?_; dsimp only; with_reducible refine Kept.elim ?_)
      | (refine CoreKept.intro ?_; dsimp only; with_reducible refine CoreKept.elim ?_) | exact CoreKept.reset | intro _
      | with_reducible refine Kept.of_fst ‹_› ?_ | with_reducible refine Kept.of_snd ‹_› ?_
      | with_reducible refine Kept.of_trd ‹_› ?_ | with_reducible refine CoreKept.of_fst ‹_› ?_
      | with_reducible refine CoreKept.of_snd ‹_› ?_ | dsimp only

theorem CoreState.retryCommits_kept {geo : Nat × Nat} {c : CoreState} (h0 : CoreKept c) : CoreKept (CoreState.retryCommits geo c) := by
  unfold CoreState.retryCommits
  try dsimp only
  repeat' first
    | with_reducible assumption | with_reducible apply CoreState.runCommits_kept | with_reducible apply OutKept.next
    | with_reducible apply OutKept.fault | with_reducible apply Kept.core (q := kq) (n := kn)
    | (refine Kept.intro ?_; dsimp only; with_reducible refine Kept.elim ?_)
    | (refine CoreKept.intro ?_; dsimp only; with_reducible refine CoreKept.elim ?_) | exact CoreKept.reset | intro _
    | dsimp only

theorem execTileCommit_kept {core : Nat} {s : State} (h0 : Kept kq kn s) : OutKept kq kn (execTileCommit core s) := by
  unfold execTileCommit
  try dsimp only
  repeat' first
    | with_reducible assumption | with_reducible apply State.setCore_kept | with_reducible apply CoreState.wrap_kept
    | with_reducible apply State.wrap_kept | with_reducible apply CoreState.colStall_kept
    | with_reducible apply CoreState.runCommits_kept | with_reducible apply CoreState.retryCommits_kept
    | with_reducible apply onLive_kept | with_reducible apply OutKept.next | with_reducible apply OutKept.fault
    | with_reducible apply Kept.core (q := kq) (n := kn) | split
    | (refine Kept.intro ?_; dsimp only; with_reducible refine Kept.elim ?_)
    | (refine CoreKept.intro ?_; dsimp only; with_reducible refine CoreKept.elim ?_) | exact CoreKept.reset | intro _
    | with_reducible refine Kept.of_fst ‹_› ?_ | with_reducible refine Kept.of_snd ‹_› ?_
    | with_reducible refine Kept.of_trd ‹_› ?_ | with_reducible refine CoreKept.of_fst ‹_› ?_
    | with_reducible refine CoreKept.of_snd ‹_› ?_ | dsimp only

end Sys2Proof.Machine
end

