-- ==== Sys2Proof/Laws/KeptEstuary.lean ====
section
/-! SUPPORT. What the operations of Machine/Estuary.lean keep (Laws/Kept.lean). -/

namespace Sys2Proof.Machine

variable {kq : List Instr} {kn : Nat}

theorem CoreState.setParam_kept {c : CoreState} {set : Nat} {byte : Nat} {bs : List Byte} (h0 : CoreKept c) : CoreKept (CoreState.setParam c set byte bs) := by
  unfold CoreState.setParam
  try dsimp only
  repeat' first
    | with_reducible assumption | (refine Kept.intro ?_; dsimp only; with_reducible refine Kept.elim ?_)
    | (refine CoreKept.intro ?_; dsimp only; with_reducible refine CoreKept.elim ?_)
    | (refine CoreKept.intro ?_; dsimp only; with_reducible refine CoreKept.params_write ?_) | dsimp only

theorem CoreState.setWait_kept {c : CoreState} (h0 : CoreKept c) : CoreKept (CoreState.setWait c) := by
  unfold CoreState.setWait
  try dsimp only
  repeat' first
    | with_reducible assumption | with_reducible apply CoreState.bump_kept | with_reducible apply CoreState.once_kept
    | with_reducible apply State.bump_kept | with_reducible apply OutKept.next | with_reducible apply OutKept.fault
    | with_reducible apply Kept.core (q := kq) (n := kn)
    | (refine Kept.intro ?_; dsimp only; with_reducible refine Kept.elim ?_)
    | (refine CoreKept.intro ?_; dsimp only; with_reducible refine CoreKept.elim ?_) | exact CoreKept.reset | intro _
    | dsimp only

theorem execParam_kept {core : Nat} {w : WordCtx} {a : ParamArgs} {s : State} (h0 : Kept kq kn s) : OutKept kq kn (execParam core w a s) := by
  unfold execParam
  try dsimp only
  repeat' first
    | with_reducible assumption | with_reducible apply State.setCore_kept | with_reducible apply State.modCore_kept
    | with_reducible apply CoreState.begin_kept | with_reducible apply State.startOp_kept
    | with_reducible apply State.readingOp_kept | with_reducible apply CoreState.setParam_kept
    | with_reducible apply CoreState.setWait_kept | with_reducible apply onLive_kept | with_reducible apply OutKept.next
    | with_reducible apply OutKept.fault | with_reducible apply Kept.foldl | with_reducible apply Kept.foldl_fst
    | with_reducible apply CoreKept.foldl | with_reducible apply CoreKept.foldl_fst | with_reducible apply Kept.foldl_snd
    | with_reducible apply CoreKept.foldl_snd | with_reducible apply Kept.core (q := kq) (n := kn) | split
    | (refine Kept.intro ?_; dsimp only; with_reducible refine Kept.elim ?_)
    | (refine CoreKept.intro ?_; dsimp only; with_reducible refine CoreKept.elim ?_) | exact CoreKept.reset | intro _
    | dsimp only

theorem State.drainRun_kept {s : State} {p : Nat} {core : Nat} {w : WordCtx} {a : DrainArgs} {xs : List Nat} (h0 : Kept kq kn s) : Kept kq kn (State.drainRun s p core w a xs) := by
  unfold State.drainRun
  try dsimp only
  repeat' first
    | with_reducible assumption | with_reducible apply State.setCore_kept | with_reducible apply CoreState.estFlags_kept
    | with_reducible apply State.beginWrites_kept | with_reducible apply OutKept.next | with_reducible apply OutKept.fault
    | with_reducible apply Kept.core (q := kq) (n := kn) | split
    | (refine Kept.intro ?_; dsimp only; with_reducible refine Kept.elim ?_)
    | (refine CoreKept.intro ?_; dsimp only; with_reducible refine CoreKept.elim ?_) | exact CoreKept.reset | intro _
    | dsimp only

theorem State.drainEnds_kept {s : State} {p : Nat} {core : Nat} {d : DrainRun} (h0 : Kept kq kn s) : Kept kq kn (State.drainEnds s p core d) := by
  unfold State.drainEnds
  try dsimp only
  repeat' first
    | with_reducible assumption | with_reducible apply State.modCore_kept | with_reducible apply CoreState.faultWord_kept
    | with_reducible apply State.strandRan_kept | with_reducible apply CoreState.strandBreach_kept
    | with_reducible apply CoreState.abandon_kept | with_reducible apply State.drainRun_kept
    | with_reducible apply OutKept.next | with_reducible apply OutKept.fault | with_reducible apply Kept.foldl
    | with_reducible apply Kept.foldl_fst | with_reducible apply CoreKept.foldl | with_reducible apply CoreKept.foldl_fst
    | with_reducible apply Kept.foldl_snd | with_reducible apply CoreKept.foldl_snd
    | with_reducible apply Kept.core (q := kq) (n := kn) | split
    | (refine Kept.intro ?_; dsimp only; with_reducible refine Kept.elim ?_)
    | (refine CoreKept.intro ?_; dsimp only; with_reducible refine CoreKept.elim ?_) | exact CoreKept.reset | intro _
    | with_reducible refine Kept.of_fst ‹_› ?_ | with_reducible refine Kept.of_snd ‹_› ?_
    | with_reducible refine Kept.of_trd ‹_› ?_ | with_reducible refine CoreKept.of_fst ‹_› ?_
    | with_reducible refine CoreKept.of_snd ‹_› ?_ | dsimp only

theorem State.drainReads_kept {s : State} {p : Nat} {core : Nat} {d : DrainRun} (h0 : Kept kq kn s) : Kept kq kn (State.drainReads s p core d) := by
  unfold State.drainReads
  try dsimp only
  repeat' first
    | with_reducible assumption | with_reducible apply State.setCore_kept | with_reducible apply CoreState.start_kept
    | with_reducible apply CoreState.retryCommits_kept | with_reducible apply State.drainEnds_kept
    | with_reducible apply OutKept.next | with_reducible apply OutKept.fault
    | with_reducible apply Kept.core (q := kq) (n := kn) | split
    | (refine Kept.intro ?_; dsimp only; with_reducible refine Kept.elim ?_)
    | (refine CoreKept.intro ?_; dsimp only; with_reducible refine CoreKept.elim ?_) | exact CoreKept.reset | intro _
    | dsimp only

theorem execDrain_kept {core : Nat} {w : WordCtx} {a : DrainArgs} {s : State} (h0 : Kept kq kn s) : OutKept kq kn (execDrain core w a s) := by
  unfold execDrain
  try dsimp only
  repeat' first
    | with_reducible assumption | with_reducible apply State.setCore_kept | with_reducible apply State.startOp_kept
    | with_reducible apply State.readingOp_kept | with_reducible apply State.beginWrites_kept
    | with_reducible apply CoreState.setWait_kept | with_reducible apply State.drainReads_kept
    | with_reducible apply onLive_kept | with_reducible apply OutKept.next | with_reducible apply OutKept.fault
    | with_reducible apply Kept.core (q := kq) (n := kn) | split
    | (refine Kept.intro ?_; dsimp only; with_reducible refine Kept.elim ?_)
    | (refine CoreKept.intro ?_; dsimp only; with_reducible refine CoreKept.elim ?_) | exact CoreKept.reset | intro _
    | with_reducible refine Kept.of_fst ‹_› ?_ | with_reducible refine Kept.of_snd ‹_› ?_
    | with_reducible refine Kept.of_trd ‹_› ?_ | with_reducible refine CoreKept.of_fst ‹_› ?_
    | with_reducible refine CoreKept.of_snd ‹_› ?_ | dsimp only

theorem execSoftmaxRecord_kept {core : Nat} {s : State} (h0 : Kept kq kn s) : OutKept kq kn (execSoftmaxRecord core s) := by
  unfold execSoftmaxRecord
  try dsimp only
  repeat' first
    | with_reducible assumption | with_reducible apply CoreState.setParam_kept | with_reducible apply State.setCore_kept
    | with_reducible apply onLive_kept | with_reducible apply OutKept.next | with_reducible apply OutKept.fault
    | with_reducible apply Kept.core (q := kq) (n := kn) | split
    | (refine Kept.intro ?_; dsimp only; with_reducible refine Kept.elim ?_)
    | (refine CoreKept.intro ?_; dsimp only; with_reducible refine CoreKept.elim ?_) | intro _ | dsimp only

end Sys2Proof.Machine
end

