-- ==== Sys2Proof/Laws/KeptLoadStore.lean ====
section
/-! SUPPORT. What the operations of Machine/LoadStore.lean keep (Laws/Kept.lean). -/

namespace Sys2Proof.Machine

variable {kq : List Instr} {kn : Nat}

theorem execVload_kept {core : Nat} {w : WordCtx} {a : MoveArgs} {s : State} (h0 : Kept kq kn s) : OutKept kq kn (execVload core w a s) := by
  unfold execVload
  try dsimp only
  repeat' first
    | with_reducible assumption | with_reducible apply State.modCore_kept | with_reducible apply CoreState.begin_kept
    | with_reducible apply State.startOp_kept | with_reducible apply State.readingOp_kept | with_reducible apply onLive_kept
    | with_reducible apply OutKept.next | with_reducible apply OutKept.fault
    | with_reducible apply Kept.core (q := kq) (n := kn)
    | (refine Kept.intro ?_; dsimp only; with_reducible refine Kept.elim ?_)
    | (refine CoreKept.intro ?_; dsimp only; with_reducible refine CoreKept.elim ?_)
    | (refine CoreKept.intro ?_; dsimp only; with_reducible refine CoreKept.vregs_write ?_) | exact CoreKept.reset | intro _
    | dsimp only

theorem execVstore_kept {core : Nat} {w : WordCtx} {a : MoveArgs} {s : State} (h0 : Kept kq kn s) : OutKept kq kn (execVstore core w a s) := by
  unfold execVstore
  try dsimp only
  repeat' first
    | with_reducible assumption | with_reducible apply State.startOp_kept | with_reducible apply State.beginWrites_kept
    | with_reducible apply onLive_kept | with_reducible apply OutKept.next | with_reducible apply OutKept.fault
    | with_reducible apply Kept.core (q := kq) (n := kn)
    | (refine Kept.intro ?_; dsimp only; with_reducible refine Kept.elim ?_)
    | (refine CoreKept.intro ?_; dsimp only; with_reducible refine CoreKept.elim ?_) | exact CoreKept.reset | intro _
    | dsimp only

theorem execDload_kept {core : Nat} {w : WordCtx} {a : DloadArgs} {s : State} (h0 : Kept kq kn s) : OutKept kq kn (execDload core w a s) := by
  unfold execDload
  try dsimp only
  repeat' first
    | with_reducible assumption | with_reducible apply State.modCore_kept | with_reducible apply CoreState.begin_kept
    | with_reducible apply State.startOp_kept | with_reducible apply State.readingOp_kept | with_reducible apply onLive_kept
    | with_reducible apply OutKept.next | with_reducible apply OutKept.fault | with_reducible apply Kept.foldl
    | with_reducible apply Kept.foldl_fst | with_reducible apply CoreKept.foldl | with_reducible apply CoreKept.foldl_fst
    | with_reducible apply Kept.foldl_snd | with_reducible apply CoreKept.foldl_snd
    | with_reducible apply Kept.core (q := kq) (n := kn)
    | (refine Kept.intro ?_; dsimp only; with_reducible refine Kept.elim ?_)
    | (refine CoreKept.intro ?_; dsimp only; with_reducible refine CoreKept.elim ?_)
    | (refine CoreKept.intro ?_; dsimp only; with_reducible refine CoreKept.desc_set ?_)
    | (refine CoreKept.intro ?_; dsimp only; refine CoreKept.desc_fold (fun m x h => Sparse.wf_set (d := fun _ => 0) _ _ h) ?_)
    | exact CoreKept.reset | intro _ | dsimp only

theorem State.sendReq_kept {s : State} {q : TierReq} {start : Nat} (h0 : Kept kq kn s) : Kept kq kn (State.sendReq s q start) := by
  unfold State.sendReq
  try dsimp only
  repeat' first
    | with_reducible assumption | with_reducible apply OutKept.next | with_reducible apply OutKept.fault
    | with_reducible apply Kept.core (q := kq) (n := kn)
    | (refine Kept.intro ?_; dsimp only; with_reducible refine Kept.elim ?_)
    | (refine CoreKept.intro ?_; dsimp only; with_reducible refine CoreKept.elim ?_) | exact CoreKept.reset | intro _
    | dsimp only

theorem State.queueReqs_kept {s : State} {start : Nat} {l : List (Nat → TierReq)} (h0 : Kept kq kn s) : Kept kq kn (State.queueReqs s start l) := by
  induction l generalizing s start with
  | nil =>
    unfold State.queueReqs
    try dsimp only
    repeat' first
      | with_reducible assumption | with_reducible apply State.sendReq_kept | with_reducible apply OutKept.next
      | with_reducible apply OutKept.fault | with_reducible apply Kept.core (q := kq) (n := kn) | split
      | (refine Kept.intro ?_; dsimp only; with_reducible refine Kept.elim ?_)
      | (refine Kept.intro ?_; dsimp only; with_reducible refine Kept.elim_used _ ?_ ?_)
      | (refine CoreKept.intro ?_; dsimp only; with_reducible refine CoreKept.elim ?_) | exact CoreKept.reset | intro _
      | with_reducible refine Kept.of_fst ‹_› ?_ | with_reducible refine Kept.of_snd ‹_› ?_
      | with_reducible refine Kept.of_trd ‹_› ?_ | with_reducible refine CoreKept.of_fst ‹_› ?_
      | with_reducible refine CoreKept.of_snd ‹_› ?_ | dsimp only
  | cons z zs ih =>
    unfold State.queueReqs
    try dsimp only
    repeat' first
      | with_reducible assumption | with_reducible apply ih | with_reducible apply State.sendReq_kept
      | with_reducible apply OutKept.next | with_reducible apply OutKept.fault
      | with_reducible apply Kept.core (q := kq) (n := kn) | split
      | (refine Kept.intro ?_; dsimp only; with_reducible refine Kept.elim ?_)
      | (refine Kept.intro ?_; dsimp only; with_reducible refine Kept.elim_used _ ?_ ?_)
      | (refine CoreKept.intro ?_; dsimp only; with_reducible refine CoreKept.elim ?_) | exact CoreKept.reset | intro _
      | with_reducible refine Kept.of_fst ‹_› ?_ | with_reducible refine Kept.of_snd ‹_› ?_
      | with_reducible refine Kept.of_trd ‹_› ?_ | with_reducible refine CoreKept.of_fst ‹_› ?_
      | with_reducible refine CoreKept.of_snd ‹_› ?_ | dsimp only

theorem State.dropReqs_kept {s : State} {f : TierReq → Bool} (h0 : Kept kq kn s) : Kept kq kn (State.dropReqs s f) := by
  unfold State.dropReqs
  try dsimp only
  repeat' first
    | with_reducible assumption | with_reducible apply OutKept.next | with_reducible apply OutKept.fault
    | with_reducible apply Kept.core (q := kq) (n := kn)
    | (refine Kept.intro ?_; dsimp only; with_reducible refine Kept.elim ?_)
    | (refine CoreKept.intro ?_; dsimp only; with_reducible refine CoreKept.elim ?_) | exact CoreKept.reset | intro _
    | dsimp only

theorem execTload_kept {core : Nat} {w : WordCtx} {a : TierArgs} {s : State} (h0 : Kept kq kn s) : OutKept kq kn (execTload core w a s) := by
  unfold execTload
  try dsimp only
  repeat' first
    | with_reducible assumption | with_reducible apply State.startOp_kept | with_reducible apply State.beginWrites_kept
    | with_reducible apply State.queueReqs_kept | with_reducible apply onLive_kept | with_reducible apply OutKept.next
    | with_reducible apply OutKept.fault | with_reducible apply Kept.core (q := kq) (n := kn)
    | (refine Kept.intro ?_; dsimp only; with_reducible refine Kept.elim ?_)
    | (refine CoreKept.intro ?_; dsimp only; with_reducible refine CoreKept.elim ?_) | exact CoreKept.reset | intro _
    | dsimp only

theorem execTstore_kept {core : Nat} {w : WordCtx} {a : TierArgs} {s : State} (h0 : Kept kq kn s) : OutKept kq kn (execTstore core w a s) := by
  unfold execTstore
  try dsimp only
  repeat' first
    | with_reducible assumption | with_reducible apply State.setCore_kept | with_reducible apply CoreState.begin_kept
    | with_reducible apply State.startOp_kept | with_reducible apply State.readingOp_kept
    | with_reducible apply State.queueReqs_kept | with_reducible apply onLive_kept | with_reducible apply OutKept.next
    | with_reducible apply OutKept.fault | with_reducible apply Kept.core (q := kq) (n := kn)
    | (refine Kept.intro ?_; dsimp only; with_reducible refine Kept.elim ?_)
    | (refine CoreKept.intro ?_; dsimp only; with_reducible refine CoreKept.elim ?_) | exact CoreKept.reset | intro _
    | dsimp only [id] | dsimp only

theorem execEng_kept {core : Nat} {w : WordCtx} {cmd : Nat} {s : State} (h0 : Kept kq kn s) : OutKept kq kn (execEng core w cmd s) := by
  unfold execEng
  try dsimp only
  repeat' first
    | with_reducible assumption | with_reducible apply State.modCore_kept | with_reducible apply CoreState.rejectLdg_kept
    | with_reducible apply CoreState.dequeue_kept | with_reducible apply State.startOp_kept
    | with_reducible apply State.readingOp_kept | with_reducible apply onLive_kept | with_reducible apply OutKept.next
    | with_reducible apply OutKept.fault | with_reducible apply Kept.core (q := kq) (n := kn) | split
    | (refine Kept.intro ?_; dsimp only; with_reducible refine Kept.elim ?_)
    | (refine CoreKept.intro ?_; dsimp only; with_reducible refine CoreKept.elim ?_) | exact CoreKept.reset | intro _
    | with_reducible refine Kept.of_fst ‹_› ?_ | with_reducible refine Kept.of_snd ‹_› ?_
    | with_reducible refine Kept.of_trd ‹_› ?_ | with_reducible refine CoreKept.of_fst ‹_› ?_
    | with_reducible refine CoreKept.of_snd ‹_› ?_ | dsimp only

theorem CoreState.postRest_kept {c : CoreState} {pr : Producer} {w : WordCtx} {l : List (Nat × Nat)} (h0 : CoreKept c) : CoreKept (CoreState.postRest c pr w l).1 := by
  induction l generalizing c pr w with
  | nil =>
    unfold CoreState.postRest
    try dsimp only
    repeat' first
      | with_reducible assumption | with_reducible apply CoreState.post_kept | with_reducible apply CoreState.claim_kept
      | with_reducible apply OutKept.next | with_reducible apply OutKept.fault
      | with_reducible apply Kept.core (q := kq) (n := kn) | split
      | (refine Kept.intro ?_; dsimp only; with_reducible refine Kept.elim ?_)
      | (refine CoreKept.intro ?_; dsimp only; with_reducible refine CoreKept.elim ?_) | exact CoreKept.reset | intro _
      | with_reducible refine Kept.of_fst ‹_› ?_ | with_reducible refine Kept.of_snd ‹_› ?_
      | with_reducible refine Kept.of_trd ‹_› ?_ | with_reducible refine CoreKept.of_fst ‹_› ?_
      | with_reducible refine CoreKept.of_snd ‹_› ?_ | dsimp only
  | cons z zs ih =>
    unfold CoreState.postRest
    try dsimp only
    repeat' first
      | with_reducible assumption | with_reducible apply ih | with_reducible apply CoreState.post_kept
      | with_reducible apply CoreState.claim_kept | with_reducible apply OutKept.next | with_reducible apply OutKept.fault
      | with_reducible apply Kept.core (q := kq) (n := kn) | split
      | (refine Kept.intro ?_; dsimp only; with_reducible refine Kept.elim ?_)
      | (refine CoreKept.intro ?_; dsimp only; with_reducible refine CoreKept.elim ?_) | exact CoreKept.reset | intro _
      | with_reducible refine Kept.of_fst ‹_› ?_ | with_reducible refine Kept.of_snd ‹_› ?_
      | with_reducible refine Kept.of_trd ‹_› ?_ | with_reducible refine CoreKept.of_fst ‹_› ?_
      | with_reducible refine CoreKept.of_snd ‹_› ?_ | dsimp only

theorem CoreState.countDone_kept {c : CoreState} {op : QOp} (h0 : CoreKept c) : CoreKept (CoreState.countDone c op) := by
  unfold CoreState.countDone
  try dsimp only
  repeat' first
    | with_reducible assumption | with_reducible apply CoreState.wrap_kept | with_reducible apply State.wrap_kept | split
    | dsimp only

/-- The state a completion attempt leaves. -/
def Completion.state (r : Completion) : State :=
  match r with
  | .finished s => s
  | .waiting s => s

theorem State.completeOne_kept {s : State} {p core i : Nat} (h0 : Kept kq kn s) : Kept kq kn (s.completeOne p core i).state := by
  unfold State.completeOne
  dsimp only
  repeat' first
    | with_reducible assumption
    | with_reducible apply State.setCore_kept
    | with_reducible apply CoreState.countDone_kept
    | with_reducible apply CoreState.unwait_kept
    | with_reducible apply CoreState.waitSlot_kept
    | with_reducible apply CoreState.postRest_kept
    | with_reducible apply Kept.core (q := kq) (n := kn)
    | split
    | (refine CoreKept.intro ?_; dsimp only; with_reducible refine CoreKept.elim ?_)
    | dsimp only [Completion.state]

theorem State.completeFrom_kept {s : State} {k p core i : Nat} (h0 : Kept kq kn s) : Kept kq kn (s.completeFrom k p core i) := by
  induction k generalizing s i with
  | zero => exact h0
  | succ k ih =>
    unfold State.completeFrom
    have h := State.completeOne_kept (p := p) (core := core) (i := i) h0
    split
    · next e => rw [e] at h; exact h
    · next e => rw [e] at h; exact ih h

theorem execOperationComplete_kept {core : Nat} {s : State} (h0 : Kept kq kn s) : OutKept kq kn (execOperationComplete core s) := by
  unfold execOperationComplete
  try dsimp only
  repeat' first
    | with_reducible assumption | with_reducible apply State.runExec_kept | with_reducible apply State.completeFrom_kept
    | with_reducible apply onLive_kept | with_reducible apply OutKept.next | with_reducible apply OutKept.fault
    | with_reducible apply Kept.foldl | with_reducible apply Kept.foldl_fst | with_reducible apply CoreKept.foldl
    | with_reducible apply CoreKept.foldl_fst | with_reducible apply Kept.foldl_snd | with_reducible apply CoreKept.foldl_snd
    | with_reducible apply Kept.core (q := kq) (n := kn)
    | (refine Kept.intro ?_; dsimp only; with_reducible refine Kept.elim ?_)
    | (refine CoreKept.intro ?_; dsimp only; with_reducible refine CoreKept.elim ?_) | exact CoreKept.reset | intro _
    | dsimp only

end Sys2Proof.Machine
end

