-- ==== Sys2Proof/Laws/KeptTier.lean ====
section
/-! SUPPORT. What the operations of Machine/Tier.lean keep (Laws/Kept.lean). -/

namespace Sys2Proof.Machine

variable {kq : List Instr} {kn : Nat}

theorem State.tierWrite_kept {s : State} {a : Nat} {bs : List Byte} {marked : List Nat} (h0 : Kept kq kn s) : Kept kq kn (State.tierWrite s a bs marked) := by
  unfold State.tierWrite
  try dsimp only
  repeat' first
    | with_reducible assumption | with_reducible apply Kept.foldl | with_reducible apply Kept.foldl_fst
    | with_reducible apply CoreKept.foldl | split | (refine Kept.intro ?_; dsimp only; with_reducible refine Kept.elim ?_)
    | (refine CoreKept.intro ?_; dsimp only; with_reducible refine CoreKept.elim ?_)
    | (refine Kept.intro ?_; dsimp only; with_reducible refine Kept.tier_write ?_) | intro _ | dsimp only

theorem State.setDeficit_kept {s : State} {key : Nat} {b : Nat} {x : Nat} (h0 : Kept kq kn s) : Kept kq kn (State.setDeficit s key b x) := by
  unfold State.setDeficit
  try dsimp only
  repeat' first
    | with_reducible assumption | (refine Kept.intro ?_; dsimp only; with_reducible refine Kept.elim ?_)
    | (refine CoreKept.intro ?_; dsimp only; with_reducible refine CoreKept.elim ?_) | dsimp only

theorem State.drr_kept {s s1 : State} {k key turn : Nat} {heads : List (Nat × TierReq)} {x : TierReq} (h0 : Kept kq kn s)
    (e : s.drr k key turn heads = some (s1, x)) : Kept kq kn s1 := by
  induction k generalizing s turn with
  | zero => cases e
  | succ k ih =>
    unfold State.drr at e
    split at e
    · cases e
      exact Kept.congr (t := s) rfl rfl rfl rfl rfl rfl rfl h0
    · exact ih (Kept.foldl (fun s x h => State.setDeficit_kept h) h0) e

theorem State.sample_kept {s : State} {q : TierReq} (h0 : Kept kq kn s) : Kept kq kn (State.sample s q).2.2 := by
  unfold State.sample
  try dsimp only
  repeat' first
    | with_reducible assumption | with_reducible apply State.land_kept | with_reducible apply State.tierWrite_kept
    | with_reducible apply Kept.foldl | with_reducible apply Kept.foldl_fst | with_reducible apply CoreKept.foldl
    | with_reducible apply Kept.core (q := kq) (n := kn)
    | (refine Kept.intro ?_; dsimp only; with_reducible refine Kept.elim ?_)
    | (refine Kept.intro ?_; dsimp only; with_reducible refine Kept.elim_used _ ?_ ?_)
    | (refine CoreKept.intro ?_; dsimp only; with_reducible refine CoreKept.elim ?_) | intro _ | dsimp only

theorem State.countWaits_kept {s : State} {heads : List (Nat × TierReq)} {b : Nat} (h0 : Kept kq kn s) : Kept kq kn (State.countWaits s heads b) := by
  unfold State.countWaits
  try dsimp only
  repeat' first
    | with_reducible assumption | with_reducible apply CoreState.bump_kept | with_reducible apply State.bump_kept
    | with_reducible apply State.heldOnce_kept | with_reducible apply Kept.foldl | with_reducible apply Kept.foldl_fst
    | with_reducible apply CoreKept.foldl | split | intro _ | dsimp only

theorem State.answer_kept {s : State} {q : TierReq} {start : Nat} (h0 : Kept kq kn s) : Kept kq kn (State.answer s q start) := by
  unfold State.answer
  try dsimp only
  repeat' first
    | with_reducible assumption | with_reducible apply OutKept.next | with_reducible apply OutKept.fault
    | with_reducible apply Kept.core (q := kq) (n := kn)
    | (refine Kept.intro ?_; dsimp only; with_reducible refine Kept.elim ?_)
    | (refine CoreKept.intro ?_; dsimp only; with_reducible refine CoreKept.elim ?_) | exact CoreKept.reset | intro _
    | dsimp only

theorem State.endTravel_kept {s : State} {id : Nat} (h0 : Kept kq kn s) : Kept kq kn (State.endTravel s id) := by
  unfold State.endTravel
  try dsimp only
  repeat' first
    | with_reducible assumption | with_reducible apply OutKept.next | with_reducible apply OutKept.fault
    | with_reducible apply Kept.core (q := kq) (n := kn)
    | (refine Kept.intro ?_; dsimp only; with_reducible refine Kept.elim ?_)
    | (refine CoreKept.intro ?_; dsimp only; with_reducible refine CoreKept.elim ?_) | exact CoreKept.reset | intro _
    | dsimp only [id] | dsimp only

theorem State.issueReq_kept {s : State} {port : Nat} {q : TierReq} (h0 : Kept kq kn s) : Kept kq kn (State.issueReq s port q) := by
  unfold State.issueReq
  try dsimp only
  repeat' first
    | with_reducible assumption | with_reducible apply State.perturb_kept | with_reducible apply State.sample_kept
    | with_reducible apply State.answer_kept | with_reducible apply State.endTravel_kept | with_reducible apply OutKept.next
    | with_reducible apply OutKept.fault | with_reducible apply Kept.core (q := kq) (n := kn) | split
    | (refine Kept.intro ?_; dsimp only; with_reducible refine Kept.elim ?_)
    | (refine CoreKept.intro ?_; dsimp only; with_reducible refine CoreKept.elim ?_) | exact CoreKept.reset | intro _
    | dsimp only

theorem State.issueAt_kept {s s1 : State} {port : Nat} {far : Bool} {allow : TierReq → Bool} {x : TierReq} (h0 : Kept kq kn s)
    (e : s.issueAt port far allow = some (s1, x)) : Kept kq kn s1 := by
  unfold State.issueAt at e
  dsimp only at e
  split at e
  · cases e
  · split at e
    · cases e
    · next e1 =>
      have h1 := State.drr_kept h0 e1
      cases e
      split
      · exact State.issueReq_kept (State.countWaits_kept h1)
      · exact State.setDeficit_kept (State.issueReq_kept (State.countWaits_kept h1))

theorem execTierRequestIssue_kept {port : Nat} {far : Bool} {s : State} (h0 : Kept kq kn s) : OutKept kq kn (execTierRequestIssue port far s) := by
  unfold execTierRequestIssue
  dsimp only
  repeat' first
    | with_reducible assumption
    | with_reducible apply OutKept.next
    | with_reducible apply OutKept.fault
    | split
    | (with_reducible refine State.issueAt_kept ?_ ‹_›)
    | (refine Kept.intro ?_; dsimp only; with_reducible refine Kept.elim ?_)

theorem State.countBytes_kept {s : State} {b : Nat} {n : Nat} (h0 : Kept kq kn s) : Kept kq kn (State.countBytes s b n) := by
  unfold State.countBytes
  try dsimp only
  repeat' first
    | with_reducible assumption | with_reducible apply CoreState.wrap_kept | with_reducible apply State.wrap_kept | split
    | (refine Kept.intro ?_; dsimp only; with_reducible refine Kept.elim ?_)
    | (refine CoreKept.intro ?_; dsimp only; with_reducible refine CoreKept.elim ?_) | dsimp only

theorem State.endReq_kept {s : State} {q : TierReq} (h0 : Kept kq kn s) : Kept kq kn (State.endReq s q) := by
  unfold State.endReq
  try dsimp only
  repeat' first
    | with_reducible assumption | (refine Kept.intro ?_; dsimp only; with_reducible refine Kept.elim ?_)
    | (refine CoreKept.intro ?_; dsimp only; with_reducible refine CoreKept.elim ?_) | intro _ | dsimp only [id]

theorem execTierReadReply_kept {req : Nat} {ue : List Nat} {s : State} (h0 : Kept kq kn s) : OutKept kq kn (execTierReadReply req ue s) := by
  unfold execTierReadReply
  try dsimp only
  repeat' first
    | with_reducible assumption | with_reducible apply State.modCore_kept | with_reducible apply State.land_kept
    | with_reducible apply State.runExec_kept | with_reducible apply State.endTravel_kept
    | with_reducible apply State.countBytes_kept | with_reducible apply State.endReq_kept | with_reducible apply OutKept.next
    | with_reducible apply OutKept.fault | with_reducible apply Kept.core (q := kq) (n := kn) | split
    | (refine Kept.intro ?_; dsimp only; with_reducible refine Kept.elim ?_)
    | (refine CoreKept.intro ?_; dsimp only; with_reducible refine CoreKept.elim ?_) | exact CoreKept.reset | intro _
    | with_reducible refine Kept.of_fst ‹_› ?_ | with_reducible refine Kept.of_snd ‹_› ?_
    | with_reducible refine Kept.of_trd ‹_› ?_ | with_reducible refine CoreKept.of_fst ‹_› ?_
    | with_reducible refine CoreKept.of_snd ‹_› ?_ | dsimp only

theorem execTierWriteAck_kept {req : Nat} {s : State} (h0 : Kept kq kn s) : OutKept kq kn (execTierWriteAck req s) := by
  unfold execTierWriteAck
  try dsimp only
  repeat' first
    | with_reducible assumption | with_reducible apply State.tierWrite_kept | with_reducible apply State.answer_kept
    | with_reducible apply State.countBytes_kept | with_reducible apply State.endReq_kept | with_reducible apply OutKept.next
    | with_reducible apply OutKept.fault | with_reducible apply Kept.core (q := kq) (n := kn) | split
    | (refine Kept.intro ?_; dsimp only; with_reducible refine Kept.elim ?_)
    | (refine CoreKept.intro ?_; dsimp only; with_reducible refine CoreKept.elim ?_) | exact CoreKept.reset | intro _
    | with_reducible refine Kept.of_fst ‹_› ?_ | with_reducible refine Kept.of_snd ‹_› ?_
    | with_reducible refine Kept.of_trd ‹_› ?_ | with_reducible refine CoreKept.of_fst ‹_› ?_
    | with_reducible refine CoreKept.of_snd ‹_› ?_ | dsimp only

end Sys2Proof.Machine
end

