-- ==== Sys2Proof/Laws/KeptHarbour.lean ====
section
/-! SUPPORT. What the operations of Machine/Harbour.lean keep (Laws/Kept.lean). -/

namespace Sys2Proof.Machine

variable {kq : List Instr} {kn : Nat}

theorem State.modLink_kept {s : State} {n : Nat} {f : Link → Link} (h0 : Kept kq kn s) : Kept kq kn (State.modLink s n f) := by
  unfold State.modLink
  try dsimp only
  repeat' first
    | with_reducible assumption | (refine Kept.intro ?_; dsimp only; with_reducible refine Kept.elim ?_)
    | (refine CoreKept.intro ?_; dsimp only; with_reducible refine CoreKept.elim ?_) | dsimp only

theorem State.message_kept {s : State} {pos : Nat} {core : Nat} {slot : StraitSlot} {w : Option WordCtx} (h0 : Kept kq kn s) : Kept kq kn (State.message s pos core slot w) := by
  unfold State.message
  try dsimp only
  repeat' first
    | with_reducible assumption | with_reducible apply State.modLink_kept | with_reducible apply Kept.core (q := kq) (n := kn)
    | split | (refine Kept.intro ?_; dsimp only; with_reducible refine Kept.elim ?_)
    | (refine CoreKept.intro ?_; dsimp only; with_reducible refine CoreKept.elim ?_) | intro _ | dsimp only

theorem State.takeMsg_kept {s : State} {f : Msg → Bool} (h0 : Kept kq kn s) : Kept kq kn (State.takeMsg s f).2 := by
  unfold State.takeMsg
  try dsimp only
  repeat' first
    | with_reducible assumption | split | (refine Kept.intro ?_; dsimp only; with_reducible refine Kept.elim ?_)
    | (refine CoreKept.intro ?_; dsimp only; with_reducible refine CoreKept.elim ?_) | dsimp only

theorem State.winCore_kept {s : State} {n : Nat} (h0 : Kept kq kn s) : CoreKept (State.winCore s n) := by
  unfold State.winCore
  try dsimp only
  repeat' first
    | with_reducible assumption | with_reducible apply Kept.core (q := kq) (n := kn) | dsimp only

theorem State.modWindow_kept {s : State} {n : Nat} {f : Window → Window} (h0 : Kept kq kn s) : Kept kq kn (State.modWindow s n f) := by
  unfold State.modWindow
  try dsimp only
  repeat' first
    | with_reducible assumption | with_reducible apply CoreState.put_kept | with_reducible apply State.put_kept
    | (refine Kept.intro ?_; dsimp only; with_reducible refine Kept.elim ?_)
    | (refine CoreKept.intro ?_; dsimp only; with_reducible refine CoreKept.elim ?_) | dsimp only

theorem State.grantNow_kept {s : State} {n : Nat} (h0 : Kept kq kn s) : Kept kq kn (State.grantNow s n) := by
  unfold State.grantNow
  try dsimp only
  repeat' first
    | with_reducible assumption | with_reducible apply CoreState.put_kept | with_reducible apply State.put_kept
    | with_reducible apply State.message_kept | with_reducible apply State.modWindow_kept | split
    | (refine Kept.intro ?_; dsimp only; with_reducible refine Kept.elim ?_)
    | (refine CoreKept.intro ?_; dsimp only; with_reducible refine CoreKept.elim ?_) | intro _ | dsimp only

theorem State.openWindow_kept {s : State} {n : Nat} (h0 : Kept kq kn s) : Kept kq kn (State.openWindow s n) := by
  unfold State.openWindow
  try dsimp only
  repeat' first
    | with_reducible assumption | with_reducible apply CoreState.put_kept | with_reducible apply State.put_kept
    | with_reducible apply State.modWindow_kept | with_reducible apply State.grantNow_kept | with_reducible apply OutKept.next
    | with_reducible apply OutKept.fault | with_reducible apply Kept.core (q := kq) (n := kn)
    | (refine Kept.intro ?_; dsimp only; with_reducible refine Kept.elim ?_)
    | (refine CoreKept.intro ?_; dsimp only; with_reducible refine CoreKept.elim ?_) | exact CoreKept.reset | intro _
    | dsimp only

theorem State.closeWindow_kept {s : State} {n : Nat} (h0 : Kept kq kn s) : Kept kq kn (State.closeWindow s n) := by
  unfold State.closeWindow
  try dsimp only
  repeat' first
    | with_reducible assumption | with_reducible apply CoreState.put_kept | with_reducible apply State.put_kept
    | with_reducible apply State.message_kept | with_reducible apply State.modWindow_kept
    | with_reducible apply Kept.core (q := kq) (n := kn) | split
    | (refine Kept.intro ?_; dsimp only; with_reducible refine Kept.elim ?_)
    | (refine CoreKept.intro ?_; dsimp only; with_reducible refine CoreKept.elim ?_) | intro _ | dsimp only

theorem execHarbourGrant_kept {win : Nat} {s : State} (h0 : Kept kq kn s) : OutKept kq kn (execHarbourGrant win s) := by
  unfold execHarbourGrant
  try dsimp only
  repeat' first
    | with_reducible assumption | with_reducible apply CoreState.fault_kept | with_reducible apply State.grantNow_kept
    | with_reducible apply OutKept.next | with_reducible apply OutKept.fault
    | with_reducible apply Kept.core (q := kq) (n := kn) | split
    | (refine Kept.intro ?_; dsimp only; with_reducible refine Kept.elim ?_)
    | (refine CoreKept.intro ?_; dsimp only; with_reducible refine CoreKept.elim ?_) | exact CoreKept.reset | intro _
    | dsimp only

theorem CoreState.setCredit_kept {c : CoreState} {e : Nat} {next : Nat} {avail : Nat} (h0 : CoreKept c) : CoreKept (CoreState.setCredit c e next avail) := by
  unfold CoreState.setCredit
  try dsimp only
  repeat' first
    | with_reducible assumption | with_reducible apply CoreState.moved_kept | with_reducible apply State.moved_kept
    | with_reducible apply OutKept.next | with_reducible apply OutKept.fault
    | with_reducible apply Kept.core (q := kq) (n := kn)
    | (refine Kept.intro ?_; dsimp only; with_reducible refine Kept.elim ?_)
    | (refine CoreKept.intro ?_; dsimp only; with_reducible refine CoreKept.elim ?_) | exact CoreKept.reset | intro _
    | dsimp only

theorem State.setDriftCredit_kept {s : State} {win : Nat} {next : Nat} {avail : Nat} (h0 : Kept kq kn s) : Kept kq kn (State.setDriftCredit s win next avail) := by
  unfold State.setDriftCredit
  try dsimp only
  repeat' first
    | with_reducible assumption | (refine Kept.intro ?_; dsimp only; with_reducible refine Kept.elim ?_)
    | (refine CoreKept.intro ?_; dsimp only; with_reducible refine CoreKept.elim ?_) | dsimp only

theorem execRoleStale_kept {core : Nat} {cid : Nat} {srcPos : Nat} {win : Nat} {_found : Nat} {_dropped : Bool} {s : State} (h0 : Kept kq kn s) : OutKept kq kn (execRoleStale core cid srcPos win _found _dropped s) := by
  unfold execRoleStale
  try dsimp only
  repeat' first
    | with_reducible assumption | with_reducible apply CoreState.bump_kept | with_reducible apply State.bump_kept
    | with_reducible apply State.notify_kept | with_reducible apply State.takeMsg_kept | with_reducible apply OutKept.next
    | with_reducible apply OutKept.fault | with_reducible apply Kept.core (q := kq) (n := kn) | intro _ | dsimp only

theorem execDenied_kept {core : Nat} {cid : Nat} {s : State} (h0 : Kept kq kn s) : OutKept kq kn (execDenied core cid s) := by
  unfold execDenied
  try dsimp only
  repeat' first
    | with_reducible assumption | with_reducible apply CoreState.faultWord_kept | with_reducible apply State.takeMsg_kept
    | with_reducible apply State.setCore_kept | with_reducible apply onCore_kept | with_reducible apply OutKept.next
    | with_reducible apply OutKept.fault | with_reducible apply Kept.core (q := kq) (n := kn) | split | intro _ | dsimp only

theorem State.settleRevokes_kept {s : State} (h0 : Kept kq kn s) : Kept kq kn (State.settleRevokes s) := by
  unfold State.settleRevokes
  try dsimp only
  repeat' first
    | with_reducible assumption | with_reducible apply State.message_kept | with_reducible apply CoreState.setCredit_kept
    | with_reducible apply State.setCore_kept | with_reducible apply Kept.foldl | with_reducible apply Kept.foldl_fst
    | with_reducible apply CoreKept.foldl | with_reducible apply Kept.core (q := kq) (n := kn) | split
    | (refine Kept.intro ?_; dsimp only; with_reducible refine Kept.elim ?_)
    | (refine CoreKept.intro ?_; dsimp only; with_reducible refine CoreKept.elim ?_) | intro _ | dsimp only

theorem execRevoke_kept {core : Nat} {plain : Nat} {win : Nat} {s : State} (h0 : Kept kq kn s) : OutKept kq kn (execRevoke core plain win s) := by
  unfold execRevoke
  try dsimp only
  repeat' first
    | with_reducible assumption | with_reducible apply State.message_kept | with_reducible apply State.takeMsg_kept
    | with_reducible apply State.setDriftCredit_kept | with_reducible apply State.settleRevokes_kept
    | with_reducible apply onCore_kept | with_reducible apply OutKept.next | with_reducible apply OutKept.fault
    | with_reducible apply Kept.core (q := kq) (n := kn) | split
    | (refine Kept.intro ?_; dsimp only; with_reducible refine Kept.elim ?_)
    | (refine CoreKept.intro ?_; dsimp only; with_reducible refine CoreKept.elim ?_) | intro _
    | with_reducible refine Kept.of_fst ‹_› ?_ | with_reducible refine Kept.of_snd ‹_› ?_
    | with_reducible refine Kept.of_trd ‹_› ?_ | with_reducible refine CoreKept.of_fst ‹_› ?_
    | with_reducible refine CoreKept.of_snd ‹_› ?_ | dsimp only

theorem execRevokeAck_kept {win : Nat} {s : State} (h0 : Kept kq kn s) : OutKept kq kn (execRevokeAck win s) := by
  unfold execRevokeAck
  try dsimp only
  repeat' first
    | with_reducible assumption | with_reducible apply CoreState.put_kept | with_reducible apply State.put_kept
    | with_reducible apply CoreState.fault_kept | with_reducible apply State.takeMsg_kept
    | with_reducible apply State.modWindow_kept | with_reducible apply OutKept.next | with_reducible apply OutKept.fault | split
    | intro _ | with_reducible refine Kept.of_fst ‹_› ?_ | with_reducible refine Kept.of_snd ‹_› ?_
    | with_reducible refine Kept.of_trd ‹_› ?_ | with_reducible refine CoreKept.of_fst ‹_› ?_
    | with_reducible refine CoreKept.of_snd ‹_› ?_ | dsimp only

theorem execDiscard_kept {core : Nat} {cid : Nat} {srcPos : Nat} {s : State} (h0 : Kept kq kn s) : OutKept kq kn (execDiscard core cid srcPos s) := by
  unfold execDiscard
  try dsimp only
  repeat' first
    | with_reducible assumption | with_reducible apply State.notify_kept | with_reducible apply State.takeMsg_kept
    | with_reducible apply OutKept.next | with_reducible apply OutKept.fault
    | with_reducible apply Kept.core (q := kq) (n := kn) | intro _ | dsimp only

end Sys2Proof.Machine
end

