-- ==== Sys2Proof/Laws/KeptNetwork.lean ====
section
/-! SUPPORT. What the operations of Machine/Network.lean keep (Laws/Kept.lean). -/

namespace Sys2Proof.Machine

variable {kq : List Instr} {kn : Nat}

theorem State.sendOut_kept {s : State} {p : Nat} {core : Nat} {w : WordCtx} {a : SendArgs} {src : List Nat} {marked : List Nat} (h0 : Kept kq kn s) : Kept kq kn (State.sendOut s p core w a src marked) := by
  unfold State.sendOut
  try dsimp only
  repeat' first
    | with_reducible assumption | with_reducible apply State.setCore_kept | with_reducible apply CoreState.begin_kept
    | with_reducible apply CoreState.setCredit_kept | with_reducible apply OutKept.next | with_reducible apply OutKept.fault
    | with_reducible apply Kept.core (q := kq) (n := kn) | split
    | (refine Kept.intro ?_; dsimp only; with_reducible refine Kept.elim ?_)
    | (refine Kept.intro ?_; dsimp only; with_reducible refine Kept.elim_used _ ?_ ?_)
    | (refine CoreKept.intro ?_; dsimp only; with_reducible refine CoreKept.elim ?_) | exact CoreKept.reset | intro _
    | dsimp only

theorem execSend_kept {core : Nat} {w : WordCtx} {a : SendArgs} {s : State} (h0 : Kept kq kn s) : OutKept kq kn (execSend core w a s) := by
  unfold execSend
  try dsimp only
  repeat' first
    | with_reducible assumption | with_reducible apply State.setCore_kept | with_reducible apply CoreState.wait_kept
    | with_reducible apply CoreState.unwait_kept | with_reducible apply CoreState.abandon_kept
    | with_reducible apply State.startOp_kept | with_reducible apply State.readingOp_kept
    | with_reducible apply State.sendOut_kept | with_reducible apply onLive_kept | with_reducible apply OutKept.next
    | with_reducible apply OutKept.fault | with_reducible apply Kept.core (q := kq) (n := kn) | split
    | (refine Kept.intro ?_; dsimp only; with_reducible refine Kept.elim ?_)
    | (refine CoreKept.intro ?_; dsimp only; with_reducible refine CoreKept.elim ?_) | exact CoreKept.reset | intro _
    | dsimp only

theorem State.countSent_kept {s : State} {plan : List (Nat × Reg64)} {key : Nat} {stream : Nat} {link : Nat} {strait : Bool} (h0 : Kept kq kn s) : Kept kq kn (State.countSent s plan key stream link strait) := by
  unfold State.countSent
  try dsimp only
  repeat' first
    | with_reducible assumption | with_reducible apply OutKept.next | with_reducible apply OutKept.fault
    | with_reducible apply Kept.core (q := kq) (n := kn)
    | (refine Kept.intro ?_; dsimp only; with_reducible refine Kept.elim ?_)
    | (refine CoreKept.intro ?_; dsimp only; with_reducible refine CoreKept.elim ?_) | exact CoreKept.reset | intro _
    | dsimp only

theorem State.modCons_kept {s : State} {id : Nat} {f : Consign → Consign} (h0 : Kept kq kn s) : Kept kq kn (State.modCons s id f) := by
  unfold State.modCons
  try dsimp only
  repeat' first
    | with_reducible assumption | split | (refine Kept.intro ?_; dsimp only; with_reducible refine Kept.elim ?_)
    | (refine CoreKept.intro ?_; dsimp only; with_reducible refine CoreKept.elim ?_) | intro _ | dsimp only [id]

theorem State.modDest_kept {s : State} {id : Nat} {dst : Nat} {f : Dest → Dest} (h0 : Kept kq kn s) : Kept kq kn (State.modDest s id dst f) := by
  unfold State.modDest
  try dsimp only
  repeat' first
    | with_reducible assumption | with_reducible apply State.modCons_kept | with_reducible apply Kept.core (q := kq) (n := kn)
    | split | (refine Kept.intro ?_; dsimp only; with_reducible refine Kept.elim ?_)
    | (refine CoreKept.intro ?_; dsimp only; with_reducible refine CoreKept.elim ?_) | intro _ | dsimp only [id]

theorem State.pruneCons_kept {s : State} (h0 : Kept kq kn s) : Kept kq kn (State.pruneCons s) := by
  unfold State.pruneCons
  try dsimp only
  repeat' first
    | with_reducible assumption | with_reducible apply OutKept.next | with_reducible apply OutKept.fault
    | with_reducible apply Kept.core (q := kq) (n := kn) | split
    | (refine Kept.intro ?_; dsimp only; with_reducible refine Kept.elim ?_)
    | (refine CoreKept.intro ?_; dsimp only; with_reducible refine CoreKept.elim ?_) | exact CoreKept.reset | intro _
    | dsimp only

theorem State.noteSent_kept {s : State} {q : Consign} {f : Flit} {links : List Nat} (h0 : Kept kq kn s) : Kept kq kn (State.noteSent s q f links) := by
  unfold State.noteSent
  try dsimp only
  repeat' first
    | with_reducible assumption | with_reducible apply State.countSent_kept | with_reducible apply OutKept.next
    | with_reducible apply OutKept.fault | with_reducible apply Kept.foldl | with_reducible apply Kept.foldl_fst
    | with_reducible apply CoreKept.foldl | with_reducible apply CoreKept.foldl_fst | with_reducible apply Kept.foldl_snd
    | with_reducible apply CoreKept.foldl_snd | with_reducible apply Kept.core (q := kq) (n := kn) | split
    | (refine Kept.intro ?_; dsimp only; with_reducible refine Kept.elim ?_)
    | (refine CoreKept.intro ?_; dsimp only; with_reducible refine CoreKept.elim ?_) | exact CoreKept.reset | intro _
    | dsimp only

theorem State.forward_kept {s : State} {q : Consign} {f : Flit} (h0 : Kept kq kn s) : Kept kq kn (State.forward s q f) := by
  unfold State.forward
  try dsimp only
  repeat' first
    | with_reducible assumption | with_reducible apply State.settleRevokes_kept | with_reducible apply State.pruneCons_kept
    | with_reducible apply State.noteSent_kept | with_reducible apply OutKept.next | with_reducible apply OutKept.fault
    | with_reducible apply Kept.foldl | with_reducible apply Kept.foldl_fst | with_reducible apply CoreKept.foldl
    | with_reducible apply CoreKept.foldl_fst | with_reducible apply Kept.foldl_snd | with_reducible apply CoreKept.foldl_snd
    | with_reducible apply Kept.core (q := kq) (n := kn) | split
    | (refine Kept.intro ?_; dsimp only; with_reducible refine Kept.elim ?_)
    | (refine CoreKept.intro ?_; dsimp only; with_reducible refine CoreKept.elim ?_) | exact CoreKept.reset | intro _
    | dsimp only

theorem State.passHold_kept {s : State} {q : Consign} {f : Flit} (h0 : Kept kq kn s) : Kept kq kn (State.passHold s q f).1 := by
  unfold State.passHold
  try dsimp only
  repeat' first
    | with_reducible assumption | with_reducible apply State.perturb_kept | with_reducible apply OutKept.next
    | with_reducible apply OutKept.fault | with_reducible apply Kept.core (q := kq) (n := kn) | split
    | (refine Kept.intro ?_; dsimp only; with_reducible refine Kept.elim ?_)
    | (refine CoreKept.intro ?_; dsimp only; with_reducible refine CoreKept.elim ?_) | exact CoreKept.reset | intro _
    | dsimp only

theorem execFlitRelease_kept {cons : Nat} {seq : Nat} {s : State} (h0 : Kept kq kn s) : OutKept kq kn (execFlitRelease cons seq s) := by
  unfold execFlitRelease
  try dsimp only
  repeat' first
    | with_reducible assumption | with_reducible apply State.forward_kept | with_reducible apply State.passHold_kept
    | with_reducible apply OutKept.next | with_reducible apply OutKept.fault | with_reducible apply Kept.foldl
    | with_reducible apply Kept.foldl_fst | with_reducible apply CoreKept.foldl | split
    | (refine Kept.intro ?_; dsimp only; with_reducible refine Kept.elim ?_)
    | (refine CoreKept.intro ?_; dsimp only; with_reducible refine CoreKept.elim ?_) | intro _
    | with_reducible refine Kept.of_fst ‹_› ?_ | with_reducible refine Kept.of_snd ‹_› ?_
    | with_reducible refine Kept.of_trd ‹_› ?_ | with_reducible refine CoreKept.of_fst ‹_› ?_
    | with_reducible refine CoreKept.of_snd ‹_› ?_ | dsimp only

theorem State.landGoes_kept {s : State} {q : Consign} {dst : Nat} (h0 : Kept kq kn s) : Kept kq kn (State.landGoes s q dst) := by
  unfold State.landGoes
  try dsimp only
  repeat' first
    | with_reducible assumption | with_reducible apply State.modCore_kept | with_reducible apply CoreState.unwait_kept
    | with_reducible apply OutKept.next | with_reducible apply OutKept.fault
    | with_reducible apply Kept.core (q := kq) (n := kn) | split
    | (refine Kept.intro ?_; dsimp only; with_reducible refine Kept.elim ?_)
    | (refine CoreKept.intro ?_; dsimp only; with_reducible refine CoreKept.elim ?_) | exact CoreKept.reset | intro _
    | dsimp only

theorem State.discardAt_kept {s : State} {q : Consign} {d : Dest} (h0 : Kept kq kn s) : Kept kq kn (State.discardAt s q d) := by
  unfold State.discardAt
  try dsimp only
  repeat' first
    | with_reducible assumption | with_reducible apply State.modCore_kept | with_reducible apply CoreState.setTag_kept
    | with_reducible apply State.modWindow_kept | with_reducible apply State.modDest_kept
    | with_reducible apply State.landGoes_kept | with_reducible apply OutKept.next | with_reducible apply OutKept.fault
    | with_reducible apply Kept.foldl | with_reducible apply Kept.foldl_fst | with_reducible apply CoreKept.foldl
    | with_reducible apply CoreKept.foldl_fst | with_reducible apply Kept.foldl_snd | with_reducible apply CoreKept.foldl_snd
    | with_reducible apply Kept.core (q := kq) (n := kn) | split
    | (refine Kept.intro ?_; dsimp only; with_reducible refine Kept.elim ?_)
    | (refine CoreKept.intro ?_; dsimp only; with_reducible refine CoreKept.elim ?_) | exact CoreKept.reset | intro _
    | dsimp only

theorem State.discardCons_kept {s : State} {id : Nat} (h0 : Kept kq kn s) : Kept kq kn (State.discardCons s id) := by
  unfold State.discardCons
  try dsimp only
  repeat' first
    | with_reducible assumption | with_reducible apply State.pruneCons_kept | with_reducible apply State.discardAt_kept
    | with_reducible apply Kept.foldl | with_reducible apply Kept.foldl_fst | with_reducible apply CoreKept.foldl | split
    | intro _ | dsimp only [id]

theorem State.dropAt_kept {s : State} {q : Consign} {d : Dest} {cls : Nat} {unit : Nat} {addr : Option Nat} (h0 : Kept kq kn s) : Kept kq kn (State.dropAt s q d cls unit addr) := by
  unfold State.dropAt
  try dsimp only
  repeat' first
    | with_reducible assumption | with_reducible apply CoreState.faultCtx_kept | with_reducible apply State.pruneCons_kept
    | with_reducible apply State.discardAt_kept | with_reducible apply State.modCore_kept | split | intro _ | dsimp only

theorem State.replyTo_kept {s : State} {q : Consign} {code : Nat} {found : Nat} {dropped : Bool} (h0 : Kept kq kn s) : Kept kq kn (State.replyTo s q code found dropped) := by
  unfold State.replyTo
  try dsimp only
  repeat' first
    | with_reducible assumption | with_reducible apply State.message_kept | split | dsimp only

theorem State.deny_kept {s : State} {q : Consign} {d : Dest} (h0 : Kept kq kn s) : Kept kq kn (State.deny s q d) := by
  unfold State.deny
  try dsimp only
  repeat' first
    | with_reducible assumption | with_reducible apply CoreState.bump_kept | with_reducible apply State.bump_kept
    | with_reducible apply State.pruneCons_kept | with_reducible apply State.discardAt_kept
    | with_reducible apply State.replyTo_kept | dsimp only

theorem execConsignmentFirstFlit_kept {cons : Nat} {dst : Nat} {s : State} (h0 : Kept kq kn s) : OutKept kq kn (execConsignmentFirstFlit cons dst s) := by
  unfold execConsignmentFirstFlit
  try dsimp only
  repeat' first
    | with_reducible assumption | with_reducible apply State.modCons_kept | with_reducible apply State.modDest_kept
    | with_reducible apply State.pruneCons_kept | with_reducible apply State.discardAt_kept
    | with_reducible apply State.dropAt_kept | with_reducible apply State.deny_kept | with_reducible apply onCore_kept
    | with_reducible apply OutKept.next | with_reducible apply OutKept.fault
    | with_reducible apply Kept.core (q := kq) (n := kn) | split
    | (refine Kept.intro ?_; dsimp only; with_reducible refine Kept.elim ?_)
    | (refine CoreKept.intro ?_; dsimp only; with_reducible refine CoreKept.elim ?_) | exact CoreKept.reset | intro _
    | with_reducible refine Kept.of_fst ‹_› ?_ | with_reducible refine Kept.of_snd ‹_› ?_
    | with_reducible refine Kept.of_trd ‹_› ?_ | with_reducible refine CoreKept.of_fst ‹_› ?_
    | with_reducible refine CoreKept.of_snd ‹_› ?_ | dsimp only

theorem State.landWaits_kept {s : State} {q : Consign} {d : Dest} {c : CoreState} {x : Cove × Nat} (h0 : Kept kq kn s) : Kept kq kn (State.landWaits s q d c x) := by
  unfold State.landWaits
  try dsimp only
  repeat' first
    | with_reducible assumption | with_reducible apply State.modCore_kept | with_reducible apply CoreState.wait_kept
    | with_reducible apply CoreState.unwait_kept | with_reducible apply State.pruneCons_kept
    | with_reducible apply State.discardAt_kept | with_reducible apply OutKept.next | with_reducible apply OutKept.fault
    | with_reducible apply Kept.core (q := kq) (n := kn) | split
    | (refine Kept.intro ?_; dsimp only; with_reducible refine Kept.elim ?_)
    | (refine CoreKept.intro ?_; dsimp only; with_reducible refine CoreKept.elim ?_) | exact CoreKept.reset | intro _
    | dsimp only

theorem State.consClaim_kept {s : State} {q : Consign} {dst : Nat} {x : Cove × Nat} (h0 : Kept kq kn s) : Kept kq kn (State.consClaim s q dst x) := by
  unfold State.consClaim
  try dsimp only
  repeat' first
    | with_reducible assumption | with_reducible apply CoreState.setTag_kept | with_reducible apply State.modWindow_kept
    | with_reducible apply State.modDest_kept | with_reducible apply State.setCore_kept
    | with_reducible apply Kept.core (q := kq) (n := kn) | split
    | (refine Kept.intro ?_; dsimp only; with_reducible refine Kept.elim ?_)
    | (refine CoreKept.intro ?_; dsimp only; with_reducible refine CoreKept.elim ?_) | intro _ | dsimp only [id]

theorem State.flitDone_kept {s : State} {q : Consign} {dst : Nat} {f : Flit} (h0 : Kept kq kn s) : Kept kq kn (State.flitDone s q dst f) := by
  unfold State.flitDone
  try dsimp only
  repeat' first
    | with_reducible assumption | with_reducible apply State.modCons_kept | with_reducible apply State.modDest_kept
    | with_reducible apply OutKept.next | with_reducible apply OutKept.fault
    | with_reducible apply Kept.core (q := kq) (n := kn) | split
    | (refine Kept.intro ?_; dsimp only; with_reducible refine Kept.elim ?_)
    | (refine CoreKept.intro ?_; dsimp only; with_reducible refine CoreKept.elim ?_) | exact CoreKept.reset | intro _
    | dsimp only

theorem State.landFlit_kept {s : State} {q : Consign} {d : Dest} {f : Flit} {claims : List (Cove × Nat)} (h0 : Kept kq kn s) : Kept kq kn (State.landFlit s q d f claims) := by
  unfold State.landFlit
  try dsimp only
  repeat' first
    | with_reducible assumption | with_reducible apply State.portWrite_kept | with_reducible apply State.landGoes_kept
    | with_reducible apply State.landWaits_kept | with_reducible apply State.consClaim_kept
    | with_reducible apply State.flitDone_kept | with_reducible apply OutKept.next | with_reducible apply OutKept.fault
    | with_reducible apply Kept.foldl | with_reducible apply Kept.foldl_fst | with_reducible apply CoreKept.foldl
    | with_reducible apply CoreKept.foldl_fst | with_reducible apply Kept.foldl_snd | with_reducible apply CoreKept.foldl_snd
    | with_reducible apply Kept.core (q := kq) (n := kn) | split
    | (refine Kept.intro ?_; dsimp only; with_reducible refine Kept.elim ?_)
    | (refine CoreKept.intro ?_; dsimp only; with_reducible refine CoreKept.elim ?_) | exact CoreKept.reset | intro _
    | with_reducible refine Kept.of_fst ‹_› ?_ | with_reducible refine Kept.of_snd ‹_› ?_
    | with_reducible refine Kept.of_trd ‹_› ?_ | with_reducible refine CoreKept.of_fst ‹_› ?_
    | with_reducible refine CoreKept.of_snd ‹_› ?_ | dsimp only

theorem execFlitLand_kept {cons : Nat} {dst : Nat} {seq : Nat} {s : State} (h0 : Kept kq kn s) : OutKept kq kn (execFlitLand cons dst seq s) := by
  unfold execFlitLand
  try dsimp only
  repeat' first
    | with_reducible assumption | with_reducible apply State.modCons_kept | with_reducible apply State.pruneCons_kept
    | with_reducible apply State.dropAt_kept | with_reducible apply State.deny_kept | with_reducible apply State.flitDone_kept
    | with_reducible apply State.landFlit_kept | with_reducible apply onCore_kept | with_reducible apply OutKept.next
    | with_reducible apply OutKept.fault | with_reducible apply Kept.core (q := kq) (n := kn) | split
    | (refine Kept.intro ?_; dsimp only; with_reducible refine Kept.elim ?_)
    | (refine CoreKept.intro ?_; dsimp only; with_reducible refine CoreKept.elim ?_) | exact CoreKept.reset | intro _
    | with_reducible refine Kept.of_fst ‹_› ?_ | with_reducible refine Kept.of_snd ‹_› ?_
    | with_reducible refine Kept.of_trd ‹_› ?_ | with_reducible refine CoreKept.of_fst ‹_› ?_
    | with_reducible refine CoreKept.of_snd ‹_› ?_ | dsimp only

theorem CoreState.commitSlots_kept {c : CoreState} {q : Consign} {d : Dest} (h0 : CoreKept c) : CoreKept (CoreState.commitSlots c q d) := by
  unfold CoreState.commitSlots
  try dsimp only
  repeat' first
    | with_reducible assumption | with_reducible apply CoreState.post_kept | with_reducible apply Kept.foldl
    | with_reducible apply Kept.foldl_fst | with_reducible apply CoreKept.foldl | split | intro _ | dsimp only

theorem State.ringWrite_kept {s : State} {base : Nat} {size : Nat} {off : Nat} {bs : List Byte} (h0 : Kept kq kn s) : Kept kq kn (State.ringWrite s base size off bs) := by
  unfold State.ringWrite
  try dsimp only
  repeat' first
    | with_reducible assumption | with_reducible apply State.tierWrite_kept | dsimp only

theorem State.divertCons_kept {s : State} {q : Consign} {dst : Nat} (h0 : Kept kq kn s) : Kept kq kn (State.divertCons s q dst) := by
  unfold State.divertCons
  try dsimp only
  repeat' first
    | with_reducible assumption | with_reducible apply CoreState.put_kept | with_reducible apply CoreState.bump_kept
    | with_reducible apply State.put_kept | with_reducible apply State.bump_kept | with_reducible apply State.notify_kept
    | with_reducible apply State.replyTo_kept | with_reducible apply State.ringWrite_kept | split | intro _ | dsimp only

theorem execConsignmentCommit_kept {cons : Nat} {dst : Nat} {s : State} (h0 : Kept kq kn s) : OutKept kq kn (execConsignmentCommit cons dst s) := by
  unfold execConsignmentCommit
  try dsimp only
  repeat' first
    | with_reducible assumption | with_reducible apply State.modCore_kept | with_reducible apply CoreState.wrap_kept
    | with_reducible apply State.wrap_kept | with_reducible apply State.modDest_kept
    | with_reducible apply State.pruneCons_kept | with_reducible apply State.landGoes_kept
    | with_reducible apply State.deny_kept | with_reducible apply State.landWaits_kept
    | with_reducible apply State.consClaim_kept | with_reducible apply CoreState.commitSlots_kept
    | with_reducible apply State.divertCons_kept | with_reducible apply onCore_kept | with_reducible apply OutKept.next
    | with_reducible apply OutKept.fault | with_reducible apply Kept.foldl | with_reducible apply Kept.foldl_fst
    | with_reducible apply CoreKept.foldl | with_reducible apply CoreKept.foldl_fst | with_reducible apply Kept.foldl_snd
    | with_reducible apply CoreKept.foldl_snd | with_reducible apply Kept.core (q := kq) (n := kn) | split
    | (refine Kept.intro ?_; dsimp only; with_reducible refine Kept.elim ?_)
    | (refine CoreKept.intro ?_; dsimp only; with_reducible refine CoreKept.elim ?_) | exact CoreKept.reset | intro _
    | with_reducible refine Kept.of_fst ‹_› ?_ | with_reducible refine Kept.of_snd ‹_› ?_
    | with_reducible refine Kept.of_trd ‹_› ?_ | with_reducible refine CoreKept.of_fst ‹_› ?_
    | with_reducible refine CoreKept.of_snd ‹_› ?_ | dsimp only

end Sys2Proof.Machine
end

