-- ==== Sys2Proof/Laws/KeptFence.lean ====
section
/-! SUPPORT. What the operations of Machine/Fence.lean keep (Laws/Kept.lean). -/

namespace Sys2Proof.Machine

variable {kq : List Instr} {kn : Nat}

theorem State.raise_kept {s : State} {kind : Nat} {ctx : Option Nat} {detail : Nat} (h0 : Kept kq kn s) : Kept kq kn (State.raise s kind ctx detail) := by
  unfold State.raise
  try dsimp only
  repeat' first
    | with_reducible assumption | (refine Kept.intro ?_; dsimp only; with_reducible refine Kept.elim ?_)
    | (refine CoreKept.intro ?_; dsimp only; with_reducible refine CoreKept.elim ?_) | dsimp only

theorem State.linkEvent_kept {s : State} {port : Nat} (h0 : Kept kq kn s) : Kept kq kn (State.linkEvent s port) := by
  unfold State.linkEvent
  try dsimp only
  repeat' first
    | with_reducible assumption | with_reducible apply State.raise_kept | dsimp only

theorem State.beacon_kept {s : State} {g : Nat} {x : Beacon} (h0 : Kept kq kn s) : Kept kq kn (State.beacon s g x) := by
  unfold State.beacon
  try dsimp only
  repeat' first
    | with_reducible assumption | with_reducible apply State.modLink_kept | with_reducible apply Kept.foldl
    | with_reducible apply Kept.foldl_fst | with_reducible apply CoreKept.foldl
    | (refine Kept.intro ?_; dsimp only; with_reducible refine Kept.elim ?_)
    | (refine CoreKept.intro ?_; dsimp only; with_reducible refine CoreKept.elim ?_) | intro _ | dsimp only

theorem State.beaconOnce_kept {s : State} {kind : Nat} {g : Nat} {step : Nat} {x : Beacon} (h0 : Kept kq kn s) : Kept kq kn (State.beaconOnce s kind g step x) := by
  unfold State.beaconOnce
  try dsimp only
  repeat' first
    | with_reducible assumption | with_reducible apply State.beacon_kept | split
    | (refine Kept.intro ?_; dsimp only; with_reducible refine Kept.elim ?_)
    | (refine CoreKept.intro ?_; dsimp only; with_reducible refine CoreKept.elim ?_) | dsimp only

theorem State.forgetTold_kept {s : State} {g : Nat} (h0 : Kept kq kn s) : Kept kq kn (State.forgetTold s g) := by
  unfold State.forgetTold
  try dsimp only
  repeat' first
    | with_reducible assumption | with_reducible apply OutKept.next | with_reducible apply OutKept.fault
    | with_reducible apply Kept.core (q := kq) (n := kn)
    | (refine Kept.intro ?_; dsimp only; with_reducible refine Kept.elim ?_)
    | (refine CoreKept.intro ?_; dsimp only; with_reducible refine CoreKept.elim ?_) | exact CoreKept.reset | intro _
    | dsimp only

theorem CoreState.cutShort_kept {c : CoreState} (h0 : CoreKept c) : CoreKept (CoreState.cutShort c) := by
  unfold CoreState.cutShort
  try dsimp only
  repeat' first
    | with_reducible assumption | (refine Kept.intro ?_; dsimp only; with_reducible refine Kept.elim ?_)
    | (refine CoreKept.intro ?_; dsimp only; with_reducible refine CoreKept.elim ?_) | dsimp only

theorem CoreState.stopShort_kept {c : CoreState} (h0 : CoreKept c) : CoreKept (CoreState.stopShort c) := by
  unfold CoreState.stopShort
  try dsimp only
  repeat' first
    | with_reducible assumption | with_reducible apply CoreState.cutShort_kept
    | (refine Kept.intro ?_; dsimp only; with_reducible refine Kept.elim ?_)
    | (refine CoreKept.intro ?_; dsimp only; with_reducible refine CoreKept.elim ?_) | dsimp only

theorem CoreState.dropOps_kept {c : CoreState} (h0 : CoreKept c) : CoreKept (CoreState.dropOps c) := by
  unfold CoreState.dropOps
  try dsimp only
  repeat' first
    | with_reducible assumption | with_reducible apply CoreState.put_kept | with_reducible apply State.put_kept
    | with_reducible apply OutKept.next | with_reducible apply OutKept.fault
    | with_reducible apply Kept.core (q := kq) (n := kn)
    | (refine Kept.intro ?_; dsimp only; with_reducible refine Kept.elim ?_)
    | (refine CoreKept.intro ?_; dsimp only; with_reducible refine CoreKept.elim ?_) | exact CoreKept.reset | intro _
    | dsimp only

theorem State.dropSends_kept {s : State} {core : Nat} (h0 : Kept kq kn s) : Kept kq kn (State.dropSends s core) := by
  unfold State.dropSends
  try dsimp only
  repeat' first
    | with_reducible assumption | with_reducible apply State.discardCons_kept | with_reducible apply OutKept.next
    | with_reducible apply OutKept.fault | with_reducible apply Kept.foldl | with_reducible apply Kept.foldl_fst
    | with_reducible apply CoreKept.foldl | with_reducible apply CoreKept.foldl_fst | with_reducible apply Kept.foldl_snd
    | with_reducible apply CoreKept.foldl_snd | with_reducible apply Kept.core (q := kq) (n := kn) | split
    | (refine Kept.intro ?_; dsimp only; with_reducible refine Kept.elim ?_)
    | (refine CoreKept.intro ?_; dsimp only; with_reducible refine CoreKept.elim ?_) | exact CoreKept.reset | intro _
    | dsimp only

theorem State.abandonCore_kept {s : State} {core : Nat} (h0 : Kept kq kn s) : Kept kq kn (State.abandonCore s core) := by
  unfold State.abandonCore
  try dsimp only
  repeat' first
    | with_reducible assumption | with_reducible apply State.modCore_kept | with_reducible apply State.dropReqs_kept
    | with_reducible apply CoreState.dropOps_kept | with_reducible apply State.dropSends_kept
    | with_reducible apply OutKept.next | with_reducible apply OutKept.fault
    | with_reducible apply Kept.core (q := kq) (n := kn)
    | (refine Kept.intro ?_; dsimp only; with_reducible refine Kept.elim ?_)
    | (refine CoreKept.intro ?_; dsimp only; with_reducible refine CoreKept.elim ?_) | exact CoreKept.reset | intro _
    | dsimp only

theorem State.discardInto_kept {s : State} {b : Nat} {reply : State → Consign → State} (h0 : Kept kq kn s) (h1 : ∀ y0 y1, Kept kq kn y0 → Kept kq kn (reply y0 y1)) : Kept kq kn (State.discardInto s b reply) := by
  unfold State.discardInto
  try dsimp only
  repeat' first
    | with_reducible assumption | with_reducible apply h1 | with_reducible apply State.pruneCons_kept
    | with_reducible apply State.discardAt_kept | with_reducible apply Kept.foldl | with_reducible apply Kept.foldl_fst
    | with_reducible apply CoreKept.foldl | with_reducible apply Kept.core (q := kq) (n := kn) | split | intro _ | dsimp only

theorem State.discardReply_kept {s : State} {g : Nat} {q : Consign} (h0 : Kept kq kn s) : Kept kq kn (State.discardReply s g q) := by
  unfold State.discardReply
  try dsimp only
  repeat' first
    | with_reducible assumption | with_reducible apply State.replyTo_kept | split | intro _ | dsimp only

theorem CoreState.unretain_kept {c : CoreState} {v : Cove} (h0 : CoreKept c) : CoreKept (CoreState.unretain c v) := by
  unfold CoreState.unretain
  try dsimp only
  repeat' first
    | with_reducible assumption | with_reducible apply CoreState.setTag_kept | with_reducible apply Kept.foldl
    | with_reducible apply Kept.foldl_fst | with_reducible apply CoreKept.foldl | split
    | (refine Kept.intro ?_; dsimp only; with_reducible refine Kept.elim ?_)
    | (refine CoreKept.intro ?_; dsimp only; with_reducible refine CoreKept.elim ?_) | intro _ | dsimp only

theorem State.takeFence_kept {s : State} {b : Nat} (h0 : Kept kq kn s) : Kept kq kn (State.takeFence s b) := by
  unfold State.takeFence
  try dsimp only
  repeat' first
    | with_reducible assumption | with_reducible apply State.modCore_kept | with_reducible apply State.modBay_kept
    | with_reducible apply CoreState.unretain_kept | with_reducible apply OutKept.next | with_reducible apply OutKept.fault
    | with_reducible apply Kept.foldl | with_reducible apply Kept.foldl_fst | with_reducible apply CoreKept.foldl
    | with_reducible apply CoreKept.foldl_fst | with_reducible apply Kept.foldl_snd | with_reducible apply CoreKept.foldl_snd
    | with_reducible apply Kept.core (q := kq) (n := kn)
    | (refine Kept.intro ?_; dsimp only; with_reducible refine Kept.elim ?_)
    | (refine CoreKept.intro ?_; dsimp only; with_reducible refine CoreKept.elim ?_) | exact CoreKept.reset | intro _
    | dsimp only

theorem CoreState.restoreCove_kept {c : CoreState} {k : CoveCopy} (h0 : CoreKept c) : CoreKept (c.restoreCove k) := by
  have key : ∀ (l : List (Nat × Tag)) (m : List (Nat × Tag)), Sparse.wf (fun _ => Tag.ebb) m = true →
      Sparse.wf (fun _ => Tag.ebb) (l.foldl (fun m e => Sparse.set Tag.ebb m e.1 e.2) m) = true := by
    intro l
    induction l with
    | nil => intro m h; exact h
    | cons e rest ih => intro m h; exact ih _ (Sparse.wf_set (d := fun _ => Tag.ebb) e.1 e.2 h)
  unfold CoreState.restoreCove
  dsimp only
  repeat' first
    | with_reducible assumption
    | with_reducible apply CoreState.put_kept
    | with_reducible apply CoreState.setReg_kept
    | split
    | (refine CoreKept.intro ?_; dsimp only; with_reducible refine CoreKept.elim ?_)
    | (refine CoreKept.intro ?_; dsimp only; exact ⟨h0.regs, h0.basin, key _ _ (Sparse.wf_clear _ _ h0.tags), h0.sstore, h0.vregs, h0.params, h0.xregs, h0.desc⟩)

theorem CoreState.restoreMoved_kept {c : CoreState} (h0 : CoreKept c) : CoreKept (CoreState.restoreMoved c) := by
  unfold CoreState.restoreMoved
  try dsimp only
  repeat' first
    | with_reducible assumption | with_reducible apply CoreState.moved_kept | with_reducible apply State.moved_kept
    | with_reducible apply OutKept.next | with_reducible apply OutKept.fault
    | with_reducible apply Kept.core (q := kq) (n := kn)
    | (refine Kept.intro ?_; dsimp only; with_reducible refine Kept.elim ?_)
    | (refine CoreKept.intro ?_; dsimp only; with_reducible refine CoreKept.elim ?_) | exact CoreKept.reset | intro _
    | dsimp only

theorem CoreState.restoreRegs_kept {c : CoreState} {x : FenceCore} (h0 : CoreKept c) : CoreKept (c.restoreRegs x) := by
  unfold CoreState.restoreRegs
  have h1 : CoreKept (x.preds.foldl (fun c e => c.setReg e.1 e.2) c) := CoreKept.foldl (fun c e h => CoreState.setReg_kept _ _ h) h0
  have h2 := CoreState.setReg_kept (F.corCountNow_count.addr 0) x.countNow
    (CoreState.setReg_kept (F.corTagNow_tag.addr 0) x.tagNow (CoreState.put_kept (f := F.ldgLeaseAct_set) (x := x.lease) (i := 0) h1))
  exact ⟨h2.regs, h2.basin, h2.tags, h2.sstore, h2.vregs, h2.params, Sparse.wf_ofList _, Sparse.wf_ofList _⟩

theorem CoreState.resumeAtFence_kept {c : CoreState} {now : Nat} {x : FenceCore} (h0 : CoreKept c) : CoreKept (CoreState.resumeAtFence c now x) := by
  unfold CoreState.resumeAtFence
  try dsimp only
  repeat' first
    | with_reducible assumption | with_reducible apply CoreState.put_kept | with_reducible apply State.put_kept
    | with_reducible apply OutKept.next | with_reducible apply OutKept.fault
    | with_reducible apply Kept.core (q := kq) (n := kn) | split
    | (refine Kept.intro ?_; dsimp only; with_reducible refine Kept.elim ?_)
    | (refine CoreKept.intro ?_; dsimp only; with_reducible refine CoreKept.elim ?_) | exact CoreKept.reset | intro _
    | dsimp only

theorem State.restoreWindow_kept {s : State} {n : Nat} {granted : List Nat} {ptr : Nat} (h0 : Kept kq kn s) : Kept kq kn (State.restoreWindow s n granted ptr) := by
  unfold State.restoreWindow
  try dsimp only
  repeat' first
    | with_reducible assumption | with_reducible apply CoreState.put_kept | with_reducible apply State.put_kept
    | with_reducible apply State.modWindow_kept | with_reducible apply OutKept.next | with_reducible apply OutKept.fault
    | with_reducible apply Kept.core (q := kq) (n := kn)
    | (refine Kept.intro ?_; dsimp only; with_reducible refine Kept.elim ?_)
    | (refine CoreKept.intro ?_; dsimp only; with_reducible refine CoreKept.elim ?_) | exact CoreKept.reset | intro _
    | dsimp only

theorem State.restoreFence_kept {s : State} {b : Nat} (h0 : Kept kq kn s) : Kept kq kn (State.restoreFence s b) := by
  unfold State.restoreFence
  try dsimp only
  repeat' first
    | with_reducible assumption | with_reducible apply State.modCore_kept | with_reducible apply CoreState.restoreCove_kept
    | with_reducible apply CoreState.restoreMoved_kept | with_reducible apply CoreState.restoreRegs_kept
    | with_reducible apply CoreState.resumeAtFence_kept | with_reducible apply State.restoreWindow_kept
    | with_reducible apply OutKept.next | with_reducible apply OutKept.fault | with_reducible apply Kept.foldl
    | with_reducible apply Kept.foldl_fst | with_reducible apply CoreKept.foldl | with_reducible apply CoreKept.foldl_fst
    | with_reducible apply Kept.foldl_snd | with_reducible apply CoreKept.foldl_snd | with_reducible apply Kept.foldl_state
    | with_reducible apply Kept.core (q := kq) (n := kn)
    | (refine Kept.intro ?_; dsimp only; with_reducible refine Kept.elim ?_)
    | (refine CoreKept.intro ?_; dsimp only; with_reducible refine CoreKept.elim ?_) | exact CoreKept.reset | intro _
    | dsimp only

theorem State.abandonBay_kept {s : State} {b : Nat} (h0 : Kept kq kn s) : Kept kq kn (State.abandonBay s b) := by
  unfold State.abandonBay
  try dsimp only
  repeat' first
    | with_reducible assumption | with_reducible apply State.modBay_kept | with_reducible apply State.abandonCore_kept
    | with_reducible apply State.discardInto_kept | with_reducible apply State.discardReply_kept
    | with_reducible apply onCore_kept | with_reducible apply OutKept.next | with_reducible apply OutKept.fault
    | with_reducible apply Kept.foldl | with_reducible apply Kept.foldl_fst | with_reducible apply CoreKept.foldl
    | with_reducible apply CoreKept.foldl_fst | with_reducible apply Kept.foldl_snd | with_reducible apply CoreKept.foldl_snd
    | with_reducible apply Kept.core (q := kq) (n := kn)
    | (refine Kept.intro ?_; dsimp only; with_reducible refine Kept.elim ?_)
    | (refine CoreKept.intro ?_; dsimp only; with_reducible refine CoreKept.elim ?_) | exact CoreKept.reset | intro _
    | dsimp only

theorem State.fenceBay_kept {s : State} {b : Nat} (h0 : Kept kq kn s) : Kept kq kn (State.fenceBay s b) := by
  unfold State.fenceBay
  try dsimp only
  repeat' first
    | with_reducible assumption | with_reducible apply CoreState.put_kept | with_reducible apply State.put_kept
    | with_reducible apply State.modBay_kept | with_reducible apply CoreState.stopShort_kept
    | with_reducible apply State.discardInto_kept | with_reducible apply State.discardReply_kept
    | with_reducible apply State.modCore_kept | with_reducible apply Kept.foldl | with_reducible apply Kept.foldl_fst
    | with_reducible apply CoreKept.foldl | split | (refine Kept.intro ?_; dsimp only; with_reducible refine Kept.elim ?_)
    | (refine CoreKept.intro ?_; dsimp only; with_reducible refine CoreKept.elim ?_) | intro _ | dsimp only

theorem State.fenceGroup_kept {s : State} {g : Nat} {step : Nat} (h0 : Kept kq kn s) : Kept kq kn (State.fenceGroup s g step) := by
  unfold State.fenceGroup
  try dsimp only
  repeat' first
    | with_reducible assumption | with_reducible apply State.beaconOnce_kept | with_reducible apply State.fenceBay_kept
    | with_reducible apply Kept.foldl | with_reducible apply Kept.foldl_fst | with_reducible apply CoreKept.foldl | intro _
    | dsimp only

theorem State.holdBay_kept {s0 : State} {b : Nat} (h0 : Kept kq kn s0) : Kept kq kn (State.holdBay s0 b) := by
  unfold State.holdBay
  try dsimp only
  repeat' first
    | with_reducible assumption | with_reducible apply CoreState.put_kept | with_reducible apply State.put_kept
    | with_reducible apply State.modBay_kept | with_reducible apply State.restoreFence_kept
    | with_reducible apply State.abandonBay_kept | split
    | (refine Kept.intro ?_; dsimp only; with_reducible refine Kept.elim ?_)
    | (refine CoreKept.intro ?_; dsimp only; with_reducible refine CoreKept.elim ?_) | intro _ | dsimp only

end Sys2Proof.Machine
end

