-- ==== Sys2Proof/Laws/KeptStrait.lean ====
section
/-! SUPPORT. What the operations of Machine/Strait.lean keep (Laws/Kept.lean). -/

namespace Sys2Proof.Machine

variable {kq : List Instr} {kn : Nat}

theorem onPort_kept {port : Nat} {s : State} {f : State → State} (h0 : Kept kq kn s) (h1 : ∀ y0, Kept kq kn y0 → Kept kq kn (f y0)) : OutKept kq kn (onPort port s f) := by
  unfold onPort
  try dsimp only
  repeat' first
    | with_reducible assumption | with_reducible apply h1 | with_reducible apply CoreState.fault_kept
    | with_reducible apply OutKept.next | with_reducible apply OutKept.fault | split | dsimp only

theorem State.setLink_kept {s : State} {n : Nat} {st : Nat} (h0 : Kept kq kn s) : Kept kq kn (State.setLink s n st) := by
  unfold State.setLink
  try dsimp only
  repeat' first
    | with_reducible assumption | with_reducible apply CoreState.put_kept | with_reducible apply State.put_kept
    | with_reducible apply State.modLink_kept | (refine Kept.intro ?_; dsimp only; with_reducible refine Kept.elim ?_)
    | (refine CoreKept.intro ?_; dsimp only; with_reducible refine CoreKept.elim ?_) | intro _ | dsimp only

theorem State.refreshSched_kept {s : State} (h0 : Kept kq kn s) : Kept kq kn (State.refreshSched s) := by
  unfold State.refreshSched
  try dsimp only
  repeat' first
    | with_reducible assumption | with_reducible apply CoreState.put_kept | with_reducible apply State.put_kept
    | with_reducible apply Kept.foldl | with_reducible apply Kept.foldl_fst | with_reducible apply CoreKept.foldl | intro _
    | dsimp only

theorem State.cutTraffic_kept {s : State} {n : Nat} {sched : Bool} (h0 : Kept kq kn s) : Kept kq kn (State.cutTraffic s n sched) := by
  unfold State.cutTraffic
  try dsimp only
  repeat' first
    | with_reducible assumption | with_reducible apply State.discardCons_kept | with_reducible apply Kept.foldl
    | with_reducible apply Kept.foldl_fst | with_reducible apply CoreKept.foldl
    | (refine Kept.intro ?_; dsimp only; with_reducible refine Kept.elim ?_)
    | (refine CoreKept.intro ?_; dsimp only; with_reducible refine CoreKept.elim ?_) | intro _ | dsimp only [id]

theorem State.takeDown_kept {s : State} {n : Nat} {cause : Nat} (h0 : Kept kq kn s) : Kept kq kn (State.takeDown s n cause) := by
  unfold State.takeDown
  try dsimp only
  repeat' first
    | with_reducible assumption | with_reducible apply CoreState.put_kept | with_reducible apply CoreState.bump_kept
    | with_reducible apply State.put_kept | with_reducible apply State.bump_kept | with_reducible apply State.modLink_kept
    | with_reducible apply State.linkEvent_kept | with_reducible apply State.setLink_kept
    | with_reducible apply State.cutTraffic_kept | split
    | (refine Kept.intro ?_; dsimp only; with_reducible refine Kept.elim ?_)
    | (refine CoreKept.intro ?_; dsimp only; with_reducible refine CoreKept.elim ?_) | intro _ | dsimp only

theorem State.linkStart_kept {s : State} {n : Nat} (h0 : Kept kq kn s) : Kept kq kn (State.linkStart s n) := by
  unfold State.linkStart
  try dsimp only
  repeat' first
    | with_reducible assumption | with_reducible apply State.setLink_kept | split | dsimp only

theorem execLinkDown_kept {port : Nat} {cause : Nat} {s : State} (h0 : Kept kq kn s) : OutKept kq kn (execLinkDown port cause s) := by
  unfold execLinkDown
  try dsimp only
  repeat' first
    | with_reducible assumption | with_reducible apply onPort_kept | with_reducible apply State.takeDown_kept
    | with_reducible apply OutKept.next | with_reducible apply OutKept.fault | with_reducible apply Kept.foldl
    | with_reducible apply Kept.foldl_fst | with_reducible apply CoreKept.foldl | split | intro _ | dsimp only

theorem execLinkLost_kept {port : Nat} {s : State} (h0 : Kept kq kn s) : OutKept kq kn (execLinkLost port s) := by
  unfold execLinkLost
  try dsimp only
  repeat' first
    | with_reducible assumption | with_reducible apply CoreState.hwFault_kept | with_reducible apply State.modLink_kept
    | with_reducible apply State.fenceGroup_kept | with_reducible apply onPort_kept | with_reducible apply State.used_kept
    | with_reducible apply State.modCore_kept | with_reducible apply OutKept.next | with_reducible apply OutKept.fault
    | with_reducible apply Kept.foldl | with_reducible apply Kept.foldl_fst | with_reducible apply CoreKept.foldl
    | (refine Kept.intro ?_; dsimp only; with_reducible refine Kept.elim ?_)
    | (refine Kept.intro ?_; dsimp only; with_reducible refine Kept.elim_used _ ?_ ?_)
    | (refine CoreKept.intro ?_; dsimp only; with_reducible refine CoreKept.elim ?_) | intro _ | dsimp only

theorem execLinkTrainDone_kept {port : Nat} {loss : BitVec 16} {margin : BitVec 16} {s : State} (h0 : Kept kq kn s) : OutKept kq kn (execLinkTrainDone port loss margin s) := by
  unfold execLinkTrainDone
  try dsimp only
  repeat' first
    | with_reducible assumption | with_reducible apply onPort_kept | with_reducible apply State.setLink_kept
    | with_reducible apply OutKept.next | with_reducible apply OutKept.fault | split
    | (refine Kept.intro ?_; dsimp only; with_reducible refine Kept.elim ?_)
    | (refine CoreKept.intro ?_; dsimp only; with_reducible refine CoreKept.elim ?_) | intro _ | dsimp only

theorem execLinkLockDone_kept {port : Nat} {s : State} (h0 : Kept kq kn s) : OutKept kq kn (execLinkLockDone port s) := by
  unfold execLinkLockDone
  try dsimp only
  repeat' first
    | with_reducible assumption | with_reducible apply State.modLink_kept | with_reducible apply onPort_kept
    | with_reducible apply State.setLink_kept | with_reducible apply OutKept.next | with_reducible apply OutKept.fault | split
    | (refine Kept.intro ?_; dsimp only; with_reducible refine Kept.elim ?_)
    | (refine CoreKept.intro ?_; dsimp only; with_reducible refine CoreKept.elim ?_) | intro _ | dsimp only

theorem execLinkStateTimeout_kept {port : Nat} {s : State} (h0 : Kept kq kn s) : OutKept kq kn (execLinkStateTimeout port s) := by
  unfold execLinkStateTimeout
  try dsimp only
  repeat' first
    | with_reducible assumption | with_reducible apply CoreState.put_kept | with_reducible apply CoreState.bump_kept
    | with_reducible apply State.put_kept | with_reducible apply State.bump_kept | with_reducible apply onPort_kept
    | with_reducible apply State.setLink_kept | with_reducible apply OutKept.next | with_reducible apply OutKept.fault | split
    | intro _ | dsimp only

theorem State.exchanged_kept {s : State} {port : Nat} (h0 : Kept kq kn s) : Kept kq kn (State.exchanged s port) := by
  unfold State.exchanged
  try dsimp only
  repeat' first
    | with_reducible assumption | with_reducible apply CoreState.put_kept | with_reducible apply State.put_kept
    | with_reducible apply State.modLink_kept | with_reducible apply State.setLink_kept | with_reducible apply OutKept.next
    | with_reducible apply OutKept.fault | with_reducible apply Kept.core (q := kq) (n := kn) | split
    | (refine Kept.intro ?_; dsimp only; with_reducible refine Kept.elim ?_)
    | (refine CoreKept.intro ?_; dsimp only; with_reducible refine CoreKept.elim ?_) | exact CoreKept.reset | intro _
    | dsimp only

theorem execCapabilityRecordSend_kept {port : Nat} {s : State} (h0 : Kept kq kn s) : OutKept kq kn (execCapabilityRecordSend port s) := by
  unfold execCapabilityRecordSend
  try dsimp only
  repeat' first
    | with_reducible assumption | with_reducible apply State.modLink_kept | with_reducible apply onPort_kept
    | with_reducible apply State.exchanged_kept | with_reducible apply OutKept.next | with_reducible apply OutKept.fault | split
    | (refine Kept.intro ?_; dsimp only; with_reducible refine Kept.elim ?_)
    | (refine CoreKept.intro ?_; dsimp only; with_reducible refine CoreKept.elim ?_) | intro _ | dsimp only

theorem execCapabilityRecordReceive_kept {port : Nat} {r : CapRecord} {s : State} (h0 : Kept kq kn s) : OutKept kq kn (execCapabilityRecordReceive port r s) := by
  unfold execCapabilityRecordReceive
  try dsimp only
  repeat' first
    | with_reducible assumption | with_reducible apply State.setReg_kept | with_reducible apply CoreState.setReg_kept
    | with_reducible apply CoreState.put_kept | with_reducible apply State.put_kept | with_reducible apply State.raiseFlag_kept
    | with_reducible apply State.modLink_kept | with_reducible apply State.linkEvent_kept | with_reducible apply onPort_kept
    | with_reducible apply State.exchanged_kept | with_reducible apply OutKept.next | with_reducible apply OutKept.fault
    | with_reducible apply Kept.core (q := kq) (n := kn) | split
    | (refine Kept.intro ?_; dsimp only; with_reducible refine Kept.elim ?_)
    | (refine CoreKept.intro ?_; dsimp only; with_reducible refine CoreKept.elim ?_) | exact CoreKept.reset | intro _
    | with_reducible refine Kept.of_fst ‹_› ?_ | with_reducible refine Kept.of_snd ‹_› ?_
    | with_reducible refine Kept.of_trd ‹_› ?_ | with_reducible refine CoreKept.of_fst ‹_› ?_
    | with_reducible refine CoreKept.of_snd ‹_› ?_ | dsimp only

theorem execLinkUp_kept {port : Nat} {s : State} (h0 : Kept kq kn s) : OutKept kq kn (execLinkUp port s) := by
  unfold execLinkUp
  try dsimp only
  repeat' first
    | with_reducible assumption | with_reducible apply CoreState.put_kept | with_reducible apply State.put_kept
    | with_reducible apply State.linkEvent_kept | with_reducible apply onPort_kept | with_reducible apply State.setLink_kept
    | with_reducible apply State.refreshSched_kept | with_reducible apply OutKept.next | with_reducible apply OutKept.fault
    | split | intro _ | dsimp only

theorem State.jump_kept {s : State} {o : Int} (h0 : Kept kq kn s) : Kept kq kn (State.jump s o) := by
  unfold State.jump
  try dsimp only
  repeat' first
    | with_reducible assumption | with_reducible apply CoreState.put_kept | with_reducible apply State.put_kept
    | with_reducible apply OutKept.next | with_reducible apply OutKept.fault | with_reducible apply Kept.foldl
    | with_reducible apply Kept.foldl_fst | with_reducible apply CoreKept.foldl | with_reducible apply CoreKept.foldl_fst
    | with_reducible apply Kept.foldl_snd | with_reducible apply CoreKept.foldl_snd
    | with_reducible apply Kept.core (q := kq) (n := kn)
    | (refine Kept.intro ?_; dsimp only; with_reducible refine Kept.elim ?_)
    | (refine CoreKept.intro ?_; dsimp only; with_reducible refine CoreKept.elim ?_) | exact CoreKept.reset | intro _
    | dsimp only

theorem State.stopFitting_kept {s : State} {n : Nat} (h0 : Kept kq kn s) : Kept kq kn (State.stopFitting s n) := by
  unfold State.stopFitting
  try dsimp only
  repeat' first
    | with_reducible assumption | with_reducible apply CoreState.put_kept | with_reducible apply State.put_kept
    | with_reducible apply State.modLink_kept | with_reducible apply State.linkEvent_kept
    | with_reducible apply State.cutTraffic_kept | split
    | (refine Kept.intro ?_; dsimp only; with_reducible refine Kept.elim ?_)
    | (refine CoreKept.intro ?_; dsimp only; with_reducible refine CoreKept.elim ?_) | intro _ | dsimp only

theorem State.measured_kept {s : State} {n : Nat} {rtt : Int} {off : Int} (h0 : Kept kq kn s) : Kept kq kn (State.measured s n rtt off) := by
  unfold State.measured
  try dsimp only
  repeat' first
    | with_reducible assumption | with_reducible apply CoreState.put_kept | with_reducible apply State.put_kept
    | with_reducible apply State.modLink_kept | with_reducible apply State.stopFitting_kept | with_reducible apply OutKept.next
    | with_reducible apply OutKept.fault | with_reducible apply Kept.core (q := kq) (n := kn) | split
    | (refine Kept.intro ?_; dsimp only; with_reducible refine Kept.elim ?_)
    | (refine CoreKept.intro ?_; dsimp only; with_reducible refine CoreKept.elim ?_) | exact CoreKept.reset | intro _
    | dsimp only

theorem State.steer_kept {s : State} {n : Nat} {o : Int} (h0 : Kept kq kn s) : Kept kq kn (State.steer s n o) := by
  unfold State.steer
  try dsimp only
  repeat' first
    | with_reducible assumption | with_reducible apply State.modLink_kept | with_reducible apply OutKept.next
    | with_reducible apply OutKept.fault | with_reducible apply Kept.core (q := kq) (n := kn)
    | (refine Kept.intro ?_; dsimp only; with_reducible refine Kept.elim ?_)
    | (refine CoreKept.intro ?_; dsimp only; with_reducible refine CoreKept.elim ?_) | exact CoreKept.reset | intro _
    | dsimp only

theorem State.align_kept {s : State} {n : Nat} {depth : Nat} {off : Int} (h0 : Kept kq kn s) : Kept kq kn (State.align s n depth off) := by
  unfold State.align
  try dsimp only
  repeat' first
    | with_reducible assumption | with_reducible apply State.used_kept | with_reducible apply CoreState.put_kept
    | with_reducible apply State.put_kept | with_reducible apply State.linkEvent_kept | with_reducible apply State.jump_kept
    | with_reducible apply State.steer_kept | with_reducible apply OutKept.next | with_reducible apply OutKept.fault
    | with_reducible apply Kept.core (q := kq) (n := kn) | split
    | (refine Kept.intro ?_; dsimp only; with_reducible refine Kept.elim ?_)
    | (refine Kept.intro ?_; dsimp only; with_reducible refine Kept.elim_used _ ?_ ?_)
    | (refine CoreKept.intro ?_; dsimp only; with_reducible refine CoreKept.elim ?_) | exact CoreKept.reset | intro _
    | dsimp only

theorem State.drift_kept {s : State} {n : Nat} (h0 : Kept kq kn s) : Kept kq kn (State.drift s n) := by
  unfold State.drift
  try dsimp only
  repeat' first
    | with_reducible assumption | with_reducible apply CoreState.put_kept | with_reducible apply State.put_kept
    | with_reducible apply OutKept.next | with_reducible apply OutKept.fault
    | with_reducible apply Kept.core (q := kq) (n := kn) | split
    | (refine Kept.intro ?_; dsimp only; with_reducible refine Kept.elim ?_)
    | (refine CoreKept.intro ?_; dsimp only; with_reducible refine CoreKept.elim ?_) | exact CoreKept.reset | intro _
    | dsimp only

theorem execBeaconExchange_kept {port : Nat} {t1 : Int} {t2 : Int} {t3 : Int} {t4 : Int} {parentOk : Bool} {parentDepth : Nat} {s : State} (h0 : Kept kq kn s) : OutKept kq kn (execBeaconExchange port t1 t2 t3 t4 parentOk parentDepth s) := by
  unfold execBeaconExchange
  try dsimp only
  repeat' first
    | with_reducible assumption | with_reducible apply onPort_kept | with_reducible apply State.refreshSched_kept
    | with_reducible apply State.jump_kept | with_reducible apply State.measured_kept | with_reducible apply State.align_kept
    | with_reducible apply State.drift_kept | with_reducible apply OutKept.next | with_reducible apply OutKept.fault
    | with_reducible apply Kept.core (q := kq) (n := kn) | split
    | (refine Kept.intro ?_; dsimp only; with_reducible refine Kept.elim ?_)
    | (refine Kept.intro ?_; dsimp only; with_reducible refine Kept.elim_used _ ?_ ?_)
    | (refine CoreKept.intro ?_; dsimp only; with_reducible refine CoreKept.elim ?_) | exact CoreKept.reset | intro _
    | dsimp only

theorem State.takePosition_kept {s s1 : State} {i : Nat} {f : Flit} {x : Consign} {y : StraitSlot} (h0 : Kept kq kn s)
    (e : s.takePosition i f x = some (y, s1)) : Kept kq kn s1 := by
  unfold State.takePosition at e
  split at e
  · cases e
    refine Kept.intro ?_
    dsimp only
    with_reducible refine Kept.elim ?_
    exact State.modLink_kept h0
  · split at e
    · cases e
      exact State.modLink_kept h0
    · cases e

theorem State.takeSched_kept {s : State} {i : Nat} {x : Flit × Consign} {r : StraitSlot × State} (h0 : Kept kq kn s)
    (e : s.takeSched i x = some r) : Kept kq kn r.2 := by
  unfold State.takeSched at e
  cases e1 : s.takePosition i x.1 x.2 with
  | none => rw [e1] at e; cases e
  | some y =>
    rw [e1] at e
    cases e
    exact State.countSent_kept (State.takePosition_kept h0 e1)

theorem State.fillPosition_kept {s : State} {i tick : Nat} (h0 : Kept kq kn s) : Kept kq kn (s.fillPosition i tick).2 := by
  unfold State.fillPosition
  dsimp only
  split
  · next e =>
    obtain ⟨x, -, hx⟩ := Option.bind_eq_some_iff.1 e
    exact State.takeSched_kept h0 hx
  · split
    · dsimp only
      exact State.modLink_kept h0
    · split
      · exact h0
      · split
        · next e =>
          obtain ⟨x, -, hx⟩ := Option.bind_eq_some_iff.1 e
          exact State.takePosition_kept h0 hx
        · exact h0

theorem State.fillPositions_kept {s : State} {n : Nat} {k : Nat} {tick : Nat} (h0 : Kept kq kn s) : Kept kq kn (State.fillPositions s n k tick).2 := by
  induction k generalizing s n tick with
  | zero =>
    unfold State.fillPositions
    try dsimp only
    repeat' first
      | with_reducible assumption | with_reducible apply State.fillPosition_kept | split
      | with_reducible refine Kept.of_fst ‹_› ?_ | with_reducible refine Kept.of_snd ‹_› ?_
      | with_reducible refine Kept.of_trd ‹_› ?_ | with_reducible refine CoreKept.of_fst ‹_› ?_
      | with_reducible refine CoreKept.of_snd ‹_› ?_ | dsimp only
  | succ z ih =>
    unfold State.fillPositions
    try dsimp only
    repeat' first
      | with_reducible assumption | with_reducible apply ih | with_reducible apply State.fillPosition_kept | split
      | with_reducible refine Kept.of_fst ‹_› ?_ | with_reducible refine Kept.of_snd ‹_› ?_
      | with_reducible refine Kept.of_trd ‹_› ?_ | with_reducible refine CoreKept.of_fst ‹_› ?_
      | with_reducible refine CoreKept.of_snd ‹_› ?_ | dsimp only

theorem State.straitHold_kept {s : State} {n : Nat} (h0 : Kept kq kn s) : Kept kq kn (State.straitHold s n) := by
  unfold State.straitHold
  try dsimp only
  repeat' first
    | with_reducible assumption | with_reducible apply State.perturb_kept | with_reducible apply OutKept.next
    | with_reducible apply OutKept.fault | with_reducible apply Kept.foldl | with_reducible apply Kept.foldl_fst
    | with_reducible apply CoreKept.foldl | with_reducible apply CoreKept.foldl_fst | with_reducible apply Kept.foldl_snd
    | with_reducible apply CoreKept.foldl_snd | with_reducible apply Kept.core (q := kq) (n := kn) | split
    | (refine Kept.intro ?_; dsimp only; with_reducible refine Kept.elim ?_)
    | (refine CoreKept.intro ?_; dsimp only; with_reducible refine CoreKept.elim ?_) | exact CoreKept.reset | intro _
    | dsimp only

theorem State.fillLate_kept {s : State} {n : Nat} (h0 : Kept kq kn s) : Kept kq kn (State.fillLate s n) := by
  unfold State.fillLate
  try dsimp only
  repeat' first
    | with_reducible assumption | with_reducible apply State.modLink_kept | with_reducible apply State.settleRevokes_kept
    | with_reducible apply State.fillPosition_kept | with_reducible apply OutKept.next | with_reducible apply OutKept.fault
    | with_reducible apply Kept.core (q := kq) (n := kn) | split
    | (refine Kept.intro ?_; dsimp only; with_reducible refine Kept.elim ?_)
    | (refine CoreKept.intro ?_; dsimp only; with_reducible refine CoreKept.elim ?_) | exact CoreKept.reset | intro _
    | with_reducible refine Kept.of_fst ‹_› ?_ | with_reducible refine Kept.of_snd ‹_› ?_
    | with_reducible refine Kept.of_trd ‹_› ?_ | with_reducible refine CoreKept.of_fst ‹_› ?_
    | with_reducible refine CoreKept.of_snd ‹_› ?_ | dsimp only

theorem execStraitBlockSend_kept {port : Nat} {s : State} (h0 : Kept kq kn s) : OutKept kq kn (execStraitBlockSend port s) := by
  unfold execStraitBlockSend
  try dsimp only
  repeat' first
    | with_reducible assumption | with_reducible apply State.modLink_kept | with_reducible apply State.settleRevokes_kept
    | with_reducible apply onPort_kept | with_reducible apply State.fillPositions_kept
    | with_reducible apply State.straitHold_kept | with_reducible apply OutKept.next | with_reducible apply OutKept.fault
    | with_reducible apply Kept.core (q := kq) (n := kn) | split
    | (refine Kept.intro ?_; dsimp only; with_reducible refine Kept.elim ?_)
    | (refine CoreKept.intro ?_; dsimp only; with_reducible refine CoreKept.elim ?_) | exact CoreKept.reset | intro _
    | dsimp only

theorem State.noteHop_kept {s : State} {port : Nat} (h0 : Kept kq kn s) : Kept kq kn (State.noteHop s port) := by
  unfold State.noteHop
  try dsimp only
  repeat' first
    | with_reducible assumption | with_reducible apply State.modLink_kept | with_reducible apply OutKept.next
    | with_reducible apply OutKept.fault | with_reducible apply Kept.core (q := kq) (n := kn)
    | (refine Kept.intro ?_; dsimp only; with_reducible refine Kept.elim ?_)
    | (refine CoreKept.intro ?_; dsimp only; with_reducible refine CoreKept.elim ?_) | exact CoreKept.reset | intro _
    | dsimp only

theorem State.takeSlot_kept {s : State} {port : Nat} {tick : Nat} {i : Nat} {x : StraitSlot} {bad : Bool} (h0 : Kept kq kn s) : Kept kq kn (State.takeSlot s port tick i x bad) := by
  unfold State.takeSlot
  try dsimp only
  repeat' first
    | with_reducible assumption | with_reducible apply CoreState.put_kept | with_reducible apply CoreState.bump_kept
    | with_reducible apply State.put_kept | with_reducible apply State.bump_kept | with_reducible apply State.modLink_kept
    | with_reducible apply State.stopFitting_kept | with_reducible apply OutKept.next | with_reducible apply OutKept.fault
    | with_reducible apply Kept.core (q := kq) (n := kn) | split
    | (refine Kept.intro ?_; dsimp only; with_reducible refine Kept.elim ?_)
    | (refine Kept.intro ?_; dsimp only; with_reducible refine Kept.elim_used _ ?_ ?_)
    | (refine CoreKept.intro ?_; dsimp only; with_reducible refine CoreKept.elim ?_) | exact CoreKept.reset | intro _
    | with_reducible refine Kept.of_fst ‹_› ?_ | with_reducible refine Kept.of_snd ‹_› ?_
    | with_reducible refine Kept.of_trd ‹_› ?_ | with_reducible refine CoreKept.of_fst ‹_› ?_
    | with_reducible refine CoreKept.of_snd ‹_› ?_ | dsimp only [id] | dsimp only

theorem execStraitBlockReceive_kept {port : Nat} {b : StraitBlock} {s : State} (h0 : Kept kq kn s) : OutKept kq kn (execStraitBlockReceive port b s) := by
  unfold execStraitBlockReceive
  try dsimp only
  repeat' first
    | with_reducible assumption | with_reducible apply CoreState.bump_kept | with_reducible apply State.bump_kept
    | with_reducible apply State.modLink_kept | with_reducible apply onPort_kept | with_reducible apply State.takeSlot_kept
    | with_reducible apply OutKept.next | with_reducible apply OutKept.fault | with_reducible apply Kept.foldl
    | with_reducible apply Kept.foldl_fst | with_reducible apply CoreKept.foldl | with_reducible apply CoreKept.foldl_fst
    | with_reducible apply Kept.foldl_snd | with_reducible apply CoreKept.foldl_snd
    | with_reducible apply Kept.core (q := kq) (n := kn) | split
    | (refine Kept.intro ?_; dsimp only; with_reducible refine Kept.elim ?_)
    | (refine CoreKept.intro ?_; dsimp only; with_reducible refine CoreKept.elim ?_) | exact CoreKept.reset | intro _
    | with_reducible refine Kept.of_fst ‹_› ?_ | with_reducible refine Kept.of_snd ‹_› ?_
    | with_reducible refine Kept.of_trd ‹_› ?_ | with_reducible refine CoreKept.of_fst ‹_› ?_
    | with_reducible refine CoreKept.of_snd ‹_› ?_ | dsimp only

end Sys2Proof.Machine
end

