-- ==== Sys2Proof/Laws/KeptSchedule.lean ====
section
/-! SUPPORT. What the operations of Machine/Schedule.lean keep (Laws/Kept.lean). -/

namespace Sys2Proof.Machine

variable {kq : List Instr} {kn : Nat}

theorem onBay_kept {bay : Nat} {s : State} {f : State → State} (h0 : Kept kq kn s) (h1 : ∀ y0, Kept kq kn y0 → Kept kq kn (f y0)) : OutKept kq kn (onBay bay s f) := by
  unfold onBay
  try dsimp only
  repeat' first
    | with_reducible assumption | with_reducible apply h1 | with_reducible apply CoreState.fault_kept
    | with_reducible apply OutKept.next | with_reducible apply OutKept.fault | split | dsimp only

theorem State.armBay_kept {s : State} {b : Nat} {v : Reg64} (h0 : Kept kq kn s) : Kept kq kn (State.armBay s b v) := by
  unfold State.armBay
  try dsimp only
  repeat' first
    | with_reducible assumption | with_reducible apply State.setReg_kept | with_reducible apply CoreState.setReg_kept
    | with_reducible apply CoreState.put_kept | with_reducible apply State.put_kept | with_reducible apply State.modBay_kept
    | with_reducible apply State.forgetTold_kept | with_reducible apply OutKept.next | with_reducible apply OutKept.fault
    | with_reducible apply Kept.core (q := kq) (n := kn)
    | (refine Kept.intro ?_; dsimp only; with_reducible refine Kept.elim ?_)
    | (refine CoreKept.intro ?_; dsimp only; with_reducible refine CoreKept.elim ?_) | exact CoreKept.reset | intro _
    | dsimp only

theorem State.regrid_kept {s : State} {b : Nat} {v : Reg64} (h0 : Kept kq kn s) : Kept kq kn (State.regrid s b v) := by
  unfold State.regrid
  try dsimp only
  repeat' first
    | with_reducible assumption | with_reducible apply State.setReg_kept | with_reducible apply CoreState.setReg_kept
    | with_reducible apply State.modBay_kept | with_reducible apply OutKept.next | with_reducible apply OutKept.fault
    | with_reducible apply Kept.core (q := kq) (n := kn)
    | (refine Kept.intro ?_; dsimp only; with_reducible refine Kept.elim ?_)
    | (refine CoreKept.intro ?_; dsimp only; with_reducible refine CoreKept.elim ?_) | exact CoreKept.reset | intro _
    | dsimp only

theorem CoreState.stopHere_kept {c : CoreState} (h0 : CoreKept c) : CoreKept (CoreState.stopHere c) := by
  unfold CoreState.stopHere
  try dsimp only
  repeat' first
    | with_reducible assumption | with_reducible apply CoreState.put_kept | with_reducible apply State.put_kept
    | (refine Kept.intro ?_; dsimp only; with_reducible refine Kept.elim ?_)
    | (refine CoreKept.intro ?_; dsimp only; with_reducible refine CoreKept.elim ?_) | dsimp only

theorem State.disarmBay_kept {s : State} {b : Nat} {v : Reg64} (h0 : Kept kq kn s) : Kept kq kn (State.disarmBay s b v) := by
  unfold State.disarmBay
  try dsimp only
  repeat' first
    | with_reducible assumption | with_reducible apply CoreState.put_kept | with_reducible apply State.put_kept
    | with_reducible apply State.modBay_kept | with_reducible apply CoreState.stopHere_kept
    | with_reducible apply State.modCore_kept | with_reducible apply State.setReg_kept
    | with_reducible apply CoreState.setReg_kept | with_reducible apply Kept.foldl | with_reducible apply Kept.foldl_fst
    | with_reducible apply CoreKept.foldl | split | (refine Kept.intro ?_; dsimp only; with_reducible refine Kept.elim ?_)
    | (refine CoreKept.intro ?_; dsimp only; with_reducible refine CoreKept.elim ?_) | exact CoreKept.reset | intro _
    | dsimp only

theorem State.drainBay_kept {s : State} {b : Nat} (h0 : Kept kq kn s) : Kept kq kn (State.drainBay s b) := by
  unfold State.drainBay
  try dsimp only
  repeat' first
    | with_reducible assumption | with_reducible apply CoreState.put_kept | with_reducible apply State.put_kept
    | with_reducible apply State.modBay_kept | with_reducible apply OutKept.next | with_reducible apply OutKept.fault
    | with_reducible apply Kept.core (q := kq) (n := kn)
    | (refine Kept.intro ?_; dsimp only; with_reducible refine Kept.elim ?_)
    | (refine CoreKept.intro ?_; dsimp only; with_reducible refine CoreKept.elim ?_) | exact CoreKept.reset | intro _
    | dsimp only

theorem CoreState.leaveFence_kept {c : CoreState} {drain : Bool} (h0 : CoreKept c) : CoreKept (CoreState.leaveFence c drain) := by
  unfold CoreState.leaveFence
  try dsimp only
  repeat' first
    | with_reducible assumption | with_reducible apply CoreState.stopIssue_kept | split
    | (refine Kept.intro ?_; dsimp only; with_reducible refine Kept.elim ?_)
    | (refine CoreKept.intro ?_; dsimp only; with_reducible refine CoreKept.elim ?_) | dsimp only

theorem State.pruneSent_kept {s : State} (h0 : Kept kq kn s) : Kept kq kn (State.pruneSent s) := by
  unfold State.pruneSent
  try dsimp only
  repeat' first
    | with_reducible assumption | (refine Kept.intro ?_; dsimp only; with_reducible refine Kept.elim ?_)
    | (refine CoreKept.intro ?_; dsimp only; with_reducible refine CoreKept.elim ?_) | intro _ | dsimp only [id]

theorem State.startStep_kept {s : State} {b : Nat} (h0 : Kept kq kn s) : Kept kq kn (State.startStep s b) := by
  unfold State.startStep
  try dsimp only
  repeat' first
    | with_reducible assumption | with_reducible apply State.modCore_kept | with_reducible apply CoreState.put_kept
    | with_reducible apply CoreState.wrap_kept | with_reducible apply State.put_kept | with_reducible apply State.wrap_kept
    | with_reducible apply State.modBay_kept | with_reducible apply State.takeFence_kept
    | with_reducible apply CoreState.leaveFence_kept | with_reducible apply State.pruneSent_kept
    | with_reducible apply OutKept.next | with_reducible apply OutKept.fault | with_reducible apply Kept.foldl
    | with_reducible apply Kept.foldl_fst | with_reducible apply CoreKept.foldl | with_reducible apply CoreKept.foldl_fst
    | with_reducible apply Kept.foldl_snd | with_reducible apply CoreKept.foldl_snd
    | with_reducible apply Kept.core (q := kq) (n := kn)
    | (refine Kept.intro ?_; dsimp only; with_reducible refine Kept.elim ?_)
    | (refine CoreKept.intro ?_; dsimp only; with_reducible refine CoreKept.elim ?_) | exact CoreKept.reset | intro _
    | dsimp only

theorem execStepStart_kept {bay : Nat} {s : State} (h0 : Kept kq kn s) : OutKept kq kn (execStepStart bay s) := by
  unfold execStepStart
  try dsimp only
  repeat' first
    | with_reducible assumption | with_reducible apply onBay_kept | with_reducible apply State.startStep_kept
    | with_reducible apply OutKept.next | with_reducible apply OutKept.fault | split | intro _ | dsimp only

theorem execFrameEnd_kept {bay : Nat} {s : State} (h0 : Kept kq kn s) : OutKept kq kn (execFrameEnd bay s) := by
  unfold execFrameEnd
  try dsimp only
  repeat' first
    | with_reducible assumption | with_reducible apply CoreState.bump_kept | with_reducible apply State.bump_kept
    | with_reducible apply State.charge_kept | with_reducible apply State.modBay_kept | with_reducible apply onBay_kept
    | with_reducible apply OutKept.next | with_reducible apply OutKept.fault | with_reducible apply Kept.foldl
    | with_reducible apply Kept.foldl_fst | with_reducible apply CoreKept.foldl | split
    | (refine Kept.intro ?_; dsimp only; with_reducible refine Kept.elim ?_)
    | (refine CoreKept.intro ?_; dsimp only; with_reducible refine CoreKept.elim ?_) | intro _ | dsimp only

theorem execLoadStepAssert_kept {s : State} (h0 : Kept kq kn s) : OutKept kq kn (execLoadStepAssert s) := by
  unfold execLoadStepAssert
  try dsimp only
  repeat' first
    | with_reducible assumption | with_reducible apply OutKept.next | with_reducible apply OutKept.fault | split
    | (refine Kept.intro ?_; dsimp only; with_reducible refine Kept.elim ?_)
    | (refine CoreKept.intro ?_; dsimp only; with_reducible refine CoreKept.elim ?_) | dsimp only

theorem execLoadStepRelease_kept {s : State} (h0 : Kept kq kn s) : OutKept kq kn (execLoadStepRelease s) := by
  unfold execLoadStepRelease
  try dsimp only
  repeat' first
    | with_reducible assumption | with_reducible apply OutKept.next | with_reducible apply OutKept.fault | split
    | (refine Kept.intro ?_; dsimp only; with_reducible refine Kept.elim ?_)
    | (refine CoreKept.intro ?_; dsimp only; with_reducible refine CoreKept.elim ?_) | dsimp only

theorem State.breach_kept {s : State} {b : Nat} {short : List Nat} (h0 : Kept kq kn s) : Kept kq kn (State.breach s b short) := by
  unfold State.breach
  try dsimp only
  repeat' first
    | with_reducible assumption | with_reducible apply CoreState.put_kept | with_reducible apply CoreState.bump_kept
    | with_reducible apply State.put_kept | with_reducible apply State.bump_kept | with_reducible apply State.modBay_kept
    | with_reducible apply CoreState.cutShort_kept | with_reducible apply State.modCore_kept | with_reducible apply Kept.foldl
    | with_reducible apply Kept.foldl_fst | with_reducible apply CoreKept.foldl
    | (refine Kept.intro ?_; dsimp only; with_reducible refine Kept.elim ?_)
    | (refine CoreKept.intro ?_; dsimp only; with_reducible refine CoreKept.elim ?_) | exact CoreKept.reset | intro _
    | dsimp only

theorem State.noteBreach_kept {s : State} {b : Nat} {short : List Nat} (h0 : Kept kq kn s) : Kept kq kn (State.noteBreach s b short) := by
  unfold State.noteBreach
  try dsimp only
  repeat' first
    | with_reducible assumption | with_reducible apply CoreState.put_kept | with_reducible apply State.put_kept
    | with_reducible apply Kept.foldl | with_reducible apply Kept.foldl_fst | with_reducible apply CoreKept.foldl | intro _
    | dsimp only

theorem State.repeatFault_kept {s : State} {core : Nat} (h0 : Kept kq kn s) : Kept kq kn (State.repeatFault s core) := by
  unfold State.repeatFault
  try dsimp only
  repeat' first
    | with_reducible assumption | with_reducible apply State.setCore_kept | with_reducible apply State.used_kept
    | with_reducible apply CoreState.fault_kept | with_reducible apply OutKept.next | with_reducible apply OutKept.fault
    | with_reducible apply Kept.core (q := kq) (n := kn) | split
    | (refine Kept.intro ?_; dsimp only; with_reducible refine Kept.elim ?_)
    | (refine Kept.intro ?_; dsimp only; with_reducible refine Kept.elim_used _ ?_ ?_)
    | (refine CoreKept.intro ?_; dsimp only; with_reducible refine CoreKept.elim ?_) | exact CoreKept.reset | intro _
    | with_reducible refine Kept.of_fst ‹_› ?_ | with_reducible refine Kept.of_snd ‹_› ?_
    | with_reducible refine Kept.of_trd ‹_› ?_ | with_reducible refine CoreKept.of_fst ‹_› ?_
    | with_reducible refine CoreKept.of_snd ‹_› ?_ | dsimp only

theorem State.breachGroup_kept {s : State} {g : Nat} {step : Nat} (h0 : Kept kq kn s) : Kept kq kn (State.breachGroup s g step) := by
  unfold State.breachGroup
  try dsimp only
  repeat' first
    | with_reducible assumption | with_reducible apply State.breach_kept | with_reducible apply OutKept.next
    | with_reducible apply OutKept.fault | with_reducible apply Kept.foldl | with_reducible apply Kept.foldl_fst
    | with_reducible apply CoreKept.foldl | with_reducible apply CoreKept.foldl_fst | with_reducible apply Kept.foldl_snd
    | with_reducible apply CoreKept.foldl_snd | with_reducible apply Kept.core (q := kq) (n := kn) | split
    | (refine Kept.intro ?_; dsimp only; with_reducible refine Kept.elim ?_)
    | (refine CoreKept.intro ?_; dsimp only; with_reducible refine CoreKept.elim ?_) | exact CoreKept.reset | intro _
    | dsimp only

theorem execStepLimit_kept {bay : Nat} {s : State} (h0 : Kept kq kn s) : OutKept kq kn (execStepLimit bay s) := by
  unfold execStepLimit
  try dsimp only
  repeat' first
    | with_reducible assumption | with_reducible apply State.raiseFlag_kept | with_reducible apply State.modBay_kept
    | with_reducible apply State.beaconOnce_kept | with_reducible apply State.holdBay_kept | with_reducible apply onBay_kept
    | with_reducible apply State.breach_kept | with_reducible apply State.noteBreach_kept
    | with_reducible apply State.repeatFault_kept | with_reducible apply State.breachGroup_kept
    | with_reducible apply OutKept.next | with_reducible apply OutKept.fault | with_reducible apply Kept.foldl
    | with_reducible apply Kept.foldl_fst | with_reducible apply CoreKept.foldl | with_reducible apply CoreKept.foldl_fst
    | with_reducible apply Kept.foldl_snd | with_reducible apply CoreKept.foldl_snd
    | with_reducible apply Kept.core (q := kq) (n := kn) | split
    | (refine Kept.intro ?_; dsimp only; with_reducible refine Kept.elim ?_)
    | (refine CoreKept.intro ?_; dsimp only; with_reducible refine CoreKept.elim ?_) | exact CoreKept.reset | intro _
    | dsimp only

theorem execBreachBeaconReceive_kept {group : Nat} {step : Nat} {s : State} (h0 : Kept kq kn s) : OutKept kq kn (execBreachBeaconReceive group step s) := by
  unfold execBreachBeaconReceive
  try dsimp only
  repeat' first
    | with_reducible assumption | with_reducible apply State.beaconOnce_kept | with_reducible apply State.breach_kept
    | with_reducible apply State.breachGroup_kept | with_reducible apply OutKept.next | with_reducible apply OutKept.fault
    | with_reducible apply Kept.core (q := kq) (n := kn)
    | (refine Kept.intro ?_; dsimp only; with_reducible refine Kept.elim ?_)
    | (refine CoreKept.intro ?_; dsimp only; with_reducible refine CoreKept.elim ?_) | exact CoreKept.reset | intro _
    | dsimp only

theorem execRepeatBeaconReceive_kept {group : Nat} {step : Nat} {s : State} (h0 : Kept kq kn s) : OutKept kq kn (execRepeatBeaconReceive group step s) := by
  unfold execRepeatBeaconReceive
  try dsimp only
  repeat' first
    | with_reducible assumption | with_reducible apply State.raiseFlag_kept | with_reducible apply State.beaconOnce_kept
    | with_reducible apply State.holdBay_kept | with_reducible apply OutKept.next | with_reducible apply OutKept.fault
    | with_reducible apply Kept.foldl | with_reducible apply Kept.foldl_fst | with_reducible apply CoreKept.foldl
    | with_reducible apply CoreKept.foldl_fst | with_reducible apply Kept.foldl_snd | with_reducible apply CoreKept.foldl_snd
    | with_reducible apply Kept.core (q := kq) (n := kn) | split
    | (refine Kept.intro ?_; dsimp only; with_reducible refine Kept.elim ?_)
    | (refine CoreKept.intro ?_; dsimp only; with_reducible refine CoreKept.elim ?_) | exact CoreKept.reset | intro _
    | dsimp only

theorem execBreachRestore_kept {bay : Nat} {s : State} (h0 : Kept kq kn s) : OutKept kq kn (execBreachRestore bay s) := by
  unfold execBreachRestore
  try dsimp only
  repeat' first
    | with_reducible assumption | with_reducible apply State.modBay_kept | with_reducible apply State.restoreFence_kept
    | with_reducible apply State.abandonBay_kept | with_reducible apply onBay_kept | with_reducible apply OutKept.next
    | with_reducible apply OutKept.fault | split | (refine Kept.intro ?_; dsimp only; with_reducible refine Kept.elim ?_)
    | (refine CoreKept.intro ?_; dsimp only; with_reducible refine CoreKept.elim ?_) | intro _ | dsimp only

theorem execReplayStart_kept {bay : Nat} {s : State} (h0 : Kept kq kn s) : OutKept kq kn (execReplayStart bay s) := by
  unfold execReplayStart
  try dsimp only
  repeat' first
    | with_reducible assumption | with_reducible apply State.modCore_kept | with_reducible apply CoreState.put_kept
    | with_reducible apply State.put_kept | with_reducible apply State.modBay_kept | with_reducible apply State.forgetTold_kept
    | with_reducible apply onBay_kept | with_reducible apply CoreState.leaveFence_kept | with_reducible apply OutKept.next
    | with_reducible apply OutKept.fault | with_reducible apply Kept.foldl | with_reducible apply Kept.foldl_fst
    | with_reducible apply CoreKept.foldl | with_reducible apply CoreKept.foldl_fst | with_reducible apply Kept.foldl_snd
    | with_reducible apply CoreKept.foldl_snd | with_reducible apply Kept.core (q := kq) (n := kn) | split
    | (refine Kept.intro ?_; dsimp only; with_reducible refine Kept.elim ?_)
    | (refine CoreKept.intro ?_; dsimp only; with_reducible refine CoreKept.elim ?_) | exact CoreKept.reset | intro _
    | with_reducible refine Kept.of_fst ‹_› ?_ | with_reducible refine Kept.of_snd ‹_› ?_
    | with_reducible refine Kept.of_trd ‹_› ?_ | with_reducible refine CoreKept.of_fst ‹_› ?_
    | with_reducible refine CoreKept.of_snd ‹_› ?_ | dsimp only

theorem CoreState.abandonOp_kept {c : CoreState} {unit : Nat} {w : WordCtx} (h0 : CoreKept c) : CoreKept (CoreState.abandonOp c unit w) := by
  unfold CoreState.abandonOp
  try dsimp only
  repeat' first
    | with_reducible assumption | with_reducible apply CoreState.dropPass_kept | with_reducible apply OutKept.next
    | with_reducible apply OutKept.fault | with_reducible apply Kept.core (q := kq) (n := kn) | split
    | (refine Kept.intro ?_; dsimp only; with_reducible refine Kept.elim ?_)
    | (refine CoreKept.intro ?_; dsimp only; with_reducible refine CoreKept.elim ?_) | exact CoreKept.reset | intro _
    | with_reducible refine Kept.of_fst ‹_› ?_ | with_reducible refine Kept.of_snd ‹_› ?_
    | with_reducible refine Kept.of_trd ‹_› ?_ | with_reducible refine CoreKept.of_fst ‹_› ?_
    | with_reducible refine CoreKept.of_snd ‹_› ?_ | dsimp only

theorem State.abandonWait_kept {s : State} {p : Nat} {core : Nat} {w : Wait} (h0 : Kept kq kn s) : Kept kq kn (State.abandonWait s p core w) := by
  unfold State.abandonWait
  try dsimp only
  repeat' first
    | with_reducible assumption | with_reducible apply State.setCore_kept | with_reducible apply CoreState.endLdg_kept
    | with_reducible apply State.dropReqs_kept | with_reducible apply State.discardCons_kept
    | with_reducible apply CoreState.abandonOp_kept | with_reducible apply OutKept.next | with_reducible apply OutKept.fault
    | with_reducible apply Kept.foldl | with_reducible apply Kept.foldl_fst | with_reducible apply CoreKept.foldl
    | with_reducible apply CoreKept.foldl_fst | with_reducible apply Kept.foldl_snd | with_reducible apply CoreKept.foldl_snd
    | with_reducible apply Kept.core (q := kq) (n := kn) | split
    | (refine Kept.intro ?_; dsimp only; with_reducible refine Kept.elim ?_)
    | (refine CoreKept.intro ?_; dsimp only; with_reducible refine CoreKept.elim ?_) | exact CoreKept.reset | intro _
    | dsimp only

theorem execDeadlineExpire_kept {core : Nat} {s : State} (h0 : Kept kq kn s) : OutKept kq kn (execDeadlineExpire core s) := by
  unfold execDeadlineExpire
  try dsimp only
  repeat' first
    | with_reducible assumption | with_reducible apply State.modCore_kept | with_reducible apply CoreState.fault_kept
    | with_reducible apply State.abandonWait_kept | with_reducible apply onLive_kept | with_reducible apply OutKept.next
    | with_reducible apply OutKept.fault | with_reducible apply Kept.foldl | with_reducible apply Kept.foldl_fst
    | with_reducible apply CoreKept.foldl | with_reducible apply CoreKept.foldl_fst | with_reducible apply Kept.foldl_snd
    | with_reducible apply CoreKept.foldl_snd | with_reducible apply Kept.core (q := kq) (n := kn) | split
    | (refine Kept.intro ?_; dsimp only; with_reducible refine Kept.elim ?_)
    | (refine CoreKept.intro ?_; dsimp only; with_reducible refine CoreKept.elim ?_) | exact CoreKept.reset | intro _
    | with_reducible refine Kept.of_fst ‹_› ?_ | with_reducible refine Kept.of_snd ‹_› ?_
    | with_reducible refine Kept.of_trd ‹_› ?_ | with_reducible refine CoreKept.of_fst ‹_› ?_
    | with_reducible refine CoreKept.of_snd ‹_› ?_ | dsimp only

theorem execContextLossStop_kept {core : Nat} {s : State} (h0 : Kept kq kn s) : OutKept kq kn (execContextLossStop core s) := by
  unfold execContextLossStop
  try dsimp only
  repeat' first
    | with_reducible assumption | with_reducible apply State.setCore_kept | with_reducible apply onLive_kept
    | with_reducible apply OutKept.next | with_reducible apply OutKept.fault
    | with_reducible apply Kept.core (q := kq) (n := kn) | split
    | (refine Kept.intro ?_; dsimp only; with_reducible refine Kept.elim ?_)
    | (refine CoreKept.intro ?_; dsimp only; with_reducible refine CoreKept.elim ?_) | intro _ | dsimp only

end Sys2Proof.Machine
end

