-- ==== Sys2Proof/Laws/KeptMending.lean ====
section
/-! SUPPORT. What the operations of Machine/Mending.lean keep (Laws/Kept.lean). -/

namespace Sys2Proof.Machine

variable {kq : List Instr} {kn : Nat}

theorem onShoal_kept {shoal : Nat} {s : State} {f : State → State} (h0 : Kept kq kn s) (h1 : ∀ y0, Kept kq kn y0 → Kept kq kn (f y0)) : OutKept kq kn (onShoal shoal s f) := by
  unfold onShoal
  try dsimp only
  repeat' first
    | with_reducible assumption | with_reducible apply h1 | with_reducible apply CoreState.fault_kept
    | with_reducible apply OutKept.next | with_reducible apply OutKept.fault | split | dsimp only

theorem State.loseContext_kept {s : State} {ctx : Nat} {cls : Nat} {core : Nat} {tag : Nat} (h0 : Kept kq kn s) : Kept kq kn (State.loseContext s ctx cls core tag) := by
  unfold State.loseContext
  try dsimp only
  repeat' first
    | with_reducible assumption | with_reducible apply CoreState.put_kept | with_reducible apply State.put_kept
    | with_reducible apply State.raise_kept | with_reducible apply State.setReg_kept
    | with_reducible apply CoreState.setReg_kept | with_reducible apply Kept.core (q := kq) (n := kn) | split | dsimp only

theorem State.mendRecord_kept {s : State} {r : MendInfo} (h0 : Kept kq kn s) : Kept kq kn (State.mendRecord s r) := by
  unfold State.mendRecord
  try dsimp only
  repeat' first
    | with_reducible assumption | with_reducible apply CoreState.put_kept | with_reducible apply CoreState.bump_kept
    | with_reducible apply State.put_kept | with_reducible apply State.bump_kept | with_reducible apply State.ringWrite_kept
    | split | (refine Kept.intro ?_; dsimp only; with_reducible refine Kept.elim ?_)
    | (refine CoreKept.intro ?_; dsimp only; with_reducible refine CoreKept.elim ?_) | dsimp only

theorem State.raiseMended_kept {s : State} {b : Nat} (h0 : Kept kq kn s) : Kept kq kn (State.raiseMended s b) := by
  unfold State.raiseMended
  try dsimp only
  repeat' first
    | with_reducible assumption | with_reducible apply State.raise_kept | with_reducible apply Kept.foldl
    | with_reducible apply Kept.foldl_fst | with_reducible apply CoreKept.foldl | intro _ | dsimp only

theorem State.hardFault_kept {s : State} {core : Nat} {cls : Nat} (h0 : Kept kq kn s) : Kept kq kn (State.hardFault s core cls) := by
  unfold State.hardFault
  try dsimp only
  repeat' first
    | with_reducible assumption | with_reducible apply CoreState.hwFault_kept | with_reducible apply State.used_kept
    | with_reducible apply State.modCore_kept | with_reducible apply Kept.core (q := kq) (n := kn) | intro _ | dsimp only

theorem execIslandLost_kept {core : Nat} {s : State} (h0 : Kept kq kn s) : OutKept kq kn (execIslandLost core s) := by
  unfold execIslandLost
  try dsimp only
  repeat' first
    | with_reducible assumption | with_reducible apply CoreState.put_kept | with_reducible apply State.put_kept
    | with_reducible apply State.hardFault_kept | with_reducible apply onCore_kept | with_reducible apply OutKept.next
    | with_reducible apply OutKept.fault | with_reducible apply Kept.core (q := kq) (n := kn)
    | (refine Kept.intro ?_; dsimp only; with_reducible refine Kept.elim ?_)
    | (refine CoreKept.intro ?_; dsimp only; with_reducible refine CoreKept.elim ?_) | exact CoreKept.reset | intro _
    | dsimp only

theorem execArithParityFault_kept {core : Nat} {s : State} (h0 : Kept kq kn s) : OutKept kq kn (execArithParityFault core s) := by
  unfold execArithParityFault
  try dsimp only
  repeat' first
    | with_reducible assumption | with_reducible apply CoreState.put_kept | with_reducible apply State.put_kept
    | with_reducible apply State.hardFault_kept | with_reducible apply onCore_kept | with_reducible apply OutKept.next
    | with_reducible apply OutKept.fault | with_reducible apply Kept.core (q := kq) (n := kn) | intro _ | dsimp only

theorem State.setMend_kept {s : State} {shoal : Nat} {m : Option Mend} (h0 : Kept kq kn s) : Kept kq kn (State.setMend s shoal m) := by
  unfold State.setMend
  try dsimp only
  repeat' first
    | with_reducible assumption | split | (refine Kept.intro ?_; dsimp only; with_reducible refine Kept.elim ?_)
    | (refine CoreKept.intro ?_; dsimp only; with_reducible refine CoreKept.elim ?_) | intro _ | dsimp only

theorem State.exhaust_kept {s : State} {shoal : Nat} (h0 : Kept kq kn s) : Kept kq kn (State.exhaust s shoal) := by
  unfold State.exhaust
  try dsimp only
  repeat' first
    | with_reducible assumption | with_reducible apply CoreState.bump_kept | with_reducible apply State.bump_kept
    | with_reducible apply State.raiseFlag_kept | with_reducible apply State.beaconOnce_kept
    | with_reducible apply State.holdBay_kept | with_reducible apply State.loseContext_kept
    | with_reducible apply State.mendRecord_kept | with_reducible apply State.setMend_kept | with_reducible apply OutKept.next
    | with_reducible apply OutKept.fault | with_reducible apply Kept.foldl | with_reducible apply Kept.foldl_fst
    | with_reducible apply CoreKept.foldl | with_reducible apply CoreKept.foldl_fst | with_reducible apply Kept.foldl_snd
    | with_reducible apply CoreKept.foldl_snd | with_reducible apply Kept.core (q := kq) (n := kn) | split
    | (refine Kept.intro ?_; dsimp only; with_reducible refine Kept.elim ?_)
    | (refine CoreKept.intro ?_; dsimp only; with_reducible refine CoreKept.elim ?_) | exact CoreKept.reset | intro _
    | with_reducible refine Kept.of_fst ‹_› ?_ | with_reducible refine Kept.of_snd ‹_› ?_
    | with_reducible refine Kept.of_trd ‹_› ?_ | with_reducible refine CoreKept.of_fst ‹_› ?_
    | with_reducible refine CoreKept.of_snd ‹_› ?_ | dsimp only

theorem State.endMend_kept {s : State} {shoal : Nat} (h0 : Kept kq kn s) : Kept kq kn (State.endMend s shoal) := by
  unfold State.endMend
  try dsimp only
  repeat' first
    | with_reducible assumption | with_reducible apply CoreState.put_kept | with_reducible apply State.put_kept
    | with_reducible apply State.setMend_kept | dsimp only

theorem execMendFence_kept {core : Nat} {s : State} (h0 : Kept kq kn s) : OutKept kq kn (execMendFence core s) := by
  unfold execMendFence
  try dsimp only
  repeat' first
    | with_reducible assumption | with_reducible apply CoreState.put_kept | with_reducible apply State.put_kept
    | with_reducible apply CoreState.stopShort_kept | with_reducible apply State.discardInto_kept
    | with_reducible apply State.fenceGroup_kept | with_reducible apply State.setMend_kept
    | with_reducible apply State.exhaust_kept | with_reducible apply State.modCore_kept | with_reducible apply onCore_kept
    | with_reducible apply OutKept.next | with_reducible apply OutKept.fault | with_reducible apply Kept.foldl
    | with_reducible apply Kept.foldl_fst | with_reducible apply CoreKept.foldl
    | with_reducible apply Kept.core (q := kq) (n := kn) | split | exact CoreKept.reset | intro _ | dsimp only

theorem execMendBeaconReceive_kept {group : Nat} {step : Nat} {s : State} (h0 : Kept kq kn s) : OutKept kq kn (execMendBeaconReceive group step s) := by
  unfold execMendBeaconReceive
  try dsimp only
  repeat' first
    | with_reducible assumption | with_reducible apply State.fenceGroup_kept | with_reducible apply OutKept.next
    | with_reducible apply OutKept.fault | dsimp only

theorem execMendCheck_kept {shoal : Nat} {s : State} (h0 : Kept kq kn s) : OutKept kq kn (execMendCheck shoal s) := by
  unfold execMendCheck
  try dsimp only
  repeat' first
    | with_reducible assumption | with_reducible apply State.modCore_kept | with_reducible apply CoreState.put_kept
    | with_reducible apply State.put_kept | with_reducible apply State.drainDeltas_kept
    | with_reducible apply CoreState.dropOps_kept | with_reducible apply onShoal_kept | with_reducible apply State.exhaust_kept
    | with_reducible apply State.endMend_kept | with_reducible apply OutKept.next | with_reducible apply OutKept.fault
    | with_reducible apply Kept.core (q := kq) (n := kn) | split
    | (refine Kept.intro ?_; dsimp only; with_reducible refine Kept.elim ?_)
    | (refine CoreKept.intro ?_; dsimp only; with_reducible refine CoreKept.elim ?_) | exact CoreKept.reset | intro _
    | with_reducible refine Kept.of_fst ‹_› ?_ | with_reducible refine Kept.of_snd ‹_› ?_
    | with_reducible refine Kept.of_trd ‹_› ?_ | with_reducible refine CoreKept.of_fst ‹_› ?_
    | with_reducible refine CoreKept.of_snd ‹_› ?_ | dsimp only

theorem State.rebuildBasin_kept {s : State} {shoal place r : Nat} (h0 : Kept kq kn s) : Kept kq kn (s.rebuildBasin shoal place r).1 := by
  unfold State.rebuildBasin
  dsimp only
  refine State.charge_kept (State.modCore_kept h0 (fun c hc => ?_))
  refine CoreKept.intro ?_
  dsimp only
  exact ⟨hc.regs, Sparse.wf_foldl (fun m x h => Bytes.wf_write _ _ h) rfl, hc.tags, hc.sstore, hc.vregs, hc.params, hc.xregs, hc.desc⟩

theorem execMendRebuild_kept {shoal : Nat} {s : State} (h0 : Kept kq kn s) : OutKept kq kn (execMendRebuild shoal s) := by
  unfold execMendRebuild
  try dsimp only
  repeat' first
    | with_reducible assumption | with_reducible apply CoreState.put_kept | with_reducible apply CoreState.bump_kept
    | with_reducible apply State.put_kept | with_reducible apply State.bump_kept | with_reducible apply onShoal_kept
    | with_reducible apply State.setMend_kept | with_reducible apply State.exhaust_kept
    | with_reducible apply State.rebuildBasin_kept | with_reducible apply OutKept.next | with_reducible apply OutKept.fault
    | with_reducible apply Kept.core (q := kq) (n := kn) | split
    | (refine Kept.intro ?_; dsimp only; with_reducible refine Kept.elim ?_)
    | (refine CoreKept.intro ?_; dsimp only; with_reducible refine CoreKept.elim ?_) | exact CoreKept.reset | intro _
    | with_reducible refine Kept.of_fst ‹_› ?_ | with_reducible refine Kept.of_snd ‹_› ?_
    | with_reducible refine Kept.of_trd ‹_› ?_ | with_reducible refine CoreKept.of_fst ‹_› ?_
    | with_reducible refine CoreKept.of_snd ‹_› ?_ | dsimp only

theorem State.setDead_kept {s : State} {shoal : Nat} (h0 : Kept kq kn s) : Kept kq kn (State.setDead s shoal) := by
  unfold State.setDead
  try dsimp only
  repeat' first
    | with_reducible assumption | with_reducible apply CoreState.put_kept | with_reducible apply CoreState.bump_kept
    | with_reducible apply State.put_kept | with_reducible apply State.bump_kept | split | dsimp only

theorem execSelfTestDone_kept {shoal : Nat} {pass : Bool} {s : State} (h0 : Kept kq kn s) : OutKept kq kn (execSelfTestDone shoal pass s) := by
  unfold execSelfTestDone
  try dsimp only
  repeat' first
    | with_reducible assumption | with_reducible apply onShoal_kept | with_reducible apply State.setMend_kept
    | with_reducible apply State.exhaust_kept | with_reducible apply State.endMend_kept
    | with_reducible apply State.setDead_kept | with_reducible apply OutKept.next | with_reducible apply OutKept.fault
    | with_reducible apply Kept.core (q := kq) (n := kn) | split
    | (refine Kept.intro ?_; dsimp only; with_reducible refine Kept.elim ?_)
    | (refine CoreKept.intro ?_; dsimp only; with_reducible refine CoreKept.elim ?_) | exact CoreKept.reset | intro _
    | with_reducible refine Kept.of_fst ‹_› ?_ | with_reducible refine Kept.of_snd ‹_› ?_
    | with_reducible refine Kept.of_trd ‹_› ?_ | with_reducible refine CoreKept.of_fst ‹_› ?_
    | with_reducible refine CoreKept.of_snd ‹_› ?_ | dsimp only

theorem State.setSpent_kept {s : State} {shoal : Nat} (h0 : Kept kq kn s) : Kept kq kn (State.setSpent s shoal) := by
  unfold State.setSpent
  try dsimp only
  repeat' first
    | with_reducible assumption | with_reducible apply CoreState.put_kept | with_reducible apply CoreState.bump_kept
    | with_reducible apply State.put_kept | with_reducible apply State.bump_kept | with_reducible apply State.raise_kept
    | with_reducible apply State.modCore_kept | with_reducible apply Kept.foldl | with_reducible apply Kept.foldl_fst
    | with_reducible apply CoreKept.foldl | (refine Kept.intro ?_; dsimp only; with_reducible refine Kept.elim ?_)
    | (refine CoreKept.intro ?_; dsimp only; with_reducible refine CoreKept.elim ?_) | intro _ | dsimp only

theorem State.setPhys_kept {s : State} {shoal : Nat} {pos : Nat} {n : Nat} (h0 : Kept kq kn s) : Kept kq kn (State.setPhys s shoal pos n) := by
  unfold State.setPhys
  try dsimp only
  repeat' first
    | with_reducible assumption | with_reducible apply State.setReg_kept | with_reducible apply CoreState.setReg_kept | split
    | dsimp only

theorem State.fromMirror_kept {s : State} {core : Nat} {reserve failed : CoreState} (h1 : CoreKept reserve) :
    CoreKept (s.fromMirror core reserve failed) := by
  unfold State.fromMirror
  dsimp only
  repeat' first
    | with_reducible apply CoreState.put_kept
    | with_reducible apply CoreState.setReg_kept
    | (refine CoreKept.intro ?_
       dsimp only
       exact ⟨Sparse.wf_foldl (fun m x h => Sparse.wf_set (d := coreReset) _ _ h) rfl, h1.basin, rfl, rfl, rfl, rfl, rfl, rfl⟩)

theorem execMendRenumber_kept {shoal : Nat} {s : State} (h0 : Kept kq kn s) : OutKept kq kn (execMendRenumber shoal s) := by
  unfold execMendRenumber
  try dsimp only
  repeat' first
    | with_reducible assumption | with_reducible apply State.setReg_kept | with_reducible apply CoreState.setReg_kept
    | with_reducible apply State.setCore_kept | with_reducible apply CoreState.put_kept | with_reducible apply State.put_kept
    | with_reducible apply onShoal_kept | with_reducible apply State.setMend_kept | with_reducible apply State.setSpent_kept
    | with_reducible apply State.setPhys_kept | with_reducible apply State.fromMirror_kept | with_reducible apply OutKept.next
    | with_reducible apply OutKept.fault | with_reducible apply Kept.core (q := kq) (n := kn) | split
    | (refine Kept.intro ?_; dsimp only; with_reducible refine Kept.elim ?_)
    | (refine CoreKept.intro ?_; dsimp only; with_reducible refine CoreKept.elim ?_) | exact CoreKept.reset | intro _
    | with_reducible refine Kept.of_fst ‹_› ?_ | with_reducible refine Kept.of_snd ‹_› ?_
    | with_reducible refine Kept.of_trd ‹_› ?_ | with_reducible refine CoreKept.of_fst ‹_› ?_
    | with_reducible refine CoreKept.of_snd ‹_› ?_ | dsimp only

theorem State.beginRestore_kept {s : State} {shoal : Nat} {m : Mend} {lead : Bool} (h0 : Kept kq kn s) : Kept kq kn (State.beginRestore s shoal m lead) := by
  unfold State.beginRestore
  try dsimp only
  repeat' first
    | with_reducible assumption | with_reducible apply CoreState.put_kept | with_reducible apply State.put_kept
    | with_reducible apply State.setMend_kept | with_reducible apply State.modCore_kept
    | with_reducible apply Kept.core (q := kq) (n := kn) | split
    | (refine Kept.intro ?_; dsimp only; with_reducible refine Kept.elim ?_)
    | (refine CoreKept.intro ?_; dsimp only; with_reducible refine CoreKept.elim ?_) | intro _ | dsimp only

theorem execMendRestore_kept {shoal : Nat} {s : State} (h0 : Kept kq kn s) : OutKept kq kn (execMendRestore shoal s) := by
  unfold execMendRestore
  try dsimp only
  repeat' first
    | with_reducible assumption | with_reducible apply onShoal_kept | with_reducible apply State.beginRestore_kept
    | with_reducible apply OutKept.next | with_reducible apply OutKept.fault
    | with_reducible apply Kept.core (q := kq) (n := kn) | split
    | (refine Kept.intro ?_; dsimp only; with_reducible refine Kept.elim ?_)
    | (refine CoreKept.intro ?_; dsimp only; with_reducible refine CoreKept.elim ?_) | exact CoreKept.reset | intro _
    | with_reducible refine Kept.of_fst ‹_› ?_ | with_reducible refine Kept.of_snd ‹_› ?_
    | with_reducible refine Kept.of_trd ‹_› ?_ | with_reducible refine CoreKept.of_fst ‹_› ?_
    | with_reducible refine CoreKept.of_snd ‹_› ?_ | dsimp only

theorem execMendPilotTimeout_kept {shoal : Nat} {s : State} (h0 : Kept kq kn s) : OutKept kq kn (execMendPilotTimeout shoal s) := by
  unfold execMendPilotTimeout
  try dsimp only
  repeat' first
    | with_reducible assumption | with_reducible apply onShoal_kept | with_reducible apply State.beginRestore_kept
    | with_reducible apply OutKept.next | with_reducible apply OutKept.fault
    | with_reducible apply Kept.core (q := kq) (n := kn) | split
    | (refine Kept.intro ?_; dsimp only; with_reducible refine Kept.elim ?_)
    | (refine CoreKept.intro ?_; dsimp only; with_reducible refine CoreKept.elim ?_) | exact CoreKept.reset | intro _
    | with_reducible refine Kept.of_fst ‹_› ?_ | with_reducible refine Kept.of_snd ‹_› ?_
    | with_reducible refine Kept.of_trd ‹_› ?_ | with_reducible refine CoreKept.of_fst ‹_› ?_
    | with_reducible refine CoreKept.of_snd ‹_› ?_ | dsimp only

theorem execRestoreTimeout_kept {shoal : Nat} {s : State} (h0 : Kept kq kn s) : OutKept kq kn (execRestoreTimeout shoal s) := by
  unfold execRestoreTimeout
  try dsimp only
  repeat' first
    | with_reducible assumption | with_reducible apply State.modCore_kept | with_reducible apply CoreState.dropOps_kept
    | with_reducible apply CoreState.stopHere_kept | with_reducible apply onShoal_kept
    | with_reducible apply State.exhaust_kept | with_reducible apply OutKept.next | with_reducible apply OutKept.fault
    | with_reducible apply Kept.core (q := kq) (n := kn) | split
    | (refine Kept.intro ?_; dsimp only; with_reducible refine Kept.elim ?_)
    | (refine CoreKept.intro ?_; dsimp only; with_reducible refine CoreKept.elim ?_) | exact CoreKept.reset | intro _
    | with_reducible refine Kept.of_fst ‹_› ?_ | with_reducible refine Kept.of_snd ‹_› ?_
    | with_reducible refine Kept.of_trd ‹_› ?_ | with_reducible refine CoreKept.of_fst ‹_› ?_
    | with_reducible refine CoreKept.of_snd ‹_› ?_ | dsimp only

theorem State.clearHard_kept {s : State} {core : Nat} {step : Nat} (h0 : Kept kq kn s) : Kept kq kn (State.clearHard s core step) := by
  unfold State.clearHard
  try dsimp only
  repeat' first
    | with_reducible assumption | with_reducible apply CoreState.put_kept | with_reducible apply State.put_kept
    | with_reducible apply State.setCore_kept | with_reducible apply State.setReg_kept
    | with_reducible apply CoreState.setReg_kept | with_reducible apply Kept.core (q := kq) (n := kn) | split | dsimp only

theorem State.resumeBays_kept {s : State} {g : Nat} {step : Nat} {at_ : Nat} (h0 : Kept kq kn s) : Kept kq kn (State.resumeBays s g step at_) := by
  unfold State.resumeBays
  try dsimp only
  repeat' first
    | with_reducible assumption | with_reducible apply State.modBay_kept | with_reducible apply State.restoreFence_kept
    | with_reducible apply State.abandonBay_kept | with_reducible apply State.clearHard_kept | with_reducible apply Kept.foldl
    | with_reducible apply Kept.foldl_fst | with_reducible apply CoreKept.foldl | split
    | (refine Kept.intro ?_; dsimp only; with_reducible refine Kept.elim ?_)
    | (refine CoreKept.intro ?_; dsimp only; with_reducible refine CoreKept.elim ?_) | intro _ | dsimp only

theorem execMendResume_kept {shoal : Nat} {s : State} (h0 : Kept kq kn s) : OutKept kq kn (execMendResume shoal s) := by
  unfold execMendResume
  try dsimp only
  repeat' first
    | with_reducible assumption | with_reducible apply CoreState.bump_kept | with_reducible apply State.bump_kept
    | with_reducible apply State.beaconOnce_kept | with_reducible apply onShoal_kept
    | with_reducible apply State.mendRecord_kept | with_reducible apply State.raiseMended_kept
    | with_reducible apply State.exhaust_kept | with_reducible apply State.endMend_kept
    | with_reducible apply State.resumeBays_kept | with_reducible apply OutKept.next | with_reducible apply OutKept.fault
    | with_reducible apply Kept.core (q := kq) (n := kn) | split
    | (refine Kept.intro ?_; dsimp only; with_reducible refine Kept.elim ?_)
    | (refine CoreKept.intro ?_; dsimp only; with_reducible refine CoreKept.elim ?_) | exact CoreKept.reset | intro _
    | with_reducible refine Kept.of_fst ‹_› ?_ | with_reducible refine Kept.of_snd ‹_› ?_
    | with_reducible refine Kept.of_trd ‹_› ?_ | with_reducible refine CoreKept.of_fst ‹_› ?_
    | with_reducible refine CoreKept.of_snd ‹_› ?_ | dsimp only

theorem execResumeBeaconReceive_kept {group : Nat} {step : Nat} {start : Nat} {s : State} (h0 : Kept kq kn s) : OutKept kq kn (execResumeBeaconReceive group step start s) := by
  unfold execResumeBeaconReceive
  try dsimp only
  repeat' first
    | with_reducible assumption | with_reducible apply State.beaconOnce_kept | with_reducible apply State.mendRecord_kept
    | with_reducible apply State.resumeBays_kept | with_reducible apply OutKept.next | with_reducible apply OutKept.fault
    | with_reducible apply Kept.foldl | with_reducible apply Kept.foldl_fst | with_reducible apply CoreKept.foldl | split
    | intro _ | dsimp only

theorem State.copyPlan_kept {s : State} {port : Nat} {twin : Nat} (h0 : Kept kq kn s) : Kept kq kn (State.copyPlan s port twin) := by
  unfold State.copyPlan
  try dsimp only
  repeat' first
    | with_reducible assumption | with_reducible apply Kept.foldl | with_reducible apply Kept.foldl_fst
    | with_reducible apply CoreKept.foldl | (refine Kept.intro ?_; dsimp only; with_reducible refine Kept.elim ?_)
    | (refine CoreKept.intro ?_; dsimp only; with_reducible refine CoreKept.elim ?_) | intro _ | dsimp only

theorem State.reroute_kept {s : State} {core : Nat} {port : Nat} {twin : Nat} (h0 : Kept kq kn s) : Kept kq kn (State.reroute s core port twin) := by
  unfold State.reroute
  try dsimp only
  repeat' first
    | with_reducible assumption | with_reducible apply State.modCore_kept | with_reducible apply Kept.foldl
    | with_reducible apply Kept.foldl_fst | with_reducible apply CoreKept.foldl
    | with_reducible apply Kept.core (q := kq) (n := kn)
    | (refine Kept.intro ?_; dsimp only; with_reducible refine Kept.elim ?_)
    | (refine CoreKept.intro ?_; dsimp only; with_reducible refine CoreKept.elim ?_) | intro _ | dsimp only

theorem State.mendLink_kept {s : State} {port : Nat} {twin : Nat} {x : LinkFault} (h0 : Kept kq kn s) : Kept kq kn (State.mendLink s port twin x) := by
  unfold State.mendLink
  try dsimp only
  repeat' first
    | with_reducible assumption | with_reducible apply CoreState.bump_kept | with_reducible apply State.bump_kept
    | with_reducible apply State.beaconOnce_kept | with_reducible apply State.mendRecord_kept
    | with_reducible apply State.raiseMended_kept | with_reducible apply State.resumeBays_kept
    | with_reducible apply State.reroute_kept | with_reducible apply Kept.foldl | with_reducible apply Kept.foldl_fst
    | with_reducible apply CoreKept.foldl | (refine Kept.intro ?_; dsimp only; with_reducible refine Kept.elim ?_)
    | (refine CoreKept.intro ?_; dsimp only; with_reducible refine CoreKept.elim ?_) | intro _ | dsimp only

theorem State.holdLink_kept {s : State} {port : Nat} {x : LinkFault} (h0 : Kept kq kn s) : Kept kq kn (State.holdLink s port x) := by
  unfold State.holdLink
  try dsimp only
  repeat' first
    | with_reducible assumption | with_reducible apply State.beaconOnce_kept | with_reducible apply State.holdBay_kept
    | with_reducible apply State.mendRecord_kept | with_reducible apply State.clearHard_kept | with_reducible apply Kept.foldl
    | with_reducible apply Kept.foldl_fst | with_reducible apply CoreKept.foldl
    | with_reducible apply Kept.core (q := kq) (n := kn)
    | (refine Kept.intro ?_; dsimp only; with_reducible refine Kept.elim ?_)
    | (refine CoreKept.intro ?_; dsimp only; with_reducible refine CoreKept.elim ?_) | intro _ | dsimp only

theorem execLinkMend_kept {port : Nat} {s : State} (h0 : Kept kq kn s) : OutKept kq kn (execLinkMend port s) := by
  unfold execLinkMend
  try dsimp only
  repeat' first
    | with_reducible assumption | with_reducible apply CoreState.put_kept | with_reducible apply State.put_kept
    | with_reducible apply onPort_kept | with_reducible apply State.copyPlan_kept | with_reducible apply State.mendLink_kept
    | with_reducible apply State.holdLink_kept | with_reducible apply OutKept.next | with_reducible apply OutKept.fault
    | with_reducible apply Kept.foldl | with_reducible apply Kept.foldl_fst | with_reducible apply CoreKept.foldl
    | with_reducible apply CoreKept.foldl_fst | with_reducible apply Kept.foldl_snd | with_reducible apply CoreKept.foldl_snd
    | with_reducible apply Kept.core (q := kq) (n := kn) | split
    | (refine Kept.intro ?_; dsimp only; with_reducible refine Kept.elim ?_)
    | (refine CoreKept.intro ?_; dsimp only; with_reducible refine CoreKept.elim ?_) | exact CoreKept.reset | intro _
    | with_reducible refine Kept.of_fst ‹_› ?_ | with_reducible refine Kept.of_snd ‹_› ?_
    | with_reducible refine Kept.of_trd ‹_› ?_ | with_reducible refine CoreKept.of_fst ‹_› ?_
    | with_reducible refine CoreKept.of_snd ‹_› ?_ | dsimp only

theorem execReserveLost_kept {shoal : Nat} {s : State} (h0 : Kept kq kn s) : OutKept kq kn (execReserveLost shoal s) := by
  unfold execReserveLost
  try dsimp only
  repeat' first
    | with_reducible assumption | with_reducible apply CoreState.put_kept | with_reducible apply State.put_kept
    | with_reducible apply onShoal_kept | with_reducible apply State.mendRecord_kept | with_reducible apply State.setSpent_kept
    | with_reducible apply State.used_kept | with_reducible apply OutKept.next | with_reducible apply OutKept.fault | split
    | (refine Kept.intro ?_; dsimp only; with_reducible refine Kept.elim ?_)
    | (refine Kept.intro ?_; dsimp only; with_reducible refine Kept.elim_used _ ?_ ?_)
    | (refine CoreKept.intro ?_; dsimp only; with_reducible refine CoreKept.elim ?_) | intro _ | dsimp only

theorem execShoalIslandLost_kept {shoal : Nat} {s : State} (h0 : Kept kq kn s) : OutKept kq kn (execShoalIslandLost shoal s) := by
  unfold execShoalIslandLost
  try dsimp only
  repeat' first
    | with_reducible assumption | with_reducible apply CoreState.put_kept | with_reducible apply State.put_kept
    | with_reducible apply onShoal_kept | with_reducible apply State.setMend_kept | with_reducible apply State.exhaust_kept
    | with_reducible apply State.endMend_kept | with_reducible apply State.setDead_kept | with_reducible apply OutKept.next
    | with_reducible apply OutKept.fault | split | intro _ | dsimp only

theorem execServiceDone_kept {shoal : Nat} {pass : Bool} {s : State} (h0 : Kept kq kn s) : OutKept kq kn (execServiceDone shoal pass s) := by
  unfold execServiceDone
  try dsimp only
  repeat' first
    | with_reducible assumption | with_reducible apply State.modCore_kept | with_reducible apply CoreState.put_kept
    | with_reducible apply State.put_kept | with_reducible apply State.raiseFlag_kept
    | with_reducible apply State.washCore_kept | with_reducible apply CoreState.washOver_kept
    | with_reducible apply onShoal_kept | with_reducible apply OutKept.next | with_reducible apply OutKept.fault
    | with_reducible apply Kept.foldl | with_reducible apply Kept.foldl_fst | with_reducible apply CoreKept.foldl
    | with_reducible apply CoreKept.foldl_fst | with_reducible apply Kept.foldl_snd | with_reducible apply CoreKept.foldl_snd
    | with_reducible apply Kept.core (q := kq) (n := kn) | split
    | (refine Kept.intro ?_; dsimp only; with_reducible refine Kept.elim ?_)
    | (refine CoreKept.intro ?_; dsimp only; with_reducible refine CoreKept.elim ?_) | exact CoreKept.reset | intro _
    | dsimp only

end Sys2Proof.Machine
end

