-- ==== Sys2Proof/Laws/KeptRings.lean ====
section
/-! SUPPORT. What the operations of Machine/Rings.lean keep (Laws/Kept.lean). -/

namespace Sys2Proof.Machine

variable {kq : List Instr} {kn : Nat}

theorem onCtx_kept {ctx : Nat} {s : State} {f : State → State} (h0 : Kept kq kn s) (h1 : ∀ y0, Kept kq kn y0 → Kept kq kn (f y0)) : OutKept kq kn (onCtx ctx s f) := by
  unfold onCtx
  try dsimp only
  repeat' first
    | with_reducible assumption | with_reducible apply h1 | with_reducible apply CoreState.fault_kept
    | with_reducible apply OutKept.next | with_reducible apply OutKept.fault | split | dsimp only

theorem State.requestMsix_kept {s : State} {v : Nat} (h0 : Kept kq kn s) : Kept kq kn (State.requestMsix s v) := by
  unfold State.requestMsix
  try dsimp only
  repeat' first
    | with_reducible assumption | with_reducible apply CoreState.put_kept | with_reducible apply State.put_kept
    | (refine Kept.intro ?_; dsimp only; with_reducible refine Kept.elim ?_)
    | (refine CoreKept.intro ?_; dsimp only; with_reducible refine CoreKept.elim ?_) | dsimp only

theorem State.writeEvent_kept {s : State} {e : Event} (h0 : Kept kq kn s) : Kept kq kn (State.writeEvent s e) := by
  unfold State.writeEvent
  try dsimp only
  repeat' first
    | with_reducible assumption | with_reducible apply CoreState.put_kept | with_reducible apply CoreState.wrap_kept
    | with_reducible apply State.put_kept | with_reducible apply State.wrap_kept | with_reducible apply State.tierWrite_kept
    | with_reducible apply State.requestMsix_kept | split
    | (refine Kept.intro ?_; dsimp only; with_reducible refine Kept.elim ?_)
    | (refine CoreKept.intro ?_; dsimp only; with_reducible refine CoreKept.elim ?_) | dsimp only

theorem State.showPending_kept {s : State} (h0 : Kept kq kn s) : Kept kq kn (State.showPending s) := by
  unfold State.showPending
  try dsimp only
  repeat' first
    | with_reducible assumption | with_reducible apply CoreState.put_kept | with_reducible apply State.put_kept | dsimp only

theorem State.flushEvents_kept {k : Nat} {s : State} (h0 : Kept kq kn s) : Kept kq kn (State.flushEvents k s) := by
  induction k generalizing s with
  | zero =>
    unfold State.flushEvents
    try dsimp only
    repeat' first
      | with_reducible assumption | with_reducible apply State.writeEvent_kept | with_reducible apply State.showPending_kept
      | split | (refine Kept.intro ?_; dsimp only; with_reducible refine Kept.elim ?_)
      | (refine CoreKept.intro ?_; dsimp only; with_reducible refine CoreKept.elim ?_) | dsimp only
  | succ z ih =>
    unfold State.flushEvents
    try dsimp only
    repeat' first
      | with_reducible assumption | with_reducible apply ih | with_reducible apply State.writeEvent_kept
      | with_reducible apply State.showPending_kept | split
      | (refine Kept.intro ?_; dsimp only; with_reducible refine Kept.elim ?_)
      | (refine CoreKept.intro ?_; dsimp only; with_reducible refine CoreKept.elim ?_) | dsimp only

theorem State.postEvent_kept {s : State} {e : Event} (h0 : Kept kq kn s) : Kept kq kn (State.postEvent s e) := by
  unfold State.postEvent
  try dsimp only
  repeat' first
    | with_reducible assumption | with_reducible apply CoreState.bump_kept | with_reducible apply State.bump_kept
    | with_reducible apply State.flushEvents_kept | split
    | (refine Kept.intro ?_; dsimp only; with_reducible refine Kept.elim ?_)
    | (refine CoreKept.intro ?_; dsimp only; with_reducible refine CoreKept.elim ?_) | dsimp only

theorem execEventRaise_kept {e : Event} {s : State} (h0 : Kept kq kn s) : OutKept kq kn (execEventRaise e s) := by
  unfold execEventRaise
  try dsimp only
  repeat' first
    | with_reducible assumption | with_reducible apply State.postEvent_kept | with_reducible apply OutKept.next
    | with_reducible apply OutKept.fault | split | (refine Kept.intro ?_; dsimp only; with_reducible refine Kept.elim ?_)
    | (refine CoreKept.intro ?_; dsimp only; with_reducible refine CoreKept.elim ?_) | dsimp only

theorem State.raiseDue_kept {s : State} {ctx : Nat} (h0 : Kept kq kn s) : Kept kq kn (State.raiseDue s ctx) := by
  unfold State.raiseDue
  try dsimp only
  repeat' first
    | with_reducible assumption | with_reducible apply State.postEvent_kept | with_reducible apply Kept.foldl
    | with_reducible apply Kept.foldl_fst | with_reducible apply CoreKept.foldl | split
    | (refine Kept.intro ?_; dsimp only; with_reducible refine Kept.elim ?_)
    | (refine CoreKept.intro ?_; dsimp only; with_reducible refine CoreKept.elim ?_) | intro _ | dsimp only

theorem State.complete_kept {s : State} {ctx : Nat} {x : ComplEntry} (h0 : Kept kq kn s) : Kept kq kn (State.complete s ctx x) := by
  unfold State.complete
  try dsimp only
  repeat' first
    | with_reducible assumption | with_reducible apply CoreState.put_kept | with_reducible apply State.put_kept
    | with_reducible apply State.tierWrite_kept | with_reducible apply State.postEvent_kept | split
    | (refine Kept.intro ?_; dsimp only; with_reducible refine Kept.elim ?_)
    | (refine CoreKept.intro ?_; dsimp only; with_reducible refine CoreKept.elim ?_) | dsimp only

theorem State.setSub_kept {s : State} {i : Nat} {x : Option Sub} (h0 : Kept kq kn s) : Kept kq kn (State.setSub s i x) := by
  unfold State.setSub
  try dsimp only
  repeat' first
    | with_reducible assumption | split | (refine Kept.intro ?_; dsimp only; with_reducible refine Kept.elim ?_)
    | (refine CoreKept.intro ?_; dsimp only; with_reducible refine CoreKept.elim ?_) | intro _ | dsimp only

theorem State.moveEntry_kept {s : State} {i : Nat} {new : Nat} (h0 : Kept kq kn s) : Kept kq kn (State.moveEntry s i new) := by
  unfold State.moveEntry
  try dsimp only
  repeat' first
    | with_reducible assumption | with_reducible apply CoreState.put_kept | with_reducible apply State.put_kept
    | with_reducible apply State.setSub_kept | with_reducible apply State.setReg_kept
    | with_reducible apply CoreState.setReg_kept | split
    | (refine Kept.intro ?_; dsimp only; with_reducible refine Kept.elim ?_)
    | (refine CoreKept.intro ?_; dsimp only; with_reducible refine CoreKept.elim ?_) | dsimp only

theorem State.dropPage_kept {s : State} {page : Nat} (h0 : Kept kq kn s) : Kept kq kn (State.dropPage s page) := by
  unfold State.dropPage
  try dsimp only
  repeat' first
    | with_reducible assumption | with_reducible apply State.tierWrite_kept | dsimp only

theorem State.releasePages_kept {s : State} {i : Nat} (h0 : Kept kq kn s) : Kept kq kn (State.releasePages s i) := by
  unfold State.releasePages
  try dsimp only
  repeat' first
    | with_reducible assumption | with_reducible apply CoreState.put_kept | with_reducible apply State.put_kept
    | with_reducible apply State.dropPage_kept | with_reducible apply Kept.foldl | with_reducible apply Kept.foldl_fst
    | with_reducible apply CoreKept.foldl | intro _ | dsimp only

end Sys2Proof.Machine
end

