-- ==== Sys2Proof/Laws/KeptContexts.lean ====
section
/-! SUPPORT. What the operations of Machine/Contexts.lean keep (Laws/Kept.lean). -/

namespace Sys2Proof.Machine

variable {kq : List Instr} {kn : Nat}

theorem State.emptyBay_kept {s : State} {b : Nat} (h0 : Kept kq kn s) : Kept kq kn (State.emptyBay s b) := by
  unfold State.emptyBay
  try dsimp only
  repeat' first
    | with_reducible assumption | with_reducible apply State.setReg_kept | with_reducible apply CoreState.setReg_kept
    | with_reducible apply CoreState.put_kept | with_reducible apply CoreState.wrap_kept
    | with_reducible apply CoreState.moved_kept | with_reducible apply State.put_kept | with_reducible apply State.wrap_kept
    | with_reducible apply State.moved_kept | with_reducible apply State.disarmBay_kept | with_reducible apply OutKept.next
    | with_reducible apply OutKept.fault | with_reducible apply Kept.foldl | with_reducible apply Kept.foldl_fst
    | with_reducible apply CoreKept.foldl | with_reducible apply CoreKept.foldl_fst | with_reducible apply Kept.foldl_snd
    | with_reducible apply CoreKept.foldl_snd | with_reducible apply Kept.core (q := kq) (n := kn)
    | (refine Kept.intro ?_; dsimp only; with_reducible refine Kept.elim ?_)
    | (refine CoreKept.intro ?_; dsimp only; with_reducible refine CoreKept.elim ?_) | exact CoreKept.reset | intro _
    | dsimp only

theorem State.washBay_kept {s : State} {b : Nat} (h0 : Kept kq kn s) : Kept kq kn (State.washBay s b) := by
  unfold State.washBay
  try dsimp only
  repeat' first
    | with_reducible assumption | with_reducible apply CoreState.put_kept | with_reducible apply State.put_kept
    | with_reducible apply State.washCore_kept | with_reducible apply Kept.foldl | with_reducible apply Kept.foldl_fst
    | with_reducible apply CoreKept.foldl | split | intro _ | dsimp only

theorem State.endWash_kept {s : State} {p : Nat} (h0 : Kept kq kn s) : Kept kq kn (State.endWash s p) := by
  unfold State.endWash
  try dsimp only
  repeat' first
    | with_reducible assumption | with_reducible apply CoreState.washOver_kept | with_reducible apply State.modCore_kept | split
    | intro _ | dsimp only

theorem State.endReserveWashes_kept {s : State} {b : Nat} (h0 : Kept kq kn s) : Kept kq kn (State.endReserveWashes s b) := by
  unfold State.endReserveWashes
  try dsimp only
  repeat' first
    | with_reducible assumption | with_reducible apply State.endWash_kept | with_reducible apply Kept.foldl
    | with_reducible apply Kept.foldl_fst | with_reducible apply CoreKept.foldl | split | intro _ | dsimp only

theorem execBayWashDone_kept {bay : Nat} {s : State} (h0 : Kept kq kn s) : OutKept kq kn (execBayWashDone bay s) := by
  unfold execBayWashDone
  try dsimp only
  repeat' first
    | with_reducible assumption | with_reducible apply CoreState.put_kept | with_reducible apply CoreState.wrap_kept
    | with_reducible apply State.put_kept | with_reducible apply State.wrap_kept | with_reducible apply onBay_kept
    | with_reducible apply State.emptyBay_kept | with_reducible apply State.endReserveWashes_kept
    | with_reducible apply OutKept.next | with_reducible apply OutKept.fault | with_reducible apply Kept.foldl
    | with_reducible apply Kept.foldl_fst | with_reducible apply CoreKept.foldl | split
    | (refine Kept.intro ?_; dsimp only; with_reducible refine Kept.elim ?_)
    | (refine CoreKept.intro ?_; dsimp only; with_reducible refine CoreKept.elim ?_) | intro _ | dsimp only

theorem State.openCtx_kept {s : State} {ctx : Nat} (h0 : Kept kq kn s) : Kept kq kn (State.openCtx s ctx) := by
  unfold State.openCtx
  try dsimp only
  repeat' first
    | with_reducible assumption | with_reducible apply CoreState.put_kept | with_reducible apply State.put_kept
    | with_reducible apply State.setReg_kept | with_reducible apply CoreState.setReg_kept | with_reducible apply Kept.foldl
    | with_reducible apply Kept.foldl_fst | with_reducible apply CoreKept.foldl | split
    | (refine Kept.intro ?_; dsimp only; with_reducible refine Kept.elim ?_)
    | (refine CoreKept.intro ?_; dsimp only; with_reducible refine CoreKept.elim ?_) | intro _ | dsimp only

theorem State.closeCtx_kept {s : State} {ctx : Nat} (h0 : Kept kq kn s) : Kept kq kn (State.closeCtx s ctx) := by
  unfold State.closeCtx
  try dsimp only
  repeat' first
    | with_reducible assumption | with_reducible apply CoreState.put_kept | with_reducible apply State.put_kept | dsimp only

theorem State.freeCtx_kept {s : State} {ctx : Nat} (h0 : Kept kq kn s) : Kept kq kn (State.freeCtx s ctx) := by
  unfold State.freeCtx
  try dsimp only
  repeat' first
    | with_reducible assumption | with_reducible apply CoreState.put_kept | with_reducible apply State.put_kept
    | with_reducible apply State.emptyBay_kept | with_reducible apply State.setReg_kept
    | with_reducible apply CoreState.setReg_kept | with_reducible apply Kept.foldl | with_reducible apply Kept.foldl_fst
    | with_reducible apply CoreKept.foldl | split | (refine Kept.intro ?_; dsimp only; with_reducible refine Kept.elim ?_)
    | (refine CoreKept.intro ?_; dsimp only; with_reducible refine CoreKept.elim ?_) | intro _ | dsimp only

theorem State.loseFrom_kept {s : State} {ctx : Nat} {core : Nat} (h0 : Kept kq kn s) : Kept kq kn (State.loseFrom s ctx core) := by
  unfold State.loseFrom
  try dsimp only
  repeat' first
    | with_reducible assumption | with_reducible apply State.loseContext_kept
    | with_reducible apply Kept.core (q := kq) (n := kn) | dsimp only

theorem State.doorbell_kept {s : State} {ctx : Nat} (h0 : Kept kq kn s) : Kept kq kn (State.doorbell s ctx) := by
  unfold State.doorbell
  try dsimp only
  repeat' first
    | with_reducible assumption | with_reducible apply State.raiseBit_kept | with_reducible apply OutKept.next
    | with_reducible apply OutKept.fault | with_reducible apply Kept.core (q := kq) (n := kn)
    | (refine Kept.intro ?_; dsimp only; with_reducible refine Kept.elim ?_)
    | (refine CoreKept.intro ?_; dsimp only; with_reducible refine CoreKept.elim ?_) | exact CoreKept.reset | intro _
    | dsimp only

theorem State.startCore_kept {s : State} {p : Nat} (h0 : Kept kq kn s) : Kept kq kn (State.startCore s p) := by
  unfold State.startCore
  try dsimp only
  repeat' first
    | with_reducible assumption | with_reducible apply State.modCore_kept | with_reducible apply CoreState.startIssue_kept
    | with_reducible apply OutKept.next | with_reducible apply OutKept.fault
    | with_reducible apply Kept.core (q := kq) (n := kn)
    | (refine Kept.intro ?_; dsimp only; with_reducible refine Kept.elim ?_)
    | (refine CoreKept.intro ?_; dsimp only; with_reducible refine CoreKept.elim ?_) | exact CoreKept.reset | intro _
    | dsimp only

theorem State.firmwarePush_kept {s : State} {core : Nat} {lo : Reg64} {hi : Reg64} (h0 : Kept kq kn s) : Kept kq kn (State.firmwarePush s core lo hi) := by
  unfold State.firmwarePush
  try dsimp only
  repeat' first
    | with_reducible assumption | with_reducible apply State.setReg_kept | with_reducible apply CoreState.setReg_kept
    | with_reducible apply State.modCore_kept | with_reducible apply State.mirrorPut_kept
    | with_reducible apply CoreState.push_kept | with_reducible apply OutKept.next | with_reducible apply OutKept.fault
    | with_reducible apply Kept.core (q := kq) (n := kn)
    | (refine Kept.intro ?_; dsimp only; with_reducible refine Kept.elim ?_)
    | (refine CoreKept.intro ?_; dsimp only; with_reducible refine CoreKept.elim ?_) | exact CoreKept.reset | intro _
    | dsimp only

theorem State.pushFirmware_kept {s : State} (h0 : Kept kq kn s) : Kept kq kn (State.pushFirmware s) := by
  unfold State.pushFirmware
  try dsimp only
  repeat' first
    | with_reducible assumption | with_reducible apply State.firmwarePush_kept | with_reducible apply OutKept.next
    | with_reducible apply OutKept.fault | with_reducible apply Kept.foldl | with_reducible apply Kept.foldl_fst
    | with_reducible apply CoreKept.foldl | with_reducible apply CoreKept.foldl_fst | with_reducible apply Kept.foldl_snd
    | with_reducible apply CoreKept.foldl_snd | with_reducible apply Kept.core (q := kq) (n := kn) | split
    | (refine Kept.intro ?_; dsimp only; with_reducible refine Kept.elim ?_)
    | (refine CoreKept.intro ?_; dsimp only; with_reducible refine CoreKept.elim ?_) | exact CoreKept.reset | intro _
    | dsimp only

theorem State.fillCoves_kept {s : State} {ctx : Nat} (h0 : Kept kq kn s) : Kept kq kn (State.fillCoves s ctx).1 := by
  unfold State.fillCoves
  try dsimp only
  repeat' first
    | with_reducible assumption | with_reducible apply State.pushFirmware_kept
    | with_reducible apply Kept.core (q := kq) (n := kn)
    | (refine Kept.intro ?_; dsimp only; with_reducible refine Kept.elim ?_)
    | (refine CoreKept.intro ?_; dsimp only; with_reducible refine CoreKept.elim ?_) | intro _ | dsimp only

theorem State.disableCoves_kept {s : State} {ctx : Nat} (h0 : Kept kq kn s) : Kept kq kn (State.disableCoves s ctx) := by
  unfold State.disableCoves
  try dsimp only
  repeat' first
    | with_reducible assumption | with_reducible apply State.mirrorPut_kept | with_reducible apply CoreState.writeCoveCfg_kept
    | with_reducible apply State.modCore_kept | with_reducible apply Kept.foldl | with_reducible apply Kept.foldl_fst
    | with_reducible apply CoreKept.foldl | with_reducible apply Kept.core (q := kq) (n := kn) | intro _ | dsimp only

theorem execTeardown_kept {ctx : Nat} {s : State} (h0 : Kept kq kn s) : OutKept kq kn (execTeardown ctx s) := by
  have hdone : ∀ (s : State) (l : List (Nat × Teardown)) (e : Event), Kept kq kn s → Kept kq kn (({ s with teardowns := l } : State).postEvent e) :=
    fun s l e h => State.postEvent_kept (Kept.congr (t := s) rfl rfl rfl rfl rfl rfl rfl h)
  have hadd : ∀ (s : State) (l : List (Nat × Teardown)), Kept kq kn s → Kept kq kn { s with teardowns := l } :=
    fun s l h => Kept.congr (t := s) rfl rfl rfl rfl rfl rfl rfl h
  unfold execTeardown
  refine onCtx_kept h0 (fun s h => ?_)
  have h1 : Kept kq kn (s.raiseDue ctx) := State.raiseDue_kept h
  have h2 : Kept kq kn s.pushFirmware := State.pushFirmware_kept h
  generalize s.raiseDue ctx = s1 at h1 ⊢
  generalize s.pushFirmware = s2 at h2 ⊢
  dsimp only
  split
  · exact h
  · split
    · split
      · split
        · exact hadd _ _ (State.washBay_kept h1)
        · exact h1
      · exact hadd _ _ (State.fillCoves_kept h1)
    · split
      · split
        · exact h
        · exact hdone _ _ _ h
      · split
        · exact hdone _ _ _ (State.disableCoves_kept h2)
        · exact h2

theorem execContextLostComplete_kept {ctx : Nat} {s : State} (h0 : Kept kq kn s) : OutKept kq kn (execContextLostComplete ctx s) := by
  unfold execContextLostComplete
  try dsimp only
  repeat' first
    | with_reducible assumption | with_reducible apply State.used_kept | with_reducible apply onCtx_kept
    | with_reducible apply State.complete_kept | with_reducible apply State.moveEntry_kept
    | with_reducible apply State.releasePages_kept | with_reducible apply OutKept.next | with_reducible apply OutKept.fault
    | with_reducible apply Kept.foldl | with_reducible apply Kept.foldl_fst | with_reducible apply CoreKept.foldl
    | with_reducible apply CoreKept.foldl_fst | with_reducible apply Kept.foldl_snd | with_reducible apply CoreKept.foldl_snd
    | with_reducible apply Kept.core (q := kq) (n := kn) | split
    | (refine Kept.intro ?_; dsimp only; with_reducible refine Kept.elim ?_)
    | (refine CoreKept.intro ?_; dsimp only; with_reducible refine CoreKept.elim ?_) | exact CoreKept.reset | intro _
    | dsimp only

end Sys2Proof.Machine
end

