-- ==== Sys2Proof/Laws/KeptServing.lean ====
section
/-! SUPPORT. What the operations of Machine/Serving.lean keep (Laws/Kept.lean). -/

namespace Sys2Proof.Machine

variable {kq : List Instr} {kn : Nat}

theorem onPilot_kept {pilot : Nat} {s : State} {f : State → State} (h0 : Kept kq kn s) (h1 : ∀ y0, Kept kq kn y0 → Kept kq kn (f y0)) : OutKept kq kn (onPilot pilot s f) := by
  unfold onPilot
  try dsimp only
  repeat' first
    | with_reducible assumption | with_reducible apply h1 | with_reducible apply CoreState.fault_kept
    | with_reducible apply OutKept.next | with_reducible apply OutKept.fault | split | dsimp only

theorem onEntry_kept {entry : Nat} {s : State} {f : State → State} (h0 : Kept kq kn s) (h1 : ∀ y0, Kept kq kn y0 → Kept kq kn (f y0)) : OutKept kq kn (onEntry entry s f) := by
  unfold onEntry
  try dsimp only
  repeat' first
    | with_reducible assumption | with_reducible apply h1 | with_reducible apply CoreState.fault_kept
    | with_reducible apply OutKept.next | with_reducible apply OutKept.fault | split | dsimp only

theorem State.countRestart_kept {s : State} {n : Nat} {comp : Nat} (h0 : Kept kq kn s) : Kept kq kn (State.countRestart s n comp) := by
  unfold State.countRestart
  try dsimp only
  repeat' first
    | with_reducible assumption | with_reducible apply State.counted_kept | with_reducible apply OutKept.next
    | with_reducible apply OutKept.fault | with_reducible apply Kept.core (q := kq) (n := kn) | split
    | (refine Kept.intro ?_; dsimp only; with_reducible refine Kept.elim ?_)
    | (refine CoreKept.intro ?_; dsimp only; with_reducible refine CoreKept.elim ?_) | exact CoreKept.reset | intro _
    | dsimp only

theorem State.enterComponent_kept {s : State} {n : Nat} {comp : Nat} (h0 : Kept kq kn s) : Kept kq kn (State.enterComponent s n comp) := by
  unfold State.enterComponent
  try dsimp only
  repeat' first
    | with_reducible assumption | with_reducible apply State.modPilot_kept | with_reducible apply State.sramWritten_kept
    | with_reducible apply OutKept.next | with_reducible apply OutKept.fault
    | with_reducible apply Kept.core (q := kq) (n := kn)
    | (refine Kept.intro ?_; dsimp only; with_reducible refine Kept.elim ?_)
    | (refine CoreKept.intro ?_; dsimp only; with_reducible refine CoreKept.elim ?_)
    | (refine Kept.intro ?_; dsimp only; with_reducible refine Kept.sram_write ?_)
    | (refine Kept.intro ?_; dsimp only; with_reducible refine Kept.sram_clear ?_)
    | (refine Kept.intro ?_; dsimp only; with_reducible refine Kept.sram_reset ?_)
    | (refine Kept.intro ?_; dsimp only; with_reducible refine Kept.sram_fold (fun m x h => Bytes.wf_write _ _ h) ?_)
    | exact CoreKept.reset | intro _ | dsimp only

theorem State.restartComponent_kept {s : State} {n : Nat} {comp : Nat} (h0 : Kept kq kn s) : Kept kq kn (State.restartComponent s n comp) := by
  unfold State.restartComponent
  try dsimp only
  repeat' first
    | with_reducible assumption | with_reducible apply CoreState.raise_kept | with_reducible apply State.raiseBit_kept
    | with_reducible apply State.modPilot_kept | with_reducible apply State.raise_kept
    | with_reducible apply State.countRestart_kept | with_reducible apply State.enterComponent_kept
    | with_reducible apply OutKept.next | with_reducible apply OutKept.fault
    | with_reducible apply Kept.core (q := kq) (n := kn) | split
    | (refine Kept.intro ?_; dsimp only; with_reducible refine Kept.elim ?_)
    | (refine CoreKept.intro ?_; dsimp only; with_reducible refine CoreKept.elim ?_) | exact CoreKept.reset | intro _
    | dsimp only

theorem execComponentRestart_kept {pilot : Nat} {comp : Nat} {s : State} (h0 : Kept kq kn s) : OutKept kq kn (execComponentRestart pilot comp s) := by
  unfold execComponentRestart
  try dsimp only
  repeat' first
    | with_reducible assumption | with_reducible apply CoreState.fault_kept | with_reducible apply onPilot_kept
    | with_reducible apply State.restartComponent_kept | with_reducible apply OutKept.next | with_reducible apply OutKept.fault
    | split | intro _ | dsimp only

theorem execPilotReset_kept {pilot : Nat} {s : State} (h0 : Kept kq kn s) : OutKept kq kn (execPilotReset pilot s) := by
  unfold execPilotReset
  try dsimp only
  repeat' first
    | with_reducible assumption | with_reducible apply State.modPilot_kept | with_reducible apply CoreState.start_kept
    | with_reducible apply onPilot_kept | with_reducible apply OutKept.next | with_reducible apply OutKept.fault
    | with_reducible apply Kept.core (q := kq) (n := kn)
    | (refine Kept.intro ?_; dsimp only; with_reducible refine Kept.elim ?_)
    | (refine CoreKept.intro ?_; dsimp only; with_reducible refine CoreKept.elim ?_) | exact CoreKept.reset | intro _
    | dsimp only

theorem State.popNotice_kept {s : State} {q : Nat} (h0 : Kept kq kn s) : Kept kq kn (State.popNotice s q) := by
  unfold State.popNotice
  try dsimp only
  repeat' first
    | with_reducible assumption | with_reducible apply OutKept.next | with_reducible apply OutKept.fault
    | with_reducible apply Kept.core (q := kq) (n := kn) | split
    | (refine Kept.intro ?_; dsimp only; with_reducible refine Kept.elim ?_)
    | (refine Kept.intro ?_; dsimp only; with_reducible refine Kept.elim_used _ ?_ ?_)
    | (refine CoreKept.intro ?_; dsimp only; with_reducible refine CoreKept.elim ?_) | exact CoreKept.reset | intro _
    | dsimp only

theorem State.countRejected_kept {s : State} {bay : Nat} (h0 : Kept kq kn s) : Kept kq kn (State.countRejected s bay) := by
  unfold State.countRejected
  try dsimp only
  repeat' first
    | with_reducible assumption | with_reducible apply CoreState.wrap_kept | with_reducible apply State.wrap_kept
    | with_reducible apply Kept.foldl | with_reducible apply Kept.foldl_fst | with_reducible apply CoreKept.foldl | intro _
    | dsimp only

theorem State.acceptSub_kept {s : State} {i : Nat} {x : SubEntry} (h0 : Kept kq kn s) : Kept kq kn (State.acceptSub s i x) := by
  unfold State.acceptSub
  try dsimp only
  repeat' first
    | with_reducible assumption | with_reducible apply State.setReg_kept | with_reducible apply CoreState.setReg_kept
    | with_reducible apply State.setSub_kept | with_reducible apply OutKept.next | with_reducible apply OutKept.fault
    | with_reducible apply Kept.core (q := kq) (n := kn)
    | (refine Kept.intro ?_; dsimp only; with_reducible refine Kept.elim ?_)
    | (refine CoreKept.intro ?_; dsimp only; with_reducible refine CoreKept.elim ?_) | exact CoreKept.reset | intro _
    | dsimp only

theorem execSubmissionRead_kept {ctx : Nat} {queue : Nat} {s : State} (h0 : Kept kq kn s) : OutKept kq kn (execSubmissionRead ctx queue s) := by
  unfold execSubmissionRead
  try dsimp only
  repeat' first
    | with_reducible assumption | with_reducible apply State.used_kept | with_reducible apply CoreState.put_kept
    | with_reducible apply State.put_kept | with_reducible apply State.pilotFault_kept | with_reducible apply onCtx_kept
    | with_reducible apply State.complete_kept | with_reducible apply State.restartComponent_kept
    | with_reducible apply State.countRejected_kept | with_reducible apply State.acceptSub_kept
    | with_reducible apply OutKept.next | with_reducible apply OutKept.fault
    | with_reducible apply Kept.core (q := kq) (n := kn) | split
    | (refine Kept.intro ?_; dsimp only; with_reducible refine Kept.elim ?_)
    | (refine CoreKept.intro ?_; dsimp only; with_reducible refine CoreKept.elim ?_) | exact CoreKept.reset | intro _
    | with_reducible refine Kept.of_fst ‹_› ?_ | with_reducible refine Kept.of_snd ‹_› ?_
    | with_reducible refine Kept.of_trd ‹_› ?_ | with_reducible refine CoreKept.of_fst ‹_› ?_
    | with_reducible refine CoreKept.of_snd ‹_› ?_ | dsimp only

theorem State.setBalance_kept {s : State} {t : Nat} {x : Int} (h0 : Kept kq kn s) : Kept kq kn (State.setBalance s t x) := by
  unfold State.setBalance
  try dsimp only
  repeat' first
    | with_reducible assumption | with_reducible apply CoreState.put_kept | with_reducible apply State.put_kept
    | with_reducible apply OutKept.next | with_reducible apply OutKept.fault
    | with_reducible apply Kept.core (q := kq) (n := kn)
    | (refine Kept.intro ?_; dsimp only; with_reducible refine Kept.elim ?_)
    | (refine CoreKept.intro ?_; dsimp only; with_reducible refine CoreKept.elim ?_) | exact CoreKept.reset | intro _
    | dsimp only

theorem State.chargeTenant_kept {s : State} {t : Nat} {amount : Nat} (h0 : Kept kq kn s) : Kept kq kn (State.chargeTenant s t amount) := by
  unfold State.chargeTenant
  try dsimp only
  repeat' first
    | with_reducible assumption | with_reducible apply CoreState.wrap_kept | with_reducible apply State.wrap_kept
    | with_reducible apply State.counted_kept | with_reducible apply OutKept.next | with_reducible apply OutKept.fault
    | with_reducible apply Kept.core (q := kq) (n := kn)
    | (refine Kept.intro ?_; dsimp only; with_reducible refine Kept.elim ?_)
    | (refine CoreKept.intro ?_; dsimp only; with_reducible refine CoreKept.elim ?_) | exact CoreKept.reset | intro _
    | dsimp only

theorem execTenantRefill_kept {tenant : Nat} {s : State} (h0 : Kept kq kn s) : OutKept kq kn (execTenantRefill tenant s) := by
  unfold execTenantRefill
  try dsimp only
  repeat' first
    | with_reducible assumption | with_reducible apply State.counted_kept | with_reducible apply CoreState.fault_kept
    | with_reducible apply State.setBalance_kept | with_reducible apply OutKept.next | with_reducible apply OutKept.fault
    | with_reducible apply Kept.core (q := kq) (n := kn) | split
    | (refine Kept.intro ?_; dsimp only; with_reducible refine Kept.elim ?_)
    | (refine CoreKept.intro ?_; dsimp only; with_reducible refine CoreKept.elim ?_) | exact CoreKept.reset | intro _
    | dsimp only

theorem State.finish_kept {s : State} {i : Nat} {x : Sub} {status : Nat} {detail : Nat} (h0 : Kept kq kn s) : Kept kq kn (State.finish s i x status detail) := by
  unfold State.finish
  try dsimp only
  repeat' first
    | with_reducible assumption | with_reducible apply State.setSub_kept | with_reducible apply State.moveEntry_kept
    | (refine Kept.intro ?_; dsimp only; with_reducible refine Kept.elim ?_)
    | (refine CoreKept.intro ?_; dsimp only; with_reducible refine CoreKept.elim ?_) | dsimp only

theorem execBudgetHeld_kept {entry : Nat} {s : State} (h0 : Kept kq kn s) : OutKept kq kn (execBudgetHeld entry s) := by
  unfold execBudgetHeld
  try dsimp only
  repeat' first
    | with_reducible assumption | with_reducible apply onEntry_kept | with_reducible apply State.finish_kept
    | with_reducible apply OutKept.next | with_reducible apply OutKept.fault | split | intro _ | dsimp only

theorem execDeadlineMissed_kept {entry : Nat} {s : State} (h0 : Kept kq kn s) : OutKept kq kn (execDeadlineMissed entry s) := by
  unfold execDeadlineMissed
  try dsimp only
  repeat' first
    | with_reducible assumption | with_reducible apply State.releasePages_kept | with_reducible apply onEntry_kept
    | with_reducible apply State.finish_kept | with_reducible apply OutKept.next | with_reducible apply OutKept.fault | split
    | intro _ | dsimp only

theorem State.bindPairs_kept {s : State} {table : Nat} {i : Nat} {shape : List Nat} {c : CoreState}  (h1 : CoreKept c) : CoreKept (State.bindPairs s table i shape c) := by
  unfold State.bindPairs
  try dsimp only
  repeat' first
    | with_reducible assumption | with_reducible apply CoreState.put_kept | with_reducible apply State.put_kept
    | with_reducible apply Kept.foldl | with_reducible apply Kept.foldl_fst | with_reducible apply CoreKept.foldl | split
    | intro _ | dsimp only

theorem State.mirrorPairs_kept {s : State} {core : Nat} (h0 : Kept kq kn s) : Kept kq kn (State.mirrorPairs s core) := by
  unfold State.mirrorPairs
  try dsimp only
  repeat' first
    | with_reducible assumption | with_reducible apply State.mirrorPut_kept | with_reducible apply Kept.foldl
    | with_reducible apply Kept.foldl_fst | with_reducible apply CoreKept.foldl
    | with_reducible apply Kept.core (q := kq) (n := kn) | intro _ | dsimp only

theorem State.place_kept {s : State} {bay : Nat} {i : Nat} {x : Sub} {ter : Nat} (h0 : Kept kq kn s) : Kept kq kn (State.place s bay i x ter) := by
  unfold State.place
  try dsimp only
  repeat' first
    | with_reducible assumption | with_reducible apply CoreState.put_kept | with_reducible apply CoreState.wrap_kept
    | with_reducible apply State.put_kept | with_reducible apply State.wrap_kept | with_reducible apply State.regrid_kept
    | with_reducible apply State.pushFirmware_kept | with_reducible apply State.bindPairs_kept
    | with_reducible apply State.mirrorPairs_kept | with_reducible apply State.modCore_kept | with_reducible apply Kept.foldl
    | with_reducible apply Kept.foldl_fst | with_reducible apply CoreKept.foldl
    | with_reducible apply Kept.core (q := kq) (n := kn)
    | (refine Kept.intro ?_; dsimp only; with_reducible refine Kept.elim ?_)
    | (refine CoreKept.intro ?_; dsimp only; with_reducible refine CoreKept.elim ?_) | intro _ | dsimp only

theorem execSubmissionPlace_kept {bay : Nat} {s : State} (h0 : Kept kq kn s) : OutKept kq kn (execSubmissionPlace bay s) := by
  unfold execSubmissionPlace
  try dsimp only
  repeat' first
    | with_reducible assumption | with_reducible apply State.used_kept | with_reducible apply CoreState.wrap_kept
    | with_reducible apply State.wrap_kept | with_reducible apply onBay_kept | with_reducible apply State.setSub_kept
    | with_reducible apply State.moveEntry_kept | with_reducible apply State.countRejected_kept
    | with_reducible apply State.chargeTenant_kept | with_reducible apply State.finish_kept
    | with_reducible apply State.place_kept | with_reducible apply OutKept.next | with_reducible apply OutKept.fault
    | with_reducible apply Kept.core (q := kq) (n := kn) | split
    | (refine Kept.intro ?_; dsimp only; with_reducible refine Kept.elim ?_)
    | (refine CoreKept.intro ?_; dsimp only; with_reducible refine CoreKept.elim ?_) | exact CoreKept.reset | intro _
    | with_reducible refine Kept.of_fst ‹_› ?_ | with_reducible refine Kept.of_snd ‹_› ?_
    | with_reducible refine Kept.of_trd ‹_› ?_ | with_reducible refine CoreKept.of_fst ‹_› ?_
    | with_reducible refine CoreKept.of_snd ‹_› ?_ | dsimp only

theorem execTilerStart_kept {bay : Nat} {s : State} (h0 : Kept kq kn s) : OutKept kq kn (execTilerStart bay s) := by
  unfold execTilerStart
  try dsimp only
  repeat' first
    | with_reducible assumption | with_reducible apply State.setCore_kept | with_reducible apply CoreState.put_kept
    | with_reducible apply State.put_kept | with_reducible apply State.mirrorPut_kept
    | with_reducible apply CoreState.start_kept | with_reducible apply onBay_kept | with_reducible apply State.startCore_kept
    | with_reducible apply State.pushFirmware_kept | with_reducible apply OutKept.next | with_reducible apply OutKept.fault
    | with_reducible apply Kept.foldl | with_reducible apply Kept.foldl_fst | with_reducible apply CoreKept.foldl
    | with_reducible apply CoreKept.foldl_fst | with_reducible apply Kept.foldl_snd | with_reducible apply CoreKept.foldl_snd
    | with_reducible apply Kept.core (q := kq) (n := kn) | split
    | (refine Kept.intro ?_; dsimp only; with_reducible refine Kept.elim ?_)
    | (refine CoreKept.intro ?_; dsimp only; with_reducible refine CoreKept.elim ?_) | exact CoreKept.reset | intro _
    | with_reducible refine Kept.of_fst ‹_› ?_ | with_reducible refine Kept.of_snd ‹_› ?_
    | with_reducible refine Kept.of_trd ‹_› ?_ | with_reducible refine CoreKept.of_fst ‹_› ?_
    | with_reducible refine CoreKept.of_snd ‹_› ?_ | dsimp only

theorem execCompletionWrite_kept {entry : Nat} {s : State} (h0 : Kept kq kn s) : OutKept kq kn (execCompletionWrite entry s) := by
  unfold execCompletionWrite
  try dsimp only
  repeat' first
    | with_reducible assumption | with_reducible apply State.used_kept | with_reducible apply State.complete_kept
    | with_reducible apply State.moveEntry_kept | with_reducible apply onEntry_kept | with_reducible apply OutKept.next
    | with_reducible apply OutKept.fault | with_reducible apply Kept.core (q := kq) (n := kn) | split
    | (refine Kept.intro ?_; dsimp only; with_reducible refine Kept.elim ?_)
    | (refine CoreKept.intro ?_; dsimp only; with_reducible refine CoreKept.elim ?_) | exact CoreKept.reset | intro _
    | with_reducible refine Kept.of_fst ‹_› ?_ | with_reducible refine Kept.of_snd ‹_› ?_
    | with_reducible refine Kept.of_trd ‹_› ?_ | with_reducible refine CoreKept.of_fst ‹_› ?_
    | with_reducible refine CoreKept.of_snd ‹_› ?_ | dsimp only

theorem execDecodeBatch_kept {bay : Nat} {s : State} (h0 : Kept kq kn s) : OutKept kq kn (execDecodeBatch bay s) := by
  unfold execDecodeBatch
  try dsimp only
  repeat' first
    | with_reducible assumption | with_reducible apply CoreState.bump_kept | with_reducible apply CoreState.wrap_kept
    | with_reducible apply State.bump_kept | with_reducible apply State.wrap_kept | with_reducible apply onBay_kept
    | with_reducible apply State.setSub_kept | with_reducible apply State.moveEntry_kept
    | with_reducible apply State.chargeTenant_kept | with_reducible apply State.finish_kept | with_reducible apply OutKept.next
    | with_reducible apply OutKept.fault | with_reducible apply Kept.foldl | with_reducible apply Kept.foldl_fst
    | with_reducible apply CoreKept.foldl | with_reducible apply CoreKept.foldl_fst | with_reducible apply Kept.foldl_snd
    | with_reducible apply CoreKept.foldl_snd | with_reducible apply Kept.core (q := kq) (n := kn) | split
    | (refine Kept.intro ?_; dsimp only; with_reducible refine Kept.elim ?_)
    | (refine CoreKept.intro ?_; dsimp only; with_reducible refine CoreKept.elim ?_) | exact CoreKept.reset | intro _
    | dsimp only

theorem execRoleChange_kept {bay : Nat} {role : Nat} {s : State} (h0 : Kept kq kn s) : OutKept kq kn (execRoleChange bay role s) := by
  unfold execRoleChange
  try dsimp only
  repeat' first
    | with_reducible assumption | with_reducible apply CoreState.put_kept | with_reducible apply CoreState.raise_kept
    | with_reducible apply State.put_kept | with_reducible apply State.keepRole_kept | with_reducible apply State.raise_kept
    | with_reducible apply onBay_kept | with_reducible apply OutKept.next | with_reducible apply OutKept.fault
    | with_reducible apply Kept.core (q := kq) (n := kn) | split
    | (refine Kept.intro ?_; dsimp only; with_reducible refine Kept.elim ?_)
    | (refine CoreKept.intro ?_; dsimp only; with_reducible refine CoreKept.elim ?_) | exact CoreKept.reset | intro _
    | dsimp only

theorem State.settleRedrive_kept {s : State} (h0 : Kept kq kn s) : Kept kq kn (State.settleRedrive s) := by
  unfold State.settleRedrive
  try dsimp only
  repeat' first
    | with_reducible assumption | with_reducible apply State.setDriftCredit_kept | with_reducible apply OutKept.next
    | with_reducible apply OutKept.fault | with_reducible apply Kept.core (q := kq) (n := kn) | split
    | (refine Kept.intro ?_; dsimp only; with_reducible refine Kept.elim ?_)
    | (refine Kept.intro ?_; dsimp only; with_reducible refine Kept.elim_used _ ?_ ?_)
    | (refine CoreKept.intro ?_; dsimp only; with_reducible refine CoreKept.elim ?_)
    | (refine Kept.intro ?_; dsimp only; with_reducible refine Kept.tier_write ?_) | exact CoreKept.reset | intro _
    | with_reducible refine Kept.of_fst ‹_› ?_ | with_reducible refine Kept.of_snd ‹_› ?_
    | with_reducible refine Kept.of_trd ‹_› ?_ | with_reducible refine CoreKept.of_fst ‹_› ?_
    | with_reducible refine CoreKept.of_snd ‹_› ?_ | dsimp only [id] | dsimp only

theorem State.redriveLeft_kept {s : State} (h0 : Kept kq kn s) : Kept kq kn (State.redriveLeft s) := by
  unfold State.redriveLeft
  try dsimp only
  repeat' first
    | with_reducible assumption | with_reducible apply CoreState.put_kept | with_reducible apply State.put_kept
    | with_reducible apply OutKept.next | with_reducible apply OutKept.fault
    | with_reducible apply Kept.core (q := kq) (n := kn) | split
    | (refine Kept.intro ?_; dsimp only; with_reducible refine Kept.elim ?_)
    | (refine CoreKept.intro ?_; dsimp only; with_reducible refine CoreKept.elim ?_) | exact CoreKept.reset | intro _
    | dsimp only

theorem State.startRedrive_kept {s : State} (h0 : Kept kq kn s) : Kept kq kn (State.startRedrive s) := by
  unfold State.startRedrive
  try dsimp only
  repeat' first
    | with_reducible assumption | with_reducible apply CoreState.put_kept | with_reducible apply State.put_kept
    | with_reducible apply State.raiseFlag_kept | with_reducible apply State.settleRedrive_kept
    | with_reducible apply OutKept.next | with_reducible apply OutKept.fault
    | with_reducible apply Kept.core (q := kq) (n := kn) | split
    | (refine Kept.intro ?_; dsimp only; with_reducible refine Kept.elim ?_)
    | (refine CoreKept.intro ?_; dsimp only; with_reducible refine CoreKept.elim ?_) | exact CoreKept.reset | intro _
    | dsimp only

theorem execGrantReceive_kept {core : Nat} {plain : Nat} {win : Nat} {first : Nat} {count : Nat} {s : State} (h0 : Kept kq kn s) : OutKept kq kn (execGrantReceive core plain win first count s) := by
  unfold execGrantReceive
  try dsimp only
  repeat' first
    | with_reducible assumption | with_reducible apply State.takeMsg_kept | with_reducible apply CoreState.setCredit_kept
    | with_reducible apply State.setDriftCredit_kept | with_reducible apply State.settleRedrive_kept
    | with_reducible apply State.setCore_kept | with_reducible apply onCore_kept | with_reducible apply OutKept.next
    | with_reducible apply OutKept.fault | with_reducible apply Kept.core (q := kq) (n := kn) | split | intro _
    | with_reducible refine Kept.of_fst ‹_› ?_ | with_reducible refine Kept.of_snd ‹_› ?_
    | with_reducible refine Kept.of_trd ‹_› ?_ | with_reducible refine CoreKept.of_fst ‹_› ?_
    | with_reducible refine CoreKept.of_snd ‹_› ?_ | dsimp only

theorem execPrefixWalkEnd_kept {s : State} (h0 : Kept kq kn s) : OutKept kq kn (execPrefixWalkEnd s) := by
  unfold execPrefixWalkEnd
  try dsimp only
  repeat' first
    | with_reducible assumption | with_reducible apply CoreState.put_kept | with_reducible apply State.put_kept
    | with_reducible apply State.raiseFlag_kept | with_reducible apply OutKept.next | with_reducible apply OutKept.fault
    | with_reducible apply Kept.core (q := kq) (n := kn) | split
    | (refine Kept.intro ?_; dsimp only; with_reducible refine Kept.elim ?_)
    | (refine CoreKept.intro ?_; dsimp only; with_reducible refine CoreKept.elim ?_) | exact CoreKept.reset | intro _
    | with_reducible refine Kept.of_fst ‹_› ?_ | with_reducible refine Kept.of_snd ‹_› ?_
    | with_reducible refine Kept.of_trd ‹_› ?_ | with_reducible refine CoreKept.of_fst ‹_› ?_
    | with_reducible refine CoreKept.of_snd ‹_› ?_ | dsimp only

end Sys2Proof.Machine
end

