-- ==== Sys2Proof/Laws/KeptMirror.lean ====
section
/-! SUPPORT. What the operations of Machine/Mirror.lean keep (Laws/Kept.lean). -/

namespace Sys2Proof.Machine

variable {kq : List Instr} {kn : Nat}

theorem State.loadChunk_kept {s : State} {x : Segment} {k : Nat} (h0 : Kept kq kn s) : Kept kq kn (State.loadChunk s x k) := by
  unfold State.loadChunk
  try dsimp only
  repeat' first
    | with_reducible assumption | with_reducible apply State.charge_kept | with_reducible apply State.land_kept
    | with_reducible apply OutKept.next | with_reducible apply OutKept.fault
    | with_reducible apply Kept.core (q := kq) (n := kn)
    | (refine Kept.intro ?_; dsimp only; with_reducible refine Kept.elim ?_)
    | (refine CoreKept.intro ?_; dsimp only; with_reducible refine CoreKept.elim ?_) | exact CoreKept.reset | intro _
    | dsimp only

theorem State.loadSegment_kept {s : State} {x : Segment} (h0 : Kept kq kn s) : Kept kq kn (State.loadSegment s x) := by
  unfold State.loadSegment
  try dsimp only
  repeat' first
    | with_reducible assumption | with_reducible apply State.modCore_kept | with_reducible apply CoreState.post_kept
    | with_reducible apply State.countBytes_kept | with_reducible apply State.loadChunk_kept
    | with_reducible apply OutKept.next | with_reducible apply OutKept.fault | with_reducible apply Kept.foldl
    | with_reducible apply Kept.foldl_fst | with_reducible apply CoreKept.foldl | with_reducible apply CoreKept.foldl_fst
    | with_reducible apply Kept.foldl_snd | with_reducible apply CoreKept.foldl_snd
    | with_reducible apply Kept.core (q := kq) (n := kn) | split
    | (refine Kept.intro ?_; dsimp only; with_reducible refine Kept.elim ?_)
    | (refine CoreKept.intro ?_; dsimp only; with_reducible refine CoreKept.elim ?_) | exact CoreKept.reset | intro _
    | dsimp only

theorem State.saveChunk_kept {s : State} {x : Segment} {k : Nat} (h0 : Kept kq kn s) : Kept kq kn (State.saveChunk s x k) := by
  unfold State.saveChunk
  try dsimp only
  repeat' first
    | with_reducible assumption | with_reducible apply State.charge_kept | with_reducible apply State.tierWrite_kept
    | with_reducible apply OutKept.next | with_reducible apply OutKept.fault
    | with_reducible apply Kept.core (q := kq) (n := kn) | split
    | (refine Kept.intro ?_; dsimp only; with_reducible refine Kept.elim ?_)
    | (refine CoreKept.intro ?_; dsimp only; with_reducible refine CoreKept.elim ?_) | exact CoreKept.reset | intro _
    | dsimp only

theorem State.saveSegment_kept {s : State} {x : Segment} (h0 : Kept kq kn s) : Kept kq kn (State.saveSegment s x) := by
  unfold State.saveSegment
  try dsimp only
  repeat' first
    | with_reducible assumption | with_reducible apply State.countBytes_kept | with_reducible apply State.saveChunk_kept
    | with_reducible apply Kept.foldl | with_reducible apply Kept.foldl_fst | with_reducible apply CoreKept.foldl | intro _
    | dsimp only

theorem State.startMirror_kept {s : State} (h0 : Kept kq kn s) : Kept kq kn (State.startMirror s) := by
  unfold State.startMirror
  try dsimp only
  repeat' first
    | with_reducible assumption | with_reducible apply CoreState.put_kept | with_reducible apply State.put_kept
    | with_reducible apply State.loadSegment_kept | with_reducible apply State.saveSegment_kept
    | with_reducible apply Kept.foldl | with_reducible apply Kept.foldl_fst | with_reducible apply CoreKept.foldl | split
    | (refine Kept.intro ?_; dsimp only; with_reducible refine Kept.elim ?_)
    | (refine CoreKept.intro ?_; dsimp only; with_reducible refine CoreKept.elim ?_) | intro _ | dsimp only

theorem execMirrorDone_kept {s : State} (h0 : Kept kq kn s) : OutKept kq kn (execMirrorDone s) := by
  unfold execMirrorDone
  try dsimp only
  repeat' first
    | with_reducible assumption | with_reducible apply CoreState.put_kept | with_reducible apply State.put_kept
    | with_reducible apply State.raiseFlag_kept | with_reducible apply OutKept.next | with_reducible apply OutKept.fault
    | with_reducible apply Kept.core (q := kq) (n := kn) | split
    | (refine Kept.intro ?_; dsimp only; with_reducible refine Kept.elim ?_)
    | (refine CoreKept.intro ?_; dsimp only; with_reducible refine CoreKept.elim ?_) | exact CoreKept.reset | intro _
    | with_reducible refine Kept.of_fst ‹_› ?_ | with_reducible refine Kept.of_snd ‹_› ?_
    | with_reducible refine Kept.of_trd ‹_› ?_ | with_reducible refine CoreKept.of_fst ‹_› ?_
    | with_reducible refine CoreKept.of_snd ‹_› ?_ | dsimp only

end Sys2Proof.Machine
end

