-- ==== Sys2Proof/Laws/KeptStore.lean ====
section
/-! SUPPORT. What the operations of Machine/Store.lean keep (Laws/Kept.lean). -/

namespace Sys2Proof.Machine

variable {kq : List Instr} {kn : Nat}

theorem State.storeWrite_kept {s : State} {a : Nat} {bs : List Byte} (h0 : Kept kq kn s) : Kept kq kn (State.storeWrite s a bs) := by
  unfold State.storeWrite
  try dsimp only
  repeat' first
    | with_reducible assumption | (refine Kept.intro ?_; dsimp only; with_reducible refine Kept.elim ?_)
    | (refine CoreKept.intro ?_; dsimp only; with_reducible refine CoreKept.elim ?_)
    | (refine Kept.intro ?_; dsimp only; with_reducible refine Kept.store_write ?_)
    | (refine Kept.intro ?_; dsimp only; with_reducible refine Kept.store_clear ?_) | intro _ | dsimp only

theorem State.storeClear_kept {s : State} {lo : Nat} {hi : Nat} (h0 : Kept kq kn s) : Kept kq kn (State.storeClear s lo hi) := by
  unfold State.storeClear
  try dsimp only
  repeat' first
    | with_reducible assumption | (refine Kept.intro ?_; dsimp only; with_reducible refine Kept.elim ?_)
    | (refine CoreKept.intro ?_; dsimp only; with_reducible refine CoreKept.elim ?_)
    | (refine Kept.intro ?_; dsimp only; with_reducible refine Kept.store_write ?_)
    | (refine Kept.intro ?_; dsimp only; with_reducible refine Kept.store_clear ?_) | intro _ | dsimp only

theorem State.storeErase_kept {s : State} {a : Nat} (h0 : Kept kq kn s) : Kept kq kn (State.storeErase s a) := by
  unfold State.storeErase
  try dsimp only
  repeat' first
    | with_reducible assumption | with_reducible apply State.storeClear_kept | dsimp only

theorem State.pushAppend_kept {s : State} (h0 : Kept kq kn s) : Kept kq kn (State.pushAppend s) := by
  unfold State.pushAppend
  try dsimp only
  repeat' first
    | with_reducible assumption | with_reducible apply CoreState.put_kept | with_reducible apply State.put_kept
    | with_reducible apply State.raiseFlag_kept | with_reducible apply OutKept.next | with_reducible apply OutKept.fault
    | with_reducible apply Kept.core (q := kq) (n := kn) | split
    | (refine Kept.intro ?_; dsimp only; with_reducible refine Kept.elim ?_)
    | (refine CoreKept.intro ?_; dsimp only; with_reducible refine CoreKept.elim ?_) | exact CoreKept.reset | intro _
    | dsimp only

theorem State.compactJournal_kept {s : State} (h0 : Kept kq kn s) : Kept kq kn (State.compactJournal s) := by
  unfold State.compactJournal
  try dsimp only
  repeat' first
    | with_reducible assumption | with_reducible apply CoreState.put_kept | with_reducible apply CoreState.bump_kept
    | with_reducible apply State.put_kept | with_reducible apply State.bump_kept | with_reducible apply State.storeWrite_kept
    | with_reducible apply State.storeClear_kept | split
    | (refine Kept.intro ?_; dsimp only; with_reducible refine Kept.elim ?_)
    | (refine CoreKept.intro ?_; dsimp only; with_reducible refine CoreKept.elim ?_) | intro _ | dsimp only

theorem State.withArea_kept {s : State} (h0 : Kept kq kn s) : Kept kq kn (State.withArea s) := by
  unfold State.withArea
  try dsimp only
  repeat' first
    | with_reducible assumption | with_reducible apply CoreState.put_kept | with_reducible apply State.put_kept
    | with_reducible apply State.storeWrite_kept | with_reducible apply State.storeClear_kept | split
    | (refine Kept.intro ?_; dsimp only; with_reducible refine Kept.elim ?_)
    | (refine CoreKept.intro ?_; dsimp only; with_reducible refine CoreKept.elim ?_) | dsimp only

theorem State.appendRecord_kept {s0 : State} {addr : Nat} {value : Reg64} (h0 : Kept kq kn s0) : Kept kq kn (State.appendRecord s0 addr value) := by
  unfold State.appendRecord
  try dsimp only
  repeat' first
    | with_reducible assumption | with_reducible apply CoreState.put_kept | with_reducible apply State.put_kept
    | with_reducible apply State.raiseFlag_kept | with_reducible apply State.storeWrite_kept
    | with_reducible apply State.compactJournal_kept | with_reducible apply State.withArea_kept
    | with_reducible apply OutKept.next | with_reducible apply OutKept.fault
    | with_reducible apply Kept.core (q := kq) (n := kn) | split
    | (refine Kept.intro ?_; dsimp only; with_reducible refine Kept.elim ?_)
    | (refine CoreKept.intro ?_; dsimp only; with_reducible refine CoreKept.elim ?_) | exact CoreKept.reset | intro _
    | dsimp only

theorem execJournalAppend_kept {s : State} (h0 : Kept kq kn s) : OutKept kq kn (execJournalAppend s) := by
  unfold execJournalAppend
  try dsimp only
  repeat' first
    | with_reducible assumption | with_reducible apply State.pushAppend_kept | with_reducible apply State.appendRecord_kept
    | with_reducible apply OutKept.next | with_reducible apply OutKept.fault | split
    | (refine Kept.intro ?_; dsimp only; with_reducible refine Kept.elim ?_)
    | (refine CoreKept.intro ?_; dsimp only; with_reducible refine CoreKept.elim ?_) | dsimp only

theorem State.walkFrames_kept {s : State} {x : Source} {h : List Byte} {act : State → Frame → State × Stop} {total : Nat} {n : Nat} {pos : Nat} (h0 : Kept kq kn s) (h1 : ∀ y0 y1, Kept kq kn y0 → Kept kq kn (act y0 y1).1) : Kept kq kn (State.walkFrames s x h act total n pos).1 := by
  induction n generalizing s x h act total pos with
  | zero =>
    unfold State.walkFrames
    try dsimp only
    repeat' first
      | with_reducible assumption | with_reducible apply h1 | split | with_reducible refine Kept.of_fst ‹_› ?_ | dsimp only
  | succ z ih =>
    unfold State.walkFrames
    try dsimp only
    repeat' first
      | with_reducible assumption | with_reducible apply ih | with_reducible apply h1 | split
      | with_reducible refine Kept.of_fst ‹_› ?_ | dsimp only

theorem CoreState.loadStrand_kept {c : CoreState} {first : Nat} {l : List Nat} (h0 : CoreKept c) : CoreKept (CoreState.loadStrand c first l) := by
  unfold CoreState.loadStrand
  try dsimp only
  repeat' first
    | with_reducible assumption | with_reducible apply Kept.foldl | with_reducible apply Kept.foldl_fst
    | with_reducible apply CoreKept.foldl | (refine Kept.intro ?_; dsimp only; with_reducible refine Kept.elim ?_)
    | (refine CoreKept.intro ?_; dsimp only; with_reducible refine CoreKept.elim ?_) | intro _ | dsimp only

theorem State.writeFrame_kept {s : State} {x : Source} {f : Frame} {shoals : List Nat} {k : Nat} (h0 : Kept kq kn s) :
    Kept kq kn (State.writeFrame s x f shoals k) := by
  unfold State.writeFrame
  dsimp only
  split
  · exact Kept.congr (t := s) rfl rfl rfl rfl rfl rfl rfl h0
  · exact Kept.congr (t := s) rfl rfl rfl rfl rfl rfl rfl h0
  · exact Kept.congr (t := s) rfl rfl rfl rfl rfl rfl rfl h0
  · exact Kept.foldl (fun s j h => Kept.foldl (fun s i h => State.modCore_kept h (fun c hc => CoreState.loadStrand_kept hc)) h) h0
  · exact Kept.intro (Kept.sram_fold (fun m j h => Bytes.wf_write _ _ h) h0)
  · exact Kept.intro (Kept.sram_write h0)

theorem State.copyFrame_kept {s : State} {x : Source} {shoals : List Nat} {f : Frame} (h0 : Kept kq kn s) : Kept kq kn (State.copyFrame s x shoals f).1 := by
  unfold State.copyFrame
  try dsimp only
  repeat' first
    | with_reducible assumption | with_reducible apply State.writeFrame_kept | split | dsimp only

theorem State.compareFrame_kept {s : State} {x : Source} {shoals : List Nat} {f : Frame} (h0 : Kept kq kn s) : Kept kq kn (State.compareFrame s x shoals f).1 := by
  unfold State.compareFrame
  try dsimp only
  repeat' first
    | with_reducible assumption | split | intro _ | dsimp only

theorem State.startPr_kept {s : State} (h0 : Kept kq kn s) : Kept kq kn (State.startPr s) := by
  unfold State.startPr
  try dsimp only
  repeat' first
    | with_reducible assumption | with_reducible apply CoreState.put_kept | with_reducible apply State.put_kept
    | (refine Kept.intro ?_; dsimp only; with_reducible refine Kept.elim ?_)
    | (refine CoreKept.intro ?_; dsimp only; with_reducible refine CoreKept.elim ?_) | dsimp only

theorem State.applyPr_kept {s : State} {r : PrRun} (h0 : Kept kq kn s) : Kept kq kn (State.applyPr s r).1 := by
  unfold State.applyPr
  try dsimp only
  repeat' first
    | with_reducible assumption | with_reducible apply State.walkFrames_kept | with_reducible apply State.copyFrame_kept | split
    | intro _ | with_reducible refine Kept.of_fst ‹_› ?_ | with_reducible refine Kept.of_snd ‹_› ?_
    | with_reducible refine Kept.of_trd ‹_› ?_ | with_reducible refine CoreKept.of_fst ‹_› ?_
    | with_reducible refine CoreKept.of_snd ‹_› ?_ | dsimp only

theorem State.resetMirror_kept {s : State} {shoal : Nat} (h0 : Kept kq kn s) : Kept kq kn (State.resetMirror s shoal) := by
  unfold State.resetMirror
  try dsimp only
  repeat' first
    | with_reducible assumption | (refine Kept.intro ?_; dsimp only; with_reducible refine Kept.elim ?_)
    | (refine CoreKept.intro ?_; dsimp only; with_reducible refine CoreKept.elim ?_) | dsimp only

theorem State.washShoal_kept {s : State} {shoal : Nat} (h0 : Kept kq kn s) : Kept kq kn (State.washShoal s shoal) := by
  unfold State.washShoal
  try dsimp only
  repeat' first
    | with_reducible assumption | with_reducible apply State.washCore_kept | with_reducible apply CoreState.washOver_kept
    | with_reducible apply State.modCore_kept | with_reducible apply Kept.foldl | with_reducible apply Kept.foldl_fst
    | with_reducible apply CoreKept.foldl | split | exact CoreKept.reset | intro _ | dsimp only

theorem execPrEnd_kept {s : State} (h0 : Kept kq kn s) : OutKept kq kn (execPrEnd s) := by
  unfold execPrEnd
  try dsimp only
  repeat' first
    | with_reducible assumption | with_reducible apply CoreState.put_kept | with_reducible apply CoreState.wrap_kept
    | with_reducible apply State.put_kept | with_reducible apply State.wrap_kept | with_reducible apply State.raiseFlag_kept
    | with_reducible apply State.applyPr_kept | with_reducible apply State.resetMirror_kept
    | with_reducible apply State.washShoal_kept | with_reducible apply OutKept.next | with_reducible apply OutKept.fault
    | with_reducible apply Kept.core (q := kq) (n := kn) | split
    | (refine Kept.intro ?_; dsimp only; with_reducible refine Kept.elim ?_)
    | (refine CoreKept.intro ?_; dsimp only; with_reducible refine CoreKept.elim ?_) | exact CoreKept.reset | intro _
    | with_reducible refine Kept.of_fst ‹_› ?_ | with_reducible refine Kept.of_snd ‹_› ?_
    | with_reducible refine Kept.of_trd ‹_› ?_ | with_reducible refine CoreKept.of_fst ‹_› ?_
    | with_reducible refine CoreKept.of_snd ‹_› ?_ | dsimp only

end Sys2Proof.Machine
end

