-- ==== Sys2Proof/Laws/KeptCsr.lean ====
section
/-! SUPPORT. What the operations of Machine/Csr.lean keep (Laws/Kept.lean). -/

namespace Sys2Proof.Machine

variable {kq : List Instr} {kn : Nat}

/-- A fold whose accumulator carries the state. -/
theorem Kept.foldl_state {α : Type} {f : Wrote → α → Wrote} {w : Wrote} {l : List α}
    (hf : ∀ w x, Kept kq kn w.state → Kept kq kn (f w x).state) (h : Kept kq kn w.state) : Kept kq kn (l.foldl f w).state := by
  induction l generalizing w with
  | nil => exact h
  | cons x rest ih => exact ih (hf w x h)

theorem State.oneCause_kept {s : State} {l : List Nat} (h0 : Kept kq kn s) : Kept kq kn (State.oneCause s l).1 := by
  unfold State.oneCause
  try dsimp only
  repeat' first
    | with_reducible assumption | with_reducible apply State.used_kept | split | dsimp only

theorem State.recordRefused_kept {s : State} {l : List Refused} (h0 : Kept kq kn s) : Kept kq kn (State.recordRefused s l) := by
  unfold State.recordRefused
  try dsimp only
  repeat' first
    | with_reducible assumption | with_reducible apply CoreState.put_kept | with_reducible apply CoreState.bump_kept
    | with_reducible apply State.put_kept | with_reducible apply State.bump_kept | with_reducible apply State.oneCause_kept
    | split | with_reducible refine Kept.of_fst ‹_› ?_ | with_reducible refine Kept.of_snd ‹_› ?_
    | with_reducible refine Kept.of_trd ‹_› ?_ | with_reducible refine CoreKept.of_fst ‹_› ?_
    | with_reducible refine CoreKept.of_snd ‹_› ?_ | dsimp only [id]

theorem State.recordDropped_kept {s : State} {l : List Dropped} (h0 : Kept kq kn s) : Kept kq kn (State.recordDropped s l) := by
  unfold State.recordDropped
  try dsimp only
  repeat' first
    | with_reducible assumption | with_reducible apply CoreState.put_kept | with_reducible apply CoreState.bump_kept
    | with_reducible apply State.put_kept | with_reducible apply State.bump_kept | split | dsimp only

theorem State.keep_kept {s : State} {pl : Place} {v : Reg64} (h0 : Kept kq kn s) : Kept kq kn (State.keep s pl v) := by
  unfold State.keep
  try dsimp only
  repeat' first
    | with_reducible assumption | with_reducible apply State.modCore_kept | with_reducible apply State.setReg_kept
    | with_reducible apply CoreState.setReg_kept | split | intro _ | dsimp only

theorem State.writeCove_kept {s : State} {p : Nat} {carve : Nat × Nat} {n : Nat} {all : List FieldWrite} {new : Reg64} (h0 : Kept kq kn s) : Kept kq kn (State.writeCove s p carve n all new).1 := by
  unfold State.writeCove
  try dsimp only
  repeat' first
    | with_reducible assumption | with_reducible apply State.setCore_kept | with_reducible apply CoreState.writeCoveCfg_kept
    | with_reducible apply OutKept.next | with_reducible apply OutKept.fault
    | with_reducible apply Kept.core (q := kq) (n := kn) | split
    | (refine Kept.intro ?_; dsimp only; with_reducible refine Kept.elim ?_)
    | (refine CoreKept.intro ?_; dsimp only; with_reducible refine CoreKept.elim ?_) | exact CoreKept.reset | intro _
    | dsimp only

theorem State.writeAux_kept {s : State} {p : Nat} {pl : Place} {carve : Nat × Nat} {n : Nat} {new : Reg64} (h0 : Kept kq kn s) : Kept kq kn (State.writeAux s p pl carve n new).1 := by
  unfold State.writeAux
  try dsimp only
  repeat' first
    | with_reducible assumption | with_reducible apply State.keep_kept | with_reducible apply Kept.core (q := kq) (n := kn)
    | split | dsimp only

theorem State.writeCoveCtl_kept {s : State} {p : Nat} {pl : Place} {n : Nat} {ok : List FieldWrite} {new : Reg64} (h0 : Kept kq kn s) : Kept kq kn (State.writeCoveCtl s p pl n ok new).1 := by
  unfold State.writeCoveCtl
  try dsimp only
  repeat' first
    | with_reducible assumption | with_reducible apply State.setCore_kept | with_reducible apply State.keep_kept
    | with_reducible apply OutKept.next | with_reducible apply OutKept.fault
    | with_reducible apply Kept.core (q := kq) (n := kn) | split
    | (refine Kept.intro ?_; dsimp only; with_reducible refine Kept.elim ?_)
    | (refine CoreKept.intro ?_; dsimp only; with_reducible refine CoreKept.elim ?_) | exact CoreKept.reset | intro _
    | dsimp only

theorem State.writeCorCtl_kept {s : State} {p : Nat} {pl : Place} {ok : List FieldWrite} {new : Reg64} (h0 : Kept kq kn s) : Kept kq kn (State.writeCorCtl s p pl ok new) := by
  unfold State.writeCorCtl
  try dsimp only
  repeat' first
    | with_reducible assumption | with_reducible apply State.modCore_kept | with_reducible apply CoreState.put_kept
    | with_reducible apply CoreState.keepSel_kept | with_reducible apply State.put_kept
    | with_reducible apply State.keepSel_kept | with_reducible apply State.startCore_kept
    | with_reducible apply State.keep_kept | with_reducible apply OutKept.next | with_reducible apply OutKept.fault
    | with_reducible apply Kept.core (q := kq) (n := kn) | split
    | (refine Kept.intro ?_; dsimp only; with_reducible refine Kept.elim ?_)
    | (refine CoreKept.intro ?_; dsimp only; with_reducible refine CoreKept.elim ?_) | exact CoreKept.reset | intro _
    | dsimp only

theorem State.writeSweep_kept {s : State} {p : Nat} {pl : Place} {new : Reg64} (h0 : Kept kq kn s) : Kept kq kn (State.writeSweep s p pl new) := by
  unfold State.writeSweep
  try dsimp only
  repeat' first
    | with_reducible assumption | with_reducible apply State.keep_kept | with_reducible apply State.modCore_kept
    | with_reducible apply Kept.core (q := kq) (n := kn) | split
    | (refine Kept.intro ?_; dsimp only; with_reducible refine Kept.elim ?_)
    | (refine CoreKept.intro ?_; dsimp only; with_reducible refine CoreKept.elim ?_) | intro _ | dsimp only

theorem State.writeRoute_kept {s : State} {p : Nat} {core : Option Nat} {hi : Nat} {new : Reg64} (h0 : Kept kq kn s) : Kept kq kn (State.writeRoute s p core hi new) := by
  unfold State.writeRoute
  try dsimp only
  repeat' first
    | with_reducible assumption | with_reducible apply State.modCore_kept | with_reducible apply OutKept.next
    | with_reducible apply OutKept.fault | with_reducible apply Kept.core (q := kq) (n := kn) | split
    | (refine Kept.intro ?_; dsimp only; with_reducible refine Kept.elim ?_)
    | (refine CoreKept.intro ?_; dsimp only; with_reducible refine CoreKept.elim ?_) | exact CoreKept.reset | intro _
    | with_reducible refine Kept.of_fst ‹_› ?_ | with_reducible refine Kept.of_snd ‹_› ?_
    | with_reducible refine Kept.of_trd ‹_› ?_ | with_reducible refine CoreKept.of_fst ‹_› ?_
    | with_reducible refine CoreKept.of_snd ‹_› ?_ | dsimp only

theorem CoreState.writeDesc_kept {c : CoreState} {word : Nat} {new : Reg64} (h0 : CoreKept c) : CoreKept (CoreState.writeDesc c word new) := by
  unfold CoreState.writeDesc
  try dsimp only
  repeat' first
    | with_reducible assumption | with_reducible apply OutKept.next | with_reducible apply OutKept.fault
    | with_reducible apply Kept.core (q := kq) (n := kn) | split
    | (refine Kept.intro ?_; dsimp only; with_reducible refine Kept.elim ?_)
    | (refine CoreKept.intro ?_; dsimp only; with_reducible refine CoreKept.elim ?_)
    | (refine CoreKept.intro ?_; dsimp only; with_reducible refine CoreKept.desc_set ?_)
    | (refine CoreKept.intro ?_; dsimp only; refine CoreKept.desc_fold (fun m x h => Sparse.wf_set (d := fun _ => 0) _ _ h) ?_)
    | exact CoreKept.reset | intro _ | dsimp only

theorem CoreState.keepTag_kept {c : CoreState} {i : Nat} {v : Reg64} (h0 : CoreKept c) : CoreKept (CoreState.keepTag c i v) := by
  unfold CoreState.keepTag
  try dsimp only
  repeat' first
    | with_reducible assumption | with_reducible apply OutKept.next | with_reducible apply OutKept.fault
    | with_reducible apply Kept.core (q := kq) (n := kn)
    | (refine Kept.intro ?_; dsimp only; with_reducible refine Kept.elim ?_)
    | (refine CoreKept.intro ?_; dsimp only; with_reducible refine CoreKept.elim ?_) | exact CoreKept.reset | intro _
    | dsimp only

theorem CoreState.keepPtr_kept {c : CoreState} {off : Nat} {v : Reg64} (h0 : CoreKept c) : CoreKept (CoreState.keepPtr c off v) := by
  unfold CoreState.keepPtr
  try dsimp only
  repeat' first
    | with_reducible assumption | with_reducible apply OutKept.next | with_reducible apply OutKept.fault
    | with_reducible apply Kept.core (q := kq) (n := kn)
    | (refine Kept.intro ?_; dsimp only; with_reducible refine Kept.elim ?_)
    | (refine CoreKept.intro ?_; dsimp only; with_reducible refine CoreKept.elim ?_) | exact CoreKept.reset | intro _
    | dsimp only

theorem State.effectCore_kept {s : State} {p : Nat} {pl : Place} {k : Kind} {i : Nat} {ok : List FieldWrite} {all : List FieldWrite} {new : Reg64} (h0 : Kept kq kn s) : Kept kq kn (State.effectCore s p pl k i ok all new).1 := by
  unfold State.effectCore
  try dsimp only
  repeat' first
    | with_reducible assumption | with_reducible apply State.setReg_kept | with_reducible apply CoreState.setReg_kept
    | with_reducible apply State.modCore_kept | with_reducible apply CoreState.keepSel_kept
    | with_reducible apply State.keepSel_kept | with_reducible apply CoreState.noteLease_kept
    | with_reducible apply CoreState.push_kept | with_reducible apply State.washCore_kept
    | with_reducible apply CoreState.writeTag_kept | with_reducible apply CoreState.clearPeak_kept
    | with_reducible apply State.keep_kept | with_reducible apply State.writeCove_kept
    | with_reducible apply State.writeAux_kept | with_reducible apply State.writeCoveCtl_kept
    | with_reducible apply State.writeCorCtl_kept | with_reducible apply State.writeSweep_kept
    | with_reducible apply State.writeRoute_kept | with_reducible apply CoreState.writeDesc_kept
    | with_reducible apply CoreState.keepTag_kept | with_reducible apply CoreState.keepPtr_kept
    | with_reducible apply OutKept.next | with_reducible apply OutKept.fault
    | with_reducible apply Kept.core (q := kq) (n := kn) | split
    | (refine Kept.intro ?_; dsimp only; with_reducible refine Kept.elim ?_)
    | (refine CoreKept.intro ?_; dsimp only; with_reducible refine CoreKept.elim ?_) | exact CoreKept.reset | intro _
    | with_reducible refine Kept.of_fst ‹_› ?_ | with_reducible refine Kept.of_snd ‹_› ?_
    | with_reducible refine Kept.of_trd ‹_› ?_ | with_reducible refine CoreKept.of_fst ‹_› ?_
    | with_reducible refine CoreKept.of_snd ‹_› ?_ | dsimp only

theorem State.writeSched_kept {s : State} {pl : Place} {b : Nat} {all : List FieldWrite} {new : Reg64} (h0 : Kept kq kn s) : Kept kq kn (State.writeSched s pl b all new).1 := by
  unfold State.writeSched
  try dsimp only
  repeat' first
    | with_reducible assumption | with_reducible apply State.armBay_kept | with_reducible apply State.regrid_kept
    | with_reducible apply State.disarmBay_kept | with_reducible apply State.keep_kept | split | intro _ | dsimp only

theorem State.writeTidCfg_kept {s : State} {pl : Place} {new : Reg64} (h0 : Kept kq kn s) : Kept kq kn (State.writeTidCfg s pl new) := by
  unfold State.writeTidCfg
  try dsimp only
  repeat' first
    | with_reducible assumption | with_reducible apply CoreState.put_kept | with_reducible apply State.put_kept
    | with_reducible apply State.refreshSched_kept | with_reducible apply State.keep_kept | split | dsimp only

theorem State.writeHop_kept {s : State} {pl : Place} {n : Nat} {new : Reg64} (h0 : Kept kq kn s) : Kept kq kn (State.writeHop s pl n new) := by
  unfold State.writeHop
  try dsimp only
  repeat' first
    | with_reducible assumption | with_reducible apply CoreState.put_kept | with_reducible apply State.put_kept
    | with_reducible apply State.refreshSched_kept | with_reducible apply State.stopFitting_kept
    | with_reducible apply State.noteHop_kept | with_reducible apply State.keep_kept | with_reducible apply OutKept.next
    | with_reducible apply OutKept.fault | with_reducible apply Kept.core (q := kq) (n := kn) | split
    | (refine Kept.intro ?_; dsimp only; with_reducible refine Kept.elim ?_)
    | (refine Kept.intro ?_; dsimp only; with_reducible refine Kept.elim_used _ ?_ ?_)
    | (refine CoreKept.intro ?_; dsimp only; with_reducible refine CoreKept.elim ?_) | exact CoreKept.reset | intro _
    | dsimp only

theorem State.writeStrCfg_kept {s : State} {pl : Place} {n : Nat} {ok : List FieldWrite} {new : Reg64} (h0 : Kept kq kn s) : Kept kq kn (State.writeStrCfg s pl n ok new) := by
  unfold State.writeStrCfg
  try dsimp only
  repeat' first
    | with_reducible assumption | with_reducible apply State.takeDown_kept | with_reducible apply State.linkStart_kept
    | with_reducible apply State.keep_kept | split | dsimp only

theorem State.writeLose_kept {s : State} {pl : Place} {new : Reg64} (h0 : Kept kq kn s) : Kept kq kn (State.writeLose s pl new).1 := by
  unfold State.writeLose
  try dsimp only
  repeat' first
    | with_reducible assumption | with_reducible apply State.loseFrom_kept | with_reducible apply State.keep_kept
    | with_reducible apply Kept.core (q := kq) (n := kn) | split | dsimp only

theorem State.writeEvents_kept {s : State} {pl : Place} {new : Reg64} {fresh : Bool} (h0 : Kept kq kn s) : Kept kq kn (State.writeEvents s pl new fresh) := by
  unfold State.writeEvents
  try dsimp only
  repeat' first
    | with_reducible assumption | with_reducible apply State.flushEvents_kept | with_reducible apply State.keep_kept | split
    | (refine Kept.intro ?_; dsimp only; with_reducible refine Kept.elim ?_)
    | (refine Kept.intro ?_; dsimp only; with_reducible refine Kept.elim_used _ ?_ ?_)
    | (refine CoreKept.intro ?_; dsimp only; with_reducible refine CoreKept.elim ?_) | dsimp only

theorem State.writeDoorbells_kept {s : State} {pl : Place} {new : Reg64} (h0 : Kept kq kn s) : Kept kq kn (State.writeDoorbells s pl new) := by
  unfold State.writeDoorbells
  try dsimp only
  repeat' first
    | with_reducible assumption | with_reducible apply State.keep_kept
    | (refine Kept.intro ?_; dsimp only; with_reducible refine Kept.elim ?_)
    | (refine CoreKept.intro ?_; dsimp only; with_reducible refine CoreKept.elim ?_) | intro _ | dsimp only

theorem State.writePr_kept {s : State} {pl : Place} {ok : List FieldWrite} {new : Reg64} (h0 : Kept kq kn s) : Kept kq kn (State.writePr s pl ok new).1 := by
  unfold State.writePr
  try dsimp only
  repeat' first
    | with_reducible assumption | with_reducible apply CoreState.put_kept | with_reducible apply State.put_kept
    | with_reducible apply State.raiseFlag_kept | with_reducible apply State.startPr_kept
    | with_reducible apply State.keep_kept | with_reducible apply OutKept.next | with_reducible apply OutKept.fault
    | with_reducible apply Kept.core (q := kq) (n := kn) | split
    | (refine Kept.intro ?_; dsimp only; with_reducible refine Kept.elim ?_)
    | (refine CoreKept.intro ?_; dsimp only; with_reducible refine CoreKept.elim ?_) | exact CoreKept.reset | intro _
    | dsimp only

theorem State.writeJournal_kept {s : State} {ok : List FieldWrite} (h0 : Kept kq kn s) : Kept kq kn (State.writeJournal s ok) := by
  unfold State.writeJournal
  try dsimp only
  repeat' first
    | with_reducible assumption | with_reducible apply State.pushAppend_kept | with_reducible apply State.compactJournal_kept
    | split | dsimp only

theorem State.compareSet_kept {s : State} {m : Nat} {v : Reg64} (h0 : Kept kq kn s) : Kept kq kn (State.compareSet s m v) := by
  unfold State.compareSet
  try dsimp only
  repeat' first
    | with_reducible assumption | with_reducible apply CoreState.put_kept | with_reducible apply State.put_kept
    | with_reducible apply State.moveEntry_kept | split | dsimp only

theorem State.writeBayCtl_kept {s : State} {pl : Place} {b : Nat} {ok : List FieldWrite} {new : Reg64} (h0 : Kept kq kn s) : Kept kq kn (State.writeBayCtl s pl b ok new) := by
  unfold State.writeBayCtl
  try dsimp only
  repeat' first
    | with_reducible assumption | with_reducible apply CoreState.put_kept | with_reducible apply State.put_kept
    | with_reducible apply State.washBay_kept | with_reducible apply State.keep_kept | split | dsimp only

theorem State.writeWindow_kept {s : State} {pl : Place} {n : Nat} {ok : List FieldWrite} {new : Reg64} (h0 : Kept kq kn s) : Kept kq kn (State.writeWindow s pl n ok new).1 := by
  unfold State.writeWindow
  try dsimp only
  repeat' first
    | with_reducible assumption | with_reducible apply State.openWindow_kept | with_reducible apply State.closeWindow_kept
    | with_reducible apply State.keep_kept | split | dsimp only

theorem State.writeCtxCfg_kept {s : State} {pl : Place} {c : Nat} {ok : List FieldWrite} {new : Reg64} (h0 : Kept kq kn s) : Kept kq kn (State.writeCtxCfg s pl c ok new).1 := by
  unfold State.writeCtxCfg
  try dsimp only
  repeat' first
    | with_reducible assumption | with_reducible apply State.openCtx_kept | with_reducible apply State.closeCtx_kept
    | with_reducible apply State.freeCtx_kept | with_reducible apply State.keep_kept | split | dsimp only

theorem State.writeCarve_kept {s : State} {pl : Place} {b : Nat} {word : Nat} {new : Reg64} (h0 : Kept kq kn s) : Kept kq kn (State.writeCarve s pl b word new).1 := by
  unfold State.writeCarve
  try dsimp only
  repeat' first
    | with_reducible assumption | with_reducible apply State.keep_kept | split
    | (refine Kept.intro ?_; dsimp only; with_reducible refine Kept.elim ?_)
    | (refine CoreKept.intro ?_; dsimp only; with_reducible refine CoreKept.elim ?_) | dsimp only

theorem State.writeBalance_kept {s : State} {pl : Place} {t : Nat} {ok : List FieldWrite} {new : Reg64} (h0 : Kept kq kn s) : Kept kq kn (State.writeBalance s pl t ok new) := by
  unfold State.writeBalance
  try dsimp only
  repeat' first
    | with_reducible assumption | with_reducible apply State.counted_kept | with_reducible apply State.keep_kept
    | with_reducible apply OutKept.next | with_reducible apply OutKept.fault
    | with_reducible apply Kept.core (q := kq) (n := kn) | split
    | (refine Kept.intro ?_; dsimp only; with_reducible refine Kept.elim ?_)
    | (refine CoreKept.intro ?_; dsimp only; with_reducible refine CoreKept.elim ?_) | exact CoreKept.reset | intro _
    | dsimp only

theorem State.effectPlain_kept {s : State} {pl : Place} {k : Kind} {i : Nat} {ok : List FieldWrite} {all : List FieldWrite} {new : Reg64} {raw : Reg64} (h0 : Kept kq kn s) : Kept kq kn (State.effectPlain s pl k i ok all new raw).1 := by
  unfold State.effectPlain
  try dsimp only
  repeat' first
    | with_reducible assumption | with_reducible apply CoreState.put_kept | with_reducible apply CoreState.keepSel_kept
    | with_reducible apply State.put_kept | with_reducible apply State.keepSel_kept | with_reducible apply State.keepRole_kept
    | with_reducible apply State.charge_kept | with_reducible apply State.drainBay_kept
    | with_reducible apply State.requestMsix_kept | with_reducible apply State.popNotice_kept
    | with_reducible apply State.chargeTenant_kept | with_reducible apply State.startRedrive_kept
    | with_reducible apply State.startMirror_kept | with_reducible apply State.keep_kept
    | with_reducible apply State.writeSched_kept | with_reducible apply State.writeTidCfg_kept
    | with_reducible apply State.writeHop_kept | with_reducible apply State.writeStrCfg_kept
    | with_reducible apply State.writeLose_kept | with_reducible apply State.writeEvents_kept
    | with_reducible apply State.writeDoorbells_kept | with_reducible apply State.writePr_kept
    | with_reducible apply State.writeJournal_kept | with_reducible apply State.compareSet_kept
    | with_reducible apply State.writeBayCtl_kept | with_reducible apply State.writeWindow_kept
    | with_reducible apply State.writeCtxCfg_kept | with_reducible apply State.writeCarve_kept
    | with_reducible apply State.writeBalance_kept | with_reducible apply OutKept.next | with_reducible apply OutKept.fault
    | with_reducible apply Kept.core (q := kq) (n := kn) | split
    | (refine Kept.intro ?_; dsimp only; with_reducible refine Kept.elim ?_)
    | (refine CoreKept.intro ?_; dsimp only; with_reducible refine CoreKept.elim ?_) | exact CoreKept.reset | intro _
    | with_reducible refine Kept.of_fst ‹_› ?_ | with_reducible refine Kept.of_snd ‹_› ?_
    | with_reducible refine Kept.of_trd ‹_› ?_ | with_reducible refine CoreKept.of_fst ‹_› ?_
    | with_reducible refine CoreKept.of_snd ‹_› ?_ | dsimp only

theorem State.mirrorWrite_kept {s : State} {pl : Place} {k : Kind} {ok : List FieldWrite} (h0 : Kept kq kn s) : Kept kq kn (State.mirrorWrite s pl k ok) := by
  unfold State.mirrorWrite
  try dsimp only
  repeat' first
    | with_reducible assumption | with_reducible apply State.mirrorPut_kept | with_reducible apply Kept.foldl
    | with_reducible apply Kept.foldl_fst | with_reducible apply CoreKept.foldl
    | with_reducible apply Kept.core (q := kq) (n := kn) | split | intro _ | dsimp only

theorem State.noteWrites_kept {s : State} {pl : Place} {ws : List HeldWrite} (h0 : Kept kq kn s) : Kept kq kn (State.noteWrites s pl ws) := by
  unfold State.noteWrites
  try dsimp only
  repeat' first
    | with_reducible assumption | with_reducible apply OutKept.next | with_reducible apply OutKept.fault
    | with_reducible apply Kept.core (q := kq) (n := kn) | split
    | (refine Kept.intro ?_; dsimp only; with_reducible refine Kept.elim ?_)
    | (refine CoreKept.intro ?_; dsimp only; with_reducible refine CoreKept.elim ?_) | exact CoreKept.reset | intro _
    | dsimp only

theorem State.writeReg_kept {s : State} {addr : Nat} {pl : Place} {r : RegRow} {ws : List HeldWrite} {boot : Bool} (h0 : Kept kq kn s) : Kept kq kn (State.writeReg s addr pl r ws boot).state := by
  unfold State.writeReg
  try dsimp only
  repeat' first
    | with_reducible assumption | with_reducible apply State.effectCore_kept | with_reducible apply State.effectPlain_kept
    | with_reducible apply State.mirrorWrite_kept | with_reducible apply State.noteWrites_kept
    | with_reducible apply OutKept.next | with_reducible apply OutKept.fault
    | with_reducible apply Kept.core (q := kq) (n := kn) | split
    | (refine Kept.intro ?_; dsimp only; with_reducible refine Kept.elim ?_)
    | (refine CoreKept.intro ?_; dsimp only; with_reducible refine CoreKept.elim ?_) | exact CoreKept.reset | intro _
    | with_reducible refine Kept.of_fst ‹_› ?_ | with_reducible refine Kept.of_snd ‹_› ?_
    | with_reducible refine Kept.of_trd ‹_› ?_ | with_reducible refine CoreKept.of_fst ‹_› ?_
    | with_reducible refine CoreKept.of_snd ‹_› ?_ | dsimp only [id] | dsimp only

theorem State.writeRefs_kept {s : State} {addr : Nat} {c : Nat} {ws : List HeldWrite} {boot : Bool} (h0 : Kept kq kn s) : Kept kq kn (State.writeRefs s addr c ws boot).state := by
  unfold State.writeRefs
  try dsimp only
  repeat' first
    | with_reducible assumption | with_reducible apply CoreState.put_kept | with_reducible apply State.put_kept | split
    | intro _ | dsimp only [id]

theorem State.ring_kept {s : State} {w : HeldWrite} (h0 : Kept kq kn s) : Kept kq kn (State.ring s w) := by
  unfold State.ring
  try dsimp only
  repeat' first
    | with_reducible assumption | with_reducible apply State.doorbell_kept | split | dsimp only [id]

theorem State.writeAt_kept {s : State} {addr : Nat} {ws : List HeldWrite} {boot : Bool} (h0 : Kept kq kn s) : Kept kq kn (State.writeAt s addr ws boot).state := by
  unfold State.writeAt
  try dsimp only
  repeat' first
    | with_reducible assumption | with_reducible apply State.writeReg_kept | with_reducible apply State.writeRefs_kept
    | with_reducible apply State.ring_kept | with_reducible apply Kept.foldl | with_reducible apply Kept.foldl_state
    | with_reducible apply Kept.foldl_fst | with_reducible apply CoreKept.foldl
    | with_reducible apply Kept.core (q := kq) (n := kn) | split
    | (refine Kept.intro ?_; dsimp only; with_reducible refine Kept.elim ?_)
    | (refine CoreKept.intro ?_; dsimp only; with_reducible refine CoreKept.elim ?_) | intro _ | dsimp only [id]

theorem State.writeTick_kept {s : State} {ws : List HeldWrite} {boot : Bool} {failed : List Refused} (h0 : Kept kq kn s) : Kept kq kn (State.writeTick s ws boot failed) := by
  unfold State.writeTick
  try dsimp only
  repeat' first
    | with_reducible assumption | with_reducible apply State.recordRefused_kept | with_reducible apply State.recordDropped_kept
    | with_reducible apply State.writeAt_kept | with_reducible apply OutKept.next | with_reducible apply OutKept.fault
    | with_reducible apply Kept.foldl | with_reducible apply Kept.foldl_fst | with_reducible apply CoreKept.foldl
    | with_reducible apply CoreKept.foldl_fst | with_reducible apply Kept.foldl_snd | with_reducible apply CoreKept.foldl_snd
    | with_reducible apply Kept.foldl_state | with_reducible apply Kept.core (q := kq) (n := kn) | split
    | (refine Kept.intro ?_; dsimp only; with_reducible refine Kept.elim ?_)
    | (refine CoreKept.intro ?_; dsimp only; with_reducible refine CoreKept.elim ?_) | exact CoreKept.reset | intro _
    | dsimp only

theorem State.releaseHeld_kept {k : Nat} {s : State} (h0 : Kept kq kn s) : Kept kq kn (State.releaseHeld k s) := by
  induction k generalizing s with
  | zero =>
    unfold State.releaseHeld
    try dsimp only
    repeat' first
      | with_reducible assumption | with_reducible apply State.writeTick_kept | with_reducible apply Kept.foldl
      | with_reducible apply Kept.foldl_fst | with_reducible apply CoreKept.foldl | split
      | (refine Kept.intro ?_; dsimp only; with_reducible refine Kept.elim ?_)
      | (refine CoreKept.intro ?_; dsimp only; with_reducible refine CoreKept.elim ?_) | intro _ | dsimp only [id]
  | succ z ih =>
    unfold State.releaseHeld
    try dsimp only
    repeat' first
      | with_reducible assumption | with_reducible apply ih | with_reducible apply State.writeTick_kept
      | with_reducible apply Kept.foldl | with_reducible apply Kept.foldl_fst | with_reducible apply CoreKept.foldl | split
      | (refine Kept.intro ?_; dsimp only; with_reducible refine Kept.elim ?_)
      | (refine CoreKept.intro ?_; dsimp only; with_reducible refine CoreKept.elim ?_) | intro _ | dsimp only [id]

theorem State.settleHeld_kept {s : State} (h0 : Kept kq kn s) : Kept kq kn (State.settleHeld s) := by
  unfold State.settleHeld
  try dsimp only
  repeat' first
    | with_reducible assumption | with_reducible apply State.releaseHeld_kept | dsimp only

theorem State.csrWrite_kept {s : State} {id : BitVec 12} {addr : Nat} {v : Reg64} (h0 : Kept kq kn s) : Kept kq kn (State.csrWrite s id addr v) := by
  unfold State.csrWrite
  try dsimp only
  repeat' first
    | with_reducible assumption | with_reducible apply State.writeTick_kept | with_reducible apply OutKept.next
    | with_reducible apply OutKept.fault | with_reducible apply Kept.core (q := kq) (n := kn)
    | (refine Kept.intro ?_; dsimp only; with_reducible refine Kept.elim ?_)
    | (refine CoreKept.intro ?_; dsimp only; with_reducible refine CoreKept.elim ?_) | exact CoreKept.reset | intro _
    | dsimp only

theorem State.writeAgain_kept {s : State} {w : HeldWrite} (h0 : Kept kq kn s) : Kept kq kn (State.writeAgain s w).1 := by
  unfold State.writeAgain
  try dsimp only
  repeat' first
    | with_reducible assumption | with_reducible apply State.writeReg_kept | with_reducible apply OutKept.next
    | with_reducible apply OutKept.fault | with_reducible apply Kept.foldl_state
    | with_reducible apply Kept.core (q := kq) (n := kn) | split
    | (refine Kept.intro ?_; dsimp only; with_reducible refine Kept.elim ?_)
    | (refine CoreKept.intro ?_; dsimp only; with_reducible refine CoreKept.elim ?_) | exact CoreKept.reset | intro _
    | with_reducible refine Kept.of_fst ‹_› ?_ | with_reducible refine Kept.of_snd ‹_› ?_
    | with_reducible refine Kept.of_trd ‹_› ?_ | with_reducible refine CoreKept.of_fst ‹_› ?_
    | with_reducible refine CoreKept.of_snd ‹_› ?_ | dsimp only

theorem State.settleAgain_kept {s : State} (h0 : Kept kq kn s) : Kept kq kn (State.settleAgain s) := by
  unfold State.settleAgain
  try dsimp only
  repeat' first
    | with_reducible assumption | with_reducible apply State.recordRefused_kept | with_reducible apply State.writeAgain_kept
    | with_reducible apply OutKept.next | with_reducible apply OutKept.fault | with_reducible apply Kept.foldl
    | with_reducible apply Kept.foldl_fst | with_reducible apply CoreKept.foldl | with_reducible apply CoreKept.foldl_fst
    | with_reducible apply Kept.foldl_snd | with_reducible apply CoreKept.foldl_snd
    | with_reducible apply Kept.core (q := kq) (n := kn)
    | (refine Kept.intro ?_; dsimp only; with_reducible refine Kept.elim ?_)
    | (refine CoreKept.intro ?_; dsimp only; with_reducible refine CoreKept.elim ?_) | exact CoreKept.reset | intro _
    | dsimp only

theorem State.applyLate_kept {s : State} {l : List HeldWrite} (h0 : Kept kq kn s) : Kept kq kn (State.applyLate s l) := by
  unfold State.applyLate
  try dsimp only
  repeat' first
    | with_reducible assumption | with_reducible apply State.recordRefused_kept | with_reducible apply State.recordDropped_kept
    | with_reducible apply State.writeReg_kept | with_reducible apply OutKept.next | with_reducible apply OutKept.fault
    | with_reducible apply Kept.foldl | with_reducible apply Kept.foldl_fst | with_reducible apply CoreKept.foldl
    | with_reducible apply CoreKept.foldl_fst | with_reducible apply Kept.foldl_snd | with_reducible apply CoreKept.foldl_snd
    | with_reducible apply Kept.foldl_state | with_reducible apply Kept.core (q := kq) (n := kn) | split
    | (refine Kept.intro ?_; dsimp only; with_reducible refine Kept.elim ?_)
    | (refine CoreKept.intro ?_; dsimp only; with_reducible refine CoreKept.elim ?_) | exact CoreKept.reset | intro _
    | with_reducible refine Kept.of_fst ‹_› ?_ | with_reducible refine Kept.of_snd ‹_› ?_
    | with_reducible refine Kept.of_trd ‹_› ?_ | with_reducible refine CoreKept.of_fst ‹_› ?_
    | with_reducible refine CoreKept.of_snd ‹_› ?_ | dsimp only

theorem State.errorResponse_kept {s : State} {w : AxiWrite} {r : Resp} (h0 : Kept kq kn s) : Kept kq kn (State.errorResponse s w r) := by
  unfold State.errorResponse
  try dsimp only
  repeat' first
    | with_reducible assumption | with_reducible apply State.pilotFault_kept | with_reducible apply OutKept.next
    | with_reducible apply OutKept.fault | with_reducible apply Kept.core (q := kq) (n := kn) | split
    | (refine Kept.intro ?_; dsimp only; with_reducible refine Kept.elim ?_)
    | (refine CoreKept.intro ?_; dsimp only; with_reducible refine CoreKept.elim ?_) | exact CoreKept.reset | intro _
    | dsimp only

theorem State.writeAll_kept {s : State} {ws : List AxiWrite} (h0 : Kept kq kn s) : Kept kq kn (State.writeAll s ws) := by
  unfold State.writeAll
  try dsimp only
  repeat' first
    | with_reducible assumption | with_reducible apply State.writeTick_kept | with_reducible apply State.errorResponse_kept
    | with_reducible apply OutKept.next | with_reducible apply OutKept.fault | with_reducible apply Kept.foldl
    | with_reducible apply Kept.foldl_fst | with_reducible apply CoreKept.foldl | with_reducible apply CoreKept.foldl_fst
    | with_reducible apply Kept.foldl_snd | with_reducible apply CoreKept.foldl_snd
    | with_reducible apply Kept.core (q := kq) (n := kn) | split
    | (refine Kept.intro ?_; dsimp only; with_reducible refine Kept.elim ?_)
    | (refine CoreKept.intro ?_; dsimp only; with_reducible refine CoreKept.elim ?_) | exact CoreKept.reset | intro _
    | dsimp only

theorem execRegisterWrite_kept {ws : List AxiWrite} {s : State} (h0 : Kept kq kn s) : OutKept kq kn (execRegisterWrite ws s) := by
  unfold execRegisterWrite
  try dsimp only
  repeat' first
    | with_reducible assumption | with_reducible apply State.writeAll_kept | with_reducible apply OutKept.next
    | with_reducible apply OutKept.fault | dsimp only

end Sys2Proof.Machine
end

