-- ==== Sys2Proof/Laws/KeptCsrRows.lean ====
section
/-! SUPPORT. What the operations of Machine/CsrRows.lean keep (Laws/Kept.lean). -/

namespace Sys2Proof.Machine

variable {kq : List Instr} {kn : Nat}

theorem State.csrModify_kept {s : State} {id : BitVec 12} {addr : Nat} {l : List (RF × Nat)} (h0 : Kept kq kn s) : Kept kq kn (State.csrModify s id addr l) := by
  unfold State.csrModify
  try dsimp only
  repeat' first
    | with_reducible assumption | with_reducible apply State.csrWrite_kept | with_reducible apply Kept.foldl
    | with_reducible apply Kept.foldl_fst | with_reducible apply CoreKept.foldl | intro _ | dsimp only [id]

theorem State.writeMany_kept {s : State} {l : List HeldWrite} (h0 : Kept kq kn s) : Kept kq kn (State.writeMany s l) := by
  unfold State.writeMany
  try dsimp only
  repeat' first
    | with_reducible assumption | with_reducible apply State.writeTick_kept | with_reducible apply OutKept.next
    | with_reducible apply OutKept.fault | with_reducible apply Kept.foldl | with_reducible apply Kept.foldl_fst
    | with_reducible apply CoreKept.foldl | with_reducible apply CoreKept.foldl_fst | with_reducible apply Kept.foldl_snd
    | with_reducible apply CoreKept.foldl_snd | with_reducible apply Kept.core (q := kq) (n := kn)
    | (refine Kept.intro ?_; dsimp only; with_reducible refine Kept.elim ?_)
    | (refine CoreKept.intro ?_; dsimp only; with_reducible refine CoreKept.elim ?_) | exact CoreKept.reset | intro _
    | dsimp only

theorem execLdgEngPush_kept {core : Nat} {id : BitVec 12} {s : State} (h0 : Kept kq kn s) : OutKept kq kn (execLdgEngPush core id s) := by
  unfold execLdgEngPush
  try dsimp only
  repeat' first
    | with_reducible assumption | with_reducible apply State.csrWrite_kept | with_reducible apply onCore_kept
    | with_reducible apply OutKept.next | with_reducible apply OutKept.fault
    | with_reducible apply Kept.core (q := kq) (n := kn) | intro _ | dsimp only [id]

theorem execWashStart_kept {core : Nat} {id : BitVec 12} {s : State} (h0 : Kept kq kn s) : OutKept kq kn (execWashStart core id s) := by
  unfold execWashStart
  try dsimp only
  repeat' first
    | with_reducible assumption | with_reducible apply State.csrWrite_kept | with_reducible apply onCore_kept
    | with_reducible apply OutKept.next | with_reducible apply OutKept.fault
    | with_reducible apply Kept.core (q := kq) (n := kn) | intro _ | dsimp only [id]

theorem execCoveEnable_kept {core : Nat} {cove : Nat} {id : BitVec 12} {value : Reg64} {s : State} (h0 : Kept kq kn s) : OutKept kq kn (execCoveEnable core cove id value s) := by
  unfold execCoveEnable
  try dsimp only
  repeat' first
    | with_reducible assumption | with_reducible apply State.csrWrite_kept | with_reducible apply onCore_kept
    | with_reducible apply OutKept.next | with_reducible apply OutKept.fault
    | with_reducible apply Kept.core (q := kq) (n := kn) | split | intro _ | dsimp only [id]

theorem execCoveDisable_kept {core : Nat} {cove : Nat} {id : BitVec 12} {s : State} (h0 : Kept kq kn s) : OutKept kq kn (execCoveDisable core cove id s) := by
  unfold execCoveDisable
  try dsimp only
  repeat' first
    | with_reducible assumption | with_reducible apply State.csrModify_kept | with_reducible apply onCore_kept
    | with_reducible apply OutKept.next | with_reducible apply OutKept.fault
    | with_reducible apply Kept.core (q := kq) (n := kn) | split | intro _ | dsimp only [id]

theorem execRelGo_kept {core : Nat} {cove : Nat} {id : BitVec 12} {first : Nat} {count : Nat} {s : State} (h0 : Kept kq kn s) : OutKept kq kn (execRelGo core cove id first count s) := by
  unfold execRelGo
  try dsimp only
  repeat' first
    | with_reducible assumption | with_reducible apply State.csrModify_kept | with_reducible apply onCore_kept
    | with_reducible apply OutKept.next | with_reducible apply OutKept.fault
    | with_reducible apply Kept.core (q := kq) (n := kn) | split | intro _ | dsimp only [id]

theorem execTagWrite_kept {core : Nat} {id : BitVec 12} {value : Reg64} {s : State} (h0 : Kept kq kn s) : OutKept kq kn (execTagWrite core id value s) := by
  unfold execTagWrite
  try dsimp only
  repeat' first
    | with_reducible assumption | with_reducible apply State.csrWrite_kept | with_reducible apply onCore_kept
    | with_reducible apply OutKept.next | with_reducible apply OutKept.fault
    | with_reducible apply Kept.core (q := kq) (n := kn) | intro _ | dsimp only [id]

theorem execPeakClr_kept {core : Nat} {cove : Nat} {id : BitVec 12} {s : State} (h0 : Kept kq kn s) : OutKept kq kn (execPeakClr core cove id s) := by
  unfold execPeakClr
  try dsimp only
  repeat' first
    | with_reducible assumption | with_reducible apply State.csrModify_kept | with_reducible apply onCore_kept
    | with_reducible apply OutKept.next | with_reducible apply OutKept.fault
    | with_reducible apply Kept.core (q := kq) (n := kn) | split | intro _ | dsimp only [id]

theorem execStart_kept {core : Nat} {id : BitVec 12} {entry : Nat} {ctx : Nat} {s : State} (h0 : Kept kq kn s) : OutKept kq kn (execStart core id entry ctx s) := by
  unfold execStart
  try dsimp only
  repeat' first
    | with_reducible assumption | with_reducible apply State.csrModify_kept | with_reducible apply onCore_kept
    | with_reducible apply OutKept.next | with_reducible apply OutKept.fault
    | with_reducible apply Kept.core (q := kq) (n := kn) | intro _ | dsimp only [id]

theorem execHalt_kept {core : Nat} {id : BitVec 12} {s : State} (h0 : Kept kq kn s) : OutKept kq kn (execHalt core id s) := by
  unfold execHalt
  try dsimp only
  repeat' first
    | with_reducible assumption | with_reducible apply State.csrModify_kept | with_reducible apply onCore_kept
    | with_reducible apply OutKept.next | with_reducible apply OutKept.fault
    | with_reducible apply Kept.core (q := kq) (n := kn) | intro _ | dsimp only [id]

theorem execStep_kept {core : Nat} {id : BitVec 12} {s : State} (h0 : Kept kq kn s) : OutKept kq kn (execStep core id s) := by
  unfold execStep
  try dsimp only
  repeat' first
    | with_reducible assumption | with_reducible apply State.csrModify_kept | with_reducible apply onCore_kept
    | with_reducible apply OutKept.next | with_reducible apply OutKept.fault
    | with_reducible apply Kept.core (q := kq) (n := kn) | intro _ | dsimp only [id]

theorem execDtreeWrite_kept {id : BitVec 12} {value : Reg64} {s : State} (h0 : Kept kq kn s) : OutKept kq kn (execDtreeWrite id value s) := by
  unfold execDtreeWrite
  try dsimp only
  repeat' first
    | with_reducible assumption | with_reducible apply State.csrWrite_kept | with_reducible apply OutKept.next
    | with_reducible apply OutKept.fault | dsimp only [id]

theorem onWindow_kept {win : Nat} {s : State} {f : State → State} (h0 : Kept kq kn s) (h1 : ∀ y0, Kept kq kn y0 → Kept kq kn (f y0)) : OutKept kq kn (onWindow win s f) := by
  unfold onWindow
  try dsimp only
  repeat' first
    | with_reducible assumption | with_reducible apply h1 | with_reducible apply CoreState.fault_kept
    | with_reducible apply OutKept.next | with_reducible apply OutKept.fault | split | dsimp only

theorem execOpenGo_kept {win : Nat} {id : BitVec 12} {s : State} (h0 : Kept kq kn s) : OutKept kq kn (execOpenGo win id s) := by
  unfold execOpenGo
  try dsimp only
  repeat' first
    | with_reducible assumption | with_reducible apply State.csrModify_kept | with_reducible apply onWindow_kept
    | with_reducible apply OutKept.next | with_reducible apply OutKept.fault | intro _ | dsimp only [id]

theorem execCloseGo_kept {win : Nat} {id : BitVec 12} {s : State} (h0 : Kept kq kn s) : OutKept kq kn (execCloseGo win id s) := by
  unfold execCloseGo
  try dsimp only
  repeat' first
    | with_reducible assumption | with_reducible apply State.csrModify_kept | with_reducible apply onWindow_kept
    | with_reducible apply OutKept.next | with_reducible apply OutKept.fault | intro _ | dsimp only [id]

theorem execBayRoleWrite_kept {bay : Nat} {id : BitVec 12} {role : Nat} {epoch : Nat} {s : State} (h0 : Kept kq kn s) : OutKept kq kn (execBayRoleWrite bay id role epoch s) := by
  unfold execBayRoleWrite
  try dsimp only
  repeat' first
    | with_reducible assumption | with_reducible apply onBay_kept | with_reducible apply State.csrModify_kept
    | with_reducible apply OutKept.next | with_reducible apply OutKept.fault | intro _ | dsimp only [id]

theorem execLinkEnable_kept {port : Nat} {id : BitVec 12} {value : Reg64} {s : State} (h0 : Kept kq kn s) : OutKept kq kn (execLinkEnable port id value s) := by
  unfold execLinkEnable
  try dsimp only
  repeat' first
    | with_reducible assumption | with_reducible apply onPort_kept | with_reducible apply State.csrWrite_kept
    | with_reducible apply OutKept.next | with_reducible apply OutKept.fault | intro _ | dsimp only [id]

theorem execRetrain_kept {port : Nat} {id : BitVec 12} {s : State} (h0 : Kept kq kn s) : OutKept kq kn (execRetrain port id s) := by
  unfold execRetrain
  try dsimp only
  repeat' first
    | with_reducible assumption | with_reducible apply onPort_kept | with_reducible apply State.csrModify_kept
    | with_reducible apply OutKept.next | with_reducible apply OutKept.fault | intro _ | dsimp only [id]

theorem execSchedArm_kept {bay : Nat} {id : BitVec 12} {value : Reg64} {s : State} (h0 : Kept kq kn s) : OutKept kq kn (execSchedArm bay id value s) := by
  unfold execSchedArm
  try dsimp only
  repeat' first
    | with_reducible assumption | with_reducible apply onBay_kept | with_reducible apply State.csrWrite_kept
    | with_reducible apply OutKept.next | with_reducible apply OutKept.fault | intro _ | dsimp only [id]

theorem execSchedDisarm_kept {bay : Nat} {id : BitVec 12} {s : State} (h0 : Kept kq kn s) : OutKept kq kn (execSchedDisarm bay id s) := by
  unfold execSchedDisarm
  try dsimp only
  repeat' first
    | with_reducible assumption | with_reducible apply onBay_kept | with_reducible apply State.csrModify_kept
    | with_reducible apply OutKept.next | with_reducible apply OutKept.fault | intro _ | dsimp only [id]

theorem execServiceGo_kept {shoal : Nat} {id : BitVec 12} {s : State} (h0 : Kept kq kn s) : OutKept kq kn (execServiceGo shoal id s) := by
  unfold execServiceGo
  try dsimp only
  repeat' first
    | with_reducible assumption | with_reducible apply onShoal_kept | with_reducible apply State.csrModify_kept
    | with_reducible apply OutKept.next | with_reducible apply OutKept.fault | intro _ | dsimp only [id]

theorem execMirrorLoad_kept {id : BitVec 12} {base : Nat} {s : State} (h0 : Kept kq kn s) : OutKept kq kn (execMirrorLoad id base s) := by
  unfold execMirrorLoad
  try dsimp only
  repeat' first
    | with_reducible assumption | with_reducible apply State.csrModify_kept | with_reducible apply OutKept.next
    | with_reducible apply OutKept.fault | dsimp only [id]

theorem execMirrorSave_kept {id : BitVec 12} {base : Nat} {s : State} (h0 : Kept kq kn s) : OutKept kq kn (execMirrorSave id base s) := by
  unfold execMirrorSave
  try dsimp only
  repeat' first
    | with_reducible assumption | with_reducible apply State.csrModify_kept | with_reducible apply OutKept.next
    | with_reducible apply OutKept.fault | dsimp only [id]

theorem execPop_kept {pilot : Nat} {id : BitVec 12} {s : State} (h0 : Kept kq kn s) : OutKept kq kn (execPop pilot id s) := by
  unfold execPop
  try dsimp only
  repeat' first
    | with_reducible assumption | with_reducible apply onPilot_kept | with_reducible apply State.csrModify_kept
    | with_reducible apply OutKept.next | with_reducible apply OutKept.fault | split | intro _ | dsimp only [id]

theorem onLedgerPorts_kept {base : Nat} {l : List (BitVec 12 × Nat × Reg64)} {s : State} (h0 : Kept kq kn s) : OutKept kq kn (onLedgerPorts base l s) := by
  unfold onLedgerPorts
  try dsimp only
  repeat' first
    | with_reducible assumption | with_reducible apply CoreState.fault_kept | with_reducible apply State.writeMany_kept
    | with_reducible apply OutKept.next | with_reducible apply OutKept.fault | split | intro _ | dsimp only

theorem execCasCmd_kept {cmds : List (BitVec 12 × Nat × Reg64)} {s : State} (h0 : Kept kq kn s) : OutKept kq kn (execCasCmd cmds s) := by
  unfold execCasCmd
  try dsimp only
  repeat' first
    | with_reducible assumption | with_reducible apply onLedgerPorts_kept | with_reducible apply OutKept.next
    | with_reducible apply OutKept.fault | dsimp only

theorem execCharge_kept {cmds : List (BitVec 12 × Nat × Reg64)} {s : State} (h0 : Kept kq kn s) : OutKept kq kn (execCharge cmds s) := by
  unfold execCharge
  try dsimp only
  repeat' first
    | with_reducible assumption | with_reducible apply onLedgerPorts_kept | with_reducible apply OutKept.next
    | with_reducible apply OutKept.fault | dsimp only

theorem execBayDrain_kept {bay : Nat} {id : BitVec 12} {s : State} (h0 : Kept kq kn s) : OutKept kq kn (execBayDrain bay id s) := by
  unfold execBayDrain
  try dsimp only
  repeat' first
    | with_reducible assumption | with_reducible apply onBay_kept | with_reducible apply State.csrModify_kept
    | with_reducible apply OutKept.next | with_reducible apply OutKept.fault | intro _ | dsimp only [id]

theorem execHbrRedrive_kept {id : BitVec 12} {window : Nat} {record : Nat} {s : State} (h0 : Kept kq kn s) : OutKept kq kn (execHbrRedrive id window record s) := by
  unfold execHbrRedrive
  try dsimp only
  repeat' first
    | with_reducible assumption | with_reducible apply State.csrModify_kept | with_reducible apply OutKept.next
    | with_reducible apply OutKept.fault | dsimp only [id]

theorem execPrefixWalk_kept {id : BitVec 12} {value : Reg64} {s : State} (h0 : Kept kq kn s) : OutKept kq kn (execPrefixWalk id value s) := by
  unfold execPrefixWalk
  try dsimp only
  repeat' first
    | with_reducible assumption | with_reducible apply State.csrWrite_kept | with_reducible apply OutKept.next
    | with_reducible apply OutKept.fault | dsimp only [id]

theorem execBayCarveWrite_kept {bay : Nat} {word : Nat} {id : BitVec 12} {value : Reg64} {s : State} (h0 : Kept kq kn s) : OutKept kq kn (execBayCarveWrite bay word id value s) := by
  unfold execBayCarveWrite
  try dsimp only
  repeat' first
    | with_reducible assumption | with_reducible apply onBay_kept | with_reducible apply State.csrWrite_kept
    | with_reducible apply OutKept.next | with_reducible apply OutKept.fault | split | intro _ | dsimp only [id]

theorem execCreateGo_kept {bay : Nat} {id : BitVec 12} {s : State} (h0 : Kept kq kn s) : OutKept kq kn (execCreateGo bay id s) := by
  unfold execCreateGo
  try dsimp only
  repeat' first
    | with_reducible assumption | with_reducible apply onBay_kept | with_reducible apply State.csrModify_kept
    | with_reducible apply OutKept.next | with_reducible apply OutKept.fault | intro _ | dsimp only [id]

theorem execRetireGo_kept {bay : Nat} {id : BitVec 12} {s : State} (h0 : Kept kq kn s) : OutKept kq kn (execRetireGo bay id s) := by
  unfold execRetireGo
  try dsimp only
  repeat' first
    | with_reducible assumption | with_reducible apply onBay_kept | with_reducible apply State.csrModify_kept
    | with_reducible apply OutKept.next | with_reducible apply OutKept.fault | intro _ | dsimp only [id]

theorem execWashGo_kept {bay : Nat} {id : BitVec 12} {s : State} (h0 : Kept kq kn s) : OutKept kq kn (execWashGo bay id s) := by
  unfold execWashGo
  try dsimp only
  repeat' first
    | with_reducible assumption | with_reducible apply onBay_kept | with_reducible apply State.csrModify_kept
    | with_reducible apply OutKept.next | with_reducible apply OutKept.fault | intro _ | dsimp only [id]

theorem execCtxOpen_kept {ctx : Nat} {id : BitVec 12} {s : State} (h0 : Kept kq kn s) : OutKept kq kn (execCtxOpen ctx id s) := by
  unfold execCtxOpen
  try dsimp only
  repeat' first
    | with_reducible assumption | with_reducible apply onCtx_kept | with_reducible apply State.csrModify_kept
    | with_reducible apply OutKept.next | with_reducible apply OutKept.fault | intro _ | dsimp only [id]

theorem execCtxClose_kept {ctx : Nat} {id : BitVec 12} {s : State} (h0 : Kept kq kn s) : OutKept kq kn (execCtxClose ctx id s) := by
  unfold execCtxClose
  try dsimp only
  repeat' first
    | with_reducible assumption | with_reducible apply onCtx_kept | with_reducible apply State.csrModify_kept
    | with_reducible apply OutKept.next | with_reducible apply OutKept.fault | intro _ | dsimp only [id]

theorem execFreeGo_kept {ctx : Nat} {id : BitVec 12} {s : State} (h0 : Kept kq kn s) : OutKept kq kn (execFreeGo ctx id s) := by
  unfold execFreeGo
  try dsimp only
  repeat' first
    | with_reducible assumption | with_reducible apply onCtx_kept | with_reducible apply State.csrModify_kept
    | with_reducible apply OutKept.next | with_reducible apply OutKept.fault | intro _ | dsimp only [id]

theorem execInc_kept {ctx : Nat} {ids : List (BitVec 12)} {s : State} (h0 : Kept kq kn s) : OutKept kq kn (execInc ctx ids s) := by
  unfold execInc
  try dsimp only
  repeat' first
    | with_reducible assumption | with_reducible apply onCtx_kept | with_reducible apply State.writeMany_kept
    | with_reducible apply OutKept.next | with_reducible apply OutKept.fault | intro _ | dsimp only [id]

theorem execDec_kept {ctx : Nat} {ids : List (BitVec 12)} {s : State} (h0 : Kept kq kn s) : OutKept kq kn (execDec ctx ids s) := by
  unfold execDec
  try dsimp only
  repeat' first
    | with_reducible assumption | with_reducible apply onCtx_kept | with_reducible apply State.writeMany_kept
    | with_reducible apply OutKept.next | with_reducible apply OutKept.fault | intro _ | dsimp only [id]

theorem execPlnCtxLose_kept {id : BitVec 12} {ctx : Nat} {core : Nat} {s : State} (h0 : Kept kq kn s) : OutKept kq kn (execPlnCtxLose id ctx core s) := by
  unfold execPlnCtxLose
  try dsimp only
  repeat' first
    | with_reducible assumption | with_reducible apply State.csrWrite_kept | with_reducible apply OutKept.next
    | with_reducible apply OutKept.fault | with_reducible apply Kept.core (q := kq) (n := kn) | dsimp only [id]

theorem execPlnMsix_kept {id : BitVec 12} {vector : Nat} {s : State} (h0 : Kept kq kn s) : OutKept kq kn (execPlnMsix id vector s) := by
  unfold execPlnMsix
  try dsimp only
  repeat' first
    | with_reducible assumption | with_reducible apply State.csrWrite_kept | with_reducible apply OutKept.next
    | with_reducible apply OutKept.fault | dsimp only [id]

theorem execPrGo_kept {id : BitVec 12} {value : Reg64} {s : State} (h0 : Kept kq kn s) : OutKept kq kn (execPrGo id value s) := by
  unfold execPrGo
  try dsimp only
  repeat' first
    | with_reducible assumption | with_reducible apply State.csrWrite_kept | with_reducible apply OutKept.next
    | with_reducible apply OutKept.fault | dsimp only [id]

theorem execPush_kept {id : BitVec 12} {s : State} (h0 : Kept kq kn s) : OutKept kq kn (execPush id s) := by
  unfold execPush
  try dsimp only
  repeat' first
    | with_reducible assumption | with_reducible apply State.csrWrite_kept | with_reducible apply OutKept.next
    | with_reducible apply OutKept.fault | dsimp only [id]

theorem execCompact_kept {id : BitVec 12} {s : State} (h0 : Kept kq kn s) : OutKept kq kn (execCompact id s) := by
  unfold execCompact
  try dsimp only
  repeat' first
    | with_reducible assumption | with_reducible apply State.csrWrite_kept | with_reducible apply OutKept.next
    | with_reducible apply OutKept.fault | dsimp only [id]

theorem execPrtEnable_kept {id : BitVec 12} {value : Reg64} {s : State} (h0 : Kept kq kn s) : OutKept kq kn (execPrtEnable id value s) := by
  unfold execPrtEnable
  try dsimp only
  repeat' first
    | with_reducible assumption | with_reducible apply State.csrWrite_kept | with_reducible apply OutKept.next
    | with_reducible apply OutKept.fault | dsimp only [id]

end Sys2Proof.Machine
end

