-- ==== Sys2Proof/Laws/KeptImage.lean ====
section
/-! SUPPORT. What the operations of Machine/Image.lean keep (Laws/Kept.lean). -/

namespace Sys2Proof.Machine

variable {kq : List Instr} {kn : Nat}

theorem State.replayRecord_kept {s : State} {r : JRecord} (h0 : Kept kq kn s) : Kept kq kn (State.replayRecord s r) := by
  unfold State.replayRecord
  try dsimp only
  repeat' first
    | with_reducible assumption | with_reducible apply CoreState.bump_kept | with_reducible apply State.bump_kept
    | with_reducible apply State.writeTick_kept | split | dsimp only

theorem State.replayJournal_kept {s : State} (h0 : Kept kq kn s) : Kept kq kn (State.replayJournal s) := by
  unfold State.replayJournal
  try dsimp only
  repeat' first
    | with_reducible assumption | with_reducible apply CoreState.put_kept | with_reducible apply State.put_kept
    | with_reducible apply State.replayRecord_kept | with_reducible apply Kept.foldl | with_reducible apply Kept.foldl_fst
    | with_reducible apply CoreKept.foldl | split | (refine Kept.intro ?_; dsimp only; with_reducible refine Kept.elim ?_)
    | (refine CoreKept.intro ?_; dsimp only; with_reducible refine CoreKept.elim ?_) | intro _ | dsimp only

theorem State.dropImage_kept {s : State} (h0 : Kept kq kn s) : Kept kq kn (State.dropImage s) := by
  unfold State.dropImage
  try dsimp only
  repeat' first
    | with_reducible assumption | with_reducible apply State.modCore_kept | with_reducible apply Kept.foldl
    | with_reducible apply Kept.foldl_fst | with_reducible apply CoreKept.foldl
    | (refine Kept.intro ?_; dsimp only; with_reducible refine Kept.elim ?_)
    | (refine CoreKept.intro ?_; dsimp only; with_reducible refine CoreKept.elim ?_)
    | (refine Kept.intro ?_; dsimp only; with_reducible refine Kept.sram_fold (fun m x h => Bytes.wf_write _ _ h) ?_)
    | (refine Kept.intro ?_; dsimp only; with_reducible refine Kept.sram_write ?_)
    | (refine Kept.intro ?_; dsimp only; with_reducible refine Kept.sram_clear ?_)
    | (refine Kept.intro ?_; dsimp only; with_reducible refine Kept.sram_reset ?_) | intro _ | dsimp only

theorem State.failSlot_kept {s : State} {slot : Nat} {cause : Nat} {word : Nat} (h0 : Kept kq kn s) : Kept kq kn (State.failSlot s slot cause word) := by
  unfold State.failSlot
  try dsimp only
  repeat' first
    | with_reducible assumption | with_reducible apply CoreState.put_kept | with_reducible apply State.put_kept
    | with_reducible apply State.dropImage_kept | split | (refine Kept.intro ?_; dsimp only; with_reducible refine Kept.elim ?_)
    | (refine CoreKept.intro ?_; dsimp only; with_reducible refine CoreKept.elim ?_) | dsimp only

theorem State.trySlot_kept {s : State} {slot : Nat} (h0 : Kept kq kn s) : Kept kq kn (State.trySlot s slot).1 := by
  unfold State.trySlot
  try dsimp only
  repeat' first
    | with_reducible assumption | with_reducible apply State.walkFrames_kept | with_reducible apply State.copyFrame_kept
    | with_reducible apply State.compareFrame_kept | split | intro _ | with_reducible refine Kept.of_fst ‹_› ?_
    | with_reducible refine Kept.of_snd ‹_› ?_ | with_reducible refine Kept.of_trd ‹_› ?_
    | with_reducible refine CoreKept.of_fst ‹_› ?_ | with_reducible refine CoreKept.of_snd ‹_› ?_ | dsimp only

theorem State.attemptSlot_kept {s0 : State} (h0 : Kept kq kn s0) : Kept kq kn (State.attemptSlot s0) := by
  unfold State.attemptSlot
  try dsimp only
  repeat' first
    | with_reducible assumption | with_reducible apply CoreState.put_kept | with_reducible apply CoreState.bump_kept
    | with_reducible apply State.put_kept | with_reducible apply State.bump_kept | with_reducible apply State.failSlot_kept
    | with_reducible apply State.trySlot_kept | split | (refine Kept.intro ?_; dsimp only; with_reducible refine Kept.elim ?_)
    | (refine CoreKept.intro ?_; dsimp only; with_reducible refine CoreKept.elim ?_) | with_reducible refine Kept.of_fst ‹_› ?_
    | with_reducible refine Kept.of_snd ‹_› ?_ | with_reducible refine Kept.of_trd ‹_› ?_
    | with_reducible refine CoreKept.of_fst ‹_› ?_ | with_reducible refine CoreKept.of_snd ‹_› ?_ | dsimp only

theorem execImageLoadAttempt_kept {s : State} (h0 : Kept kq kn s) : OutKept kq kn (execImageLoadAttempt s) := by
  unfold execImageLoadAttempt
  try dsimp only
  repeat' first
    | with_reducible assumption | with_reducible apply CoreState.put_kept | with_reducible apply State.put_kept
    | with_reducible apply State.replayJournal_kept | with_reducible apply State.attemptSlot_kept
    | with_reducible apply OutKept.next | with_reducible apply OutKept.fault | split
    | (refine Kept.intro ?_; dsimp only; with_reducible refine Kept.elim ?_)
    | (refine CoreKept.intro ?_; dsimp only; with_reducible refine CoreKept.elim ?_) | dsimp only

theorem State.holdCores_kept {s : State} (h0 : Kept kq kn s) : Kept kq kn (State.holdCores s) := by
  unfold State.holdCores
  try dsimp only
  repeat' first
    | with_reducible assumption | with_reducible apply CoreState.stopShort_kept | with_reducible apply State.modCore_kept
    | with_reducible apply Kept.foldl | with_reducible apply Kept.foldl_fst | with_reducible apply CoreKept.foldl | split
    | exact CoreKept.reset | intro _ | dsimp only

theorem State.failRails_kept {s : State} {bits : Nat} (h0 : Kept kq kn s) : Kept kq kn (State.failRails s bits) := by
  unfold State.failRails
  try dsimp only
  repeat' first
    | with_reducible assumption | with_reducible apply CoreState.raise_kept | with_reducible apply State.raise_kept
    | with_reducible apply State.fenceBay_kept | with_reducible apply State.holdCores_kept | with_reducible apply OutKept.next
    | with_reducible apply OutKept.fault | with_reducible apply Kept.foldl | with_reducible apply Kept.foldl_fst
    | with_reducible apply CoreKept.foldl | with_reducible apply CoreKept.foldl_fst | with_reducible apply Kept.foldl_snd
    | with_reducible apply CoreKept.foldl_snd | with_reducible apply Kept.core (q := kq) (n := kn)
    | (refine Kept.intro ?_; dsimp only; with_reducible refine Kept.elim ?_)
    | (refine CoreKept.intro ?_; dsimp only; with_reducible refine CoreKept.elim ?_) | exact CoreKept.reset | intro _
    | dsimp only

theorem State.changeLevels_kept {s : State} {release : Bool} {logic : Bool} {ledge : Bool} {strand : Bool} (h0 : Kept kq kn s) : Kept kq kn (State.changeLevels s release logic ledge strand) := by
  unfold State.changeLevels
  try dsimp only
  repeat' first
    | with_reducible assumption | with_reducible apply CoreState.put_kept | with_reducible apply State.put_kept
    | with_reducible apply State.release_kept | with_reducible apply State.dropImage_kept
    | with_reducible apply State.failRails_kept | with_reducible apply OutKept.next | with_reducible apply OutKept.fault
    | with_reducible apply Kept.core (q := kq) (n := kn) | split
    | (refine Kept.intro ?_; dsimp only; with_reducible refine Kept.elim ?_)
    | (refine CoreKept.intro ?_; dsimp only; with_reducible refine CoreKept.elim ?_) | exact CoreKept.reset | intro _
    | dsimp only

theorem execLoadAbandon_kept {release : Bool} {logic : Bool} {ledge : Bool} {strand : Bool} {s : State} (h0 : Kept kq kn s) : OutKept kq kn (execLoadAbandon release logic ledge strand s) := by
  unfold execLoadAbandon
  try dsimp only
  repeat' first
    | with_reducible assumption | with_reducible apply State.release_kept | with_reducible apply State.changeLevels_kept
    | with_reducible apply OutKept.next | with_reducible apply OutKept.fault | dsimp only

theorem execLoadRetry_kept {s : State} (h0 : Kept kq kn s) : OutKept kq kn (execLoadRetry s) := by
  unfold execLoadRetry
  try dsimp only
  repeat' first
    | with_reducible assumption | with_reducible apply CoreState.put_kept | with_reducible apply State.put_kept
    | with_reducible apply OutKept.next | with_reducible apply OutKept.fault | split
    | (refine Kept.intro ?_; dsimp only; with_reducible refine Kept.elim ?_)
    | (refine CoreKept.intro ?_; dsimp only; with_reducible refine CoreKept.elim ?_) | dsimp only

theorem State.performAction_kept {s : State} {a : Nat} (h0 : Kept kq kn s) : Kept kq kn (State.performAction s a) := by
  unfold State.performAction
  try dsimp only
  repeat' first
    | with_reducible assumption | with_reducible apply CoreState.put_kept | with_reducible apply State.put_kept
    | with_reducible apply State.linkStart_kept | with_reducible apply Kept.foldl | with_reducible apply Kept.foldl_fst
    | with_reducible apply CoreKept.foldl | split | (refine Kept.intro ?_; dsimp only; with_reducible refine Kept.elim ?_)
    | (refine CoreKept.intro ?_; dsimp only; with_reducible refine CoreKept.elim ?_) | intro _ | dsimp only

theorem execStartAction_kept {s : State} (h0 : Kept kq kn s) : OutKept kq kn (execStartAction s) := by
  unfold execStartAction
  try dsimp only
  repeat' first
    | with_reducible assumption | with_reducible apply State.performAction_kept | with_reducible apply OutKept.next
    | with_reducible apply OutKept.fault | split | (refine Kept.intro ?_; dsimp only; with_reducible refine Kept.elim ?_)
    | (refine CoreKept.intro ?_; dsimp only; with_reducible refine CoreKept.elim ?_) | dsimp only

theorem execLockTimeout_kept {s : State} (h0 : Kept kq kn s) : OutKept kq kn (execLockTimeout s) := by
  unfold execLockTimeout
  try dsimp only
  repeat' first
    | with_reducible assumption | with_reducible apply State.failSlot_kept | with_reducible apply State.used_kept
    | with_reducible apply OutKept.next | with_reducible apply OutKept.fault | split | dsimp only

theorem State.writeGeometry_kept {s : State} {h : List Byte} (h0 : Kept kq kn s) : Kept kq kn (State.writeGeometry s h) := by
  unfold State.writeGeometry
  try dsimp only
  repeat' first
    | with_reducible assumption | with_reducible apply CoreState.put_kept | with_reducible apply State.put_kept
    | with_reducible apply Kept.foldl | with_reducible apply Kept.foldl_fst | with_reducible apply CoreKept.foldl | split
    | intro _ | dsimp only

theorem State.loadCaps_kept {s : State} {h : List Byte} (h0 : Kept kq kn s) : Kept kq kn (State.loadCaps s h) := by
  unfold State.loadCaps
  try dsimp only
  repeat' first
    | with_reducible assumption | with_reducible apply State.modCore_kept | with_reducible apply State.setReg_kept
    | with_reducible apply CoreState.setReg_kept | with_reducible apply Kept.foldl | with_reducible apply Kept.foldl_fst
    | with_reducible apply CoreKept.foldl | intro _ | dsimp only

theorem State.measureRails_kept {s : State} {m : Measure} (h0 : Kept kq kn s) : Kept kq kn (State.measureRails s m) := by
  unfold State.measureRails
  try dsimp only
  repeat' first
    | with_reducible assumption | with_reducible apply CoreState.put_kept | with_reducible apply State.put_kept
    | with_reducible apply Kept.foldl | with_reducible apply Kept.foldl_fst | with_reducible apply CoreKept.foldl | intro _
    | dsimp only

theorem State.measureTiers_kept {s : State} {m : Measure} (h0 : Kept kq kn s) : Kept kq kn (State.measureTiers s m) := by
  unfold State.measureTiers
  try dsimp only
  repeat' first
    | with_reducible assumption | with_reducible apply CoreState.put_kept | with_reducible apply State.put_kept
    | with_reducible apply Kept.foldl | with_reducible apply Kept.foldl_fst | with_reducible apply CoreKept.foldl | split
    | intro _ | dsimp only

theorem State.loadBudget_kept {s : State} (h0 : Kept kq kn s) : Kept kq kn (State.loadBudget s) := by
  unfold State.loadBudget
  try dsimp only
  repeat' first
    | with_reducible assumption | with_reducible apply CoreState.put_kept | with_reducible apply State.put_kept | dsimp only

theorem State.startPilots_kept {s : State} (h0 : Kept kq kn s) : Kept kq kn (State.startPilots s) := by
  unfold State.startPilots
  try dsimp only
  repeat' first
    | with_reducible assumption | with_reducible apply State.startPilot_kept | with_reducible apply OutKept.next
    | with_reducible apply OutKept.fault | with_reducible apply Kept.foldl | with_reducible apply Kept.foldl_fst
    | with_reducible apply CoreKept.foldl | with_reducible apply CoreKept.foldl_fst | with_reducible apply Kept.foldl_snd
    | with_reducible apply CoreKept.foldl_snd | with_reducible apply Kept.core (q := kq) (n := kn) | split
    | (refine Kept.intro ?_; dsimp only; with_reducible refine Kept.elim ?_)
    | (refine CoreKept.intro ?_; dsimp only; with_reducible refine CoreKept.elim ?_) | exact CoreKept.reset | intro _
    | dsimp only

theorem execLoadFinish_kept {m : Measure} {s : State} (h0 : Kept kq kn s) : OutKept kq kn (execLoadFinish m s) := by
  unfold execLoadFinish
  try dsimp only
  repeat' first
    | with_reducible assumption | with_reducible apply CoreState.put_kept | with_reducible apply State.put_kept
    | with_reducible apply State.washShoal_kept | with_reducible apply State.writeGeometry_kept
    | with_reducible apply State.loadCaps_kept | with_reducible apply State.measureRails_kept
    | with_reducible apply State.measureTiers_kept | with_reducible apply State.loadBudget_kept
    | with_reducible apply State.startPilots_kept | with_reducible apply OutKept.next | with_reducible apply OutKept.fault
    | with_reducible apply Kept.foldl | with_reducible apply Kept.foldl_fst | with_reducible apply CoreKept.foldl
    | with_reducible apply CoreKept.foldl_fst | with_reducible apply Kept.foldl_snd | with_reducible apply CoreKept.foldl_snd
    | with_reducible apply Kept.core (q := kq) (n := kn) | split
    | (refine Kept.intro ?_; dsimp only; with_reducible refine Kept.elim ?_)
    | (refine CoreKept.intro ?_; dsimp only; with_reducible refine CoreKept.elim ?_) | exact CoreKept.reset | intro _
    | dsimp only

theorem execPilotReload_kept {pilot : Nat} {s : State} (h0 : Kept kq kn s) : OutKept kq kn (execPilotReload pilot s) := by
  unfold execPilotReload
  try dsimp only
  repeat' first
    | with_reducible assumption | with_reducible apply State.modPilot_kept | with_reducible apply State.startPilot_kept
    | with_reducible apply onPilot_kept | with_reducible apply State.walkFrames_kept
    | with_reducible apply State.copyFrame_kept | with_reducible apply OutKept.next | with_reducible apply OutKept.fault
    | with_reducible apply Kept.core (q := kq) (n := kn) | split
    | (refine Kept.intro ?_; dsimp only; with_reducible refine Kept.elim ?_)
    | (refine CoreKept.intro ?_; dsimp only; with_reducible refine CoreKept.elim ?_)
    | (refine Kept.intro ?_; dsimp only; with_reducible refine Kept.sram_write ?_)
    | (refine Kept.intro ?_; dsimp only; with_reducible refine Kept.sram_clear ?_)
    | (refine Kept.intro ?_; dsimp only; with_reducible refine Kept.sram_reset ?_)
    | (refine Kept.intro ?_; dsimp only; with_reducible refine Kept.sram_fold (fun m x h => Bytes.wf_write _ _ h) ?_)
    | exact CoreKept.reset | intro _ | with_reducible refine Kept.of_fst ‹_› ?_ | with_reducible refine Kept.of_snd ‹_› ?_
    | with_reducible refine Kept.of_trd ‹_› ?_ | with_reducible refine CoreKept.of_fst ‹_› ?_
    | with_reducible refine CoreKept.of_snd ‹_› ?_ | dsimp only

end Sys2Proof.Machine
end

