-- ==== Sys2Proof/Laws/KeptDebug.lean ====
section
/-! SUPPORT. What the operations of Machine/Debug.lean keep (Laws/Kept.lean). -/

namespace Sys2Proof.Machine

variable {kq : List Instr} {kn : Nat}

theorem State.finishXfer_kept {s : State} {r : XferRes} (h0 : Kept kq kn s) : Kept kq kn (State.finishXfer s r) := by
  unfold State.finishXfer
  try dsimp only
  repeat' first
    | with_reducible assumption | with_reducible apply State.used_kept | split
    | (refine Kept.intro ?_; dsimp only; with_reducible refine Kept.elim ?_)
    | (refine Kept.intro ?_; dsimp only; with_reducible refine Kept.elim_used _ ?_ ?_)
    | (refine CoreKept.intro ?_; dsimp only; with_reducible refine CoreKept.elim ?_) | dsimp only

theorem State.refuseDebug_kept {s : State} {addr : Nat} {cause : Nat} (h0 : Kept kq kn s) : Kept kq kn (State.refuseDebug s addr cause) := by
  unfold State.refuseDebug
  try dsimp only
  repeat' first
    | with_reducible assumption | with_reducible apply State.recordRefused_kept | dsimp only

theorem State.debugCsrRead_kept {s : State} {addr : Nat} (h0 : Kept kq kn s) : Kept kq kn (State.debugCsrRead s addr).1 := by
  unfold State.debugCsrRead
  try dsimp only
  repeat' first
    | with_reducible assumption | with_reducible apply State.refuseDebug_kept | split | dsimp only

theorem State.debugCsrWrite_kept {s : State} {addr : Nat} {v : Reg64} (h0 : Kept kq kn s) : Kept kq kn (State.debugCsrWrite s addr v).1 := by
  unfold State.debugCsrWrite
  try dsimp only
  repeat' first
    | with_reducible assumption | with_reducible apply State.csrWrite_kept | with_reducible apply State.refuseDebug_kept | split
    | dsimp only

theorem State.debugBasinRead_kept {s : State} {core : Nat} {addr : Nat} (h0 : Kept kq kn s) : Kept kq kn (State.debugBasinRead s core addr).1 := by
  unfold State.debugBasinRead
  try dsimp only
  repeat' first
    | with_reducible assumption | with_reducible apply State.meets_kept | with_reducible apply OutKept.next
    | with_reducible apply OutKept.fault | with_reducible apply Kept.core (q := kq) (n := kn) | split
    | (refine Kept.intro ?_; dsimp only; with_reducible refine Kept.elim ?_)
    | (refine CoreKept.intro ?_; dsimp only; with_reducible refine CoreKept.elim ?_) | exact CoreKept.reset | intro _
    | with_reducible refine Kept.of_fst ‹_› ?_ | with_reducible refine Kept.of_snd ‹_› ?_
    | with_reducible refine Kept.of_trd ‹_› ?_ | with_reducible refine CoreKept.of_fst ‹_› ?_
    | with_reducible refine CoreKept.of_snd ‹_› ?_ | dsimp only

theorem State.debugBasinWrite_kept {s : State} {core : Nat} {addr : Nat} {v : Reg64} (h0 : Kept kq kn s) : Kept kq kn (State.debugBasinWrite s core addr v).1 := by
  unfold State.debugBasinWrite
  try dsimp only
  repeat' first
    | with_reducible assumption | with_reducible apply State.poke_kept | with_reducible apply OutKept.next
    | with_reducible apply OutKept.fault | with_reducible apply Kept.core (q := kq) (n := kn) | split
    | (refine Kept.intro ?_; dsimp only; with_reducible refine Kept.elim ?_)
    | (refine CoreKept.intro ?_; dsimp only; with_reducible refine CoreKept.elim ?_) | exact CoreKept.reset | intro _
    | dsimp only

theorem State.debugPoison_kept {s : State} {core : Nat} {addr : Nat} {v : Reg64} (h0 : Kept kq kn s) : Kept kq kn (State.debugPoison s core addr v).1 := by
  unfold State.debugPoison
  try dsimp only
  repeat' first
    | with_reducible assumption | with_reducible apply State.modCore_kept | with_reducible apply CoreState.setPoison_kept
    | with_reducible apply State.pushDelta_kept | with_reducible apply OutKept.next | with_reducible apply OutKept.fault
    | with_reducible apply Kept.core (q := kq) (n := kn) | split
    | (refine Kept.intro ?_; dsimp only; with_reducible refine Kept.elim ?_)
    | (refine CoreKept.intro ?_; dsimp only; with_reducible refine CoreKept.elim ?_) | exact CoreKept.reset | intro _
    | dsimp only

theorem State.debugTierRead_kept {s : State} {addr : Nat} (h0 : Kept kq kn s) : Kept kq kn (State.debugTierRead s addr).1 := by
  unfold State.debugTierRead
  try dsimp only
  repeat' first
    | with_reducible assumption | with_reducible apply State.countBytes_kept | split | dsimp only

theorem State.debugTierWrite_kept {s : State} {addr : Nat} {v : Reg64} (h0 : Kept kq kn s) : Kept kq kn (State.debugTierWrite s addr v).1 := by
  unfold State.debugTierWrite
  try dsimp only
  repeat' first
    | with_reducible assumption | with_reducible apply State.tierWrite_kept | with_reducible apply State.countBytes_kept | split
    | dsimp only

theorem State.debugStoreRead_kept {s : State} {addr : Nat} (h0 : Kept kq kn s) : Kept kq kn (State.debugStoreRead s addr).1 := by
  unfold State.debugStoreRead
  try dsimp only
  repeat' first
    | with_reducible assumption | split | dsimp only

theorem State.debugStoreWrite_kept {s : State} {addr : Nat} {v : Reg64} (h0 : Kept kq kn s) : Kept kq kn (State.debugStoreWrite s addr v).1 := by
  unfold State.debugStoreWrite
  try dsimp only
  repeat' first
    | with_reducible assumption | with_reducible apply State.storeWrite_kept | split | dsimp only

theorem State.debugStoreErase_kept {s : State} {addr : Nat} (h0 : Kept kq kn s) : Kept kq kn (State.debugStoreErase s addr).1 := by
  unfold State.debugStoreErase
  try dsimp only
  repeat' first
    | with_reducible assumption | with_reducible apply State.storeErase_kept | split | dsimp only

theorem State.selPut_kept {s : State} {t : Nat} {core : Nat} {f : RF} {x : Nat} (h0 : Kept kq kn s) : Kept kq kn (State.selPut s t core f x) := by
  unfold State.selPut
  try dsimp only
  repeat' first
    | with_reducible assumption | with_reducible apply CoreState.put_kept | with_reducible apply State.put_kept
    | with_reducible apply State.modCore_kept | with_reducible apply Kept.core (q := kq) (n := kn) | split | intro _
    | dsimp only

theorem State.putSelsKept_kept {s : State} {t : Nat} {core : Nat} {l : List (Nat × Reg64)} (h0 : Kept kq kn s) : Kept kq kn (State.putSelsKept s t core l) := by
  unfold State.putSelsKept
  try dsimp only
  repeat' first
    | with_reducible assumption | with_reducible apply State.modCore_kept | with_reducible apply OutKept.next
    | with_reducible apply OutKept.fault | with_reducible apply Kept.core (q := kq) (n := kn) | split
    | (refine Kept.intro ?_; dsimp only; with_reducible refine Kept.elim ?_)
    | (refine CoreKept.intro ?_; dsimp only; with_reducible refine CoreKept.elim ?_) | exact CoreKept.reset | intro _
    | dsimp only

theorem State.select_kept {s : State} {t : Nat} {core : Nat} {i : Nat} {d : DebugTable} (h0 : Kept kq kn s) : Kept kq kn (State.select s t core i d) := by
  unfold State.select
  try dsimp only
  repeat' first
    | with_reducible assumption | with_reducible apply State.selPut_kept | with_reducible apply State.putSelsKept_kept
    | with_reducible apply OutKept.next | with_reducible apply OutKept.fault | with_reducible apply Kept.foldl
    | with_reducible apply Kept.foldl_fst | with_reducible apply CoreKept.foldl | with_reducible apply CoreKept.foldl_fst
    | with_reducible apply Kept.foldl_snd | with_reducible apply CoreKept.foldl_snd
    | with_reducible apply Kept.core (q := kq) (n := kn)
    | (refine Kept.intro ?_; dsimp only; with_reducible refine Kept.elim ?_)
    | (refine CoreKept.intro ?_; dsimp only; with_reducible refine CoreKept.elim ?_) | exact CoreKept.reset | intro _
    | dsimp only

theorem State.unselect_kept {s : State} {was : State} {t : Nat} {core : Nat} {d : DebugTable} (h0 : Kept kq kn s) : Kept kq kn (State.unselect s was t core d) := by
  unfold State.unselect
  try dsimp only
  repeat' first
    | with_reducible assumption | with_reducible apply State.selPut_kept | with_reducible apply State.putSelsKept_kept
    | with_reducible apply OutKept.next | with_reducible apply OutKept.fault | with_reducible apply Kept.foldl
    | with_reducible apply Kept.foldl_fst | with_reducible apply CoreKept.foldl | with_reducible apply CoreKept.foldl_fst
    | with_reducible apply Kept.foldl_snd | with_reducible apply CoreKept.foldl_snd
    | with_reducible apply Kept.core (q := kq) (n := kn)
    | (refine Kept.intro ?_; dsimp only; with_reducible refine Kept.elim ?_)
    | (refine CoreKept.intro ?_; dsimp only; with_reducible refine CoreKept.elim ?_) | exact CoreKept.reset | intro _
    | dsimp only

theorem State.debugTableRead_kept {s : State} {core : Nat} {addr : Nat} (h0 : Kept kq kn s) : Kept kq kn (State.debugTableRead s core addr).1 := by
  unfold State.debugTableRead
  try dsimp only
  repeat' first
    | with_reducible assumption | with_reducible apply State.select_kept | with_reducible apply Kept.core (q := kq) (n := kn)
    | split | dsimp only

theorem State.debugTableWrite_kept {s : State} {core : Nat} {addr : Nat} {v : Reg64} (h0 : Kept kq kn s) : Kept kq kn (State.debugTableWrite s core addr v).1 := by
  unfold State.debugTableWrite
  try dsimp only
  repeat' first
    | with_reducible assumption | with_reducible apply State.csrWrite_kept | with_reducible apply State.select_kept
    | with_reducible apply State.unselect_kept | with_reducible apply Kept.core (q := kq) (n := kn) | split | dsimp only

theorem State.xferOp_kept {s : State} {x : XferCmd} (h0 : Kept kq kn s) : Kept kq kn (State.xferOp s x).1 := by
  unfold State.xferOp
  try dsimp only
  repeat' first
    | with_reducible assumption | with_reducible apply State.debugCsrRead_kept | with_reducible apply State.debugCsrWrite_kept
    | with_reducible apply State.debugBasinRead_kept | with_reducible apply State.debugBasinWrite_kept
    | with_reducible apply State.debugPoison_kept | with_reducible apply State.debugTierRead_kept
    | with_reducible apply State.debugTierWrite_kept | with_reducible apply State.debugStoreRead_kept
    | with_reducible apply State.debugStoreWrite_kept | with_reducible apply State.debugStoreErase_kept
    | with_reducible apply State.debugTableRead_kept | with_reducible apply State.debugTableWrite_kept
    | with_reducible apply Kept.core (q := kq) (n := kn) | split | with_reducible refine Kept.of_fst ‹_› ?_
    | with_reducible refine Kept.of_snd ‹_› ?_ | with_reducible refine Kept.of_trd ‹_› ?_
    | with_reducible refine CoreKept.of_fst ‹_› ?_ | with_reducible refine CoreKept.of_snd ‹_› ?_ | dsimp only

theorem State.xferAsk_kept {s : State} {x : XferCmd} (h0 : Kept kq kn s) : Kept kq kn (State.xferAsk s x).2 := by
  unfold State.xferAsk
  try dsimp only
  repeat' first
    | with_reducible assumption | with_reducible apply State.govAsk_kept | with_reducible apply OutKept.next
    | with_reducible apply OutKept.fault | with_reducible apply Kept.core (q := kq) (n := kn) | split
    | (refine Kept.intro ?_; dsimp only; with_reducible refine Kept.elim ?_)
    | (refine CoreKept.intro ?_; dsimp only; with_reducible refine CoreKept.elim ?_) | exact CoreKept.reset | intro _
    | dsimp only

theorem State.settleDebug_kept {s : State} (h0 : Kept kq kn s) : Kept kq kn (State.settleDebug s) := by
  unfold State.settleDebug
  try dsimp only
  repeat' first
    | with_reducible assumption | with_reducible apply State.finishXfer_kept | with_reducible apply State.xferOp_kept
    | with_reducible apply State.xferAsk_kept | with_reducible apply OutKept.next | with_reducible apply OutKept.fault
    | with_reducible apply Kept.core (q := kq) (n := kn) | split
    | (refine Kept.intro ?_; dsimp only; with_reducible refine Kept.elim ?_)
    | (refine CoreKept.intro ?_; dsimp only; with_reducible refine CoreKept.elim ?_) | exact CoreKept.reset | intro _
    | with_reducible refine Kept.of_fst ‹_› ?_ | with_reducible refine Kept.of_snd ‹_› ?_
    | with_reducible refine Kept.of_trd ‹_› ?_ | with_reducible refine CoreKept.of_fst ‹_› ?_
    | with_reducible refine CoreKept.of_snd ‹_› ?_ | dsimp only

theorem State.startXfer_kept {s0 : State} {x : XferCmd} (h0 : Kept kq kn s0) : Kept kq kn (State.startXfer s0 x) := by
  unfold State.startXfer
  try dsimp only
  repeat' first
    | with_reducible assumption | with_reducible apply State.settleDebug_kept | with_reducible apply OutKept.next
    | with_reducible apply OutKept.fault | with_reducible apply Kept.core (q := kq) (n := kn) | split
    | (refine Kept.intro ?_; dsimp only; with_reducible refine Kept.elim ?_)
    | (refine CoreKept.intro ?_; dsimp only; with_reducible refine CoreKept.elim ?_) | exact CoreKept.reset | intro _
    | dsimp only

theorem execXferNop_kept {core : Nat} {addr : Nat} {data : Reg64} {s : State} (h0 : Kept kq kn s) : OutKept kq kn (execXferNop core addr data s) := by
  unfold execXferNop
  try dsimp only
  repeat' first
    | with_reducible assumption | with_reducible apply State.startXfer_kept | with_reducible apply OutKept.next
    | with_reducible apply OutKept.fault | with_reducible apply Kept.core (q := kq) (n := kn) | dsimp only

theorem execXferCsrRead_kept {core : Nat} {addr : Nat} {data : Reg64} {s : State} (h0 : Kept kq kn s) : OutKept kq kn (execXferCsrRead core addr data s) := by
  unfold execXferCsrRead
  try dsimp only
  repeat' first
    | with_reducible assumption | with_reducible apply State.startXfer_kept | with_reducible apply OutKept.next
    | with_reducible apply OutKept.fault | with_reducible apply Kept.core (q := kq) (n := kn) | dsimp only

theorem execXferCsrWrite_kept {core : Nat} {addr : Nat} {data : Reg64} {s : State} (h0 : Kept kq kn s) : OutKept kq kn (execXferCsrWrite core addr data s) := by
  unfold execXferCsrWrite
  try dsimp only
  repeat' first
    | with_reducible assumption | with_reducible apply State.startXfer_kept | with_reducible apply OutKept.next
    | with_reducible apply OutKept.fault | with_reducible apply Kept.core (q := kq) (n := kn) | dsimp only

theorem execXferBasinRead_kept {core : Nat} {addr : Nat} {data : Reg64} {s : State} (h0 : Kept kq kn s) : OutKept kq kn (execXferBasinRead core addr data s) := by
  unfold execXferBasinRead
  try dsimp only
  repeat' first
    | with_reducible assumption | with_reducible apply State.startXfer_kept | with_reducible apply OutKept.next
    | with_reducible apply OutKept.fault | with_reducible apply Kept.core (q := kq) (n := kn) | dsimp only

theorem execXferBasinWrite_kept {core : Nat} {addr : Nat} {data : Reg64} {s : State} (h0 : Kept kq kn s) : OutKept kq kn (execXferBasinWrite core addr data s) := by
  unfold execXferBasinWrite
  try dsimp only
  repeat' first
    | with_reducible assumption | with_reducible apply State.startXfer_kept | with_reducible apply OutKept.next
    | with_reducible apply OutKept.fault | with_reducible apply Kept.core (q := kq) (n := kn) | dsimp only

theorem execXferPoisonWrite_kept {core : Nat} {addr : Nat} {data : Reg64} {s : State} (h0 : Kept kq kn s) : OutKept kq kn (execXferPoisonWrite core addr data s) := by
  unfold execXferPoisonWrite
  try dsimp only
  repeat' first
    | with_reducible assumption | with_reducible apply State.startXfer_kept | with_reducible apply OutKept.next
    | with_reducible apply OutKept.fault | with_reducible apply Kept.core (q := kq) (n := kn) | dsimp only

theorem execXferTierRead_kept {core : Nat} {addr : Nat} {data : Reg64} {s : State} (h0 : Kept kq kn s) : OutKept kq kn (execXferTierRead core addr data s) := by
  unfold execXferTierRead
  try dsimp only
  repeat' first
    | with_reducible assumption | with_reducible apply State.startXfer_kept | with_reducible apply OutKept.next
    | with_reducible apply OutKept.fault | with_reducible apply Kept.core (q := kq) (n := kn) | dsimp only

theorem execXferTierWrite_kept {core : Nat} {addr : Nat} {data : Reg64} {s : State} (h0 : Kept kq kn s) : OutKept kq kn (execXferTierWrite core addr data s) := by
  unfold execXferTierWrite
  try dsimp only
  repeat' first
    | with_reducible assumption | with_reducible apply State.startXfer_kept | with_reducible apply OutKept.next
    | with_reducible apply OutKept.fault | with_reducible apply Kept.core (q := kq) (n := kn) | dsimp only

theorem execXferStoreRead_kept {core : Nat} {addr : Nat} {data : Reg64} {s : State} (h0 : Kept kq kn s) : OutKept kq kn (execXferStoreRead core addr data s) := by
  unfold execXferStoreRead
  try dsimp only
  repeat' first
    | with_reducible assumption | with_reducible apply State.startXfer_kept | with_reducible apply OutKept.next
    | with_reducible apply OutKept.fault | with_reducible apply Kept.core (q := kq) (n := kn) | dsimp only

theorem execXferStoreWrite_kept {core : Nat} {addr : Nat} {data : Reg64} {s : State} (h0 : Kept kq kn s) : OutKept kq kn (execXferStoreWrite core addr data s) := by
  unfold execXferStoreWrite
  try dsimp only
  repeat' first
    | with_reducible assumption | with_reducible apply State.startXfer_kept | with_reducible apply OutKept.next
    | with_reducible apply OutKept.fault | with_reducible apply Kept.core (q := kq) (n := kn) | dsimp only

theorem execXferStoreErase_kept {core : Nat} {addr : Nat} {data : Reg64} {s : State} (h0 : Kept kq kn s) : OutKept kq kn (execXferStoreErase core addr data s) := by
  unfold execXferStoreErase
  try dsimp only
  repeat' first
    | with_reducible assumption | with_reducible apply State.startXfer_kept | with_reducible apply OutKept.next
    | with_reducible apply OutKept.fault | with_reducible apply Kept.core (q := kq) (n := kn) | dsimp only

theorem execXferTableRead_kept {core : Nat} {addr : Nat} {data : Reg64} {s : State} (h0 : Kept kq kn s) : OutKept kq kn (execXferTableRead core addr data s) := by
  unfold execXferTableRead
  try dsimp only
  repeat' first
    | with_reducible assumption | with_reducible apply State.startXfer_kept | with_reducible apply OutKept.next
    | with_reducible apply OutKept.fault | with_reducible apply Kept.core (q := kq) (n := kn) | dsimp only

theorem execXferTableWrite_kept {core : Nat} {addr : Nat} {data : Reg64} {s : State} (h0 : Kept kq kn s) : OutKept kq kn (execXferTableWrite core addr data s) := by
  unfold execXferTableWrite
  try dsimp only
  repeat' first
    | with_reducible assumption | with_reducible apply State.startXfer_kept | with_reducible apply OutKept.next
    | with_reducible apply OutKept.fault | with_reducible apply Kept.core (q := kq) (n := kn) | dsimp only

theorem execDstatCapture_kept {s0 : State} (h0 : Kept kq kn s0) : OutKept kq kn (execDstatCapture s0) := by
  unfold execDstatCapture
  try dsimp only
  repeat' first
    | with_reducible assumption | with_reducible apply State.settleDebug_kept | with_reducible apply OutKept.next
    | with_reducible apply OutKept.fault | (refine Kept.intro ?_; dsimp only; with_reducible refine Kept.elim ?_)
    | (refine CoreKept.intro ?_; dsimp only; with_reducible refine CoreKept.elim ?_) | dsimp only

theorem execWashDone_kept {core : Nat} {s : State} (h0 : Kept kq kn s) : OutKept kq kn (execWashDone core s) := by
  unfold execWashDone
  try dsimp only
  repeat' first
    | with_reducible assumption | with_reducible apply State.endWash_kept | with_reducible apply State.settleDebug_kept
    | with_reducible apply onCore_kept | with_reducible apply OutKept.next | with_reducible apply OutKept.fault
    | with_reducible apply Kept.core (q := kq) (n := kn)
    | (refine Kept.intro ?_; dsimp only; with_reducible refine Kept.elim ?_)
    | (refine CoreKept.intro ?_; dsimp only; with_reducible refine CoreKept.elim ?_) | exact CoreKept.reset | intro _
    | dsimp only

theorem State.writeTrace_kept {s : State} {r : TraceRec} (h0 : Kept kq kn s) : Kept kq kn (State.writeTrace s r) := by
  unfold State.writeTrace
  try dsimp only
  repeat' first
    | with_reducible assumption | with_reducible apply CoreState.put_kept | with_reducible apply CoreState.bump_kept
    | with_reducible apply CoreState.wrap_kept | with_reducible apply State.put_kept | with_reducible apply State.bump_kept
    | with_reducible apply State.wrap_kept | with_reducible apply State.tierWrite_kept
    | with_reducible apply State.countBytes_kept | split | dsimp only

theorem State.drainTrace_kept {s : State} {p : Nat} (h0 : Kept kq kn s) : Kept kq kn (State.drainTrace s p) := by
  unfold State.drainTrace
  try dsimp only
  repeat' first
    | with_reducible assumption | with_reducible apply State.writeTrace_kept | with_reducible apply State.modCore_kept
    | with_reducible apply Kept.foldl | with_reducible apply Kept.foldl_fst | with_reducible apply CoreKept.foldl
    | with_reducible apply Kept.core (q := kq) (n := kn) | split
    | (refine Kept.intro ?_; dsimp only; with_reducible refine Kept.elim ?_)
    | (refine CoreKept.intro ?_; dsimp only; with_reducible refine CoreKept.elim ?_) | intro _ | dsimp only

theorem execTraceRecord_kept {r : TraceRec} {s : State} (h0 : Kept kq kn s) : OutKept kq kn (execTraceRecord r s) := by
  unfold execTraceRecord
  try dsimp only
  repeat' first
    | with_reducible assumption | with_reducible apply State.setCore_kept | with_reducible apply CoreState.bump_kept
    | with_reducible apply State.bump_kept | with_reducible apply State.drainTrace_kept | with_reducible apply onCore_kept
    | with_reducible apply OutKept.next | with_reducible apply OutKept.fault
    | with_reducible apply Kept.core (q := kq) (n := kn) | split
    | (refine Kept.intro ?_; dsimp only; with_reducible refine Kept.elim ?_)
    | (refine CoreKept.intro ?_; dsimp only; with_reducible refine CoreKept.elim ?_) | exact CoreKept.reset | intro _
    | dsimp only

end Sys2Proof.Machine
end

