-- ==== Sys2Proof/Laws/KeptPlain.lean ====
section
/-! SUPPORT. What the operations of Machine/Plain.lean keep (Laws/Kept.lean). -/

namespace Sys2Proof.Machine

variable {kq : List Instr} {kn : Nat}

theorem execRailFault_kept {logic : Bool} {ledge : Bool} {strand : Bool} {s : State} (h0 : Kept kq kn s) : OutKept kq kn (execRailFault logic ledge strand s) := by
  unfold execRailFault
  try dsimp only
  repeat' first
    | with_reducible assumption | with_reducible apply State.release_kept | with_reducible apply State.changeLevels_kept
    | with_reducible apply OutKept.next | with_reducible apply OutKept.fault
    | with_reducible apply Kept.core (q := kq) (n := kn)
    | (refine Kept.intro ?_; dsimp only; with_reducible refine Kept.elim ?_)
    | (refine CoreKept.intro ?_; dsimp only; with_reducible refine CoreKept.elim ?_) | exact CoreKept.reset | intro _
    | dsimp only

theorem execThrottleReqRise_kept {s : State} (h0 : Kept kq kn s) : OutKept kq kn (execThrottleReqRise s) := by
  unfold execThrottleReqRise
  try dsimp only
  repeat' first
    | with_reducible assumption | with_reducible apply CoreState.put_kept | with_reducible apply State.put_kept
    | with_reducible apply OutKept.next | with_reducible apply OutKept.fault
    | (refine Kept.intro ?_; dsimp only; with_reducible refine Kept.elim ?_)
    | (refine CoreKept.intro ?_; dsimp only; with_reducible refine CoreKept.elim ?_) | dsimp only

theorem execThrottleReqFall_kept {s : State} (h0 : Kept kq kn s) : OutKept kq kn (execThrottleReqFall s) := by
  unfold execThrottleReqFall
  try dsimp only
  repeat' first
    | with_reducible assumption | with_reducible apply CoreState.put_kept | with_reducible apply State.put_kept
    | with_reducible apply OutKept.next | with_reducible apply OutKept.fault
    | (refine Kept.intro ?_; dsimp only; with_reducible refine Kept.elim ?_)
    | (refine CoreKept.intro ?_; dsimp only; with_reducible refine CoreKept.elim ?_) | dsimp only

theorem execHoldover_kept {s : State} (h0 : Kept kq kn s) : OutKept kq kn (execHoldover s) := by
  unfold execHoldover
  try dsimp only
  repeat' first
    | with_reducible assumption | with_reducible apply CoreState.put_kept | with_reducible apply State.put_kept
    | with_reducible apply State.raiseFlag_kept | with_reducible apply OutKept.next | with_reducible apply OutKept.fault
    | with_reducible apply Kept.core (q := kq) (n := kn)
    | (refine Kept.intro ?_; dsimp only; with_reducible refine Kept.elim ?_)
    | (refine CoreKept.intro ?_; dsimp only; with_reducible refine CoreKept.elim ?_) | exact CoreKept.reset | intro _
    | dsimp only

theorem execHoldoverEnd_kept {s : State} (h0 : Kept kq kn s) : OutKept kq kn (execHoldoverEnd s) := by
  unfold execHoldoverEnd
  try dsimp only
  repeat' first
    | with_reducible assumption | with_reducible apply CoreState.put_kept | with_reducible apply State.put_kept
    | with_reducible apply OutKept.next | with_reducible apply OutKept.fault
    | (refine Kept.intro ?_; dsimp only; with_reducible refine Kept.elim ?_)
    | (refine CoreKept.intro ?_; dsimp only; with_reducible refine CoreKept.elim ?_) | dsimp only

theorem execThermSample_kept {temps : List (BitVec 8)} {s : State} (h0 : Kept kq kn s) : OutKept kq kn (execThermSample temps s) := by
  unfold execThermSample
  try dsimp only
  repeat' first
    | with_reducible assumption | with_reducible apply CoreState.put_kept | with_reducible apply State.put_kept
    | with_reducible apply OutKept.next | with_reducible apply OutKept.fault | with_reducible apply Kept.foldl
    | with_reducible apply Kept.foldl_fst | with_reducible apply CoreKept.foldl | with_reducible apply CoreKept.foldl_fst
    | with_reducible apply Kept.foldl_snd | with_reducible apply CoreKept.foldl_snd
    | with_reducible apply Kept.core (q := kq) (n := kn) | split
    | (refine Kept.intro ?_; dsimp only; with_reducible refine Kept.elim ?_)
    | (refine CoreKept.intro ?_; dsimp only; with_reducible refine CoreKept.elim ?_) | exact CoreKept.reset | intro _
    | dsimp only

theorem execPowerUp_kept {logic ledge strand : Bool} {s : State} (h0 : Kept kq kn s) : OutKept kq kn (execPowerUp logic ledge strand s) := by
  unfold execPowerUp
  exact OutKept.next (Kept.intro ⟨h0.queue, h0.fresh, rfl, h0.store, rfl,
    State.wf_setReg _ _ _ (State.wf_setReg _ _ _ (State.wf_setReg _ _ _ rfl)), rfl, fun e he => nomatch he⟩)

end Sys2Proof.Machine
end

