-- ==== Sys2Proof/Laws/KeptExec.lean ====
section
/-! SUPPORT. Every command keeps the canonical form of the machine, leaves the queue alone and never uses a free value twice. -/

namespace Sys2Proof.Machine

variable {kq : List Instr} {kn : Nat}

/-- Whatever the command, a next state is kept. -/
theorem exec_kept (i : Instr) {s : State} (h : Kept kq kn s) : OutKept kq kn (exec i s) := by
  cases i
  case registerWrite => exact execRegisterWrite_kept h
  case railFault => exact execRailFault_kept h
  case throttleReqRise => exact execThrottleReqRise_kept h
  case throttleReqFall => exact execThrottleReqFall_kept h
  case loadStepAssert => exact execLoadStepAssert_kept h
  case loadStepRelease => exact execLoadStepRelease_kept h
  case holdover => exact execHoldover_kept h
  case islandLost => exact execIslandLost_kept h
  case bankArbitration => exact execBankArbitration_kept h
  case basinBankCycle => exact execBasinBankCycle_kept h
  case basinReadData => exact execBasinReadData_kept h
  case chunkRepair => exact execChunkRepair_kept h
  case chunkRepairDone => exact execChunkRepairDone_kept h
  case deltaApply => exact execDeltaApply_kept h
  case ldgEngPush => exact execLdgEngPush_kept h
  case nop => exact execNop_kept h
  case fill => exact execFill_kept h
  case copy => exact execCopy_kept h
  case accOpen => exact execAccOpen_kept h
  case accClose => exact execAccClose_kept h
  case ledgeCmdComplete => exact execLedgeCmdComplete_kept h
  case ledgeCmdTimeout => exact execLedgeCmdTimeout_kept h
  case fold => exact execFold_kept h
  case unfold => exact execUnfold_kept h
  case sweepRow => exact execSweepRow_kept h
  case sweepSteal => exact execSweepSteal_kept h
  case washStart => exact execWashStart_kept h
  case washDone => exact execWashDone_kept h
  case coveEnable => exact execCoveEnable_kept h
  case coveDisable => exact execCoveDisable_kept h
  case relGo => exact execRelGo_kept h
  case tagWrite => exact execTagWrite_kept h
  case peakClr => exact execPeakClr_kept h
  case releaseApply => exact execReleaseApply_kept h
  case harbourGrant => exact execHarbourGrant_kept h
  case grantReceive => exact execGrantReceive_kept h
  case wordIssue => exact execWordIssue_kept h
  case fetchChunk => exact execFetchChunk_kept h
  case start => exact execStart_kept h
  case coreStopped => exact execCoreStopped_kept h
  case operationComplete => exact execOperationComplete_kept h
  case deadlineExpire => exact execDeadlineExpire_kept h
  case contextLossStop => exact execContextLossStop_kept h
  case mark => exact execMark_kept h
  case frameMarkIssue => exact execFrameMarkIssue_kept h
  case expect => exact execExpect_kept h
  case wait => exact execWait_kept h
  case rel => exact execRel_kept h
  case lease => exact execLease_kept h
  case dline => exact execDline_kept h
  case stop => exact execStop_kept h
  case vAdd => exact execVAdd_kept h
  case vSub => exact execVSub_kept h
  case vMul => exact execVMul_kept h
  case vFma => exact execVFma_kept h
  case vMin => exact execVMin_kept h
  case vMax => exact execVMax_kept h
  case vAbs => exact execVAbs_kept h
  case vNeg => exact execVNeg_kept h
  case vCmpEq => exact execVCmpEq_kept h
  case vCmpLt => exact execVCmpLt_kept h
  case vCmpLe => exact execVCmpLe_kept h
  case vSel => exact execVSel_kept h
  case vIota => exact execVIota_kept h
  case vBcast => exact execVBcast_kept h
  case vCvt => exact execVCvt_kept h
  case vExp2 => exact execVExp2_kept h
  case vLog2 => exact execVLog2_kept h
  case vRcp => exact execVRcp_kept h
  case vRsqrt => exact execVRsqrt_kept h
  case vSqrt => exact execVSqrt_kept h
  case vRsum => exact execVRsum_kept h
  case vRmax => exact execVRmax_kept h
  case vRargmax => exact execVRargmax_kept h
  case pass => exact execPass_kept h
  case tileIssue => exact execTileIssue_kept h
  case segmentSwap => exact execSegmentSwap_kept h
  case residueCheck => exact execResidueCheck_kept h
  case tileCommit => exact execTileCommit_kept h
  case drain => exact execDrain_kept h
  case softmaxRecord => exact execSoftmaxRecord_kept h
  case param => exact execParam_kept h
  case vload => exact execVload_kept h
  case tload => exact execTload_kept h
  case dload => exact execDload_kept h
  case vstore => exact execVstore_kept h
  case tstore => exact execTstore_kept h
  case send => exact execSend_kept h
  case eng => exact execEng_kept h
  case add => exact execAdd_kept h
  case sub => exact execSub_kept h
  case and => exact execAnd_kept h
  case or => exact execOr_kept h
  case xor => exact execXor_kept h
  case sll => exact execSll_kept h
  case srl => exact execSrl_kept h
  case sra => exact execSra_kept h
  case slt => exact execSlt_kept h
  case sltu => exact execSltu_kept h
  case mul => exact execMul_kept h
  case mulhu => exact execMulhu_kept h
  case divu => exact execDivu_kept h
  case remu => exact execRemu_kept h
  case addi => exact execAddi_kept h
  case andi => exact execAndi_kept h
  case ori => exact execOri_kept h
  case xori => exact execXori_kept h
  case slli => exact execSlli_kept h
  case srli => exact execSrli_kept h
  case srai => exact execSrai_kept h
  case lui => exact execLui_kept h
  case fadd => exact execFadd_kept h
  case fsub => exact execFsub_kept h
  case fmul => exact execFmul_kept h
  case fdiv => exact execFdiv_kept h
  case fmin => exact execFmin_kept h
  case fmax => exact execFmax_kept h
  case feq => exact execFeq_kept h
  case flt => exact execFlt_kept h
  case fle => exact execFle_kept h
  case fcvtWS => exact execFcvtWS_kept h
  case fcvtSW => exact execFcvtSW_kept h
  case lw => exact execLw_kept h
  case sw => exact execSw_kept h
  case bld => exact execBld_kept h
  case bst => exact execBst_kept h
  case beq => exact execBeq_kept h
  case bne => exact execBne_kept h
  case blt => exact execBlt_kept h
  case bge => exact execBge_kept h
  case bltu => exact execBltu_kept h
  case bgeu => exact execBgeu_kept h
  case jal => exact execJal_kept h
  case jalr => exact execJalr_kept h
  case custom => exact execCustom_kept h
  case tide => exact execTide_kept h
  case trap => exact execTrap_kept h
  case dtreeWrite => exact execDtreeWrite_kept h
  case flitRelease => exact execFlitRelease_kept h
  case consignmentFirstFlit => exact execConsignmentFirstFlit_kept h
  case flitLand => exact execFlitLand_kept h
  case consignmentCommit => exact execConsignmentCommit_kept h
  case roleStale => exact execRoleStale_kept (_found := 0) (_dropped := false) h
  case denied => exact execDenied_kept h
  case revoke => exact execRevoke_kept h
  case revokeAck => exact execRevokeAck_kept h
  case discard => exact execDiscard_kept h
  case openGo => exact execOpenGo_kept h
  case closeGo => exact execCloseGo_kept h
  case bayRoleWrite => exact execBayRoleWrite_kept h
  case straitBlockReceive => exact execStraitBlockReceive_kept h
  case linkEnable => exact execLinkEnable_kept h
  case retrain => exact execRetrain_kept h
  case linkTrainDone => exact execLinkTrainDone_kept h
  case linkLockDone => exact execLinkLockDone_kept h
  case linkStateTimeout => exact execLinkStateTimeout_kept h
  case capabilityRecordSend => exact execCapabilityRecordSend_kept h
  case capabilityRecordReceive => exact execCapabilityRecordReceive_kept h
  case linkUp => exact execLinkUp_kept h
  case linkDown => exact execLinkDown_kept h
  case linkLost => exact execLinkLost_kept h
  case beaconExchange => exact execBeaconExchange_kept h
  case tierRequestIssue => exact execTierRequestIssue_kept h
  case tierReadReply => exact execTierReadReply_kept h
  case tierWriteAck => exact execTierWriteAck_kept h
  case schedArm => exact execSchedArm_kept h
  case schedDisarm => exact execSchedDisarm_kept h
  case stepStart => exact execStepStart_kept h
  case frameEnd => exact execFrameEnd_kept h
  case stepLimit => exact execStepLimit_kept h
  case breachBeaconReceive => exact execBreachBeaconReceive_kept h
  case repeatBeaconReceive => exact execRepeatBeaconReceive_kept h
  case breachRestore => exact execBreachRestore_kept h
  case replayStart => exact execReplayStart_kept h
  case governorSlice => exact execGovernorSlice_kept h
  case mendFence => exact execMendFence_kept h
  case arithParityFault => exact execArithParityFault_kept h
  case mendBeaconReceive => exact execMendBeaconReceive_kept h
  case mendCheck => exact execMendCheck_kept h
  case mendRebuild => exact execMendRebuild_kept h
  case selfTestDone => exact execSelfTestDone_kept h
  case mendRenumber => exact execMendRenumber_kept h
  case mendRestore => exact execMendRestore_kept h
  case restoreTimeout => exact execRestoreTimeout_kept h
  case mendPilotTimeout => exact execMendPilotTimeout_kept h
  case mendResume => exact execMendResume_kept h
  case resumeBeaconReceive => exact execResumeBeaconReceive_kept h
  case linkMend => exact execLinkMend_kept h
  case reserveLost => exact execReserveLost_kept h
  case shoalIslandLost => exact execShoalIslandLost_kept h
  case serviceGo => exact execServiceGo_kept h
  case mirrorLoad => exact execMirrorLoad_kept h
  case mirrorSave => exact execMirrorSave_kept h
  case mirrorDone => exact execMirrorDone_kept h
  case pop => exact execPop_kept h
  case componentRestart => exact execComponentRestart_kept h
  case pilotReset => exact execPilotReset_kept h
  case pilotReload => exact execPilotReload_kept h
  case submissionRead => exact execSubmissionRead_kept h
  case submissionPlace => exact execSubmissionPlace_kept h
  case tilerStart => exact execTilerStart_kept h
  case completionWrite => exact execCompletionWrite_kept h
  case deadlineMissed => exact execDeadlineMissed_kept h
  case casCmd => exact execCasCmd_kept h
  case charge => exact execCharge_kept h
  case tenantRefill => exact execTenantRefill_kept h
  case budgetHeld => exact execBudgetHeld_kept h
  case decodeBatch => exact execDecodeBatch_kept h
  case bayDrain => exact execBayDrain_kept h
  case roleChange => exact execRoleChange_kept h
  case hbrRedrive => exact execHbrRedrive_kept h
  case prefixWalk => exact execPrefixWalk_kept h
  case prefixWalkEnd => exact execPrefixWalkEnd_kept h
  case bayCarveWrite => exact execBayCarveWrite_kept h
  case createGo => exact execCreateGo_kept h
  case retireGo => exact execRetireGo_kept h
  case washGo => exact execWashGo_kept h
  case bayWashDone => exact execBayWashDone_kept h
  case ctxOpen => exact execCtxOpen_kept h
  case ctxClose => exact execCtxClose_kept h
  case freeGo => exact execFreeGo_kept h
  case teardown => exact execTeardown_kept h
  case inc => exact execInc_kept h
  case dec => exact execDec_kept h
  case plnCtxLose => exact execPlnCtxLose_kept h
  case contextLostComplete => exact execContextLostComplete_kept h
  case eventRaise => exact execEventRaise_kept h
  case plnMsix => exact execPlnMsix_kept h
  case imageLoadAttempt => exact execImageLoadAttempt_kept h
  case loadAbandon => exact execLoadAbandon_kept h
  case loadRetry => exact execLoadRetry_kept h
  case startAction => exact execStartAction_kept h
  case lockTimeout => exact execLockTimeout_kept h
  case loadFinish => exact execLoadFinish_kept h
  case prGo => exact execPrGo_kept h
  case prEnd => exact execPrEnd_kept h
  case push => exact execPush_kept h
  case journalAppend => exact execJournalAppend_kept h
  case compact => exact execCompact_kept h
  case thermSample => exact execThermSample_kept h
  case xferNop => exact execXferNop_kept h
  case xferCsrRead => exact execXferCsrRead_kept h
  case xferCsrWrite => exact execXferCsrWrite_kept h
  case xferBasinRead => exact execXferBasinRead_kept h
  case xferBasinWrite => exact execXferBasinWrite_kept h
  case xferPoisonWrite => exact execXferPoisonWrite_kept h
  case xferTierRead => exact execXferTierRead_kept h
  case xferTierWrite => exact execXferTierWrite_kept h
  case xferStoreRead => exact execXferStoreRead_kept h
  case xferStoreWrite => exact execXferStoreWrite_kept h
  case xferStoreErase => exact execXferStoreErase_kept h
  case xferTableRead => exact execXferTableRead_kept h
  case xferTableWrite => exact execXferTableWrite_kept h
  case dstatCapture => exact execDstatCapture_kept h
  case halt => exact execHalt_kept h
  case step => exact execStep_kept h
  case traceRecord => exact execTraceRecord_kept h
  case prtEnable => exact execPrtEnable_kept h
  case powerUp => exact execPowerUp_kept h
  case holdoverEnd => exact execHoldoverEnd_kept h
  case straitBlockSend => exact execStraitBlockSend_kept h
  case serviceDone => exact execServiceDone_kept h

end Sys2Proof.Machine
end

