-- ==== Sys2Proof/Laws/References.lean ====
section
/-! SUPPORT. When a context has no references of the device (R363): no ledger entry in use and no core that runs. -/

namespace Sys2Proof.Machine

/-- The reset value of a ledger word is zero: no row of `plainReset` names one. -/
theorem plainReset_ledger (a : Nat) (h : 0x80000 ≤ a) (h2 : a < 0xc0000) : plainReset a = 0#64 := by
  unfold plainReset
  simp only [show ¬ a = 0x0 by omega, show ¬ a = 0x70a8 by omega, show ¬ a = 0x70c0 by omega, show ¬ a = 0x70c8 by omega,
    show ¬ (0x10100 ≤ a ∧ a < 0x10280) by omega, show ¬ (0x13000 ≤ a ∧ a < 0x13500 ∧ a % 16 = 0) by omega, show ¬ a = 0x16000 by omega,
    show ¬ (0x40000 ≤ a ∧ a < 0x60000 ∧ a % 128 = 0) by omega, show ¬ a = 0xc1000 by omega,
    show ¬ (0x1000000 ≤ a ∧ a < 0x1500000) by omega, if_false]

/-- With nothing written at or above the ledger, every entry is FREE. -/
theorem State.ledState_free (s : State) (i : Nat) (hi : i < 8192) (h : s.regs.all (fun e => decide (e.1 < 0x80000)) = true) : s.ledState i = 0 := by
  have hr : s.reg (F.ledWord0_state.addr i) = 0#64 := by
    rw [← plainReset_ledger (F.ledWord0_state.addr i) (by simp only [RF.addr, F.ledWord0_state]; omega)
      (by simp only [RF.addr, F.ledWord0_state]; omega)]
    rcases Sparse.get_mem (plainReset (F.ledWord0_state.addr i)) s.regs (F.ledWord0_state.addr i) with h1 | h1
    · exact h1
    · have h2 := of_decide_eq_true (List.all_eq_true.mp h _ h1)
      simp only [RF.addr, F.ledWord0_state] at h2
      omega
  simp only [State.ledState, State.get, hr]
  decide

/-- Then no entry belongs to a context. -/
theorem State.entriesOf_nil (s : State) (ctx : Nat) (h : s.regs.all (fun e => decide (e.1 < 0x80000)) = true) : s.entriesOf ctx = [] := by
  simp only [State.entriesOf, List.filter_eq_nil_iff, List.mem_range]
  intro i hi
  simp [s.ledState_free i hi h]

/-- With every listed core stopped, no core runs under a context. -/
theorem State.coresOf_nil (s : State) (ctx : Nat) (h : s.cores.all (fun e => e.2.flag F.corCtl_stopped) = true) : s.coresOf ctx = [] := by
  have hs : ∀ p, (s.core p).flag F.corCtl_stopped = true := by
    intro p
    rcases Sparse.get_mem CoreState.reset s.cores p with h1 | h1
    · rw [State.core, h1]; decide +kernel
    · exact List.all_eq_true.mp h _ h1
  simp [State.coresOf, hs]

/-- A CLOSING context without references of either kind may be freed. -/
theorem State.mayFree_of (s : State) (ctx : Nat) (h : s.regs.all (fun e => decide (e.1 < 0x80000)) = true)
    (hc : s.cores.all (fun e => e.2.flag F.corCtl_stopped) = true) (hs : s.get F.ctxCfg_state ctx = 3) (hh : s.get F.ctxRef_host ctx = 0) :
    s.mayFree ctx = true := by
  simp [State.mayFree, State.devRefs, s.entriesOf_nil ctx h, s.coresOf_nil ctx hc, hs, hh]

end Sys2Proof.Machine
end

