-- ==== Sys2Proof/Laws/State.lean ====
section
/-! SUPPORT. What each update of a state or a core leaves of every field: one lemma for each field and update, by computation. -/

namespace Sys2Proof.Machine

/-! ## Registers read through the other updates -/

@[simp] theorem State.core_setReg (s : State) (a : Nat) (v : Reg64) (p : Nat) : (s.setReg a v).core p = s.core p := rfl
@[simp] theorem State.core_put (s : State) (f : RF) (x i p : Nat) : (s.put f x i).core p = s.core p := rfl
@[simp] theorem State.reg_setCore (s : State) (p : Nat) (c : CoreState) (a : Nat) : (s.setCore p c).reg a = s.reg a := rfl
@[simp] theorem State.reg_modCore (s : State) (p : Nat) (g : CoreState → CoreState) (a : Nat) : (s.modCore p g).reg a = s.reg a := rfl
@[simp] theorem State.get_setCore (s : State) (p : Nat) (c : CoreState) (f : RF) (i : Nat) : (s.setCore p c).get f i = s.get f i := rfl
@[simp] theorem State.get_modCore (s : State) (p : Nat) (g : CoreState → CoreState) (f : RF) (i : Nat) : (s.modCore p g).get f i = s.get f i := rfl
@[simp] theorem State.flag_setCore (s : State) (p : Nat) (c : CoreState) (f : RF) (i : Nat) : (s.setCore p c).flag f i = s.flag f i := rfl
@[simp] theorem State.phys_setCore (s : State) (p : Nat) (c : CoreState) (k : Nat) : (s.setCore p c).phys k = s.phys k := rfl
@[simp] theorem State.usable_setCore (s : State) (p : Nat) (c : CoreState) (k : Nat) : (s.setCore p c).usable k = s.usable k := rfl

/-! ## State.setReg -/

@[simp] theorem State.setReg_now (s : State) (a : Nat) (v : Reg64) : (s.setReg a v).now = s.now := rfl
@[simp] theorem State.setReg_pins (s : State) (a : Nat) (v : Reg64) : (s.setReg a v).pins = s.pins := rfl
@[simp] theorem State.setReg_locked (s : State) (a : Nat) (v : Reg64) : (s.setReg a v).locked = s.locked := rfl
@[simp] theorem State.setReg_mirror (s : State) (a : Nat) (v : Reg64) : (s.setReg a v).mirror = s.mirror := rfl
@[simp] theorem State.setReg_routeMirror (s : State) (a : Nat) (v : Reg64) : (s.setReg a v).routeMirror = s.routeMirror := rfl
@[simp] theorem State.setReg_constBlocks (s : State) (a : Nat) (v : Reg64) : (s.setReg a v).constBlocks = s.constBlocks := rfl
@[simp] theorem State.setReg_writeBlocks (s : State) (a : Nat) (v : Reg64) : (s.setReg a v).writeBlocks = s.writeBlocks := rfl
@[simp] theorem State.setReg_cores (s : State) (a : Nat) (v : Reg64) : (s.setReg a v).cores = s.cores := rfl
@[simp] theorem State.setReg_wins (s : State) (a : Nat) (v : Reg64) : (s.setReg a v).wins = s.wins := rfl
@[simp] theorem State.setReg_gov (s : State) (a : Nat) (v : Reg64) : (s.setReg a v).gov = s.gov := rfl
@[simp] theorem State.setReg_prtGen (s : State) (a : Nat) (v : Reg64) : (s.setReg a v).prtGen = s.prtGen := rfl
@[simp] theorem State.setReg_deltaTurn (s : State) (a : Nat) (v : Reg64) : (s.setReg a v).deltaTurn = s.deltaTurn := rfl
@[simp] theorem State.setReg_bays (s : State) (a : Nat) (v : Reg64) : (s.setReg a v).bays = s.bays := rfl
@[simp] theorem State.setReg_everArmed (s : State) (a : Nat) (v : Reg64) : (s.setReg a v).everArmed = s.everArmed := rfl
@[simp] theorem State.setReg_links (s : State) (a : Nat) (v : Reg64) : (s.setReg a v).links = s.links := rfl
@[simp] theorem State.setReg_conss (s : State) (a : Nat) (v : Reg64) : (s.setReg a v).conss = s.conss := rfl
@[simp] theorem State.setReg_flits (s : State) (a : Nat) (v : Reg64) : (s.setReg a v).flits = s.flits := rfl
@[simp] theorem State.setReg_msgs (s : State) (a : Nat) (v : Reg64) : (s.setReg a v).msgs = s.msgs := rfl
@[simp] theorem State.setReg_revokes (s : State) (a : Nat) (v : Reg64) : (s.setReg a v).revokes = s.revokes := rfl
@[simp] theorem State.setReg_linkUse (s : State) (a : Nat) (v : Reg64) : (s.setReg a v).linkUse = s.linkUse := rfl
@[simp] theorem State.setReg_linkTurn (s : State) (a : Nat) (v : Reg64) : (s.setReg a v).linkTurn = s.linkTurn := rfl
@[simp] theorem State.setReg_streamSent (s : State) (a : Nat) (v : Reg64) : (s.setReg a v).streamSent = s.streamSent := rfl
@[simp] theorem State.setReg_cidNext (s : State) (a : Nat) (v : Reg64) : (s.setReg a v).cidNext = s.cidNext := rfl
@[simp] theorem State.setReg_strPlan (s : State) (a : Nat) (v : Reg64) : (s.setReg a v).strPlan = s.strPlan := rfl
@[simp] theorem State.setReg_dtree (s : State) (a : Nat) (v : Reg64) : (s.setReg a v).dtree = s.dtree := rfl
@[simp] theorem State.setReg_ftab (s : State) (a : Nat) (v : Reg64) : (s.setReg a v).ftab = s.ftab := rfl
@[simp] theorem State.setReg_tier (s : State) (a : Nat) (v : Reg64) : (s.setReg a v).tier = s.tier := rfl
@[simp] theorem State.setReg_tierPoison (s : State) (a : Nat) (v : Reg64) : (s.setReg a v).tierPoison = s.tierPoison := rfl
@[simp] theorem State.setReg_reqs (s : State) (a : Nat) (v : Reg64) : (s.setReg a v).reqs = s.reqs := rfl
@[simp] theorem State.setReg_tierDef (s : State) (a : Nat) (v : Reg64) : (s.setReg a v).tierDef = s.tierDef := rfl
@[simp] theorem State.setReg_tierTurn (s : State) (a : Nat) (v : Reg64) : (s.setReg a v).tierTurn = s.tierTurn := rfl
@[simp] theorem State.setReg_nearAt (s : State) (a : Nat) (v : Reg64) : (s.setReg a v).nearAt = s.nearAt := rfl
@[simp] theorem State.setReg_cxlAt (s : State) (a : Nat) (v : Reg64) : (s.setReg a v).cxlAt = s.cxlAt := rfl
@[simp] theorem State.setReg_cxlTurn (s : State) (a : Nat) (v : Reg64) : (s.setReg a v).cxlTurn = s.cxlTurn := rfl
@[simp] theorem State.setReg_tierBytes (s : State) (a : Nat) (v : Reg64) : (s.setReg a v).tierBytes = s.tierBytes := rfl
@[simp] theorem State.setReg_notices (s : State) (a : Nat) (v : Reg64) : (s.setReg a v).notices = s.notices := rfl
@[simp] theorem State.setReg_heldWrites (s : State) (a : Nat) (v : Reg64) : (s.setReg a v).heldWrites = s.heldWrites := rfl
@[simp] theorem State.setReg_responses (s : State) (a : Nat) (v : Reg64) : (s.setReg a v).responses = s.responses := rfl
@[simp] theorem State.setReg_told (s : State) (a : Nat) (v : Reg64) : (s.setReg a v).told = s.told := rfl
@[simp] theorem State.setReg_lostIslands (s : State) (a : Nat) (v : Reg64) : (s.setReg a v).lostIslands = s.lostIslands := rfl
@[simp] theorem State.setReg_mends (s : State) (a : Nat) (v : Reg64) : (s.setReg a v).mends = s.mends := rfl
@[simp] theorem State.setReg_linkFaults (s : State) (a : Nat) (v : Reg64) : (s.setReg a v).linkFaults = s.linkFaults := rfl
@[simp] theorem State.setReg_failed (s : State) (a : Nat) (v : Reg64) : (s.setReg a v).failed = s.failed := rfl
@[simp] theorem State.setReg_mendSeq (s : State) (a : Nat) (v : Reg64) : (s.setReg a v).mendSeq = s.mendSeq := rfl
@[simp] theorem State.setReg_evDue (s : State) (a : Nat) (v : Reg64) : (s.setReg a v).evDue = s.evDue := rfl
@[simp] theorem State.setReg_evHeld (s : State) (a : Nat) (v : Reg64) : (s.setReg a v).evHeld = s.evHeld := rfl
@[simp] theorem State.setReg_evLap (s : State) (a : Nat) (v : Reg64) : (s.setReg a v).evLap = s.evLap := rfl
@[simp] theorem State.setReg_evLost (s : State) (a : Nat) (v : Reg64) : (s.setReg a v).evLost = s.evLost := rfl
@[simp] theorem State.setReg_msix (s : State) (a : Nat) (v : Reg64) : (s.setReg a v).msix = s.msix := rfl
@[simp] theorem State.setReg_leadIrq (s : State) (a : Nat) (v : Reg64) : (s.setReg a v).leadIrq = s.leadIrq := rfl
@[simp] theorem State.setReg_railHeld (s : State) (a : Nat) (v : Reg64) : (s.setReg a v).railHeld = s.railHeld := rfl
@[simp] theorem State.setReg_inReset (s : State) (a : Nat) (v : Reg64) : (s.setReg a v).inReset = s.inReset := rfl
@[simp] theorem State.setReg_loadStepOff (s : State) (a : Nat) (v : Reg64) : (s.setReg a v).loadStepOff = s.loadStepOff := rfl
@[simp] theorem State.setReg_pilots (s : State) (a : Nat) (v : Reg64) : (s.setReg a v).pilots = s.pilots := rfl
@[simp] theorem State.setReg_subs (s : State) (a : Nat) (v : Reg64) : (s.setReg a v).subs = s.subs := rfl
@[simp] theorem State.setReg_cqLap (s : State) (a : Nat) (v : Reg64) : (s.setReg a v).cqLap = s.cqLap := rfl
@[simp] theorem State.setReg_arrivals (s : State) (a : Nat) (v : Reg64) : (s.setReg a v).arrivals = s.arrivals := rfl
@[simp] theorem State.setReg_mirrorOp (s : State) (a : Nat) (v : Reg64) : (s.setReg a v).mirrorOp = s.mirrorOp := rfl
@[simp] theorem State.setReg_redrive (s : State) (a : Nat) (v : Reg64) : (s.setReg a v).redrive = s.redrive := rfl
@[simp] theorem State.setReg_channels (s : State) (a : Nat) (v : Reg64) : (s.setReg a v).channels = s.channels := rfl
@[simp] theorem State.setReg_leadCredit (s : State) (a : Nat) (v : Reg64) : (s.setReg a v).leadCredit = s.leadCredit := rfl
@[simp] theorem State.setReg_ctxWashed (s : State) (a : Nat) (v : Reg64) : (s.setReg a v).ctxWashed = s.ctxWashed := rfl
@[simp] theorem State.setReg_tilers (s : State) (a : Nat) (v : Reg64) : (s.setReg a v).tilers = s.tilers := rfl
@[simp] theorem State.setReg_teardowns (s : State) (a : Nat) (v : Reg64) : (s.setReg a v).teardowns = s.teardowns := rfl
@[simp] theorem State.setReg_fwPush (s : State) (a : Nat) (v : Reg64) : (s.setReg a v).fwPush = s.fwPush := rfl
@[simp] theorem State.setReg_sram (s : State) (a : Nat) (v : Reg64) : (s.setReg a v).sram = s.sram := rfl
@[simp] theorem State.setReg_store (s : State) (a : Nat) (v : Reg64) : (s.setReg a v).store = s.store := rfl
@[simp] theorem State.setReg_storeBad (s : State) (a : Nat) (v : Reg64) : (s.setReg a v).storeBad = s.storeBad := rfl
@[simp] theorem State.setReg_loader (s : State) (a : Nat) (v : Reg64) : (s.setReg a v).loader = s.loader := rfl
@[simp] theorem State.setReg_header (s : State) (a : Nat) (v : Reg64) : (s.setReg a v).header = s.header := rfl
@[simp] theorem State.setReg_fabric (s : State) (a : Nat) (v : Reg64) : (s.setReg a v).fabric = s.fabric := rfl
@[simp] theorem State.setReg_coreCfg (s : State) (a : Nat) (v : Reg64) : (s.setReg a v).coreCfg = s.coreCfg := rfl
@[simp] theorem State.setReg_strandCfg (s : State) (a : Nat) (v : Reg64) : (s.setReg a v).strandCfg = s.strandCfg := rfl
@[simp] theorem State.setReg_pr (s : State) (a : Nat) (v : Reg64) : (s.setReg a v).pr = s.pr := rfl
@[simp] theorem State.setReg_appends (s : State) (a : Nat) (v : Reg64) : (s.setReg a v).appends = s.appends := rfl
@[simp] theorem State.setReg_journalGen (s : State) (a : Nat) (v : Reg64) : (s.setReg a v).journalGen = s.journalGen := rfl
@[simp] theorem State.setReg_dbg (s : State) (a : Nat) (v : Reg64) : (s.setReg a v).dbg = s.dbg := rfl
@[simp] theorem State.setReg_cyc (s : State) (a : Nat) (v : Reg64) : (s.setReg a v).cyc = s.cyc := rfl
@[simp] theorem State.setReg_fresh (s : State) (a : Nat) (v : Reg64) : (s.setReg a v).fresh = s.fresh := rfl
@[simp] theorem State.setReg_pending (s : State) (a : Nat) (v : Reg64) : (s.setReg a v).pending = s.pending := rfl

/-! ## State.put -/

@[simp] theorem State.put_now (s : State) (f : RF) (x i : Nat) : (s.put f x i).now = s.now := rfl
@[simp] theorem State.put_pins (s : State) (f : RF) (x i : Nat) : (s.put f x i).pins = s.pins := rfl
@[simp] theorem State.put_locked (s : State) (f : RF) (x i : Nat) : (s.put f x i).locked = s.locked := rfl
@[simp] theorem State.put_mirror (s : State) (f : RF) (x i : Nat) : (s.put f x i).mirror = s.mirror := rfl
@[simp] theorem State.put_routeMirror (s : State) (f : RF) (x i : Nat) : (s.put f x i).routeMirror = s.routeMirror := rfl
@[simp] theorem State.put_constBlocks (s : State) (f : RF) (x i : Nat) : (s.put f x i).constBlocks = s.constBlocks := rfl
@[simp] theorem State.put_writeBlocks (s : State) (f : RF) (x i : Nat) : (s.put f x i).writeBlocks = s.writeBlocks := rfl
@[simp] theorem State.put_cores (s : State) (f : RF) (x i : Nat) : (s.put f x i).cores = s.cores := rfl
@[simp] theorem State.put_wins (s : State) (f : RF) (x i : Nat) : (s.put f x i).wins = s.wins := rfl
@[simp] theorem State.put_gov (s : State) (f : RF) (x i : Nat) : (s.put f x i).gov = s.gov := rfl
@[simp] theorem State.put_prtGen (s : State) (f : RF) (x i : Nat) : (s.put f x i).prtGen = s.prtGen := rfl
@[simp] theorem State.put_deltaTurn (s : State) (f : RF) (x i : Nat) : (s.put f x i).deltaTurn = s.deltaTurn := rfl
@[simp] theorem State.put_bays (s : State) (f : RF) (x i : Nat) : (s.put f x i).bays = s.bays := rfl
@[simp] theorem State.put_everArmed (s : State) (f : RF) (x i : Nat) : (s.put f x i).everArmed = s.everArmed := rfl
@[simp] theorem State.put_links (s : State) (f : RF) (x i : Nat) : (s.put f x i).links = s.links := rfl
@[simp] theorem State.put_conss (s : State) (f : RF) (x i : Nat) : (s.put f x i).conss = s.conss := rfl
@[simp] theorem State.put_flits (s : State) (f : RF) (x i : Nat) : (s.put f x i).flits = s.flits := rfl
@[simp] theorem State.put_msgs (s : State) (f : RF) (x i : Nat) : (s.put f x i).msgs = s.msgs := rfl
@[simp] theorem State.put_revokes (s : State) (f : RF) (x i : Nat) : (s.put f x i).revokes = s.revokes := rfl
@[simp] theorem State.put_linkUse (s : State) (f : RF) (x i : Nat) : (s.put f x i).linkUse = s.linkUse := rfl
@[simp] theorem State.put_linkTurn (s : State) (f : RF) (x i : Nat) : (s.put f x i).linkTurn = s.linkTurn := rfl
@[simp] theorem State.put_streamSent (s : State) (f : RF) (x i : Nat) : (s.put f x i).streamSent = s.streamSent := rfl
@[simp] theorem State.put_cidNext (s : State) (f : RF) (x i : Nat) : (s.put f x i).cidNext = s.cidNext := rfl
@[simp] theorem State.put_strPlan (s : State) (f : RF) (x i : Nat) : (s.put f x i).strPlan = s.strPlan := rfl
@[simp] theorem State.put_dtree (s : State) (f : RF) (x i : Nat) : (s.put f x i).dtree = s.dtree := rfl
@[simp] theorem State.put_ftab (s : State) (f : RF) (x i : Nat) : (s.put f x i).ftab = s.ftab := rfl
@[simp] theorem State.put_tier (s : State) (f : RF) (x i : Nat) : (s.put f x i).tier = s.tier := rfl
@[simp] theorem State.put_tierPoison (s : State) (f : RF) (x i : Nat) : (s.put f x i).tierPoison = s.tierPoison := rfl
@[simp] theorem State.put_reqs (s : State) (f : RF) (x i : Nat) : (s.put f x i).reqs = s.reqs := rfl
@[simp] theorem State.put_tierDef (s : State) (f : RF) (x i : Nat) : (s.put f x i).tierDef = s.tierDef := rfl
@[simp] theorem State.put_tierTurn (s : State) (f : RF) (x i : Nat) : (s.put f x i).tierTurn = s.tierTurn := rfl
@[simp] theorem State.put_nearAt (s : State) (f : RF) (x i : Nat) : (s.put f x i).nearAt = s.nearAt := rfl
@[simp] theorem State.put_cxlAt (s : State) (f : RF) (x i : Nat) : (s.put f x i).cxlAt = s.cxlAt := rfl
@[simp] theorem State.put_cxlTurn (s : State) (f : RF) (x i : Nat) : (s.put f x i).cxlTurn = s.cxlTurn := rfl
@[simp] theorem State.put_tierBytes (s : State) (f : RF) (x i : Nat) : (s.put f x i).tierBytes = s.tierBytes := rfl
@[simp] theorem State.put_notices (s : State) (f : RF) (x i : Nat) : (s.put f x i).notices = s.notices := rfl
@[simp] theorem State.put_heldWrites (s : State) (f : RF) (x i : Nat) : (s.put f x i).heldWrites = s.heldWrites := rfl
@[simp] theorem State.put_responses (s : State) (f : RF) (x i : Nat) : (s.put f x i).responses = s.responses := rfl
@[simp] theorem State.put_told (s : State) (f : RF) (x i : Nat) : (s.put f x i).told = s.told := rfl
@[simp] theorem State.put_lostIslands (s : State) (f : RF) (x i : Nat) : (s.put f x i).lostIslands = s.lostIslands := rfl
@[simp] theorem State.put_mends (s : State) (f : RF) (x i : Nat) : (s.put f x i).mends = s.mends := rfl
@[simp] theorem State.put_linkFaults (s : State) (f : RF) (x i : Nat) : (s.put f x i).linkFaults = s.linkFaults := rfl
@[simp] theorem State.put_failed (s : State) (f : RF) (x i : Nat) : (s.put f x i).failed = s.failed := rfl
@[simp] theorem State.put_mendSeq (s : State) (f : RF) (x i : Nat) : (s.put f x i).mendSeq = s.mendSeq := rfl
@[simp] theorem State.put_evDue (s : State) (f : RF) (x i : Nat) : (s.put f x i).evDue = s.evDue := rfl
@[simp] theorem State.put_evHeld (s : State) (f : RF) (x i : Nat) : (s.put f x i).evHeld = s.evHeld := rfl
@[simp] theorem State.put_evLap (s : State) (f : RF) (x i : Nat) : (s.put f x i).evLap = s.evLap := rfl
@[simp] theorem State.put_evLost (s : State) (f : RF) (x i : Nat) : (s.put f x i).evLost = s.evLost := rfl
@[simp] theorem State.put_msix (s : State) (f : RF) (x i : Nat) : (s.put f x i).msix = s.msix := rfl
@[simp] theorem State.put_leadIrq (s : State) (f : RF) (x i : Nat) : (s.put f x i).leadIrq = s.leadIrq := rfl
@[simp] theorem State.put_railHeld (s : State) (f : RF) (x i : Nat) : (s.put f x i).railHeld = s.railHeld := rfl
@[simp] theorem State.put_inReset (s : State) (f : RF) (x i : Nat) : (s.put f x i).inReset = s.inReset := rfl
@[simp] theorem State.put_loadStepOff (s : State) (f : RF) (x i : Nat) : (s.put f x i).loadStepOff = s.loadStepOff := rfl
@[simp] theorem State.put_pilots (s : State) (f : RF) (x i : Nat) : (s.put f x i).pilots = s.pilots := rfl
@[simp] theorem State.put_subs (s : State) (f : RF) (x i : Nat) : (s.put f x i).subs = s.subs := rfl
@[simp] theorem State.put_cqLap (s : State) (f : RF) (x i : Nat) : (s.put f x i).cqLap = s.cqLap := rfl
@[simp] theorem State.put_arrivals (s : State) (f : RF) (x i : Nat) : (s.put f x i).arrivals = s.arrivals := rfl
@[simp] theorem State.put_mirrorOp (s : State) (f : RF) (x i : Nat) : (s.put f x i).mirrorOp = s.mirrorOp := rfl
@[simp] theorem State.put_redrive (s : State) (f : RF) (x i : Nat) : (s.put f x i).redrive = s.redrive := rfl
@[simp] theorem State.put_channels (s : State) (f : RF) (x i : Nat) : (s.put f x i).channels = s.channels := rfl
@[simp] theorem State.put_leadCredit (s : State) (f : RF) (x i : Nat) : (s.put f x i).leadCredit = s.leadCredit := rfl
@[simp] theorem State.put_ctxWashed (s : State) (f : RF) (x i : Nat) : (s.put f x i).ctxWashed = s.ctxWashed := rfl
@[simp] theorem State.put_tilers (s : State) (f : RF) (x i : Nat) : (s.put f x i).tilers = s.tilers := rfl
@[simp] theorem State.put_teardowns (s : State) (f : RF) (x i : Nat) : (s.put f x i).teardowns = s.teardowns := rfl
@[simp] theorem State.put_fwPush (s : State) (f : RF) (x i : Nat) : (s.put f x i).fwPush = s.fwPush := rfl
@[simp] theorem State.put_sram (s : State) (f : RF) (x i : Nat) : (s.put f x i).sram = s.sram := rfl
@[simp] theorem State.put_store (s : State) (f : RF) (x i : Nat) : (s.put f x i).store = s.store := rfl
@[simp] theorem State.put_storeBad (s : State) (f : RF) (x i : Nat) : (s.put f x i).storeBad = s.storeBad := rfl
@[simp] theorem State.put_loader (s : State) (f : RF) (x i : Nat) : (s.put f x i).loader = s.loader := rfl
@[simp] theorem State.put_header (s : State) (f : RF) (x i : Nat) : (s.put f x i).header = s.header := rfl
@[simp] theorem State.put_fabric (s : State) (f : RF) (x i : Nat) : (s.put f x i).fabric = s.fabric := rfl
@[simp] theorem State.put_coreCfg (s : State) (f : RF) (x i : Nat) : (s.put f x i).coreCfg = s.coreCfg := rfl
@[simp] theorem State.put_strandCfg (s : State) (f : RF) (x i : Nat) : (s.put f x i).strandCfg = s.strandCfg := rfl
@[simp] theorem State.put_pr (s : State) (f : RF) (x i : Nat) : (s.put f x i).pr = s.pr := rfl
@[simp] theorem State.put_appends (s : State) (f : RF) (x i : Nat) : (s.put f x i).appends = s.appends := rfl
@[simp] theorem State.put_journalGen (s : State) (f : RF) (x i : Nat) : (s.put f x i).journalGen = s.journalGen := rfl
@[simp] theorem State.put_dbg (s : State) (f : RF) (x i : Nat) : (s.put f x i).dbg = s.dbg := rfl
@[simp] theorem State.put_cyc (s : State) (f : RF) (x i : Nat) : (s.put f x i).cyc = s.cyc := rfl
@[simp] theorem State.put_fresh (s : State) (f : RF) (x i : Nat) : (s.put f x i).fresh = s.fresh := rfl
@[simp] theorem State.put_pending (s : State) (f : RF) (x i : Nat) : (s.put f x i).pending = s.pending := rfl

/-! ## State.setCore -/

@[simp] theorem State.setCore_now (s : State) (p : Nat) (c : CoreState) : (s.setCore p c).now = s.now := rfl
@[simp] theorem State.setCore_pins (s : State) (p : Nat) (c : CoreState) : (s.setCore p c).pins = s.pins := rfl
@[simp] theorem State.setCore_regs (s : State) (p : Nat) (c : CoreState) : (s.setCore p c).regs = s.regs := rfl
@[simp] theorem State.setCore_locked (s : State) (p : Nat) (c : CoreState) : (s.setCore p c).locked = s.locked := rfl
@[simp] theorem State.setCore_mirror (s : State) (p : Nat) (c : CoreState) : (s.setCore p c).mirror = s.mirror := rfl
@[simp] theorem State.setCore_routeMirror (s : State) (p : Nat) (c : CoreState) : (s.setCore p c).routeMirror = s.routeMirror := rfl
@[simp] theorem State.setCore_constBlocks (s : State) (p : Nat) (c : CoreState) : (s.setCore p c).constBlocks = s.constBlocks := rfl
@[simp] theorem State.setCore_writeBlocks (s : State) (p : Nat) (c : CoreState) : (s.setCore p c).writeBlocks = s.writeBlocks := rfl
@[simp] theorem State.setCore_wins (s : State) (p : Nat) (c : CoreState) : (s.setCore p c).wins = s.wins := rfl
@[simp] theorem State.setCore_gov (s : State) (p : Nat) (c : CoreState) : (s.setCore p c).gov = s.gov := rfl
@[simp] theorem State.setCore_prtGen (s : State) (p : Nat) (c : CoreState) : (s.setCore p c).prtGen = s.prtGen := rfl
@[simp] theorem State.setCore_deltaTurn (s : State) (p : Nat) (c : CoreState) : (s.setCore p c).deltaTurn = s.deltaTurn := rfl
@[simp] theorem State.setCore_bays (s : State) (p : Nat) (c : CoreState) : (s.setCore p c).bays = s.bays := rfl
@[simp] theorem State.setCore_everArmed (s : State) (p : Nat) (c : CoreState) : (s.setCore p c).everArmed = s.everArmed := rfl
@[simp] theorem State.setCore_links (s : State) (p : Nat) (c : CoreState) : (s.setCore p c).links = s.links := rfl
@[simp] theorem State.setCore_conss (s : State) (p : Nat) (c : CoreState) : (s.setCore p c).conss = s.conss := rfl
@[simp] theorem State.setCore_flits (s : State) (p : Nat) (c : CoreState) : (s.setCore p c).flits = s.flits := rfl
@[simp] theorem State.setCore_msgs (s : State) (p : Nat) (c : CoreState) : (s.setCore p c).msgs = s.msgs := rfl
@[simp] theorem State.setCore_revokes (s : State) (p : Nat) (c : CoreState) : (s.setCore p c).revokes = s.revokes := rfl
@[simp] theorem State.setCore_linkUse (s : State) (p : Nat) (c : CoreState) : (s.setCore p c).linkUse = s.linkUse := rfl
@[simp] theorem State.setCore_linkTurn (s : State) (p : Nat) (c : CoreState) : (s.setCore p c).linkTurn = s.linkTurn := rfl
@[simp] theorem State.setCore_streamSent (s : State) (p : Nat) (c : CoreState) : (s.setCore p c).streamSent = s.streamSent := rfl
@[simp] theorem State.setCore_cidNext (s : State) (p : Nat) (c : CoreState) : (s.setCore p c).cidNext = s.cidNext := rfl
@[simp] theorem State.setCore_strPlan (s : State) (p : Nat) (c : CoreState) : (s.setCore p c).strPlan = s.strPlan := rfl
@[simp] theorem State.setCore_dtree (s : State) (p : Nat) (c : CoreState) : (s.setCore p c).dtree = s.dtree := rfl
@[simp] theorem State.setCore_ftab (s : State) (p : Nat) (c : CoreState) : (s.setCore p c).ftab = s.ftab := rfl
@[simp] theorem State.setCore_tier (s : State) (p : Nat) (c : CoreState) : (s.setCore p c).tier = s.tier := rfl
@[simp] theorem State.setCore_tierPoison (s : State) (p : Nat) (c : CoreState) : (s.setCore p c).tierPoison = s.tierPoison := rfl
@[simp] theorem State.setCore_reqs (s : State) (p : Nat) (c : CoreState) : (s.setCore p c).reqs = s.reqs := rfl
@[simp] theorem State.setCore_tierDef (s : State) (p : Nat) (c : CoreState) : (s.setCore p c).tierDef = s.tierDef := rfl
@[simp] theorem State.setCore_tierTurn (s : State) (p : Nat) (c : CoreState) : (s.setCore p c).tierTurn = s.tierTurn := rfl
@[simp] theorem State.setCore_nearAt (s : State) (p : Nat) (c : CoreState) : (s.setCore p c).nearAt = s.nearAt := rfl
@[simp] theorem State.setCore_cxlAt (s : State) (p : Nat) (c : CoreState) : (s.setCore p c).cxlAt = s.cxlAt := rfl
@[simp] theorem State.setCore_cxlTurn (s : State) (p : Nat) (c : CoreState) : (s.setCore p c).cxlTurn = s.cxlTurn := rfl
@[simp] theorem State.setCore_tierBytes (s : State) (p : Nat) (c : CoreState) : (s.setCore p c).tierBytes = s.tierBytes := rfl
@[simp] theorem State.setCore_notices (s : State) (p : Nat) (c : CoreState) : (s.setCore p c).notices = s.notices := rfl
@[simp] theorem State.setCore_heldWrites (s : State) (p : Nat) (c : CoreState) : (s.setCore p c).heldWrites = s.heldWrites := rfl
@[simp] theorem State.setCore_responses (s : State) (p : Nat) (c : CoreState) : (s.setCore p c).responses = s.responses := rfl
@[simp] theorem State.setCore_told (s : State) (p : Nat) (c : CoreState) : (s.setCore p c).told = s.told := rfl
@[simp] theorem State.setCore_lostIslands (s : State) (p : Nat) (c : CoreState) : (s.setCore p c).lostIslands = s.lostIslands := rfl
@[simp] theorem State.setCore_mends (s : State) (p : Nat) (c : CoreState) : (s.setCore p c).mends = s.mends := rfl
@[simp] theorem State.setCore_linkFaults (s : State) (p : Nat) (c : CoreState) : (s.setCore p c).linkFaults = s.linkFaults := rfl
@[simp] theorem State.setCore_failed (s : State) (p : Nat) (c : CoreState) : (s.setCore p c).failed = s.failed := rfl
@[simp] theorem State.setCore_mendSeq (s : State) (p : Nat) (c : CoreState) : (s.setCore p c).mendSeq = s.mendSeq := rfl
@[simp] theorem State.setCore_evDue (s : State) (p : Nat) (c : CoreState) : (s.setCore p c).evDue = s.evDue := rfl
@[simp] theorem State.setCore_evHeld (s : State) (p : Nat) (c : CoreState) : (s.setCore p c).evHeld = s.evHeld := rfl
@[simp] theorem State.setCore_evLap (s : State) (p : Nat) (c : CoreState) : (s.setCore p c).evLap = s.evLap := rfl
@[simp] theorem State.setCore_evLost (s : State) (p : Nat) (c : CoreState) : (s.setCore p c).evLost = s.evLost := rfl
@[simp] theorem State.setCore_msix (s : State) (p : Nat) (c : CoreState) : (s.setCore p c).msix = s.msix := rfl
@[simp] theorem State.setCore_leadIrq (s : State) (p : Nat) (c : CoreState) : (s.setCore p c).leadIrq = s.leadIrq := rfl
@[simp] theorem State.setCore_railHeld (s : State) (p : Nat) (c : CoreState) : (s.setCore p c).railHeld = s.railHeld := rfl
@[simp] theorem State.setCore_inReset (s : State) (p : Nat) (c : CoreState) : (s.setCore p c).inReset = s.inReset := rfl
@[simp] theorem State.setCore_loadStepOff (s : State) (p : Nat) (c : CoreState) : (s.setCore p c).loadStepOff = s.loadStepOff := rfl
@[simp] theorem State.setCore_pilots (s : State) (p : Nat) (c : CoreState) : (s.setCore p c).pilots = s.pilots := rfl
@[simp] theorem State.setCore_subs (s : State) (p : Nat) (c : CoreState) : (s.setCore p c).subs = s.subs := rfl
@[simp] theorem State.setCore_cqLap (s : State) (p : Nat) (c : CoreState) : (s.setCore p c).cqLap = s.cqLap := rfl
@[simp] theorem State.setCore_arrivals (s : State) (p : Nat) (c : CoreState) : (s.setCore p c).arrivals = s.arrivals := rfl
@[simp] theorem State.setCore_mirrorOp (s : State) (p : Nat) (c : CoreState) : (s.setCore p c).mirrorOp = s.mirrorOp := rfl
@[simp] theorem State.setCore_redrive (s : State) (p : Nat) (c : CoreState) : (s.setCore p c).redrive = s.redrive := rfl
@[simp] theorem State.setCore_channels (s : State) (p : Nat) (c : CoreState) : (s.setCore p c).channels = s.channels := rfl
@[simp] theorem State.setCore_leadCredit (s : State) (p : Nat) (c : CoreState) : (s.setCore p c).leadCredit = s.leadCredit := rfl
@[simp] theorem State.setCore_ctxWashed (s : State) (p : Nat) (c : CoreState) : (s.setCore p c).ctxWashed = s.ctxWashed := rfl
@[simp] theorem State.setCore_tilers (s : State) (p : Nat) (c : CoreState) : (s.setCore p c).tilers = s.tilers := rfl
@[simp] theorem State.setCore_teardowns (s : State) (p : Nat) (c : CoreState) : (s.setCore p c).teardowns = s.teardowns := rfl
@[simp] theorem State.setCore_fwPush (s : State) (p : Nat) (c : CoreState) : (s.setCore p c).fwPush = s.fwPush := rfl
@[simp] theorem State.setCore_sram (s : State) (p : Nat) (c : CoreState) : (s.setCore p c).sram = s.sram := rfl
@[simp] theorem State.setCore_store (s : State) (p : Nat) (c : CoreState) : (s.setCore p c).store = s.store := rfl
@[simp] theorem State.setCore_storeBad (s : State) (p : Nat) (c : CoreState) : (s.setCore p c).storeBad = s.storeBad := rfl
@[simp] theorem State.setCore_loader (s : State) (p : Nat) (c : CoreState) : (s.setCore p c).loader = s.loader := rfl
@[simp] theorem State.setCore_header (s : State) (p : Nat) (c : CoreState) : (s.setCore p c).header = s.header := rfl
@[simp] theorem State.setCore_fabric (s : State) (p : Nat) (c : CoreState) : (s.setCore p c).fabric = s.fabric := rfl
@[simp] theorem State.setCore_coreCfg (s : State) (p : Nat) (c : CoreState) : (s.setCore p c).coreCfg = s.coreCfg := rfl
@[simp] theorem State.setCore_strandCfg (s : State) (p : Nat) (c : CoreState) : (s.setCore p c).strandCfg = s.strandCfg := rfl
@[simp] theorem State.setCore_pr (s : State) (p : Nat) (c : CoreState) : (s.setCore p c).pr = s.pr := rfl
@[simp] theorem State.setCore_appends (s : State) (p : Nat) (c : CoreState) : (s.setCore p c).appends = s.appends := rfl
@[simp] theorem State.setCore_journalGen (s : State) (p : Nat) (c : CoreState) : (s.setCore p c).journalGen = s.journalGen := rfl
@[simp] theorem State.setCore_dbg (s : State) (p : Nat) (c : CoreState) : (s.setCore p c).dbg = s.dbg := rfl
@[simp] theorem State.setCore_cyc (s : State) (p : Nat) (c : CoreState) : (s.setCore p c).cyc = s.cyc := rfl
@[simp] theorem State.setCore_fresh (s : State) (p : Nat) (c : CoreState) : (s.setCore p c).fresh = s.fresh := rfl
@[simp] theorem State.setCore_pending (s : State) (p : Nat) (c : CoreState) : (s.setCore p c).pending = s.pending := rfl

/-! ## State.modCore -/

@[simp] theorem State.modCore_now (s : State) (p : Nat) (g : CoreState → CoreState) : (s.modCore p g).now = s.now := rfl
@[simp] theorem State.modCore_pins (s : State) (p : Nat) (g : CoreState → CoreState) : (s.modCore p g).pins = s.pins := rfl
@[simp] theorem State.modCore_regs (s : State) (p : Nat) (g : CoreState → CoreState) : (s.modCore p g).regs = s.regs := rfl
@[simp] theorem State.modCore_locked (s : State) (p : Nat) (g : CoreState → CoreState) : (s.modCore p g).locked = s.locked := rfl
@[simp] theorem State.modCore_mirror (s : State) (p : Nat) (g : CoreState → CoreState) : (s.modCore p g).mirror = s.mirror := rfl
@[simp] theorem State.modCore_routeMirror (s : State) (p : Nat) (g : CoreState → CoreState) : (s.modCore p g).routeMirror = s.routeMirror := rfl
@[simp] theorem State.modCore_constBlocks (s : State) (p : Nat) (g : CoreState → CoreState) : (s.modCore p g).constBlocks = s.constBlocks := rfl
@[simp] theorem State.modCore_writeBlocks (s : State) (p : Nat) (g : CoreState → CoreState) : (s.modCore p g).writeBlocks = s.writeBlocks := rfl
@[simp] theorem State.modCore_wins (s : State) (p : Nat) (g : CoreState → CoreState) : (s.modCore p g).wins = s.wins := rfl
@[simp] theorem State.modCore_gov (s : State) (p : Nat) (g : CoreState → CoreState) : (s.modCore p g).gov = s.gov := rfl
@[simp] theorem State.modCore_prtGen (s : State) (p : Nat) (g : CoreState → CoreState) : (s.modCore p g).prtGen = s.prtGen := rfl
@[simp] theorem State.modCore_deltaTurn (s : State) (p : Nat) (g : CoreState → CoreState) : (s.modCore p g).deltaTurn = s.deltaTurn := rfl
@[simp] theorem State.modCore_bays (s : State) (p : Nat) (g : CoreState → CoreState) : (s.modCore p g).bays = s.bays := rfl
@[simp] theorem State.modCore_everArmed (s : State) (p : Nat) (g : CoreState → CoreState) : (s.modCore p g).everArmed = s.everArmed := rfl
@[simp] theorem State.modCore_links (s : State) (p : Nat) (g : CoreState → CoreState) : (s.modCore p g).links = s.links := rfl
@[simp] theorem State.modCore_conss (s : State) (p : Nat) (g : CoreState → CoreState) : (s.modCore p g).conss = s.conss := rfl
@[simp] theorem State.modCore_flits (s : State) (p : Nat) (g : CoreState → CoreState) : (s.modCore p g).flits = s.flits := rfl
@[simp] theorem State.modCore_msgs (s : State) (p : Nat) (g : CoreState → CoreState) : (s.modCore p g).msgs = s.msgs := rfl
@[simp] theorem State.modCore_revokes (s : State) (p : Nat) (g : CoreState → CoreState) : (s.modCore p g).revokes = s.revokes := rfl
@[simp] theorem State.modCore_linkUse (s : State) (p : Nat) (g : CoreState → CoreState) : (s.modCore p g).linkUse = s.linkUse := rfl
@[simp] theorem State.modCore_linkTurn (s : State) (p : Nat) (g : CoreState → CoreState) : (s.modCore p g).linkTurn = s.linkTurn := rfl
@[simp] theorem State.modCore_streamSent (s : State) (p : Nat) (g : CoreState → CoreState) : (s.modCore p g).streamSent = s.streamSent := rfl
@[simp] theorem State.modCore_cidNext (s : State) (p : Nat) (g : CoreState → CoreState) : (s.modCore p g).cidNext = s.cidNext := rfl
@[simp] theorem State.modCore_strPlan (s : State) (p : Nat) (g : CoreState → CoreState) : (s.modCore p g).strPlan = s.strPlan := rfl
@[simp] theorem State.modCore_dtree (s : State) (p : Nat) (g : CoreState → CoreState) : (s.modCore p g).dtree = s.dtree := rfl
@[simp] theorem State.modCore_ftab (s : State) (p : Nat) (g : CoreState → CoreState) : (s.modCore p g).ftab = s.ftab := rfl
@[simp] theorem State.modCore_tier (s : State) (p : Nat) (g : CoreState → CoreState) : (s.modCore p g).tier = s.tier := rfl
@[simp] theorem State.modCore_tierPoison (s : State) (p : Nat) (g : CoreState → CoreState) : (s.modCore p g).tierPoison = s.tierPoison := rfl
@[simp] theorem State.modCore_reqs (s : State) (p : Nat) (g : CoreState → CoreState) : (s.modCore p g).reqs = s.reqs := rfl
@[simp] theorem State.modCore_tierDef (s : State) (p : Nat) (g : CoreState → CoreState) : (s.modCore p g).tierDef = s.tierDef := rfl
@[simp] theorem State.modCore_tierTurn (s : State) (p : Nat) (g : CoreState → CoreState) : (s.modCore p g).tierTurn = s.tierTurn := rfl
@[simp] theorem State.modCore_nearAt (s : State) (p : Nat) (g : CoreState → CoreState) : (s.modCore p g).nearAt = s.nearAt := rfl
@[simp] theorem State.modCore_cxlAt (s : State) (p : Nat) (g : CoreState → CoreState) : (s.modCore p g).cxlAt = s.cxlAt := rfl
@[simp] theorem State.modCore_cxlTurn (s : State) (p : Nat) (g : CoreState → CoreState) : (s.modCore p g).cxlTurn = s.cxlTurn := rfl
@[simp] theorem State.modCore_tierBytes (s : State) (p : Nat) (g : CoreState → CoreState) : (s.modCore p g).tierBytes = s.tierBytes := rfl
@[simp] theorem State.modCore_notices (s : State) (p : Nat) (g : CoreState → CoreState) : (s.modCore p g).notices = s.notices := rfl
@[simp] theorem State.modCore_heldWrites (s : State) (p : Nat) (g : CoreState → CoreState) : (s.modCore p g).heldWrites = s.heldWrites := rfl
@[simp] theorem State.modCore_responses (s : State) (p : Nat) (g : CoreState → CoreState) : (s.modCore p g).responses = s.responses := rfl
@[simp] theorem State.modCore_told (s : State) (p : Nat) (g : CoreState → CoreState) : (s.modCore p g).told = s.told := rfl
@[simp] theorem State.modCore_lostIslands (s : State) (p : Nat) (g : CoreState → CoreState) : (s.modCore p g).lostIslands = s.lostIslands := rfl
@[simp] theorem State.modCore_mends (s : State) (p : Nat) (g : CoreState → CoreState) : (s.modCore p g).mends = s.mends := rfl
@[simp] theorem State.modCore_linkFaults (s : State) (p : Nat) (g : CoreState → CoreState) : (s.modCore p g).linkFaults = s.linkFaults := rfl
@[simp] theorem State.modCore_failed (s : State) (p : Nat) (g : CoreState → CoreState) : (s.modCore p g).failed = s.failed := rfl
@[simp] theorem State.modCore_mendSeq (s : State) (p : Nat) (g : CoreState → CoreState) : (s.modCore p g).mendSeq = s.mendSeq := rfl
@[simp] theorem State.modCore_evDue (s : State) (p : Nat) (g : CoreState → CoreState) : (s.modCore p g).evDue = s.evDue := rfl
@[simp] theorem State.modCore_evHeld (s : State) (p : Nat) (g : CoreState → CoreState) : (s.modCore p g).evHeld = s.evHeld := rfl
@[simp] theorem State.modCore_evLap (s : State) (p : Nat) (g : CoreState → CoreState) : (s.modCore p g).evLap = s.evLap := rfl
@[simp] theorem State.modCore_evLost (s : State) (p : Nat) (g : CoreState → CoreState) : (s.modCore p g).evLost = s.evLost := rfl
@[simp] theorem State.modCore_msix (s : State) (p : Nat) (g : CoreState → CoreState) : (s.modCore p g).msix = s.msix := rfl
@[simp] theorem State.modCore_leadIrq (s : State) (p : Nat) (g : CoreState → CoreState) : (s.modCore p g).leadIrq = s.leadIrq := rfl
@[simp] theorem State.modCore_railHeld (s : State) (p : Nat) (g : CoreState → CoreState) : (s.modCore p g).railHeld = s.railHeld := rfl
@[simp] theorem State.modCore_inReset (s : State) (p : Nat) (g : CoreState → CoreState) : (s.modCore p g).inReset = s.inReset := rfl
@[simp] theorem State.modCore_loadStepOff (s : State) (p : Nat) (g : CoreState → CoreState) : (s.modCore p g).loadStepOff = s.loadStepOff := rfl
@[simp] theorem State.modCore_pilots (s : State) (p : Nat) (g : CoreState → CoreState) : (s.modCore p g).pilots = s.pilots := rfl
@[simp] theorem State.modCore_subs (s : State) (p : Nat) (g : CoreState → CoreState) : (s.modCore p g).subs = s.subs := rfl
@[simp] theorem State.modCore_cqLap (s : State) (p : Nat) (g : CoreState → CoreState) : (s.modCore p g).cqLap = s.cqLap := rfl
@[simp] theorem State.modCore_arrivals (s : State) (p : Nat) (g : CoreState → CoreState) : (s.modCore p g).arrivals = s.arrivals := rfl
@[simp] theorem State.modCore_mirrorOp (s : State) (p : Nat) (g : CoreState → CoreState) : (s.modCore p g).mirrorOp = s.mirrorOp := rfl
@[simp] theorem State.modCore_redrive (s : State) (p : Nat) (g : CoreState → CoreState) : (s.modCore p g).redrive = s.redrive := rfl
@[simp] theorem State.modCore_channels (s : State) (p : Nat) (g : CoreState → CoreState) : (s.modCore p g).channels = s.channels := rfl
@[simp] theorem State.modCore_leadCredit (s : State) (p : Nat) (g : CoreState → CoreState) : (s.modCore p g).leadCredit = s.leadCredit := rfl
@[simp] theorem State.modCore_ctxWashed (s : State) (p : Nat) (g : CoreState → CoreState) : (s.modCore p g).ctxWashed = s.ctxWashed := rfl
@[simp] theorem State.modCore_tilers (s : State) (p : Nat) (g : CoreState → CoreState) : (s.modCore p g).tilers = s.tilers := rfl
@[simp] theorem State.modCore_teardowns (s : State) (p : Nat) (g : CoreState → CoreState) : (s.modCore p g).teardowns = s.teardowns := rfl
@[simp] theorem State.modCore_fwPush (s : State) (p : Nat) (g : CoreState → CoreState) : (s.modCore p g).fwPush = s.fwPush := rfl
@[simp] theorem State.modCore_sram (s : State) (p : Nat) (g : CoreState → CoreState) : (s.modCore p g).sram = s.sram := rfl
@[simp] theorem State.modCore_store (s : State) (p : Nat) (g : CoreState → CoreState) : (s.modCore p g).store = s.store := rfl
@[simp] theorem State.modCore_storeBad (s : State) (p : Nat) (g : CoreState → CoreState) : (s.modCore p g).storeBad = s.storeBad := rfl
@[simp] theorem State.modCore_loader (s : State) (p : Nat) (g : CoreState → CoreState) : (s.modCore p g).loader = s.loader := rfl
@[simp] theorem State.modCore_header (s : State) (p : Nat) (g : CoreState → CoreState) : (s.modCore p g).header = s.header := rfl
@[simp] theorem State.modCore_fabric (s : State) (p : Nat) (g : CoreState → CoreState) : (s.modCore p g).fabric = s.fabric := rfl
@[simp] theorem State.modCore_coreCfg (s : State) (p : Nat) (g : CoreState → CoreState) : (s.modCore p g).coreCfg = s.coreCfg := rfl
@[simp] theorem State.modCore_strandCfg (s : State) (p : Nat) (g : CoreState → CoreState) : (s.modCore p g).strandCfg = s.strandCfg := rfl
@[simp] theorem State.modCore_pr (s : State) (p : Nat) (g : CoreState → CoreState) : (s.modCore p g).pr = s.pr := rfl
@[simp] theorem State.modCore_appends (s : State) (p : Nat) (g : CoreState → CoreState) : (s.modCore p g).appends = s.appends := rfl
@[simp] theorem State.modCore_journalGen (s : State) (p : Nat) (g : CoreState → CoreState) : (s.modCore p g).journalGen = s.journalGen := rfl
@[simp] theorem State.modCore_dbg (s : State) (p : Nat) (g : CoreState → CoreState) : (s.modCore p g).dbg = s.dbg := rfl
@[simp] theorem State.modCore_cyc (s : State) (p : Nat) (g : CoreState → CoreState) : (s.modCore p g).cyc = s.cyc := rfl
@[simp] theorem State.modCore_fresh (s : State) (p : Nat) (g : CoreState → CoreState) : (s.modCore p g).fresh = s.fresh := rfl
@[simp] theorem State.modCore_pending (s : State) (p : Nat) (g : CoreState → CoreState) : (s.modCore p g).pending = s.pending := rfl

/-! ## State.modPilot -/

@[simp] theorem State.modPilot_now (s : State) (p : Nat) (g : PilotRun → PilotRun) : (s.modPilot p g).now = s.now := rfl
@[simp] theorem State.modPilot_pins (s : State) (p : Nat) (g : PilotRun → PilotRun) : (s.modPilot p g).pins = s.pins := rfl
@[simp] theorem State.modPilot_regs (s : State) (p : Nat) (g : PilotRun → PilotRun) : (s.modPilot p g).regs = s.regs := rfl
@[simp] theorem State.modPilot_locked (s : State) (p : Nat) (g : PilotRun → PilotRun) : (s.modPilot p g).locked = s.locked := rfl
@[simp] theorem State.modPilot_mirror (s : State) (p : Nat) (g : PilotRun → PilotRun) : (s.modPilot p g).mirror = s.mirror := rfl
@[simp] theorem State.modPilot_routeMirror (s : State) (p : Nat) (g : PilotRun → PilotRun) : (s.modPilot p g).routeMirror = s.routeMirror := rfl
@[simp] theorem State.modPilot_constBlocks (s : State) (p : Nat) (g : PilotRun → PilotRun) : (s.modPilot p g).constBlocks = s.constBlocks := rfl
@[simp] theorem State.modPilot_writeBlocks (s : State) (p : Nat) (g : PilotRun → PilotRun) : (s.modPilot p g).writeBlocks = s.writeBlocks := rfl
@[simp] theorem State.modPilot_cores (s : State) (p : Nat) (g : PilotRun → PilotRun) : (s.modPilot p g).cores = s.cores := rfl
@[simp] theorem State.modPilot_wins (s : State) (p : Nat) (g : PilotRun → PilotRun) : (s.modPilot p g).wins = s.wins := rfl
@[simp] theorem State.modPilot_gov (s : State) (p : Nat) (g : PilotRun → PilotRun) : (s.modPilot p g).gov = s.gov := rfl
@[simp] theorem State.modPilot_prtGen (s : State) (p : Nat) (g : PilotRun → PilotRun) : (s.modPilot p g).prtGen = s.prtGen := rfl
@[simp] theorem State.modPilot_deltaTurn (s : State) (p : Nat) (g : PilotRun → PilotRun) : (s.modPilot p g).deltaTurn = s.deltaTurn := rfl
@[simp] theorem State.modPilot_bays (s : State) (p : Nat) (g : PilotRun → PilotRun) : (s.modPilot p g).bays = s.bays := rfl
@[simp] theorem State.modPilot_everArmed (s : State) (p : Nat) (g : PilotRun → PilotRun) : (s.modPilot p g).everArmed = s.everArmed := rfl
@[simp] theorem State.modPilot_links (s : State) (p : Nat) (g : PilotRun → PilotRun) : (s.modPilot p g).links = s.links := rfl
@[simp] theorem State.modPilot_conss (s : State) (p : Nat) (g : PilotRun → PilotRun) : (s.modPilot p g).conss = s.conss := rfl
@[simp] theorem State.modPilot_flits (s : State) (p : Nat) (g : PilotRun → PilotRun) : (s.modPilot p g).flits = s.flits := rfl
@[simp] theorem State.modPilot_msgs (s : State) (p : Nat) (g : PilotRun → PilotRun) : (s.modPilot p g).msgs = s.msgs := rfl
@[simp] theorem State.modPilot_revokes (s : State) (p : Nat) (g : PilotRun → PilotRun) : (s.modPilot p g).revokes = s.revokes := rfl
@[simp] theorem State.modPilot_linkUse (s : State) (p : Nat) (g : PilotRun → PilotRun) : (s.modPilot p g).linkUse = s.linkUse := rfl
@[simp] theorem State.modPilot_linkTurn (s : State) (p : Nat) (g : PilotRun → PilotRun) : (s.modPilot p g).linkTurn = s.linkTurn := rfl
@[simp] theorem State.modPilot_streamSent (s : State) (p : Nat) (g : PilotRun → PilotRun) : (s.modPilot p g).streamSent = s.streamSent := rfl
@[simp] theorem State.modPilot_cidNext (s : State) (p : Nat) (g : PilotRun → PilotRun) : (s.modPilot p g).cidNext = s.cidNext := rfl
@[simp] theorem State.modPilot_strPlan (s : State) (p : Nat) (g : PilotRun → PilotRun) : (s.modPilot p g).strPlan = s.strPlan := rfl
@[simp] theorem State.modPilot_dtree (s : State) (p : Nat) (g : PilotRun → PilotRun) : (s.modPilot p g).dtree = s.dtree := rfl
@[simp] theorem State.modPilot_ftab (s : State) (p : Nat) (g : PilotRun → PilotRun) : (s.modPilot p g).ftab = s.ftab := rfl
@[simp] theorem State.modPilot_tier (s : State) (p : Nat) (g : PilotRun → PilotRun) : (s.modPilot p g).tier = s.tier := rfl
@[simp] theorem State.modPilot_tierPoison (s : State) (p : Nat) (g : PilotRun → PilotRun) : (s.modPilot p g).tierPoison = s.tierPoison := rfl
@[simp] theorem State.modPilot_reqs (s : State) (p : Nat) (g : PilotRun → PilotRun) : (s.modPilot p g).reqs = s.reqs := rfl
@[simp] theorem State.modPilot_tierDef (s : State) (p : Nat) (g : PilotRun → PilotRun) : (s.modPilot p g).tierDef = s.tierDef := rfl
@[simp] theorem State.modPilot_tierTurn (s : State) (p : Nat) (g : PilotRun → PilotRun) : (s.modPilot p g).tierTurn = s.tierTurn := rfl
@[simp] theorem State.modPilot_nearAt (s : State) (p : Nat) (g : PilotRun → PilotRun) : (s.modPilot p g).nearAt = s.nearAt := rfl
@[simp] theorem State.modPilot_cxlAt (s : State) (p : Nat) (g : PilotRun → PilotRun) : (s.modPilot p g).cxlAt = s.cxlAt := rfl
@[simp] theorem State.modPilot_cxlTurn (s : State) (p : Nat) (g : PilotRun → PilotRun) : (s.modPilot p g).cxlTurn = s.cxlTurn := rfl
@[simp] theorem State.modPilot_tierBytes (s : State) (p : Nat) (g : PilotRun → PilotRun) : (s.modPilot p g).tierBytes = s.tierBytes := rfl
@[simp] theorem State.modPilot_notices (s : State) (p : Nat) (g : PilotRun → PilotRun) : (s.modPilot p g).notices = s.notices := rfl
@[simp] theorem State.modPilot_heldWrites (s : State) (p : Nat) (g : PilotRun → PilotRun) : (s.modPilot p g).heldWrites = s.heldWrites := rfl
@[simp] theorem State.modPilot_responses (s : State) (p : Nat) (g : PilotRun → PilotRun) : (s.modPilot p g).responses = s.responses := rfl
@[simp] theorem State.modPilot_told (s : State) (p : Nat) (g : PilotRun → PilotRun) : (s.modPilot p g).told = s.told := rfl
@[simp] theorem State.modPilot_lostIslands (s : State) (p : Nat) (g : PilotRun → PilotRun) : (s.modPilot p g).lostIslands = s.lostIslands := rfl
@[simp] theorem State.modPilot_mends (s : State) (p : Nat) (g : PilotRun → PilotRun) : (s.modPilot p g).mends = s.mends := rfl
@[simp] theorem State.modPilot_linkFaults (s : State) (p : Nat) (g : PilotRun → PilotRun) : (s.modPilot p g).linkFaults = s.linkFaults := rfl
@[simp] theorem State.modPilot_failed (s : State) (p : Nat) (g : PilotRun → PilotRun) : (s.modPilot p g).failed = s.failed := rfl
@[simp] theorem State.modPilot_mendSeq (s : State) (p : Nat) (g : PilotRun → PilotRun) : (s.modPilot p g).mendSeq = s.mendSeq := rfl
@[simp] theorem State.modPilot_evDue (s : State) (p : Nat) (g : PilotRun → PilotRun) : (s.modPilot p g).evDue = s.evDue := rfl
@[simp] theorem State.modPilot_evHeld (s : State) (p : Nat) (g : PilotRun → PilotRun) : (s.modPilot p g).evHeld = s.evHeld := rfl
@[simp] theorem State.modPilot_evLap (s : State) (p : Nat) (g : PilotRun → PilotRun) : (s.modPilot p g).evLap = s.evLap := rfl
@[simp] theorem State.modPilot_evLost (s : State) (p : Nat) (g : PilotRun → PilotRun) : (s.modPilot p g).evLost = s.evLost := rfl
@[simp] theorem State.modPilot_msix (s : State) (p : Nat) (g : PilotRun → PilotRun) : (s.modPilot p g).msix = s.msix := rfl
@[simp] theorem State.modPilot_leadIrq (s : State) (p : Nat) (g : PilotRun → PilotRun) : (s.modPilot p g).leadIrq = s.leadIrq := rfl
@[simp] theorem State.modPilot_railHeld (s : State) (p : Nat) (g : PilotRun → PilotRun) : (s.modPilot p g).railHeld = s.railHeld := rfl
@[simp] theorem State.modPilot_inReset (s : State) (p : Nat) (g : PilotRun → PilotRun) : (s.modPilot p g).inReset = s.inReset := rfl
@[simp] theorem State.modPilot_loadStepOff (s : State) (p : Nat) (g : PilotRun → PilotRun) : (s.modPilot p g).loadStepOff = s.loadStepOff := rfl
@[simp] theorem State.modPilot_subs (s : State) (p : Nat) (g : PilotRun → PilotRun) : (s.modPilot p g).subs = s.subs := rfl
@[simp] theorem State.modPilot_cqLap (s : State) (p : Nat) (g : PilotRun → PilotRun) : (s.modPilot p g).cqLap = s.cqLap := rfl
@[simp] theorem State.modPilot_arrivals (s : State) (p : Nat) (g : PilotRun → PilotRun) : (s.modPilot p g).arrivals = s.arrivals := rfl
@[simp] theorem State.modPilot_mirrorOp (s : State) (p : Nat) (g : PilotRun → PilotRun) : (s.modPilot p g).mirrorOp = s.mirrorOp := rfl
@[simp] theorem State.modPilot_redrive (s : State) (p : Nat) (g : PilotRun → PilotRun) : (s.modPilot p g).redrive = s.redrive := rfl
@[simp] theorem State.modPilot_channels (s : State) (p : Nat) (g : PilotRun → PilotRun) : (s.modPilot p g).channels = s.channels := rfl
@[simp] theorem State.modPilot_leadCredit (s : State) (p : Nat) (g : PilotRun → PilotRun) : (s.modPilot p g).leadCredit = s.leadCredit := rfl
@[simp] theorem State.modPilot_ctxWashed (s : State) (p : Nat) (g : PilotRun → PilotRun) : (s.modPilot p g).ctxWashed = s.ctxWashed := rfl
@[simp] theorem State.modPilot_tilers (s : State) (p : Nat) (g : PilotRun → PilotRun) : (s.modPilot p g).tilers = s.tilers := rfl
@[simp] theorem State.modPilot_teardowns (s : State) (p : Nat) (g : PilotRun → PilotRun) : (s.modPilot p g).teardowns = s.teardowns := rfl
@[simp] theorem State.modPilot_fwPush (s : State) (p : Nat) (g : PilotRun → PilotRun) : (s.modPilot p g).fwPush = s.fwPush := rfl
@[simp] theorem State.modPilot_sram (s : State) (p : Nat) (g : PilotRun → PilotRun) : (s.modPilot p g).sram = s.sram := rfl
@[simp] theorem State.modPilot_store (s : State) (p : Nat) (g : PilotRun → PilotRun) : (s.modPilot p g).store = s.store := rfl
@[simp] theorem State.modPilot_storeBad (s : State) (p : Nat) (g : PilotRun → PilotRun) : (s.modPilot p g).storeBad = s.storeBad := rfl
@[simp] theorem State.modPilot_loader (s : State) (p : Nat) (g : PilotRun → PilotRun) : (s.modPilot p g).loader = s.loader := rfl
@[simp] theorem State.modPilot_header (s : State) (p : Nat) (g : PilotRun → PilotRun) : (s.modPilot p g).header = s.header := rfl
@[simp] theorem State.modPilot_fabric (s : State) (p : Nat) (g : PilotRun → PilotRun) : (s.modPilot p g).fabric = s.fabric := rfl
@[simp] theorem State.modPilot_coreCfg (s : State) (p : Nat) (g : PilotRun → PilotRun) : (s.modPilot p g).coreCfg = s.coreCfg := rfl
@[simp] theorem State.modPilot_strandCfg (s : State) (p : Nat) (g : PilotRun → PilotRun) : (s.modPilot p g).strandCfg = s.strandCfg := rfl
@[simp] theorem State.modPilot_pr (s : State) (p : Nat) (g : PilotRun → PilotRun) : (s.modPilot p g).pr = s.pr := rfl
@[simp] theorem State.modPilot_appends (s : State) (p : Nat) (g : PilotRun → PilotRun) : (s.modPilot p g).appends = s.appends := rfl
@[simp] theorem State.modPilot_journalGen (s : State) (p : Nat) (g : PilotRun → PilotRun) : (s.modPilot p g).journalGen = s.journalGen := rfl
@[simp] theorem State.modPilot_dbg (s : State) (p : Nat) (g : PilotRun → PilotRun) : (s.modPilot p g).dbg = s.dbg := rfl
@[simp] theorem State.modPilot_cyc (s : State) (p : Nat) (g : PilotRun → PilotRun) : (s.modPilot p g).cyc = s.cyc := rfl
@[simp] theorem State.modPilot_fresh (s : State) (p : Nat) (g : PilotRun → PilotRun) : (s.modPilot p g).fresh = s.fresh := rfl
@[simp] theorem State.modPilot_pending (s : State) (p : Nat) (g : PilotRun → PilotRun) : (s.modPilot p g).pending = s.pending := rfl

/-! ## State.charge -/

@[simp] theorem State.charge_now (s : State) (p k : Nat) : (s.charge p k).now = s.now := rfl
@[simp] theorem State.charge_pins (s : State) (p k : Nat) : (s.charge p k).pins = s.pins := rfl
@[simp] theorem State.charge_regs (s : State) (p k : Nat) : (s.charge p k).regs = s.regs := rfl
@[simp] theorem State.charge_locked (s : State) (p k : Nat) : (s.charge p k).locked = s.locked := rfl
@[simp] theorem State.charge_mirror (s : State) (p k : Nat) : (s.charge p k).mirror = s.mirror := rfl
@[simp] theorem State.charge_routeMirror (s : State) (p k : Nat) : (s.charge p k).routeMirror = s.routeMirror := rfl
@[simp] theorem State.charge_constBlocks (s : State) (p k : Nat) : (s.charge p k).constBlocks = s.constBlocks := rfl
@[simp] theorem State.charge_writeBlocks (s : State) (p k : Nat) : (s.charge p k).writeBlocks = s.writeBlocks := rfl
@[simp] theorem State.charge_cores (s : State) (p k : Nat) : (s.charge p k).cores = s.cores := rfl
@[simp] theorem State.charge_wins (s : State) (p k : Nat) : (s.charge p k).wins = s.wins := rfl
@[simp] theorem State.charge_prtGen (s : State) (p k : Nat) : (s.charge p k).prtGen = s.prtGen := rfl
@[simp] theorem State.charge_deltaTurn (s : State) (p k : Nat) : (s.charge p k).deltaTurn = s.deltaTurn := rfl
@[simp] theorem State.charge_bays (s : State) (p k : Nat) : (s.charge p k).bays = s.bays := rfl
@[simp] theorem State.charge_everArmed (s : State) (p k : Nat) : (s.charge p k).everArmed = s.everArmed := rfl
@[simp] theorem State.charge_links (s : State) (p k : Nat) : (s.charge p k).links = s.links := rfl
@[simp] theorem State.charge_conss (s : State) (p k : Nat) : (s.charge p k).conss = s.conss := rfl
@[simp] theorem State.charge_flits (s : State) (p k : Nat) : (s.charge p k).flits = s.flits := rfl
@[simp] theorem State.charge_msgs (s : State) (p k : Nat) : (s.charge p k).msgs = s.msgs := rfl
@[simp] theorem State.charge_revokes (s : State) (p k : Nat) : (s.charge p k).revokes = s.revokes := rfl
@[simp] theorem State.charge_linkUse (s : State) (p k : Nat) : (s.charge p k).linkUse = s.linkUse := rfl
@[simp] theorem State.charge_linkTurn (s : State) (p k : Nat) : (s.charge p k).linkTurn = s.linkTurn := rfl
@[simp] theorem State.charge_streamSent (s : State) (p k : Nat) : (s.charge p k).streamSent = s.streamSent := rfl
@[simp] theorem State.charge_cidNext (s : State) (p k : Nat) : (s.charge p k).cidNext = s.cidNext := rfl
@[simp] theorem State.charge_strPlan (s : State) (p k : Nat) : (s.charge p k).strPlan = s.strPlan := rfl
@[simp] theorem State.charge_dtree (s : State) (p k : Nat) : (s.charge p k).dtree = s.dtree := rfl
@[simp] theorem State.charge_ftab (s : State) (p k : Nat) : (s.charge p k).ftab = s.ftab := rfl
@[simp] theorem State.charge_tier (s : State) (p k : Nat) : (s.charge p k).tier = s.tier := rfl
@[simp] theorem State.charge_tierPoison (s : State) (p k : Nat) : (s.charge p k).tierPoison = s.tierPoison := rfl
@[simp] theorem State.charge_reqs (s : State) (p k : Nat) : (s.charge p k).reqs = s.reqs := rfl
@[simp] theorem State.charge_tierDef (s : State) (p k : Nat) : (s.charge p k).tierDef = s.tierDef := rfl
@[simp] theorem State.charge_tierTurn (s : State) (p k : Nat) : (s.charge p k).tierTurn = s.tierTurn := rfl
@[simp] theorem State.charge_nearAt (s : State) (p k : Nat) : (s.charge p k).nearAt = s.nearAt := rfl
@[simp] theorem State.charge_cxlAt (s : State) (p k : Nat) : (s.charge p k).cxlAt = s.cxlAt := rfl
@[simp] theorem State.charge_cxlTurn (s : State) (p k : Nat) : (s.charge p k).cxlTurn = s.cxlTurn := rfl
@[simp] theorem State.charge_tierBytes (s : State) (p k : Nat) : (s.charge p k).tierBytes = s.tierBytes := rfl
@[simp] theorem State.charge_notices (s : State) (p k : Nat) : (s.charge p k).notices = s.notices := rfl
@[simp] theorem State.charge_heldWrites (s : State) (p k : Nat) : (s.charge p k).heldWrites = s.heldWrites := rfl
@[simp] theorem State.charge_responses (s : State) (p k : Nat) : (s.charge p k).responses = s.responses := rfl
@[simp] theorem State.charge_told (s : State) (p k : Nat) : (s.charge p k).told = s.told := rfl
@[simp] theorem State.charge_lostIslands (s : State) (p k : Nat) : (s.charge p k).lostIslands = s.lostIslands := rfl
@[simp] theorem State.charge_mends (s : State) (p k : Nat) : (s.charge p k).mends = s.mends := rfl
@[simp] theorem State.charge_linkFaults (s : State) (p k : Nat) : (s.charge p k).linkFaults = s.linkFaults := rfl
@[simp] theorem State.charge_failed (s : State) (p k : Nat) : (s.charge p k).failed = s.failed := rfl
@[simp] theorem State.charge_mendSeq (s : State) (p k : Nat) : (s.charge p k).mendSeq = s.mendSeq := rfl
@[simp] theorem State.charge_evDue (s : State) (p k : Nat) : (s.charge p k).evDue = s.evDue := rfl
@[simp] theorem State.charge_evHeld (s : State) (p k : Nat) : (s.charge p k).evHeld = s.evHeld := rfl
@[simp] theorem State.charge_evLap (s : State) (p k : Nat) : (s.charge p k).evLap = s.evLap := rfl
@[simp] theorem State.charge_evLost (s : State) (p k : Nat) : (s.charge p k).evLost = s.evLost := rfl
@[simp] theorem State.charge_msix (s : State) (p k : Nat) : (s.charge p k).msix = s.msix := rfl
@[simp] theorem State.charge_leadIrq (s : State) (p k : Nat) : (s.charge p k).leadIrq = s.leadIrq := rfl
@[simp] theorem State.charge_railHeld (s : State) (p k : Nat) : (s.charge p k).railHeld = s.railHeld := rfl
@[simp] theorem State.charge_inReset (s : State) (p k : Nat) : (s.charge p k).inReset = s.inReset := rfl
@[simp] theorem State.charge_loadStepOff (s : State) (p k : Nat) : (s.charge p k).loadStepOff = s.loadStepOff := rfl
@[simp] theorem State.charge_pilots (s : State) (p k : Nat) : (s.charge p k).pilots = s.pilots := rfl
@[simp] theorem State.charge_subs (s : State) (p k : Nat) : (s.charge p k).subs = s.subs := rfl
@[simp] theorem State.charge_cqLap (s : State) (p k : Nat) : (s.charge p k).cqLap = s.cqLap := rfl
@[simp] theorem State.charge_arrivals (s : State) (p k : Nat) : (s.charge p k).arrivals = s.arrivals := rfl
@[simp] theorem State.charge_mirrorOp (s : State) (p k : Nat) : (s.charge p k).mirrorOp = s.mirrorOp := rfl
@[simp] theorem State.charge_redrive (s : State) (p k : Nat) : (s.charge p k).redrive = s.redrive := rfl
@[simp] theorem State.charge_channels (s : State) (p k : Nat) : (s.charge p k).channels = s.channels := rfl
@[simp] theorem State.charge_leadCredit (s : State) (p k : Nat) : (s.charge p k).leadCredit = s.leadCredit := rfl
@[simp] theorem State.charge_ctxWashed (s : State) (p k : Nat) : (s.charge p k).ctxWashed = s.ctxWashed := rfl
@[simp] theorem State.charge_tilers (s : State) (p k : Nat) : (s.charge p k).tilers = s.tilers := rfl
@[simp] theorem State.charge_teardowns (s : State) (p k : Nat) : (s.charge p k).teardowns = s.teardowns := rfl
@[simp] theorem State.charge_fwPush (s : State) (p k : Nat) : (s.charge p k).fwPush = s.fwPush := rfl
@[simp] theorem State.charge_sram (s : State) (p k : Nat) : (s.charge p k).sram = s.sram := rfl
@[simp] theorem State.charge_store (s : State) (p k : Nat) : (s.charge p k).store = s.store := rfl
@[simp] theorem State.charge_storeBad (s : State) (p k : Nat) : (s.charge p k).storeBad = s.storeBad := rfl
@[simp] theorem State.charge_loader (s : State) (p k : Nat) : (s.charge p k).loader = s.loader := rfl
@[simp] theorem State.charge_header (s : State) (p k : Nat) : (s.charge p k).header = s.header := rfl
@[simp] theorem State.charge_fabric (s : State) (p k : Nat) : (s.charge p k).fabric = s.fabric := rfl
@[simp] theorem State.charge_coreCfg (s : State) (p k : Nat) : (s.charge p k).coreCfg = s.coreCfg := rfl
@[simp] theorem State.charge_strandCfg (s : State) (p k : Nat) : (s.charge p k).strandCfg = s.strandCfg := rfl
@[simp] theorem State.charge_pr (s : State) (p k : Nat) : (s.charge p k).pr = s.pr := rfl
@[simp] theorem State.charge_appends (s : State) (p k : Nat) : (s.charge p k).appends = s.appends := rfl
@[simp] theorem State.charge_journalGen (s : State) (p k : Nat) : (s.charge p k).journalGen = s.journalGen := rfl
@[simp] theorem State.charge_dbg (s : State) (p k : Nat) : (s.charge p k).dbg = s.dbg := rfl
@[simp] theorem State.charge_cyc (s : State) (p k : Nat) : (s.charge p k).cyc = s.cyc := rfl
@[simp] theorem State.charge_fresh (s : State) (p k : Nat) : (s.charge p k).fresh = s.fresh := rfl
@[simp] theorem State.charge_pending (s : State) (p k : Nat) : (s.charge p k).pending = s.pending := rfl

/-! ## State.used -/

@[simp] theorem State.used_now (s : State) : (s.used).now = s.now := rfl
@[simp] theorem State.used_pins (s : State) : (s.used).pins = s.pins := rfl
@[simp] theorem State.used_regs (s : State) : (s.used).regs = s.regs := rfl
@[simp] theorem State.used_locked (s : State) : (s.used).locked = s.locked := rfl
@[simp] theorem State.used_mirror (s : State) : (s.used).mirror = s.mirror := rfl
@[simp] theorem State.used_routeMirror (s : State) : (s.used).routeMirror = s.routeMirror := rfl
@[simp] theorem State.used_constBlocks (s : State) : (s.used).constBlocks = s.constBlocks := rfl
@[simp] theorem State.used_writeBlocks (s : State) : (s.used).writeBlocks = s.writeBlocks := rfl
@[simp] theorem State.used_cores (s : State) : (s.used).cores = s.cores := rfl
@[simp] theorem State.used_wins (s : State) : (s.used).wins = s.wins := rfl
@[simp] theorem State.used_gov (s : State) : (s.used).gov = s.gov := rfl
@[simp] theorem State.used_prtGen (s : State) : (s.used).prtGen = s.prtGen := rfl
@[simp] theorem State.used_deltaTurn (s : State) : (s.used).deltaTurn = s.deltaTurn := rfl
@[simp] theorem State.used_bays (s : State) : (s.used).bays = s.bays := rfl
@[simp] theorem State.used_everArmed (s : State) : (s.used).everArmed = s.everArmed := rfl
@[simp] theorem State.used_links (s : State) : (s.used).links = s.links := rfl
@[simp] theorem State.used_conss (s : State) : (s.used).conss = s.conss := rfl
@[simp] theorem State.used_flits (s : State) : (s.used).flits = s.flits := rfl
@[simp] theorem State.used_msgs (s : State) : (s.used).msgs = s.msgs := rfl
@[simp] theorem State.used_revokes (s : State) : (s.used).revokes = s.revokes := rfl
@[simp] theorem State.used_linkUse (s : State) : (s.used).linkUse = s.linkUse := rfl
@[simp] theorem State.used_linkTurn (s : State) : (s.used).linkTurn = s.linkTurn := rfl
@[simp] theorem State.used_streamSent (s : State) : (s.used).streamSent = s.streamSent := rfl
@[simp] theorem State.used_cidNext (s : State) : (s.used).cidNext = s.cidNext := rfl
@[simp] theorem State.used_strPlan (s : State) : (s.used).strPlan = s.strPlan := rfl
@[simp] theorem State.used_dtree (s : State) : (s.used).dtree = s.dtree := rfl
@[simp] theorem State.used_ftab (s : State) : (s.used).ftab = s.ftab := rfl
@[simp] theorem State.used_tier (s : State) : (s.used).tier = s.tier := rfl
@[simp] theorem State.used_tierPoison (s : State) : (s.used).tierPoison = s.tierPoison := rfl
@[simp] theorem State.used_reqs (s : State) : (s.used).reqs = s.reqs := rfl
@[simp] theorem State.used_tierDef (s : State) : (s.used).tierDef = s.tierDef := rfl
@[simp] theorem State.used_tierTurn (s : State) : (s.used).tierTurn = s.tierTurn := rfl
@[simp] theorem State.used_nearAt (s : State) : (s.used).nearAt = s.nearAt := rfl
@[simp] theorem State.used_cxlAt (s : State) : (s.used).cxlAt = s.cxlAt := rfl
@[simp] theorem State.used_cxlTurn (s : State) : (s.used).cxlTurn = s.cxlTurn := rfl
@[simp] theorem State.used_tierBytes (s : State) : (s.used).tierBytes = s.tierBytes := rfl
@[simp] theorem State.used_notices (s : State) : (s.used).notices = s.notices := rfl
@[simp] theorem State.used_heldWrites (s : State) : (s.used).heldWrites = s.heldWrites := rfl
@[simp] theorem State.used_responses (s : State) : (s.used).responses = s.responses := rfl
@[simp] theorem State.used_told (s : State) : (s.used).told = s.told := rfl
@[simp] theorem State.used_lostIslands (s : State) : (s.used).lostIslands = s.lostIslands := rfl
@[simp] theorem State.used_mends (s : State) : (s.used).mends = s.mends := rfl
@[simp] theorem State.used_linkFaults (s : State) : (s.used).linkFaults = s.linkFaults := rfl
@[simp] theorem State.used_failed (s : State) : (s.used).failed = s.failed := rfl
@[simp] theorem State.used_mendSeq (s : State) : (s.used).mendSeq = s.mendSeq := rfl
@[simp] theorem State.used_evDue (s : State) : (s.used).evDue = s.evDue := rfl
@[simp] theorem State.used_evHeld (s : State) : (s.used).evHeld = s.evHeld := rfl
@[simp] theorem State.used_evLap (s : State) : (s.used).evLap = s.evLap := rfl
@[simp] theorem State.used_evLost (s : State) : (s.used).evLost = s.evLost := rfl
@[simp] theorem State.used_msix (s : State) : (s.used).msix = s.msix := rfl
@[simp] theorem State.used_leadIrq (s : State) : (s.used).leadIrq = s.leadIrq := rfl
@[simp] theorem State.used_railHeld (s : State) : (s.used).railHeld = s.railHeld := rfl
@[simp] theorem State.used_inReset (s : State) : (s.used).inReset = s.inReset := rfl
@[simp] theorem State.used_loadStepOff (s : State) : (s.used).loadStepOff = s.loadStepOff := rfl
@[simp] theorem State.used_pilots (s : State) : (s.used).pilots = s.pilots := rfl
@[simp] theorem State.used_subs (s : State) : (s.used).subs = s.subs := rfl
@[simp] theorem State.used_cqLap (s : State) : (s.used).cqLap = s.cqLap := rfl
@[simp] theorem State.used_arrivals (s : State) : (s.used).arrivals = s.arrivals := rfl
@[simp] theorem State.used_mirrorOp (s : State) : (s.used).mirrorOp = s.mirrorOp := rfl
@[simp] theorem State.used_redrive (s : State) : (s.used).redrive = s.redrive := rfl
@[simp] theorem State.used_channels (s : State) : (s.used).channels = s.channels := rfl
@[simp] theorem State.used_leadCredit (s : State) : (s.used).leadCredit = s.leadCredit := rfl
@[simp] theorem State.used_ctxWashed (s : State) : (s.used).ctxWashed = s.ctxWashed := rfl
@[simp] theorem State.used_tilers (s : State) : (s.used).tilers = s.tilers := rfl
@[simp] theorem State.used_teardowns (s : State) : (s.used).teardowns = s.teardowns := rfl
@[simp] theorem State.used_fwPush (s : State) : (s.used).fwPush = s.fwPush := rfl
@[simp] theorem State.used_sram (s : State) : (s.used).sram = s.sram := rfl
@[simp] theorem State.used_store (s : State) : (s.used).store = s.store := rfl
@[simp] theorem State.used_storeBad (s : State) : (s.used).storeBad = s.storeBad := rfl
@[simp] theorem State.used_loader (s : State) : (s.used).loader = s.loader := rfl
@[simp] theorem State.used_header (s : State) : (s.used).header = s.header := rfl
@[simp] theorem State.used_fabric (s : State) : (s.used).fabric = s.fabric := rfl
@[simp] theorem State.used_coreCfg (s : State) : (s.used).coreCfg = s.coreCfg := rfl
@[simp] theorem State.used_strandCfg (s : State) : (s.used).strandCfg = s.strandCfg := rfl
@[simp] theorem State.used_pr (s : State) : (s.used).pr = s.pr := rfl
@[simp] theorem State.used_appends (s : State) : (s.used).appends = s.appends := rfl
@[simp] theorem State.used_journalGen (s : State) : (s.used).journalGen = s.journalGen := rfl
@[simp] theorem State.used_dbg (s : State) : (s.used).dbg = s.dbg := rfl
@[simp] theorem State.used_cyc (s : State) : (s.used).cyc = s.cyc := rfl
@[simp] theorem State.used_pending (s : State) : (s.used).pending = s.pending := rfl

/-! ## CoreState.setReg -/

@[simp] theorem CoreState.setReg_basin (c : CoreState) (a : Nat) (v : Reg64) : (c.setReg a v).basin = c.basin := rfl
@[simp] theorem CoreState.setReg_poison (c : CoreState) (a : Nat) (v : Reg64) : (c.setReg a v).poison = c.poison := rfl
@[simp] theorem CoreState.setReg_alien (c : CoreState) (a : Nat) (v : Reg64) : (c.setReg a v).alien = c.alien := rfl
@[simp] theorem CoreState.setReg_ecc (c : CoreState) (a : Nat) (v : Reg64) : (c.setReg a v).ecc = c.ecc := rfl
@[simp] theorem CoreState.setReg_tags (c : CoreState) (a : Nat) (v : Reg64) : (c.setReg a v).tags = c.tags := rfl
@[simp] theorem CoreState.setReg_xregs (c : CoreState) (a : Nat) (v : Reg64) : (c.setReg a v).xregs = c.xregs := rfl
@[simp] theorem CoreState.setReg_sstore (c : CoreState) (a : Nat) (v : Reg64) : (c.setReg a v).sstore = c.sstore := rfl
@[simp] theorem CoreState.setReg_vregs (c : CoreState) (a : Nat) (v : Reg64) : (c.setReg a v).vregs = c.vregs := rfl
@[simp] theorem CoreState.setReg_acc (c : CoreState) (a : Nat) (v : Reg64) : (c.setReg a v).acc = c.acc := rfl
@[simp] theorem CoreState.setReg_active (c : CoreState) (a : Nat) (v : Reg64) : (c.setReg a v).active = c.active := rfl
@[simp] theorem CoreState.setReg_shadow (c : CoreState) (a : Nat) (v : Reg64) : (c.setReg a v).shadow = c.shadow := rfl
@[simp] theorem CoreState.setReg_latch (c : CoreState) (a : Nat) (v : Reg64) : (c.setReg a v).latch = c.latch := rfl
@[simp] theorem CoreState.setReg_side (c : CoreState) (a : Nat) (v : Reg64) : (c.setReg a v).side = c.side := rfl
@[simp] theorem CoreState.setReg_pass (c : CoreState) (a : Nat) (v : Reg64) : (c.setReg a v).pass = c.pass := rfl
@[simp] theorem CoreState.setReg_tiles (c : CoreState) (a : Nat) (v : Reg64) : (c.setReg a v).tiles = c.tiles := rfl
@[simp] theorem CoreState.setReg_commitQ (c : CoreState) (a : Nat) (v : Reg64) : (c.setReg a v).commitQ = c.commitQ := rfl
@[simp] theorem CoreState.setReg_draining (c : CoreState) (a : Nat) (v : Reg64) : (c.setReg a v).draining = c.draining := rfl
@[simp] theorem CoreState.setReg_params (c : CoreState) (a : Nat) (v : Reg64) : (c.setReg a v).params = c.params := rfl
@[simp] theorem CoreState.setReg_records (c : CoreState) (a : Nat) (v : Reg64) : (c.setReg a v).records = c.records := rfl
@[simp] theorem CoreState.setReg_desc (c : CoreState) (a : Nat) (v : Reg64) : (c.setReg a v).desc = c.desc := rfl
@[simp] theorem CoreState.setReg_route (c : CoreState) (a : Nat) (v : Reg64) : (c.setReg a v).route = c.route := rfl
@[simp] theorem CoreState.setReg_plan (c : CoreState) (a : Nat) (v : Reg64) : (c.setReg a v).plan = c.plan := rfl
@[simp] theorem CoreState.setReg_strand (c : CoreState) (a : Nat) (v : Reg64) : (c.setReg a v).strand = c.strand := rfl
@[simp] theorem CoreState.setReg_iss (c : CoreState) (a : Nat) (v : Reg64) : (c.setReg a v).iss = c.iss := rfl
@[simp] theorem CoreState.setReg_fetchWin (c : CoreState) (a : Nat) (v : Reg64) : (c.setReg a v).fetchWin = c.fetchWin := rfl
@[simp] theorem CoreState.setReg_vecQ (c : CoreState) (a : Nat) (v : Reg64) : (c.setReg a v).vecQ = c.vecQ := rfl
@[simp] theorem CoreState.setReg_arrQ (c : CoreState) (a : Nat) (v : Reg64) : (c.setReg a v).arrQ = c.arrQ := rfl
@[simp] theorem CoreState.setReg_estQ (c : CoreState) (a : Nat) (v : Reg64) : (c.setReg a v).estQ = c.estQ := rfl
@[simp] theorem CoreState.setReg_loadQ (c : CoreState) (a : Nat) (v : Reg64) : (c.setReg a v).loadQ = c.loadQ := rfl
@[simp] theorem CoreState.setReg_storeQ (c : CoreState) (a : Nat) (v : Reg64) : (c.setReg a v).storeQ = c.storeQ := rfl
@[simp] theorem CoreState.setReg_started (c : CoreState) (a : Nat) (v : Reg64) : (c.setReg a v).started = c.started := rfl
@[simp] theorem CoreState.setReg_exec (c : CoreState) (a : Nat) (v : Reg64) : (c.setReg a v).exec = c.exec := rfl
@[simp] theorem CoreState.setReg_ldgQ (c : CoreState) (a : Nat) (v : Reg64) : (c.setReg a v).ldgQ = c.ldgQ := rfl
@[simp] theorem CoreState.setReg_ldgExec (c : CoreState) (a : Nat) (v : Reg64) : (c.setReg a v).ldgExec = c.ldgExec := rfl
@[simp] theorem CoreState.setReg_ldgWait (c : CoreState) (a : Nat) (v : Reg64) : (c.setReg a v).ldgWait = c.ldgWait := rfl
@[simp] theorem CoreState.setReg_pushHeld (c : CoreState) (a : Nat) (v : Reg64) : (c.setReg a v).pushHeld = c.pushHeld := rfl
@[simp] theorem CoreState.setReg_accWin (c : CoreState) (a : Nat) (v : Reg64) : (c.setReg a v).accWin = c.accWin := rfl
@[simp] theorem CoreState.setReg_rels (c : CoreState) (a : Nat) (v : Reg64) : (c.setReg a v).rels = c.rels := rfl
@[simp] theorem CoreState.setReg_waits (c : CoreState) (a : Nat) (v : Reg64) : (c.setReg a v).waits = c.waits := rfl
@[simp] theorem CoreState.setReg_accesses (c : CoreState) (a : Nat) (v : Reg64) : (c.setReg a v).accesses = c.accesses := rfl
@[simp] theorem CoreState.setReg_banking (c : CoreState) (a : Nat) (v : Reg64) : (c.setReg a v).banking = c.banking := rfl
@[simp] theorem CoreState.setReg_portData (c : CoreState) (a : Nat) (v : Reg64) : (c.setReg a v).portData = c.portData := rfl
@[simp] theorem CoreState.setReg_atPort (c : CoreState) (a : Nat) (v : Reg64) : (c.setReg a v).atPort = c.atPort := rfl
@[simp] theorem CoreState.setReg_repairs (c : CoreState) (a : Nat) (v : Reg64) : (c.setReg a v).repairs = c.repairs := rfl
@[simp] theorem CoreState.setReg_deltas (c : CoreState) (a : Nat) (v : Reg64) : (c.setReg a v).deltas = c.deltas := rfl
@[simp] theorem CoreState.setReg_washEnd (c : CoreState) (a : Nat) (v : Reg64) : (c.setReg a v).washEnd = c.washEnd := rfl
@[simp] theorem CoreState.setReg_sweepRow (c : CoreState) (a : Nat) (v : Reg64) : (c.setReg a v).sweepRow = c.sweepRow := rfl
@[simp] theorem CoreState.setReg_sweepDue (c : CoreState) (a : Nat) (v : Reg64) : (c.setReg a v).sweepDue = c.sweepDue := rfl
@[simp] theorem CoreState.setReg_sweepWaited (c : CoreState) (a : Nat) (v : Reg64) : (c.setReg a v).sweepWaited = c.sweepWaited := rfl
@[simp] theorem CoreState.setReg_leaseOld (c : CoreState) (a : Nat) (v : Reg64) : (c.setReg a v).leaseOld = c.leaseOld := rfl
@[simp] theorem CoreState.setReg_isolated (c : CoreState) (a : Nat) (v : Reg64) : (c.setReg a v).isolated = c.isolated := rfl
@[simp] theorem CoreState.setReg_traceBuf (c : CoreState) (a : Nat) (v : Reg64) : (c.setReg a v).traceBuf = c.traceBuf := rfl
@[simp] theorem CoreState.setReg_lastLevel (c : CoreState) (a : Nat) (v : Reg64) : (c.setReg a v).lastLevel = c.lastLevel := rfl
@[simp] theorem CoreState.setReg_cyc (c : CoreState) (a : Nat) (v : Reg64) : (c.setReg a v).cyc = c.cyc := rfl

/-! ## CoreState.put -/

@[simp] theorem CoreState.put_basin (c : CoreState) (f : RF) (x i : Nat) : (c.put f x i).basin = c.basin := rfl
@[simp] theorem CoreState.put_poison (c : CoreState) (f : RF) (x i : Nat) : (c.put f x i).poison = c.poison := rfl
@[simp] theorem CoreState.put_alien (c : CoreState) (f : RF) (x i : Nat) : (c.put f x i).alien = c.alien := rfl
@[simp] theorem CoreState.put_ecc (c : CoreState) (f : RF) (x i : Nat) : (c.put f x i).ecc = c.ecc := rfl
@[simp] theorem CoreState.put_tags (c : CoreState) (f : RF) (x i : Nat) : (c.put f x i).tags = c.tags := rfl
@[simp] theorem CoreState.put_xregs (c : CoreState) (f : RF) (x i : Nat) : (c.put f x i).xregs = c.xregs := rfl
@[simp] theorem CoreState.put_sstore (c : CoreState) (f : RF) (x i : Nat) : (c.put f x i).sstore = c.sstore := rfl
@[simp] theorem CoreState.put_vregs (c : CoreState) (f : RF) (x i : Nat) : (c.put f x i).vregs = c.vregs := rfl
@[simp] theorem CoreState.put_acc (c : CoreState) (f : RF) (x i : Nat) : (c.put f x i).acc = c.acc := rfl
@[simp] theorem CoreState.put_active (c : CoreState) (f : RF) (x i : Nat) : (c.put f x i).active = c.active := rfl
@[simp] theorem CoreState.put_shadow (c : CoreState) (f : RF) (x i : Nat) : (c.put f x i).shadow = c.shadow := rfl
@[simp] theorem CoreState.put_latch (c : CoreState) (f : RF) (x i : Nat) : (c.put f x i).latch = c.latch := rfl
@[simp] theorem CoreState.put_side (c : CoreState) (f : RF) (x i : Nat) : (c.put f x i).side = c.side := rfl
@[simp] theorem CoreState.put_pass (c : CoreState) (f : RF) (x i : Nat) : (c.put f x i).pass = c.pass := rfl
@[simp] theorem CoreState.put_tiles (c : CoreState) (f : RF) (x i : Nat) : (c.put f x i).tiles = c.tiles := rfl
@[simp] theorem CoreState.put_commitQ (c : CoreState) (f : RF) (x i : Nat) : (c.put f x i).commitQ = c.commitQ := rfl
@[simp] theorem CoreState.put_draining (c : CoreState) (f : RF) (x i : Nat) : (c.put f x i).draining = c.draining := rfl
@[simp] theorem CoreState.put_params (c : CoreState) (f : RF) (x i : Nat) : (c.put f x i).params = c.params := rfl
@[simp] theorem CoreState.put_records (c : CoreState) (f : RF) (x i : Nat) : (c.put f x i).records = c.records := rfl
@[simp] theorem CoreState.put_desc (c : CoreState) (f : RF) (x i : Nat) : (c.put f x i).desc = c.desc := rfl
@[simp] theorem CoreState.put_route (c : CoreState) (f : RF) (x i : Nat) : (c.put f x i).route = c.route := rfl
@[simp] theorem CoreState.put_plan (c : CoreState) (f : RF) (x i : Nat) : (c.put f x i).plan = c.plan := rfl
@[simp] theorem CoreState.put_strand (c : CoreState) (f : RF) (x i : Nat) : (c.put f x i).strand = c.strand := rfl
@[simp] theorem CoreState.put_iss (c : CoreState) (f : RF) (x i : Nat) : (c.put f x i).iss = c.iss := rfl
@[simp] theorem CoreState.put_fetchWin (c : CoreState) (f : RF) (x i : Nat) : (c.put f x i).fetchWin = c.fetchWin := rfl
@[simp] theorem CoreState.put_vecQ (c : CoreState) (f : RF) (x i : Nat) : (c.put f x i).vecQ = c.vecQ := rfl
@[simp] theorem CoreState.put_arrQ (c : CoreState) (f : RF) (x i : Nat) : (c.put f x i).arrQ = c.arrQ := rfl
@[simp] theorem CoreState.put_estQ (c : CoreState) (f : RF) (x i : Nat) : (c.put f x i).estQ = c.estQ := rfl
@[simp] theorem CoreState.put_loadQ (c : CoreState) (f : RF) (x i : Nat) : (c.put f x i).loadQ = c.loadQ := rfl
@[simp] theorem CoreState.put_storeQ (c : CoreState) (f : RF) (x i : Nat) : (c.put f x i).storeQ = c.storeQ := rfl
@[simp] theorem CoreState.put_started (c : CoreState) (f : RF) (x i : Nat) : (c.put f x i).started = c.started := rfl
@[simp] theorem CoreState.put_exec (c : CoreState) (f : RF) (x i : Nat) : (c.put f x i).exec = c.exec := rfl
@[simp] theorem CoreState.put_ldgQ (c : CoreState) (f : RF) (x i : Nat) : (c.put f x i).ldgQ = c.ldgQ := rfl
@[simp] theorem CoreState.put_ldgExec (c : CoreState) (f : RF) (x i : Nat) : (c.put f x i).ldgExec = c.ldgExec := rfl
@[simp] theorem CoreState.put_ldgWait (c : CoreState) (f : RF) (x i : Nat) : (c.put f x i).ldgWait = c.ldgWait := rfl
@[simp] theorem CoreState.put_pushHeld (c : CoreState) (f : RF) (x i : Nat) : (c.put f x i).pushHeld = c.pushHeld := rfl
@[simp] theorem CoreState.put_accWin (c : CoreState) (f : RF) (x i : Nat) : (c.put f x i).accWin = c.accWin := rfl
@[simp] theorem CoreState.put_rels (c : CoreState) (f : RF) (x i : Nat) : (c.put f x i).rels = c.rels := rfl
@[simp] theorem CoreState.put_waits (c : CoreState) (f : RF) (x i : Nat) : (c.put f x i).waits = c.waits := rfl
@[simp] theorem CoreState.put_accesses (c : CoreState) (f : RF) (x i : Nat) : (c.put f x i).accesses = c.accesses := rfl
@[simp] theorem CoreState.put_banking (c : CoreState) (f : RF) (x i : Nat) : (c.put f x i).banking = c.banking := rfl
@[simp] theorem CoreState.put_portData (c : CoreState) (f : RF) (x i : Nat) : (c.put f x i).portData = c.portData := rfl
@[simp] theorem CoreState.put_atPort (c : CoreState) (f : RF) (x i : Nat) : (c.put f x i).atPort = c.atPort := rfl
@[simp] theorem CoreState.put_repairs (c : CoreState) (f : RF) (x i : Nat) : (c.put f x i).repairs = c.repairs := rfl
@[simp] theorem CoreState.put_deltas (c : CoreState) (f : RF) (x i : Nat) : (c.put f x i).deltas = c.deltas := rfl
@[simp] theorem CoreState.put_washEnd (c : CoreState) (f : RF) (x i : Nat) : (c.put f x i).washEnd = c.washEnd := rfl
@[simp] theorem CoreState.put_sweepRow (c : CoreState) (f : RF) (x i : Nat) : (c.put f x i).sweepRow = c.sweepRow := rfl
@[simp] theorem CoreState.put_sweepDue (c : CoreState) (f : RF) (x i : Nat) : (c.put f x i).sweepDue = c.sweepDue := rfl
@[simp] theorem CoreState.put_sweepWaited (c : CoreState) (f : RF) (x i : Nat) : (c.put f x i).sweepWaited = c.sweepWaited := rfl
@[simp] theorem CoreState.put_leaseOld (c : CoreState) (f : RF) (x i : Nat) : (c.put f x i).leaseOld = c.leaseOld := rfl
@[simp] theorem CoreState.put_isolated (c : CoreState) (f : RF) (x i : Nat) : (c.put f x i).isolated = c.isolated := rfl
@[simp] theorem CoreState.put_traceBuf (c : CoreState) (f : RF) (x i : Nat) : (c.put f x i).traceBuf = c.traceBuf := rfl
@[simp] theorem CoreState.put_lastLevel (c : CoreState) (f : RF) (x i : Nat) : (c.put f x i).lastLevel = c.lastLevel := rfl
@[simp] theorem CoreState.put_cyc (c : CoreState) (f : RF) (x i : Nat) : (c.put f x i).cyc = c.cyc := rfl

end Sys2Proof.Machine
end

