-- ==== Sys2Proof/Tests/Slice0.lean ====
section
/-! SUPPORT. Tests: for every statement states that meet its hypotheses, each with what its command does there, worked out by hand
from the rules; and the well-formedness checks, each with a term it refuses. -/

namespace Sys2Proof.Tests

open Sys2Proof.Machine

set_option Elab.async false

/-- What a command answers satisfies a test. -/
def runs (o : Out) (f : State → Bool) : Bool :=
  match o with
  | .next t => f t
  | _ => false

/-- A plain that is READY with shoals 0 and 1, and whose governor has the load budget of two shoals. -/
def s0 : State := { (State.reset.put F.plnGeom2_shoalMaskLo 3).put F.imgStat_state 6 with gov.limit := 8192000 }

/-- It with its core 0 changed. -/
def core0 (f : CoreState → CoreState) (s : State := s0) : State := s.modCore 0 f

/-- A register of the scalar processor. -/
def setX (r : Nat) (v : Word) (c : CoreState) : CoreState := { c with xregs := Sparse.set 0 c.xregs r v }


/-! Scalar -/
/-- Core 0 with x1 = 7, x2 = 0xFFFF_FFFE (-2), x4 = 1.5 and x5 = 0.5 in binary32. -/
def sx : State := core0 (fun c => setX 5 0x3F000000 (setX 4 0x3FC00000 (setX 2 0xFFFFFFFE (setX 1 7 c))))

/-- A command of core 0 leaves this in a register. -/
def gives (i : Instr) (r : Nat) (v : Word) (s : State := sx) : Bool :=
  s.canonical && s.executes 0 && runs (exec i s) (fun t => (t.core 0).x r == v && (t.core 0).iss.scal.isNone)
theorem test_add : (gives (.add 0 3 1 2) 3 5 && gives (.add 0 0 1 2) 0 0 : Bool) = true := by decide +kernel

theorem test_sub : (gives (.sub 0 1 1 2) 1 9 : Bool) = true := by decide +kernel

theorem test_logic : (gives (.and 0 3 1 2) 3 6 && gives (.or 0 3 1 2) 3 0xFFFFFFFF &&
  gives (.xor 0 3 1 2) 3 0xFFFFFFF9 : Bool) = true := by decide +kernel

theorem test_shifts : (gives (.sll 0 3 1 2) 3 (7 <<< 30) && gives (.srl 0 3 2 1) 3 0x1FFFFFF &&
  gives (.sra 0 3 2 1) 3 0xFFFFFFFF : Bool) = true := by decide +kernel

theorem test_compares : (gives (.slt 0 3 2 1) 3 1 && gives (.sltu 0 3 2 1) 3 0 : Bool) = true := by decide +kernel

theorem test_mul : (gives (.mul 0 3 1 2) 3 0xFFFFFFF2 && gives (.mulhu 0 3 2 2) 3 0xFFFFFFFC : Bool) = true := by decide +kernel

theorem test_immediates : (gives (.addi 0 3 1 0xFFFF) 3 6 && gives (.andi 0 3 2 0xFFF0) 3 0xFFFFFFF0 && gives (.ori 0 3 1 8) 3 15 &&
  gives (.xori 0 3 1 1) 3 6 : Bool) = true := by decide +kernel

theorem test_immediate_shifts : (gives (.slli 0 3 1 33) 3 14 && gives (.srli 0 3 2 31) 3 1 && gives (.srai 0 3 2 31) 3 0xFFFFFFFF &&
  gives (.lui 0 3 0xABCD) 3 0xABCD0000 : Bool) = true := by decide +kernel

theorem test_float_compares : (gives (.feq 0 3 4 4) 3 1 && gives (.flt 0 3 5 4) 3 1 && gives (.fle 0 3 4 5) 3 0 : Bool) = true := by decide +kernel

theorem test_float_converts : (gives (.fcvtWS 0 3 4) 3 2 && gives (.fcvtSW 0 3 2) 3 0xC0000000 : Bool) = true := by decide +kernel

theorem test_floats : (gives (.fadd 0 3 4 5) 3 0x40000000 && gives (.fsub 0 3 4 5) 3 0x3F800000 && gives (.fmul 0 3 4 5) 3 0x3F400000 &&
  gives (.fdiv 0 3 4 5) 3 0x40400000 : Bool) = true := by decide +kernel

theorem test_float_choices : (gives (.fmin 0 3 4 5) 3 0x3F000000 && gives (.fmax 0 3 4 5) 3 0x3FC00000 : Bool) = true := by decide +kernel

theorem test_divu : (gives (.divu 0 3 2 1) 3 0x24924924 && gives (.remu 0 3 2 1) 3 2 : Bool) = true := by decide +kernel

/-! Memory, control and sync slot -/
/-- COVE_CFG of an enabled cove of `slots` slots of 64 * 2^size bytes at `base`, with other bits added. -/
def coveCfg (base size slots : Nat) (more : Nat := 0) : Reg64 := BitVec.ofNat 64 (2 ^ 63 + more + slots * 2 ^ 32 + size * 2 ^ 25 + base)

/-- Core with a cove. -/
def withCove (n base size slots tagBase : Nat) (c : CoreState) (more : Nat := 0) : CoreState :=
  (c.setReg (F.coveCfg_enable.addr n) (coveCfg base size slots more)).setReg (F.coveAux_wm.addr n) (BitVec.ofNat 64 tagBase)

/-- Code in cove 0, two slots of 64 bytes at 0. -/
def cs : State := core0 (fun c => { withCove 0 0 0 2 0 c with basin := [(12, 1)], iss := { c.iss with curOff := 8, off := 12, curLen := 1, tag := 5 } }) sx

/-- The core's fault record is as R218 says. -/
def faults (i : Instr) (cls unit : Nat) (s : State := sx) : Bool :=
  s.canonical && s.executes 0 && (s.core 0).faultOpen && runs (exec i s) (fun t =>
    (t.core 0).flag F.corCtl_faulted && (t.core 0).get F.corFault_class == cls && (t.core 0).get F.corFault_unit == unit &&
    (t.core 0).get F.corFault_tag == (s.core 0).iss.tag.toNat && !(t.core 0).iss.running && (t.core 0).iss.stopping)

/-- Core 0 after a command. -/
def core0After (i : Instr) (s : State) (f : CoreState → Bool) : Bool :=
  s.canonical && s.executes 0 && runs (exec i s) (fun t => f (t.core 0))

/-- A store of four bytes at 0x14 of the scalar store, and eight bytes of the basin at 0x1000. -/
def ms : State := core0 (fun c => { c with sstore := Bytes.write 0 [] 0x14 [1, 2, 3, 4], basin := Bytes.write 0 [] 0x1000 [9, 0, 0, 0, 8, 0, 0, 0] })
  (core0 (fun c => setX 7 0xFFFC (setX 6 0x1000 c)) sx)

/-- An accumulate window of binary32 over 64 bytes at 0x1000. -/
def msWin : State := core0 (fun c => { c with accWin := [⟨3, 0x1000, 64, false, false, 0⟩] }) ms
theorem test_divide_by_zero : (faults (.divu 0 3 1 0) clsTrap 1 && faults (.remu 0 3 1 0) clsTrap 1 : Bool) = true := by decide +kernel

theorem test_lw : (gives (.lw 0 3 0 0x14) 3 0x04030201 ms : Bool) = true := by decide +kernel

theorem test_sw : (core0After (.sw 0 1 7 0) ms (fun c => Bytes.read 0 c.sstore 0xFFFC 4 == [7, 0, 0, 0] &&
  Bytes.read 0 c.sstore 0x14 4 == [1, 2, 3, 4]) : Bool) = true := by decide +kernel

theorem test_lw_outside : (faults (.lw 0 3 0 0x16) clsBounds 1 ms && faults (.sw 0 1 7 4) clsBounds 1 ms : Bool) = true := by decide +kernel

theorem test_bld : (let c := ms.core 0
  !c.sclForeign (ms.carve 0) (c.sclBasin 6 0) && (c.slotsOf [0x1000]).all (c.readPasses c.iss.expect) && !c.poisoned 0x1000 &&
    (c.errorsIn 0x1000).isEmpty && ms.banksFree 0 4 &&
  gives (.bld 0 8 6 0) 8 9 ms && gives (.bld 0 8 6 0) 9 8 ms &&
    runs (exec (.bld 0 8 6 0) ms) (fun t => t.gov.cur == ms.gov.cur + 4) : Bool) = true := by decide +kernel

theorem test_bst : (let c := ms.core 0
  !c.sclForeign (ms.carve 0) (c.sclBasin 6 1) &&
  (c.slotsOf [0x1000]).all (fun x => !ms.inWindow 0 x && c.writePasses (noProducer c.iss.count) x) && !c.shadowHolds [0x1000] &&
  !c.poisoned 0x1000 && (c.errorsIn 0x1000).isEmpty && (c.adding .sclWrite (some c.iss.count) 0x1008).isNone &&
  ms.banksFree 0 (c.writeCharge .sclWrite (some c.iss.count) [⟨0x1008, natBytes 8 0⟩]) &&
  core0After (.bst 0 4 6 1) ms (fun d => d.peek 0x1008 8 == [0, 0, 0xC0, 0x3F, 0, 0, 0, 0x3F] &&
    d.peek 0x1000 8 == c.peek 0x1000 8) : Bool) = true := by decide +kernel

theorem test_bst_accumulates : ((msWin.core 0).windowAt 0x1008 == some ⟨3, 0x1000, 64, false, false, 0⟩ && (msWin.core 0).adding .sclWrite (some (msWin.core 0).iss.count) 0x1008 == some ⟨3, 0x1000, 64, false, false, 0⟩ &&
  core0After (.bst 0 4 6 1) (core0 (fun c => { c with basin := Bytes.write 0 c.basin 0x1008 [0, 0, 0, 0x3F, 0, 0, 0, 0] }) msWin)
    (fun d => d.peek 0x1008 8 == [0, 0, 0, 0x40, 0, 0, 0, 0x3F]) : Bool) = true := by decide +kernel

theorem test_beq : (core0After (.beq 0 1 1 0xFFFE) cs (fun c => c.iss.off == 0 && c.get F.corSclStat_taken == 1 && c.iss.scal.isNone) &&
  core0After (.beq 0 1 2 0xFFFE) cs (fun c => c == { (cs.core 0) with iss := { (cs.core 0).iss with scal := none } }) : Bool) = true := by decide +kernel

theorem test_bne : (core0After (.bne 0 1 2 2) cs (fun c => c.iss.off == 16) &&
  core0After (.bne 0 1 1 2) cs (fun c => c.iss.off == 12) : Bool) = true := by decide +kernel

theorem test_blt : (core0After (.blt 0 2 1 2) cs (fun c => c.iss.off == 16) &&
  core0After (.blt 0 1 2 2) cs (fun c => c.iss.off == 12) : Bool) = true := by decide +kernel

theorem test_bge : (core0After (.bge 0 1 2 2) cs (fun c => c.iss.off == 16) &&
  core0After (.bge 0 2 1 2) cs (fun c => c.iss.off == 12) : Bool) = true := by decide +kernel

theorem test_bltu : (core0After (.bltu 0 1 2 2) cs (fun c => c.iss.off == 16) &&
  core0After (.bltu 0 2 1 2) cs (fun c => c.iss.off == 12) : Bool) = true := by decide +kernel

theorem test_bgeu : (core0After (.bgeu 0 2 1 2) cs (fun c => c.iss.off == 16) &&
  core0After (.bgeu 0 1 2 2) cs (fun c => c.iss.off == 12) : Bool) = true := by decide +kernel

theorem test_branch_outside : (faults (.beq 0 1 1 30) clsBounds 1 cs && faults (.beq 0 1 1 0xFFFD) clsBounds 1 cs : Bool) = true := by decide +kernel

theorem test_jal : (core0After (.jal 0 3 31) cs (fun c => c.iss.off == 124 && c.x 3 == 12 && c.get F.corSclStat_taken == 1) &&
  faults (.jal 0 3 32) clsBounds 1 cs : Bool) = true := by decide +kernel

theorem test_jalr : (core0After (.jalr 0 1 1 0xFFFF) (core0 (setX 1 8) cs) (fun c => c.iss.off == 4 && c.x 1 == 12) &&
  faults (.jalr 0 3 1 0) clsBounds 1 cs : Bool) = true := by decide +kernel

theorem test_tide : (gives (.tide 0 8) 8 0x89ABCDEF { sx with now := 0x0123456789ABCDEF } &&
  gives (.tide 0 8) 9 0x01234567 { sx with now := 0x0123456789ABCDEF } : Bool) = true := by decide +kernel

theorem test_tide_odd : (faults (.tide 0 7) clsDecode 1 : Bool) = true := by decide +kernel

theorem test_trap : (faults (.trap 0 0xBEEF) clsTrap 1 cs && core0After (.trap 0 0xBEEF) cs (fun c => c.get F.dbgFaultAux_imm16 == 0xBEEF &&
  c.get F.corFault_wordOff == 2) : Bool) = true := by decide +kernel

theorem test_custom : (let s := sx.put F.plnGeom1_customOps 2
  s.canonical && s.executes 0 && (s.core 0).faultOpen && decide ((1 : BitVec 6).toNat < s.get F.plnGeom1_customOps) &&
    faults (.custom 0 2 3 1 2) clsDecode 1 s : Bool) = true := by decide +kernel

theorem test_mark : (core0After (.mark 0 0x123456) cs (fun c => c.iss.tag == 0x123456 && c.get F.corTagNow_tag == 0x123456 &&
  c.iss.deadline.isNone && c.iss.sync.isNone) : Bool) = true := by decide +kernel

theorem test_expect : (core0After (.expect 0 7 0xABCD) cs (fun c => c.iss.expect == some (7, 0xABCD)) : Bool) = true := by decide +kernel

theorem test_lease : (core0After (.lease 0 6) cs (fun c => c.get F.ldgLeaseAct_set == 6) : Bool) = true := by decide +kernel

theorem test_stop : (core0After (.stop 0) (core0 (fun c => { c with iss := { c.iss with running := true } }) cs) (fun c => c.iss.stopping &&
  !c.iss.running) : Bool) = true := by decide +kernel

/-- Bay 0 with shoal 0, READY and armed: a step of 4 frames of 1,024 ns from 2,048 on. -/
def bs (s : State := sx) : State :=
  { ((((s.put F.bayCtl_state 1 0).put F.bayShoalsLo_shoalsLo 1 0).put F.tidSched_arm 1 0).put F.tidSched_frameLog2 10 0).put F.tidStart_start 2048 0
    with bays := [(0, { BayRun.idle with frames := 4, started := true })], now := 2100 }
theorem test_dline : ((bs.gridOf 0 == some (2048, 2048 + 3 * 1024)) && core0After (.dline 0 500) bs (fun c => c.iss.deadline == some 2548 &&
  c.get F.corDeadline_deadline == 2548) &&
  core0After (.dline 0 5000) bs (fun c => c.iss.deadline == some 5120) : Bool) = true := by decide +kernel

theorem test_dline_unarmed : ((cs.gridOf 0).isNone && core0After (.dline 0 500) cs (fun c => c.iss.deadline.isNone &&
  c.get F.corDeadline_deadline == 0) : Bool) = true := by decide +kernel

theorem test_rel : (core0After (.rel 0 0 1 2) cs (fun c => c.rels == [⟨0, 1, 2, some 0, 0, 5, 8, none, false, 0⟩]) : Bool) = true := by decide +kernel

theorem test_wait_passes : (let s := core0 (fun c => { c with tags := [(1, ⟨2, 0x77, false, none⟩)], iss := { c.iss with sync := some 0 } }) cs
  (s.core 0).waitPasses 0 1 0x77 && core0After (.wait 0 0 1 0x77) s (fun c => c.iss.sync.isNone) : Bool) = true := by decide +kernel

/-! Fetch, issue and the ends of operations -/
/-- The header of a word: its slots' mask, POST and SHORT_TAG. -/
def hdr (mask : Nat) (post : Nat := 0) (st : Nat := 0) : Nat := mask + 64 * maskUnits mask + 1024 * post + 65536 * st

/-- Core 0 runs the code of `units` at 0 of cove 0, and its window holds the first chunk. -/
def prog (units : List Nat) (s : State := sx) : State :=
  let bs := padTo 64 (units.flatMap (natBytes 4))
  core0 (fun c => { withCove 0 0 0 2 0 c with basin := Bytes.write 0 [] 0 bs, fetchWin := [(0, bs)], iss := { c.iss with running := true, count := 7 } }) s

/-- It with nothing fetched, and START set. -/
def unfetched : State := core0 (fun c => { c.put F.corCtl_start 1 with fetchWin := [], tags := Sparse.ofList Tag.ebb [(0, ⟨2, 0, false, none⟩), (1, ⟨2, 0, false, none⟩)] }) (prog [hdr 1, 1])

/-- WORD_ISSUE issues the word whole, with so many operations. -/
def issues (i : Instr) (s : State) (n : Nat) (f : State → Bool) : Bool :=
  let c := (s.core 0).skipMarkers 64
  match c.nextWord with
  | some (.ok w) => s.canonical && s.executes 0 && (s.core 0).mayIssue && (s.core 0).targetOk (s.core 0).iss.off && (c.breakpoint w).isNone &&
    (match s.judge 0 0 c w with
     | .issue _ ops false => ops.length == n
     | _ => false) &&
    runs (exec i s) (fun t => f t && (t.core 0).queued.length == c.queued.length + n && (t.core 0).iss.off == c.iss.off + w.len * 4 &&
      (t.core 0).get F.corCountNow_count == 1 && (t.core 0).iss.count == 8)
  | _ => false

/-- A vector operation of Table 5-2 of binary32: code, registers and element count. -/
def vecSlot (code vd va vb count : Nat) : List Nat :=
  let v := code + vd * 512 + va * 2 ^ 14 + vb * 2 ^ 19 + count * 2 ^ 34
  [v % 2 ^ 32, v / 2 ^ 32]
theorem test_fetch : (let s := unfetched
  let c := s.core 0
  s.canonical && s.executes 0 && c.iss.running && !c.ending && c.targetOk 0 && c.mayFetch 0 && c.mayFetch 1 && !c.sclWantsPort && s.banksFree 0 4 &&
    (c.slotsOf [0]).all (c.readPasses none) && !c.poisoned 0 && (c.errorsIn 0).isEmpty &&
  runs (exec (.fetchChunk 0 0) s) (fun t => (t.core 0).fetchWin == [(0, c.peek 0 64)] && !(t.core 0).flag F.corCtl_start && t.gov.cur == 4) &&
  runs (exec (.fetchChunk 0 1) s) (fun t => (t.core 0).fetchWin == [(1, c.peek 64 64)] &&
    (t.core 0).flag F.corCtl_start) : Bool) = true := by decide +kernel

theorem test_issue_scalar_vector : (issues (.wordIssue 0) (prog ([hdr 3 1 0xBEEF, 1 + 3 * 64 + 1 * 2048 + 2 * 65536] ++ vecSlot 1 2 0 1 8)) 1
    (fun t => (t.core 0).iss.scal == some (BitVec.ofNat 32 (1 + 3 * 64 + 1 * 2048 + 2 * 65536)) && (t.core 0).iss.stamp == 0xBEEF &&
      (t.core 0).iss.post) : Bool) = true := by decide +kernel

theorem test_issue_mark : (issues (.wordIssue 0) (prog [hdr 32, 1 + 16 * 0x123456]) 0 (fun t => (t.core 0).iss.tag == 0x123456 &&
  (t.core 0).get F.corTagNow_tag == 0x123456) : Bool) = true := by decide +kernel

theorem test_issue_fence_mark : (let s := core0 (fun c => { c with iss := { c.iss with passFence := true } }) (bs (prog [hdr 32, 1 + 16 * 0xF80000]))
  (s.armedBay 0).isSome && isFenceMark 0xF80000 &&
    issues (.wordIssue 0) s 0 (fun t => (t.core 0).iss.tag == 0xF80000) : Bool) = true := by decide +kernel

theorem test_issue_frame_mark : (let s := { bs (prog [hdr 32, 1 + 16 * 0xF00002]) with now := 2048 + 2 * 1024 }
  s.armedBay 0 == some 0 && isTideMark 0xF00002 && !isFenceMark 0xF00002 && markFrame 0xF00002 == 2 &&
    decide (s.stepStartAt 0 + 2 * s.frameLen 0 ≤ s.now) &&
  issues (.frameMarkIssue 0) s 0 (fun t => (t.core 0).get F.corSlip_lastFrame == 2) : Bool) = true := by decide +kernel

theorem test_core_stopped : (let s := core0 (fun c => { c with iss := { c.iss with stopping := true } }) (core0 (fun c => c.put F.corCtl_stopped 0) sx)
  !(s.core 0).flag F.corCtl_stopped && s.opsEnded 0 && s.canonical && s.executes 0 &&
    runs (exec (.coreStopped 0) s) (fun t => (t.core 0).flag F.corCtl_stopped && !(t.core 0).iss.stopping) : Bool) = true := by decide +kernel

theorem test_context_loss_stop : (let s := core0 (fun c => { c.put F.corCtl_stopped 0 with iss := { c.iss with running := true } }) (sx.put F.ctxCfg_state 2 0)
  s.contextGone ((s.core 0).get F.corCtl_ctx) && !(s.core 0).flag F.corCtl_faulted && core0After (.contextLossStop 0) s (fun c => c.iss.lost &&
    !c.iss.running && c.iss.stopping) : Bool) = true := by decide +kernel

/-- The word of an operation: stamp 0x77, tag 9 of context 0. -/
def w9 : WordCtx := ⟨9, true, 0x77, none, none, 8, 0, 3⟩

/-- The operation of core 0 stands in the queue of its unit, as WORD_ISSUE puts it there. -/
def inQueue (w : WordCtx) (op : QOp) (s : State) : State := core0 (fun c => c.setQueue (unitOf op) [⟨w, op⟩]) s

/-- A PARAM that has read its header, with slot 1 of cove 0 to post. -/
def ended (posts : List (Nat × Nat)) : State := core0 (fun c => { c with exec := [⟨w9, .param ⟨0, 1, 0⟩, [], [], posts⟩] }) cs
theorem test_operation_complete : (let s := ended []
  (s.core 0).exec.all (fun y => y.pend.isEmpty) && s.stillBusy 0 0 ⟨w9, .param ⟨0, 1, 0⟩, [], [], []⟩ == false &&
    core0After (.operationComplete 0) s (fun c => c.exec.isEmpty && c.tags == (cs.core 0).tags) : Bool) = true := by decide +kernel

theorem test_operation_posts : (let s := ended [(0, 1)]
  let c := s.core 0
  !c.held (c.cove 0) && (c.tag (c.cove 0) 1).free && (c.tagSeen (c.cove 0) 1).free && !c.windowSlot (c.cove 0, 1) &&
    s.stillBusy 0 0 ⟨w9, .param ⟨0, 1, 0⟩, [], [], [(0, 1)]⟩ == false &&
  core0After (.operationComplete 0) s (fun d => d.exec.isEmpty &&
    d.tag (c.cove 0) 1 == ⟨2, 0x77, false, some (opProducer w9 (.param ⟨0, 1, 0⟩))⟩) : Bool) = true := by decide +kernel

theorem test_deadline : (let s := { core0 (fun c => { c with waits := [⟨4, { w9 with deadline := some 50 }, 0x1000, 0⟩] }) sx with now := 50 }
  !s.deadlinesHeld 0 && s.due (some 50) && s.canonical && s.executes 0 && (s.core 0).rels.isEmpty && (s.core 0).accesses.isEmpty && (s.core 0).faultOpen &&
    runs (exec (.deadlineExpire 0) s) (fun t => (t.core 0).flag F.corCtl_faulted &&
    (t.core 0).get F.corFault_class == clsTimeout &&
    (t.core 0).get F.corFault_unit == 4 && (t.core 0).get F.corFault_tag == 9 && (t.core 0).waits.isEmpty) &&
      !runs (exec (.deadlineExpire 0) { s with now := 49 }) (fun t => (t.core 0).waits.isEmpty) : Bool) = true := by decide +kernel

/-! The vector engine -/
/-- Bytes of the vector registers below. -/
def vbytes : List (Nat × Byte) :=
  [(0, [0x3FC00000, 0xC0000000]), (2048, [0x3F000000, 0x40800000]), (4096, [0x3F800000, 0]), (6144, [5, 0xFFFFFFFD]), (8192, [7, 2])].foldl
    (fun (m : List (Nat × Byte)) (e : Nat × List Nat) => Bytes.write 0 m e.1 (e.2.flatMap (natBytes 4))) []

/-- Vector registers v0 = 1.5, -2, v1 = 0.5, 4 and v2 = 1, 0 in binary32, v3 = 5, -3 and v4 = 7, 2 in INT32. -/
def vs : State := core0 (fun c => { c with vregs := vbytes }) (sx.put F.plnGeom0_vecLanes 64)

/-- Arguments of a vector operation on two elements. -/
def va (ty dty vd a b c : Nat) (n : Nat := 2) : VecArgs := ⟨ty, dty, vd, a, b, c, n, none, 0x3FC00000⟩

/-- A vector operation of core 0 leaves these two elements in its destination. -/
def vec (i : Instr) (code : Nat) (a : VecArgs) (r : List Nat) : Bool :=
  let c := vs.core 0
  vs.opNext 0 w9 (.vec code a) && !c.vregBusy w9 (.vec code a) && decide (vecCount a ≤ vecGroup 64 code a) &&
  core0After i vs (fun d => (List.range 2).map (d.velem a.dty a.vd) == r && d.get F.corVecStat_groups == 1 && d.exec.length == 1 &&
    Bytes.read 0 d.vregs (a.vd * 2048 + 2 * vecBytes a.dty) 8 == List.replicate 8 0)
theorem test_vec_arith : (vec (.vAdd 0 w9 (va 0 0 5 0 1 0)) 1 (va 0 0 5 0 1 0) [0x40000000, 0x40000000] &&
  vec (.vSub 0 w9 (va 0 0 0 0 1 0)) 2 (va 0 0 0 0 1 0) [0x3F800000, 0xC0C00000] &&
  vec (.vMul 0 w9 (va 0 0 5 0 1 0)) 3 (va 0 0 5 0 1 0) [0x3F400000, 0xC1000000] &&
    vec (.vFma 0 w9 (va 0 0 5 0 1 2)) 4 (va 0 0 5 0 1 2) [0x3FE00000, 0xC1000000] : Bool) = true := by decide +kernel

theorem test_vec_integers : (vec (.vAdd 0 w9 (va 1 1 5 3 4 0)) 1 (va 1 1 5 3 4 0) [12, 0xFFFFFFFF] &&
  vec (.vMul 0 w9 (va 1 1 5 3 4 0)) 3 (va 1 1 5 3 4 0) [35, 0xFFFFFFFA] : Bool) = true := by decide +kernel

theorem test_vec_choose : (vec (.vMin 0 w9 (va 0 0 5 0 1 0)) 5 (va 0 0 5 0 1 0) [0x3F000000, 0xC0000000] &&
  vec (.vMax 0 w9 (va 0 0 5 0 1 0)) 6 (va 0 0 5 0 1 0) [0x3FC00000, 0x40800000] &&
  vec (.vSel 0 w9 (va 0 0 5 0 1 2)) 12 (va 0 0 5 0 1 2) [0x3FC00000, 0x40800000] : Bool) = true := by decide +kernel

theorem test_vec_sign : (vec (.vAbs 0 w9 (va 0 0 5 0 0 0)) 7 (va 0 0 5 0 0 0) [0x3FC00000, 0x40000000] &&
  vec (.vNeg 0 w9 (va 1 1 5 3 0 0)) 8 (va 1 1 5 3 0 0) [0xFFFFFFFB, 3] : Bool) = true := by decide +kernel

theorem test_vec_compare : (vec (.vCmpEq 0 w9 (va 1 1 5 3 3 0)) 9 (va 1 1 5 3 3 0) [1, 1] &&
  vec (.vCmpLt 0 w9 (va 1 1 5 3 4 0)) 10 (va 1 1 5 3 4 0) [1, 1] &&
  vec (.vCmpLe 0 w9 (va 0 0 5 0 1 0)) 11 (va 0 0 5 0 1 0) [0, 0x3F800000] : Bool) = true := by decide +kernel

theorem test_vec_fill : (vec (.vIota 0 w9 (va 0 0 5 0 0 0)) 13 (va 0 0 5 0 0 0) [0, 0x3F800000] &&
  vec (.vBcast 0 w9 (va 0 0 5 0 0 0)) 14 (va 0 0 5 0 0 0) [0x3FC00000, 0x3FC00000] : Bool) = true := by decide +kernel

theorem test_vec_convert : (vec (.vCvt 0 w9 (va 0 1 5 0 0 0)) 15 (va 0 1 5 0 0 0) [2, 0xFFFFFFFE] &&
  vec (.vCvt 0 w9 (va 1 2 5 3 0 0)) 15 (va 1 2 5 3 0 0) [0x40A0, 0xC040] : Bool) = true := by decide +kernel

theorem test_vec_functions : (vec (.vExp2 0 w9 (va 0 0 5 2 0 0)) 16 (va 0 0 5 2 0 0) [0x40000000, 0x3F800000] &&
  vec (.vLog2 0 w9 (va 0 0 5 1 0 0)) 17 (va 0 0 5 1 0 0) [0xBF800000, 0x40000000] &&
  vec (.vRcp 0 w9 (va 0 0 5 1 0 0)) 18 (va 0 0 5 1 0 0) [0x40000000, 0x3E800000] &&
    vec (.vRsqrt 0 w9 (va 0 0 5 2 0 0)) 19 (va 0 0 5 2 0 0) [0x3F800000, 0x7F800000] &&
  vec (.vSqrt 0 w9 (va 0 0 5 1 0 0)) 20 (va 0 0 5 1 0 0) [0x3F3504F3, 0x40000000] : Bool) = true := by decide +kernel

theorem test_vec_reduce : (let red (i : Instr) (v : Word) : Bool := core0After i vs (fun c => c.x 9 == v && c.exec.length == 1)
  red (.vRsum 0 w9 (va 0 0 9 0 0 0)) 0xBF000000 && red (.vRmax 0 w9 (va 0 0 9 1 0 0)) 0x40800000 && red (.vRmax 0 w9 (va 1 1 9 3 0 0)) 5 &&
    red (.vRargmax 0 w9 (va 0 0 9 1 0 0)) 1 : Bool) = true := by decide +kernel

theorem test_vec_reduce_none : (core0After (.vRsum 0 w9 (va 0 0 9 0 0 0 0)) vs (fun c => c.xregs == (vs.core 0).xregs &&
  c.regs == (vs.core 0).regs && c.exec.length == 1) : Bool) = true := by decide +kernel

/-! The array and the estuary -/
/-- An operand of `rows` rows of `span` chunks from chunk `base` on. -/
def opnd (base rows span : Nat) : Operand := ⟨base, ⟨span, 1, span - 1, rows - 1, false, 0, 0, false, false, 0, 0⟩, 0, 0⟩

/-- A PASS of one INT8 tile into entry 4, its weights at 0x8000 and its activations at 0x6000. -/
def pa : PassArgs := ⟨7, 7, false, false, false, false, true, 0, 0, 0, 4, 0, none, none, opnd 512 1 128, opnd 384 1 1, false, false⟩

/-- A core of an array of 16 by 16 cells: weights 3 and 2 in rows 0 and 1 of column 0, activations 5 and -1. -/
def as_ : State := core0 (fun c => { c with basin := Bytes.write 0 (Bytes.write 0 (Bytes.write 0 [] 0x6000 [5, 255]) 0x8000 [3]) 0x8010 [2] })
  ((sx.put F.plnGeom0_arrRows 16).put F.plnGeom0_arrCols 16)

/-- The weights of its tile. -/
def wset : WSet := ⟨[(0, 3), (16, 2)], [], [], false, false⟩

/-- Its tile as the inlets deliver it, with what of it has swapped and been checked, and the checks it has failed. -/
def tile (swapped checks : List Nat) (fails : Nat) : Tile :=
  { Tile.issued (16, 16) w9 pa 0 0 0 with
    loaded := wset, parts := [], sided := true, latched := true, acts := [⟨padTo 16 [5, 255], [], []⟩]
    weights := if swapped.isEmpty then WSet.empty else wset, swapped := swapped, checks := checks, fails := fails }

/-- The core with such a tile in flight. -/
def ts (swapped checks : List Nat) (fails : Nat) : State := core0 (fun c => { c with tiles := [tile swapped checks fails], shadow := wset }) as_
theorem test_pass_begins : (let s := inQueue w9 (.pass pa) as_
  let a := { pa with run := some 0 }
  s.opNext 0 w9 (.pass pa) && (s.core 0).pass.isNone &&
  core0After (.pass 0 w9 pa) s (fun c => c.pass == some ⟨w9, pa, 0, 0, false⟩ && c.exec == [⟨w9, .pass pa, [], [], []⟩]) &&
  core0After (.pass 0 w9 a) (inQueue w9 (.pass a) as_) (fun c => c.pass.isNone && c.exec.length == 1) : Bool) = true := by decide +kernel

theorem test_tile_issue : (let s := core0 (fun c => { c with pass := some ⟨w9, pa, 0, 0, false⟩ }) as_
  let c := s.core 0
  c.tiles.isEmpty && (sideBeyond (s.carve 0) pa 0 0).isNone && s.sel F.prtCtl_enable == 0 && decide (partCount pa ≤ 16) &&
  c.readsClean none (c.tileReads s.geo pa 0 0) && !pa.wdec && !pa.adec && s.roomFor 0 (4 * (c.tileReads s.geo pa 0 0).length) &&
  core0After (.tileIssue 0) s (fun d => d.pass.isNone && d.shadow.bits == [(0, 3), (16, 2)] &&
    d.tiles.map (fun x => (x.acts.map (fun y => y.bytes), x.arrived, x.loaded.bits)) == [([padTo 16 [5, 255]], true, [(0, 3), (16, 2)])]) : Bool) = true := by decide +kernel

theorem test_segment_swap : (let s := ts [] [] 0
  let x := tile [] [] 0
  segments s.geo == (1, 1) && x.reached s.geo 0 0 && x.segReady s.geo 0 && !CoreState.commitFull s.geo (s.core 0) x 0 0 &&
  CoreState.linksFree s.geo (s.core 0) 0 0 && core0After (.segmentSwap 0 0 0) s (fun c => c.active.bits == [(0, 3), (16, 2)] &&
    c.tiles.map (fun x => (x.swapped, x.weights.bits)) == [([0], [(0, 3), (16, 2)])]) : Bool) = true := by decide +kernel

theorem test_residue_check : (let s := ts [0] [] 0
  columnSwapped s.geo (tile [0] [] 0) 0 && core0After (.residueCheck 0 0 none) s (fun c => c.tiles.map (fun x => x.checks) == [[0]]) &&
  core0After (.residueCheck 0 0 (some 130)) s (fun c => c.tiles == [({ tile [0] [] 0 with fails := 1 } : Tile).squash s.geo] &&
    c.get F.corResidue_lastCol == 2 && c.get F.corResidue_lastTag == 9) : Bool) = true := by decide +kernel

theorem test_residue_declared : (let s := ts [0] [] 1
  !(s.core 0).flag F.corCtl_faulted && core0After (.residueCheck 0 0 (some 3)) s (fun c => c.tiles.isEmpty && c.flag F.corResidue_declared &&
    c.get F.corFault_class == clsResidue &&
    c.get F.corFault_unit == 3 && c.get F.corFault_tag == 9 && !c.iss.running && c.iss.stopping) : Bool) = true := by decide +kernel

theorem test_tile_commit : (let s := ts [0] [0] 0
  swappedIn s.geo (tile [0] [0] 0) && (s.core 0).commitQ.isEmpty && (tileCommits s.geo (tile [0] [0] 0)).all (fun y => !(s.core 0).drainAhead s.geo y.w.count y.sums) &&
  core0After (.tileCommit 0) s (fun c => c.tiles.isEmpty && c.get F.corArrTiles_tiles == 1 && Sparse.get AccWord.zero c.acc 64 == ⟨13, true⟩ &&
    Sparse.get AccWord.zero c.acc 65 == ⟨0, true⟩) : Bool) = true := by decide +kernel

/-- A drain of entry 4 on with BIAS: format, RECORD_MODE and entries. -/
def dr (fmt recMode count : Nat) : DrainArgs := ⟨4, count, none, 0, ⟨0, false, fmt, false, false, 1, recMode, 0, 0, 2, false⟩, opnd 0x100 1 2, 0x8000 / 8, Operand.unused⟩

/-- Entry 4 of an array of 64 columns holds the integer 13 in lane 0, and the bias of lane 0 is 1.0. -/
def es : State := core0 (fun c => { c with acc := [(256, ⟨13, true⟩)], params := Bytes.write 0 [] 576 [0, 0, 0x80, 0x3F] }) (as_.put F.plnGeom0_arrCols 64)

/-- The operation of a drain meets what its statement supposes. -/
def mayDrain (s : State) (w : WordCtx) (a : DrainArgs) : Bool :=
  let c := s.core 0
  let lanes := lanesOf s.geo a.mode.cross
  let n := drainCount a * lanes
  let xs := (List.range n).map (fun k => c.chain a ⟨a.first + k / lanes, k % lanes, residualAt a (c.residualBytes a n) k⟩
    (accIn (Sparse.get AccWord.zero c.acc (a.first * lanes + k))))
  let out := if a.mode.outFmt = 14 then ([], []) else c.outputs a w.tag lanes xs
  let l := if a.mode.outFmt = 14 then [] else drainPieces a out.1 out.2
  s.opNext 0 w (.drain a) && decide (0 < drainCount a) && lanes == 64 && c.draining.isNone && !c.setHeld a.set &&
    (drainCycles s.geo a).all (fun y => y.all (fun g => c.groupWritten s.geo w.count g)) &&
    c.readsClean w.expect (residualChunks a n) && s.roomFor 0 (4 * ((residualChunks a n).length + l.length)) &&
  a.mode.strand == 0 && c.commitQ.isEmpty && !w.post && c.writesOpen l

/-- The word without POST. -/
def w0 : WordCtx := { w9 with post := false }
theorem test_drain : (let s := inQueue w0 (.drain (dr 15 1 1)) es
  mayDrain s w0 (dr 15 1 1) &&
  core0After (.drain 0 w0 (dr 15 1 1)) s (fun c => c.peek 0x4000 8 == [0, 0, 0x60, 0x41, 0, 0, 0, 0] &&
  c.records == [(1, 28, [0, 0, 0x60, 0xC1])] && c.exec.length == 1) : Bool) = true := by decide +kernel

theorem test_drain_mx : (let s := inQueue w0 (.drain (dr 5 0 2)) es
  mayDrain s w0 (dr 5 0 2) && core0After (.drain 0 w0 (dr 5 0 2)) s (fun c => c.peek 0x4000 2 == [112, 0] &&
  c.peek 0x8000 2 == [130, 0] && c.records.isEmpty) : Bool) = true := by decide +kernel

theorem test_drain_none : (let s := inQueue w0 (.drain (dr 14 2 1)) es
  mayDrain s w0 (dr 14 2 1) && core0After (.drain 0 w0 (dr 14 2 1)) s (fun c => c.basin == (es.core 0).basin &&
    c.records == [(1, 32, natBytes 4 0x3D924925)]) : Bool) = true := by decide +kernel

theorem test_softmax_record : (core0After (.softmaxRecord 0) (core0 (fun c => { c with records := [(1, 28, [0, 0, 0x60, 0xC1])] }) es) (fun c => c.records.isEmpty &&
  c.paramAt 1 28 == 0xC1600000 && c.paramAt 0 576 == 0x3F800000) : Bool) = true := by decide +kernel

theorem test_param : (let s := inQueue w9 (.param ⟨1, 1, 0x100⟩) (core0 (fun c => { c with basin := Bytes.write 0 [] 0x4010 [1, 2] }) es)
  s.opNext 0 w9 (.param ⟨1, 1, 0x100⟩) && s.banksFree 0 4 && !(s.core 0).drainHolds 1 && paramChunks ⟨1, 1, 0x100⟩ == [0x4000] &&
    (s.core 0).readsClean none [0x4000] &&
  core0After (.param 0 w9 ⟨1, 1, 0x100⟩) s (fun c => c.paramAt 1 16 == 0x201 && c.paramAt 0 576 == 0x3F800000 &&
    c.exec.length == 1) : Bool) = true := by decide +kernel

/-! Load and store queues -/
/-- Basin bytes 1 to 4 at 0x4000 and 5 to 8 at 0x4040, vector register v3 holding 9, 8. -/
def ls : State := core0 (fun c => { c with basin := Bytes.write 0 (Bytes.write 0 [] 0x4000 [1, 2, 3, 4]) 0x4040 [5, 6, 7, 8], vregs := Bytes.write 0 [] 6144 [9, 8] }) sx
theorem test_vload : (let v : MoveArgs := ⟨2, opnd 0x100 1 2, none⟩
  let s := inQueue w9 (.vload v) ls
  s.opNext 0 w9 (.vload v) && !(s.core 0).vregBusy w9 (.vload v) && (s.core 0).readsClean none (runStream v.opnd none) &&
    runStream v.opnd none == [0x4000, 0x4040] && s.banksFree 0 8 &&
  core0After (.vload 0 w9 v) s (fun c => Bytes.read 0 c.vregs 4096 4 == [1, 2, 3, 4] && Bytes.read 0 c.vregs 4160 4 == [5, 6, 7, 8] &&
    Bytes.read 0 c.vregs 6144 2 == [9, 8]) : Bool) = true := by decide +kernel

theorem test_dload : (let d : DloadArgs := ⟨3, 0, 0x100⟩
  let s := inQueue w9 (.dload d) ls
  s.opNext 0 w9 (.dload d) && (s.core 0).readsClean none [0x4000] && s.banksFree 0 4 &&
  core0After (.dload 0 w9 d) s (fun c => c.desc == [(6, 0x04030201)]) : Bool) = true := by decide +kernel

theorem test_tload : (let a : TierArgs := ⟨opnd 0x100 1 3, none, 7⟩
  let s := inQueue w9 (.tload a) ls
  s.opNext 0 w9 (.tload a) && core0After (.tload 0 w9 a) s (fun c => c.exec.length == 1) &&
  runs (exec (.tload 0 w9 a) s) (fun t => t.reqs.map (fun q => (q.addr, q.land, q.write)) == [(448, [0x4000], false), (512, [0x4040, 0x4080], false)]) : Bool) = true := by decide +kernel

theorem test_vstore : (let v : MoveArgs := ⟨3, opnd 0x100 1 1, none⟩
  let s := inQueue w0 (.vstore v) ls
  s.opNext 0 w0 (.vstore v) && !(s.core 0).vregBusy w0 (.vstore v) && s.roomFor 0 4 &&
    (s.core 0).writesOpen [⟨0x4000, Bytes.read 0 (s.core 0).vregs 6144 64⟩] &&
  core0After (.vstore 0 w0 v) s (fun c => c.peek 0x4000 4 == [9, 8, 0, 0] && c.peek 0x4040 4 == [5, 6, 7, 8]) : Bool) = true := by decide +kernel

theorem test_vstore_posts : (let v : MoveArgs := ⟨3, opnd 0x101 1 1, none⟩
  let s := inQueue w9 (.vstore v) (core0 (fun c => withCove 1 0x4000 0 2 16 c) ls)
  let c := s.core 0
  c.namedSlots s.geo w9 (.vstore v) == [(c.cove 1, 1)] && c.slotsOf [0x4040] == [(c.cove 1, 1)] && !s.inWindow 0 (c.cove 1, 1) &&
    !c.held (c.cove 1) && (c.tag (c.cove 1) 1).free && (c.tagSeen (c.cove 1) 1).free && s.opNext 0 w9 (.vstore v) && s.roomFor 0 4 &&
  !c.windowSlot (c.cove 1, 1) && (c.windowAt 0x4040).isNone && !c.foldPending 0x4040 && !c.folded 0x4040 &&
  core0After (.vstore 0 w9 v) s (fun d => d.peek 0x4040 2 == [9, 8] &&
    d.tag (c.cove 1) 1 == ⟨2, 0x77, false, some (opProducer w9 (.vstore v))⟩) : Bool) = true := by decide +kernel

theorem test_tstore : (let a : TierArgs := ⟨opnd 0x100 1 2, none, 7⟩
  let s := inQueue w9 (.tstore a) ls
  s.opNext 0 w9 (.tstore a) && (s.core 0).readsClean none [0x4000, 0x4040] && s.banksFree 0 8 &&
    core0After (.tstore 0 w9 a) s (fun c => c.exec.length == 1) &&
  runs (exec (.tstore 0 w9 a) s) (fun t => t.reqs.map (fun q => (q.addr, q.bytes.take 4, q.write)) == [(448, [1, 2, 3, 4], true), (512, [5, 6, 7, 8], true)]) : Bool) = true := by decide +kernel

/-- A ledge-engine command to be read at 0x4000: a NOP, and a FILL that is not aligned. -/
def engS (lo : Nat) : State := inQueue w9 (.eng 0x400) (core0 (fun c => { c with basin := Bytes.write 0 [] 0x4000 (natBytes 8 lo) }) ls)
theorem test_eng : (let s := engS 0
  let c := s.core 0
  s.opNext 0 w9 (.eng 0x400) && decide (c.ldgQ.length < 8) && c.readsClean none [0x4000, 0x4008] && s.banksFree 0 8 &&
    (c.rejectsRead (s.carve 0) 0 0).isNone &&
  core0After (.eng 0 w9 0x400) s (fun d => d.ldgQ == [.cmd 0 0 (some w9) 3 Ahead.none] && d.storeQ.isEmpty) : Bool) = true := by decide +kernel

theorem test_eng_refused : (let s := engS (1 + 4 * 2 ^ 32)
  let c := s.core 0
  s.opNext 0 w9 (.eng 0x400) && c.rejectsRead (s.carve 0) (BitVec.ofNat 64 (1 + 4 * 2 ^ 32)) 0 == some clsBounds && c.faultOpen &&
  core0After (.eng 0 w9 0x400) s (fun d => d.ldgQ.isEmpty && d.get F.corFault_class == clsBounds && d.get F.corFault_unit == 7 &&
    d.get F.corFault_tag == 9) : Bool) = true := by decide +kernel

/-- A SEND of three chunks to core 17, and one into window 5 of this plain with a route of credit 2. -/
def sendTo (kind : Nat) : SendArgs := ⟨opnd 0x100 1 3, none, 1, BitVec.ofNat 64 (kind + (if kind = 3 then 5 * 16 + 63 * 2 ^ 16 else 0) + 9 * 2 ^ 52), 0x200, (opnd 0 1 3).desc, [17]⟩
theorem test_send_core : (let s := inQueue w9 (.send (sendTo 1)) ls
  s.opNext 0 w9 (.send (sendTo 1)) && s.hasCredit 0 (s.core 0) (sendTo 1) 192 && s.banksFree 0 12 &&
  (s.core 0).readsClean none (runStream (opnd 0x100 1 3) none) && core0After (.send 0 w9 (sendTo 1)) s (fun c => c.exec.length == 1) &&
  runs (exec (.send 0 w9 (sendTo 1)) s) (fun t => t.conss.map (fun q => (q.kind, q.stream, q.flits, q.dests.map (fun d => d.core), q.lands)) == [(1, 9, some 2, [17], [0x8000, 0x8040, 0x8080])] &&
    t.flits.map (fun f => (f.seq, f.last, f.chunks.length, f.inPort, f.dests)) == [(0, false, 2, 4, [17]), (1, true, 1, 4, [17])] &&
      t.flits.all (fun f => decide (s.now + 8 < f.ready)) && t.cidNext == [(0, 1)]) : Bool) = true := by decide +kernel

theorem test_send_window : (let s := inQueue w9 (.send (sendTo 3)) (core0 (fun c => c.setCredit 1 3 4) ls)
  s.opNext 0 w9 (.send (sendTo 3)) && s.hasCredit 0 (s.core 0) (sendTo 3) 192 &&
  core0After (.send 0 w9 (sendTo 3)) s (fun c => (c.credit 1).2 == 4 - s.slotsNeeded 0 5 192) &&
  runs (exec (.send 0 w9 (sendTo 3)) s) (fun t => t.conss.map (fun q => (q.kind, q.win, q.slot)) == [(3, 5, 3)]) : Bool) = true := by decide +kernel

/-! The basin -/
/-- Core 0 has the shadowed cove 2 of two slots at 0x10000, folded, and core 1 the same. -/
def gs : State :=
  let shad (c : CoreState) : CoreState := (withCove 2 0x10000 0 2 32 c (2 ^ 60)).put F.corShadow_folded 4
  (core0 shad sx).modCore 1 shad

/-- An access of one chunk. -/
def acc (serial : Nat) (port : Port) (write : Bool) (addr : Nat) (bytes : List Byte) : Access where
  serial := serial
  port := port
  write := write
  pieces := [⟨addr, bytes⟩]
  producer := ⟨1, 9, 3⟩
  posts := none
  last := false
  expect := none
  poisoned := false
  first := none
  retry := false
  passed := false
  breached := false
  heldUntil := 0
  w := w0

/-- The access passes its tag stage and meets nothing else. -/
def opens (s : State) (x : Access) : Bool :=
  let c := s.core 0
  c.tagPasses x && !c.shadowWaits x && (s.meetsWindow 0 c x).isNone && !x.breached && !x.retry && x.posts.isNone &&
    partOf (accChunks x) == accChunks x

/-- The access once it has reached arbitration in tick 0. -/
def arrived (x : Access) : Access := { (gs.core 0).arrive 0 x with breached := true }

/-- The access on its way to its bank cycle, as of tick 0. -/
def banked (x : Access) : Banking := ⟨arrived x, x.pieces, 0, true, [], none, none⟩

/-- A core with an access in its bank cycle, some ticks on. -/
def bankS (b : Banking) (now : Nat := 1) : State := { core0 (fun c => { c with banking := [b], basin := Bytes.write 0 c.basin 0x4000 [1, 2, 3, 4] }) gs with now := now }
theorem test_bank_won : (let a := acc 1 .weight false 0x4000 [0, 0]
  gs.sel F.prtCtl_enable == 0 && (gs.core 0).accesses.isEmpty && !(gs.core 0).cyc.stolen && opens gs a && !gs.gov.throttling &&
    gs.govRoom ((gs.core 0).partCharge a (accChunks a)) &&
  core0After (.bankArbitration 0 [a]) gs (fun c => c.accesses.isEmpty && c.banking == [banked a] && c.get F.ldgBreach_count == 0) &&
  runs (exec (.bankArbitration 0 [a]) gs) (fun t => t.gov.cur == 4) : Bool) = true := by decide +kernel

theorem test_bank_order : (let a := acc 1 .weight false 0x4000 [0, 0]
  let b := acc 2 .sclWrite true 0x8000 [1]
  bankOf 0x4000 == bankOf 0x8000 && (gs.core 0).holder ((gs.core 0).setFor (gs.now - 2)) 0 == 0 && opens gs b && accBefore (arrived a) (arrived b) &&
  core0After (.bankArbitration 0 [b, a]) gs (fun c => c.banking == [banked a] && c.accesses.map (fun x => x.serial) == [2]) &&
  core0After (.bankArbitration 0 [a, b]) gs (fun c => c.banking == [banked a] &&
    c.accesses == [{ arrived b with passed := false, retry := conflicts a b }]) : Bool) = true := by decide +kernel

theorem test_bank_breach : (let s := core0 (fun c => c.put F.ldgLease_hold 2 0) gs
  let a := acc 1 .weight false 0x4000 [0, 0]
  ((s.core 0).breaches ((s.core 0).arrive 0 a)).isSome && opens s a &&
    core0After (.bankArbitration 0 [a]) s (fun c => c.get F.ldgBreach_count == 1) : Bool) = true := by decide +kernel

theorem test_bank_write : (let b := banked (acc 1 .sclWrite true 0x4001 [7, 8])
  bankTick b ≤ 1 && !(gs.core 0).folded 0x4000 &&
    core0After (.basinBankCycle 0 []) (bankS b) (fun c => c.peek 0x4000 4 == [1, 7, 8, 4] && c.banking.isEmpty) : Bool) = true := by decide +kernel

theorem test_bank_write_accumulates : (let x := acc 1 .estWrite true 0x4004 [0x80, 0x3F, 0, 0x40]
  let b : Banking := { banked x with adds := [(0x4000, true)] }
  let sums : Banking := { b with sums := some [⟨0x4004, [0, 0x40, 0, 0x40]⟩] }
  let s := core0 (fun c => { c with basin := Bytes.write 0 c.basin 0x4004 [0x80, 0x3F] }) (bankS b)
  !(s.core 0).poisoned 0x4004 && ((s.core 0).errorsIn 0x4004).isEmpty &&
  core0After (.basinBankCycle 0 []) s (fun c => c.banking == [sums] && c.basin == (s.core 0).basin) &&
  bankTick sums == 4 && core0After (.basinBankCycle 0 []) (bankS sums 4) (fun c => c.peek 0x4000 8 == [1, 2, 3, 4, 0, 0x40, 0, 0x40] &&
    c.banking.isEmpty) : Bool) = true := by decide +kernel

theorem test_bank_read : (let b := banked (acc 1 .vecRead false 0x4002 [0, 0])
  core0After (.basinBankCycle 0 []) (bankS b) (fun c => c.portData == [⟨b.acc, [⟨0x4002, [3, 4]⟩], false, 5⟩] &&
    c.banking.isEmpty) : Bool) = true := by decide +kernel

theorem test_bank_read_uncorrectable : (let s := core0 (fun c => { c with ecc := [(0x4000, true)] }) (bankS (banked (acc 1 .vecRead false 0x4002 [0, 0])))
  ((s.core 0).errorsIn 0x4002).any (fun e => e.2) && !(s.core 0).shadowed 0x4000 && readerOf .vecRead == .engine && (s.core 0).faultOpen &&
  core0After (.basinBankCycle 0 []) s (fun c => c.poisoned 0x4002 && c.get F.corFault_class == clsPoison &&
    c.get F.corFault_unit == portUnit .vecRead && c.get F.corFault_tag == 9 && c.portData.isEmpty) : Bool) = true := by decide +kernel

theorem test_bank_data : (let d : PortData := ⟨arrived (acc 1 .vecRead false 0x4002 [0, 0]), [⟨0x4002, [3, 4]⟩], false, 5⟩
  d.complete && d.bytes == [3, 4] &&
  core0After (.basinReadData 0) { core0 (fun c => { c with portData := [d] }) gs with now := 5 } (fun c => c.atPort == [(4, [3, 4])] &&
    c.portData.isEmpty) : Bool) = true := by decide +kernel

theorem test_chunk_repair : (let s := core0 (fun c => c.setPoison 0x10000 true) gs
  (s.core 0).poisoned 0x10010 && (s.core 0).shadowed 0x10010 && !(s.core 0).foreign 0x10010 && (s.core 0).repairs.isEmpty &&
    core0After (.chunkRepair 0 0x10010) s (fun c => c.repairs == [⟨0x10000, false, 0⟩]) : Bool) = true := by decide +kernel

/-- A poisoned chunk under repair; core 1 holds 5 there and the reserve 7. -/
def repairing : State :=
  ((core0 (fun c => { c.setPoison 0x10000 true with repairs := [⟨0x10000, true, 0⟩] }) gs).modCore 1 (fun c => { c with basin := Bytes.write 0 [] 0x10000 [5] })).modCore 16
    (fun c => { c with basin := Bytes.write 0 [] 0x10000 [7] })
theorem test_chunk_rebuilt : (let s := repairing
  (List.range 17).all (fun k => (s.core k).deltas.isEmpty) && s.physAt 0 0 == 0 && !s.flag F.shlMendStat_spent 0 &&
    !(s.core 0).foldPending 0x10000 && (s.core 0).folded 0x10000 && !(s.core 0).foreign 0x10000 &&
  s.rebuilt 0 0x10000 == some (padTo 64 [2]) && core0After (.chunkRepairDone 0 0x10000) s (fun c => c.peek 0x10000 64 == padTo 64 [2] &&
    !c.poisoned 0x10000 && c.repairs.isEmpty) &&
  runs (exec (.chunkRepairDone 0 0x10000) s) (fun t => t.get F.shlMendStat_readRepairs 0 == 0 &&
    t.get F.shlMendStat_sweepRepairs 0 == 1) : Bool) = true := by decide +kernel

theorem test_chunk_spent : (let s := repairing.put F.shlMendStat_spent 1 0
  (s.core 0).banking.isEmpty && core0After (.chunkRepairDone 0 0x10000) s (fun c => c.poisoned 0x10000 && c.repairs.isEmpty) &&
    runs (exec (.chunkRepairDone 0 0x10000) s) (fun t => t.get F.shlMendStat_repairFails 0 == 1) : Bool) = true := by decide +kernel

theorem test_delta_apply : (let s := gs.modCore 3 (fun c => { c with deltas := [(0, [⟨0x10000, padTo 64 [9], true⟩])] })
  s.physAt 0 3 == 3 && s.spare 0 == some 16 && (List.range 3).all (fun m => (Sparse.get [] (s.core m).deltas 0).isEmpty) && s.canonical &&
  runs (exec (.deltaApply 0 0) s) (fun t => (t.core 16).peek 0x10000 2 == [9, 0] && (t.core 16).poisoned 0x10000 &&
    (t.core 3).deltas.isEmpty) : Bool) = true := by decide +kernel

/-! The ledge engine -/
/-- Words 0 and 1 of a command of Table 2-6. -/
def ldgLo (op dst : Nat) (stamp : Option Nat := none) (win bf16 : Nat := 0) : Reg64 :=
  BitVec.ofNat 64 (op + win * 16 + bf16 * 128 + (match stamp with | some t => 256 + t * 65536 | none => 0) + dst * 2 ^ 32)
def ldgHi (len low : Nat) : Reg64 := BitVec.ofNat 64 (len * 2 ^ 32 + low)

/-- The command is at the front of an idle engine's queue, with bytes 1 to 4 at 0x4000 and the cove 1 of two slots at 0x5000. -/
def lq (lo hi : Reg64) (s : State := ls) : State := core0 (fun c => { withCove 1 0x5000 0 2 16 c with ldgQ := [.cmd lo hi (some w9) 3 Ahead.none] }) s

/-- What the statements suppose of it. -/
def ldgReady (s : State) (lo hi : Reg64) : Bool :=
  let c := s.core 0
  c.ldgExec.isNone && c.ldgWait.isNone && c.ldgQ == [.cmd lo hi (some w9) 3 Ahead.none] && c.pushHeld.isNone &&
    (ldgRejects (s.carve 0) lo hi).isNone && (c.rejectsStart (s.carve 0) (some w9) lo hi).isNone && c.earlierWritesDone Ahead.none && !c.cyc.stolen &&
  (s.ldgMeetsWindow 0 c lo hi).isNone && (c.ldgBlocked lo hi (ldgProducer (some w9) 3)).isNone && s.portAdmits 0 (c.ldgCharge lo hi) &&
    (rangeChunks (ldgDst lo) (ldgLen hi)).all (fun a => !c.folded a)

/-- It runs with this effect. -/
def ldgRuns (i : Instr) (lo hi : Reg64) (f : CoreState → Bool) (s : State := lq lo hi) : Bool :=
  ldgReady s lo hi && core0After i s (fun c => c.ldgExec == some (.cmd lo hi (some w9) 3 Ahead.none) && c.ldgQ.isEmpty && f c)
theorem test_ldg_nop : (ldgRuns (.nop 0) (ldgLo 0 0) (ldgHi 0 0) (fun c => c.basin == (ls.core 0).basin) : Bool) = true := by decide +kernel

theorem test_ldg_fill : (ldgRuns (.fill 0) (ldgLo 1 0x5000) (ldgHi 1 0x01020304) (fun c => c.peek 0x5000 4 == [4, 3, 2, 1] &&
  c.peek 0x503C 8 == [4, 3, 2, 1, 0, 0, 0, 0]) &&
  runs (exec (.fill 0) (lq (ldgLo 1 0x5000) (ldgHi 1 0x01020304))) (fun t => t.gov.cur == 1) : Bool) = true := by decide +kernel

theorem test_ldg_copy : ((ls.core 0).readsClean none [0x4000, 0x4040] &&
  ldgRuns (.copy 0) (ldgLo 2 0x4040) (ldgHi 2 0x4000) (fun c => c.peek 0x4000 4 == [1, 2, 3, 4] && c.peek 0x4040 4 == [1, 2, 3, 4] &&
  c.peek 0x4080 4 == [5, 6, 7, 8]) &&
  runs (exec (.copy 0) (lq (ldgLo 2 0x4040) (ldgHi 2 0x4000))) (fun t => t.gov.cur == 16) : Bool) = true := by decide +kernel

theorem test_acc_open : (let lo := ldgLo 3 0x5000 (some 0x55) 2 1
  let hi := ldgHi 2 0
  let c := (lq lo hi).core 0
  c.ldgSlots lo hi == [(c.cove 1, 0), (c.cove 1, 1)] && (c.ldgSlots lo hi).all (fun x => (c.tagSeen x.1 x.2).free && (c.tag x.1 x.2).free && !c.held x.1) &&
  ldgRuns (.accOpen 0) lo hi (fun d => d.accWin == [⟨2, 0x5000, 2, true, true, 3⟩] && d.get F.ldgEngStat_winOpen == 4 &&
    (c.ldgSlots lo hi).all (fun x => d.tag x.1 x.2 == ⟨1, 0, false, some ⟨7, 2, 3⟩⟩)) : Bool) = true := by decide +kernel

theorem test_acc_close : (let lo := ldgLo 4 0 (some 0x66) 2 0
  let hi := ldgHi 0 0
  let s := core0 (fun c => { c.put F.ldgEngStat_winOpen 4 with accWin := [⟨2, 0x5000, 2, true, true, 1⟩], tags := Sparse.ofList Tag.ebb [(16, ⟨1, 0, false, some ⟨7, 2, 1⟩⟩)] }) (lq lo hi)
  let c := s.core 0
  !((c.earlierDests s.geo 3).any (fun a => decide (0x5000 ≤ a ∧ a < 0x5080))) && !s.landingInto 0 3 0x5000 128 &&
    !c.bstInto 3 0x5000 128 && c.closeSlots ⟨2, 0x5000, 2, true, true, 1⟩ == [(c.cove 1, 0)] && !c.held (c.cove 1) &&
  ldgRuns (.accClose 0) lo hi (fun d => d.accWin.isEmpty && d.get F.ldgEngStat_winOpen == 0 && (d.tag (c.cove 1) 0).state == 2 &&
    (d.tag (c.cove 1) 0).stamp == 0x66 && (d.tag (c.cove 1) 1).state == 0) s : Bool) = true := by decide +kernel

theorem test_ledge_complete : (let lo := ldgLo 1 0x5000 (some 0x66)
  let hi := ldgHi 1 0
  let s := core0 (fun c => { c with ldgQ := [], ldgExec := some (.cmd lo hi (some w9) 3 Ahead.none), tags := Sparse.ofList Tag.ebb [(16, ⟨1, 0, false, some (ldgProducer (some w9) 3)⟩)] }) (lq lo hi)
  let c := s.core 0
  c.ldgWait.isNone && c.ldgPosts lo hi (some w9) 3 == [(c.cove 1, 0)] && !c.held (c.cove 1) && core0After (.ledgeCmdComplete 0) s (fun d => d.ldgExec.isNone && d.get F.ldgEngStat_doneCount == 1 &&
    (d.tag (c.cove 1) 0).state == 2 && (d.tag (c.cove 1) 0).stamp == 0x66) : Bool) = true := by decide +kernel

theorem test_ledge_timeout : (let i : LdgItem := .cmd (ldgLo 1 0x5000) (ldgHi 1 0) none 3 Ahead.none
  let s := { core0 (fun c => { withCove 1 0x5000 0 2 16 c (7 * 2 ^ 48) with ldgExec := some i, ldgWait := some ⟨5, 0x5000, .write⟩ }) ls with now := 100005 }
  (s.core 0).faultOpen && core0After (.ledgeCmdTimeout 0) s (fun c => c.ldgExec.isNone && c.ldgWait.isNone && c.flag F.ldgEngStat_timeout &&
    c.get F.ldgEngStat_doneCount == 1 && c.get F.corFault_class == clsTimeout && c.get F.corFault_unit == 7 && c.get F.corFault_ctx == 7) &&
  core0After (.ledgeCmdTimeout 0) (core0 (fun c => { c with ldgWait := some ⟨5, 0x9000, .repair⟩ }) s) (fun c => c.ldgExec.isNone &&
    !c.flag F.corCtl_faulted) &&
  core0After (.ledgeCmdTimeout 0) { s with now := 100004 } (fun c => c.ldgExec.isSome) : Bool) = true := by decide +kernel

/-! Parity, the sweep and releases -/
/-- A core with these first items in its ledge-engine queue, the bytes 5 at 0x10000 and a poisoned chunk at 0x10040. -/
def fs (q : List LdgItem) : State :=
  (core0 (fun c => { c.setPoison 0x10040 true with ldgQ := q, basin := Bytes.write 0 [] 0x10000 [5] }) gs).modCore 16 (fun c => { c with basin := Bytes.write 0 [] 0x10000 [3] })

/-- The reserve takes the range. -/
def foldsIn (i : Instr) (q : LdgItem) (f : CoreState → Bool) : Bool :=
  let s := fs [q]
  let c := s.core 0
  s.physAt 0 0 == 0 && s.spare 0 == some 16 && c.ldgExec.isNone && c.pushHeld.isNone && c.earlierWritesDone Ahead.none &&
  core0After i s (fun d => f d && d.ldgQ.isEmpty) && runs (exec i s) (fun t => (t.core 16).peek 0x10000 2 == [6, 0] &&
    (t.core 16).poisoned 0x10040 && !(t.core 16).poisoned 0x10000)

/-- The sweep of row 3 is due at tick 100, with these errors. -/
def sw (ecc : List (Nat × Bool)) (now : Nat) : State :=
  { core0 (fun c => { (c.put F.ldgSweep_enable 1).put F.ldgSweep_interval 0 with ecc := ecc, sweepRow := 3, sweepDue := 100 }) gs with now := now }
theorem test_fold : (foldsIn (.fold 0) (.fold 2 0x10000 128 Ahead.none) (fun d => bit (d.get F.corShadow_folded) 2) : Bool) = true := by decide +kernel

theorem test_unfold : (foldsIn (.unfold 0) (.unfold 2 0x10000 128 Ahead.none) (fun _ => true) : Bool) = true := by decide +kernel

theorem test_sweep_row : (((sw [] 100).core 0).banksIdle 100 && core0After (.sweepRow 0 []) (sw [] 100) (fun c => c.sweepRow == 4 && c.sweepDue == 116) &&
  runs (exec (.sweepRow 0 []) (sw [] 100)) (fun t => t.gov.cur == 768) &&
  core0After (.sweepRow 0 []) (sw [] 99) (fun c => c.sweepRow == 3) : Bool) = true := by decide +kernel

theorem test_sweep_corrects : (((sw [] 100).core 0).cyc.errs.isEmpty && core0After (.sweepRow 0 []) (sw [(3088, false)] 100) (fun c => c.ecc.isEmpty &&
  c.get F.ldgEcc_ceCount == 1 && c.get F.ldgEcc_lastAddr == 3088 && c.sweepRow == 4) && inRow 3 3088 : Bool) = true := by decide +kernel

theorem test_sweep_poisons : (core0After (.sweepRow 0 []) (sw [(3088, true)] 100) (fun c => c.poisoned 3088 && c.get F.ldgEcc_ueCount == 1 &&
  c.flag F.ldgEcc_lastUe && c.ecc == [(3088, true)]) && (gs.core 0).coveAt (chunkOf 3088) == none : Bool) = true := by decide +kernel

/-- The sweep has waited so many cycles for an idle one. -/
def sweepWaits (n : Nat) (ecc : List (Nat × Bool)) : State := core0 (fun c => { c with sweepWaited := n }) (sw ecc 164)
theorem test_sweep_steal : (!((sweepWaits 64 []).core 0).cyc.busy && core0After (.sweepSteal 0 []) (sweepWaits 64 []) (fun c => c.sweepRow == 4 &&
  c.sweepDue == 180 && c.get F.ldgSweep_steals == 1) && core0After (.sweepSteal 0 []) (sweepWaits 63 []) (fun c => c.sweepRow == 3) &&
  core0After (.sweepSteal 0 []) (sweepWaits 64 [(3088, false)]) (fun c => c.ecc.isEmpty) &&
    core0After (.sweepSteal 0 []) (sweepWaits 64 [(3088, true)]) (fun c => c.poisoned 3088) : Bool) = true := by decide +kernel

/-- The reserve of shoal 0 sweeps row 64, whose parity chunk at 0x10000 is uncorrectable; cores 0 and 1 hold 5 and 3 there. -/
def reserveSweeps : State :=
  { ((core0 (fun c => { c with basin := Bytes.write 0 [] 0x10000 [5] }) gs).modCore 1 (fun c => { (c.setPoison 0x10000 true) with basin := Bytes.write 0 [] 0x10000 [3] })).modCore 16
    (fun c => { c.put F.ldgSweep_enable 1 with ecc := [(0x10000, true)], sweepRow := 64, sweepDue := 100 }) with now := 100 }
theorem test_sweep_recomputes : (let s := reserveSweeps
  s.canonical && s.usable 0 && !s.reconfiguring 0 && s.spare 0 == some 16 && (s.core 16).washEnd.isNone && (s.core 16).banksIdle 100 &&
  (List.range 17).all (fun k => (s.core k).deltas.isEmpty) && s.contributors 0 0x10000 == [0, 1] &&
  (s.contributors 0 0x10000).all (fun q => ((s.core q).errorsIn 0x10000).isEmpty) &&
  ((s.core 16).ecc.filter (fun e => inRow (s.core 16).sweepRow e.1)) == [(0x10000, true)] &&
  runs (exec (.sweepRow 1280 []) s) (fun t => (t.core 16).peek 0x10000 2 == [6, 0] && (t.core 16).poisoned 0x10000 &&
    t.get F.shlMendStat_sweepRepairs 0 == 1) : Bool) = true := by decide +kernel

/-- Cove 1 of four slots at 0x5000, its tags FLOOD, EBB, SLACK and FLOOD, its owner context 7. -/
def rs (r : Release) : State := core0 (fun c => { withCove 1 0x5000 0 4 16 c (7 * 2 ^ 48 + 2 ^ 59) with
  rels := [r], tags := Sparse.ofList Tag.ebb [(16, ⟨2, 5, false, none⟩), (17, ⟨0, 6, false, none⟩), (18, ⟨1, 7, false, none⟩), (19, ⟨2, 8, false, none⟩)] }) gs

/-- What the release statement supposes. -/
def relSupposed (r : Release) : Bool :=
  let s := rs r
  let c := s.core 0
  s.canonical && s.executes 0 && c.rels == [r] && c.flag F.coveCfg_enable 1 && c.relReady s.geo s.now (c.cove 1) r && decide (r.first < (c.cove 1).slots) &&
    decide (1 ≤ r.n) && decide (r.n ≤ (c.cove 1).slots) &&
  (r.ctx.isNone || r.ctx == some (c.get F.coveCfg_owner 1)) && Sparse.wf (fun _ => ([] : List Notice)) s.notices
theorem test_release_whole : (let r : Release := ⟨1, 0, 4, some 7, 0, 0, 0, none, false, 0⟩
  relSupposed r && core0After (.releaseApply 0) (rs r) (fun c => c.rels.isEmpty &&
    (List.range 4).map (fun k => c.tag (c.cove 1) k) == [⟨0, 5, true, none⟩, ⟨0, 6, false, none⟩, ⟨1, 7, false, none⟩, ⟨0, 8, true, none⟩] &&
    c.get F.coveStat_relRepeat 1 == 1 && c.get F.coveStat_relEarly 1 == 1) &&
  runs (exec (.releaseApply 0) (rs r)) (fun t => (Sparse.get [] t.notices 0).map (fun n => (n.kind, n.core, n.cove)) == [(2, 0, 1), (3, 0, 1)]) : Bool) = true := by decide +kernel

theorem test_release_wraps : (let r : Release := ⟨1, 3, 2, none, 0, 0, 0, none, true, 0⟩
  relSupposed r && core0After (.releaseApply 0) (rs r) (fun c => (List.range 4).map (fun k => (c.tag (c.cove 1) k).state) == [0, 0, 1, 0] &&
    c.get F.coveStat_relRepeat 1 == 0 && c.get F.coveStat_relEarly 1 == 0) : Bool) = true := by decide +kernel

theorem test_release_foreign : (let r : Release := ⟨1, 0, 4, some 8, 0, 0x33, 0, none, false, 0⟩
  ((rs r).core 0).relReady (rs r).geo 0 (((rs r).core 0).cove 1) r && core0After (.releaseApply 0) (rs r) (fun c => c.tags == ((rs r).core 0).tags &&
    c.rels.isEmpty && c.get F.corFault_class == clsForeign && c.get F.corFault_unit == 9 &&
    c.get F.corFault_tag == 0x33 && c.get F.corFault_ctx == 8) : Bool) = true := by decide +kernel

/-! What software commands of a core -/
/-- A command changed nothing but the core, its charge and the mirror. -/
def wrote (i : Instr) (s : State) (f : CoreState → Bool) : Bool :=
  s.takes 1 && core0After i s f && runs (exec i s) (fun t => ({ t with cores := s.cores, mirror := s.mirror, gov := s.gov, cyc := s.cyc } : State) == s)

/-- A descriptor of four slots of 64 bytes at 0x6000 for context 7, shadowed. -/
def desc4 : Reg64 := coveCfg 0x6000 0 4 (2 ^ 60 + 7 * 2 ^ 48)

/-- Cove 3 that is not enabled, its first tag left FLOOD at tag base 20. -/
def off3 : State := core0 (fun c => { c.setReg (F.coveAux_wm.addr 3) 20 with tags := Sparse.ofList Tag.ebb [(19, ⟨2, 4, false, none⟩), (20, ⟨2, 5, true, none⟩)] }) gs

/-- It once the descriptor is enabled. -/
def on3 : State := core0 (fun c => c.setReg (F.coveCfg_enable.addr 3) desc4) off3
theorem test_cove_enable : (let c := off3.core 0
  off3.takes 1 && !c.flag F.coveCfg_lock 3 && Sparse.wf (fun _ => 0) c.lastLevel && !c.flag F.coveCfg_enable 3 &&
    c.coveValid (off3.carve 0) 3 desc4 (coveOf 3 desc4 (c.get F.coveAux_tagBase 3)).tagBase &&
  core0After (.coveEnable 0 3 1 desc4) off3 (fun d => d.flag F.coveCfg_enable 3 && d.tags == [(19, ⟨2, 4, false, none⟩)] &&
    d.cove 3 == ⟨3, 0x6000, 64, 4, 20⟩ && d.get F.coveCfg_owner 3 == 7 && d.ldgQ == [.fold 3 0x6000 256 Ahead.none] &&
    d.basin == c.basin) : Bool) = true := by decide +kernel

theorem test_cove_disable : (let s := core0 (fun c => { c.put F.corShadow_folded 12 with rels := [⟨3, 0, 1, none, 0, 0, 0, none, true, 0⟩, ⟨2, 0, 1, none, 0, 0, 0, none, true, 0⟩] }) on3
  (s.core 0).flag F.coveCfg_enable 3 && core0After (.coveDisable 0 3 1) s (fun d => !d.flag F.coveCfg_enable 3 &&
    d.rels.map (fun r => r.cove) == [2] && d.ldgQ == [.unfold 3 0x6000 256 Ahead.none] && d.get F.corShadow_folded == 4 &&
    d.tags == (s.core 0).tags) : Bool) = true := by decide +kernel

theorem test_rel_go : (wrote (.relGo 0 3 1 3 4) on3 (fun d => d.rels == [⟨3, 3, 4, none, 0, 0, 0, none, true, 0⟩] && d.get F.coveCtl_relFirst 3 == 3 &&
  d.get F.coveCtl_relCount 3 == 4 && d.tags == (on3.core 0).tags) : Bool) = true := by decide +kernel

theorem test_tag_write : (let s := core0 (fun c => (c.put F.coveCtl_hold 1 3).put F.coveTagSel_index 21) on3
  (s.core 0).coveOfTag 21 == some ⟨3, 0x6000, 64, 4, 20⟩ && (s.core 0).held ⟨3, 0x6000, 64, 4, 20⟩ && s.takes 1 &&
  core0After (.tagWrite 0 1 0x2BEEF) s (fun d => Sparse.get Tag.ebb d.tags 21 == ⟨2, 0xBEEF, false, none⟩ &&
    Sparse.get Tag.ebb d.tags 20 == ⟨2, 5, true, none⟩) : Bool) = true := by decide +kernel

theorem test_peak_clr : (let s := core0 (fun c => c.put F.coveStat_peak 9 3) on3
  !(s.core 0).flag F.coveStat_peakClr 3 && wrote (.peakClr 0 3 1) s (fun d => d.get F.coveStat_peak 3 == 1) : Bool) = true := by decide +kernel

theorem test_start : (wrote (.start 0 1 64 7) sx (fun d => d.get F.corCtl_entry == 64 && d.get F.corCtl_ctx == 7 && !d.flag F.corCtl_stopped &&
  d.iss.off == 64 && d.iss.running && d.fetchWin.isEmpty) && !sx.railHeld &&
  (sx.core 0).flag F.corCtl_stopped && !(sx.core 0).flag F.corCtl_faulted && !(sx.core 0).flag F.corCtl_start : Bool) = true := by decide +kernel

theorem test_halt : (let s := core0 (fun c => c.put F.corCtl_stopped 0) sx
  wrote (.halt 0 1) s (fun d => d.flag F.corCtl_halt && d.issueOff && d.get F.dbgCoreCtl_cause == 1) : Bool) = true := by decide +kernel

theorem test_step : (let s := core0 (fun c => (c.put F.corCtl_stopped 0).put F.corCtl_halt 1) sx
  (s.core 0).issueOff && wrote (.step 0 1) s (fun d => d.iss.stepOne) : Bool) = true := by decide +kernel

theorem test_push : (let s := core0 (fun c => (c.setReg 0x160 1).setReg 0x168 2) sx
  wrote (.ldgEngPush 0 1) s (fun d => d.ldgQ == [.cmd 1 2 none 1 Ahead.none] && d.pushHeld.isNone) &&
  wrote (.ldgEngPush 0 1) (core0 (fun c => { c with ldgQ := List.replicate 8 (.cmd 0 0 none 0 Ahead.none) }) s) (fun d => d.ldgQ.length == 8 &&
    d.pushHeld == some (1, 2) && d.flag F.ldgEngPush_push) : Bool) = true := by decide +kernel

theorem test_wash_start : (off3.takes 1 && !(off3.core 0).flag F.ldgWash_go &&
  core0After (.washStart 0 1) (core0 (fun c => { c with basin := [(5, 1)], plan := [(0, 1)] }) off3) (fun d => d.basin.isEmpty && d.tags.isEmpty &&
  d.xregs.isEmpty &&
  (List.range 32).all (fun n => !d.flag F.coveCfg_enable n) && d.flag F.corCtl_stopped && d.washEnd == some 2049 && d.flag F.ldgWash_go &&
    d.plan == [(0, 1)]) : Bool) = true := by decide +kernel

theorem test_wash_done : (let s := { core0 (fun c => { c.put F.ldgWash_go 1 with washEnd := some 2049 }) sx with now := 2049 }
  s.canonical && s.heldWrites.isEmpty && s.dbg.busy.isNone && runs (exec (.washDone 0) s) (fun t => (t.core 0).washEnd.isNone &&
    (t.core 0).flag F.ldgWash_done && !(t.core 0).flag F.ldgWash_go && (t.core 0).get F.ldgWash_washCount == 1) &&
  runs (exec (.washDone 0) { s with now := 2048 }) (fun t => (t.core 0).washEnd.isSome) : Bool) = true := by decide +kernel

/-! Harbour windows -/
/-- Window 5 over slots 1 and 2 of the four of cove 1 of core 1, bound to core 0 of this plain. -/
def ws : State :=
  ((((((gs.modCore 1 (withCove 1 0x5000 0 4 16)).put F.hbrWinCfg_core 1 5).put F.hbrWinCfg_cove 1 5).put F.hbrWinCfg_first 1 5).put F.hbrWinCfg_count 2 5).put F.hbrWinCtl_perm 3 5)

/-- It open, with slot 1 granted. -/
def wo : State := { ((ws.put F.hbrWinCtl_open 1 5).put F.hbrWinStat_grantPtr 2 5).put F.hbrWinStat_granted 1 5 with wins := [(5, ⟨[1], 1, false⟩)] }

/-- The state is canonical, its windows too, and the command answers a state with this. -/
def does (i : Instr) (s : State) (f : State → Bool) : Bool :=
  s.canonical && Sparse.wf (fun _ => (⟨[], 0, false⟩ : Window)) s.wins && runs (exec i s) f
theorem test_open_go : (ws.takes 1 && ws.mayOpen 5 && !ws.flag F.hbrWinCtl_openGo 5 && !ws.flag F.hbrWinCtl_closeGo 5 &&
  ws.get F.hbrWinCfg_sendPos 5 == ws.hall &&
  does (.openGo 5 1) ws (fun t => t.flag F.hbrWinCtl_open 5 && t.window 5 == ⟨[1, 2], 1, false⟩ && t.msgs == [⟨.grant 0 5 1 2, 0, none⟩] &&
    t.cores == ws.cores) : Bool) = true := by decide +kernel

theorem test_open_go_none_free : (let s := ws.modCore 1 (fun c => { c with tags := Sparse.ofList Tag.ebb [(17, ⟨2, 0, false, none⟩)] })
  s.takes 1 && s.mayOpen 5 && does (.openGo 5 1) s (fun t => t.flag F.hbrWinCtl_open 5 && t.window 5 == ⟨[], 0, false⟩ &&
    t.get F.hbrWinStat_grantPtr 5 == 1 && t.msgs.isEmpty) : Bool) = true := by decide +kernel

theorem test_harbour_grant : (does (.harbourGrant 5) { wo with now := 64 } (fun t => t.window 5 == ⟨[1, 2], 65, false⟩ &&
  t.msgs == [⟨.grant 0 5 2 1, 0, none⟩] && t.get F.hbrWinStat_granted 5 == 2) &&
  does (.harbourGrant 5) { wo with now := 63 } (fun t => t.window 5 == wo.window 5) : Bool) = true := by decide +kernel

theorem test_close_go : (wo.takes 1 && !wo.flag F.hbrWinCtl_openGo 5 && !wo.flag F.hbrWinCtl_closeGo 5 && !(wo.window 5).closing &&
  does (.closeGo 5 1) wo (fun t => t.window 5 == ⟨[1], 1, true⟩ && t.flag F.hbrWinCtl_open 5 && t.flag F.hbrWinCtl_closeGo 5 &&
    t.msgs == [⟨.reply 0 0 0 5 2 0 false 0, 0, none⟩]) : Bool) = true := by decide +kernel

theorem test_revoke_ack : (let s := { wo.put F.hbrWinCtl_closeGo 1 5 with wins := [(5, ⟨[1], 1, true⟩)] }
  does (.revokeAck 5) s (fun t => !t.flag F.hbrWinCtl_open 5 && !t.flag F.hbrWinCtl_closeGo 5 && t.wins.isEmpty &&
    t.get F.hbrWinStat_granted 5 == 0) : Bool) = true := by decide +kernel

/-- Core 0 with route 1 into window 5, whose credit is 4 slots from slot 3 on. -/
def rt : State := core0 (fun c => { c with route := Sparse.set 0 (c.setCredit 1 3 4).route 2 (BitVec.ofNat 64 (3 + 5 * 16 + 63 * 2 ^ 16)) }) ls
theorem test_grant_receive : (rt.msgs.isEmpty && (rt.core 0).routeTo 0 5 == some 1 &&
  does (.grantReceive 0 0 5 7 2) rt (fun t => (t.core 0).credit 1 == (3, 6)) &&
  does (.grantReceive 0 0 5 7 2) (core0 (fun c => c.setCredit 1 3 0) rt) (fun t => (t.core 0).credit 1 == (7, 2)) : Bool) = true := by decide +kernel

/-- A consignment of three chunks for core 17 at 0x8000, as its SEND makes it, and a flit of it at a pass. -/
def cq (kind : Nat) : Consign := ⟨50, kind, 0, 0, 0, 0, w9, 9, true, 0, 0, 0, 5, 1, none, none, none, [0x8000, 0x8040, 0x8080], none, [⟨17, false, false, false, [], [], [], 0⟩], 0, false, [], none⟩
def fl (x y inPort : Nat) : Flit := ⟨50, 0, false, [(padTo 64 [1, 2], false), (padTo 64 [3], true)], x, y, inPort, [17], 0, false, false, false⟩
def fq (q : Consign) (l : List Flit) (s : State := ls) : State := { s with conss := [q], flits := l, fresh := 60 }
theorem test_revoke : (rt.revokes.isEmpty && !rt.landingLeaves 0 0 5 && does (.revoke 0 0 5) rt (fun t => (t.core 0).credit 1 == (3, 0) &&
  t.msgs == [⟨.reply 0 0 0 5 3 0 false 0, 0, none⟩] && t.revokes.isEmpty) : Bool) = true := by decide +kernel

theorem test_revoke_waits : (let s := fq (cq 3) [fl 0 0 4] rt
  s.landingLeaves 0 0 5 && does (.revoke 0 0 5) s (fun t => t.revokes == [(0, 0, 5)] &&
    ({ t with revokes := [] } : State) == s) : Bool) = true := by decide +kernel

theorem test_denied : (let m : Msg := ⟨.reply 0 0 0 5 1 0 false 12, 0, some w9⟩
  isReply m 0 1 12 && !(ls.core 0).flag F.corCtl_faulted && does (.denied 0 12) { ls with msgs := [m] } (fun t => t.msgs.isEmpty &&
    (t.core 0).get F.corFault_class == clsDenied && (t.core 0).get F.corFault_unit == 10 &&
    (t.core 0).get F.corFault_tag == 9) : Bool) = true := by decide +kernel

theorem test_role_stale : (does (.roleStale 0 12 3 5 4 false) ls (fun t => Sparse.get [] t.notices 80 == [⟨6, 0, 0, 0, 5, 12, 3⟩] &&
  t.get F.hbrStat_stale == 1) : Bool) = true := by decide +kernel

theorem test_discard : (does (.discard 0 12 3) ls (fun t => Sparse.get [] t.notices 80 == [⟨7, 0, 0, 0, 0, 12, 3⟩] &&
  t.regs == ls.regs) : Bool) = true := by decide +kernel

theorem test_bay_role_write : (ls.takes 1 && does (.bayRoleWrite 3 1 2 7) ls (fun t => t.get F.bayRole_role 3 == 2 && t.get F.bayRole_epoch 3 == 7 &&
  ({ t with regs := ls.regs, cyc := ls.cyc } : State) == ls) && ls.cyc.moved.isEmpty : Bool) = true := by decide +kernel

theorem test_dtree_write : (let s := (ls.put F.plnDtreeSel_word 2).put F.plnDtreeSel_tree 3
  s.get F.plnDtreeSel_word == 2 && does (.dtreeWrite 1 0xAB) s (fun t => t.dtree == [(50, 0xAB)]) : Bool) = true := by decide +kernel

theorem test_flit_forward : (linkTowards 0 0 (coreX 17) (coreY 17) == 2 && Sparse.get 0 ls.linkUse (linkKey 0 0 2) != 1 &&
  does (.flitRelease 50 0) (fq (cq 1) [fl 0 0 4]) (fun t => t.flits == [{ fl 1 0 3 with ready := 2 }] &&
  t.conss == [cq 1]) : Bool) = true := by decide +kernel

theorem test_flit_scheduled : (let q := { cq 1 with elastic := false }
  ls.planAllows (ls.passPlan 9 2) [] (streamKey (linkKey 9 2 3) 9) 9 3 0 false &&
    does (.flitRelease 50 0) (fq q [fl 9 2 5]) (fun t => t.flits == [{ fl 8 2 2 with ready := 2 }]) : Bool) = true := by decide +kernel

theorem test_flit_turns : (coreX 17 == 5 && coreY 17 == 0 &&
  does (.flitRelease 50 0) (fq (cq 1) [fl 5 3 4]) (fun t => t.flits == [{ fl 5 2 1 with ready := 2 }]) : Bool) = true := by decide +kernel

theorem test_flit_to_core : (let q := { cq 1 with dests := [⟨17, true, false, false, [], [], [], 0⟩] }
  does (.flitRelease 50 0) (fq q [fl 5 0 3]) (fun t => t.flits == [{ fl 5 0 3 with atCore := true, ready := 1 }]) &&
    does (.flitRelease 50 0) (fq (cq 1) [fl 5 0 3]) (fun t => t.flits == [fl 5 0 3]) : Bool) = true := by decide +kernel

/-- The statement on first flits may be used: the first flit stands at the pass of its destination. -/
def firstOk (s : State) : Bool := s.firstThere 50 17 && s.conss.all (fun q => !s.fromOldStep q 17)
theorem test_first_flit_passes : (let s := fq (cq 1) [fl 5 0 3]
  firstOk s && ((s.core (s.phys 17)).foreignLanding 0 (cq 1).lands).isNone &&
    does (.consignmentFirstFlit 50 17) s (fun t => t.conss.map (fun q => q.dests) == [[⟨17, true, false, false, [], [], [], 0⟩]]) : Bool) = true := by decide +kernel

theorem test_first_flit_foreign : (let s := (fq (cq 1) [fl 5 0 3]).modCore 18 (fun c => withCove 1 0x8040 0 2 16 c (7 * 2 ^ 48))
  s.phys 17 == 18 && firstOk s && (s.core 18).foreignLanding 0 (cq 1).lands == some 0x8040 &&
  does (.consignmentFirstFlit 50 17) s (fun t => t.conss.isEmpty && t.flits.isEmpty && (t.core 0).get F.corFault_class == clsBounds &&
    (t.core 0).get F.corFault_unit == 10 && (t.core 0).get F.corFault_tag == 9) : Bool) = true := by decide +kernel

/-- A landing in window 5, whose core is core 1. -/
def wq : Consign := { cq 3 with dests := [⟨1, false, false, false, [], [], [], 0⟩] }
def wf1 : Flit := { fl 1 0 3 with dests := [1] }
theorem test_first_flit_stale : (let s := fq { wq with epoch := 4 } [wf1] wo
  s.firstThere 50 1 && s.epochSeen 1 != 4 && does (.consignmentFirstFlit 50 1) s (fun t => t.conss.map (fun q => q.diverted) == [true]) : Bool) = true := by decide +kernel

theorem test_first_flit_denied : (let s := fq { wq with slot := 2 } [wf1] wo
  s.firstThere 50 1 && s.epochSeen 1 == 0 && !s.windowTakes { wq with slot := 2 } &&
    does (.consignmentFirstFlit 50 1) s (fun t => t.get F.hbrStat_denied == 1 && t.msgs == [⟨.reply 0 0 0 5 1 0 false 0, 0, some w9⟩] &&
    t.cores == s.cores) : Bool) = true := by decide +kernel

theorem test_first_flit_window : (let s := fq wq [wf1] wo
  s.windowTakes wq && (s.core 1).get F.coveCfg_owner 1 == 0 &&
    does (.consignmentFirstFlit 50 1) s (fun t => t.conss.map (fun q => q.dests) == [[⟨1, true, false, false, [], [], [], 0⟩]]) : Bool) = true := by decide +kernel

/-- A last flit of one chunk at core 17, and its consignment. -/
def landing (claimed : List (Nat × Nat × Tag)) (landed : List Nat) : Consign := { cq 1 with dests := [⟨17, true, false, false, landed, claimed, [], 0⟩] }
def lf : Flit := { fl 5 0 3 with seq := 1, last := true, chunks := [(padTo 64 [1, 2], true)], atCore := true }
theorem test_flit_land : (let s := fq (landing [] [0]) [lf]
  s.landChunk (landing [] [0]) 2 == 0x8080 && s.banksFree 18 4 && ((s.core 18).coveAt 0x8080).isNone && does (.flitLand 50 17 1) s (fun t => t.flits.isEmpty &&
    (t.core 18).peek 0x8080 2 == [1, 2] && (t.core 18).poisoned 0x8080 &&
    t.conss.map (fun q => (q.flits, q.dests.map (fun d => d.landed))) == [(some 2, [[0, 1]])]) : Bool) = true := by decide +kernel

theorem test_flit_land_claims : (let s := (fq (landing [] [0]) [lf]).modCore 18 (withCove 1 0x8080 0 2 16)
  let c := s.core 18
  c.slotsOf [0x8080] == [(c.cove 1, 0)] && c.consNamed (landing [] [0]) == [(c.cove 1, 0)] && !s.inWindow 17 (c.cove 1, 0) && (c.tagSeen (c.cove 1) 0).free && s.banksFree 18 4 &&
    does (.flitLand 50 17 1) s (fun t => (t.core 18).peek 0x8080 2 == [1, 2] &&
    (t.core 18).tag (c.cove 1) 0 == ⟨1, 0, false, some (consProducer (cq 1))⟩ &&
      t.conss.flatMap (fun q => q.dests.map (fun d => d.claimed)) == [[(1, 0, Tag.ebb)]]) : Bool) = true := by decide +kernel

theorem test_commit : (let q := { landing [(1, 0, Tag.ebb)] [0, 1] with flits := some 2 }
  let s := { fq q [] with now := 2 }.modCore 18 (fun c => { withCove 1 0x8080 0 2 16 c with tags := Sparse.ofList Tag.ebb [(16, ⟨1, 0, false, some (consProducer (cq 1))⟩)] })
  q.dests.all (fun d => allLanded q d && (s.untouched (s.core 18) q d).isEmpty) && does (.consignmentCommit 50 17) s (fun t => t.conss.isEmpty &&
    (t.core 18).tag ((t.core 18).cove 1) 0 == ⟨2, 0x77, false, some (consProducer (cq 1))⟩) : Bool) = true := by decide +kernel

/-! Straits -/
/-- Strait port 3 in a state of Table 10-6. -/
def lk (st : Nat) (f : Link → Link := id) (s : State := ls) : State :=
  { (s.put F.strStat_state st 3) with links := [(3, f { Link.down with exchanges := 1 })], now := 1000 }

/-- What a command does to port 3, from a canonical state. -/
def link3 (i : Instr) (s : State) (st : Nat) (f : State → Bool) : Bool :=
  s.canonical && Sparse.wf (fun _ => Link.down) s.links && Sparse.wf (fun _ => BayRun.idle) s.bays &&
    runs (exec i s) (fun t => t.linkState 3 == st && f t)

/-- A partner of this plain's class and geometry at hall position 9. -/
def cap : CapRecord := ⟨2 ^ 48 + 9, 1, 2, 0, false, true⟩
theorem test_link_enable : (let s := { lk 0 with loader := { Loader.idle with outputs := true } }
  s.takes 1 && !s.flag F.strCfg_retrain 3 && link3 (.linkEnable 3 1 0x8000000000000007) s 1 (fun t => t.flag F.strCfg_enable 3 &&
    t.get F.strCfg_expPos 3 == 7 && (t.link 3).since == 1000) : Bool) = true := by decide +kernel

theorem test_link_train : (link3 (.linkTrainDone 3 0 0) (lk 1) 2 (fun t => (t.link 3).since == 1000) : Bool) = true := by decide +kernel

theorem test_link_lock : (link3 (.linkLockDone 3) (lk 2) 3 (fun t => !(t.link 3).got &&
  (t.link 3).recordAt.isNone) : Bool) = true := by decide +kernel

theorem test_record_send : (link3 (.capabilityRecordSend 3) (lk 3) 3 (fun t => (t.link 3).recordAt == some 1000 &&
  (t.link 3).record == some ((lk 3).ownRecord 3)) &&
  link3 (.capabilityRecordSend 3) (lk 3 (fun l => { l with got := true })) 4 (fun t => t.flag F.strStat_elasticOk 3 && (t.link 3).acked) &&
  link3 (.capabilityRecordSend 3) { lk 3 (fun l => { l with recordAt := some 1000 }) with now := 16999 } 3 (fun t => (t.link 3).recordAt == some 1000) : Bool) = true := by decide +kernel

theorem test_record_receive : (ls.identity 3 cap == some false &&
  link3 (.capabilityRecordReceive 3 cap) (lk 3) 3 (fun t => t.get F.strPart_pos 3 == 9 && (t.link 3).got && (t.link 3).matched) &&
  link3 (.capabilityRecordReceive 3 cap) (lk 3 (fun l => { l with recordAt := some 7 })) 4 (fun t => t.flag F.strStat_elasticOk 3) : Bool) = true := by decide +kernel

theorem test_record_mismatch : (let s := (lk 3).put F.strCfg_expValid 1 3
  (s.identity 3 cap).isNone && link3 (.capabilityRecordReceive 3 cap) s 3 (fun t => t.get F.strStat_lastEvent 3 == 4 &&
    !(t.link 3).matched) : Bool) = true := by decide +kernel

theorem test_record_new_die : (let s := (((lk 3).put F.strCfg_expValid 1 3).put F.strCfg_expPos 9 3).put F.strCfg_expClass 1 3
  s.identity 3 cap == some true && link3 (.capabilityRecordReceive 3 cap) s 3 (fun t => t.flag F.strStat_newDie 3 &&
    (t.link 3).matched) : Bool) = true := by decide +kernel

theorem test_link_up : (let s := ((lk 4 (fun l => { l with matched := true })).put F.tidLink_valid 1 3).put F.tidStat_aligned 1
  link3 (.linkUp 3) s 5 (fun t => !t.flag F.strStat_schedOk 3 && t.get F.strStat_lastEvent 3 == 3) &&
    link3 (.linkUp 3) (s.put F.tidLink_fit 1 3) 5 (fun t => t.flag F.strStat_schedOk 3) : Bool) = true := by decide +kernel

theorem test_link_timeout : (link3 (.linkStateTimeout 3) { lk 1 with now := 500000000 } 1 (fun t => t.get F.strStat_downs 3 == 1 &&
  (t.link 3).since == 500000000) &&
  link3 (.linkStateTimeout 3) { lk 2 with now := 1000000 } 1 (fun t => t.get F.strStat_downs 3 == 0) &&
    link3 (.linkStateTimeout 3) { lk 3 with now := 999999 } 3 (fun _ => true) &&
  link3 (.linkStateTimeout 3) { lk 3 with now := 1000000 } 1 (fun _ => true) : Bool) = true := by decide +kernel

theorem test_link_down_lock : (let s := ((lk 5 (fun l => { l with badRun := 64 })).put F.strStat_elasticOk 1 3).put F.tidLink_valid 1 3
  link3 (.linkDown 3 2) s 0 (fun t => !t.flag F.strStat_elasticOk 3 && !t.flag F.tidLink_valid 3 && t.get F.strStat_downs 3 == 1 &&
    t.get F.strStat_lastEvent 3 == 2) &&
  link3 (.linkDown 3 2) (lk 5 (fun l => { l with badRun := 63 })) 5 (fun _ => true) : Bool) = true := by decide +kernel

theorem test_link_down_errors : (link3 (.linkDown 3 6) ((lk 5 (fun l => { l with badWords := [(900, 10), (950, 7)] })).put F.strCfg_enable 1 3) 1 (fun t => t.get F.strStat_lastEvent 3 == 6) &&
  link3 (.linkDown 3 6) (lk 5 (fun l => { l with badWords := [(900, 10), (950, 6)] })) 5 (fun _ => true) : Bool) = true := by decide +kernel

theorem test_retrain : (let s := (lk 5).put F.strCfg_enable 1 3
  s.takes 1 && !s.flag F.strCfg_retrain 3 && link3 (.retrain 3 1) s 1 (fun t => t.get F.strStat_downs 3 == 1) : Bool) = true := by decide +kernel

theorem test_link_lost : (let s := { lk 1 (fun l => { l with lost := [(0, 5)] }) with bays := bs.bays, regs := (bs.put F.strStat_state 1 3).regs }
  s.canonical && Sparse.wf (fun _ => Link.down) s.links && Sparse.wf (fun _ => BayRun.idle) s.bays && (s.link 3).lost == [(0, 5)] && s.armed 0 &&
    !(s.core (s.phys 5)).flag F.corCtl_faulted : Bool) = true := by decide +kernel

/-! Blocks -/
theorem test_block_send : (let s := { lk 5 (fun l => { l with control := [.grant 9 1 2 3], beacons := [.breach 1 7] }) with now := 64 }
  s.flits.isEmpty && s.revokes.isEmpty && link3 (.straitBlockSend 3) s 5 (fun t => (t.link 3).sent == some ⟨64, List.replicate 25 (.empty, false), [.breach 1 7, .armed [], .measure 64 false false 0], 0, true⟩ &&
    (t.link 3).control.length == 1 && (t.link 3).beacons.isEmpty && (t.link 3).beaconAt == some 64) &&
  link3 (.straitBlockSend 3) (s.put F.strStat_elasticOk 1 3) 5 (fun t => (t.link 3).sent == some ⟨64, (.grant 9 1 2 3, false) :: List.replicate 24 (.empty, false), [.breach 1 7, .armed [], .measure 64 false false 0], 0, true⟩ &&
    (t.link 3).control.isEmpty) &&
  link3 (.straitBlockSend 3) { s with now := 65 } 5 (fun t => (t.link 3).sent.isNone) : Bool) = true := by decide +kernel

theorem test_block_receive : (link3 (.straitBlockReceive 3 ⟨64, [], [], 2, false⟩) (lk 5) 5 (fun t => (t.link 3).badRun == 1 &&
  t.get F.strStat_fecUe 3 == 2) && !(lk 5).flag F.strStat_elasticOk 3 : Bool) = true := by decide +kernel

theorem test_block_data : (let s := (fq (cq 3) [] (lk 5 (fun l => { l with lanesIn := [(2, 51)] }))).put F.strStat_elasticOk 1 3 |>.put F.tidLink_hopNs 300 3
  let b (lane : Nat) : StraitBlock := ⟨64, [(.data lane 4 false [[1], [2]], true)], [], 0, true⟩
  s.cons 50 == some (cq 3) && link3 (.straitBlockReceive 3 (b 2)) s 5 (fun t => t.flits == [⟨50, 4, false, [([1], true), ([2], true)], 11, 0, 5, [17], 364, false, false, false⟩]) &&
  link3 (.straitBlockReceive 3 (b 1)) s 5 (fun t => t.flits.isEmpty && t.get F.strStat_misroute 3 == 1) : Bool) = true := by decide +kernel

/-! Measuring and alignment -/
/-- Port 3 in MEASURE, towards the parent, with so many exchanges made, so many of them since alignment began, and a mean offset so far. -/
def ms3 (n steers : Nat) (off : Int) : State :=
  ((lk 4 (fun l => { l with rtts := List.replicate 255 200000, offsets := List.replicate 255 off, exchanges := n, steers := List.replicate steers off })).put F.tidCfg_parent 3).put F.tidLink_hopNs 212 3
theorem test_beacon : ((ms3 254 0 0).linkState 3 == 4 && (ms3 254 0 0).canonical &&
  link3 (.beaconExchange 3 0 100000 100000 200000 false 1) (ms3 254 0 0) 4 (fun t => t.get F.tidLink_rttPs 3 == 200000 &&
  !t.flag F.tidLink_valid 3 && !t.flag F.tidLink_fit 3) &&
  link3 (.beaconExchange 3 0 100000 100000 200000 false 1) (ms3 255 0 0) 4 (fun t => t.flag F.tidLink_valid 3 && t.flag F.tidLink_fit 3 &&
    t.now == 1000 && !t.flag F.tidStat_aligned) &&
  link3 (.beaconExchange 3 0 100000 100000 200000 false 1) ((ms3 255 0 0).put F.tidLink_hopNs 211 3) 4 (fun t => t.flag F.tidLink_valid 3 &&
    !t.flag F.tidLink_fit 3) &&
  link3 (.beaconExchange 3 0 100000 100000 200000 false 1) { ms3 255 0 0 with links := [(3, { (ms3 255 0 0).link 3 with late := true })] } 4 (fun t =>
    t.flag F.tidLink_valid 3 && !t.flag F.tidLink_fit 3) &&
  link3 (.beaconExchange 3 0 104000 104000 200000 true 1) ((ms3 2000 0 4000).put F.tidCfg_parent 4) 4 (fun t => t.now == 1000 && !t.flag F.tidStat_aligned) : Bool) = true := by decide +kernel

/-- The mean of one offset many times over is that offset. -/
theorem meanOf_replicate (n : Nat) (x : Int) : meanOf (List.replicate (n + 1) x) = x := by
  have h : ∀ (k : Nat) (a : Int), (List.replicate k x).foldl (· + ·) a = a + k * x := by
    intro k
    induction k with
    | zero => simp
    | succ k ih => intro a; rw [List.replicate_succ, List.foldl_cons, ih]; simp [Int.add_mul, Int.add_assoc, Int.add_comm, Int.add_left_comm]
  rw [meanOf, h]
  simp [List.replicate_succ]
  exact Int.mul_ediv_cancel_left x (by omega)

theorem test_beacon_aligns : (let s := ms3 2000 0 49
  s.canonical && s.linkState 3 == 4 && !s.flag F.tidCfg_root && s.get F.tidCfg_parent == 3 && !s.flag F.tidStat_ahead && !s.flag F.tidStat_aligned &&
  decide ((meanOf ((s.link 3).offsets ++ [49])).natAbs ≤ 300) && ((100049 - 0) - (199951 - 100000) : Int) / 2 == 49 &&
    link3 (.beaconExchange 3 0 100049 100000 199951 true 4) (ms3 2000 3 49) 4 (fun t => !t.flag F.tidStat_aligned &&
    t.flag F.tidStat_slew) : Bool) = true ∧
  ((ms3 2000 1023 49).link 3).steers = List.replicate 1023 49 ∧ (meanOf (List.replicate 1023 49 ++ [49])).natAbs < 50 := by
  refine ⟨by decide +kernel, rfl, ?_⟩
  rw [← List.replicate_succ', meanOf_replicate]
  decide

theorem test_beacon_ahead : (let s := (ms3 2000 0 (-4000)).put F.tidStat_aligned 1
  link3 (.beaconExchange 3 0 96000 96000 200000 true 4) s 4 (fun t => t.now == 1000 && t.flag F.tidStat_ahead && !t.flag F.tidStat_aligned) : Bool) = true := by decide +kernel

theorem test_beacon_jumps : (!(ms3 2000 0 4000).anyArmed &&
  link3 (.beaconExchange 3 0 104000 104000 200000 true 4) (ms3 2000 0 4000) 4 (fun t => t.now == 1004 &&
  t.flag F.tidStat_slew) : Bool) = true := by decide +kernel

/-! Tier ports -/
/-- A request of the word for two chunks from tier address 512 on, in the near tier. -/
def tq (write : Bool) (issued : Option Nat) (bytes : List Byte) : TierReq := ⟨40, 0, 0, 80, write, 512, bytes, [], if write then [] else [0x4000, 0x4040], w0, issued, 0⟩

/-- The tier holds 1, 2 at 512, and its chunk 9 is marked. -/
def tr (q : TierReq) : State := core0 (fun c => { c with exec := [⟨w0, .tload ⟨opnd 0x100 1 2, none, 8⟩, [], [], []⟩] }) { sx with reqs := [q], tier := Bytes.write 0 [] 512 [1, 2], tierPoison := [9] }
theorem test_tier_issue_read : (tierPort 512 == 1 && !isFar 512 && Sparse.get 0 (tr (tq false none [])).nearAt 1 != 1 &&
  runs (exec (.tierRequestIssue 1 false) (tr (tq false none []))) (fun t =>
  t.reqs == [{ tq false (some 0) (padTo 128 [1, 2]) with marked := [9] }]) && (tr (tq false none [])).canonical &&
    decide (reqSize (tq false none []) ≤ 512) : Bool) = true := by decide +kernel

theorem test_tier_issue_write : (runs (exec (.tierRequestIssue 1 false) (tr (tq true none [7]))) (fun t => t.reqs == [tq true (some 0) [7]] &&
  Bytes.read 0 t.tier 512 2 == [1, 2]) : Bool) = true := by decide +kernel

theorem test_tier_issue_far : (let q := { tq false none [] with addr := 2 ^ 40 + 512 }
  isFar q.addr && tierPort q.addr == 1 && (tr q).linkAccepts 0 false &&
    runs (exec (.tierRequestIssue 1 true) (tr q)) (fun t => t.reqs.map (fun r => r.issued) == [some 0]) &&
  (tr { q with write := true, bytes := [7], land := [] }).linkAccepts 0 true &&
    runs (exec (.tierRequestIssue 1 true) (tr { q with write := true, bytes := [7], land := [] })) (fun t => t.reqs.map (fun r => r.issued) == [some 0]) : Bool) = true := by decide +kernel

theorem test_tier_write : (runs (exec (.tierWriteAck 40) (tr (tq true (some 0) [7]))) (fun t => t.reqs.isEmpty &&
  Bytes.read 0 t.tier 512 2 == [7, 2]) : Bool) = true := by decide +kernel

theorem test_tier_reply : (let s := tr (tq false (some 0) (padTo 128 [1, 2]))
  (s.core 0).writesOpen [⟨0x4000, padTo 64 [1, 2]⟩, ⟨0x4040, padTo 64 []⟩] &&
    core0After (.tierReadReply 40 [9]) s (fun c => c.peek 0x4000 2 == [1, 2] && !c.poisoned 0x4000 && c.poisoned 0x4040) &&
  runs (exec (.tierReadReply 40 [9]) s) (fun t => t.reqs.isEmpty) : Bool) = true := by decide +kernel

/-! The schedule -/
/-- Bay 0 armed at tick `now`, its step of four frames of 1,024 ns from 2,048 on with step number 5; core 0 runs, and stands at its fence mark or not. -/
def gb (now : Nat) (fence : Bool) (f : BayRun → BayRun := id) : State :=
  let s := bs (core0 (fun c => { c.put F.corCtl_stopped 0 with iss := { c.iss with running := true, atFence := fence } }) sx)
  { ((s.put F.tidStep_stepNo 5 0).put F.tidSched_stepFrames 4 0) with bays := [(0, f { BayRun.idle with frames := 4, started := true })], now := now }

/-- A command on it, from a canonical state. -/
def bay0 (i : Instr) (s : State) (f : State → Bool) : Bool :=
  s.canonical && Sparse.wf (fun _ => BayRun.idle) s.bays && s.armed 0 && runs (exec i s) f
theorem test_sched_arm : (let s := sx.put F.tidStart_start 5000 0
  let v : Reg64 := BitVec.ofNat 64 (2 ^ 63 + 4 + 10 * 2 ^ 16 + 9 * 2 ^ 32 + 3 * 2 ^ 48)
  s.takes 1 && !s.armed 0 && s.mayArm 0 v && s.canonical && runs (exec (.schedArm 0 1 v) s) (fun t => t.armed 0 &&
    t.get F.tidSched_stepFrames 0 == 4 && t.groupOf 0 == 9 && t.bay 0 == { BayRun.idle with frames := 4, base := 3 } &&
    t.stepOf 0 == 0 && t.stepStartAt 0 == 5000) && !s.mayArm 0 (v - 3) && !{ s with now := 2953 }.mayArm 0 v &&
      { s with now := 2952 }.mayArm 0 v : Bool) = true := by decide +kernel

theorem test_sched_disarm : (let s := bs
  s.takes 1 && s.bayStopped 0 && !s.flag F.tidStep_halted 0 && bay0 (.schedDisarm 0 1) s (fun t => !t.armed 0 &&
    !(t.bay 0).started) : Bool) = true := by decide +kernel

theorem test_step_start : (let s := gb 6144 true
  s.mayStart 0 && s.nextStart 0 == 6144 && bay0 (.stepStart 0) s (fun t => t.stepStartAt 0 == 6144 && t.stepOf 0 == 6 && (t.bay 0).started &&
    (t.core 0).iss.passFence && (t.bay 0).copy.map (fun x => x.1) == s.bayCores 0) &&
  !(gb 6143 true).mayStart 0 && !(gb 6144 false).mayStart 0 &&
  (let w (at_ : Nat) : State := gb 6144 true (fun y => { y with writes := [(at_, 6, 3)] })
   (w 5120).mayStart 0 && bay0 (.stepStart 0) (w 5120) (fun t => ((t.bay 0).frames, (t.bay 0).base) == (6, 3)) &&
     bay0 (.stepStart 0) (w 5121) (fun t => ((t.bay 0).frames, (t.bay 0).base) == (4, 0))) : Bool) = true := by decide +kernel

theorem test_frame_end : (let s := { gb 3072 true with gov := { sx.gov with spent := [(0, 401)] }, ftab := [(0, 100)] }
  bay0 (.frameEnd 0) s (fun t => (t.bay 0).frame == 1 && t.get F.tidStep_overplan 0 == 1) &&
    bay0 (.frameEnd 0) { s with gov := { s.gov with spent := [(0, 400)] } } (fun t => (t.bay 0).frame == 1 && t.get F.tidStep_overplan 0 == 0) &&
  bay0 (.frameEnd 0) { s with now := 3071 } (fun t => (t.bay 0).frame == 0) : Bool) = true := by decide +kernel

theorem test_step_limit : (let s := gb 5120 false
  s.stepLimitAt 0 == 5120 && s.shortCores 0 == [0] && !s.flag F.tidStep_replay 0 && !s.flag F.tidStep_halted 0 && !s.mendFirst (s.groupOf 0) (s.stepOf 0) &&
  bay0 (.stepLimit 0) s (fun t => (t.bay 0).breached && (t.bay 0).resumeAt == some 7168 && t.get F.tidStep_breaches 0 == 1 &&
    t.flag F.tidStep_guardBreach 0 && t.get F.tidBreach_step 0 == 5 && t.get F.tidBreach_core 0 == 0 &&
    !(t.core 0).iss.running && (t.core 0).iss.cut) &&
      bay0 (.stepLimit 0) (gb 5119 false) (fun t => !(t.bay 0).breached) : Bool) = true := by decide +kernel

theorem test_step_limit_repeat : (let s := core0 (fun c => { c with waits := [⟨4, w9, 0x1000, 0⟩] }) ((gb 5120 false).put F.tidStep_replay 1 0)
  s.flag F.tidStep_replay 0 && s.beaconBays (s.groupOf 0) (s.stepOf 0) == [0] && s.shortCores 0 == [0] && !s.mendFirst (s.groupOf 0) (s.stepOf 0) &&
    (s.core 0).faultOpen && (s.core 0).accesses.isEmpty && (s.core 0).rels.isEmpty &&
    bay0 (.stepLimit 0) s (fun t => (t.bay 0).repeated && t.flag F.tidStep_repeat 0 &&
    (t.core 0).get F.corFault_class == clsTimeout && (t.core 0).get F.corFault_unit == 4 &&
      (t.core 0).get F.corFault_tag == 9) : Bool) = true := by decide +kernel

theorem test_step_limit_release : (let s := core0 (fun c => { (withCove 1 0x5000 0 2 16 c).put F.coveCtl_hold 1 1 with rels := [⟨1, 0, 1, some 7, 3, 0x44, 8, none, false, 0⟩] }) ((gb 5120 false).put F.tidStep_replay 1 0)
  let c := s.core 0
  s.shortCores 0 == [0] && c.faultOpen && c.accesses.isEmpty && c.waits.isEmpty && c.held (c.cove 1) &&
    bay0 (.stepLimit 0) s (fun t => (t.bay 0).repeated && t.flag F.tidStep_repeat 0 && (t.core 0).get F.corFault_class == clsTimeout &&
    (t.core 0).get F.corFault_unit == 9 && (t.core 0).get F.corFault_tag == 0x44) : Bool) = true := by decide +kernel

theorem test_breach_beacon : ((gb 5120 true).shortCores 0 == [] && bay0 (.breachBeaconReceive 0 5) (gb 5120 true) (fun t => (t.bay 0).breached &&
  (t.bay 0).resumeAt == some 7168 && t.flag F.tidStep_guardBreach 0) &&
  bay0 (.breachBeaconReceive 0 5) (gb 6144 true) (fun t => !(t.bay 0).breached) : Bool) = true := by decide +kernel

theorem test_repeat_beacon : (bay0 (.repeatBeaconReceive 0 5) (gb 5120 true) (fun t => t.flag F.tidStep_halted 0 && t.flag F.tidStep_repeat 0) &&
  bay0 (.repeatBeaconReceive 0 4) (gb 5120 true) (fun t => !t.flag F.tidStep_halted 0) : Bool) = true := by decide +kernel

theorem test_breach_restore : (let x : FenceCore := ⟨[], [(1, 42)], 16, 3, [], [(0x200, 7)], [], 0, 0, true⟩
  let s := core0 (fun c => { c with exec := [⟨w9, .eng 0, [], [], []⟩] }) (gb 6144 false (fun y => { y with breached := true, resumeAt := some 7168, copy := [(0, x)] }))
  decide (0 ∈ s.bayCores 0) && s.conss.isEmpty && !(s.core 0).flag F.corCtl_faulted && !(s.core 0).iss.lost && x.preds.all (fun e => decide (e.1 ∈ predOffsets)) && Sparse.wf (fun _ => (0 : Word)) x.xregs &&
    decide (s.stepEndAt 0 ≤ s.now) &&
  bay0 (.breachRestore 0) s (fun t => (t.bay 0).restored && (t.core 0).xregs == [(1, 42)] && (t.core 0).iss.off == 16 && (t.core 0).exec.isEmpty &&
    (t.core 0).get F.ldgLeaseAct_set == 3 && (t.core 0).iss.atFence && !(t.core 0).flag F.corCtl_stopped) : Bool) = true := by decide +kernel

theorem test_replay_start : (let s := gb 7168 true (fun y => { y with breached := true, restored := true, resumeAt := some 7168 })
  !s.railHeld && bay0 (.replayStart 0) s (fun t => t.stepStartAt 0 == 7168 && t.flag F.tidStep_replay 0 && !(t.bay 0).restored &&
    (t.bay 0).resumeAt.isNone && t.stepOf 0 == 5 && (t.core 0).iss.passFence) &&
  bay0 (.replayStart 0) { s with now := 7167 } (fun t => (t.bay 0).restored) : Bool) = true := by decide +kernel

/-! Power and pins -/
theorem test_governor_slice : (let s := { gs.put F.tidGovCfg_budget 1000 with gov := { gs.gov with past := List.replicate 124 8, cur := 12, held := [0, 1], throttling := false }, now := 16 }
  s.canonical && runs (exec .governorSlice s) (fun t => t.gov.past == 12 :: List.replicate 123 8 && t.gov.cur == 0 && t.gov.limit == 4000 && t.gov.throttling &&
    t.flag F.tidGovStat_throttle && t.gov.deficits == [(0, 1502), (1, 1502)]) &&
  runs (exec .governorSlice { s with now := 17 }) (fun t => t.gov.cur == 12) : Bool) = true := by decide +kernel

theorem test_throttle_req : (let s := (gs.put F.tidGovCfg_floor 7).put F.tidGovCfg_budget 1000
  runs (exec .throttleReqRise s) (fun t => t.pins.throttleReq && t.flag F.tidGovStat_floorAct && t.govLimit == 28 && t.gov.limit == s.gov.limit) &&
    runs (exec .throttleReqFall s) (fun t => t.govLimit == 4000) : Bool) = true := by decide +kernel

theorem test_rail_fault : (let s := core0 (fun c => { c.put F.corCtl_stopped 0 with iss := { c.iss with running := true } }) sx
  s.get F.imgStat_state == 6 && runs (exec (.railFault false true false) s) (fun t => t.railHeld && t.evDue == [⟨20, none, 0, 2⟩] &&
    !t.pins.railLedge && t.pins.railLogic && !(t.core 0).iss.running && (t.core 0).iss.stopping) : Bool) = true := by decide +kernel

theorem test_load_step : (let s := { gb 1048 true with ftab := [(0, 201 * 2 ^ 32)], bays := [(0, { BayRun.idle with frames := 4 })] }
  s.power 2047 + 200 < s.power 2048 && runs (exec .loadStepAssert s) (fun t => t.pins.loadStep && t.loadStepOff == 3048) &&
  runs (exec .loadStepAssert { s with ftab := [(0, 200 * 2 ^ 32)] }) (fun t => !t.pins.loadStep) : Bool) = true := by decide +kernel

theorem test_load_step_release : (let s := { sx with pins := { sx.pins with loadStep := true }, loadStepOff := 3048, now := 3048 }
  runs (exec .loadStepRelease s) (fun t => !t.pins.loadStep) &&
    runs (exec .loadStepRelease { s with now := 3047 }) (fun t => t.pins.loadStep) : Bool) = true := by decide +kernel

theorem test_holdover : (runs (exec .holdover sx) (fun t => !t.pins.tideRef && t.flag F.tidStat_holdover && t.flag F.tidStat_holdSeen) &&
  runs (exec .holdoverEnd ((sx.put F.tidStat_holdSeen 1).put F.tidStat_holdover 1)) (fun t => t.pins.tideRef && !t.flag F.tidStat_holdover &&
    t.flag F.tidStat_holdSeen) : Bool) = true := by decide +kernel

theorem test_power_up : (runs (exec (.powerUp true false true) { wo with store := [(3, 1)], tier := [(4, 2)] }) (fun t => t.regs.isEmpty &&
  t.cores.isEmpty && t.now == 0 && t.tier.isEmpty && t.store == [(3, 1)] && !t.pins.railLedge && t.pins.railLogic) : Bool) = true := by decide +kernel

theorem test_therm_sample : (runs (exec (.thermSample [0x50, 0x60, 0x70]) sx) (fun t => t.get F.plnTherm_temp0 0 == 0x50 &&
  bits (t.reg (F.plnTherm_temp0.addr 0)).toNat 15 8 == 0x60 && bits (t.reg (F.plnTherm_temp0.addr 0)).toNat 23 16 == 0) && sx.usable 1 &&
  !sx.usable 2 : Bool) = true := by decide +kernel

/-! Mending -/
/-- The armed bay 0 at its fence, where core 3 holds an ARITH_RESIDUE fault. -/
def cf : State := (gb 3000 true).modCore 3 (fun c => ((c.put F.corCtl_faulted 1).put F.corFault_class 8).put F.corFault_tag 0x99)

/-- The takeover of core 3 of shoal 0 from tick 3,000 on, in a phase of its mend; the bay fenced. -/
def mm : Mend := ⟨3, 3, 3000, 8, 0x99, 1, 5, some 0, 47000, 0, none, 0, 0, false, false⟩
def mp (phase now : Nat) (f : Mend → Mend := id) : State :=
  { (((cf.put F.shlMendStat_phase phase 0).put F.shlMendStat_active 1 0).modBay 0 (fun y => { y with fenced := true })) with mends := [(0, f mm)], now := now }

/-- A command on it, from a canonical state. -/
def mend0 (i : Instr) (s : State) (f : State → Bool) : Bool :=
  s.canonical && Sparse.wf (fun _ => BayRun.idle) s.bays && Sparse.wf (fun _ => (0 : Reg64)) s.strPlan && runs (exec i s) f
theorem test_island_lost : (let s := gb 3000 true
  s.canonical && Sparse.wf (fun _ => BayRun.idle) s.bays && !(s.core 3).flag F.corCtl_faulted &&
    runs (exec (.islandLost 3) s) (fun t => !t.flag F.tidStat_locked) : Bool) = true := by decide +kernel

theorem test_mend_fence : (takesOver 8 && !(cf.core 3).isolated && !cf.railHeld && (cf.mend 0).isNone && cf.bayOf 0 == some 0 && cf.armed 0 &&
  mend0 (.mendFence 3) cf (fun t => (t.mend 0).map (fun m => (m.pos, m.place, m.since, m.bay, m.cls, m.tag)) == some (3, 3, 3000, some 0, 8, 0x99) &&
    t.get F.shlMendStat_phase 0 == 1 && t.get F.shlMendStat_lastPos 0 == 3 && (t.bay 0).fenced &&
    (t.core 0).iss.cut) : Bool) = true := by decide +kernel

theorem test_mend_beacon : (mend0 (.mendBeaconReceive 0 5) cf (fun t => (t.bay 0).fenced) &&
  mend0 (.mendBeaconReceive 0 6) cf (fun t => !(t.bay 0).fenced) && cf.armed 0 : Bool) = true := by decide +kernel

theorem test_mend_check : (let s := mp 1 5000
  !s.flag F.shlMendStat_spent 0 && !s.flag F.shlMendStat_dead 0 && s.armed 0 && !s.foldsPending 0 && !s.railHeld &&
    mend0 (.mendCheck 0) s (fun t => t.get F.shlMendStat_phase 0 == 2 && (t.core 3).isolated && t.mends == s.mends && t.flag F.tidStat_locked) &&
    mend0 (.mendCheck 0) { s with lostIslands := [3, 9] } (fun t => !t.flag F.tidStat_locked) &&
  mend0 (.mendCheck 0) (mp 1 4999) (fun t => t.get F.shlMendStat_phase 0 == 1) : Bool) = true := by decide +kernel

theorem test_mend_check_spent : (mend0 (.mendCheck 0) ((mp 1 5000).put F.shlMendStat_spent 1 0) (fun t => !t.flag F.shlMendStat_active 0 &&
  t.mends.isEmpty && t.flag F.shlMendStat_exhausted 0 && (t.core 3).isolated) : Bool) = true := by decide +kernel

/-- In phase 2, core 3 and core 1 have a folded cove of two slots at 0x10000; core 1 holds 5 in its first chunk, the reserve 7, and elsewhere 1. -/
def rb (now : Nat) : State :=
  let shad (c : CoreState) : CoreState := (withCove 2 0x10000 0 2 32 c (2 ^ 60)).put F.corShadow_folded 4
  (((mp 2 now).modCore 3 shad).modCore 1 (fun c => { shad c with basin := [(0x10000, 5)] })).modCore 16 (fun c => { c with basin := [(0x200, 1), (0x10000, 7)] })
theorem test_mend_rebuild : (let s := rb 7000
  s.spare 0 == some 16 && (s.core 3).foldedChunks == [0x10000, 0x10040] && (s.core 3).foldedChunks.all (fun a => !(s.rebuildChunk 0 3 16 a).2.2) &&
    (s.rebuildChunk 0 3 16 0x10000).1 == padTo 64 [2] &&
  mend0 (.mendRebuild 0) s (fun t => t.get F.shlMendStat_phase 0 == 3 && (t.core 16).peek 0x10000 1 == [2] && (t.core 16).peek 0x200 1 == [0] &&
    (t.mend 0).map (fun m => m.rebuilt) == some 2) &&
  mend0 (.mendRebuild 0) (rb 6999) (fun t => t.get F.shlMendStat_phase 0 == 2) : Bool) = true := by decide +kernel

theorem test_self_test : (mend0 (.selfTestDone 0 true) (mp 3 47000) (fun t => t.mends == [(0, { mm with test := some true })]) &&
  !(mp 3 47000).flag F.shlMendStat_dead 0 && mend0 (.selfTestDone 0 false) (mp 3 47000) (fun t => t.flag F.shlMendStat_dead 0 &&
    t.flag F.shlMendStat_exhausted 0 && t.mends.isEmpty && t.get F.shlMendStat_phase 0 == 0) : Bool) = true := by decide +kernel

theorem test_mend_renumber : (let s := (mp 3 47000 (fun m => { m with test := some true })).modCore 16 (fun c => { c with basin := [(7, 1)] })
  s.spare 0 == some 16 && s.phys 3 == 3 && !s.railHeld && mend0 (.mendRenumber 0) s (fun t => t.physAt 0 3 == 16 && t.physAt 0 4 == 4 && (t.spare 0).isNone &&
    t.flag F.shlMendStat_spent 0 && t.get F.shlMendStat_phase 0 == 4 && (t.core 16).basin == [(7, 1)] &&
    (t.core 16).flag F.corCtl_stopped && !(t.core 16).flag F.corCtl_faulted &&
      (t.mend 0).map (fun m => m.renumberEnd) == some 47512) : Bool) = true := by decide +kernel

theorem test_mend_restore : (let s := (mp 4 47512 (fun m => { m with renumberEnd := 47512 })).modCore 3 (fun c => (c.put F.corMendEntry_valid 1).put F.corMendEntry_entry 64)
  mend0 (.mendRestore 0) s (fun t => t.get F.shlMendStat_phase 0 == 5 && t.mends.map (fun m => (m.2.restoreAt, m.2.lead)) == [(47512, false)] &&
    (t.core 3).iss.running && (t.core 3).iss.restoring && (t.core 3).iss.off == 64 && !(t.core 3).flag F.corCtl_stopped) &&
  mend0 (.mendRestore 0) (mp 4 47512 (fun m => { m with renumberEnd := 47512 })) (fun t => t.get F.shlMendStat_phase 0 == 5 &&
    !(t.core 3).iss.running) : Bool) = true := by decide +kernel

theorem test_mend_pilot_timeout : (let s := (mp 4 49512 (fun m => { m with renumberEnd := 47512 })).put F.shlMendCfg_pilotUs 2 0
  mend0 (.mendPilotTimeout 0) s (fun t => t.get F.shlMendStat_phase 0 == 5 && t.mends.map (fun m => m.2.lead) == [true]) &&
    mend0 (.mendPilotTimeout 0) { s with now := 49511 } (fun t => t.get F.shlMendStat_phase 0 == 4) : Bool) = true := by decide +kernel

theorem test_restore_timeout : (let s := ((mp 5 50001 (fun m => { m with restoreAt := 48000 })).put F.shlMendCfg_restoreNs 2000 0).modCore 3 (fun c => { c.put F.corCtl_stopped 0 with iss := { c.iss with running := true } })
  !(s.core (s.phys 3)).flag F.corCtl_stopped && mend0 (.restoreTimeout 0) s (fun t => t.flag F.shlMendStat_exhausted 0 &&
    (t.core 3).flag F.corCtl_stopped && !(t.core 3).iss.running) : Bool) = true := by decide +kernel

/-- The fence copy of core 0 that the fenced bay keeps. -/
def fx : FenceCore := ⟨[], [(1, 42)], 16, 3, [], [(0x200, 7)], [(1, 5)], 0, 0, true⟩

/-- The state with that copy, and what the statement on resuming groups supposes of it. -/
def fenced (s : State) : State := (s.modBay 0 (fun y => { y with fenced := true, copy := [(0, fx)] })).modCore 0 (fun c => { c with vecQ := [⟨w9, .param ⟨0, 1, 0⟩⟩] })
def groupOk (s : State) : Bool :=
  s.canonical && Sparse.wf (fun _ => BayRun.idle) s.bays && Sparse.wf (fun _ => (0 : Reg64)) s.strPlan && s.armed 0 && s.beaconBays (s.groupOf 0) (s.stepOf 0) == [0] &&
  !s.railHeld && (s.bay 0).fenced && (s.bay 0).copy == [(0, fx)] && decide (0 ∈ s.bayCores 0) && Sparse.wf (fun _ => (0 : Word)) fx.xregs &&
  fx.preds.all (fun e => decide (e.1 ∈ predOffsets)) && fx.credit.all (fun e => decide (e.1 ∈ creditKeys)) && Sparse.wf (fun _ => (0 : Reg64)) (s.core 0).route &&
  !(s.core 0).flag F.corCtl_faulted && !(s.core 0).iss.lost

/-- Core 0 has its fence copy back. -/
def hasCopy (t : State) : Bool :=
  (t.core 0).xregs == [(1, 42)] && (t.core 0).iss.off == 16 && (t.core 0).vecQ.isEmpty && (t.core 0).get F.ldgLeaseAct_set == 3 && (t.core 0).iss.atFence && !(t.core 0).flag F.corCtl_stopped
theorem test_mend_resume : (let s := fenced ((mp 5 50000 (fun m => { m with restoreAt := 48000 })).modCore 3 (fun c => c.put F.corCtl_faulted 0))
  groupOk s && s.stepOf 0 == 5 && (s.core 3).flag F.corCtl_stopped && s.linkFaults.isEmpty && !(s.core 3).iss.broke &&
  mend0 (.mendResume 0) s (fun t => !(t.bay 0).fenced && (t.bay 0).restored && (t.bay 0).mendReplay && (t.bay 0).resumeAt == some 52224 &&
    t.mends.isEmpty && t.get F.shlMendStat_phase 0 == 0 && t.get F.plnMendStat_mends == 1 && hasCopy t) : Bool) = true := by decide +kernel

theorem test_resume_beacon : (let s := fenced { mp 5 50000 with mends := [] }
  groupOk s && s.linkFaults.isEmpty && mend0 (.resumeBeaconReceive 0 5 60000) s (fun t => !(t.bay 0).fenced && (t.bay 0).resumeAt == some 60000 && hasCopy t) &&
    s.groupOf 0 == 0 && s.stepOf 0 == 5 : Bool) = true := by decide +kernel

/-- A link fault of port 3 that bay 0 waits for, all its cores stopped, with the twin 7 up or not; route 1 of core 0 leaves by port 3. -/
def lm (up : Nat) : State :=
  fenced { (((((mp 0 50000).modCore 0 (fun c => { c.put F.corCtl_stopped 1 with route := [(2, BitVec.ofNat 64 (3 + 3 * 2 ^ 16))] })).put F.strTwin_valid 1 3).put F.strTwin_twin 7 3).put F.strStat_state 5 7).put F.strStat_schedOk up 7 with
    mends := [], linkFaults := [(3 * 128, ⟨0, 0, 4000⟩)], strPlan := [(3 * 1024 + 2, 77)] }
theorem test_link_mend : (groupOk (lm 1) && (lm 1).twinOf 3 == some 7 && (lm 1).bayStopped 0 && mend0 (.linkMend 3) (lm 1) (fun t => t.linkFaults.isEmpty &&
  !t.flag F.strTwin_valid 3 && t.get F.plnMendStat_linkMends == 1 && (t.bay 0).restored && !(t.bay 0).fenced && hasCopy t &&
  Sparse.get 0 (t.core 0).route 2 == BitVec.ofNat 64 (3 + 7 * 2 ^ 16)) : Bool) = true := by decide +kernel

theorem test_link_mend_plan : (Sparse.wf (fun _ => (0 : Reg64)) ((lm 1).copyPlan 3 7).strPlan &&
  Sparse.get 0 ((lm 1).copyPlan 3 7).strPlan (7 * 1024 + 2) == 77 : Bool) = true := by decide +kernel

theorem test_link_hold : (((lm 0).twinOf 3).isNone && mend0 (.linkMend 3) (lm 0) (fun t => t.linkFaults.isEmpty && t.flag F.tidStep_halted 0 &&
  !(t.bay 0).fenced && (t.bay 0).resumeAt.isNone && hasCopy t) && groupOk (lm 0) : Bool) = true := by decide +kernel

theorem test_reserve_lost : (mend0 (.reserveLost 0) gs (fun t => t.flag F.shlMendStat_spent 0 && (t.spare 0).isNone &&
  t.get F.shlMendStat_source 0 == 4 && t.evDue.head? == some ⟨16, none, 0, 0⟩ &&
  (t.core 0).get F.corShadow_folded == 0) : Bool) = true := by decide +kernel

theorem test_shoal_island_lost : (gs.mends.isEmpty && (gs.bayOf 0).isNone && mend0 (.shoalIslandLost 0) gs (fun t => t.flag F.shlMendStat_dead 0 &&
  t.get F.shlMendStat_source 0 == 5 && t.flag F.shlMendStat_exhausted 0 && t.mends.isEmpty && t.cores == gs.cores) : Bool) = true := by decide +kernel

theorem test_service_go : (let s := sx.put F.shlMendStat_spent 1 0
  s.takes 1 && s.usable 0 && s.mayService 0 && !s.flag F.shlMendCfg_serviceGo 0 &&
    mend0 (.serviceGo 0 1) s (fun t => t.flag F.shlMendCfg_serviceGo 0) : Bool) = true := by decide +kernel

theorem test_service_done : (let s := { (sx.put F.shlMendCfg_serviceGo 1 0).put F.shlMendStat_spent 1 0 with failed := [(0, 3)] }
  s.canonical && mend0 (.serviceDone 0 false) s (fun t => t.flag F.shlMendStat_svcFail 0 && !t.flag F.shlMendCfg_serviceGo 0 &&
    t.cores == s.cores) && Sparse.get 31 s.failed 0 == 3 &&
  mend0 (.serviceDone 0 true) s (fun t => t.spare 0 == some 3 && !t.flag F.shlMendStat_spent 0 &&
    !t.flag F.shlMendCfg_serviceGo 0) : Bool) = true := by decide +kernel

/-! The mirror, pilots and serving -/
/-- The bytes of a list of fields at the first address, each with its length. -/
def recBytes (l : List (Nat × Nat)) : List Byte := l.flatMap (fun e => natBytes e.2 e.1)

/-- A mirror at 4,096 with one segment: one chunk for core 2 at 0x3000, its data 2 chunks in. -/
def mi : State :=
  let head := recBytes [(1, 4), (s0.get F.plnId_class, 2), (s0.get F.plnId_geomCode, 1)]
  let seg := recBytes [(2, 2), (0x3000, 4), (1, 4), (0, 2), (0, 1), (0, 3), (2, 8)]
  { (sx.put F.plnGeom7_nearGib 256).modCore 2 (fun c => { c with basin := [(0x3001, 7), (0x3040, 8)] }) with tier := Bytes.write 0 (Bytes.write 0 (Bytes.write 0 [] 4096 head) 4160 seg) 4224 [1, 2, 3] }
def seg2 : Segment := ⟨2, 0x3000, 1, 0, false, 2⟩
/-- What the mirror statement supposes of a direction. -/
def mirSupposed (s : State) (save : Bool) : Bool :=
  let u := (s.put F.plnMirrorCfg_base 1).put F.plnMirrorCfg_dir (b2n save)
  let c := s.core (s.phys 2)
  s.canonical && s.takes 1 && !s.flag F.plnMirrorCfg_go && u.segments == [seg2] && c.washEnd.isNone && !c.isolated && (c.coveAt 0x3000).isNone &&
    (c.windowAt 0x3000).isNone && !c.foldPending 0x3000 && !c.folded 0x3000
theorem test_mirror_load : (mirSupposed mi false && ((mi.put F.plnMirrorCfg_base 1).mirrorError false) == 0 &&
  runs (exec (.mirrorLoad 1 1) mi) (fun t => (t.core 2).peek 0x3000 4 == [1, 2, 3, 0] && (t.core 2).peek 0x3040 1 == [8] &&
  t.mirrorOp == some ⟨false, 0, 1⟩ && t.flag F.plnMirrorCfg_go) : Bool) = true := by decide +kernel

theorem test_mirror_save : (mirSupposed mi true && (((mi.put F.plnMirrorCfg_base 1).put F.plnMirrorCfg_dir 1).mirrorError true) == 0 &&
  runs (exec (.mirrorSave 1 1) mi) (fun t => t.tierRead 4224 3 == [0, 7, 0] && t.cores == mi.cores &&
  t.mirrorOp == some ⟨true, 0, 1⟩) : Bool) = true := by decide +kernel

theorem test_mirror_refused : (let s := mi.modCore 2 (fun c => c.put F.corCtl_stopped 0)
  ((s.put F.plnMirrorCfg_base 1).mirrorError false) == 2 && s.takes 1 && s.canonical &&
    runs (exec (.mirrorLoad 1 1) s) (fun t => t.mirrorOp == some ⟨false, 2, 0⟩ && t.cores == s.cores &&
    t.tier == s.tier) : Bool) = true := by decide +kernel

theorem test_mirror_done : (let s := { mi.put F.plnMirrorCfg_go 1 with mirrorOp := some ⟨false, 0, 1⟩ }
  s.canonical && runs (exec .mirrorDone s) (fun t => t.mirrorOp.isNone && !t.flag F.plnMirrorCfg_go && t.get F.plnMirrorStat_segsDone == 1 &&
    t.flag F.plnMirrorStat_done) &&
  runs (exec .mirrorDone { s with mirrorOp := some ⟨false, 3, 0⟩ }) (fun t => t.get F.plnMirrorStat_errCode == 3 && t.flag F.plnMirrorStat_err &&
    !t.flag F.plnMirrorStat_done) : Bool) = true := by decide +kernel

/-- A notice of core 2 at a time. -/
def nt (time : Nat) : Notice := ⟨0, 2, 0, time, 0, 0, 0⟩
/-- Two notices of pilot 0 and one of the lead pilot. -/
def nq : State := { sx with notices := [(0, [nt 1, nt 2]), (80, [nt 9])] }
/-- The wellformedness the pilot statement supposes. -/
def pilotWf (s : State) : Bool := s.canonical && Sparse.wf (fun _ => PilotRun.reset) s.pilots &&
  Sparse.wf (fun _ => ([] : List Notice)) s.notices
/-- Pilot `n` restarted component 1 eight times at tick 5. -/
def pr (n : Nat) : State := { nq with pilots := [(n, { PilotRun.reset with starts := List.replicate 8 (1, 5) })], now := 1000 }
theorem test_pop : (pilotWf nq && nq.takes 1 && nq.usable 0 && !nq.flag F.shlNotice_pop 0 && !nq.flag F.plnNoticeLo_pop &&
  runs (exec (.pop 0 1) nq) (fun t => t.notices == [(0, [nt 2]), (80, [nt 9])]) &&
  runs (exec (.pop 80 1) nq) (fun t => t.notices == [(0, [nt 1, nt 2])]) : Bool) = true := by decide +kernel

theorem test_component_restart : (pilotWf (pr 0) && !(pr 0).heldDown 0 1 && !((pr 0).pilot 0).inReset &&
  runs (exec (.componentRestart 0 1) (pr 0)) (fun t => t.heldDown 0 1 && t.get F.shlPilotRst_rstCount 0 == 256) &&
  runs (exec (.componentRestart 0 2) (pr 0)) (fun t => !t.heldDown 0 2 && (t.pilot 0).starts.length == 9) &&
  runs (exec (.componentRestart 0 1) { pr 0 with now := 1000000005 }) (fun t => !t.heldDown 0 1 &&
    (t.pilot 0).starts == [(1, 1000000005)]) : Bool) = true := by decide +kernel

theorem test_component_restart_lead : (pilotWf (pr 80) && !(pr 80).heldDown 80 1 && !((pr 80).pilot 80).inReset &&
  runs (exec (.componentRestart 80 1) (pr 80)) (fun t => t.heldDown 80 1 && t.evDue == [⟨19, none, 1000, 0xFF01⟩]) : Bool) = true := by decide +kernel

theorem test_pilot_timer : (!({ nq with pilots := [(3, { PilotRun.reset with mtimecmp := 9 })], now := 8 } : State).pilotTimer 3 &&
  ({ nq with pilots := [(3, { PilotRun.reset with mtimecmp := 9 })], now := 9 } : State).pilotTimer 3 && !nq.pilotSoftware 3 &&
  (nq.put F.shlMsip_msip 1 3).pilotSoftware 3 : Bool) = true := by decide +kernel

theorem test_pilot_reset : (pilotWf nq && runs (exec (.pilotReset 3) nq) (fun t => (t.pilot 3).inReset &&
  !(t.pilot 0).inReset) : Bool) = true := by decide +kernel

/-- An image header (Table 14-2) of so many words and frames for a mask of shoals, and an image whose one frame gives the pilots of shoals 0
and 3 the word 0x77 at byte 8. -/
def imgHead (words frames mask : Nat) (geom : Nat := 1) : List Byte :=
  recBytes [(0x4E59, 2), (1, 1), (0, 1), (s0.get F.plnId_class, 2), (geom, 1), (0, 1), (0xFFFF, 2), (0, 1), (64, 1), (0, 4), (mask, 10), (0, 2),
    (0x04030201, 4), (0, 8), (frames, 4), (words, 4), (0, 16), (0, 8), (0x80000001, 4), (0, 52)]
def img : List Byte := imgHead 23 2 9 ++ recBytes [(5, 1), (0, 3), (1, 4), (1, 4), (0, 4), (9, 10), (0, 6), (0x77, 8), (15, 1), (0, 15)]
/-- The map of a list of bytes from an address on, over memory whose unlisted bytes read as `d`. -/
def placed (d : Byte) (a : Nat) (l : List Byte) : List (Nat × Byte) := (l.zipIdx.map (fun e => (a + e.2, e.1))).filter (fun e => e.2 != d)
/-- The store holds it in slot 0, and pilot 3 is in reset. -/
def pl : State := { nq with pilots := [(3, { PilotRun.reset with inReset := true })], sram := [(3 * 2 ^ 32 + 5, 1), (4 * 2 ^ 32, 2)], header := imgHead 23 2 9, store := placed erasedByte (slotBase 0) img }
theorem test_pilot_reload : (pilotWf pl && pl.storeBad.isEmpty &&
  (pl.walkFrames (.store (slotBase (pl.get F.imgStat_slot))) pl.header (fun u _ => (u, none)) (Sys2Proof.Machine.hdr pl.header 44 4 * 8) (Sys2Proof.Machine.hdr pl.header 40 4) 128).2.isNone &&
  runs (exec (.pilotReload 3) pl) (fun t => !(t.pilot 3).inReset &&
    t.sram == [(3 * 2 ^ 32 + 8, 0x77), (4 * 2 ^ 32, 2)]) : Bool) = true := by decide +kernel

/-- A submission of 128 bytes: op, flags, PRIO, ROLE, context, queue, id, deadline, tenant, prompt tokens and shape. -/
def subBytes (op role ctx queue deadline : Nat) (shape : List Nat) (flags : Nat := 0) : List Byte :=
  recBytes ([(op, 1), (flags, 1), (2, 1), (role, 1), (ctx, 2), (queue, 1), (0, 1), (0x1234, 8), (deadline, 8), (6, 2), (0, 2), (10, 4)] ++ shape.map (fun n => (n, 4)) ++ [(0, 8), (0x8000, 8)])

/-- Context 9 OPEN in bay 0, which is READY, with rings at pages 16 and 17 of 16 and 4 entries, its program at 0x14000 with one terrace that
holds 64 by 32. -/
def sv (b : List Byte) (s : State := bs) : State :=
  let s1 := ((((s.put F.ctxCfg_state 1 9).put F.ctxCfg_bay 0 9).put (F.ctxSq_enable.sh 16) 1 9).put (F.ctxSq_base.sh 16) 16 9).put (F.ctxSq_sizeLog2.sh 16) 4 9
  let s2 := (((s1.put (F.ctxSqp_producer.sh 16) 1 9).put F.ctxCq_enable 1 9).put F.ctxCq_base 17 9).put F.ctxCq_sizeLog2 2 9
  let s3 := (s2.put F.ctxProg_base 0x500 9).put F.ctxCookie_cookie 0x55 9
  let prog := recBytes [(s0.get F.plnId_class, 2), (s0.get F.plnId_geomCode, 1), (0, 1), (64, 4)]
  let table := recBytes [(1, 1), (2, 1), (0, 2), (16, 4), (16, 4), (0, 8), (0x400, 4), (0x77, 2)]
  let ter := recBytes [(64, 4), (32, 4), (0, 8), (0x100, 4), (4096, 4)]
  { s3 with tier := Bytes.write 0 (Bytes.write 0 (Bytes.write 0 (Bytes.write 0 [] 0x10000 b) 0x14000 prog) 0x14040 table) 0x14080 ter, now := 5000 }
/-- The entry at CONSUMER, the refusal of it, and what the statement supposes. -/
def refusal (b : List Byte) : Option (Nat × Nat) := (sv b).refuseSub (subEntry ((sv b).tierRead 0x10000 128)) 9 1
def subSupposed (s : State) : Bool :=
  s.canonical && s.leadRuns && !s.heldDown 80 0 && s.get F.ctxCfg_state 9 != 0 && s.flag (F.ctxSq_enable.sh 16) 9 &&
    s.get (F.ctxSqp_consumer.sh 16) 9 == 0 && s.get (F.ctxSqp_producer.sh 16) 9 == 1 && !s.tierBad 0x10000 128
def inf : List Byte := subBytes 2 0 9 1 7000 [50, 20, 0, 0]
theorem test_submission_accepted : (let s := sv inf
  subSupposed s && (refusal inf).isNone && s.ledState 0 == 0 && (s.sub 0).isNone &&
    runs (exec (.submissionRead 9 1) s) (fun t => t.ledState 0 == 1 && t.get (F.ctxSqp_consumer.sh 16) 9 == 1 && t.get F.ledWord0_tenant 0 == 6 &&
    t.get F.ledWord0_context 0 == 9 &&
    t.get F.ledWord0_prio 0 == 2 && t.get F.ledWord0_bay 0 == 0 && t.get F.ledWord1_deadline 0 == 7000 && t.get F.ledWord2_head 0 == 0xFFFFFFFF &&
      t.get F.ledWord3_queue 0 == 1 && (t.sub 0).map (fun x => (x.submitId, x.shape, x.arrival)) == some (0x1234, [50, 20, 0, 0], 5000) &&
      t.tier == s.tier) : Bool) = true := by decide +kernel

theorem test_submission_refused : (refusal (subBytes 0 0 9 1 0 []) == some (6, 1) && refusal (subBytes 2 0 8 1 0 []) == some (6, 1) &&
  refusal (subBytes 2 1 9 1 0 []) == some (4, 0) && refusal (subBytes 2 0 9 1 0 [65, 1, 0, 0]) == some (2, 0) &&
  refusal (subBytes 2 0 9 1 0 [64, 33, 0, 0]) == some (2, 1) &&
  (let s := sv (subBytes 2 0 9 1 0 [64, 33, 0, 0])
   subSupposed s && s.cqRoom 9 && s.firstInQueue 9 1 s.arrivals &&
     runs (exec (.submissionRead 9 1) s) (fun t => t.get (F.ctxSqp_consumer.sh 16) 9 == 1 && t.subs.isEmpty && t.ledState 0 == 0 &&
     t.get F.ctxCqp_producer 9 == 1 &&
    t.tierRead 0x11000 32 == recBytes [(0x1234, 8), (2, 1), (1, 1), (0x81, 1), (0, 1), (0, 8), (0xFFFF, 2), (0, 2), (5000, 8)])) : Bool) = true := by decide +kernel

/-- What firmware keeps of the submission, in ledger entry 4 in a state, with its tenant's budget: BALANCE, BURST, PF_WEIGHT 8 and HOLD_MS 1. -/
def sb : Sub := ⟨2, 0, 0, 0x1234, 10, [50, 20, 0, 0], 0x6000, 0x8000, 64, 4, 3, 1000, 0, none, none, 5, none⟩
def led (st balance : Nat) (x : Sub := sb) (s : State := sv inf) : State :=
  let s1 := ((((s.put F.ledWord0_state st 4).put F.ledWord0_context 9 4).put F.ledWord0_tenant 6 4).put F.ledWord1_deadline 2050 4).put F.ledWord3_queue 1 4
  let s2 := ((((s1.put F.tenWord1_enable 1 6).put F.tenWord0_balance balance 6).put F.tenWord0_burst 1000 6).put F.tenWord1_pfWeight 8 6).put F.tenWord1_holdMs 1 6
  { s2.put F.ledWord2_head 0xFFFFFFFF 4 with subs := [(4, x)], arrivals := 1 }
/-- It in a bay whose work is over. -/
def done4 : State := led 6 0 { sb with done := some (0, 0), flags := 1 } (sv inf (sx.put F.bayCtl_state 1 0))
theorem test_completion_write : (done4.canonical && done4.ledState 4 == 6 && done4.get F.ledWord0_context 4 == 9 && done4.stepBehind 0 5 &&
  done4.cqRoom 9 && done4.firstInQueue 9 1 0 && !bit (done4.get F.ctxCfg_evtEn 9) 0 &&
  runs (exec (.completionWrite 4) done4) (fun t => t.ledState 4 == 0 && (t.sub 4).isNone && t.get F.ledWord1_deadline 4 == 0 &&
    t.get F.ctxCqp_producer 9 == 1) &&
  (let y := done4.completionOf 4 sb 0 0
   (y.submitId, y.status, y.detail, y.queue, y.tokens, y.ledger) == (0x1234, 0, 0, 1, 0, 4)) : Bool) = true := by decide +kernel

theorem test_deadline_missed : (let s := led 2 0
  s.canonical && s.ledState 4 == 2 && s.get F.ledWord1_deadline 4 == 2050 && !s.boundaryPast 0 2050 &&
    runs (exec (.deadlineMissed 4) s) (fun t => t.ledState 4 == 2) &&
  (let u := s.put F.ledWord1_deadline 2000 4
   u.boundaryPast 0 2000 && runs (exec (.deadlineMissed 4) u) (fun t => t.ledState 4 == 6 && (t.sub 4).map (fun x => x.done) == some (some (5, 0)) &&
     t.get F.ledWord2_pages 4 == 0 && t.get F.ledWord2_head 4 == 0xFFFFFFFF)) : Bool) = true := by decide +kernel

theorem test_budget_held : (let s := { led 1 79 with now := 1001001 }
  s.canonical && s.ledState 4 == 1 && s.heldLong 4 1000 && !s.admits 4 sb && runs (exec (.budgetHeld 4) s) (fun t => t.ledState 4 == 6 &&
    (t.sub 4).map (fun x => x.done) == some (some (3, 0))) &&
  runs (exec (.budgetHeld 4) { s with now := 1001000 }) (fun t => t.ledState 4 == 1) &&
    runs (exec (.budgetHeld 4) (s.put F.tenWord0_balance 80 6)) (fun t => t.ledState 4 == 1) : Bool) = true := by decide +kernel

/-- What the placing statement supposes of bay 0. -/
def placeOk (s : State) (x : Sub := sb) : Bool :=
  s.canonical && s.leadRuns && !s.heldDown 80 1 && s.get F.bayCtl_state 0 == 1 && s.bayStopped 0 && s.tilers.isEmpty && s.nextSub 0 == some (4, x)
theorem test_submission_place_waits : (placeOk (led 1 79) && !(led 1 79).admits 4 sb &&
  runs (exec (.submissionPlace 0) (led 1 79)) (fun t => t == led 1 79) : Bool) = true := by decide +kernel

theorem test_submission_place : (let s := led 1 80
  placeOk s && s.admits 4 sb && s.terraceFor (s.terraceTable 9) [50, 20, 0, 0] == some 0 &&
    runs (exec (.submissionPlace 0) s) (fun t => t.ledState 4 == 2 && t.balance 6 == 0 && t.get F.tenWord3_charged 6 == 80 &&
    t.get F.tenWord2_admitted 6 == 1 && t.tier == s.tier &&
    (t.sub 4).map (fun x => x.placed) == some (some 5000) &&
      t.tilers.map (fun e => (e.1, e.2.entry, e.2.start, e.2.ctx, e.2.counts.length)) == [(0, 4, 0x100, 9, 16)] &&
      t.get F.tidSched_stepFrames 0 == 4 && t.get F.shlTileStat_placed 0 == 1) : Bool) = true := by decide +kernel

theorem test_submission_place_load : (let s := led 1 80 { sb with op := 1 }
  placeOk s { sb with op := 1 } && runs (exec (.submissionPlace 0) s) (fun t => t.ledState 4 == 2 && t.cores == s.cores && t.tilers.isEmpty &&
    t.balance 6 == 0) : Bool) = true := by decide +kernel

/-- Entry 4 QUEUED or in DECODE with the one page 0, whose record says that it was found poisoned. -/
def poisonedPage (st : Nat) : State :=
  let s := led st 80
  { (s.put F.ledWord2_pages 1 4).put F.ledWord2_head 0 4 with tier := Bytes.write 0 s.tier 5 [2] }
theorem test_submission_place_poisoned : (let s := poisonedPage 1
  placeOk s && s.pagesPoisoned 4 && runs (exec (.submissionPlace 0) s) (fun t => t.ledState 4 == 6 && (t.sub 4).map (fun x => x.done) == some (some (1, 0)) &&
    t.balance 6 == 80 && t.tilers.isEmpty && t.tier == s.tier) : Bool) = true := by decide +kernel

theorem test_submission_place_over : (let x := { sb with shape := [64, 33, 0, 0] }
  let s := led 1 80 x
  placeOk s x && !s.pagesPoisoned 4 && (s.terraceFor (s.terraceTable 9) x.shape).isNone &&
    runs (exec (.submissionPlace 0) s) (fun t => t.ledState 4 == 6 && (t.sub 4).map (fun y => y.done) == some (some (2, 1)) && t.balance 6 == 80 &&
    t.tilers.isEmpty) : Bool) = true := by decide +kernel

/-- The tiler of bay 0, its FILLs complete. -/
def tl : Tiler := ⟨4, 0x100, 9, []⟩
def ty : State := { led 2 0 with tilers := [(0, tl)] }
theorem test_tiler_start : (ty.canonical && ty.fwPush.isEmpty && !ty.railHeld && ty.countsReached tl.counts &&
  !(ty.bayCores 0).any (fun k => (ty.core (ty.phys k)).flag F.ldgEngStat_timeout) && (ty.core 15).flag F.corCtl_stopped &&
  !(ty.core 15).flag F.corCtl_faulted &&
  runs (exec (.tilerStart 0) ty) (fun t => t.tilers.isEmpty && [0, 15].all (fun k => !(t.core k).flag F.corCtl_stopped &&
    (t.core k).get F.corCtl_entry == 0x100 && (t.core k).get F.corCtl_ctx == 9 && (t.core k).iss.off == 0x100 && (t.core k).iss.running) &&
    t.core 16 == ty.core 16 && t.core 17 == ty.core 17) : Bool) = true := by decide +kernel

theorem test_tiler_timeout : (let s := ty.modCore 3 (fun c => c.put F.ldgEngStat_timeout 1)
  s.canonical && runs (exec (.tilerStart 0) s) (fun t => t.tilers.isEmpty && t.cores == s.cores) : Bool) = true := by decide +kernel

theorem test_decode_batch : (let s := led 4 0
  s.canonical && s.decoding 0 == [(4, sb)] && s.balance 6 == 0 && s.pagesReady 4 0 && sb.mayGenerate && runs (exec (.decodeBatch 0) s) (fun t => t.balance 6 == -256 &&
    t.get F.ledWord3_generated 4 == 1 && t.ledState 4 == 4 && (t.sub 4).map (fun x => x.tokens) == some 4) &&
  (let u := led 4 (2 ^ 32 - 1)
   u.balance 6 == -1 && runs (exec (.decodeBatch 0) u) (fun t => t.balance 6 == -1 && t.get F.tenWord2_held 6 == 1 &&
     (t.sub 4).map (fun x => (x.tokens, x.leftOut)) == some (3, some 5000))) : Bool) = true := by decide +kernel

theorem test_decode_poisoned : (let s := poisonedPage 4
  s.canonical && s.decoding 0 == [(4, sb)] && s.pagesPoisoned 4 && sb.mayGenerate && runs (exec (.decodeBatch 0) s) (fun t => t.ledState 4 == 6 &&
    (t.sub 4).map (fun x => (x.done, x.tokens)) == some (some (1, 0), 3) && t.balance 6 == 80) : Bool) = true := by decide +kernel

theorem test_role_change : (let s := (sx.put F.bayDrain_done 1 0).put F.bayRole_epoch 65535 0
  s.canonical && s.leadRuns && !s.roleWork 0 && s.bayStopped 0 && !s.armed 0 && s.flag F.bayDrain_done 0 &&
    runs (exec (.roleChange 0 3) s) (fun t => t.get F.bayRole_role 0 == 3 && t.get F.bayRole_epoch 0 == 0 &&
    t.evDue == [⟨18, none, 0, 0x300⟩]) : Bool) = true := by decide +kernel

theorem test_role_change_waits : ((led 2 0).roleWork 0 && (led 2 0).canonical &&
  runs (exec (.roleChange 0 3) (led 2 0)) (fun t => t == led 2 0) : Bool) = true := by decide +kernel

theorem test_bay_drain : (let s := gb 3000 false
  s.canonical && s.takes 1 && !s.flag F.bayDrain_go 0 && !s.bayStopped 0 && runs (exec (.bayDrain 0 1) s) (fun t => t.flag F.bayDrain_go 0 &&
    !t.flag F.bayDrain_done 0 && (t.bay 0).drainAt == some 3000) : Bool) = true := by decide +kernel

theorem test_bay_drain_done : (let s := bs.put F.bayDrain_go 1 0
  s.canonical && s.bayStopped 0 && Sparse.wf (fun _ => BayRun.idle) s.bays && s.flag F.bayDrain_go 0 &&
    (let t := s.settleDrain 0
     !t.flag F.bayDrain_go 0 && t.flag F.bayDrain_done 0 && (t.bay 0).drainAt.isNone) &&
    (let u := (gb 3000 false).put F.bayDrain_go 1 0
     !u.bayStopped 0 && u.settleDrain 0 == u) : Bool) = true := by decide +kernel

/-! Ledgers, bays, contexts and events -/
/-- A write of the lead pilot is turned away with a cause and nothing but PLN_ACCESS_ERR moves. -/
def turned (i : Instr) (s : State) (cause : Nat) : Bool :=
  s.canonical && s.takes 1 && runs (exec i s) (fun t => t.get F.plnAccessErr_cause == cause && t.get F.plnAccessErr_count == 1 &&
    t.get F.plnAccessErr_master == 1 && { t with regs := s.regs, cyc := s.cyc } == s)

/-- A charge of a tenant; a compare-and-set of entry 4. -/
def chg (tenant amount : Nat) : Reg64 := BitVec.ofNat 64 (tenant * 2 ^ 32 + amount)
def cas (want new : Nat) : Reg64 := BitVec.ofNat 64 (4 + want * 2 ^ 16 + new * 2 ^ 20)

/-- What a compare-and-set on the entry in DECODE answers at port 80, with the state it leaves. -/
def casAt4 (want new : Nat) : Nat × Nat × Nat :=
  match exec (.casCmd [(1, 80, cas want new)]) (led 4 80) with
  | .next t => (t.get F.casRes_result 80, t.get F.casRes_found 80, t.ledState 4)
  | _ => (9, 9, 9)
theorem test_charge : (let s := led 4 80
  s.canonical && s.heldWrites.isEmpty && s.takes 1 && s.takes 2 && s.takes 6 && [1, 2, 6].map ledgerPort == [80, 0, 1] &&
  runs (exec (.charge [(1, 80, chg 6 50), (2, 0, chg 6 100), (6, 1, chg 7 5)]) s) (fun t => t.balance 6 == -70 &&
    t.get F.tenWord3_charged 6 == 150 && t.balance 7 == -5 && t.balance 8 == 0 &&
    t.get F.tenWord0_burst 6 == 1000) : Bool) = true := by decide +kernel

theorem test_charge_saturates : (let s := led 4 0x80000010
  s.canonical && s.balance 6 == -(2 ^ 31) + 16 && runs (exec (.charge [(1, 80, chg 6 17)]) s) (fun t => t.balance 6 == -(2 ^ 31) &&
    t.get F.tenWord3_charged 6 == 17) : Bool) = true := by decide +kernel

theorem test_tenant_refill : (let s := { (led 4 980).put F.tenWord1_rate 30 6 with now := 1048582 }
  s.canonical && s.get F.ledCfg_refillLog2 == 20 && runs (exec (.tenantRefill 6) s) (fun t => t.balance 6 == 1000) &&
    runs (exec (.tenantRefill 6) { s with now := 1048583 }) (fun t => t.balance 6 == 980) &&
  runs (exec (.tenantRefill 6) (s.put F.tenWord0_balance 2000 6)) (fun t => t.balance 6 == 2000) : Bool) = true := by decide +kernel

theorem test_cas : ((led 4 80).canonical && (led 4 80).takes 1 && casAt4 4 5 == (1, 4, 5) && casAt4 2 3 == (2, 4, 4) && casAt4 4 2 == (3, 4, 4) &&
  casAt4 4 6 == (1, 4, 6) : Bool) = true := by decide +kernel

theorem test_cas_to_free : (let s := led 6 80
  s.canonical && runs (exec (.casCmd [(1, 80, cas 6 0)]) s) (fun t => t.ledState 4 == 0 && t.reg (F.ledWord0_state.addr 4) == 0 &&
    t.reg (F.ledWord1_deadline.addr 4) == 0 && t.reg (F.ledWord2_head.addr 4) == 0 && t.reg (F.ledWord3_queue.addr 4) == 0 &&
    (t.sub 4).isNone) : Bool) = true := by decide +kernel

theorem test_cas_two_ports : (let s := led 4 80
  s.takes 0 && ledgerPort 0 == 82 && runs (exec (.casCmd [(0, 82, cas 4 5), (1, 80, cas 4 5)]) s) (fun t => t.get F.casRes_result 80 == 1 &&
    t.get F.casRes_found 80 == 4 && t.get F.casRes_result 82 == 2 && t.get F.casRes_found 82 == 5 &&
    t.ledState 4 == 5) : Bool) = true := by decide +kernel

/-- A walk of one block of 64 tokens at 0x4000 in scope 3 goes on; its bucket names a node. -/
def wk (first : Nat) : State :=
  let s := ((((sx.put F.ledWalkCmd_go 1).put F.ledWalkCmd_scope 3).put F.ledWalkCmd_tokens 0x100).put F.ledWalkCfg_bucketBase 0x10).put F.ledWalkCfg_nodeBase 0x20
  let s1 := { s with tier := Bytes.write 0 [] 0x4000 [1, 2, 3, 4, 5] }
  let h := blockHash (Nat.xor 0xcbf29ce484222325 3) (s1.tierRead 0x4000 256)
  { s1 with tier := Bytes.write 0 (Bytes.write 0 s1.tier (s1.bucketAddr h) (natBytes 4 first)) (0x20000 + 64 * 5) (recBytes [(h, 8), (0xFFFFFFFF, 4), (0xFFFFFFFF, 4), (0, 4), (3, 2), (1, 1)]) }
theorem test_prefix_walk : (!sx.flag F.ledWalkCmd_go && sx.takes 1 && sx.canonical &&
  runs (exec (.prefixWalk 1 (BitVec.ofNat 64 (7 * 2 ^ 48 + 3 * 2 ^ 38 + 0x100 * 64))) sx) (fun t => t.flag F.ledWalkCmd_go &&
  t.get F.ledWalkCmd_blocks == 7 && t.get F.ledWalkCmd_scope == 3 && t.get F.ledWalkCmd_tokens == 0x100) : Bool) = true := by decide +kernel

theorem test_prefix_walk_end : ((wk 5).canonical && !(wk 5).flag F.ledWalkCfg_verify && (wk 5).get F.ledWalkCmd_blocks == 0 &&
  runs (exec .prefixWalkEnd (wk 5)) (fun t => !t.flag F.ledWalkCmd_go && t.flag F.ledWalkRes_done && t.get F.ledWalkRes_matched == 1 &&
  t.get F.ledWalkRes_node == 5) : Bool) = true := by decide +kernel

theorem test_prefix_walk_miss : ((wk 0xFFFFFFFF).canonical && (wk 0xFFFFFFFF).searchChain 64 0xFFFFFFFF 7 0xFFFFFFFF 3 == .miss &&
  (let s := { wk 5 with tierPoison := [0x100] }
   s.canonical && s.tierBad 0x4000 256 && runs (exec .prefixWalkEnd s) (fun t => t.flag F.ledWalkRes_err &&
     t.flag F.ledWalkRes_done)) : Bool) = true := by decide +kernel

theorem test_prefix_hash : (hashStep 0xcbf29ce484222325 0 == 0xaf63bd4c8601b7df : Bool) = true := by decide +kernel

/-- Window 5 is open for the drift engine, which has so much credit, and the record at 64 has one flit and stamp 9. -/
def rd (credit : Nat) : State :=
  let s := (((wo.put F.hbrWinCfg_sendCore 2047 5).put F.hbrDriftCfg_base 4).put F.hbrDriftCfg_sizeLog2 12)
  ({ s with tier := Bytes.write 0 [] 0x404C [9, 0, 1, 0] } : State).setDriftCredit 5 1 credit
theorem test_redrive : ((rd 2).canonical && (rd 2).takes 1 && !(rd 2).redriveBad 5 64 && (rd 2).redriveNeeds 5 64 == 2 &&
  !(rd 2).flag F.hbrRedrive_go &&
  runs (exec (.hbrRedrive 1 5 64) (rd 2)) (fun t => t.redrive.isNone && t.flag F.hbrRedrive_go && t.flits.length == 1 && t.redriveLeft == t && !{ t with flits := [] }.redriveLeft.flag F.hbrRedrive_go &&
    t.conss.map (fun q => (q.win, q.elastic, q.srcCore, q.dstPos, q.flits, q.w.stamp)) == [(5, true, 2047, 0, some 1, 9)]) &&
  runs (exec (.hbrRedrive 1 5 64) (rd 1)) (fun t => t.redrive == some 64 && t.flag F.hbrRedrive_go &&
    t.flits.isEmpty) : Bool) = true := by decide +kernel

theorem test_redrive_bad : ((rd 2).redriveBad 5 0 && (rd 2).redriveBad 6 64 &&
  runs (exec (.hbrRedrive 1 5 0) (rd 2)) (fun t => t.flag F.hbrRedrive_err && !t.flag F.hbrRedrive_go &&
  t.conss.isEmpty) : Bool) = true := by decide +kernel

/-- A plain whose bay 0 has its carve-outs and shoals locked. -/
def locked : State := { sx.put F.bayShoalsLo_shoalsLo 1 0 with locked := carveAddrs 0 }
theorem test_bay_carve : (let v : Reg64 := BitVec.ofNat 64 (2 + 5 * 2 ^ 32)
  sx.canonical && sx.takes 1 && !sx.isLocked 0x18000 && sx.carveValid 0 0 v &&
    runs (exec (.bayCarveWrite 0 0 1 v) sx) (fun t => t.reg 0x18000 == v && t.isLocked 0x18000 &&
    t.cores == sx.cores) : Bool) = true := by decide +kernel

theorem test_bay_carve_shoals : (sx.carveValid 0 3 3 && !sx.carveValid 0 3 4 && !sx.isLocked 0x18018 &&
  runs (exec (.bayCarveWrite 0 3 1 3) sx) (fun t => t.reg 0x18018 == 3 && t.isLocked 0x18018) &&
  turned (.bayCarveWrite 0 3 1 4) sx 9 : Bool) = true := by decide +kernel

theorem test_bay_carve_order : (!sx.carveValid 0 0 (BitVec.ofNat 64 (5 + 2 * 2 ^ 32)) &&
  turned (.bayCarveWrite 0 0 1 (BitVec.ofNat 64 (5 + 2 * 2 ^ 32))) sx 9 : Bool) = true := by decide +kernel

theorem test_bay_create : (locked.canonical && locked.takes 1 && locked.mayCreate 0 && !locked.flag F.bayCtl_createGo 0 &&
  runs (exec (.createGo 0 1) locked) (fun t => t.get F.bayCtl_state 0 == 1 && t.locked == locked.locked) : Bool) = true := by decide +kernel

theorem test_bay_create_refused : (!sx.mayCreate 0 && turned (.createGo 0 1) sx 6 : Bool) = true := by decide +kernel

theorem test_bay_retire : (let s := locked.put F.bayCtl_state 1 0
  s.canonical && runs (exec (.retireGo 0 1) s) (fun t => t.get F.bayCtl_state 0 == 2) &&
    turned (.retireGo 0 1) locked 6 : Bool) = true := by decide +kernel

theorem test_bay_wash : (let s := locked.put F.bayCtl_state 1 0
  s.canonical && s.bayStopped 0 && s.spare 0 == some 16 && s.failed.isEmpty && s.bayCores 0 == List.range 16 && (let t := s.washCore 15 (some 15)
    (t.core 15).washEnd == some 2049 && (t.core 14).washEnd.isNone) : Bool) = true := by decide +kernel

theorem test_bay_wash_refused : (!(gb 3000 false).bayStopped 0 && turned (.washGo 0 1) (gb 3000 false) 6 : Bool) = true := by decide +kernel

theorem test_bay_wash_done : (let s := locked.put F.bayCtl_washGo 1 0
  s.canonical && s.bayWashed 0 && s.get F.bayCtl_state 0 == 0 && runs (exec (.bayWashDone 0) s) (fun t => !t.flag F.bayCtl_washGo 0 &&
    t.get F.bayStat_washes 0 == 1 && t.locked == s.locked) : Bool) = true := by decide +kernel

theorem test_bay_empties : (let s := ((locked.put F.bayCtl_washGo 1 0).put F.bayCtl_state 2 0).put F.bayCtl_bayEpoch 65535 0
  s.canonical && s.bayWashed 0 && s.contextCount 0 == 0 && runs (exec (.bayWashDone 0) s) (fun t => t.get F.bayCtl_state 0 == 0 &&
    t.get F.bayCtl_bayEpoch 0 == 0 && t.locked.isEmpty && t.reg 0x18018 == 0 && t.get F.bayStat_washes 0 == 1) : Bool) = true := by decide +kernel

theorem test_dtree_word : (let s := (sx.put F.plnDtreeSel_tree 5).put F.plnDtreeSel_word 2
  s.canonical && !bit (Sparse.get 0 s.dtree 80).toNat 19 && runs (exec (.dtreeWrite 1 0xABC) s) (fun t => t.dtree == [(82, 0xABC)] &&
    t.regs == s.regs) : Bool) = true := by decide +kernel

/-- Context 9 in a state, of bay 0 or of none, with so many references; bay 0 is READY with tenant 6. -/
def cx (st : Nat) (bay : Nat := 127) (host : Nat := 0) (s : State := sx) : State :=
  (((((s.put F.bayCtl_state 1 0).put F.bayCtl_tenant 6 0).put F.bayShoalsLo_shoalsLo 1 0).put F.ctxCfg_state st 9).put F.ctxCfg_bay bay 9).put F.ctxRef_host host 9
theorem test_ctx_open : ((cx 0 0).canonical && (cx 0 0).mayOpenCtx 9 && runs (exec (.ctxOpen 9 1) (cx 0 0)) (fun t => t.get F.ctxCfg_state 9 == 1 &&
  t.get F.ctxRef_host 9 == 1 && t.get F.ctxCfg_tenant 9 == 6 && t.get F.ctxCfg_bay 9 == 0 &&
  t.get F.ctxCfg_state 8 == 0) : Bool) = true := by decide +kernel

theorem test_ctx_open_refused : (!(cx 1).mayOpenCtx 9 && runs (exec (.ctxOpen 9 1) (cx 1)) (fun t => t.get F.ctxCfg_state 9 == 1 &&
  t.get F.ctxRef_host 9 == 0 && t.get F.plnAccessErr_count == 1) : Bool) = true := by decide +kernel

theorem test_ctx_close : ((cx 2 127 4).canonical && runs (exec (.ctxClose 9 1) (cx 2 127 4)) (fun t => t.get F.ctxCfg_state 9 == 3 &&
  t.get F.ctxRef_host 9 == 3) && runs (exec (.ctxClose 9 1) (cx 3 127 4)) (fun t => t.get F.ctxCfg_state 9 == 3 && t.get F.ctxRef_host 9 == 4 &&
  t.get F.plnAccessErr_count == 1) : Bool) = true := by decide +kernel

theorem test_free_ctx : (let t := ((cx 3).put F.ctxCookie_cookie 0x55 9).freeCtx 9
  t.get F.ctxCfg_state 9 == 0 && t.get F.ctxCfg_bay 9 == 127 && t.get F.ctxCookie_cookie 9 == 0 : Bool) = true := by decide +kernel

/-- Context 9 of no bay, and of bay 0, may be freed. -/
theorem test_may_free : ((cx 3).canonical && (cx 3).takes 1 && (cx 3 0).canonical) = true ∧ (cx 3).mayFree 9 = true ∧ (cx 3 0).mayFree 9 = true :=
  ⟨by decide +kernel, State.mayFree_of _ _ (by decide +kernel) (by decide +kernel) (by decide +kernel) (by decide +kernel),
    State.mayFree_of _ _ (by decide +kernel) (by decide +kernel) (by decide +kernel) (by decide +kernel)⟩
theorem test_inc_dec : ((cx 1 127 3).canonical && (cx 1 127 3).takes 1 && (cx 1 127 3).takes 3 && (cx 1 127 3).heldWrites.isEmpty &&
  runs (exec (.inc 9 [1, 3]) (cx 1 127 3)) (fun t => t.get F.ctxRef_host 9 == 5 && t.get F.plnAccessErr_count == 0) &&
  runs (exec (.dec 9 [1, 3]) (cx 1 127 3)) (fun t => t.get F.ctxRef_host 9 == 1 &&
    t.get F.plnAccessErr_count == 0) : Bool) = true := by decide +kernel

theorem test_ctx_lose : (let s := (cx 1).modCore 3 (fun c => (c.put F.corFault_class 4).put F.corFault_tag 0x99)
  s.canonical && s.mayLose 9 3 && s.get F.ctxFault_class 9 == 0 && runs (exec (.plnCtxLose 1 9 3) s) (fun t => t.get F.ctxCfg_state 9 == 2 &&
    t.get F.ctxFault_class 9 == 4 && t.get F.ctxFault_core 9 == 3 && t.get F.ctxFault_tag 9 == 0x99 &&
    t.evDue.map (fun e => (e.kind, e.ctx)) == [(2, some 9)]) : Bool) = true := by decide +kernel

theorem test_ctx_lose_free : ((cx 0).canonical && runs (exec (.plnCtxLose 1 9 3) (cx 0)) (fun t => t.get F.ctxCfg_state 9 == 0 &&
  t.get F.plnAccessErr_count == 1 && t.evDue.isEmpty) : Bool) = true := by decide +kernel

theorem test_lost_complete : (let s := (led 4 80 sb (sv inf (sx.put F.bayCtl_state 1 0))).put F.ctxCfg_state 2 9
  s.canonical && s.leadRuns && s.subs == [(4, sb)] && s.cqRoom 9 && (s.pagesOf 4).isEmpty &&
    runs (exec (.contextLostComplete 9) s) (fun t => t.subs.isEmpty && t.ledState 4 == 0 && t.get F.ctxCqp_producer 9 == 1) &&
  (let y := s.completionOf 4 sb 1 0
   (y.submitId, y.status, y.detail, y.queue, y.ledger) == (0x1234, 1, 0, 1, 4)) : Bool) = true := by decide +kernel

theorem test_teardown_wash : ((cx 3 0).leadRuns && (cx 3 0).teardowns.isEmpty && (cx 3 0).evDue.isEmpty && (cx 3 0).contextCount 0 == 1 &&
  (cx 3 0).bayStopped 0 && !(cx 3 0).flag F.bayCtl_washGo 0 : Bool) = true := by decide +kernel

theorem test_teardown_fill : (let s := (cx 3).modCore 2 (withCove 1 0x5000 0 4 16 · (9 * 2 ^ 48))
  s.canonical && s.live 2 && ((s.core 2).ownedBy 9).length == 1 : Bool) = true := by decide +kernel

/-- The event ring of 16 entries at page 32 with cookie 0x66 and vector 12, enabled or not. -/
def ev (on : Nat) (s : State := sx) : State :=
  { ((((s.put F.plnEvtCfg_enable on).put F.plnEvtCfg_base 32).put F.plnEvtCfg_sizeLog2 4).put F.plnEvtCfg_vector 12).put F.plnEvtCookie_cookie 0x66 with now := 77 }
def e17 : Event := ⟨17, none, 70, 0x1234⟩
theorem test_teardown_done : ({ ev 1 (cx 3 0) with teardowns := [(9, ⟨true, []⟩)] } : State).mayFree 9 = true :=
  State.mayFree_of _ _ (by decide +kernel) (by decide +kernel) (by decide +kernel) (by decide +kernel)
theorem test_teardown_ring : (let s := ev 1 (cx 3 0)
  s.canonical && s.leadRuns && !s.flag F.bayCtl_washGo 0 && s.evRoom && s.evHeld.isEmpty && s.evLost == 0 &&
    (let t := s.postEvent ⟨5, some 9, 77, 128⟩
    t.msix == [0] && t.get F.plnEvtPtr_producer == 1 &&
      t.tierRead 0x20000 32 == recBytes [(0, 8), (5, 2), (1, 1), (0, 1), (9, 2), (0, 2), (77, 8), (128, 8)]) : Bool) = true := by decide +kernel

theorem test_event_raise : (let s := { ev 1 with evDue := [e17] }
  s.canonical && s.leadRuns && s.mayRaise e17 && s.evRoom && runs (exec (.eventRaise e17) s) (fun t => t.evDue.isEmpty && t.msix == [12] &&
    t.get F.plnEvtPtr_producer == 1 && t.get F.plnEvtStat_written == 1 &&
    t.tierRead 0x20000 32 == recBytes [(0x66, 8), (17, 2), (1, 1), (0, 1), (0xFFFF, 2), (12, 2), (70, 8), (0x1234, 8)]) : Bool) = true := by decide +kernel

theorem test_event_held : ((ev 0).canonical && !(ev 0).evRoom && (ev 0).mayRaise e17 &&
  runs (exec (.eventRaise e17) (ev 0)) (fun t => t.evHeld == [e17] && t.get F.plnEvtStat_pending == 1 &&
  t.msix.isEmpty) : Bool) = true := by decide +kernel

theorem test_event_lost : (let s := { ev 0 with evHeld := List.replicate 256 e17 }
  s.canonical && !keptKind 17 && runs (exec (.eventRaise e17) s) (fun t => t.evHeld == s.evHeld && t.evLost == 1 &&
    t.get F.plnEvtStat_lost == 1) : Bool) = true := by decide +kernel

theorem test_pln_msix : (runs (exec (.plnMsix 1 2047) sx) (fun t => t.msix == [2047] && t.get F.plnMsix_vector == 2047) &&
  turned (.plnMsix 1 2048) sx 1 : Bool) = true := by decide +kernel

/-! The image, the store, the debug port, trace and single writes -/
/-- The block before READY, the journal replayed and the levels high, with an image in slot 0 and STATE `st`. -/
def ld (st : Nat) (f : Loader → Loader := id) (image : List Byte := []) : State :=
  let s := (sx.put F.imgStat_state st).put F.imgBoot_compare 0
  { s with loader := f { s.loader with replayed := true }, store := placed erasedByte (slotBase 0) image, sram := [(9, 1)], now := 5000000,
           pins := { s.pins with release := true, railLogic := true, railLedge := true, railStrand := true } }
/-- It with the image's header, so many start actions performed. -/
def la (pos : Nat) (f : Loader → Loader := id) : State := { ld 4 (fun l => f { l with pos := pos, acted := 5000000, tries := 1 }) with header := imgHead 23 2 1 }
theorem test_load_held : (let s := (ld 0).put F.imgCtl_hold 1
  s.canonical && s.mayLoad && s.loader.replayed && runs (exec .imageLoadAttempt s) (fun t => t.get F.imgStat_state == 8 && t.loader.tries == 0 &&
    t.sram == s.sram) : Bool) = true := by decide +kernel

theorem test_load_attempt : (let s := ld 0 id img
  s.canonical && s.storeBad.isEmpty && s.headerFault (s.storeRead (slotBase 0) 128) == none && !s.flag F.imgBoot_compare &&
    s.get F.imgBoot_slot == 0 && (s.walkFrames (.store (slotBase 0)) (imgHead 23 2 9) (fun u _ => (u, none)) 184 2 128).2.isNone &&
  runs (exec .imageLoadAttempt s) (fun t => t.get F.imgStat_state == 4 && t.header == imgHead 23 2 9 && t.loader.tries == 1 &&
    Sparse.get 0 t.sram 8 == 0x77 && Sparse.get 0 t.sram (3 * 2 ^ 32 + 8) == 0x77) : Bool) = true := by decide +kernel

theorem test_load_bad_header : (let s := (ld 2 (fun l => { l with tries := 1 })).put F.imgBoot_slot 0
  s.canonical && s.loader.slotOf 1 == 1 && s.headerFault (s.storeRead (slotBase 1) 128) == some (1, 0) &&
    runs (exec .imageLoadAttempt s) (fun t => t.get F.imgFail_cause1 == 1 && t.get F.imgFail_word1 == 0x1800000 && t.header.isEmpty &&
    t.sram.isEmpty && t.loader.tries == 2 && t.get F.imgStat_attempts == 1 && t.get F.imgStat_state == 7) : Bool) = true := by decide +kernel

theorem test_header_checks : ([(imgHead 23 2 9).set 0 0, (imgHead 23 2 9).set 2 2, (imgHead 23 2 9).set 4 0xFF, (imgHead 23 2 9).set 11 48, (imgHead 23 2 9).set 26 1, (imgHead 23 2 9).set 29 1].map (fun h => s0.headerFault h) ==
  [some (1, 0), some (1, 2), some (2, 4), some (4, 11), some (4, 26), some (4, 28)] : Bool) = true := by decide +kernel

theorem test_load_abandon : (let s := ld 4
  s.canonical && runs (exec (.loadAbandon true false true true) s) (fun t => t.get F.imgStat_state == 0 && t.loader.tries == 0 &&
    !t.loader.replayed && t.header.isEmpty && t.sram.isEmpty && !t.pins.railLogic) &&
  runs (exec (.loadAbandon true true true true) s) (fun t => t.get F.imgStat_state == 4 && t.sram == s.sram) : Bool) = true := by decide +kernel

theorem test_load_abandon_ready : (let s := core0 (fun c => { c.put F.corCtl_stopped 0 with iss := { c.iss with running := true } }) ((ld 0).put F.imgStat_state 6)
  s.canonical && s.get F.imgStat_state == 6 && runs (exec (.loadAbandon true false true true) s) (fun t => t.railHeld && t.evDue == [⟨20, none, 5000000, 1⟩] &&
    t.get F.imgStat_state == 6 && t.sram == s.sram && !(t.core 0).iss.running && (t.core 0).iss.stopping) &&
  runs (exec (.loadAbandon false true true true) s) (fun t => !t.pins.release && t.evDue.isEmpty && t.cores == s.cores) : Bool) = true := by decide +kernel

theorem test_load_retry : (let s := ld 7 (fun l => { l with tries := 2, since := 1000000 })
  s.canonical && runs (exec .loadRetry { s with now := 11000000 }) (fun t => t.get F.imgStat_state == 2 && t.loader.tries == 0) &&
    runs (exec .loadRetry { s with now := 10999999 }) (fun t => t.get F.imgStat_state == 7 && t.loader.tries == 2) &&
  runs (exec .loadRetry (s.put F.imgCtl_go 1)) (fun t => t.get F.imgStat_state == 2 && !t.flag F.imgCtl_go) : Bool) = true := by decide +kernel

theorem test_start_action : ((la 0).canonical && (la 0).delayOver && (la 0).mayLoad &&
  [0, 1, 2, 3].map (fun k => (la k).nextAction) == [1, 2, 3, 4] && runs (exec .startAction (la 0)) (fun t => t.loader.pos == 1 &&
  t.flag F.tidStat_locked && t.loader.acted == 5000000 && t.get F.imgStat_state == 4) &&
  runs (exec .startAction (la 1)) (fun t => t.loader.pos == 2 && t.loader.outputs) && runs (exec .startAction (la 2)) (fun t => t.loader.pos == 3 &&
    !t.loader.outputs) : Bool) = true := by decide +kernel

theorem test_lock_timeout : (let s := { la 0 with now := 15000000 }
  s.canonical && s.nextAction == 1 && s.loader.first == 0 && decide (s.loader.acted + 10000000 ≤ s.now) &&
    runs (exec .lockTimeout { s with now := 14999999 }) (fun t => t.get F.imgStat_state == 4) : Bool) = true := by decide +kernel

/-- Measurements: rails, stacks and links. -/
def mz : Measure := ⟨7000, 6900, 6500, 6400, 7500, 7100, 15, 3, 600, 400⟩
theorem test_load_finish : (let s := la 4
  s.canonical && s.delayOver && s.mayLoad && s.failed.isEmpty && runs (exec (.loadFinish mz) s) (fun t => t.get F.imgStat_state == 6 &&
    t.get F.plnGeom2_shoalMaskLo == 1 && t.get F.plnId_geomCode == 1 && t.get F.plnGeom5_straits == 48 && t.get F.tidGovCfg_budget == 1024000 &&
    t.get F.tidGovCfg_floor == 512000 && t.usable 0 && !t.usable 1 && t.get F.plnGeom7_nearGib == 256 && t.get F.plnGeom7_farGib == 800 &&
      t.get F.imgMeasRail_out == 4 && t.get F.imgMeasRail_logicLoad == 690 && (t.core 0).flag F.corCtl_stopped) : Bool) = true := by decide +kernel

/-- PUSH of a value to a register, with so many appends queued; the journal's area 0 with these records. -/
def jq (addr n : Nat) : State := { (sx.put F.imgJrnlAddr_addr (addr / 8)).put F.imgJrnlVal_value 0x55 with appends := List.replicate n (0x7008, 1) }
def ja (l : List (Nat × Reg64)) (appends : List (Nat × Reg64) := []) : State :=
  let s := sx.put F.imgJrnlStat_used l.length
  { s with store := placed erasedByte (areaBase 0) (areaHeader 7 ++ l.flatMap (fun e => recordBytes e.1 e.2)), journalGen := some 7, appends := appends,
           loader := { s.loader with replayed := true } }
theorem test_push_journal : ((jq 0x7008 3).canonical && (jq 0x7008 3).takes 1 && isJournalled 0x7008 &&
  runs (exec (.push 1) (jq 0x7008 3)) (fun t => t.appends.length == 4 && t.appends.getLast? == some (0x7008, 0x55) && !t.flag F.imgJrnlCmd_push) &&
  runs (exec (.push 1) (jq 0x7008 16)) (fun t => t.appends.length == 16 && t.flag F.imgJrnlCmd_push) && !isJournalled 0x7010 &&
    runs (exec (.push 1) (jq 0x7010 3)) (fun t => t.appends.length == 3 && t.flag F.imgJrnlStat_err &&
    !t.flag F.imgJrnlCmd_push) : Bool) = true := by decide +kernel

theorem test_journal_append : (let s := ja [(0x7008, 1)] [(0x70A0, 0x55)]
  s.canonical && s.activeArea == some 0 && runs (exec .journalAppend s) (fun t => t.appends.isEmpty &&
    t.records 0 9 0 == [.holds 0x7008 1, .holds 0x70A0 0x55] && t.get F.imgJrnlStat_used == 2) : Bool) = true := by decide +kernel

theorem test_journal_full : (let s := (ja [] [(0x70A0, 0x55)]).put F.imgJrnlStat_used 65532
  s.canonical && runs (exec .journalAppend s) (fun t => t.appends.isEmpty && t.flag F.imgJrnlStat_full &&
    t.store == s.store) : Bool) = true := by decide +kernel

theorem test_compact : (let s := ja [(0x7008, 1), (0x70A0, 2), (0x7008, 3)]
  s.canonical && s.takes 1 && !s.flag F.imgJrnlCmd_push && !s.flag F.imgJrnlCmd_compact && s.get F.imgJrnlStat_area == 0 &&
    runs (exec (.compact 1) s) (fun t => t.records 1 9 0 == [.holds 0x70A0 2, .holds 0x7008 3] && t.areaGen 1 == 8 &&
    t.get F.imgJrnlStat_used == 2 && t.get F.imgJrnlStat_area == 1) : Bool) = true := by decide +kernel

theorem test_record_torn : (let s := { ja [(0x7008, 1)] [] with store := Bytes.write erasedByte [] (recordAt 0 0) (recordBytes 0x7009 5) }
  s.readRecord (recordAt 0 0) == .torn && s.readRecord (recordAt 0 1) == .ends : Bool) = true := by decide +kernel

/-- A reconfiguration of shoal 0 from near tier at 0x8000; its image is that of `img`. -/
def pg : State := { (ld 6).put F.imgPrAddr_addr 0x200 with tier := placed 0 0x8000 img, header := imgHead 23 2 9 }
def pe : State := { pg.put F.imgPrStat_busy 1 with pr := some ⟨0, 2, 0x8000⟩ }
theorem test_pr_go : (let v : Reg64 := BitVec.ofNat 64 (2 * 2 ^ 61)
  pg.canonical && pg.takes 1 && !pg.flag F.imgPrCfg_go && pg.mayPr 0 && runs (exec (.prGo 1 v) pg) (fun t => t.pr == some ⟨0, 2, 0x8000⟩ &&
    t.flag F.imgPrStat_busy && t.cores == pg.cores && !t.live 3) &&
  (let u := pg.modCore 3 (fun c => c.put F.corCtl_stopped 0)
   !u.mayPr 0 && runs (exec (.prGo 1 v) u) (fun t => t.pr.isNone && t.flag F.imgPrStat_err && t.get F.imgPrStat_errCode == 1 &&
     t.get F.plnAccessErr_count == 1)) : Bool) = true := by decide +kernel

theorem test_pr_end : (pe.canonical && !pe.imageFails (.tier 0x8000) 0 128 && pe.headerFault img == none && pe.storeBad.isEmpty &&
  pe.tierPoison.isEmpty && pe.failed.isEmpty &&
  (pe.walkFrames (.tier 0x8000) (imgHead 23 2 9) (fun u _ => (u, none)) 184 2 128).2.isNone : Bool) = true := by decide +kernel

theorem test_pr_end_fails : (let s := { pe with tierPoison := [0x201] }
  s.canonical && s.imageFails (.tier 0x8000) 0 128 && (s.applyPr ⟨0, 2, 0x8000⟩).2 == 4 && (let u := { pe with tier := [] }
   u.headerFault (u.imageBytes (.tier 0x8000) 0 128) == some (1, 0) && (u.applyPr ⟨0, 2, 0x8000⟩).2 == 2) : Bool) = true := by decide +kernel

/-- A command of XFER from an idle port ends with a STATUS and counts. -/
def xf (i : Instr) (status : Nat) (f : State → Bool) (s : State := ms) : Bool :=
  s.canonical && s.dbg.busy.isNone && runs (exec i s) (fun t => t.dbg.busy.isNone && t.dbg.status == status &&
    t.dbg.commands == s.dbg.commands + 1 && f t)

/-- Bay 0's tier with 1, 2 at 512. -/
def td : State := { gs.put F.plnGeom7_nearGib 256 with tier := Bytes.write 0 [] 512 [1, 2] }
/-- A loader that is HELD. -/
def sh : State := (ld 8 id [0x59, 0x4E, 1]).put F.imgStat_slot 0
/-- The governor admits the debug port's access; a word at 0x1000. -/
def xb : State := core0 (fun c => { c with basin := Bytes.write 0 c.basin 0x1000 [9, 0, 0, 0, 8] }) gs
theorem test_xfer_nop : (xf (.xferNop 0 0 0) 0 (fun t => t.cores == ms.cores && t.regs == ms.regs) : Bool) = true := by decide +kernel

theorem test_xfer_csr_read : (let s := sx.put F.ctxCookie_cookie 0x55 9
  decide (F.ctxCookie_cookie.addr 9 % 8 = 0) && s.placeOf (F.ctxCookie_cookie.addr 9) != .hole && s.heldWrites.isEmpty &&
    xf (.xferCsrRead 0 (F.ctxCookie_cookie.addr 9) 0) 0 (fun t => t.dbg.data == 0x55 && t.regs == s.regs) s : Bool) = true := by decide +kernel

theorem test_xfer_csr_misaligned : (xf (.xferCsrRead 0 0x101 0) 2 (fun t => t.get F.plnAccessErr_cause == 3 &&
  t.get F.plnAccessErr_addr == 0x101) : Bool) = true := by decide +kernel

theorem test_xfer_csr_write : (!ms.washHolds (F.ctxCookie_cookie.addr 9) &&
  xf (.xferCsrWrite 0 (F.ctxCookie_cookie.addr 9) 0x55) 0 (fun t => t.get F.ctxCookie_cookie 9 == 0x55) : Bool) = true := by decide +kernel

theorem test_xfer_basin_read : (xb.usable 0 && (xb.core 0).washEnd.isNone && xb.govAdmits 0 4 && !(xb.core 0).poisoned 0x1000 &&
  ((xb.core 0).errorsIn 0x1000).isEmpty && xf (.xferBasinRead 0 0x1003 0) 0 (fun t => t.dbg.data == 0x800000009 &&
  !t.dbg.poison) xb : Bool) = true := by decide +kernel

theorem test_xfer_basin_write : (!(xb.core 0).folded 0x1000 &&
  xf (.xferBasinWrite 0 0x1001 0x0102030405060708) 0 (fun t => (t.core 0).peek 0x1000 8 == [8, 7, 6, 5, 4, 3, 2, 1] &&
  (t.core 0).peek 0x1008 1 == [0] && t.core 1 == xb.core 1) xb : Bool) = true := by decide +kernel

theorem test_xfer_poison_write : (xf (.xferPoisonWrite 0 0x1003 1) 0 (fun t => (t.core 0).poisoned 0x1000 &&
  (t.core 0).basin == (xb.core 0).basin) xb : Bool) = true := by decide +kernel

theorem test_xfer_no_core : (xf (.xferBasinRead 1280 0x1000 0) 2 (fun t => t.cores == ms.cores) : Bool) = true := by decide +kernel

theorem test_xfer_tier : (td.tierExists 512 8 && xf (.xferTierRead 0 513 0) 0 (fun t => t.dbg.data == 0x201 && !t.dbg.poison &&
  t.tier == td.tier) td && xf (.xferTierWrite 0 514 0x77) 0 (fun t => t.tierRead 512 9 == [0x77, 0, 0, 0, 0, 0, 0, 0, 0]) td : Bool) = true := by decide +kernel

theorem test_xfer_tier_poison : (let s := { td with tierPoison := [8] }
  s.tierBad 512 8 && xf (.xferTierRead 0 513 0) 2 (fun t => t.dbg.poison) s : Bool) = true := by decide +kernel

theorem test_xfer_store : (sh.loaderHeld && !sh.storeFails 0 8 && xf (.xferStoreRead 0 3 0) 0 (fun t => t.dbg.data == 0xFFFFFFFFFF014E59) sh &&
  xf (.xferStoreWrite 0 0x1002 0x77) 0 (fun t => t.storeRead 0x1000 9 == [0x77, 0, 0, 0, 0, 0, 0, 0, 0xFF]) sh &&
    xf (.xferStoreErase 0 0x1002 0) 0 (fun t => t.fresh == 1) sh : Bool) = true := by decide +kernel

theorem test_xfer_store_closed : (!ms.loaderHeld && xf (.xferStoreWrite 0 0x1002 0x77) 2 (fun t => t.store == ms.store) &&
  xf (.xferStoreErase 0 0x1002 0) 2 (fun t => t.store == ms.store) : Bool) = true := by decide +kernel

theorem test_xfer_table : (let s := core0 (fun c => { c.put F.corStrandSel_word 3 with strand := [(7, 0x55)] }) ms
  !bit s.constBlocks 0 && xf (.xferTableRead 0 (2 ^ 36 + 7) 0) 0 (fun t => t.dbg.data == 0x55 && t.cores == s.cores) s &&
  xf (.xferTableWrite 0 (2 ^ 36 + 7) 0x66) 0 (fun t => (t.core 0).strand == [(7, 0x66)] && (t.core 0).get F.corStrandSel_word == 3) s &&
    xf (.xferTableRead 0 (9 * 2 ^ 36) 0) 2 (fun t => t.cores == s.cores) s : Bool) = true := by decide +kernel

theorem test_xfer_dropped : (let s := { core0 (fun c => { c with washEnd := some 2049 }) gs with dbg := { gs.dbg with busy := some ⟨3, 0, 0, 0⟩ } }
  s.canonical && s.xferWaits ⟨3, 0, 0, 0⟩ && runs (exec (.xferNop 0 0 0) s) (fun t => t.dbg == { s.dbg with dropped := true }) &&
  runs (exec .dstatCapture { s with dbg := { s.dbg with dropped := true } }) (fun t => !t.dbg.dropped &&
    t.dbg.dstat == 0xC0000000) : Bool) = true := by decide +kernel

/-- A trace record of core 0 of kind 3; core 0, whose last word has tag 9, traces it, with so many records buffered, and ENABLE. -/
def tz : TraceRec := ⟨77, 0, 3, 4, 9, 8, 0x55⟩
def tb (sel n on : Nat) : State :=
  (core0 (fun c => { (c.put F.dbgTraceSel_events sel).put F.corTagNow_tag 9 with traceBuf := List.replicate n tz }) (((gs.put F.dbgTraceCfg_enable on).put F.dbgTraceCfg_base 2).put F.dbgTraceCfg_sizeLog2 12))
theorem test_trace_record : ((tb 8 15 0).canonical && runs (exec (.traceRecord tz) (tb 8 15 0)) (fun t => (t.core 0).traceBuf.length == 16 &&
  t.get F.dbgTraceStat_lost == 0) && runs (exec (.traceRecord tz) (tb 8 16 0)) (fun t => (t.core 0).traceBuf.length == 16 &&
  t.get F.dbgTraceStat_lost == 1) &&
  runs (exec (.traceRecord tz) (tb 4 15 0)) (fun t => (t.core 0).traceBuf.length == 15) : Bool) = true := by decide +kernel

theorem test_trace_ring : ((tb 8 0 1).canonical && runs (exec (.traceRecord tz) (tb 8 0 1)) (fun t => (t.core 0).traceBuf.isEmpty &&
  t.get F.dbgTracePtr_write == 32 && t.get F.dbgTraceStat_written == 1 &&
  t.tierRead 0x2000 32 == recBytes [(77, 8), (0, 2), (3, 1), (4, 1), (9, 3), (0, 1), (8, 8), (0x55, 8)]) : Bool) = true := by decide +kernel

theorem test_prt_enable : (let v : Reg64 := BitVec.ofNat 64 (3 * 2 ^ 62 + 0x1234)
  let s := { sx with prtGen := [(1, 2)] }
  s.canonical && s.takes 1 && !s.flag F.prtCtl_enable && runs (exec (.prtEnable 1 v) s) (fun t => t.flag F.prtCtl_enable &&
    t.flag F.prtCtl_spareReplay && t.get F.prtCtl_seed == 0x1234 && t.prtGen.isEmpty) : Bool) = true := by decide +kernel

theorem test_write_in_reset : (let s := { sx with inReset := true }
  s.canonical && runs (exec (.registerWrite [{ id := 1, addr := F.ctxCookie_cookie.addr 9, beats := [5] }]) s) (fun t => t.responses.isEmpty &&
    { t with responses := s.responses } == s) : Bool) = true := by decide +kernel

theorem test_write_before_ready : (let s := sx.put F.imgStat_state 0
  s.canonical && s.heldWrites.isEmpty && !s.washHolds (F.ctxCookie_cookie.addr 9) &&
    runs (exec (.registerWrite [{ id := 1, addr := F.ctxCookie_cookie.addr 9, beats := [5] }]) s) (fun t => t.get F.ctxCookie_cookie 9 == 0 &&
    t.get F.plnAccessErr_count == 1) : Bool) = true := by decide +kernel

theorem test_register_write : (sx.heldWrites.isEmpty &&
  runs (exec (.registerWrite [{ id := 1, addr := F.ctxCookie_cookie.addr 9, beats := [5] }]) sx) (fun t => t.get F.ctxCookie_cookie 9 == 5 &&
  t.responses == [.okay]) &&
  runs (exec (.registerWrite [{ id := 1, addr := F.ctxCookie_cookie.addr 9, beats := [5] }, { id := 0, addr := F.ctxCookie_cookie.addr 9, beats := [6] }]) sx) (fun t => t.get F.ctxCookie_cookie 9 == 6 &&
    t.get F.plnCollide_count == 1 && t.get F.plnCollide_loser == 1 && t.get F.plnCollide_winner == 0 &&
    t.get F.plnCollide_addr == F.ctxCookie_cookie.addr 9) : Bool) = true := by decide +kernel

/-! Well-formed commands -/
def ta : TierArgs := ⟨opnd 0x100 1 1, none, 0⟩
def mv : MoveArgs := ⟨0, opnd 0x100 1 1, none⟩
/-- Every one of these names a unit that does not exist. -/
def allIll (l : List Instr) : Bool := l.all (fun i => !wellFormed i)
theorem test_ill_formed_core_1 : (allIll [.islandLost 1280,
    .bankArbitration 1280 [], .basinBankCycle 1280 [], .basinReadData 1280, .chunkRepair 1280 0, .chunkRepairDone 1280 0, .ldgEngPush 1280 0,
    .nop 1280, .fill 1280, .copy 1280, .accOpen 1280, .accClose 1280, .ledgeCmdComplete 1280,
    .ledgeCmdTimeout 1280, .fold 1280, .unfold 1280, .sweepRow 1360 [], .sweepSteal 1360 [], .washStart 1280 0,
    .washDone 1280, .coveEnable 1280 0 0 0, .coveDisable 1280 0 0, .relGo 1280 0 0 0 0, .tagWrite 1280 0 0, .peakClr 1280 0 0,
    .releaseApply 1280, .grantReceive 1280 0 0 0 0, .wordIssue 1280, .fetchChunk 1280 0, .start 1280 0 0 0, .coreStopped 1280,
    .operationComplete 1280, .deadlineExpire 1280, .contextLossStop 1280, .mark 1280 0, .frameMarkIssue 1280, .expect 1280 0 0,
    .wait 1280 0 0 0, .rel 1280 0 0 0, .lease 1280 0, .dline 1280 0, .stop 1280, .vAdd 1280 w0 (va 0 0 0 0 0 0),
    .vSub 1280 w0 (va 0 0 0 0 0 0), .vMul 1280 w0 (va 0 0 0 0 0 0), .vFma 1280 w0 (va 0 0 0 0 0 0), .vMin 1280 w0 (va 0 0 0 0 0 0), .vMax 1280 w0 (va 0 0 0 0 0 0), .vAbs 1280 w0 (va 0 0 0 0 0 0),
    .vNeg 1280 w0 (va 0 0 0 0 0 0)
    ] : Bool) = true := by decide +kernel

theorem test_ill_formed_core_2 : (allIll [.vCmpEq 1280 w0 (va 0 0 0 0 0 0),
    .vCmpLt 1280 w0 (va 0 0 0 0 0 0), .vCmpLe 1280 w0 (va 0 0 0 0 0 0), .vSel 1280 w0 (va 0 0 0 0 0 0), .vIota 1280 w0 (va 0 0 0 0 0 0), .vBcast 1280 w0 (va 0 0 0 0 0 0), .vCvt 1280 w0 (va 0 0 0 0 0 0),
    .vExp2 1280 w0 (va 0 0 0 0 0 0), .vLog2 1280 w0 (va 0 0 0 0 0 0), .vRcp 1280 w0 (va 0 0 0 0 0 0), .vRsqrt 1280 w0 (va 0 0 0 0 0 0), .vSqrt 1280 w0 (va 0 0 0 0 0 0), .vRsum 1280 w0 (va 0 0 0 0 0 0),
    .vRmax 1280 w0 (va 0 0 0 0 0 0), .vRargmax 1280 w0 (va 0 0 0 0 0 0), .pass 1280 w0 pa, .tileIssue 1280, .segmentSwap 1280 0 0, .residueCheck 1280 0 none,
    .tileCommit 1280, .drain 1280 w0 (dr 0 0 1), .softmaxRecord 1280, .param 1280 w0 ⟨0, 1, 0⟩, .vload 1280 w0 mv, .tload 1280 w0 ta,
    .dload 1280 w0 ⟨0, 0, 0⟩, .vstore 1280 w0 mv, .tstore 1280 w0 ta, .send 1280 w0 (sendTo 1), .eng 1280 w0 0, .add 1280 0 0 0,
    .sub 1280 0 0 0, .and 1280 0 0 0, .or 1280 0 0 0, .xor 1280 0 0 0, .sll 1280 0 0 0, .srl 1280 0 0 0,
    .sra 1280 0 0 0, .slt 1280 0 0 0, .sltu 1280 0 0 0, .mul 1280 0 0 0, .mulhu 1280 0 0 0, .divu 1280 0 0 0,
    .remu 1280 0 0 0, .addi 1280 0 0 0, .andi 1280 0 0 0, .ori 1280 0 0 0, .xori 1280 0 0 0, .slli 1280 0 0 0,
    .srli 1280 0 0 0
    ] : Bool) = true := by decide +kernel

theorem test_ill_formed_core_3 : (allIll [.srai 1280 0 0 0,
    .lui 1280 0 0, .fadd 1280 0 0 0, .fsub 1280 0 0 0, .fmul 1280 0 0 0, .fdiv 1280 0 0 0, .fmin 1280 0 0 0,
    .fmax 1280 0 0 0, .feq 1280 0 0 0, .flt 1280 0 0 0, .fle 1280 0 0 0, .fcvtWS 1280 0 0, .fcvtSW 1280 0 0,
    .lw 1280 0 0 0, .sw 1280 0 0 0, .bld 1280 0 0 0, .bst 1280 0 0 0, .beq 1280 0 0 0, .bne 1280 0 0 0,
    .blt 1280 0 0 0, .bge 1280 0 0 0, .bltu 1280 0 0 0, .bgeu 1280 0 0 0, .jal 1280 0 0, .jalr 1280 0 0 0,
    .custom 1280 0 0 0 0, .tide 1280 0, .trap 1280 0, .roleStale 1280 0 0 0 0 false, .denied 1280 0, .revoke 1280 0 0,
    .discard 1280 0 0, .mendFence 1280, .arithParityFault 1280, .plnCtxLose 0 0 2048, .halt 1280 0, .step 1280 0
    ] : Bool) = true := by decide +kernel

theorem test_ill_formed_unit : (allIll [.chunkRepair 0 25165824,
    .chunkRepairDone 0 25165824, .deltaApply 0 12, .harbourGrant 4096, .grantReceive 0 2048 0 0 0, .grantReceive 0 0 4096 0 0, .start 0 0 8192 0,
    .start 0 0 0 1024, .lease 0 8, .consignmentFirstFlit 0 1280, .flitLand 0 1280 0, .consignmentCommit 0 1280, .roleStale 0 0 0 4096 0 false,
    .revoke 0 2048 0, .revoke 0 0 4096, .revokeAck 4096, .openGo 4096 0, .closeGo 4096 0, .pop 81 0,
    .componentRestart 81 0, .componentRestart 0 7, .pilotReset 81, .pilotReload 81, .submissionRead 1024 0, .submissionRead 0 4,
    .completionWrite 8192, .deadlineMissed 8192, .tenantRefill 1024, .budgetHeld 8192, .hbrRedrive 0 4096 0, .hbrRedrive 0 0 274877906944,
    .bayCarveWrite 0 5 0 0, .ctxOpen 1024 0, .ctxClose 1024 0, .freeGo 1024 0, .teardown 1024, .inc 1024 [],
    .dec 1024 [], .plnCtxLose 0 1024 0, .contextLostComplete 1024
    ] : Bool) = true := by decide +kernel

theorem test_ill_formed_shoal : (allIll [.deltaApply 80 0,
    .mendCheck 80, .mendRebuild 80, .selfTestDone 80 false, .mendRenumber 80, .mendRestore 80, .restoreTimeout 80,
    .mendPilotTimeout 80, .mendResume 80, .reserveLost 80, .shoalIslandLost 80, .serviceGo 80 0, .serviceDone 80 false
    ] : Bool) = true := by decide +kernel

theorem test_ill_formed_cove : (allIll [.coveEnable 0 32 0 0,
    .coveDisable 0 32 0, .relGo 0 32 0 0 0, .peakClr 0 32 0, .expect 0 32 0, .wait 0 32 0 0, .rel 0 32 0 0
    ] : Bool) = true := by decide +kernel

theorem test_ill_formed_bay : (allIll [.bayRoleWrite 80 0 0 0,
    .schedArm 80 0 0, .schedDisarm 80 0, .stepStart 80, .frameEnd 80, .stepLimit 80, .breachRestore 80,
    .replayStart 80, .submissionPlace 80, .tilerStart 80, .decodeBatch 80, .bayDrain 80 0, .roleChange 80 0,
    .bayCarveWrite 80 0 0 0, .createGo 80 0, .retireGo 80 0, .washGo 80 0, .bayWashDone 80
    ] : Bool) = true := by decide +kernel

theorem test_ill_formed_port : (allIll [.straitBlockReceive 48 ⟨0, [], [], 0, true⟩,
    .linkEnable 48 0 0, .retrain 48 0, .linkTrainDone 48 0 0, .linkLockDone 48, .linkStateTimeout 48, .capabilityRecordSend 48,
    .capabilityRecordReceive 48 cap, .linkUp 48, .linkDown 48 0, .linkLost 48, .beaconExchange 48 0 0 0 0 false 0, .tierRequestIssue 16 false,
    .linkMend 48, .straitBlockSend 48
    ] : Bool) = true := by decide +kernel

theorem test_ill_formed_rest : (allIll [.registerWrite [{ id := 1, addr := 0, beats := [] }], .registerWrite [{ id := 1, addr := 0, beats := List.replicate 257 0 }],
    .casCmd [(1, 83, 0)], .charge [(1, 80, 0), (0, 83, 0)], .eventRaise { e17 with kind := 256 }, .thermSample [0, 0], .traceRecord { tz with core := 1280 }] : Bool) = true := by decide +kernel

theorem test_well_formed : ([Instr.governorSlice, .islandLost 1279, .grantReceive 2047 0 4095 0 0, .coveDisable 0 31 1, .lease 3 7, .charge [(1, 82, 0)]].all wellFormed : Bool) = true := by decide +kernel

/-! The machine as a whole -/
theorem test_steps_front : (runs (Machine.step { sx with pending := [.plnMsix 1 5, .governorSlice] }) (fun t => t.msix == [5] &&
  t.pending == [.governorSlice]) && (State.reset.withFetchWord 32 7 == State.reset) && wellFormed (.plnMsix 1 5) : Bool) = true := by decide +kernel

theorem test_steps_tick : (({ s0 with now := 2 ^ 64 - 1 } : State).canonical && runs (Machine.step { s0 with now := 2 ^ 64 - 1 }) (fun t => t.now == 0 &&
  t.pending.isEmpty) && runs (Machine.step { s0 with inReset := true }) (fun t => t.now == 0 && t.inReset) : Bool) = true := by decide +kernel

theorem test_reset_state : (State.reset.canonical && State.reset.pending.isEmpty && State.reset.now == 0 &&
  (State.reset.core 5).flag F.corCtl_stopped && State.reset.get F.imgStat_state == 0 : Bool) = true := by decide +kernel

theorem test_no_such_core : ((match exec (.start 1280 1 0 0) s0 with
  | .fault f => f == .noSuchCore 1280
  | _ => false) : Bool) = true := by decide +kernel

end Sys2Proof.Tests
end

section
/-! # O5: a well-formed command answers a next state

A command stops with a fault only where it names a unit that does not exist (R6, R7, R9, R355). Each meaning is a call of the command of a
unit (`onCore`, `onBay`, …) or stops nowhere, so the statement is one lemma for each kind of unit and the list of commands of that kind. -/

namespace Sys2Proof.Machine

/-- An outcome is a next state. -/
def Answers (o : Out) : Prop := ∃ t, o = .next t

theorem answers_next (s : State) : Answers (.next s) := ⟨s, rfl⟩

theorem answers_ite {p : Prop} [Decidable p] {a b : Out} (ha : Answers a) (hb : Answers b) : Answers (if p then a else b) := by
  split
  · exact ha
  · exact hb

/-! ## Commands of a unit -/

theorem onCore_answers {core : Nat} {s : State} {f : Nat → CoreState → State} (h : core < 1280) : Answers (onCore core s f) := by
  rw [onCore, if_pos h]; exact answers_next _

theorem onLive_answers {core : Nat} {s : State} {f : Nat → CoreState → State} (h : core < 1280) : Answers (onLive core s f) :=
  onCore_answers h

theorem sclR_answers {f : Word → Word → Word} {core rd ra rb : Nat} {s : State} (h : core < 1280) : Answers (sclR f core rd ra rb s) :=
  onLive_answers h

theorem sclF_answers {f : Word → Word → Word} {core rd ra rb : Nat} {s : State} (h : core < 1280) : Answers (sclF f core rd ra rb s) :=
  onLive_answers h

theorem sclI_answers {f : Word → Word → Word} {core rd ra : Nat} {imm : BitVec 16} {s : State} (h : core < 1280) :
    Answers (sclI f core rd ra imm s) := onLive_answers h

theorem sclD_answers {f : Word → Word → Word} {core rd ra rb : Nat} {s : State} (h : core < 1280) : Answers (sclD f core rd ra rb s) :=
  onLive_answers h

theorem sclB_answers {taken : Word → Word → Bool} {core ra rb : Nat} {imm : BitVec 16} {s : State} (h : core < 1280) :
    Answers (sclB taken core ra rb imm s) := onLive_answers h

theorem vecRun_answers {core code : Nat} {w : WordCtx} {a : VecArgs} {run : CoreState → CoreState} {s : State} (h : core < 1280) :
    Answers (s.vecRun core code w a run) := onLive_answers h

theorem vecMap_answers {core code : Nat} {w : WordCtx} {a : VecArgs} {f : CoreState → Nat → VRes} {s : State} (h : core < 1280) :
    Answers (s.vecMap core code w a f) := vecRun_answers h

theorem onShoal_answers {shoal : Nat} {s : State} {f : State → State} (h : shoal < 80) : Answers (onShoal shoal s f) := by
  rw [onShoal, if_pos h]; exact answers_next _

theorem onBay_answers {bay : Nat} {s : State} {f : State → State} (h : bay < 80) : Answers (onBay bay s f) := by
  rw [onBay, if_pos h]; exact answers_next _

theorem onPort_answers {port : Nat} {s : State} {f : State → State} (h : port < 48) : Answers (onPort port s f) := by
  rw [onPort, if_pos h]; exact answers_next _

theorem onWindow_answers {win : Nat} {s : State} {f : State → State} (h : win < 4096) : Answers (onWindow win s f) := by
  rw [onWindow, if_pos h]; exact answers_next _

theorem onCtx_answers {ctx : Nat} {s : State} {f : State → State} (h : ctx < 1024) : Answers (onCtx ctx s f) := by
  rw [onCtx, if_pos h]; exact answers_next _

theorem onEntry_answers {entry : Nat} {s : State} {f : State → State} (h : entry < 8192) : Answers (onEntry entry s f) := by
  rw [onEntry, if_pos h]; exact answers_next _

theorem onPilot_answers {pilot : Nat} {s : State} {f : State → State} (h : pilot < 81) : Answers (onPilot pilot s f) := by
  rw [onPilot, if_pos (by omega)]; exact answers_next _

/-- The cores from 1,280 on are the reserves of the shoals; a shoal without one has nothing to sweep. -/
theorem onSwept_answers {core : Nat} {s : State} {f : Nat → CoreState → (State → Nat → State) → State} (h : core < 1360) :
    Answers (onSwept core s f) := by
  unfold onSwept
  split
  · split
    · exact answers_next _
    · exact answers_ite (answers_next _) (answers_next _)
  · exact onLive_answers (by omega)

theorem onLedgerPorts_answers {base : Nat} {l : List (BitVec 12 × Nat × Reg64)} {s : State}
    (h : l.all (fun x => decide (x.2.1 ≤ 82)) = true) : Answers (onLedgerPorts base l s) := by
  have hnone : l.find? (fun x => decide (82 < x.2.1)) = none := by
    rw [List.find?_eq_none]
    intro x hx
    have := of_decide_eq_true (List.all_eq_true.mp h x hx)
    simpa using this
  rw [onLedgerPorts, hnone]
  exact answers_next _

/-! ## Commands with a check of their own -/

theorem execDeltaApply_answers {shoal ledge : Nat} {s : State} (hs : shoal < 80) (hl : ledge < 12) : Answers (execDeltaApply shoal ledge s) := by
  unfold execDeltaApply
  rw [if_pos ⟨hs, hl⟩]
  dsimp only
  split
  · exact answers_next _
  · split <;> exact answers_next _

theorem execComponentRestart_answers {pilot comp : Nat} {s : State} (hp : pilot < 81) (hc : comp ≤ 6) :
    Answers (execComponentRestart pilot comp s) := by
  rw [execComponentRestart, if_pos hc]; exact onPilot_answers hp

theorem execTierRequestIssue_answers {port : Nat} {far : Bool} {s : State} (h : port < 16) : Answers (execTierRequestIssue port far s) := by
  unfold execTierRequestIssue
  rw [if_neg (by omega)]
  split
  · dsimp only
    split <;> exact answers_next _
  · split
    · exact answers_next _
    · split <;> exact answers_next _

theorem execHarbourGrant_answers {win : Nat} {s : State} (h : win < 4096) : Answers (execHarbourGrant win s) := by
  unfold execHarbourGrant
  rw [if_neg (by omega)]
  exact answers_ite (answers_next _) (answers_next _)

theorem execRevokeAck_answers {win : Nat} {s : State} (h : win < 4096) : Answers (execRevokeAck win s) := by
  unfold execRevokeAck
  rw [if_neg (by omega)]
  exact answers_ite (answers_next _) (answers_next _)

theorem execTenantRefill_answers {tenant : Nat} {s : State} (h : tenant < 1024) : Answers (execTenantRefill tenant s) := by
  unfold execTenantRefill
  rw [if_neg (by omega)]
  exact answers_ite (answers_ite (answers_next _) (answers_next _)) (answers_next _)

/-! The lead pilot sends as a core of its own, 2,047 (R347). -/

theorem execGrantReceive_answers {core plain win first count : Nat} {s : State} (h : core < 1280 ∨ core = leadSender) :
    Answers (execGrantReceive core plain win first count s) := by
  unfold execGrantReceive
  dsimp only
  split
  · exact answers_next _
  · next hne => exact onCore_answers (h.resolve_right hne)

theorem execDenied_answers {core cid : Nat} {s : State} (h : core < 1280 ∨ core = leadSender) : Answers (execDenied core cid s) := by
  unfold execDenied
  dsimp only
  split
  · exact answers_next _
  · next hne => exact onCore_answers (h.resolve_right hne)

theorem execRevoke_answers {core plain win : Nat} {s : State} (h : core < 1280 ∨ core = leadSender) :
    Answers (execRevoke core plain win s) := by
  unfold execRevoke
  dsimp only
  split
  · exact answers_next _
  · next hne => exact onCore_answers (h.resolve_right hne)

/-! ## Commands without a check: a trigger that has not come about leaves the state as it is -/

theorem execMirrorDone_answers (s : State) : Answers (execMirrorDone s) := by
  unfold execMirrorDone; split <;> exact answers_next _

theorem execFlitRelease_answers (cons seq : Nat) (s : State) : Answers (execFlitRelease cons seq s) := by
  unfold execFlitRelease; split <;> exact answers_next _

theorem execTierWriteAck_answers (req : Nat) (s : State) : Answers (execTierWriteAck req s) := by
  unfold execTierWriteAck; split <;> exact answers_next _

theorem execTierReadReply_answers (req : Nat) (ue : List Nat) (s : State) : Answers (execTierReadReply req ue s) := by
  unfold execTierReadReply
  split
  · exact answers_next _
  · refine answers_ite (answers_next _) ?_
    dsimp only
    split <;> exact answers_next _

theorem execJournalAppend_answers (s : State) : Answers (execJournalAppend s) := by
  unfold execJournalAppend
  split
  · exact answers_next _
  · exact answers_ite (answers_next _) (answers_next _)

theorem execPrEnd_answers (s : State) : Answers (execPrEnd s) := by
  unfold execPrEnd; split <;> exact answers_next _

theorem execImageLoadAttempt_answers (s : State) : Answers (execImageLoadAttempt s) :=
  answers_ite (answers_next _) (answers_ite (answers_next _) (answers_next _))

/-! ## All commands -/

/-- The sender that a message names is a core or the lead pilot. -/
theorem sender_of_ok {core : Nat} (h : (decide (core < 1280) || decide (core = 2047)) = true) : core < 1280 ∨ core = leadSender := by
  simpa [leadSender] using h

theorem of_and_left {a b : Bool} (h : (a && b) = true) : a = true := (Bool.and_eq_true_iff.mp h).1

theorem exec_answers (c : Instr) (s : State) (h : wellFormed c = true) : Answers (exec c s) := by
  cases c
  all_goals unfold exec
  case registerWrite | railFault | throttleReqRise | throttleReqFall | holdover | dtreeWrite | breachBeaconReceive | mendBeaconReceive |
      mirrorLoad | mirrorSave | prefixWalk | plnMsix | loadAbandon | prGo | push | compact | xferNop | xferCsrRead | xferCsrWrite |
      xferBasinRead | xferBasinWrite | xferPoisonWrite | xferTierRead | xferTierWrite | xferStoreRead | xferStoreWrite | xferStoreErase
      | xferTableRead | xferTableWrite | prtEnable | powerUp | holdoverEnd | discard | roleStale | hbrRedrive | plnCtxLose | thermSample
      =>
    exact answers_next _
  case islandLost | bankArbitration | ldgEngPush | washStart | washDone | tagWrite | mendFence | arithParityFault | halt | step |
      consignmentFirstFlit | flitLand | consignmentCommit | traceRecord =>
    exact onCore_answers (of_decide_eq_true h)
  case coveEnable | coveDisable | relGo | peakClr => exact onCore_answers (of_decide_eq_true (of_and_left h))
  case start => exact onCore_answers (of_decide_eq_true (of_and_left (of_and_left h)))
  case basinBankCycle | basinReadData | nop | fill | copy | accOpen | accClose | ledgeCmdComplete | ledgeCmdTimeout | fold | unfold |
      releaseApply | wordIssue | fetchChunk | coreStopped | operationComplete | deadlineExpire | contextLossStop | mark | frameMarkIssue
      | dline | stop | pass | tileIssue | segmentSwap | residueCheck | tileCommit | drain | softmaxRecord | param | vload | tload |
      dload | vstore | tstore | send | eng | lui | fcvtWS | fcvtSW | lw | sw | bld | bst | jal | jalr | custom | tide | trap =>
    exact onLive_answers (of_decide_eq_true h)
  case chunkRepair | chunkRepairDone | expect | wait | rel | lease => exact onLive_answers (of_decide_eq_true (of_and_left h))
  case add | sub | and | or | xor | sll | srl | sra | slt | sltu | mul | mulhu | feq | flt | fle =>
    exact sclR_answers (of_decide_eq_true h)
  case fadd | fsub | fmul | fdiv | fmin | fmax => exact sclF_answers (of_decide_eq_true h)
  case addi | andi | ori | xori | slli | srli | srai => exact sclI_answers (of_decide_eq_true h)
  case divu | remu => exact sclD_answers (of_decide_eq_true h)
  case beq | bne | blt | bge | bltu | bgeu => exact sclB_answers (of_decide_eq_true h)
  case vAdd | vSub | vMul | vFma | vMin | vMax | vAbs | vNeg | vCmpEq | vCmpLt | vCmpLe | vSel | vIota | vBcast | vCvt | vExp2 | vLog2 |
      vRcp | vRsqrt | vSqrt =>
    exact vecMap_answers (of_decide_eq_true h)
  case vRsum | vRmax | vRargmax => exact vecRun_answers (of_decide_eq_true h)
  case mendCheck | mendRebuild | selfTestDone | mendRenumber | mendRestore | restoreTimeout | mendPilotTimeout | mendResume |
      reserveLost | shoalIslandLost | serviceGo | serviceDone =>
    exact onShoal_answers (of_decide_eq_true h)
  case bayRoleWrite | schedArm | schedDisarm | stepStart | frameEnd | stepLimit | breachRestore | replayStart | submissionPlace |
      tilerStart | decodeBatch | bayDrain | roleChange | createGo | retireGo | washGo | bayWashDone =>
    exact onBay_answers (of_decide_eq_true h)
  case bayCarveWrite => exact onBay_answers (of_decide_eq_true (of_and_left h))
  case straitBlockReceive | linkEnable | retrain | linkTrainDone | linkLockDone | linkStateTimeout | capabilityRecordSend |
      capabilityRecordReceive | linkUp | linkDown | linkLost | beaconExchange | linkMend | straitBlockSend =>
    exact onPort_answers (of_decide_eq_true h)
  case openGo | closeGo => exact onWindow_answers (of_decide_eq_true h)
  case ctxOpen | ctxClose | freeGo | teardown | inc | dec | contextLostComplete => exact onCtx_answers (of_decide_eq_true h)
  case submissionRead => exact onCtx_answers (of_decide_eq_true (of_and_left h))
  case completionWrite | deadlineMissed | budgetHeld => exact onEntry_answers (of_decide_eq_true h)
  case pop | pilotReset | pilotReload => exact onPilot_answers (of_decide_eq_true h)
  case sweepRow | sweepSteal => exact onSwept_answers (of_decide_eq_true h)
  case casCmd | charge => exact onLedgerPorts_answers h
  case harbourGrant => exact execHarbourGrant_answers (of_decide_eq_true h)
  case revokeAck => exact execRevokeAck_answers (of_decide_eq_true h)
  case tierRequestIssue => exact execTierRequestIssue_answers (of_decide_eq_true h)
  case tenantRefill => exact execTenantRefill_answers (of_decide_eq_true h)
  case deltaApply =>
    simp only [wellFormed, Bool.and_eq_true, decide_eq_true_eq] at h
    exact execDeltaApply_answers h.1 h.2
  case componentRestart =>
    simp only [wellFormed, Bool.and_eq_true, decide_eq_true_eq] at h
    exact execComponentRestart_answers h.1 h.2
  case grantReceive => exact execGrantReceive_answers (sender_of_ok (of_and_left (of_and_left h)))
  case revoke => exact execRevoke_answers (sender_of_ok (of_and_left (of_and_left h)))
  case denied => exact execDenied_answers (sender_of_ok h)
  case governorSlice | loadStepAssert | loadStepRelease | prefixWalkEnd | eventRaise | loadRetry | startAction | lockTimeout |
      loadFinish =>
    exact answers_ite (answers_next _) (answers_next _)
  case mirrorDone => exact execMirrorDone_answers _
  case flitRelease => exact execFlitRelease_answers _ _ _
  case tierWriteAck => exact execTierWriteAck_answers _ _
  case tierReadReply => exact execTierReadReply_answers _ _ _
  case journalAppend => exact execJournalAppend_answers _
  case prEnd => exact execPrEnd_answers _
  case imageLoadAttempt => exact execImageLoadAttempt_answers _
  case repeatBeaconReceive | resumeBeaconReceive | dstatCapture => exact answers_next _

/-- Settles O5: each command answers a next state where the units it names exist. -/
theorem wellFormedRuns : Obligations.WellFormedRuns := by
  unfold Obligations.WellFormedRuns
  exact exec_answers

end Sys2Proof.Machine
end

section
/-! # One write at the CSR port

What a write of 64 bits by one master does to a register of the plain that keeps all its fields itself (R408 to R413): the fields it gives
values, those that take them, and what is recorded of the others. -/

namespace Sys2Proof.Machine

/-! ## Lists, fields and maps -/

theorem mem_pair_iff {α : Type} {a b c : α} : a ∈ [b, c] ↔ a = b ∨ a = c := by
  simp only [List.mem_cons, List.not_mem_nil, or_false]

theorem filterMap_congr_of_mem {α β : Type} {f g : α → Option β} {l : List α} (h : ∀ x ∈ l, f x = g x) : l.filterMap f = l.filterMap g := by
  induction l with
  | nil => rfl
  | cons x rest ih =>
    rw [List.filterMap_cons, List.filterMap_cons, h x List.mem_cons_self, ih (fun y hy => h y (List.mem_cons_of_mem x hy))]

/-- Writing what a map reads at a key changes nothing. -/
theorem Sparse.set_get {α : Type} [DecidableEq α] {d : Nat → α} {lo : Nat} {m : List (Nat × α)} (i : Nat) (h : Sparse.wfFrom d lo m = true) :
    Sparse.set (d i) m i (Sparse.get (d i) m i) = m := by
  induction m generalizing lo with
  | nil => simp [Sparse.get, Sparse.set]
  | cons e rest ih =>
    obtain ⟨k, v⟩ := e
    simp only [Sparse.wfFrom, Bool.and_eq_true, decide_eq_true_eq] at h
    obtain ⟨⟨_, hv⟩, hrest⟩ := h
    by_cases hlt : i < k
    · have hg : Sparse.get (d i) ((k, v) :: rest) i = d i := by
        rw [Sparse.get, if_neg (by omega)]; exact Sparse.get_below _ hrest (by omega)
      rw [hg, Sparse.set, if_pos hlt, if_pos rfl]
    · by_cases he : i = k
      · subst he; simp [Sparse.get, Sparse.set, hv]
      · simp [Sparse.get, Sparse.set, hlt, he, ih hrest]

theorem bits_lt (v hi lo : Nat) : bits v hi lo < 2 ^ (hi + 1 - lo) := Nat.mod_lt _ (Nat.two_pow_pos _)

theorem field_lt (r : Reg64) (hi lo : Nat) : field r hi lo < 2 ^ (hi + 1 - lo) := bits_lt _ _ _

/-- Writing what a field reads changes nothing. -/
theorem setField_field (r : Reg64) (hi lo : Nat) : setField r hi lo (field r hi lo) = r := by
  have hb : setBits r.toNat hi lo (bits r.toNat hi lo) = r.toNat := by
    rw [setBits_eq, Nat.mod_eq_of_lt (bits_lt _ _ _)]
    exact (bits_split _ _ _).symm
  rw [setField, field, hb, BitVec.ofNat_toNat, BitVec.setWidth_eq]

theorem field_full (r : Reg64) : field r 63 0 = r.toNat := by
  simp only [field, bits, Nat.pow_zero, Nat.div_one, Nat.sub_zero]
  exact Nat.mod_eq_of_lt r.isLt

/-- A bit of a field that begins at bit 0. -/
theorem bit_bits (v hi k : Nat) (h : k ≤ hi) : bit (bits v hi 0) k = bit v k := by
  have e : 2 ^ (hi + 1) = 2 ^ k * (2 * 2 ^ (hi - k)) := by
    rw [← Nat.pow_succ', ← Nat.pow_add]; congr 1; omega
  simp only [bit, bits, Nat.pow_zero, Nat.div_one, Nat.sub_zero]
  rw [e, Nat.mod_mul_right_div_self, Nat.mod_mul_right_mod]

/-- Writing what a register reads changes nothing. -/
theorem State.setReg_reg {s : State} (a : Nat) (h : Sparse.wf plainReset s.regs = true) : s.setReg a (s.reg a) = s := by
  simp only [State.setReg, State.reg, Sparse.set_get (d := plainReset) a h]

theorem State.regs_wf {s : State} (h : s.canonical = true) : Sparse.wf plainReset s.regs = true := (Kept.of_canonical h).regs

theorem State.cores_wf {s : State} (h : s.canonical = true) : Sparse.wf (fun _ => CoreState.reset) s.cores = true := (Kept.of_canonical h).cores

/-! ## Where a write leads -/

/-- Rows that end below an address do not hold it. -/
theorem findRow_skip {l1 l2 : List RegRow} {a : Nat} (lo : Nat)
    (h : l1.all (fun r => decide (0 < r.stride) && decide (r.base + r.count * r.stride ≤ lo)) = true) (ha : lo ≤ a) :
    findRow (l1 ++ l2) a = findRow l2 a := by
  induction l1 with
  | nil => rfl
  | cons r rest ih =>
    simp only [List.all_cons, Bool.and_eq_true, decide_eq_true_eq] at h
    obtain ⟨⟨hs, hr⟩, hrest⟩ := h
    have hout : r.count ≤ (a - r.base) / r.stride := (Nat.le_div_iff_mul_le hs).mpr (by omega)
    simp only [List.cons_append, findRow]
    rw [if_neg (by omega), ih hrest]

theorem State.placeOf_plain (s : State) {a i : Nat} {r : RegRow} (ha : a < 0x100000) (h : findRow plainRows a = some (r, i)) :
    s.placeOf a = .plain r i := by
  rw [State.placeOf, if_pos ha, placeIn, h]

/-! ## One write -/

/-- The value that a write of `v` gives a field: none where 0 is no action (R411). -/
def RegRow.valueOf (v : Reg64) (f : RF × Cls) : Option FieldWrite :=
  if f.2.action && field v f.1.hi f.1.lo == 0 then none else some ⟨f.1, f.2, field v f.1.hi f.1.lo⟩

/-- The fields that a write of `v` gives values: not those that only hardware writes. -/
def RegRow.given (r : RegRow) (v : Reg64) : List FieldWrite := (r.fields.filter (fun f => f.2 != .ro)).filterMap (RegRow.valueOf v)

/-- What a field of register `i` of a row shows. -/
def State.shows (s : State) (r : RegRow) (i : Nat) (f : RF) : Nat := field (s.shown (.plain r i)) f.hi f.lo

/-- Why a field does not take its value from a write that gives the fields `l` values. -/
def State.causesOf (s : State) (r : RegRow) (i : Nat) (l : List FieldWrite) (x : FieldWrite) : List Nat :=
  s.fieldCauses (.plain r i) r i x (s.shows r i x.f) l

/-- The fields that take their value. -/
def State.taken (s : State) (r : RegRow) (i : Nat) (v : Reg64) : List FieldWrite :=
  (r.given v).filter (fun x => (s.causesOf r i (r.given v) x).isEmpty)

/-- What the fields that do not take their value are refused for; a write of the value a field has is no refusal (R411). -/
def State.refusals (s : State) (r : RegRow) (i : Nat) (v : Reg64) : List (List Nat) :=
  ((r.given v).filter (fun x => !(s.causesOf r i (r.given v) x).isEmpty &&
    !exempt x (s.shows r i x.f) (s.causesOf r i (r.given v) x))).map (s.causesOf r i (r.given v))

/-- A master that the port and the field take writes from, alone in its tick. -/
theorem State.mergeField_one {s : State} {r : RegRow} {i : Nat} {id : BitVec 12} {addr : Nat} {v : Reg64} {f : RF × Cls}
    (hp : s.portTakes false id = true) (hf : fieldTakes (.plain r i) r.kind i f.1.lo id = true) :
    s.mergeField (.plain r i) r false [⟨id, addr, v⟩] f =
      ⟨[], (RegRow.valueOf v f).map (fun x => (id, x)), []⟩ := by
  cases hact : f.2.action
  · simp [State.mergeField, RegRow.valueOf, hact, hp, hf, Place.index]
  · by_cases hz : field v f.1.hi f.1.lo = 0 <;> simp [State.mergeField, RegRow.valueOf, hact, hp, hf, hz, Place.index]

/-- One write of one register of the plain: nothing of it waits where no bit it sets for an operation still reads 1 (R10). -/
theorem State.writeReg_one {s : State} {r : RegRow} {i : Nat} {id : BitVec 12} {addr : Nat} {v : Reg64} (hkind : r.kind ≠ .tidSched)
    (hp : s.portTakes false id = true) (hf : ∀ f ∈ r.fields, fieldTakes (.plain r i) r.kind i f.1.lo id = true)
    (hidle : ∀ x ∈ r.given v, x.cls = .sc → s.shows r i x.f ≠ 1) :
    s.writeReg addr (.plain r i) r [⟨id, addr, v⟩] false =
      if (s.taken r i v).isEmpty then ⟨s, gatherRefused addr ((s.refusals r i v).map (fun c => (id, c))), []⟩
      else
        let e := s.effectPlain (.plain r i) r.kind i (s.taken r i v) (r.given v)
          (withFields r.kind (s.hwDone (.plain r i)) (Place.plain r i).slot (s.stored (.plain r i) r.kind) (s.taken r i v)) v
        ⟨e.1, gatherRefused addr ((s.refusals r i v).map (fun c => (id, c)) ++ (if e.2.isEmpty then [] else [(id, e.2)])), []⟩ := by
  have hmove : (Place.plain r i).canMove = false := by simp [Place.canMove, hkind]
  have hlate : s.isMoved (.plain r i) r.kind = false := by simp [State.isMoved, State.placeCore, hmove]
  have hmerged : ∀ f ∈ r.fields.filter (fun f => f.2 != .ro), s.mergeField (.plain r i) r false [⟨id, addr, v⟩] f =
      ⟨[], (RegRow.valueOf v f).map (fun x => (id, x)), []⟩ := fun f hf' => State.mergeField_one hp (hf f (List.mem_filter.mp hf').1)
  have hvalues : (r.fields.filter (fun f => f.2 != .ro)).filterMap (fun f => (s.mergeField (.plain r i) r false [⟨id, addr, v⟩] f).value) =
      (r.given v).map (fun x => (id, x)) := by
    rw [RegRow.given, List.map_filterMap]
    exact filterMap_congr_of_mem (fun f hf' => by rw [hmerged f hf'])
  have hremoved : (r.fields.filter (fun f => f.2 != .ro)).flatMap (fun f => (s.mergeField (.plain r i) r false [⟨id, addr, v⟩] f).removed.map
      (fun id => (id, [7]))) = [] := by
    simp only [List.flatMap_eq_nil_iff]
    intro f hf'
    rw [hmerged f hf']; rfl
  have hdropped : (r.fields.filter (fun f => f.2 != .ro)).flatMap (fun f => (s.mergeField (.plain r i) r false [⟨id, addr, v⟩] f).dropped.map
      (fun d => (d.1, d.2, f.1.lo))) = [] := by
    simp only [List.flatMap_eq_nil_iff]
    intro f hf'
    rw [hmerged f hf']; rfl
  have hnote : s.noteWrites (.plain r i) [⟨id, addr, v⟩] = s := by simp [State.noteWrites, hmove]
  have hbusy : ((r.given v).map (fun x => (id, x))).filter (fun x => x.2.cls == .sc && field (s.shown (.plain r i)) x.2.f.hi x.2.f.lo == 1) = [] := by
    simp only [List.filter_eq_nil_iff, List.mem_map]
    rintro _ ⟨x, hx, rfl⟩
    simp only [Bool.and_eq_true, beq_iff_eq]
    exact fun hsc => hidle x hx hsc.1 hsc.2
  have hlive : ((r.given v).map (fun x => (id, x))).filter (fun x => !(x.2.cls == .sc && field (s.shown (.plain r i)) x.2.f.hi x.2.f.lo == 1)) =
      (r.given v).map (fun x => (id, x)) := by
    rw [List.filter_eq_self]
    intro x hx
    rw [List.filter_eq_nil_iff] at hbusy
    exact (Bool.not_eq_true' _).mpr (Bool.eq_false_iff.mpr (hbusy x hx))
  have hok : ((((r.given v).map (fun x => (id, x))).map (fun x => (x, s.causesOf r i (r.given v) x.2))).filter
      (fun j => j.2.isEmpty)).map (fun j => j.1.2) = s.taken r i v := by
    simp [State.taken, List.filter_map, Function.comp_def]
  have hbad : ((((r.given v).map (fun x => (id, x))).map (fun x => (x, s.causesOf r i (r.given v) x.2))).filter
      (fun j => !j.2.isEmpty && !exempt j.1.2 (s.shows r i j.1.2.f) j.2)).map (fun j => (j.1.1, j.2)) =
      (s.refusals r i v).map (fun c => (id, c)) := by
    simp [State.refusals, List.filter_map, Function.comp_def]
  have hall : ((r.given v).map (fun x => (id, x))).map (fun x => x.2) = r.given v := by
    rw [List.map_map]
    exact List.map_id (r.given v)
  simp only [State.causesOf, State.shows] at hok hbad
  simp only [State.writeReg, hlate, Bool.false_and, Bool.not_false, Bool.and_true, List.flatMap_map, List.filterMap_map, Function.comp_def,
    hvalues, hremoved, hdropped, hnote, hbusy, hlive, List.map_nil, List.append_nil, hall, Place.index, hok, hbad, List.nil_append]
  cases htaken : s.taken r i v with
  | nil => rfl
  | cons x xs =>
    cases hgiven : r.given v with
    | nil => simp [State.taken, hgiven] at htaken
    | cons y ys =>
      simp only [List.map_cons, State.placeCore, List.find?_cons, beq_self_eq_true, Option.map_some, Option.getD_some]
      rfl

/-- A write of `v` at `addr` is one of register `i` of a row of the plain that keeps all its fields itself: the port and the fields take writes
of the master now, and no bit it sets for an operation still reads 1. -/
structure State.WritesPlain (s : State) (id : BitVec 12) (addr : Nat) (r : RegRow) (i : Nat) (v : Reg64) : Prop where
  takes : s.takes id = true
  place : s.placeOf addr = .plain r i
  sched : r.kind ≠ .tidSched
  refs : r.kind ≠ .ctxRef
  record : recordOf addr = none
  masters : ∀ f ∈ r.fields, fieldTakes (.plain r i) r.kind i f.1.lo id = true
  idle : ∀ x ∈ r.given v, x.cls = .sc → s.shows r i x.f ≠ 1

/-- What the write leaves, with the causes for which its register refused it as a whole. -/
def State.effectOne (s : State) (r : RegRow) (i : Nat) (v : Reg64) : Effect :=
  s.effectPlain (.plain r i) r.kind i (s.taken r i v) (r.given v)
    (withFields r.kind (s.hwDone (.plain r i)) (Place.plain r i).slot (s.stored (.plain r i) r.kind) (s.taken r i v)) v

theorem State.takes_iff {s : State} {id : BitVec 12} (h : s.takes id = true) :
    s.inReset = false ∧ s.heldWrites = [] ∧ s.portTakes false id = true := by
  simpa [State.takes, and_assoc] using h

section
variable {s : State} {id : BitVec 12} {addr : Nat} {r : RegRow} {i : Nat} {v : Reg64}

theorem State.WritesPlain.writeAt (h : s.WritesPlain id addr r i v) :
    s.writeAt addr [⟨id, addr, v⟩] false = s.writeReg addr (.plain r i) r [⟨id, addr, v⟩] false := by
  have hrefs : (r.kind == .ctxRef) = false := by simpa using h.refs
  simp only [State.writeAt, h.place, hrefs, Bool.false_eq_true, if_false, List.foldl_cons, List.foldl_nil, State.ring, h.record]

/-- A write alone in its tick goes to its register, and what it fails is recorded. -/
theorem State.WritesPlain.csrWrite (h : s.WritesPlain id addr r i v) :
    s.csrWrite id addr v =
      ((s.writeReg addr (.plain r i) r [⟨id, addr, v⟩] false).state.recordRefused
        (s.writeReg addr (.plain r i) r [⟨id, addr, v⟩] false).refused).recordDropped
        (s.writeReg addr (.plain r i) r [⟨id, addr, v⟩] false).dropped := by
  obtain ⟨hreset, hheld, _⟩ := State.takes_iff h.takes
  have hwash : s.washHolds addr = false := by simp [State.washHolds, h.place, State.placeCore]
  have hsame : ({ s with heldWrites := [], inReset := false } : State) = s := by rw [← hheld, ← hreset]
  have hdups : [addr].eraseDups = [addr] := rfl
  rw [← h.writeAt]
  simp [State.csrWrite, State.writeTick, hreset, hheld, hwash, byMaster, hdups, insertNat, hsame]

theorem gatherRefused_one {c : Nat} : gatherRefused addr [(id, [c])] = [⟨id, addr, [c]⟩] := by
  simp [gatherRefused, List.eraseDups_cons]

/-- No field and no register refuses the write: it leaves its effect. -/
theorem State.WritesPlain.csrWrite_taken (h : s.WritesPlain id addr r i v) (ht : s.taken r i v ≠ []) (hr : s.refusals r i v = [])
    (he : (s.effectOne r i v).2 = []) : s.csrWrite id addr v = (s.effectOne r i v).1 := by
  obtain ⟨_, _, hport⟩ := State.takes_iff h.takes
  rw [h.csrWrite, State.writeReg_one h.sched hport h.masters h.idle, if_neg (by simpa using ht), hr]
  simp only [State.effectOne] at he
  simp only [State.effectOne, he]
  rfl

/-- The register refuses the write as a whole. -/
theorem State.WritesPlain.csrWrite_whole {c : Nat} (h : s.WritesPlain id addr r i v) (ht : s.taken r i v ≠ []) (hr : s.refusals r i v = [])
    (he : (s.effectOne r i v).2 = [c]) : s.csrWrite id addr v = (s.effectOne r i v).1.recordRefused [⟨id, addr, [c]⟩] := by
  obtain ⟨_, _, hport⟩ := State.takes_iff h.takes
  rw [h.csrWrite, State.writeReg_one h.sched hport h.masters h.idle, if_neg (by simpa using ht), hr]
  simp only [State.effectOne] at he
  simp only [State.effectOne, he, List.map_nil, List.nil_append, List.isEmpty_cons, Bool.false_eq_true, if_false, gatherRefused_one]
  rfl

/-- A field refuses its value, and the others, where they take theirs, leave the state as it is. -/
theorem State.WritesPlain.csrWrite_refused {c : Nat} (h : s.WritesPlain id addr r i v) (hr : s.refusals r i v = [[c]])
    (he : s.taken r i v ≠ [] → s.effectOne r i v = (s, [])) : s.csrWrite id addr v = s.recordRefused [⟨id, addr, [c]⟩] := by
  obtain ⟨_, _, hport⟩ := State.takes_iff h.takes
  rw [h.csrWrite, State.writeReg_one h.sched hport h.masters h.idle, hr]
  by_cases ht : s.taken r i v = []
  · rw [if_pos (by simpa using ht)]
    simp only [List.map_cons, List.map_nil, gatherRefused_one]
    rfl
  · have he' := he ht
    simp only [State.effectOne] at he'
    rw [if_neg (by simpa using ht)]
    simp only [he', List.map_cons, List.map_nil, List.isEmpty_nil, if_true, List.append_nil, gatherRefused_one]
    rfl

end

/-! ## What is recorded of a refused write (R412) -/

/-- PLN_ACCESS_ERR after one refused write, and nothing else, differs. -/
structure State.RecordedRefusal (s t : State) (id : BitVec 12) (addr cause : Nat) : Prop where
  only : s.onlyReg 0x100 t
  count : t.get F.plnAccessErr_count = min 65535 (s.get F.plnAccessErr_count + 1)
  cause : t.get F.plnAccessErr_cause = cause
  master : t.get F.plnAccessErr_master = id.toNat
  addr : t.get F.plnAccessErr_addr = addr

theorem State.recordRefused_one (s : State) (id : BitVec 12) (addr c : Nat) :
    s.recordRefused [⟨id, addr, [c]⟩] = (((s.bump F.plnAccessErr_count 1).put F.plnAccessErr_cause c).put F.plnAccessErr_master id.toNat).put
      F.plnAccessErr_addr addr := by
  have hc : s.oneCause [c] = (s, c) := by simp [State.oneCause, List.eraseDups_cons]
  simp [State.recordRefused, firstBy, hc]

theorem State.recordedRefusal {s : State} (h : Sparse.wf plainReset s.regs = true) {id : BitVec 12} {addr c : Nat}
    (ha : addr < 2 ^ 26) (hc : c < 16) : s.RecordedRefusal (s.recordRefused [⟨id, addr, [c]⟩]) id addr c := by
  rw [State.recordRefused_one]
  have causeOk : F.plnAccessErr_cause.ok := ⟨by decide, by decide⟩
  have masterOk : F.plnAccessErr_master.ok := ⟨by decide, by decide⟩
  have addrOk : F.plnAccessErr_addr.ok := ⟨by decide, by decide⟩
  have hid : id.toNat < 2 ^ 12 := id.isLt
  have h1 : Sparse.wf plainReset (s.bump F.plnAccessErr_count 1).regs = true := State.wf_put _ _ _ _ h
  have h2 := State.wf_put _ F.plnAccessErr_cause c 0 h1
  have h3 := State.wf_put _ F.plnAccessErr_master id.toNat 0 h2
  have hbump : (s.bump F.plnAccessErr_count 1).get F.plnAccessErr_count = min 65535 (s.get F.plnAccessErr_count + 1) := by
    refine (State.get_put s F.plnAccessErr_count _ 0 h ⟨by decide, by decide⟩).trans ?_
    simp only [RF.max, F.plnAccessErr_count]
    omega
  refine ⟨⟨rfl, fun k hk => ?_⟩, ?_, ?_, ?_, ?_⟩
  · exact (State.reg_setReg_other _ _ _ _ hk.symm).trans <| (State.reg_setReg_other _ _ _ _ hk.symm).trans <|
      (State.reg_setReg_other _ _ _ _ hk.symm).trans (State.reg_setReg_other _ _ _ _ hk.symm)
  · rw [State.get_put_field _ _ _ _ _ _ h3 addrOk (by decide), State.get_put_field _ _ _ _ _ _ h2 masterOk (by decide),
      State.get_put_field _ _ _ _ _ _ h1 causeOk (by decide), hbump]
  · rw [State.get_put_field _ _ _ _ _ _ h3 addrOk (by decide), State.get_put_field _ _ _ _ _ _ h2 masterOk (by decide),
      State.get_put _ _ _ _ h1 causeOk]
    exact Nat.mod_eq_of_lt hc
  · rw [State.get_put_field _ _ _ _ _ _ h3 addrOk (by decide), State.get_put _ _ _ _ h2 masterOk]
    exact Nat.mod_eq_of_lt hid
  · rw [State.get_put _ _ _ _ h3 addrOk]
    exact Nat.mod_eq_of_lt ha

end Sys2Proof.Machine
end

section
/-! # Carve-outs and shoal sets (R356)

A write of one of the five registers of a bay's carve-outs that is not locked. -/

namespace Sys2Proof.Machine

/-! ## Writes that every field takes -/

section
variable {s : State} {r : RegRow} {i : Nat} {v : Reg64}

theorem State.taken_all (h : ∀ x ∈ r.given v, s.causesOf r i (r.given v) x = []) : s.taken r i v = r.given v := by
  rw [State.taken, List.filter_eq_self]
  intro x hx
  rw [h x hx]; rfl

theorem State.refusals_all (h : ∀ x ∈ r.given v, s.causesOf r i (r.given v) x = []) : s.refusals r i v = [] := by
  rw [State.refusals, List.map_eq_nil_iff, List.filter_eq_nil_iff]
  intro x hx
  simp [h x hx]

end

/-! ## The five registers -/

/-- The row of a carve-out word (0 to 2) or of a half of the shoal set (3, 4). -/
def carveRow : Nat → RegRow
  | 0 => ⟨.bayCarve0, 0x18000, 0x40, 80, 0, [(F.bayCarve0_basinLimit, .wo1), (F.bayCarve0_basinBase, .wo1)]⟩
  | 1 => ⟨.bayCarve1, 0x18008, 0x40, 80, 1, [(F.bayCarve1_nearLimit, .wo1), (F.bayCarve1_nearBase, .wo1)]⟩
  | 2 => ⟨.bayCarve2, 0x18010, 0x40, 80, 2, [(F.bayCarve2_farLimit, .wo1), (F.bayCarve2_farBase, .wo1)]⟩
  | 3 => ⟨.bayShoalsLo, 0x18018, 0x40, 80, 0, [(F.bayShoalsLo_shoalsLo, .wo1)]⟩
  | _ => ⟨.bayShoalsHi, 0x18020, 0x40, 80, 0, [(F.bayShoalsHi_shoalsHi, .wo1)]⟩

/-- Address of a word of a bay's carve-outs and shoal set. -/
def carveAddr (bay word : Nat) : Nat := 0x18000 + bay * 0x40 + word * 8

/-- The value of a carve-out word or half of a shoal set in the defined fields of a register that read `old`. -/
def carveNew (word : Nat) (old v : Reg64) : Reg64 :=
  (carveRow word).fields.foldl (fun r f => f.1.setIn r (field v f.1.hi f.1.lo)) old

/-- The state after a valid write of one of the five registers. -/
def State.carved (s : State) (bay word : Nat) (v : Reg64) : State :=
  { s.setReg (carveAddr bay word) (carveNew word (s.reg (carveAddr bay word)) v) with locked := insertNat s.locked (carveAddr bay word) }

theorem plainRows_bays {a : Nat} (ha : 0x18000 ≤ a) :
    findRow plainRows a = findRow (plainRows8 ++ (plainRows9 ++ (plainRows10 ++ plainRows11))) a := by
  have h : plainRows = (plainRows1 ++ plainRows2 ++ plainRows3 ++ plainRows4 ++ plainRows5 ++ plainRows6 ++ plainRows7) ++
      (plainRows8 ++ (plainRows9 ++ (plainRows10 ++ plainRows11))) := by simp only [plainRows, List.append_assoc]
  rw [h]
  exact findRow_skip 0x18000 (by decide) ha

/-- A word is one of five. -/
theorem carveWord_cases {word : Nat} (hw : word < 5) : word = 0 ∨ word = 1 ∨ word = 2 ∨ word = 3 ∨ word = 4 := by omega

theorem State.placeOf_carve (s : State) {bay word : Nat} (hb : bay < 80) (hw : word < 5) :
    s.placeOf (carveAddr bay word) = .plain (carveRow word) bay := by
  refine s.placeOf_plain (by unfold carveAddr; omega) ?_
  rw [plainRows_bays (by unfold carveAddr; omega)]
  obtain rfl | rfl | rfl | rfl | rfl := carveWord_cases hw
  all_goals
    simp only [plainRows8, List.cons_append, findRow, carveAddr, carveRow]
    repeat rw [if_neg (by omega)]
    rw [if_pos (by omega)]
    congr 2
    omega

theorem carveRow_given {word : Nat} (hw : word < 5) (v : Reg64) :
    (carveRow word).given v = (carveRow word).fields.map (fun f => ⟨f.1, .wo1, field v f.1.hi f.1.lo⟩) := by
  obtain rfl | rfl | rfl | rfl | rfl := carveWord_cases hw <;> rfl

theorem carveRow_slot (bay : Nat) {word : Nat} (hw : word < 5) : (Place.plain (carveRow word) bay).slot = carveAddr bay word := by
  obtain rfl | rfl | rfl | rfl | rfl := carveWord_cases hw <;> simp only [Place.slot, carveRow, carveAddr] <;> omega

/-- Only its lock keeps a field of these registers from its value. -/
theorem State.causesOf_carve {s : State} {bay word : Nat} (hw : word < 5) (hlock : s.isLocked (carveAddr bay word) = false) (v : Reg64)
    (x : FieldWrite) (hx : x ∈ (carveRow word).given v) : s.causesOf (carveRow word) bay ((carveRow word).given v) x = [] := by
  have hcls : x.cls = .wo1 := by
    rw [carveRow_given hw, List.mem_map] at hx
    obtain ⟨_, _, rfl⟩ := hx
    rfl
  have hcode : ∀ sub lo w all, s.reservedCode (carveRow word).kind bay sub lo w all = false := by
    obtain rfl | rfl | rfl | rfl | rfl := carveWord_cases hw <;> intros <;> rfl
  have hstate : ∀ lo w, s.plainCauses (carveRow word).kind bay lo w = [] := by
    obtain rfl | rfl | rfl | rfl | rfl := carveWord_cases hw <;> intros <;> rfl
  simp [State.causesOf, State.fieldCauses, State.placeCore, State.fieldLocked, hcode, hstate, hcls, carveRow_slot bay hw, hlock]

theorem State.effectOne_carve {s : State} {bay word : Nat} (hw : word < 5) (hlock : s.isLocked (carveAddr bay word) = false) (v : Reg64) :
    s.effectOne (carveRow word) bay v =
      if s.carveValid bay word (carveNew word (s.reg (carveAddr bay word)) v) = true then (s.carved bay word v, [])
      else (s, [9]) := by
  have hnew : ∀ h a old, withFields (carveRow word).kind h a old ((carveRow word).given v) = carveNew word old v := by
    obtain rfl | rfl | rfl | rfl | rfl := carveWord_cases hw <;> intros <;> rfl
  have hold : s.stored (.plain (carveRow word) bay) (carveRow word).kind = s.reg (carveAddr bay word) := by
    rw [← carveRow_slot bay hw]
    obtain rfl | rfl | rfl | rfl | rfl := carveWord_cases hw <;> rfl
  have heffect : ∀ ok all new raw, s.effectPlain (.plain (carveRow word) bay) (carveRow word).kind bay ok all new raw =
      s.writeCarve (.plain (carveRow word) bay) bay word new := by
    obtain rfl | rfl | rfl | rfl | rfl := carveWord_cases hw <;> intros <;> rfl
  rw [State.effectOne, State.taken_all (State.causesOf_carve hw hlock v), heffect, hnew, hold, State.writeCarve, State.keep,
    carveRow_slot bay hw]
  rfl

theorem State.writesPlain_carve {s : State} {id : BitVec 12} {bay word : Nat} (ht : s.takes id = true) (hb : bay < 80) (hw : word < 5)
    (v : Reg64) : s.WritesPlain id (carveAddr bay word) (carveRow word) bay v := by
  refine ⟨ht, s.placeOf_carve hb hw, ?_, ?_, ?_, ?_, ?_⟩
  · obtain rfl | rfl | rfl | rfl | rfl := carveWord_cases hw <;> decide
  · obtain rfl | rfl | rfl | rfl | rfl := carveWord_cases hw <;> decide
  · unfold recordOf carveAddr
    rw [if_neg (by omega)]
  · obtain rfl | rfl | rfl | rfl | rfl := carveWord_cases hw <;> intros <;> rfl
  · intro x hx hsc
    rw [carveRow_given hw, List.mem_map] at hx
    obtain ⟨_, _, rfl⟩ := hx
    cases hsc

/-! ## Valid values -/

/-- A field written with what another register's field reads. -/
theorem field_setField_field (r v : Reg64) (hi lo : Nat) (hw : lo ≤ hi) (hh : hi < 64) :
    field (setField r hi lo (field v hi lo)) hi lo = field v hi lo := by
  rw [field_setField _ _ _ _ hw hh, Nat.mod_eq_of_lt (field_lt _ _ _)]

/-- The defined fields of the register read as they were written. -/
theorem field_carveNew {word : Nat} (hw : word < 5) (old v : Reg64) (f : RF × Cls) (hf : f ∈ (carveRow word).fields) :
    field (carveNew word old v) f.1.hi f.1.lo = field v f.1.hi f.1.lo := by
  have hpair : ∀ hi lo h l : Nat, l ≤ h → h < lo → lo ≤ hi → hi < 64 →
      field (setField (setField old hi lo (field v hi lo)) h l (field v h l)) hi lo = field v hi lo := by
    intro hi lo h l h1 h2 h3 h4
    rw [field_setField_other _ _ _ _ _ _ h1 (by omega) (Or.inr h2), field_setField_field _ _ _ _ h3 h4]
  obtain rfl | rfl | rfl | rfl | rfl := carveWord_cases hw
  case inr.inr.inr.inl | inr.inr.inr.inr =>
    obtain rfl := List.mem_singleton.mp hf
    exact field_setField_field _ _ _ _ (by decide) (by decide)
  all_goals
    obtain rfl | rfl := mem_pair_iff.mp hf
    · exact hpair _ _ _ _ (by decide) (by decide) (by decide) (by decide)
    · exact field_setField_field _ _ _ _ (by decide) (by decide)

/-- A half of a shoal set that names the same shoals is valid alike. -/
theorem all_bits_congr {n : Nat} {v w : Nat} {f : Nat → Bool} (h : ∀ k, k < n → bit v k = bit w k) :
    (List.range n).all (fun k => !bit v k || f k) = (List.range n).all (fun k => !bit w k || f k) := by
  rw [Bool.eq_iff_iff, List.all_eq_true, List.all_eq_true]
  exact forall₂_congr (fun k hk => by rw [h k (List.mem_range.mp hk)])

/-- The validity of a word depends on its defined fields only. -/
theorem State.carveValid_new (s : State) (bay : Nat) {word : Nat} (hw : word < 5) (old v : Reg64) :
    s.carveValid bay word (carveNew word old v) = s.carveValid bay word v := by
  have hfield := field_carveNew hw old v
  obtain rfl | rfl | rfl | rfl | rfl := carveWord_cases hw
  · have hlimit := hfield (F.bayCarve0_basinLimit, .wo1) (by simp [carveRow])
    have hbase := hfield (F.bayCarve0_basinBase, .wo1) (by simp [carveRow])
    simp only [F.bayCarve0_basinLimit, F.bayCarve0_basinBase] at hlimit hbase
    simp only [State.carveValid, hlimit, hbase]
  · have hlimit := hfield (F.bayCarve1_nearLimit, .wo1) (by simp [carveRow])
    have hbase := hfield (F.bayCarve1_nearBase, .wo1) (by simp [carveRow])
    simp only [F.bayCarve1_nearLimit, F.bayCarve1_nearBase] at hlimit hbase
    simp only [State.carveValid, hlimit, hbase]
  · have hlimit := hfield (F.bayCarve2_farLimit, .wo1) (by simp [carveRow])
    have hbase := hfield (F.bayCarve2_farBase, .wo1) (by simp [carveRow])
    simp only [F.bayCarve2_farLimit, F.bayCarve2_farBase] at hlimit hbase
    simp only [State.carveValid, hlimit, hbase]
  · have hset := hfield (F.bayShoalsLo_shoalsLo, .wo1) (by simp [carveRow])
    simp only [F.bayShoalsLo_shoalsLo, field_full] at hset
    simp only [State.carveValid, hset]
  · have hset := hfield (F.bayShoalsHi_shoalsHi, .wo1) (by simp [carveRow])
    simp only [F.bayShoalsHi_shoalsHi, field] at hset
    exact all_bits_congr (fun k hk => by rw [← bit_bits _ 15 k (by omega), hset, bit_bits _ 15 k (by omega)])

/-! ## The write -/

theorem mem_insertNat {l : List Nat} {i k : Nat} : k ∈ insertNat l i ↔ k = i ∨ k ∈ l := by
  induction l with
  | nil => simp [insertNat]
  | cons x rest ih =>
    by_cases h1 : i < x
    · simp [insertNat, h1]
    · by_cases h2 : i = x
      · subst h2; simp [insertNat]
      · simp only [insertNat, h1, h2, if_false, List.mem_cons, ih]
        exact or_left_comm

/-- What a write of one of the five registers does. -/
theorem State.exec_bayCarveWrite {s : State} {id : BitVec 12} {bay word : Nat} (ht : s.takes id = true) (hb : bay < 80) (hw : word < 5)
    (hlock : s.isLocked (carveAddr bay word) = false) (v : Reg64) :
    Machine.exec (.bayCarveWrite bay word id v) s = .next (if s.carveValid bay word v = true then s.carved bay word v
      else s.recordRefused [⟨id, carveAddr bay word, [9]⟩]) := by
  have hwrite := State.writesPlain_carve ht hb hw v
  have hcauses := State.causesOf_carve hw hlock v
  have htaken : s.taken (carveRow word) bay v ≠ [] := by
    rw [State.taken_all hcauses, carveRow_given hw]
    obtain rfl | rfl | rfl | rfl | rfl := carveWord_cases hw <;> exact List.cons_ne_nil _ _
  have hrefusals := State.refusals_all hcauses
  have heffect := State.effectOne_carve hw hlock v
  rw [State.carveValid_new s bay hw] at heffect
  show onBay bay s (fun s => if word < 5 then s.csrWrite id (carveAddr bay word) v else s) = _
  rw [onBay, if_pos hb, if_pos hw]
  by_cases hvalid : s.carveValid bay word v = true
  · rw [if_pos hvalid] at heffect ⊢
    rw [hwrite.csrWrite_taken htaken hrefusals (by rw [heffect]), heffect]
  · rw [if_neg hvalid] at heffect ⊢
    rw [hwrite.csrWrite_whole htaken hrefusals (by rw [heffect]), heffect]

/-- The carve-out clause of O54, valid values: the register takes its fields and locks. -/
theorem State.carve_valid {s : State} {id : BitVec 12} {bay word : Nat} {v : Reg64} (hc : s.canonical = true) (ht : s.takes id = true)
    (hb : bay < 80) (hw : word < 5)
    (hlock : s.isLocked (carveAddr bay word) = false) (hvalid : s.carveValid bay word v = true) :
    ∃ t, Machine.exec (.bayCarveWrite bay word id v) s = .next t ∧ { t with regs := s.regs, locked := s.locked } = s ∧
      t.isLocked (carveAddr bay word) = true ∧ (∀ k, k ≠ carveAddr bay word → t.reg k = s.reg k ∧ t.isLocked k = s.isLocked k) ∧
      ∀ f ∈ (carveRow word).fields, field (t.reg (carveAddr bay word)) f.1.hi f.1.lo = field v f.1.hi f.1.lo := by
  refine ⟨s.carved bay word v, (State.exec_bayCarveWrite ht hb hw hlock v).trans (by rw [if_pos hvalid]), rfl, ?_, ?_, ?_⟩
  · simp [State.isLocked, State.carved, mem_insertNat]
  · intro k hk
    exact ⟨State.reg_setReg_other s _ _ _ hk.symm, by simp [State.isLocked, State.carved, mem_insertNat, hk]⟩
  · intro f hf
    refine Eq.trans ?_ (field_carveNew hw (s.reg (carveAddr bay word)) v f hf)
    exact congrArg (fun r => field r f.1.hi f.1.lo) (State.reg_setReg s _ _ (State.regs_wf hc))

/-- The carve-out clause of O54, other values: PLN_ACCESS_ERR records the write. -/
theorem State.carve_invalid {s : State} {id : BitVec 12} {bay word : Nat} {v : Reg64} (hc : s.canonical = true) (ht : s.takes id = true)
    (hb : bay < 80) (hw : word < 5)
    (hlock : s.isLocked (carveAddr bay word) = false) (hvalid : s.carveValid bay word v = false) :
    ∃ t, Machine.exec (.bayCarveWrite bay word id v) s = .next t ∧ s.RecordedRefusal t id (carveAddr bay word) 9 :=
  ⟨_, (State.exec_bayCarveWrite ht hb hw hlock v).trans (by rw [if_neg (by simp [hvalid])]),
    State.recordedRefusal (State.regs_wf hc) (by unfold carveAddr; omega) (by decide)⟩

end Sys2Proof.Machine
end

section
/-! # Roles of bays and words of trees (R237, R297)

Writes whose fields all take their values. -/

namespace Sys2Proof.Machine

/-! ## A tree word -/

/-- Writing all the bits of a register. -/
theorem setField_full (r v : Reg64) : setField r 63 0 v.toNat = v := by
  refine BitVec.eq_of_toNat_eq ?_
  rw [toNat_setField _ _ _ _ (by decide) (by decide), setBits_eq]
  have hr := r.isLt
  have hv := v.isLt
  simp only [Nat.pow_zero, Nat.div_one, Nat.mod_one, Nat.mul_one, Nat.sub_zero]
  omega

/-- The row of PLN_DTREE_DATA. -/
def treeRow : RegRow := ⟨.plnDtreeData, 0x4008, 0x8, 1, 0, [(F.plnDtreeData_data, .rw)]⟩

theorem State.placeOf_tree (s : State) : s.placeOf 0x4008 = .plain treeRow 0 := s.placeOf_plain (by decide) (by decide)

theorem treeRow_given (v : Reg64) : treeRow.given v = [⟨F.plnDtreeData_data, .rw, v.toNat⟩] := by
  rw [← field_full v]; rfl

theorem State.writesPlain_tree {s : State} {id : BitVec 12} (ht : s.takes id = true) (v : Reg64) : s.WritesPlain id 0x4008 treeRow 0 v := by
  refine ⟨ht, s.placeOf_tree, by decide, by decide, by decide, fun _ _ => rfl, ?_⟩
  intro x hx hsc
  rw [treeRow_given, List.mem_singleton] at hx
  subst hx
  cases hsc

/-- The tree clause of O54: a word other than the first of a tree that is not valid keeps the bits that Table 4-9 defines. -/
theorem State.exec_dtreeWrite {s : State} {id : BitVec 12} (ht : s.takes id = true) (v : Reg64) (hword : s.sel F.plnDtreeSel_word ≠ 0)
    (hvalid : bit (Sparse.get 0 s.dtree (s.sel F.plnDtreeSel_tree * 16)).toNat 19 = false) :
    Machine.exec (.dtreeWrite id v) s = .next { s with
      dtree := Sparse.set 0 s.dtree (s.sel F.plnDtreeSel_tree * 16 + s.sel F.plnDtreeSel_word) (v &&& treeMask (s.sel F.plnDtreeSel_word)) } := by
  have hcauses : ∀ x ∈ treeRow.given v, s.causesOf treeRow 0 (treeRow.given v) x = [] := by
    intro x hx
    rw [treeRow_given, List.mem_singleton] at hx
    subst hx
    have hstate : s.plainCauses treeRow.kind 0 F.plnDtreeData_data.lo v.toNat = [] := by
      show s.treeCauses v.toNat = []
      rw [State.treeCauses, if_pos hword, hvalid]; rfl
    have hcode : ∀ lo w all, s.reservedCode treeRow.kind 0 treeRow.sub lo w all = false := fun _ _ _ => rfl
    simp [State.causesOf, State.fieldCauses, State.placeCore, State.fieldLocked, hcode, hstate]
  have hgiven : s.taken treeRow 0 v ≠ [] := by
    rw [State.taken_all hcauses, treeRow_given]; exact List.cons_ne_nil _ _
  have heffect : s.effectOne treeRow 0 v = ({ s with
      dtree := Sparse.set 0 s.dtree (s.sel F.plnDtreeSel_tree * 16 + s.sel F.plnDtreeSel_word)
        (v &&& treeMask (s.sel F.plnDtreeSel_word)) }, []) := by
    have hnew : ∀ h a old, withFields treeRow.kind h a old [⟨F.plnDtreeData_data, .rw, v.toNat⟩] = v := fun _ _ old => setField_full old v
    rw [State.effectOne, State.taken_all hcauses, treeRow_given, hnew]
    rfl
  show Host.Outcome.next (s.csrWrite id 0x4008 v) = _
  rw [(State.writesPlain_tree ht v).csrWrite_taken hgiven (State.refusals_all hcauses) (by rw [heffect]), heffect]

/-! ## The role of a bay -/

/-- The row of BAY_ROLE. -/
def roleRow : RegRow := ⟨.bayRole, 0x15000, 0x8, 80, 0, [(F.bayRole_role, .rw), (F.bayRole_epoch, .rw)]⟩

theorem State.placeOf_role (s : State) {bay : Nat} (hb : bay < 80) : s.placeOf (0x15000 + bay * 8) = .plain roleRow bay := by
  refine s.placeOf_plain (by omega) ?_
  have h : plainRows = (plainRows1 ++ plainRows2 ++ plainRows3 ++ plainRows4 ++ plainRows5 ++ plainRows6 ++ plainRows7.take 6) ++
      (roleRow :: (plainRows7.drop 7 ++ plainRows8 ++ plainRows9 ++ plainRows10 ++ plainRows11)) := rfl
  rw [h, findRow_skip 0x15000 (by decide) (by omega), findRow, if_pos (by simp only [roleRow]; omega)]
  simp only [roleRow, Option.some.injEq, Prod.mk.injEq, true_and]
  omega

theorem roleRow_given (v : Reg64) : roleRow.given v = [⟨F.bayRole_role, .rw, field v 17 16⟩, ⟨F.bayRole_epoch, .rw, field v 15 0⟩] := rfl

theorem State.writesPlain_role {s : State} {id : BitVec 12} {bay : Nat} (ht : s.takes id = true) (hb : bay < 80) (v : Reg64) :
    s.WritesPlain id (0x15000 + bay * 8) roleRow bay v := by
  refine ⟨ht, s.placeOf_role hb, by decide, by decide, ?_, fun _ _ => rfl, ?_⟩
  · rw [recordOf, if_neg (by omega)]
  · intro x hx hsc
    rw [roleRow_given] at hx
    obtain rfl | rfl := mem_pair_iff.mp hx <;> cases hsc

/-- A bay's role and epoch in a register. -/
def roleNew (old : Reg64) (role epoch : Nat) : Reg64 := setField (setField old 17 16 role) 15 0 epoch

theorem field_roleNew (old : Reg64) {role epoch : Nat} (hr : role < 4) (he : epoch < 65536) :
    field (roleNew old role epoch) 17 16 = role ∧ field (roleNew old role epoch) 15 0 = epoch := by
  unfold roleNew
  constructor
  · rw [field_setField_other _ _ _ _ _ _ (by decide) (by decide) (by decide), field_setField _ _ _ _ (by decide) (by decide)]
    exact Nat.mod_eq_of_lt hr
  · rw [field_setField _ _ _ _ (by decide) (by decide)]
    exact Nat.mod_eq_of_lt he

theorem State.csrWrite_role {s : State} {id : BitVec 12} {bay : Nat} (ht : s.takes id = true) (hb : bay < 80) (v : Reg64) :
    s.csrWrite id (0x15000 + bay * 8) v = (s.keepRole bay (s.get F.bayRole_epoch bay)).setReg (0x15000 + bay * 8)
      (roleNew (s.reg (0x15000 + bay * 8)) (field v 17 16) (field v 15 0)) := by
  have hcauses : ∀ x ∈ roleRow.given v, s.causesOf roleRow bay (roleRow.given v) x = [] := by
    intro x hx
    have hcls : x.cls = .rw := by
      rw [roleRow_given] at hx
      obtain rfl | rfl := mem_pair_iff.mp hx <;> rfl
    have hstate : ∀ lo w, s.plainCauses roleRow.kind bay lo w = [] := fun _ _ => rfl
    have hcode : ∀ lo w all, s.reservedCode roleRow.kind bay roleRow.sub lo w all = false := fun _ _ _ => rfl
    simp [State.causesOf, State.fieldCauses, State.placeCore, State.fieldLocked, hcls, hcode, hstate]
  have htaken : s.taken roleRow bay v ≠ [] := by
    rw [State.taken_all hcauses, roleRow_given]; exact List.cons_ne_nil _ _
  have heffect : s.effectOne roleRow bay v = ((s.keepRole bay (s.get F.bayRole_epoch bay)).setReg (0x15000 + bay * 8)
      (roleNew (s.reg (0x15000 + bay * 8)) (field v 17 16) (field v 15 0)), []) := by
    rw [State.effectOne, State.taken_all hcauses, roleRow_given]
    rfl
  rw [(State.writesPlain_role ht hb v).csrWrite_taken htaken (State.refusals_all hcauses) (by rw [heffect]), heffect]

theorem State.keepRole_regs (s : State) (bay epoch : Nat) : (s.keepRole bay epoch).regs = s.regs := by
  unfold State.keepRole; split <;> rfl

theorem State.keepRole_only (s : State) (bay epoch : Nat) : { s.keepRole bay epoch with regs := s.regs, cyc := s.cyc } = s := by
  unfold State.keepRole; split <;> rfl

/-- The role clause of O54. -/
theorem State.exec_bayRoleWrite {s : State} {id : BitVec 12} {bay role epoch : Nat} (hc : s.canonical = true) (ht : s.takes id = true)
    (hb : bay < 80) (hr : role < 4) (he : epoch < 65536) : ∃ t, Machine.exec (.bayRoleWrite bay id role epoch) s = .next t ∧
      t.get F.bayRole_role bay = role ∧ t.get F.bayRole_epoch bay = epoch ∧ s.onlyReg (F.bayRole_role.addr bay) t := by
  obtain ⟨hrole, hepoch⟩ := field_roleNew (s.writeBack (0x15000 + bay * 8)) hr he
  have hexec : Machine.exec (.bayRoleWrite bay id role epoch) s =
      .next (s.csrWrite id (0x15000 + bay * 8) (roleNew (s.writeBack (0x15000 + bay * 8)) role epoch)) := if_pos hb
  rw [hexec, State.csrWrite_role ht hb, hrole, hepoch]
  have hwf : Sparse.wf plainReset (s.keepRole bay (s.get F.bayRole_epoch bay)).regs = true := by
    rw [State.keepRole_regs]; exact State.regs_wf hc
  have hreg := State.reg_setReg _ (0x15000 + bay * 8) (roleNew (s.reg (0x15000 + bay * 8)) role epoch) hwf
  obtain ⟨hrole', hepoch'⟩ := field_roleNew (s.reg (0x15000 + bay * 8)) hr he
  refine ⟨_, rfl, ?_, ?_, State.keepRole_only s bay _, fun k hk => ?_⟩
  · exact (congrArg (fun r => field r 17 16) hreg).trans hrole'
  · exact (congrArg (fun r => field r 15 0) hreg).trans hepoch'
  · refine (State.reg_setReg_other _ _ _ _ (Ne.symm hk)).trans ?_
    simp only [State.reg, State.keepRole_regs]

end Sys2Proof.Machine
end

section
/-! # The go bits of BAY_CTL (R357 to R359)

A write that sets one of CREATE_GO, RETIRE_GO and WASH_GO while all three read 0, and leaves TENANT as it is. -/

namespace Sys2Proof.Machine

/-! ## The register -/

/-- The row of BAY_CTL. -/
def ctlRow : RegRow := ⟨.bayCtl, 0x18028, 0x40, 80, 0, [(F.bayCtl_state, .ro), (F.bayCtl_createGo, .sc), (F.bayCtl_retireGo, .sc),
  (F.bayCtl_washGo, .sc), (F.bayCtl_bayEpoch, .ro), (F.bayCtl_tenant, .rw)]⟩

/-- Address of a bay's BAY_CTL. -/
def ctlAddr (bay : Nat) : Nat := 0x18028 + bay * 0x40

/-- The three go bits. -/
def goBits : List RF := [F.bayCtl_createGo, F.bayCtl_retireGo, F.bayCtl_washGo]

theorem goBits_cases {g : RF} (hg : g ∈ goBits) : g = F.bayCtl_createGo ∨ g = F.bayCtl_retireGo ∨ g = F.bayCtl_washGo := by
  simpa [goBits] using hg

theorem State.placeOf_ctl (s : State) {bay : Nat} (hb : bay < 80) : s.placeOf (ctlAddr bay) = .plain ctlRow bay := by
  refine s.placeOf_plain (by unfold ctlAddr; omega) ?_
  rw [plainRows_bays (by unfold ctlAddr; omega)]
  simp only [plainRows8, List.cons_append, findRow, ctlAddr]
  repeat rw [if_neg (by omega)]
  rw [if_pos (by omega)]
  simp only [ctlRow, Option.some.injEq, Prod.mk.injEq, true_and]
  omega

/-- A defined field of BAY_CTL reads as it is stored. -/
theorem field_defined_ctl (v : Reg64) (f : RF × Cls) (hf : f ∈ ctlRow.fields) :
    field (ctlRow.defined v) f.1.hi f.1.lo = field v f.1.hi f.1.lo := by
  simp only [ctlRow, List.mem_cons, List.not_mem_nil, or_false] at hf
  obtain rfl | rfl | rfl | rfl | rfl | rfl := hf <;>
    simp [RegRow.defined, ctlRow, F.bayCtl_state, F.bayCtl_createGo, F.bayCtl_retireGo, F.bayCtl_washGo, F.bayCtl_bayEpoch, F.bayCtl_tenant,
      field_setField_other, field_setField_field]

theorem State.shows_ctl (s : State) (bay : Nat) (f : RF × Cls) (hf : f ∈ ctlRow.fields) : s.shows ctlRow bay f.1 = s.get f.1 bay := by
  refine (field_defined_ctl _ f hf).trans ?_
  simp only [ctlRow, List.mem_cons, List.not_mem_nil, or_false] at hf
  obtain rfl | rfl | rfl | rfl | rfl | rfl := hf <;> rfl

/-! ## The write -/

/-- What a master writes to set a go bit. -/
def State.goValue (s : State) (bay : Nat) (g : RF) : Reg64 := g.setIn (s.writeBack (ctlAddr bay)) 1

/-- What the write gives the register's fields: the go bit a 1 and TENANT what it has. -/
theorem State.given_goValue (s : State) {bay : Nat} (hb : bay < 80) {g : RF} (hg : g ∈ goBits) :
    ctlRow.given (s.goValue bay g) = [⟨g, .sc, 1⟩, ⟨F.bayCtl_tenant, .rw, s.get F.bayCtl_tenant bay⟩] := by
  have htenant : field (s.csrRead (ctlAddr bay)) 25 16 = s.get F.bayCtl_tenant bay := by
    rw [State.csrRead, s.placeOf_ctl hb]
    exact s.shows_ctl bay (F.bayCtl_tenant, .rw) (by simp [ctlRow])
  simp only [F.bayCtl_tenant] at htenant
  have hback : s.writeBack (ctlAddr bay) = setField (setField (setField (s.csrRead (ctlAddr bay)) 61 61 0) 60 60 0) 59 59 0 := by
    rw [State.writeBack, s.placeOf_ctl hb]; rfl
  have hfilter : ctlRow.fields.filter (fun f => f.2 != .ro) =
      [(F.bayCtl_createGo, .sc), (F.bayCtl_retireGo, .sc), (F.bayCtl_washGo, .sc), (F.bayCtl_tenant, .rw)] := rfl
  obtain rfl | rfl | rfl := goBits_cases hg <;>
    simp [RegRow.given, hfilter, RegRow.valueOf, State.goValue, RF.setIn, hback, Cls.action, F.bayCtl_createGo, F.bayCtl_retireGo,
      F.bayCtl_washGo, F.bayCtl_tenant, field_setField_other, field_setField, htenant]

/-- Why a go bit does not take effect. -/
def State.goCauses (s : State) (bay : Nat) (g : RF) : List Nat := s.plainCauses .bayCtl bay g.lo 1

theorem State.goCauses_create (s : State) (bay : Nat) : s.goCauses bay F.bayCtl_createGo = need (s.mayCreate bay) := rfl

theorem State.goCauses_retire (s : State) (bay : Nat) : s.goCauses bay F.bayCtl_retireGo = need (s.get F.bayCtl_state bay == 1) := rfl

theorem State.goCauses_wash (s : State) (bay : Nat) : s.goCauses bay F.bayCtl_washGo = need (s.bayStopped bay) := rfl

/-- No go bit of the bay's BAY_CTL reads 1. -/
def State.goIdle (s : State) (bay : Nat) : Prop := ∀ g ∈ goBits, s.flag g bay = false

section
variable {s : State} {id : BitVec 12} {bay : Nat} {g : RF}

theorem State.shows_go (hg : g ∈ goBits) (hidle : s.goIdle bay) : s.shows ctlRow bay g ≠ 1 := by
  have h := hidle g hg
  have hf : (g, Cls.sc) ∈ ctlRow.fields := by obtain rfl | rfl | rfl := goBits_cases hg <;> simp [ctlRow]
  rw [s.shows_ctl bay (g, .sc) hf]
  simpa [State.flag] using h

theorem State.causesOf_go (hg : g ∈ goBits) (hidle : s.goIdle bay) (all : List FieldWrite) :
    s.causesOf ctlRow bay all ⟨g, .sc, 1⟩ = s.goCauses bay g := by
  have hcode : ∀ lo w, s.reservedCode ctlRow.kind bay ctlRow.sub lo w all = false := fun _ _ => rfl
  have hshows := State.shows_go hg hidle
  simp [State.causesOf, State.fieldCauses, State.placeCore, State.fieldLocked, hcode, State.goCauses, hshows]
  rfl

/-- TENANT takes a value in an EMPTY bay alone. -/
theorem State.causesOf_tenant (all : List FieldWrite) (w : Nat) :
    s.causesOf ctlRow bay all ⟨F.bayCtl_tenant, .rw, w⟩ = need (s.get F.bayCtl_state bay == 0) := by
  have hcode : ∀ lo w, s.reservedCode ctlRow.kind bay ctlRow.sub lo w all = false := fun _ _ => rfl
  simp [State.causesOf, State.fieldCauses, State.placeCore, State.fieldLocked, hcode]
  rfl

theorem State.writesPlain_go (ht : s.takes id = true) (hb : bay < 80) (hg : g ∈ goBits) (hidle : s.goIdle bay) :
    s.WritesPlain id (ctlAddr bay) ctlRow bay (s.goValue bay g) := by
  refine ⟨ht, s.placeOf_ctl hb, by decide, by decide, ?_, fun _ _ => rfl, ?_⟩
  · rw [recordOf, ctlAddr, if_neg (by omega)]
  · intro x hx hsc
    rw [s.given_goValue hb hg] at hx
    obtain rfl | rfl := mem_pair_iff.mp hx
    · exact State.shows_go hg hidle
    · cases hsc

/-- The fields that take their value: the go bit where nothing speaks against it, and TENANT in an EMPTY bay. -/
theorem State.taken_go (hb : bay < 80) (hg : g ∈ goBits) (hidle : s.goIdle bay) : s.taken ctlRow bay (s.goValue bay g) =
    (if s.goCauses bay g = [] then [⟨g, .sc, 1⟩] else []) ++
      (if s.get F.bayCtl_state bay = 0 then [⟨F.bayCtl_tenant, .rw, s.get F.bayCtl_tenant bay⟩] else []) := by
  rw [State.taken, s.given_goValue hb hg]
  by_cases h1 : s.goCauses bay g = [] <;> by_cases h2 : s.get F.bayCtl_state bay = 0 <;>
    simp [State.causesOf_go hg hidle, State.causesOf_tenant, need, h1, h2]

/-- TENANT, which keeps its value, is never refused. -/
theorem State.refusals_go (hb : bay < 80) (hg : g ∈ goBits) (hidle : s.goIdle bay) : s.refusals ctlRow bay (s.goValue bay g) =
    if s.goCauses bay g = [] then [] else [s.goCauses bay g] := by
  have htenant : s.shows ctlRow bay F.bayCtl_tenant = s.get F.bayCtl_tenant bay := s.shows_ctl bay (F.bayCtl_tenant, .rw) (by simp [ctlRow])
  rw [State.refusals, s.given_goValue hb hg]
  by_cases h1 : s.goCauses bay g = [] <;> by_cases h2 : s.get F.bayCtl_state bay = 0 <;>
    simp [State.causesOf_go hg hidle, State.causesOf_tenant, need, exempt, htenant, h1, h2]

/-- What a go bit that takes effect does. -/
def State.goEffect (s : State) (bay : Nat) (g : RF) : State :=
  if g = F.bayCtl_createGo then s.put F.bayCtl_state 1 bay else if g = F.bayCtl_retireGo then s.put F.bayCtl_state 2 bay else s.washBay bay

/-- The register itself keeps its value under the fields of the write. -/
theorem State.withFields_go {k : Kind} {h : HwDone} {a : Nat} {l : List FieldWrite}
    (hl : ∀ x ∈ l, x = ⟨F.bayCtl_tenant, .rw, s.get F.bayCtl_tenant bay⟩ ∨ x.cls = .sc) :
    withFields k h a (s.reg (ctlAddr bay)) l = s.reg (ctlAddr bay) := by
  induction l with
  | nil => rfl
  | cons x rest ih =>
    have hrest := ih (fun y hy => hl y (List.mem_cons_of_mem _ hy))
    unfold withFields at hrest ⊢
    rw [List.foldl_cons]
    obtain rfl | hsc := hl x List.mem_cons_self
    · have hsame : F.bayCtl_tenant.setIn (s.reg (ctlAddr bay)) (s.get F.bayCtl_tenant bay) = s.reg (ctlAddr bay) := setField_field _ _ _
      rw [hsame, hrest]
    · rw [hsc, hrest]

theorem State.effectOne_go (hc : s.canonical = true) (hb : bay < 80) (hg : g ∈ goBits) (hidle : s.goIdle bay) :
    s.effectOne ctlRow bay (s.goValue bay g) = (if s.goCauses bay g = [] then s.goEffect bay g else s, []) := by
  have hnew : withFields ctlRow.kind (s.hwDone (.plain ctlRow bay)) (Place.plain ctlRow bay).slot (s.stored (.plain ctlRow bay) ctlRow.kind)
      (s.taken ctlRow bay (s.goValue bay g)) = s.reg (ctlAddr bay) := by
    refine State.withFields_go (fun x hx => ?_)
    rw [State.taken_go hb hg hidle] at hx
    by_cases h1 : s.goCauses bay g = [] <;> by_cases h2 : s.get F.bayCtl_state bay = 0 <;> simp [h1, h2] at hx <;> grind
  have hkeep : s.keep (.plain ctlRow bay) (s.reg (ctlAddr bay)) = s := State.setReg_reg (ctlAddr bay) (State.regs_wf hc)
  have heffect : ∀ ok all new raw, s.effectPlain (.plain ctlRow bay) ctlRow.kind bay ok all new raw =
      (s.writeBayCtl (.plain ctlRow bay) bay ok new, []) := fun _ _ _ _ => rfl
  have hwrites : ∀ lo, lo ≠ 16 → writes (s.taken ctlRow bay (s.goValue bay g)) lo = (decide (s.goCauses bay g = []) && g.lo == lo) := by
    intro lo hlo
    rw [State.taken_go hb hg hidle]
    by_cases h1 : s.goCauses bay g = [] <;> by_cases h2 : s.get F.bayCtl_state bay = 0 <;>
      simp [writes, writtenAt, h1, h2, F.bayCtl_tenant, hlo.symm, List.find?_cons] <;> split <;> simp_all
  rw [State.effectOne, hnew, heffect, State.writeBayCtl, hkeep, hwrites 61 (by decide), hwrites 60 (by decide), hwrites 59 (by decide)]
  by_cases h : s.goCauses bay g = []
  · simp only [h, decide_true, Bool.true_and, if_true]
    obtain rfl | rfl | rfl := goBits_cases hg <;> simp [State.goEffect, F.bayCtl_createGo, F.bayCtl_retireGo, F.bayCtl_washGo]
  · simp [h]

/-- A write of a go bit: its effect, or the cause for which it has none. -/
theorem State.csrWrite_go (hc : s.canonical = true) (ht : s.takes id = true) (hb : bay < 80) (hg : g ∈ goBits) (hidle : s.goIdle bay) :
    (s.goCauses bay g = [] → s.csrWrite id (ctlAddr bay) (s.goValue bay g) = s.goEffect bay g) ∧
    ∀ c, s.goCauses bay g = [c] → s.csrWrite id (ctlAddr bay) (s.goValue bay g) = s.recordRefused [⟨id, ctlAddr bay, [c]⟩] := by
  have hwrite := State.writesPlain_go ht hb hg hidle
  have htaken := State.taken_go hb hg hidle
  have hrefusals := State.refusals_go hb hg hidle
  have heffect := State.effectOne_go hc hb hg hidle
  constructor
  · intro h
    rw [h, if_pos rfl] at heffect htaken hrefusals
    rw [hwrite.csrWrite_taken (by rw [htaken]; exact List.cons_ne_nil _ _) hrefusals (by rw [heffect]), heffect]
  · intro c h
    rw [h, if_neg (List.cons_ne_nil _ _)] at heffect hrefusals
    exact hwrite.csrWrite_refused hrefusals (fun _ => heffect)

end

/-! ## The clauses of O54 -/

section
variable {s : State} {id : BitVec 12} {bay : Nat}

/-- A go bit that may not take effect is refused with cause 6. -/
theorem State.go_refused {g : RF} (hc : s.canonical = true) (ht : s.takes id = true) (hb : bay < 80) (hg : g ∈ goBits) (hidle : s.goIdle bay)
    (h : s.goCauses bay g = [6]) : s.RecordedRefusal (s.csrWrite id (ctlAddr bay) (s.goValue bay g)) id (ctlAddr bay) 6 := by
  rw [(State.csrWrite_go hc ht hb hg hidle).2 6 h]
  exact State.recordedRefusal (State.regs_wf hc) (by unfold ctlAddr; omega) (by decide)

theorem State.exec_createGo (hb : bay < 80) :
    Machine.exec (.createGo bay id) s = .next (s.csrWrite id (ctlAddr bay) (s.goValue bay F.bayCtl_createGo)) := if_pos hb

theorem State.exec_retireGo (hb : bay < 80) :
    Machine.exec (.retireGo bay id) s = .next (s.csrWrite id (ctlAddr bay) (s.goValue bay F.bayCtl_retireGo)) := if_pos hb

theorem State.exec_washGo (hb : bay < 80) :
    Machine.exec (.washGo bay id) s = .next (s.csrWrite id (ctlAddr bay) (s.goValue bay F.bayCtl_washGo)) := if_pos hb

/-- STATE takes its value and nothing but BAY_CTL changes. -/
theorem State.put_bayState (hc : s.canonical = true) {st : Nat} (hst : st < 4) :
    s.onlyReg (ctlAddr bay) (s.put F.bayCtl_state st bay) ∧ (s.put F.bayCtl_state st bay).get F.bayCtl_state bay = st ∧
      (s.put F.bayCtl_state st bay).get F.bayCtl_tenant bay = s.get F.bayCtl_tenant bay := by
  have hok : F.bayCtl_state.ok := ⟨by decide, by decide⟩
  refine ⟨⟨rfl, fun k hk => State.reg_setReg_other _ _ _ _ hk.symm⟩, ?_, ?_⟩
  · rw [State.get_put _ _ _ _ (State.regs_wf hc) hok]
    exact Nat.mod_eq_of_lt hst
  · exact State.get_put_field _ _ _ _ _ _ (State.regs_wf hc) hok (by decide)

end

end Sys2Proof.Machine
end

section
/-! # The wash of a bay (R68, R69, R359)

WASH_GO starts the wash of every core of the bay and of the reserve of each of its shoals, one after another in the model. What counts is that
no start undoes an earlier one: it reaches the basin of its own core and, through the parity (R306), that of the reserve of its shoal. -/

namespace Sys2Proof.Machine

/-! ## What the start of a wash leaves -/

/-- A state that differs from `b` in its cores and in the configuration mirror only; the end of the wash and the basin of the cores in `P`
are as in `b`. -/
structure State.Spares (P : Nat → Prop) (b s : State) : Prop where
  only : { s with cores := b.cores, mirror := b.mirror, routeMirror := b.routeMirror } = b
  wf : Sparse.wf (fun _ => CoreState.reset) s.cores = true
  kept : ∀ q, P q → (s.core q).washEnd = (b.core q).washEnd ∧ (s.core q).basin = (b.core q).basin

namespace State.Spares

variable {P Q : Nat → Prop} {b s t : State}

theorem refl (h : Sparse.wf (fun _ => CoreState.reset) b.cores = true) : State.Spares P b b := ⟨rfl, h, fun _ _ => ⟨rfl, rfl⟩⟩

theorem regs (h : State.Spares P b s) : s.regs = b.regs := by
  have hs := congrArg State.regs h.only
  exact hs

theorem now (h : State.Spares P b s) : s.now = b.now := by
  have hs := congrArg State.now h.only
  exact hs

theorem tier (h : State.Spares P b s) : s.tier = b.tier := by
  have hs := congrArg State.tier h.only
  exact hs

theorem reg (h : State.Spares P b s) (a : Nat) : s.reg a = b.reg a := by rw [State.reg, h.regs]; rfl

theorem get (h : State.Spares P b s) (f : RF) (i : Nat) : s.get f i = b.get f i := by rw [State.get, h.reg]; rfl

theorem spare (h : State.Spares P b s) (j : Nat) : s.spare j = b.spare j := by simp only [State.spare, h.get]

theorem phys (h : State.Spares P b s) (k : Nat) : s.phys k = b.phys k := by simp only [State.phys, State.physAt, h.get]

/-- A core out of `P` changes. -/
theorem setCore (h : State.Spares P b s) {p : Nat} (hp : ¬ P p) (c : CoreState) : State.Spares P b (s.setCore p c) := by
  refine ⟨h.only, State.wf_setCore s p c h.wf, fun q hq => ?_⟩
  have hne : p ≠ q := fun he => hp (he ▸ hq)
  rw [State.core_setCore_other _ _ _ _ hne]
  exact h.kept q hq

/-- A core changes, but neither the end of its wash nor its basin. -/
theorem modCore (h : State.Spares P b s) (p : Nat) {f : CoreState → CoreState} (hf : ∀ c, (f c).washEnd = c.washEnd ∧ (f c).basin = c.basin) :
    State.Spares P b (s.modCore p f) := by
  refine ⟨h.only, State.wf_setCore s p _ h.wf, fun q hq => ?_⟩
  by_cases he : p = q
  · subst he
    rw [State.modCore, State.core_setCore _ _ _ h.wf, (hf _).1, (hf _).2]
    exact h.kept p hq
  · rw [State.modCore, State.core_setCore_other _ _ _ _ he]
    exact h.kept q hq

/-- A delta reaches the reserve of its shoal. -/
theorem applyDelta (h : State.Spares P b s) {j : Nat} (hj : ∀ r, b.spare j = some r → ¬ P r) (d : Delta) :
    State.Spares P b (s.applyDelta j d) := by
  unfold State.applyDelta
  split
  · exact h
  · next r hr => exact h.setCore (hj r (h.spare j ▸ hr)) _

theorem drainDeltas (h : State.Spares P b s) {j : Nat} (hj : ∀ r, b.spare j = some r → ¬ P r) : State.Spares P b (s.drainDeltas j) := by
  unfold State.drainDeltas
  refine List.foldlRecOn _ _ h (fun s h k _ => ?_)
  refine State.Spares.modCore ?_ _ (fun _ => ⟨rfl, rfl⟩)
  exact List.foldlRecOn _ _ h (fun s h x _ => List.foldlRecOn _ _ h (fun s h d _ => h.applyDelta hj d))

theorem foldRange (h : State.Spares P b s) {p : Nat} (hj : ∀ r, b.spare (p / 17) = some r → ¬ P r) (base len : Nat) :
    State.Spares P b (s.foldRange p base len) := by
  unfold State.foldRange
  exact List.foldlRecOn _ _ (h.modCore p (fun _ => ⟨rfl, rfl⟩)) (fun s h a _ => h.applyDelta hj _)

theorem unparity (h : State.Spares P b s) {p : Nat} (hj : ∀ r, b.spare (p / 17) = some r → ¬ P r) : State.Spares P b (s.unparity p) := by
  unfold State.unparity
  exact List.foldlRecOn _ _ (h.drainDeltas hj) (fun s h v _ => h.foldRange hj _ _)

theorem mirrors (h : State.Spares P b s) (m r : List (Nat × Reg64)) : State.Spares P b { s with mirror := m, routeMirror := r } :=
  ⟨h.only, h.wf, h.kept⟩

theorem washMirror (h : State.Spares P b s) (k : Nat) (c : CoreState) : State.Spares P b (s.washMirror k c) := by
  unfold State.washMirror
  exact h.mirrors _ _

/-- The start of a wash reaches its core and the reserve of its shoal. -/
theorem washCore (h : State.Spares P b s) {p : Nat} (hp : ¬ P p) (hj : ∀ r, b.spare (p / 17) = some r → ¬ P r) (k : Option Nat) :
    State.Spares P b (s.washCore p k) := by
  have h2 : State.Spares P b ((s.unparity p).setCore p ((s.core p).washed s.constBlocks (s.now + 2049))) := (h.unparity hj).setCore hp _
  cases k with
  | none => exact h2
  | some k => exact h2.washMirror k _

end State.Spares

/-- A core whose wash ends at tick `done`: its basin is clear (R68). -/
def CoreState.Washing (done : Nat) (c : CoreState) : Prop := c.washEnd = some done ∧ c.basin = []

theorem CoreState.Washing.put {done : Nat} {c : CoreState} (h : c.Washing done) (f : RF) (x i : Nat) : (c.put f x i).Washing done := h

theorem CoreState.washed_washing (c : CoreState) (blocks done : Nat) : (c.washed blocks done).Washing done := by
  unfold CoreState.washed
  iterate 10 refine CoreState.Washing.put ?_ _ _ _
  exact List.foldlRecOn _ _ ⟨rfl, rfl⟩ (fun _ h n _ => (h.put F.coveCfg_enable 0 n).put F.coveCfg_lock 0 n)

/-- The wash of the core at a place has begun at tick `now`. -/
def State.washBegun (s : State) (now q : Nat) : Prop := (s.core q).Washing (now + 2049)

/-- The frame of a wash alone. -/
abbrev State.WashFrame (b s : State) : Prop := State.Spares (fun _ => False) b s

theorem State.core_washMirror (s : State) (k : Nat) (c : CoreState) (p : Nat) : (s.washMirror k c).core p = s.core p := by
  simp only [State.washMirror, State.core]

section
variable {b s : State} {p q : Nat}

theorem State.washCore_washBegun (h : State.WashFrame b s) (p : Nat) (k : Option Nat) : (s.washCore p k).washBegun b.now p := by
  have h2 : State.WashFrame b (s.unparity p) := h.unparity (fun _ _ => not_false)
  have hcore : (s.washCore p k).core p = (s.core p).washed s.constBlocks (s.now + 2049) := by
    unfold State.washCore
    cases k with
    | none => exact State.core_setCore _ _ _ h2.wf
    | some k => exact (State.core_washMirror _ _ _ _).trans (State.core_setCore _ _ _ h2.wf)
  rw [State.washBegun, hcore, ← h.now]
  exact CoreState.washed_washing _ _ _

/-- The start of a wash does not undo another, unless that is of the reserve of its shoal. -/
theorem State.washBegun_washCore (h : State.WashFrame b s) (hq : b.spare (p / 17) = some q → p = q) (k : Option Nat)
    (hs : s.washBegun b.now q) : (s.washCore p k).washBegun b.now q := by
  by_cases he : p = q
  · subst he; exact State.washCore_washBegun h p k
  · have hspares : State.Spares (fun x => x = q) s (s.washCore p k) := by
      refine (State.Spares.refl h.wf).washCore (p := p) he (fun r hr hrq => he (hq ?_)) k
      rw [← h.spare, hr, hrq]
    obtain ⟨hend, hbasin⟩ := hspares.kept q rfl
    exact ⟨hend.trans hs.1, hbasin.trans hs.2⟩

/-- Washes that start one after another, none of them of the reserve of another's shoal at `q`: that at `q` has begun. -/
theorem State.foldl_washBegun {f : State → Nat → State} {hit : Nat → Prop} {l : List Nat}
    (hframe : ∀ s k, k ∈ l → State.WashFrame b s → State.WashFrame b (f s k))
    (hhit : ∀ s k, k ∈ l → State.WashFrame b s → hit k → (f s k).washBegun b.now q)
    (hkeep : ∀ s k, k ∈ l → State.WashFrame b s → s.washBegun b.now q → (f s k).washBegun b.now q)
    (h : State.WashFrame b s) (hq : s.washBegun b.now q ∨ ∃ k ∈ l, hit k) : (l.foldl f s).washBegun b.now q := by
  induction l generalizing s with
  | nil =>
    obtain hq | ⟨_, hk, _⟩ := hq
    · exact hq
    · cases hk
  | cons k rest ih =>
    have hrest : ∀ x, x ∈ rest → x ∈ k :: rest := fun x hx => List.mem_cons_of_mem _ hx
    refine ih (fun s x hx => hframe s x (hrest x hx)) (fun s x hx => hhit s x (hrest x hx)) (fun s x hx => hkeep s x (hrest x hx))
      (hframe s k List.mem_cons_self h) ?_
    obtain hq | ⟨x, hx, hxhit⟩ := hq
    · exact Or.inl (hkeep s k List.mem_cons_self h hq)
    · obtain rfl | hx := List.mem_cons.mp hx
      · exact Or.inl (hhit s x List.mem_cons_self h hxhit)
      · exact Or.inr ⟨x, hx, hxhit⟩

end

/-! ## The bay -/

/-- The washes of the bay's cores start. -/
def State.washCores (s : State) (bay : Nat) : State := (s.bayCores bay).foldl (fun s k => s.washCore (s.phys k) (some k)) s

/-- The wash of the reserve of a shoal starts, where there is one. -/
def State.washSpare (s : State) (k : Nat) : State :=
  match s.spare k with
  | some r => s.washCore r none
  | none => s

section
variable {s t : State} {bay : Nat}

theorem State.bayShoals_lt {j : Nat} (hj : j ∈ s.bayShoals bay) : j < 80 := by
  unfold State.bayShoals at hj
  split at hj
  · exact List.mem_range.mp (List.mem_filter.mp hj).1
  · cases hj

theorem State.mem_bayCores {k : Nat} (hk : k ∈ s.bayCores bay) : k / 16 ∈ s.bayShoals bay := by
  obtain ⟨j, hj, hkj⟩ := List.mem_flatMap.mp hk
  obtain ⟨i, hi, rfl⟩ := List.mem_range'.mp hkj
  have hdiv : (j * 16 + 1 * i) / 16 = j := by omega
  rwa [hdiv]

/-- A core of a bay lies in its shoal. -/
theorem State.phys_div {k : Nat} (hphys : ∀ j i, j < 80 → i < 16 → s.physAt j i < 17) (hk : k ∈ s.bayCores bay) : s.phys k / 17 = k / 16 := by
  have h := hphys (k / 16) (k % 16) (State.bayShoals_lt (State.mem_bayCores hk)) (Nat.mod_lt _ (by decide))
  unfold State.phys
  omega

theorem State.washCores_frame (h : Sparse.wf (fun _ => CoreState.reset) s.cores = true) : State.WashFrame s (s.washCores bay) := by
  unfold State.washCores
  exact List.foldlRecOn _ _ (State.Spares.refl h) (fun t ht k _ => ht.washCore not_false (fun _ _ => not_false) _)

theorem State.washSpare_frame (h : State.WashFrame s t) (k : Nat) : State.WashFrame s (t.washSpare k) := by
  unfold State.washSpare
  split
  · exact h.washCore not_false (fun _ _ => not_false) _
  · exact h

/-- The wash of a core that is no reserve of the bay begins with those of the bay's cores. -/
theorem State.washCores_washBegun (h : Sparse.wf (fun _ => CoreState.reset) s.cores = true)
    (hphys : ∀ j i, j < 80 → i < 16 → s.physAt j i < 17) {k : Nat} (hk : k ∈ s.bayCores bay)
    (hcore : ∀ j ∈ s.bayShoals bay, s.spare j ≠ some (s.phys k)) : (s.washCores bay).washBegun s.now (s.phys k) := by
  unfold State.washCores
  refine State.foldl_washBegun (hit := fun x => x = k) (fun t x _ ht => ht.washCore not_false (fun _ _ => not_false) _) ?_ ?_
    (State.Spares.refl h) (Or.inr ⟨k, hk, rfl⟩)
  · rintro t x _ ht rfl
    rw [ht.phys]
    exact State.washCore_washBegun ht _ _
  · intro t x hx ht hbegun
    rw [ht.phys]
    refine State.washBegun_washCore ht (fun hspare => ?_) _ hbegun
    rw [State.phys_div hphys hx] at hspare
    exact absurd hspare (hcore _ (State.mem_bayCores hx))

/-- The wash of a reserve of the bay begins with those of its reserves, which leave the other cores alone. -/
theorem State.washSpares_washBegun (hspare : ∀ j r, s.spare j = some r → r / 17 = j) (ht : State.WashFrame s t) {q : Nat}
    (hq : t.washBegun s.now q ∨ ∃ j ∈ s.bayShoals bay, s.spare j = some q) :
    ((s.bayShoals bay).foldl State.washSpare t).washBegun s.now q := by
  refine State.foldl_washBegun (hit := fun j => s.spare j = some q) (fun t x _ ht => State.washSpare_frame ht x) ?_ ?_ ht hq
  · intro t j _ ht hj
    rw [State.washSpare, ht.spare, hj]
    exact State.washCore_washBegun ht _ _
  · intro t j _ ht hbegun
    rw [State.washSpare, ht.spare]
    cases hr : s.spare j with
    | none => exact hbegun
    | some r =>
      refine State.washBegun_washCore ht (fun h => ?_) _ hbegun
      rw [hspare j r hr, hr] at h
      exact Option.some.inj h

/-- WASH_GO: the wash of every core of the bay and of every reserve of its shoals begins at once, and the tier stays. -/
theorem State.washBay_spec (hc : s.canonical = true) (hphys : ∀ j i, j < 80 → i < 16 → s.physAt j i < 17)
    (hspare : ∀ j r, s.spare j = some r → r / 17 = j) :
    (s.washBay bay).flag F.bayCtl_washGo bay = true ∧ (∀ k, k ∈ s.bayCores bay → (s.washBay bay).washBegun s.now (s.phys k)) ∧
      (∀ k r, k ∈ s.bayShoals bay → s.spare k = some r → (s.washBay bay).washBegun s.now r) ∧ (s.washBay bay).tier = s.tier := by
  have h1 : State.WashFrame s (s.washCores bay) := State.washCores_frame (State.cores_wf hc)
  have h2 : State.WashFrame s ((s.bayShoals bay).foldl State.washSpare (s.washCores bay)) :=
    List.foldlRecOn _ _ h1 (fun t ht k _ => State.washSpare_frame ht k)
  have hbay : s.washBay bay = ((s.bayShoals bay).foldl State.washSpare (s.washCores bay)).put F.bayCtl_washGo 1 bay := rfl
  have hwf : Sparse.wf plainReset ((s.bayShoals bay).foldl State.washSpare (s.washCores bay)).regs = true := by
    rw [h2.regs]; exact State.regs_wf hc
  rw [hbay]
  refine ⟨?_, fun k hk => ?_, fun k r hk hr => ?_, h2.tier⟩
  · rw [State.flag, State.get_put _ _ _ _ hwf ⟨by decide, by decide⟩]; rfl
  · refine State.washSpares_washBegun (t := s.washCores bay) hspare h1 ?_
    by_cases hcore : ∃ j ∈ s.bayShoals bay, s.spare j = some (s.phys k)
    · exact Or.inr hcore
    · exact Or.inl (State.washCores_washBegun (State.cores_wf hc) hphys hk (fun j hj he => hcore ⟨j, hj, he⟩))
  · exact State.washSpares_washBegun (t := s.washCores bay) hspare h1 (Or.inr ⟨k, hk, hr⟩)

end

end Sys2Proof.Machine
end

section
/-! # The end of a bay's wash (R358, R359)

WASH_GO clears and WASHES advances; a RETIRING bay without contexts becomes EMPTY. -/

namespace Sys2Proof.Machine

/-! ## The reserves, whose washes are behind them -/

theorem State.setCore_core {s : State} (p : Nat) (h : Sparse.wf (fun _ => CoreState.reset) s.cores = true) : s.setCore p (s.core p) = s := by
  simp only [State.setCore, State.core, Sparse.set_get (d := fun _ => CoreState.reset) p h]

/-- A core whose wash is over stays. -/
theorem State.endWash_none {s : State} {p : Nat} (h : Sparse.wf (fun _ => CoreState.reset) s.cores = true) (hp : (s.core p).washEnd = none) :
    s.endWash p = s := by
  rw [State.endWash, State.modCore, hp]
  exact s.setCore_core p h

theorem State.endReserveWashes_washed {s : State} {bay : Nat} (h : Sparse.wf (fun _ => CoreState.reset) s.cores = true)
    (hw : s.bayWashed bay = true) : s.endReserveWashes bay = s := by
  rw [State.bayWashed, Bool.and_eq_true, List.all_eq_true, List.all_eq_true] at hw
  obtain ⟨_, hreserves⟩ := hw
  unfold State.endReserveWashes
  refine List.foldlRecOn (motive := fun t => t = s) _ _ rfl (fun t ht k hk => ?_)
  subst ht
  have hk := hreserves k hk
  cases hr : t.spare k with
  | none => rfl
  | some r =>
    rw [hr] at hk
    exact State.endWash_none h (Option.isNone_iff_eq_none.mp hk)

/-! ## Carve-outs open again -/

/-- Registers open for a write of the new epoch, each at 0. -/
def State.reopen (s : State) (l : List Nat) : State := l.foldl (fun s a => ({ s with locked := eraseNat s.locked a } : State).setReg a 0) s

theorem State.reopen_cons (s : State) (a : Nat) (l : List Nat) :
    s.reopen (a :: l) = (({ s with locked := eraseNat s.locked a } : State).setReg a 0).reopen l := rfl

theorem State.wf_reopen {s : State} (l : List Nat) (h : Sparse.wf plainReset s.regs = true) : Sparse.wf plainReset (s.reopen l).regs = true :=
  List.foldlRecOn (motive := fun (t : State) => Sparse.wf plainReset t.regs = true) l _ h
    (fun t ht a _ => State.wf_setReg { t with locked := eraseNat t.locked a } a 0 ht)

theorem State.reopen_tier (s : State) (l : List Nat) : (s.reopen l).tier = s.tier :=
  List.foldlRecOn (motive := fun (t : State) => t.tier = s.tier) l _ rfl (fun _ h _ _ => h)

theorem State.reg_reopen_other {s : State} {l : List Nat} {k : Nat} (hk : k ∉ l) : (s.reopen l).reg k = s.reg k :=
  List.foldlRecOn (motive := fun (t : State) => t.reg k = s.reg k) l _ rfl
    (fun t h a ha => (State.reg_setReg_other { t with locked := eraseNat t.locked a } a k 0 (fun he => hk (he ▸ ha))).trans h)

theorem State.reg_reopen {s : State} {l : List Nat} {k : Nat} (h : Sparse.wf plainReset s.regs = true) (hk : k ∈ l) : (s.reopen l).reg k = 0 := by
  induction l generalizing s with
  | nil => cases hk
  | cons a rest ih =>
    rw [State.reopen_cons]
    have hwf : Sparse.wf plainReset (({ s with locked := eraseNat s.locked a } : State).setReg a 0).regs = true := State.wf_setReg _ _ _ h
    by_cases hrest : k ∈ rest
    · exact ih hwf hrest
    · obtain rfl : k = a := (List.mem_cons.mp hk).resolve_right hrest
      rw [State.reg_reopen_other hrest]
      exact State.reg_setReg _ _ _ h

theorem State.mem_locked_reopen {s : State} {l : List Nat} {k : Nat} : k ∈ (s.reopen l).locked ↔ k ∈ s.locked ∧ k ∉ l := by
  induction l generalizing s with
  | nil => simp [State.reopen]
  | cons a rest ih =>
    rw [State.reopen_cons, ih]
    simp [eraseNat, and_assoc]

/-! ## The grid stops -/

/-- Addresses of a bay's TID_SCHED and TID_STEP. -/
def gridAddrs (bay : Nat) : List Nat := [F.tidSched_arm.addr bay, F.tidStep_halted.addr bay]

/-- The cores of a held bay stop; registers of the plain and the tier stay. -/
theorem State.stopCores_kept (s : State) (l : List Nat) :
    (l.foldl (fun s k => s.modCore (s.phys k) CoreState.stopHere) s).regs = s.regs ∧
      (l.foldl (fun s k => s.modCore (s.phys k) CoreState.stopHere) s).tier = s.tier :=
  List.foldlRecOn (motive := fun (t : State) => t.regs = s.regs ∧ t.tier = s.tier) l _ ⟨rfl, rfl⟩ (fun _ h _ _ => h)

/-- Disarming writes TID_SCHED and TID_STEP. -/
theorem State.disarmBay_writes (s : State) (bay : Nat) (v : Reg64) : ∃ u : State, u.regs = s.regs ∧
    (s.disarmBay bay v).regs = ((u.setReg (F.tidSched_arm.addr bay) v).put F.tidStep_halted 0 bay).regs ∧
    (s.disarmBay bay v).tier = s.tier := by
  unfold State.disarmBay
  by_cases h : s.flag F.tidStep_halted bay = true
  · rw [if_pos h]
    obtain ⟨hregs, htier⟩ := s.stopCores_kept (s.bayCores bay)
    exact ⟨_, hregs, rfl, htier⟩
  · rw [if_neg h]
    exact ⟨s, rfl, rfl, rfl⟩

/-- The state of a bay whose grid has stopped. -/
def State.gridOff (s : State) (bay : Nat) : State :=
  (s.disarmBay bay (setField (s.reg (F.tidSched_arm.addr bay)) 63 63 0)).moved (F.tidSched_arm.addr bay)

theorem State.moved_regs (s : State) (a : Nat) : (s.moved a).regs = s.regs := rfl

theorem State.moved_tier (s : State) (a : Nat) : (s.moved a).tier = s.tier := rfl

theorem State.reg_congr {s t : State} (h : s.regs = t.regs) (k : Nat) : s.reg k = t.reg k := by rw [State.reg, State.reg, h]

section
variable {s : State} {bay : Nat}

theorem State.gridOff_tier : (s.gridOff bay).tier = s.tier := by
  obtain ⟨_, _, _, htier⟩ := s.disarmBay_writes bay (setField (s.reg (F.tidSched_arm.addr bay)) 63 63 0)
  rw [State.gridOff, State.moved_tier, htier]

theorem State.gridOff_regs (s : State) (bay : Nat) : ∃ u : State, u.regs = s.regs ∧ (s.gridOff bay).regs =
    ((u.setReg (F.tidSched_arm.addr bay) (setField (s.reg (F.tidSched_arm.addr bay)) 63 63 0)).put F.tidStep_halted 0 bay).regs := by
  obtain ⟨u, hu, hregs, _⟩ := s.disarmBay_writes bay (setField (s.reg (F.tidSched_arm.addr bay)) 63 63 0)
  exact ⟨u, hu, by rw [State.gridOff, State.moved_regs, hregs]⟩

theorem State.wf_gridOff (h : Sparse.wf plainReset s.regs = true) : Sparse.wf plainReset (s.gridOff bay).regs = true := by
  obtain ⟨u, hu, hregs⟩ := s.gridOff_regs bay
  rw [hregs]
  exact State.wf_put _ _ _ _ (State.wf_setReg _ _ _ (hu ▸ h))

theorem State.reg_gridOff {k : Nat} (hk : k ∉ gridAddrs bay) : (s.gridOff bay).reg k = s.reg k := by
  obtain ⟨u, hu, hregs⟩ := s.gridOff_regs bay
  simp only [gridAddrs, List.mem_cons, List.not_mem_nil, or_false, not_or] at hk
  obtain ⟨hsched, hstep⟩ := hk
  rw [State.reg_congr hregs, State.put, State.reg_setReg_other _ _ _ _ (Ne.symm hstep), State.reg_setReg_other _ _ _ _ (Ne.symm hsched),
    State.reg_congr hu]

theorem State.gridOff_armed (h : Sparse.wf plainReset s.regs = true) : (s.gridOff bay).get F.tidSched_arm bay = 0 := by
  obtain ⟨u, hu, hregs⟩ := s.gridOff_regs bay
  have hne : F.tidStep_halted.addr bay ≠ F.tidSched_arm.addr bay := by
    simp only [RF.addr, F.tidSched_arm, F.tidStep_halted]
    omega
  rw [State.get, State.reg_congr hregs, State.put, State.reg_setReg_other _ _ _ _ hne, State.reg_setReg _ _ _ (hu ▸ h)]
  exact field_setField _ _ _ _ (by decide) (by decide)

end

/-! ## EMPTY -/

section
variable {s : State} {f g : RF} {n i j : Nat}

/-- A field that counts on wraps. -/
theorem State.get_wrap (h : Sparse.wf plainReset s.regs = true) (hf : f.ok) :
    (s.wrap f n i).get f i = (s.get f i + n) % 2 ^ (f.hi + 1 - f.lo) := State.get_put s f _ i h hf

theorem State.get_wrap_field (h : Sparse.wf plainReset s.regs = true) (hf : f.ok) (hd : g.hi < f.lo ∨ f.hi < g.lo) :
    (s.wrap f n i).get g j = s.get g j := State.get_put_field s f g _ i j h hf hd

theorem State.wrap_tier : (s.wrap f n i).tier = s.tier := rfl

theorem State.wrap_locked : (s.wrap f n i).locked = s.locked := rfl

theorem State.wrap_cores : (s.wrap f n i).cores = s.cores := rfl

theorem State.reg_wrap_other {k : Nat} (hk : f.addr i ≠ k) : (s.wrap f n i).reg k = s.reg k := State.reg_setReg_other _ _ _ _ hk

theorem State.wf_wrap (h : Sparse.wf plainReset s.regs = true) : Sparse.wf plainReset (s.wrap f n i).regs = true := State.wf_put s f _ i h

end

section
variable {s : State} {bay : Nat}

theorem mem_carveAddrs {k : Nat} : k ∈ carveAddrs bay ↔ ∃ w < 5, k = 0x18000 + bay * 0x40 + w * 8 := by
  simp only [carveAddrs, List.mem_map, List.mem_range]
  exact exists_congr (fun w => and_congr_right (fun _ => eq_comm))

theorem State.emptyBay_eq : s.emptyBay bay =
    ((((s.gridOff bay).reopen (carveAddrs bay)).put F.bayCtl_state 0 bay).wrap F.bayCtl_bayEpoch 1 bay) := rfl

theorem State.emptyBay_tier : (s.emptyBay bay).tier = s.tier := by
  rw [State.emptyBay_eq, State.wrap_tier, State.put_tier, State.reopen_tier, State.gridOff_tier]

theorem State.emptyBay_locked : (s.emptyBay bay).locked = ((s.gridOff bay).reopen (carveAddrs bay)).locked := by
  rw [State.emptyBay_eq, State.wrap_locked, State.put_locked]

/-- Registers other than the bay's BAY_CTL are as the closed grid and the reopened carve-outs leave them. -/
theorem State.reg_emptyBay_reopen {k : Nat} (hctl : ctlAddr bay ≠ k) :
    (s.emptyBay bay).reg k = ((s.gridOff bay).reopen (carveAddrs bay)).reg k := by
  rw [State.emptyBay_eq, State.reg_wrap_other (f := F.bayCtl_bayEpoch) hctl]
  exact State.reg_setReg_other _ _ _ _ hctl

/-- Registers other than the bay's carve-outs, its BAY_CTL and its grid stay. -/
theorem State.reg_emptyBay {k : Nat} (hgrid : k ∉ gridAddrs bay) (hcarve : k ∉ carveAddrs bay) (hctl : ctlAddr bay ≠ k) :
    (s.emptyBay bay).reg k = s.reg k := by
  rw [State.reg_emptyBay_reopen hctl, State.reg_reopen_other hcarve, State.reg_gridOff hgrid]

theorem ctlAddr_kept (hb : bay < 80) : ctlAddr bay ∉ gridAddrs bay ∧ ctlAddr bay ∉ carveAddrs bay := by
  constructor
  · simp only [gridAddrs, List.mem_cons, List.not_mem_nil, or_false, RF.addr, F.tidSched_arm, F.tidStep_halted, ctlAddr]
    omega
  · rw [mem_carveAddrs]
    rintro ⟨w, hw, he⟩
    unfold ctlAddr at he
    omega

/-- BAY_CTL of an EMPTY bay: STATE is 0, its epoch is the next, and the rest stays. -/
theorem State.emptyBay_ctl (h : Sparse.wf plainReset s.regs = true) (hb : bay < 80) :
    (s.emptyBay bay).get F.bayCtl_state bay = 0 ∧
    (s.emptyBay bay).get F.bayCtl_bayEpoch bay = (s.get F.bayCtl_bayEpoch bay + 1) % 65536 ∧
    (s.emptyBay bay).get F.bayCtl_washGo bay = s.get F.bayCtl_washGo bay := by
  have hstate : F.bayCtl_state.ok := ⟨by decide, by decide⟩
  have hepoch : F.bayCtl_bayEpoch.ok := ⟨by decide, by decide⟩
  have h1 : Sparse.wf plainReset ((s.gridOff bay).reopen (carveAddrs bay)).regs = true := State.wf_reopen _ (State.wf_gridOff h)
  have h2 := State.wf_put _ F.bayCtl_state 0 bay h1
  have hreg : ((s.gridOff bay).reopen (carveAddrs bay)).reg (ctlAddr bay) = s.reg (ctlAddr bay) :=
    (State.reg_reopen_other (ctlAddr_kept hb).2).trans (State.reg_gridOff (ctlAddr_kept hb).1)
  rw [State.emptyBay_eq]
  refine ⟨?_, ?_, ?_⟩
  · rw [State.get_wrap_field h2 hepoch (by decide), State.get_put _ _ _ _ h1 hstate]
    rfl
  · rw [State.get_wrap h2 hepoch, State.get_put_field _ _ _ _ _ _ h1 hstate (by decide)]
    exact congrArg (fun r => (field r 47 32 + 1) % 65536) hreg
  · rw [State.get_wrap_field h2 hepoch (by decide), State.get_put_field _ _ _ _ _ _ h1 hstate (by decide)]
    exact congrArg (fun r => field r 59 59) hreg

theorem State.emptyBay_armed (h : Sparse.wf plainReset s.regs = true) (hb : bay < 80) : (s.emptyBay bay).armed bay = false := by
  have hcarve : F.tidSched_arm.addr bay ∉ carveAddrs bay := by
    rw [mem_carveAddrs]
    rintro ⟨w, hw, he⟩
    simp only [RF.addr, F.tidSched_arm] at he
    omega
  have hctl : ctlAddr bay ≠ F.tidSched_arm.addr bay := by
    simp only [ctlAddr, RF.addr, F.tidSched_arm]
    omega
  have hreg : (s.emptyBay bay).reg (F.tidSched_arm.addr bay) = (s.gridOff bay).reg (F.tidSched_arm.addr bay) := by
    rw [State.reg_emptyBay_reopen hctl, State.reg_reopen_other hcarve]
  have harm := State.gridOff_armed (bay := bay) h
  rw [State.get, ← hreg] at harm
  rw [State.armed, State.flag, State.get, harm]
  rfl

/-- The carve-outs and the shoal set of an EMPTY bay are 0 and open. -/
theorem State.emptyBay_carves (h : Sparse.wf plainReset s.regs = true) (hb : bay < 80) {k : Nat} (hk : k ∈ carveAddrs bay) :
    (s.emptyBay bay).reg k = 0 ∧ (s.emptyBay bay).isLocked k = false := by
  have hctl : ctlAddr bay ≠ k := fun he => (ctlAddr_kept hb).2 (he ▸ hk)
  constructor
  · rw [State.reg_emptyBay_reopen hctl, State.reg_reopen (State.wf_gridOff h) hk]
  · rw [State.isLocked, State.emptyBay_locked, decide_eq_false_iff_not, State.mem_locked_reopen]
    exact fun hm => hm.2 hk

end

/-! ## The command -/

section
variable {s : State} {bay : Nat}

/-- WASH_GO clears and WASHES advances. -/
def State.washTold (s : State) (bay : Nat) : State := (s.put F.bayCtl_washGo 0 bay).wrap F.bayStat_washes 1 bay

/-- The wash of a bay is over, and its contexts have been washed. -/
def State.washCounted (s : State) (bay : Nat) : State :=
  { s.washTold bay with ctxWashed := ((s.washTold bay).bayContexts bay).foldl insertNat (s.washTold bay).ctxWashed }

theorem State.washCounted_regs : (s.washCounted bay).regs = (s.washTold bay).regs := by simp only [State.washCounted]

theorem State.washCounted_tier : (s.washCounted bay).tier = s.tier := by
  simp only [State.washCounted, State.washTold, State.wrap_tier, State.put_tier]

theorem State.washCounted_locked : (s.washCounted bay).locked = s.locked := by
  simp only [State.washCounted, State.washTold, State.wrap_locked, State.put_locked]

theorem State.washCounted_core (p : Nat) : (s.washCounted bay).core p = s.core p := by
  simp only [State.core, State.washCounted, State.washTold, State.wrap_cores, State.put_cores]

theorem State.wf_washCounted (h : Sparse.wf plainReset s.regs = true) : Sparse.wf plainReset (s.washCounted bay).regs = true := by
  rw [State.washCounted_regs]
  exact State.wf_wrap (State.wf_put s F.bayCtl_washGo 0 bay h)

theorem State.get_washCounted (f : RF) (i : Nat) : (s.washCounted bay).get f i = (s.washTold bay).get f i := by
  rw [State.get, State.reg_congr State.washCounted_regs]; rfl

/-- A field of BAY_CTL other than WASH_GO stays. -/
theorem State.washCounted_ctl (h : Sparse.wf plainReset s.regs = true) {f : RF} (hf : f.addr bay = ctlAddr bay) (hd : f.hi < 59 ∨ 59 < f.lo) :
    (s.washCounted bay).get f bay = s.get f bay := by
  have hne : F.bayStat_washes.addr bay ≠ f.addr bay := by
    rw [hf]
    simp only [RF.addr, F.bayStat_washes, ctlAddr]
    omega
  rw [State.get_washCounted, State.washTold, State.get, State.reg_wrap_other hne]
  exact State.get_put_field _ _ _ _ _ _ h ⟨by decide, by decide⟩ hd

theorem State.washCounted_go (h : Sparse.wf plainReset s.regs = true) : (s.washCounted bay).get F.bayCtl_washGo bay = 0 := by
  have hne : F.bayStat_washes.addr bay ≠ F.bayCtl_washGo.addr bay := by
    simp only [RF.addr, F.bayStat_washes, F.bayCtl_washGo]
    omega
  rw [State.get_washCounted, State.washTold, State.get, State.reg_wrap_other hne]
  exact State.get_put _ _ _ _ h ⟨by decide, by decide⟩

theorem State.washCounted_washes (h : Sparse.wf plainReset s.regs = true) :
    (s.washCounted bay).get F.bayStat_washes bay = (s.get F.bayStat_washes bay + 1) % 2 ^ 32 := by
  have hne : F.bayCtl_washGo.addr bay ≠ F.bayStat_washes.addr bay := by
    simp only [RF.addr, F.bayStat_washes, F.bayCtl_washGo]
    omega
  rw [State.get_washCounted, State.washTold, State.get_wrap (State.wf_put _ _ _ _ h) ⟨by decide, by decide⟩, State.get_put_reg _ _ _ _ _ _ hne]
  rfl

/-- The contexts of a bay lie in their own registers. -/
theorem State.contextCount_congr {t : State} (h : ∀ k, 0x40000 ≤ k → t.reg k = s.reg k) : t.contextCount bay = s.contextCount bay := by
  have hget : ∀ (f : RF) c, 0x40000 ≤ f.addr c → t.get f c = s.get f c := fun f c hf => by rw [State.get, State.get, h _ hf]
  have hcontexts : t.bayContexts bay = s.bayContexts bay := by
    unfold State.bayContexts
    refine List.filter_congr (fun c _ => ?_)
    rw [hget F.ctxCfg_bay c (by simp only [RF.addr, F.ctxCfg_bay]; omega), hget F.ctxCfg_state c (by simp only [RF.addr, F.ctxCfg_state]; omega)]
  rw [State.contextCount, State.contextCount, hcontexts]

theorem State.washCounted_contexts (hb : bay < 80) : (s.washCounted bay).contextCount bay = s.contextCount bay := by
  refine State.contextCount_congr (fun k hk => ?_)
  rw [State.reg_congr State.washCounted_regs]
  have hstat : F.bayStat_washes.addr bay ≠ k := by simp only [RF.addr, F.bayStat_washes]; omega
  have hctl : F.bayCtl_washGo.addr bay ≠ k := by simp only [RF.addr, F.bayCtl_washGo]; omega
  rw [State.washTold, State.reg_wrap_other hstat, State.put, State.reg_setReg_other _ _ _ _ hctl]

theorem State.exec_bayWashDone (hc : s.canonical = true) (hb : bay < 80) (hgo : s.flag F.bayCtl_washGo bay = true)
    (hw : s.bayWashed bay = true) : Machine.exec (.bayWashDone bay) s = .next
      (if s.get F.bayCtl_state bay = 2 ∧ s.contextCount bay = 0 then (s.washCounted bay).emptyBay bay else s.washCounted bay) := by
  have hstate := State.washCounted_ctl (bay := bay) (State.regs_wf hc) (f := F.bayCtl_state) rfl (by decide)
  rw [← hstate, ← State.washCounted_contexts hb]
  show execBayWashDone bay s = _
  rw [execBayWashDone, onBay, if_pos hb, State.endReserveWashes_washed (State.cores_wf hc) hw]
  simp only [hgo, hw, Bool.and_self, if_true]
  rfl

/-- The wash clause of O54, where the bay does not become EMPTY. -/
theorem State.washDone_stays (hc : s.canonical = true) (hb : bay < 80) (hgo : s.flag F.bayCtl_washGo bay = true) (hw : s.bayWashed bay = true)
    (hstay : s.get F.bayCtl_state bay ≠ 2 ∨ s.contextCount bay ≠ 0) : Machine.exec (.bayWashDone bay) s = .next (s.washCounted bay) := by
  rw [State.exec_bayWashDone hc hb hgo hw, if_neg (fun h => hstay.elim (fun hne => hne h.1) (fun hne => hne h.2))]

/-- The wash clause of O54, where it does. -/
theorem State.washDone_empties (hc : s.canonical = true) (hb : bay < 80) (hgo : s.flag F.bayCtl_washGo bay = true) (hw : s.bayWashed bay = true)
    (hstate : s.get F.bayCtl_state bay = 2) (hcontexts : s.contextCount bay = 0) :
    Machine.exec (.bayWashDone bay) s = .next ((s.washCounted bay).emptyBay bay) := by
  rw [State.exec_bayWashDone hc hb hgo hw, if_pos ⟨hstate, hcontexts⟩]

/-- BAY_STAT is as the end of the wash left it. -/
theorem State.emptyBay_washes (hb : bay < 80) : (s.emptyBay bay).get F.bayStat_washes bay = s.get F.bayStat_washes bay := by
  have hgrid : F.bayStat_washes.addr bay ∉ gridAddrs bay := by
    simp only [gridAddrs, List.mem_cons, List.not_mem_nil, or_false, RF.addr, F.tidSched_arm, F.tidStep_halted, F.bayStat_washes]
    omega
  have hcarve : F.bayStat_washes.addr bay ∉ carveAddrs bay := by
    rw [mem_carveAddrs]
    rintro ⟨w, hw, he⟩
    simp only [RF.addr, F.bayStat_washes] at he
    omega
  have hctl : ctlAddr bay ≠ F.bayStat_washes.addr bay := by
    simp only [ctlAddr, RF.addr, F.bayStat_washes]
    omega
  rw [State.get, State.reg_emptyBay hgrid hcarve hctl]
  rfl

end

end Sys2Proof.Machine
end

section
/-! # Bays live (O54) -/

namespace Sys2Proof.Machine

section
variable {s : State} {id : BitVec 12} {bay : Nat}

/-- The carve-out clause. -/
theorem State.exec_bayCarveWrite_valid (hc : s.canonical = true) (ht : s.takes id = true) (hb : bay < 80) {word : Nat} {value : Reg64} (hw : word < 5)
    (hlock : s.isLocked (carveAddr bay word) = false) (hvalid : s.carveValid bay word value = true) :
    ∃ t, Machine.exec (.bayCarveWrite bay word id value) s = .next t ∧ { t with regs := s.regs, locked := s.locked } = s ∧
      t.isLocked (carveAddr bay word) = true ∧ (∀ k, k ≠ carveAddr bay word → t.reg k = s.reg k ∧ t.isLocked k = s.isLocked k) ∧
      (word < 2 → field (t.reg (carveAddr bay word)) 18 0 = field value 18 0 ∧ field (t.reg (carveAddr bay word)) 50 32 = field value 50 32) ∧
      (word = 2 → field (t.reg (carveAddr bay word)) 20 0 = field value 20 0 ∧ field (t.reg (carveAddr bay word)) 52 32 = field value 52 32) ∧
      (word = 3 → t.reg (carveAddr bay word) = value) ∧
      (word = 4 → field (t.reg (carveAddr bay word)) 15 0 = field value 15 0) := by
  obtain ⟨t, hexec, honly, hlocked, hothers, hfields⟩ := State.carve_valid hc ht hb hw hlock hvalid
  refine ⟨t, hexec, honly, hlocked, hothers, fun h => ?_, ?_, ?_, ?_⟩
  · obtain rfl | rfl : word = 0 ∨ word = 1 := by omega
    · exact ⟨hfields (F.bayCarve0_basinBase, .wo1) (by simp [carveRow]), hfields (F.bayCarve0_basinLimit, .wo1) (by simp [carveRow])⟩
    · exact ⟨hfields (F.bayCarve1_nearBase, .wo1) (by simp [carveRow]), hfields (F.bayCarve1_nearLimit, .wo1) (by simp [carveRow])⟩
  · rintro rfl
    exact ⟨hfields (F.bayCarve2_farBase, .wo1) (by simp [carveRow]), hfields (F.bayCarve2_farLimit, .wo1) (by simp [carveRow])⟩
  · rintro rfl
    have hset := hfields (F.bayShoalsLo_shoalsLo, .wo1) (by simp [carveRow])
    simp only [F.bayShoalsLo_shoalsLo, field_full] at hset
    exact BitVec.eq_of_toNat_eq hset
  · rintro rfl
    exact hfields (F.bayShoalsHi_shoalsHi, .wo1) (by simp [carveRow])

theorem State.goIdle_iff : s.goIdle bay ↔
    s.flag F.bayCtl_createGo bay = false ∧ s.flag F.bayCtl_retireGo bay = false ∧ s.flag F.bayCtl_washGo bay = false := by
  simp [State.goIdle, goBits]

/-- A go bit that may not take effect: the clause's words for what is recorded. -/
theorem State.RecordedRefusal.record {t : State} {addr cause : Nat} (h : s.RecordedRefusal t id addr cause) :
    s.onlyReg 0x100 t ∧ t.get F.plnAccessErr_count = min 65535 (s.get F.plnAccessErr_count + 1) ∧
      t.get F.plnAccessErr_cause = cause ∧ t.get F.plnAccessErr_master = id.toNat := ⟨h.only, h.count, h.cause, h.master⟩

/-- CREATE_GO and RETIRE_GO where they take effect. -/
theorem State.exec_createGo_of_mayCreate (hc : s.canonical = true) (ht : s.takes id = true) (hb : bay < 80) (hidle : s.goIdle bay)
    (hmay : s.mayCreate bay = true) : Machine.exec (.createGo bay id) s = .next (s.put F.bayCtl_state 1 bay) := by
  have hcauses : s.goCauses bay F.bayCtl_createGo = [] := by rw [State.goCauses_create, hmay]; rfl
  rw [State.exec_createGo hb, (State.csrWrite_go hc ht hb (by simp [goBits]) hidle).1 hcauses]
  rfl

theorem State.exec_retireGo_of_ready (hc : s.canonical = true) (ht : s.takes id = true) (hb : bay < 80) (hidle : s.goIdle bay)
    (hst : s.get F.bayCtl_state bay = 1) : Machine.exec (.retireGo bay id) s = .next (s.put F.bayCtl_state 2 bay) := by
  have hcauses : s.goCauses bay F.bayCtl_retireGo = [] := by rw [State.goCauses_retire, hst]; rfl
  rw [State.exec_retireGo hb, (State.csrWrite_go hc ht hb (by simp [goBits]) hidle).1 hcauses]
  rfl

theorem State.exec_washGo_of_stopped (hc : s.canonical = true) (ht : s.takes id = true) (hb : bay < 80) (hidle : s.goIdle bay)
    (hstopped : s.bayStopped bay = true) : Machine.exec (.washGo bay id) s = .next (s.washBay bay) := by
  have hcauses : s.goCauses bay F.bayCtl_washGo = [] := by rw [State.goCauses_wash, hstopped]; rfl
  rw [State.exec_washGo hb, (State.csrWrite_go hc ht hb (by simp [goBits]) hidle).1 hcauses]
  rfl

end

/-- Settles O54: a write at the CSR port is reduced to the fields that take it; then one lemma for each of its effects. -/
theorem baysLive : Obligations.BaysLive := by
  unfold Obligations.BaysLive
  intro s bay word role epoch id value hc ht hb a st ctl refused idle
  have hwf := State.regs_wf hc
  refine ⟨fun hw hlock => ⟨fun hvalid => State.exec_bayCarveWrite_valid hc ht hb hw hlock hvalid, fun hvalid => ?_⟩, fun hidle => ?_,
    fun hgo hwashed => ?_, fun hr he => State.exec_bayRoleWrite hc ht hb hr he,
    fun hword hvalid => ⟨_, State.exec_dtreeWrite ht value hword hvalid, rfl, rfl⟩⟩
  · obtain ⟨t, hexec, h⟩ := State.carve_invalid hc ht hb hw hlock hvalid
    exact ⟨t, hexec, h.record, h.addr⟩
  · have hidle := State.goIdle_iff.mpr hidle
    refine ⟨fun hmay => ?_, fun hmay => ?_, fun hst => ?_, fun hst => ?_, fun hstopped hphys hspare => ?_, fun hstopped => ?_⟩
    · exact ⟨_, State.exec_createGo_of_mayCreate hc ht hb hidle hmay, State.put_bayState hc (by decide)⟩
    · have hcauses : s.goCauses bay F.bayCtl_createGo = [6] := by rw [State.goCauses_create, hmay]; rfl
      exact ⟨_, State.exec_createGo hb, (State.go_refused hc ht hb (by simp [goBits]) hidle hcauses).record⟩
    · obtain ⟨honly, hstate, _⟩ := State.put_bayState (bay := bay) hc (st := 2) (by decide)
      exact ⟨_, State.exec_retireGo_of_ready hc ht hb hidle hst, honly, hstate⟩
    · have hcauses : s.goCauses bay F.bayCtl_retireGo = [6] := by rw [State.goCauses_retire, beq_eq_false_iff_ne.mpr hst]; rfl
      exact ⟨_, State.exec_retireGo hb, (State.go_refused hc ht hb (by simp [goBits]) hidle hcauses).record⟩
    · exact ⟨_, State.exec_washGo_of_stopped hc ht hb hidle hstopped, State.washBay_spec hc hphys hspare⟩
    · have hcauses : s.goCauses bay F.bayCtl_washGo = [6] := by rw [State.goCauses_wash, hstopped]; rfl
      exact ⟨_, State.exec_washGo hb, (State.go_refused hc ht hb (by simp [goBits]) hidle hcauses).record⟩
  · intro done
    have hwf' := State.wf_washCounted (bay := bay) hwf
    have hwent : ∀ {t : State}, t.get F.bayCtl_washGo bay = 0 → t.flag F.bayCtl_washGo bay = false := fun h => by rw [State.flag, h]; rfl
    refine ⟨fun hstay => ?_, fun hst hcontexts => ?_⟩
    · refine ⟨_, State.washDone_stays hc hb hgo hwashed hstay, ⟨?_, ?_, ?_⟩, ?_, ?_, ?_⟩
      · exact hwent (State.washCounted_go hwf)
      · exact State.washCounted_washes hwf
      · exact State.washCounted_tier
      · exact State.washCounted_ctl hwf (f := F.bayCtl_state) rfl (by decide)
      · exact State.washCounted_core
      · exact State.washCounted_locked
    · obtain ⟨hstate, hepoch, hwash⟩ := State.emptyBay_ctl hwf' hb
      refine ⟨_, State.washDone_empties hc hb hgo hwashed hst hcontexts, ⟨?_, ?_, ?_⟩, hstate, ?_,
        State.emptyBay_armed hwf' hb, fun k hk => ?_⟩
      · exact hwent (hwash.trans (State.washCounted_go hwf))
      · exact (State.emptyBay_washes hb).trans (State.washCounted_washes hwf)
      · exact State.emptyBay_tier.trans State.washCounted_tier
      · rw [hepoch, State.washCounted_ctl hwf (f := F.bayCtl_bayEpoch) rfl (by decide)]
      · obtain ⟨hzero, hopen⟩ := State.emptyBay_carves hwf' hb hk
        exact ⟨hzero, fun _ => hopen⟩

end Sys2Proof.Machine
end
